-- ==== Sys2Proof/Word.lean ====
section
/-! DEFINITION. The word of the register window (spec/11 section 11.2: 128 offsets of 16 bits) and the byte
of a frame (spec/10 R188). -/

namespace Sys2Proof

/-- A register of the window: 16 bits, bit 15 the most significant. -/
abbrev Word := BitVec 16

/-- A byte of a frame. -/
abbrev Byte := BitVec 8

end Sys2Proof
end

