-- ==== Sys2Proof/Config.lean ====
section
/-! DEFINITION. What the manual leaves open. -/

namespace Sys2Proof

/-- Which of several timed events that are due at one instant is taken first. The manual says of each pair that
either may be first (R62 to R65, R104, R105, R116, R130, R136, R149, R158 to R171); this value has no body, so
nothing can be proved from one order (log 3). It is applied to `State.draws`, and the step uses the result modulo
the number of events due. DESIGN CHOICE, safe. -/
opaque Config.dueChoice : Nat → Nat

end Sys2Proof
end

