-- ==== Sys2Proof/Syntax.lean ====
section
/-! DEFINITION. The commands that reach the arbiter: one constructor of `Instr` for each row of
spec/opcode_table.json, and the types of their operands. -/

namespace Sys2Proof

/-- A master port, 0..2. -/
abbrev Port := Fin 3
/-- A lamp channel, 0..15. -/
abbrev Channel := Fin 16
/-- An event line, 0..7. -/
abbrev Line := Fin 8
/-- A claim slot, 0..47. -/
abbrev Slot := Fin 48
/-- A pattern clock, 0..3. -/
abbrev ClockNo := Fin 4
/-- A sequence player, 0..1. -/
abbrev PlayerNo := Fin 2

/-- The four supply conditions (R151). -/
inductive SupplyCondition where
  | lampSupplyLow
  | overcurrent
  | overtempWarn
  | overtempShutdown
  deriving DecidableEq, Repr

/-- The kinds of channel fault (R169). -/
inductive FaultKind where
  | openString
  | short
  | ground
  deriving DecidableEq, Repr

/-- What power-on reset samples (R110, R148, R151, R155, R193; spec/00 External connections). -/
structure PowerOnPins where
  /-- the port the MSEL strap selects -/
  msel : Port
  /-- the LTS strap -/
  lts : Bool
  /-- the address straps of ports 0 and 1 -/
  address0 : Nat
  address1 : Nat
  /-- ENABLE stands high -/
  enable : Bool
  /-- HOLD stands asserted -/
  hold : Bool
  /-- the supply conditions the monitor reports present -/
  lampSupplyLow : Bool
  overcurrent : Bool
  overtempWarn : Bool
  overtempShutdown : Bool
  /-- the raw inputs, bit n the level of LINE n -/
  lines : Byte
  deriving DecidableEq, Repr

/-- The commands. A port command carries its port alone: its arguments are the port's ARG registers as they stand
when it is taken (R191). -/
inductive Instr where
  -- board lines and straps
  | powerOnReset (pins : PowerOnPins)
  | enableLow
  | enableHigh
  | holdAsserted
  | holdReleased
  -- lamp side
  | supplyOnset (c : SupplyCondition)
  | supplyClearing (c : SupplyCondition)
  | channelFaultEvent (ch : Channel) (k : FaultKind)
  -- event lines
  | lineInputChange (l : Line)
  | filterIntervalEnd (l : Line)
  | stretchEnd (l : Line)
  -- intervals and timers
  | initIntervalEnd
  | softstartIntervalEnd
  | standbyDelayExpiry
  | activeDurationTimerEnd
  | recoveryIntervalEnd
  | retryTimerEnd (ch : Channel)
  | cleanIntervalEnd (ch : Channel)
  | leaseExpiry (slot : Slot)
  | clockHalfEnd (k : ClockNo)
  | fadeCompletion (ch : Channel)
  | rampUpdate (n : PlayerNo)
  | stepCompletion (n : PlayerNo)
  | lampTestExpiry
  -- frames
  | writeFrameDiscarded (p : Port) (address : Nat) (bytes : List Byte)
  | registerWrite (p : Port) (offset : Byte) (value : Word)
  | portStatusRead (p : Port)
  | acceptedRead (p : Port)
  | refusedRead (p : Port)
  | maskSet (p : Port) (value : Word)
  | maskClear (p : Port) (value : Word)
  | noticePop (p : Port)
  -- port commands
  | claim (p : Port)
  | modify (p : Port)
  | withdraw (p : Port)
  | withdrawAll (p : Port)
  | renew (p : Port)
  | channelPolicy (p : Port)
  | scenePut (p : Port)
  | sceneDrop (p : Port)
  | sceneErase (p : Port)
  | sceneInvoke (p : Port)
  | playerAcquire (p : Port)
  | playerPush (p : Port)
  | playerEnd (p : Port)
  | playerStart (p : Port)
  | playerAbort (p : Port)
  | playerRelease (p : Port)
  | lineConfig (p : Port)
  | lineBind (p : Port)
  | lineUnbind (p : Port)
  | channelFade (p : Port)
  | clockConfig (p : Port)
  | derateConfig (p : Port)
  | lampTest (p : Port)
  | latchClear (p : Port)
  | channelEnable (p : Port)
  | channelRearmMode (p : Port)
  | faultRearm (p : Port)
  | watchSet (p : Port)
  | watchDrop (p : Port)
  | privSet (p : Port)
  | maintHandover (p : Port)
  | portReset (p : Port)
  | portClear (p : Port)
  | outputLevelRisesAbove0 (ch : Channel)
  deriving DecidableEq, Repr

end Sys2Proof
end

