-- ==== Sys2Proof/Machine/Frame.lean ====
section
/-! DEFINITION. The contents of a frame and its check byte (R188, R189, R199). -/

namespace Sys2Proof.Machine

/-- One bit of the CRC-8, most significant bit first: polynomial x^8+x^2+x+1 (R188). -/
def crcBit (crc : Byte) : Byte :=
  if crc.getLsbD 7 then (crc <<< 1) ^^^ 0x07#8 else crc <<< 1

/-- One byte of the CRC-8 (R188). -/
def crcByte (crc b : Byte) : Byte :=
  crcBit (crcBit (crcBit (crcBit (crcBit (crcBit (crcBit (crcBit (crc ^^^ b))))))))

/-- The CRC-8 of a list of bytes: initial value 0xFF, no final inversion (R188). -/
def crc8 (bytes : List Byte) : Byte := bytes.foldl crcByte 0xFF#8

def highByte (w : Word) : Byte := w.extractLsb' 8 8
def lowByte (w : Word) : Byte := w.extractLsb' 0 8

/-- The check byte of a frame: over the byte that carries the offset as it stands in the frame, data high and
data low (R188). -/
def checkByte (offsetByte : Byte) (data : Word) : Byte :=
  crc8 [offsetByte, highByte data, lowByte data]

/-- Port 2 is the SPI port; ports 0 and 1 are two-wire (spec/00 External connections). -/
def isSpi (p : Port) : Bool := p == 2

/-- The first byte of a write frame that carries an offset: on port 2 bit 7 is the direction, 0 for a write (R199). -/
def writeOffsetByte (p : Port) (offset : Byte) : Byte :=
  if isSpi p then offset &&& 0x7F#8 else offset

/-- The byte that carries the offset of a read frame: on port 2 bit 7 is 1 (R199). -/
def readOffsetByte (p : Port) (offset : Byte) : Byte :=
  if isSpi p then offset ||| 0x80#8 else offset

/-- What the port makes of the bytes of a write frame, from the byte that carries the offset to the end of the
frame (R189). -/
inductive WriteFrame where
  /-- exactly four bytes with the right check byte: the write is good -/
  | good (offset : Byte) (value : Word)
  /-- no byte, or the offset byte alone: the first part of a two-wire read, or an empty frame -/
  | empty
  /-- on port 2, a frame whose direction bit says read: no write frame -/
  | readDirection
  /-- wrong length or wrong check byte -/
  | discarded
  deriving DecidableEq, Repr

/-- The test of R189: exactly the offset, two data bytes and a check byte, and the check byte is right. R189 exempts the
frame that ends after its offset byte alone; a frame that ends before any offset byte is taken as an empty frame too, and
sets no flag (log 29, DESIGN CHOICE). -/
def readWriteFrame (p : Port) (bytes : List Byte) : WriteFrame :=
  match bytes with
  | [] => .empty
  | b :: rest =>
    if isSpi p && b.getLsbD 7 then .readDirection
    else match rest with
      | [] => .empty
      | [hi, lo, check] =>
        if check = crc8 [b, hi, lo] then .good b (hi ++ lo) else .discarded
      | _ => .discarded

end Sys2Proof.Machine
end

