-- ==== Sys2Proof/WellFormed.lean ====
section
/-! DEFINITION. Which terms of `Instr` can reach the arbiter. The types of the operands bound every channel, line,
slot, clock, player and port; three checks remain, all of them about frames. -/

namespace Sys2Proof

/-- An SPI frame has seven bits for the offset (R199). -/
def offsetFits (p : Port) (offset : Byte) : Bool := !(Machine.isSpi p) || !offset.getLsbD 7

/-- A good write is no WRITE_FRAME_DISCARDED (R189). -/
def isGoodFrame (p : Port) (bytes : List Byte) : Bool :=
  match Machine.readWriteFrame p bytes with
  | .good _ _ => true
  | .empty => false
  | .readDirection => false
  | .discarded => false

/-- A frame in the read direction is no write frame (R199). -/
def isReadFrame (p : Port) (bytes : List Byte) : Bool :=
  match Machine.readWriteFrame p bytes with
  | .good _ _ => false
  | .empty => false
  | .readDirection => true
  | .discarded => false

/-- The commands that can reach the arbiter as the row they are named for. The machine gives a meaning to the others
too (`Machine.writeFrameTaken`). -/
def Instr.wellFormed : Instr → Bool
  | .writeFrameDiscarded p _ bytes => !(isGoodFrame p bytes) && !(isReadFrame p bytes)
  | .registerWrite p offset _ => offsetFits p offset
  | .powerOnReset _ | .enableLow | .enableHigh | .holdAsserted | .holdReleased | .supplyOnset _
  | .supplyClearing _ | .channelFaultEvent _ _ | .lineInputChange _ | .filterIntervalEnd _ | .stretchEnd _
  | .initIntervalEnd | .softstartIntervalEnd | .standbyDelayExpiry | .activeDurationTimerEnd
  | .recoveryIntervalEnd | .retryTimerEnd _ | .cleanIntervalEnd _ | .leaseExpiry _ | .clockHalfEnd _
  | .fadeCompletion _ | .rampUpdate _ | .stepCompletion _ | .lampTestExpiry | .portStatusRead _
  | .acceptedRead _ | .refusedRead _ | .maskSet _ _ | .maskClear _ _ | .noticePop _ | .claim _ | .modify _
  | .withdraw _ | .withdrawAll _ | .renew _ | .channelPolicy _ | .scenePut _ | .sceneDrop _ | .sceneErase _
  | .sceneInvoke _ | .playerAcquire _ | .playerPush _ | .playerEnd _ | .playerStart _ | .playerAbort _
  | .playerRelease _ | .lineConfig _ | .lineBind _ | .lineUnbind _ | .channelFade _ | .clockConfig _
  | .derateConfig _ | .lampTest _ | .latchClear _ | .channelEnable _ | .channelRearmMode _ | .faultRearm _
  | .watchSet _ | .watchDrop _ | .privSet _ | .maintHandover _ | .portReset _ | .portClear _
  | .outputLevelRisesAbove0 _ => true

end Sys2Proof
end

