-- ==== Sys2Proof/Decode.lean ====
section
/-! DEFINITION. The decoder of table words. No row of spec/opcode_table.json gives bits ("fields" is empty in every
row, spec/98_reader.md n_rows_with_fields 0), so no word spells a command (log 21). -/

namespace Sys2Proof

/-- The command a word spells by the table's bits: none, since no row gives bits. -/
def decodeTableWord (_nbits _w : Nat) : Option Instr := none

end Sys2Proof
end

