-- ==== Sys2Proof/Machine/State.lean ====
section
/-! DEFINITION. Everything the arbiter holds, as plain data, and its value after power-on reset. INVENTORY.md lists
each field with its rule. Time is in whole milliseconds; an interval, timer, delay, lease, fade or clock half is held
by the instant at which it began or ends (log 1). -/

namespace Sys2Proof.Machine

/-- The numbers of spec/00 "Numbers, ranges and time". -/
abbrev Level := Fin 4096
abbrev Priority := Fin 8
abbrev FadeIndex := Fin 8
abbrev Gen := Fin 16
abbrev SceneNo := Fin 16
abbrev WatchNo := Fin 12
/-- An instant, or a length of time, in ms. -/
abbrev Instant := Nat
/-- A channel set: bit n set where channel n is a member (R202). -/
abbrev ChannelSet := BitVec 16

/-- A handle: slot and generation. *none* is `Option.none` (spec/00 Handles). -/
structure Handle where
  slot : Slot
  gen : Gen
  deriving DecidableEq, Repr

/-- The owner of a claim (spec/00 Owners). -/
inductive Owner where
  | port (p : Port)
  | line (l : Line)
  deriving DecidableEq, Repr

/-- The phase of a BLINK pattern (R1). -/
inductive Phase where
  | normal
  | inverted
  deriving DecidableEq, Repr

/-- A pattern with the parameters its kind uses (R1, R138). -/
inductive Pattern where
  | steady
  | blink (clock : ClockNo) (phase : Phase)
  | flash (line : Line)
  | combine (line : Line) (clock : ClockNo)
  deriving DecidableEq, Repr

/-- Where a claim's level comes from (R1, R35). -/
inductive LevelSource where
  | fixed (level : Level)
  | scene (n : SceneNo)
  | player (n : PlayerNo)
  deriving DecidableEq, Repr

/-- A lease: its length in units of 100 ms, 1..250, and its start instant (R55). -/
structure Lease where
  length : Fin 251
  start : Instant
  deriving DecidableEq, Repr

/-- The fields a record has while it is not FREE (R1). -/
structure Claim where
  /-- ACTIVE; false is DORMANT (R2) -/
  active : Bool
  owner : Owner
  channels : ChannelSet
  priority : Priority
  source : LevelSource
  pattern : Pattern
  fade : FadeIndex
  lease : Option Lease
  tag : Word
  deriving DecidableEq, Repr

/-- A claim record: FREE where `claim` is none (R1, R2). -/
structure ClaimRecord where
  gen : Gen
  claim : Option Claim
  deriving DecidableEq, Repr

/-- The policy of a channel (R39, R40). -/
inductive Policy where
  | priority
  | maximum
  deriving DecidableEq, Repr

/-- What the resolver holds for a channel (R28, R42, R50). -/
structure ResolverEntry where
  list : List Handle
  policy : Policy
  idle : Level
  winner : Option Handle
  target : Level
  pattern : Pattern
  deriving DecidableEq, Repr

/-- A scene: at most one level for each channel, and the in-use count (R68, R69). -/
structure Scene where
  levels : Vector (Option Level) 16
  inUse : Nat
  deriving DecidableEq, Repr

/-- A step record: ramp and hold in units of 10 ms (R88). -/
structure PlayerStep where
  level : Level
  ramp : Fin 1001
  hold : Fin 6001
  deriving DecidableEq, Repr

/-- The step that has begun and not completed: its ramp origin, when it began, and the ramp updates taken (R89). -/
structure CurrentStep where
  step : PlayerStep
  origin : Level
  began : Instant
  updates : Nat
  deriving DecidableEq, Repr

/-- The states of a player (R87). -/
inductive PlayerState where
  | free
  | loading
  | playing
  | starved
  | holding
  deriving DecidableEq, Repr

inductive PlayerMode where
  | oneShot
  | loop
  deriving DecidableEq, Repr

inductive FinishAction where
  | hold
  | release
  deriving DecidableEq, Repr

/-- What a player holds (R86). -/
structure Player where
  state : PlayerState
  holder : Option Port
  queue : List PlayerStep
  current : Option CurrentStep
  level : Level
  lastHanded : Level
  streamComplete : Bool
  mode : PlayerMode
  finish : FinishAction
  claim : Option Handle
  deriving DecidableEq, Repr

inductive Sense where
  | level
  | edge
  deriving DecidableEq, Repr

/-- Polarity is one setting with two values: the first reads HIGH or RISING, the second LOW or FALLING (R110). -/
inductive Polarity where
  | first
  | second
  deriving DecidableEq, Repr

inductive Activity where
  | quiet
  | asserted
  | stretch
  deriving DecidableEq, Repr

/-- The claim template of a binding (R118). -/
structure Template where
  channels : ChannelSet
  priority : Priority
  level : Level
  pattern : Pattern
  fade : FadeIndex
  deriving DecidableEq, Repr

/-- What the line unit holds for a line (R110, R118). -/
structure LineState where
  sense : Sense
  polarity : Polarity
  anyEdge : Bool
  /-- ms -/
  filter : Fin 16
  /-- units of 10 ms -/
  stretch : Fin 256
  raw : Bool
  filtered : Bool
  /-- the end of the running filter interval -/
  filterEnd : Option Instant
  activity : Activity
  /-- the end of the running stretch -/
  stretchEnd : Option Instant
  /-- none: unbound -/
  binding : Option Template
  claim : Option Handle
  deriving DecidableEq, Repr

inductive Shape where
  | linear
  | smooth
  deriving DecidableEq, Repr

/-- The fade state; a SETTLED level is the fade target, and a FADING level follows from these fields and the instant
(R126, R127, R128). -/
inductive Fade where
  | parked
  | settled
  | fading (origin : Level) (duration : Nat) (start : Instant) (shape : Shape)
  deriving DecidableEq, Repr

/-- What the modulator holds for a channel (R126). -/
structure ModChannel where
  fade : Fade
  target : Level
  pattern : Pattern
  defaultIndex : FadeIndex
  defaultShape : Shape
  deriving DecidableEq, Repr

/-- A pattern clock: half-period in units of 20 ms; `began` none while it stands stopped (R135, R137). -/
structure PatternClock where
  halfPeriod : Fin 128
  offHalf : Bool
  began : Option Instant
  deriving DecidableEq, Repr

/-- The stages of the output stage (R151, R152). -/
inductive StageName where
  | off
  | init
  | standby
  | softstart
  | active
  | recovery
  | latched
  deriving DecidableEq, Repr

/-- The causes of a stage change, in the order of the table of R153. -/
inductive Cause where
  | enableLow
  | enableHigh
  | initEnd
  | demand
  | holdRelease
  | supplyClear
  | softstartEnd
  | hold
  | noDemand
  | lampSupplyLow
  | overcurrent
  | overtempShutdown
  | recoveryLimit
  | recoveryEnd
  | channelFaults
  | latchClear
  deriving DecidableEq, Repr

/-- Which supply conditions are present (R151). -/
structure Supply where
  lampSupplyLow : Bool
  overcurrent : Bool
  overtempWarn : Bool
  overtempShutdown : Bool
  deriving DecidableEq, Repr

/-- What the output stage holds for the arbiter as a whole (R151). -/
structure OutputStage where
  stage : StageName
  lastCause : Cause
  recovery : Nat
  initEnd : Option Instant
  softEnd : Option Instant
  recoveryEnd : Option Instant
  standbyEnd : Option Instant
  activeEnd : Option Instant
  supply : Supply
  hold : Bool
  demand : Bool
  deriving DecidableEq, Repr

/-- A retry timer: running to its end, or paused with its remaining ms (R167, R171). -/
inductive RetryTimer where
  | running (ends : Instant)
  | paused (remaining : Nat)
  deriving DecidableEq, Repr

inductive RetryStatus where
  | pending (timer : RetryTimer)
  | held
  deriving DecidableEq, Repr

inductive FaultState where
  | ready
  | faulted (kind : FaultKind) (status : RetryStatus)
  deriving DecidableEq, Repr

/-- What the output stage holds for a channel (R167). -/
structure OutChannel where
  enabled : Bool
  /-- rearm mode MANUAL; false is AUTO -/
  manual : Bool
  fault : FaultState
  retry : Nat
  cleanEnd : Option Instant
  deriving DecidableEq, Repr

inductive WatchKind where
  | winner
  | fault
  | line
  deriving DecidableEq, Repr

/-- A watch entry in use (R176). -/
structure Watch where
  owner : Port
  kind : WatchKind
  lo : Fin 16
  hi : Fin 16
  oneShot : Bool
  deriving DecidableEq, Repr

inductive RemovalReason where
  | lease
  | ceiling
  | finished
  deriving DecidableEq, Repr

inductive FaultDetail where
  | kind (k : FaultKind)
  | ready
  deriving DecidableEq, Repr

inductive LineDetail where
  | start
  | stop
  deriving DecidableEq, Repr

inductive PlayerDetail where
  | lowWater
  | starved
  | finished
  | aborted
  deriving DecidableEq, Repr

inductive AccessDetail where
  | ceilingChanged
  | maintGained
  | maintLost
  | cleared
  deriving DecidableEq, Repr

/-- The new winner a WINNER notice reports (R48). -/
structure WinnerInfo where
  handle : Handle
  owner : Owner
  priority : Priority
  tag : Word
  deriving DecidableEq, Repr

/-- A notice, with the fields that apply to its kind (R181). -/
inductive Notice where
  | claimRemoved (subject : Channel) (handle : Handle) (owner : Port) (tag : Word) (reason : RemovalReason)
  | winner (subject : Channel) (info : Option WinnerInfo)
  | fault (subject : Channel) (detail : FaultDetail)
  | line (subject : Line) (detail : LineDetail)
  | player (subject : PlayerNo) (handle : Handle) (holder : Port) (tag : Word) (detail : PlayerDetail)
  | stage (subject : StageName) (cause : Cause)
  | access (subject : Port) (detail : AccessDetail)
  deriving DecidableEq, Repr

/-- The result codes (spec/00 Result codes), in the order of R202. -/
inductive ResultCode where
  | ok
  | full
  | quota
  | listFull
  | privilege
  | stale
  | notOwner
  | badArgument
  | inUse
  | busy
  | wrongState
  | empty
  deriving DecidableEq, Repr

/-- What the arbiter sends for a read frame: the data and the check byte (R188). -/
structure ReadReply where
  data : Word
  check : Byte
  deriving DecidableEq, Repr

/-- A port's registers, counters, flags and notice queue (R182 to R185, R190, R198). -/
structure PortState where
  args : Vector Word 8
  status : ResultCode
  handle : Option Handle
  extra : Word
  selChannel : Word
  selSlot : Word
  selList : Word
  selScene : Word
  selPlayer : Word
  accepted : Fin 10000
  refused : Fin 256
  frameError : Bool
  queue : List Notice
  overflow : Bool
  /-- the KIND_MASK register: bit k set where notice kind k is disabled -/
  kindMask : Word
  /-- the last read frame's answer (log 9) -/
  reply : Option ReadReply
  deriving DecidableEq, Repr

/-- A port's row of the access table (R193). -/
structure Rights where
  ceiling : Priority
  sceneEdit : Bool
  quota : Fin 49
  held : Nat
  deriving DecidableEq, Repr

/-- The access table: one maintenance port, and a row for each port (R193). -/
structure Access where
  maintenance : Port
  rights : Vector Rights 3
  deriving DecidableEq, Repr

/-- The arbiter. -/
structure State where
  /-- the instant, in ms; the model's own (log 1) -/
  now : Instant
  /-- how many free choices have been drawn; the model's own (log 3) -/
  draws : Nat
  /-- the commands waiting, first in, first out; the model's own -/
  pending : List Instr
  /-- the LTS strap as sampled at power-on (R148) -/
  lts : Bool
  /-- the strapped target addresses of ports 0 and 1 (R188, log 10) -/
  address0 : Nat
  address1 : Nat
  ports : Vector PortState 3
  access : Access
  pool : Vector ClaimRecord 48
  resolver : Vector ResolverEntry 16
  scenes : Vector Scene 16
  players : Vector Player 2
  lines : Vector LineState 8
  modulator : Vector ModChannel 16
  clocks : Vector PatternClock 4
  derateCeiling : Level
  /-- the end of the running lamp test; none is IDLE (R143) -/
  lampTest : Option Instant
  output : OutputStage
  outs : Vector OutChannel 16
  watches : Vector (Option Watch) 12
  deriving DecidableEq, Repr

/-- Why the arbiter stops: nothing in the manual stops it, so there is no such reason (log 17). -/
inductive Fault where
  deriving DecidableEq, Repr

/-- Why a command has no meaning. -/
inductive Refusal where
  /-- Raised by an arm of `exec` whose command has no meaning yet; no arm raises it. Safe: it proves nothing of the
  command. -/
  | notModelled (mnemonic : String)
  deriving DecidableEq, Repr

/-- A port after power-on (R183, R185, R187, R189, R198). -/
def PortState.reset : PortState :=
  { args := Vector.replicate 8 0, status := .ok, handle := none, extra := 0, selChannel := 0, selSlot := 0,
    selList := 0, selScene := 0, selPlayer := 0, accepted := 0, refused := 0, frameError := false, queue := [],
    overflow := false, kindMask := 0, reply := none }

/-- A port's row of the access table after power-on, by whether MSEL selects the port (R193). -/
def Rights.reset (selected : Bool) : Rights :=
  { ceiling := if selected then 7 else 6, sceneEdit := selected, quota := 16, held := 0 }

/-- The access table after power-on, for the port MSEL selects (R193). -/
def Access.reset (msel : Port) : Access :=
  { maintenance := msel,
    rights := #v[.reset (msel == 0), .reset (msel == 1), .reset (msel == 2)] }

/-- A FREE player (R86, R108). -/
def Player.reset : Player :=
  { state := .free, holder := none, queue := [], current := none, level := 0, lastHanded := 0,
    streamComplete := false, mode := .oneShot, finish := .hold, claim := none }

/-- A line after power-on (R110, R123), with its raw input low. -/
def LineState.reset : LineState :=
  { sense := .level, polarity := .first, anyEdge := false, filter := 0, stretch := 0, raw := false,
    filtered := false, filterEnd := none, activity := .quiet, stretchEnd := none, binding := none, claim := none }

/-- A pattern clock, stopped in its ON-half (R135, R137). -/
def PatternClock.reset (halfPeriod : Fin 128) : PatternClock :=
  { halfPeriod := halfPeriod, offHalf := false, began := none }

/-- The machine right after power-on reset, ENABLE low, MSEL selecting port 0, LTS not strapped, HOLD released, no
supply condition present, every raw input low and the address straps 0 (log 5). -/
def State.reset : State :=
  { now := 0, draws := 0, pending := [], lts := false, address0 := 0, address1 := 0,
    ports := Vector.replicate 3 PortState.reset,
    access := Access.reset 0,
    pool := Vector.replicate 48 { gen := 0, claim := none },
    resolver := Vector.replicate 16
      { list := [], policy := .priority, idle := 0, winner := none, target := 0, pattern := .steady },
    scenes := Vector.replicate 16 { levels := Vector.replicate 16 none, inUse := 0 },
    players := Vector.replicate 2 Player.reset,
    lines := Vector.replicate 8 LineState.reset,
    modulator := Vector.replicate 16
      { fade := .parked, target := 0, pattern := .steady, defaultIndex := 3, defaultShape := .linear },
    clocks := #v[.reset 13, .reset 25, .reset 5, .reset 50],
    derateCeiling := 2048,
    lampTest := none,
    output :=
      { stage := .off, lastCause := .enableLow, recovery := 0, initEnd := none, softEnd := none,
        recoveryEnd := none, standbyEnd := none, activeEnd := none,
        supply := { lampSupplyLow := false, overcurrent := false, overtempWarn := false, overtempShutdown := false },
        hold := false, demand := false },
    outs := Vector.replicate 16
      { enabled := true, manual := false, fault := .ready, retry := 0, cleanEnd := none },
    watches := Vector.replicate 12 none }

end Sys2Proof.Machine
end

