-- ==== Sys2Proof/Machine/Ops.lean ====
section
/-! DEFINITION. The named reads and writes of the state's tables: every register, record, entry and channel is read
and written through these. -/

namespace Sys2Proof.Machine

/-- The entry of a table at an index. -/
def tget {α : Type} {n : Nat} (v : Vector α n) (i : Fin n) : α := v[i.val]

/-- The table with one entry replaced. -/
def tset {α : Type} {n : Nat} (v : Vector α n) (i : Fin n) (x : α) : Vector α n := v.set i.val x i.isLt

/-- The table with one entry changed. -/
def tmod {α : Type} {n : Nat} (v : Vector α n) (i : Fin n) (f : α → α) : Vector α n := tset v i (f (tget v i))

/-- The table with every entry changed. -/
def tmap {α : Type} {n : Nat} (f : α → α) (v : Vector α n) : Vector α n :=
  ⟨⟨v.toList.map f⟩, by simp⟩

/-- The indexes of a table, ascending. -/
def indexes (n : Nat) : List (Fin n) := List.finRange n

/-- An operation done for each index of a list, in its order. -/
def forEach {ι : Type} (l : List ι) (f : ι → State → State) (s : State) : State :=
  l.foldl (fun s i => f i s) s

namespace State

def port (s : State) (p : Port) : PortState := tget s.ports p
def right (s : State) (p : Port) : Rights := tget s.access.rights p
def record (s : State) (slot : Slot) : ClaimRecord := tget s.pool slot
def entry (s : State) (ch : Channel) : ResolverEntry := tget s.resolver ch
def scene (s : State) (n : SceneNo) : Scene := tget s.scenes n
def player (s : State) (n : PlayerNo) : Player := tget s.players n
def line (s : State) (l : Line) : LineState := tget s.lines l
def chan (s : State) (ch : Channel) : ModChannel := tget s.modulator ch
def clock (s : State) (k : ClockNo) : PatternClock := tget s.clocks k
def out (s : State) (ch : Channel) : OutChannel := tget s.outs ch
def watch (s : State) (w : WatchNo) : Option Watch := tget s.watches w

def modPort (s : State) (p : Port) (f : PortState → PortState) : State := { s with ports := tmod s.ports p f }
def modRight (s : State) (p : Port) (f : Rights → Rights) : State :=
  { s with access := { s.access with rights := tmod s.access.rights p f } }
def setMaintenance (s : State) (p : Port) : State := { s with access := { s.access with maintenance := p } }
def modRecord (s : State) (slot : Slot) (f : ClaimRecord → ClaimRecord) : State :=
  { s with pool := tmod s.pool slot f }
def modEntry (s : State) (ch : Channel) (f : ResolverEntry → ResolverEntry) : State :=
  { s with resolver := tmod s.resolver ch f }
def modScene (s : State) (n : SceneNo) (f : Scene → Scene) : State := { s with scenes := tmod s.scenes n f }
def modPlayer (s : State) (n : PlayerNo) (f : Player → Player) : State := { s with players := tmod s.players n f }
def modLine (s : State) (l : Line) (f : LineState → LineState) : State := { s with lines := tmod s.lines l f }
def modLines (s : State) (f : LineState → LineState) : State := { s with lines := tmap f s.lines }
def modChan (s : State) (ch : Channel) (f : ModChannel → ModChannel) : State :=
  { s with modulator := tmod s.modulator ch f }
def modClock (s : State) (k : ClockNo) (f : PatternClock → PatternClock) : State :=
  { s with clocks := tmod s.clocks k f }
def modClocks (s : State) (f : PatternClock → PatternClock) : State := { s with clocks := tmap f s.clocks }
def modOut (s : State) (ch : Channel) (f : OutChannel → OutChannel) : State := { s with outs := tmod s.outs ch f }
def modOuts (s : State) (f : OutChannel → OutChannel) : State := { s with outs := tmap f s.outs }
def modWatches (s : State) (f : Option Watch → Option Watch) : State := { s with watches := tmap f s.watches }
def setWatch (s : State) (w : WatchNo) (x : Option Watch) : State := { s with watches := tset s.watches w x }
def modOutput (s : State) (f : OutputStage → OutputStage) : State := { s with output := f s.output }
def setLampTest (s : State) (t : Option Instant) : State := { s with lampTest := t }
def setDerateCeiling (s : State) (v : Level) : State := { s with derateCeiling := v }

end State

/-- Whether a channel is a member of a set (R202). -/
def inSet (cs : ChannelSet) (ch : Channel) : Bool := cs.getLsbD ch.val

/-- The channels of a set, ascending (spec/00 Channel sets). -/
def members (cs : ChannelSet) : List Channel := (indexes 16).filter (inSet cs)

/-- The set of the channels that a test selects. -/
def setOf (f : Channel → Bool) : ChannelSet :=
  (indexes 16).foldl (fun cs ch => if f ch then cs ||| (1#16 <<< ch.val) else cs) 0#16

/-- The lowest channel of a non-empty set. -/
def lowest (cs : ChannelSet) : Channel := (members cs).headD 0

/-- The lease, delay, interval or timer that ends at an instant has come to its end. -/
def dueAt (ends : Option Instant) (now : Instant) : Bool :=
  match ends with
  | none => false
  | some t => decide (t ≤ now)

/-- A level from a number that a check has found in 0..4095. -/
def toLevel (n : Nat) : Level := Fin.ofNat 4096 n

end Sys2Proof.Machine
end

