-- ==== Sys2Proof/Machine/Times.lean ====
section
/-! DEFINITION. The times and fixed levels the manual gives. All times are in ms. -/

namespace Sys2Proof.Machine

/-- The fade time of a fade index (spec/00 Fade index, R126). -/
def fadeTime (i : FadeIndex) : Nat :=
  match i with
  | 0 => 0
  | 1 => 50
  | 2 => 100
  | 3 => 200
  | 4 => 400
  | 5 => 800
  | 6 => 1600
  | 7 => 3200

/-- INIT interval (R155). -/
def initTime : Nat := 10
/-- Softstart interval (R157). -/
def softstartTime : Nat := 20
/-- Recovery interval (R163). -/
def recoveryTime : Nat := 250
/-- Standby delay (R159). -/
def standbyTime : Nat := 500
/-- ACTIVE-duration timer (R160). -/
def activeTime : Nat := 10000
/-- Retry timer (R169). -/
def retryTime : Nat := 1000
/-- Clean interval (R172). -/
def cleanTime : Nat := 10000
/-- Start-up lamp test (R148). -/
def startupTestTime : Nat := 1000
/-- The recovery count at which an onset latches (R163). -/
def recoveryLimit : Nat := 4
/-- The test level (R141). -/
def testLevel : Level := 3072

/-- When a lease falls due (R55). -/
def Lease.ends (l : Lease) : Instant := l.start + 100 * l.length.val

/-- When the present half of a running clock ends (R135). -/
def PatternClock.ends (c : PatternClock) : Option Instant :=
  c.began.map fun b => b + 20 * c.halfPeriod.val

/-- When the next ramp update of a step is taken; none once the ramp has ended (R89). -/
def CurrentStep.nextUpdate (c : CurrentStep) : Option Instant :=
  if c.updates < c.step.ramp.val then some (c.began + 10 * (c.updates + 1)) else none

/-- When a step whose ramp has ended completes (R90). -/
def CurrentStep.completes (c : CurrentStep) : Option Instant :=
  if c.updates < c.step.ramp.val then none else some (c.began + 10 * (c.step.ramp.val + c.step.hold.val))

end Sys2Proof.Machine
end

