-- ==== Sys2Proof/Machine/Flags.lean ====
section
/-! DEFINITION. The codes and numeric forms of R202, and the flags and counters of a port (R182, R185, R189, R192). -/

namespace Sys2Proof.Machine

/-- Result codes (R202). -/
def ResultCode.code : ResultCode → Nat
  | .ok => 0
  | .full => 1
  | .quota => 2
  | .listFull => 3
  | .privilege => 4
  | .stale => 5
  | .notOwner => 6
  | .badArgument => 7
  | .inUse => 8
  | .busy => 9
  | .wrongState => 10
  | .empty => 11

/-- Notice kinds (R202); 0 is NONE. -/
def Notice.kindCode : Notice → Nat
  | .claimRemoved .. => 1
  | .winner .. => 2
  | .fault .. => 3
  | .line .. => 4
  | .player .. => 5
  | .stage .. => 6
  | .access .. => 7

/-- The bits of KIND_MASK that name a kind, k = 1..7 (R200). -/
def kindBits : Word := 0x00FE

/-- Stages (R202). -/
def StageName.code : StageName → Nat
  | .off => 0
  | .init => 1
  | .standby => 2
  | .softstart => 3
  | .active => 4
  | .recovery => 5
  | .latched => 6

/-- Stage causes: 0..15 in the order of the table of R153 (R202). -/
def Cause.code : Cause → Nat
  | .enableLow => 0
  | .enableHigh => 1
  | .initEnd => 2
  | .demand => 3
  | .holdRelease => 4
  | .supplyClear => 5
  | .softstartEnd => 6
  | .hold => 7
  | .noDemand => 8
  | .lampSupplyLow => 9
  | .overcurrent => 10
  | .overtempShutdown => 11
  | .recoveryLimit => 12
  | .recoveryEnd => 13
  | .channelFaults => 14
  | .latchClear => 15

/-- Owners; 15 none (R202). -/
def Owner.code : Owner → Nat
  | .port p => p.val
  | .line l => 3 + l.val

/-- Level sources (R202). -/
def LevelSource.code : LevelSource → Nat
  | .fixed _ => 0
  | .scene _ => 1
  | .player _ => 2

def Phase.code : Phase → Nat
  | .normal => 0
  | .inverted => 1

/-- The 8 bits of a pattern; a parameter the kind does not use reads 0 (R202). -/
def Pattern.code : Pattern → Nat
  | .steady => 0
  | .blink k ph => 1 + 4 * k.val + 16 * ph.code
  | .flash l => 2 + 32 * l.val
  | .combine l k => 3 + 4 * k.val + 32 * l.val

/-- The pattern that 8 bits name: kind, clock, phase, line; the parameters the kind does not use are ignored
(R9, R202). -/
def patternOf (b : Byte) : Pattern :=
  let clock : ClockNo := ⟨(b.extractLsb' 2 2).toNat, (b.extractLsb' 2 2).isLt⟩
  let line : Line := ⟨(b.extractLsb' 5 3).toNat, (b.extractLsb' 5 3).isLt⟩
  match (b.extractLsb' 0 2).toNat with
  | 0 => .steady
  | 1 => .blink clock (if b.getLsbD 4 then .inverted else .normal)
  | 2 => .flash line
  | _ => .combine line clock

/-- A handle is generation × 64 + slot (R202). -/
def Handle.code (h : Handle) : Nat := h.gen.val * 64 + h.slot.val

/-- The numeric form of a handle or of *none*, 0xFFFF (R202). -/
def handleCode : Option Handle → Nat
  | none => 0xFFFF
  | some h => h.code

/-- The handle a value decodes to: none where bits 15..10 are not all zero or bits 5..0 hold 48..63 (R202, R204). -/
def handleOf (w : Word) : Option Handle :=
  if w.extractLsb' 10 6 = 0 then
    if h : (w.extractLsb' 0 6).toNat < 48 then
      some ⟨⟨(w.extractLsb' 0 6).toNat, h⟩, ⟨(w.extractLsb' 6 4).toNat, (w.extractLsb' 6 4).isLt⟩⟩
    else none
  else none

/-- The accepted counter steps for OK; a step from 9999 gives 0 (R192). -/
def stepAccepted (n : Fin 10000) : Fin 10000 := n + 1

/-- The refused counter steps for any other code and stays at 255 (R192). -/
def stepRefused (n : Fin 256) : Fin 256 := if n = 255 then 255 else n + 1

/-- The result of a command: status, handle and extra word (R191). -/
structure Result where
  code : ResultCode
  handle : Option Handle
  extra : Nat
  deriving DecidableEq, Repr

/-- The result registers take the result, and the counter it belongs to steps (R191, R192). -/
def setResult (p : Port) (r : Result) (s : State) : State :=
  s.modPort p fun q =>
    { q with
      status := r.code, handle := r.handle, extra := BitVec.ofNat 16 r.extra,
      accepted := if r.code = .ok then stepAccepted q.accepted else q.accepted,
      refused := if r.code = .ok then q.refused else stepRefused q.refused }

/-- The attention output: asserted while the queue holds a notice or the overflow flag is set (R185). -/
def attention (s : State) (p : Port) : Bool := !(s.port p).queue.isEmpty || (s.port p).overflow

end Sys2Proof.Machine
end

