-- ==== Sys2Proof/Machine/Operands.lean ====
section
/-! DEFINITION. The arguments of a command, read from the ARG registers of its port as they stand (R191, R203, R204). -/

namespace Sys2Proof.Machine

/-- ARG register i of a port, whole. -/
def arg (s : State) (p : Port) (i : Fin 8) : Word := tget (s.port p).args i

/-- A whole-register number. -/
def argNat (s : State) (p : Port) (i : Fin 8) : Nat := (arg s p i).toNat

/-- The number as an index below a bound, none where it is out of range. -/
def inRange (n bound : Nat) : Option (Fin bound) := if h : n < bound then some ⟨n, h⟩ else none

/-- A claim word: bits 2..0 priority, bits 6..4 fade index, bits 15..8 pattern (R203). -/
structure ClaimWord where
  priority : Priority
  fade : FadeIndex
  pattern : Pattern
  deriving DecidableEq, Repr

def claimWordOf (w : Word) : ClaimWord :=
  { priority := ⟨(w.extractLsb' 0 3).toNat, (w.extractLsb' 0 3).isLt⟩,
    fade := ⟨(w.extractLsb' 4 3).toNat, (w.extractLsb' 4 3).isLt⟩,
    pattern := patternOf (w.extractLsb' 8 8) }

/-- The claim word of a command stands in ARG2. -/
def argClaimWord (s : State) (p : Port) : ClaimWord := claimWordOf (arg s p 2)

/-- The lease of a lease word, bits 7..0: 0 absent, 1..250 a length, 251..255 out of range (R202, R204). The outer
none is out of range, the inner none an absent lease. -/
def leaseOf (w : Word) (now : Instant) : Option (Option Lease) :=
  let n := (w.extractLsb' 0 8).toNat
  if n = 0 then some none
  else if h : n < 251 then some (some { length := ⟨n, h⟩, start := now })
  else none

/-- The lease of a command stands in ARG3 and starts in this taking (R56). -/
def argLease (s : State) (p : Port) : Option (Option Lease) := leaseOf (arg s p 3) s.now

/-- The lease operation of a MODIFY (R203). -/
inductive LeaseOp where
  | set (lease : Lease)
  | restart
  | remove
  deriving DecidableEq, Repr

/-- The lease operation of a lease word: bits 9..8; SET needs a length 1..250, and 3 is no operation (R204). -/
def leaseOpOf (w : Word) (now : Instant) : Option LeaseOp :=
  match (w.extractLsb' 8 2).toNat with
  | 0 =>
    match leaseOf w now with
    | some (some l) => some (.set l)
    | _ => none
  | 1 => some .restart
  | 2 => some .remove
  | _ => none

/-- The field select of a MODIFY, ARG5 (R203). -/
structure FieldSelect where
  level : Bool
  priority : Bool
  pattern : Bool
  fade : Bool
  lease : Bool
  tag : Bool
  deriving DecidableEq, Repr

def fieldSelectOf (w : Word) : FieldSelect :=
  { level := w.getLsbD 0, priority := w.getLsbD 1, pattern := w.getLsbD 2, fade := w.getLsbD 3,
    lease := w.getLsbD 4, tag := w.getLsbD 5 }

/-- A field select that chooses nothing (R15). -/
def FieldSelect.isEmpty (f : FieldSelect) : Bool :=
  !(f.level || f.priority || f.pattern || f.fade || f.lease || f.tag)

/-- A value with two codes, 0 and 1; any other code is not listed (R204). -/
def twoValued {α : Type} (n : Nat) (zero one : α) : Option α :=
  match n with
  | 0 => some zero
  | 1 => some one
  | _ => none

def policyOf (n : Nat) : Option Policy := twoValued n .priority .maximum
def shapeOf (n : Nat) : Option Shape := twoValued n .linear .smooth
def senseOf (n : Nat) : Option Sense := twoValued n .level .edge
def polarityOf (n : Nat) : Option Polarity := twoValued n .first .second
def modeOf (n : Nat) : Option PlayerMode := twoValued n .oneShot .loop
def finishOf (n : Nat) : Option FinishAction := twoValued n .hold .release
def flagOf (n : Nat) : Option Bool := twoValued n false true

/-- Watch kinds: 0 WINNER, 1 FAULT, 2 LINE (R203). -/
def watchKindOf (n : Nat) : Option WatchKind :=
  match n with
  | 0 => some .winner
  | 1 => some .fault
  | 2 => some .line
  | _ => none

/-- The largest subject of a watch kind: channels 0..15, lines 0..7 (R176). -/
def WatchKind.top : WatchKind → Nat
  | .winner => 15
  | .fault => 15
  | .line => 7

/-- Bits of a word as a number. -/
def field (w : Word) (lo len : Nat) : Nat := (w.extractLsb' lo len).toNat

end Sys2Proof.Machine
end

