-- ==== Sys2Proof/Machine/Notices.lean ====
section
/-! DEFINITION. The notice unit: offering a notice, firing the watches, and the port's own queue and mask writes
(spec/09). -/

namespace Sys2Proof.Machine

/-- The most notices a queue holds (R182). -/
def queueLimit : Nat := 16

/-- A notice offered to a port: discarded by the mask, discarded with overflow set, or queued (R182). -/
def offerTo (n : Notice) (q : PortState) : PortState :=
  if q.kindMask.getLsbD n.kindCode then q
  else if queueLimit ≤ q.queue.length then { q with overflow := true }
  else { q with queue := q.queue ++ [n] }

def offer (p : Port) (n : Notice) (s : State) : State := s.modPort p (offerTo n)

/-- A notice offered to every port (R153). -/
def offerAll (n : Notice) (s : State) : State := forEach (indexes 3) (fun p => offer p n) s

/-- Whether a watch entry is in use by a port, of a kind, and covers a subject (R176, R179). -/
def watchMatches (p : Port) (k : WatchKind) (subject : Nat) (w : Option Watch) : Bool :=
  match w with
  | none => false
  | some e => e.owner == p && e.kind == k && decide (e.lo.val ≤ subject) && decide (subject ≤ e.hi.val)

/-- A matching entry whose one-shot flag is set is freed (R179). -/
def spendOneShot (p : Port) (k : WatchKind) (subject : Nat) (w : Option Watch) : Option Watch :=
  match w with
  | none => none
  | some e => if watchMatches p k subject w && e.oneShot then none else some e

/-- An event at the entries of one port: one notice if any entry matches, and the matching one-shot entries are
freed, whatever becomes of the notice (R179). -/
def fireFor (k : WatchKind) (subject : Nat) (n : Notice) (p : Port) (s : State) : State :=
  if s.watches.toList.any (watchMatches p k subject) then
    (offer p n s).modWatches (spendOneShot p k subject)
  else s

/-- An event at the watch table, for each port in turn (R179). -/
def fireWatches (k : WatchKind) (subject : Nat) (n : Notice) (s : State) : State :=
  forEach (indexes 3) (fireFor k subject n) s

/-- A change of a channel's fault state (R174). -/
def faultEvent (ch : Channel) (d : FaultDetail) (s : State) : State :=
  fireWatches .fault ch.val (.fault ch d) s

/-- The entries of a port in the watch table. -/
def watchCount (s : State) (p : Port) : Nat :=
  (s.watches.toList.filter fun w => match w with | none => false | some e => e.owner == p).length

/-- The lowest free watch entry (R177). -/
def freeWatch? (s : State) : Option WatchNo := (indexes 12).find? fun w => (s.watch w).isNone

/-- The notice unit's part of a port reset (R187, R196 step 1). -/
def resetNotices (p : Port) (s : State) : State :=
  (s.modWatches fun w => match w with | none => none | some e => if e.owner = p then none else some e).modPort p
    fun q => { q with queue := [], overflow := false, kindMask := 0 }

/-- A write to MASK_SET disables the kinds named (R183). -/
def disableKinds (p : Port) (v : Word) (s : State) : State :=
  s.modPort p fun q => { q with kindMask := q.kindMask ||| (v &&& kindBits) }

/-- A write to MASK_CLEAR enables the kinds named (R183). -/
def enableKinds (p : Port) (v : Word) (s : State) : State :=
  s.modPort p fun q => { q with kindMask := q.kindMask &&& ~~~(v &&& kindBits) }

/-- A write to NOTICE_POP removes the oldest notice (R184). -/
def popNotice (p : Port) (s : State) : State := s.modPort p fun q => { q with queue := q.queue.tail }

end Sys2Proof.Machine
end

