-- ==== Sys2Proof/Machine/Modulator.lean ====
section
/-! DEFINITION. The modulator: fades, gates, derating and the output level (spec/07). -/

namespace Sys2Proof.Machine

/-! ### Fade levels -/

/-- The value part-way between two levels: the change times num / den, its fraction discarded toward the origin
(R89, R127, R128). -/
def partWay (origin target : Level) (num den : Nat) : Level :=
  if origin.val ≤ target.val then toLevel (origin.val + (target.val - origin.val) * num / den)
  else toLevel (origin.val - (origin.val - target.val) * num / den)

/-- The fixed-point one of the SMOOTH progress: 2^64 (log 11). -/
def progressOne : Nat := 2 ^ 64

/-- π² in units of 2^-64, rounded down (log 11). -/
def piSquared : Nat := 182062066495652834597

/-- The divisors 2k(2k+1)... of the series of (1 - cos x)/2 = x²/4 (1 - x²/12 (1 - x²/30 (1 - ...))). -/
def cosDivisors : List Nat := [12, 30, 56, 90, 132, 182, 240, 306, 380, 462, 552, 650]

/-- The nested series, for z = x² in units of 2^-64. -/
def cosSeries (z : Nat) : List Nat → Nat
  | [] => progressOne
  | d :: ds => progressOne - z * cosSeries z ds / (progressOne * d)

/-- (1 - cos (π t / D)) / 2 in units of 2^-64, for t up to the middle of the fade (R128, log 11). -/
def risingProgress (t d : Nat) : Nat :=
  let z := piSquared * (t * t) / (d * d)
  z * cosSeries z cosDivisors / (progressOne * 4)

/-- The SMOOTH progress at t of D ms: the progress at equal distances before and after the middle adds up to 1
(R128). -/
def smoothProgress (t d : Nat) : Nat :=
  if 2 * t < d then risingProgress t d
  else if 2 * t = d then progressOne / 2
  else progressOne - risingProgress (d - t) d

/-- The fade level of a fade at t ms after its start, t below the duration (R127, R128). -/
def fadeAt (shape : Shape) (origin target : Level) (t d : Nat) : Level :=
  match shape with
  | .linear => partWay origin target t d
  | .smooth => partWay origin target (smoothProgress t d) progressOne

/-- The fade level of a channel at an instant (R126, R127): 0 while PARKED, the target once SETTLED or at the end of
the fade. -/
def fadeLevel (m : ModChannel) (now : Instant) : Level :=
  match m.fade with
  | .parked => 0
  | .settled => m.target
  | .fading origin d start shape =>
    if d ≤ now - start then m.target else fadeAt shape origin m.target (now - start) d

/-- A fade that begins now: SETTLED at once where its duration is 0 or its origin is its target (R127, R129, R131). -/
def beginFade (origin target : Level) (d : Nat) (shape : Shape) (now : Instant) : Fade :=
  if d = 0 ∨ origin = target then .settled else .fading origin d now shape

/-! ### Hand-offs of the resolver -/

/-- A target level handed with a target pattern and a fade time: a PARKED channel records them, an open channel's
fade is redirected from its present level over the full time (R129, R132). -/
def redirect (level : Level) (pattern : Pattern) (d : Nat) (now : Instant) (m : ModChannel) : ModChannel :=
  match m.fade with
  | .parked => { m with target := level, pattern := pattern }
  | _ =>
    { m with
      target := level, pattern := pattern, fade := beginFade (fadeLevel m now) level d m.defaultShape now }

def handLevel (ch : Channel) (level : Level) (pattern : Pattern) (i : FadeIndex) (s : State) : State :=
  s.modChan ch (redirect level pattern (fadeTime i) s.now)

/-- A target pattern handed alone leaves the fade as it was (R47, R129). -/
def handPattern (ch : Channel) (pattern : Pattern) (s : State) : State :=
  s.modChan ch fun m => { m with pattern := pattern }

/-! ### Opening and closing -/

/-- A channel is open while the stage is ACTIVE and the channel is enabled and READY (R126). -/
def isOpen (s : State) (ch : Channel) : Bool :=
  s.output.stage == .active && (s.out ch).enabled && (s.out ch).fault == .ready

/-- A channel that has become open begins its restart fade from 0 over the default fade; one that has become closed
is PARKED; the target and pattern are kept (R131). -/
def openOrClose (isOpen : Bool) (now : Instant) (m : ModChannel) : ModChannel :=
  if isOpen then
    match m.fade with
    | .parked => { m with fade := beginFade 0 m.target (fadeTime m.defaultIndex) m.defaultShape now }
    | _ => m
  else { m with fade := .parked }

def syncChannel (ch : Channel) (s : State) : State := s.modChan ch (openOrClose (isOpen s ch) s.now)

/-- Every channel opens or closes as the stage, its enable and its fault state now say (R131, R152). -/
def syncChannels (s : State) : State := forEach (indexes 16) syncChannel s

/-! ### Gate and output level -/

/-- A line is active while ASSERTED or STRETCH (R110). -/
def LineState.isActive (x : LineState) : Bool := x.activity != .quiet

/-- The gate of a channel (R138). -/
def gateOf (s : State) (p : Pattern) : Bool :=
  match p with
  | .steady => true
  | .blink k .normal => !(s.clock k).offHalf
  | .blink k .inverted => (s.clock k).offHalf
  | .flash l => (s.line l).isActive
  | .combine l k => !(s.line l).isActive || !(s.clock k).offHalf

def gateLit (s : State) (ch : Channel) : Bool := gateOf s (s.chan ch).pattern

/-- The level before derating: the test level while a lamp test runs, else the gated fade level (R141 steps 1, 2). -/
def testedLevel (s : State) (ch : Channel) : Level :=
  if s.lampTest.isSome then testLevel
  else if gateLit s ch then fadeLevel (s.chan ch) s.now else 0

/-- The output level of a channel (R141). -/
def outputLevel (s : State) (ch : Channel) : Level :=
  if isOpen s ch then
    if s.output.supply.overtempWarn then min (testedLevel s ch) s.derateCeiling else testedLevel s ch
  else 0

/-! ### Clean intervals: they follow the output level (R172) -/

/-- The five things that hold together while a clean interval runs (R172). -/
def cleanHolds (s : State) (ch : Channel) : Bool :=
  (s.out ch).fault == .ready && (s.out ch).enabled && s.output.stage == .active &&
    decide (0 < (outputLevel s ch).val) && decide (0 < (s.out ch).retry)

/-- The clean interval starts in the taking in which they come to hold and is cancelled in the taking in which one
stops holding (R172). -/
def cleanChannel (ch : Channel) (s : State) : State :=
  s.modOut ch fun o =>
    { o with
      cleanEnd :=
        if cleanHolds s ch then
          match o.cleanEnd with
          | some e => some e
          | none => some (s.now + cleanTime)
        else none }

def cleanChannels (s : State) : State := forEach (indexes 16) cleanChannel s

end Sys2Proof.Machine
end

