-- ==== Sys2Proof/Machine/Resolver.lean ====
section
/-! DEFINITION. Claim lists and resolution (spec/02). -/

namespace Sys2Proof.Machine

/-- The claim a handle names: none where the slot is FREE or holds another generation (R3, R4). -/
def claimAt (s : State) (h : Handle) : Option Claim :=
  if (s.record h.slot).gen = h.gen then (s.record h.slot).claim else none

/-- The effective level of a claim on a channel (R35). -/
def effectiveLevel (s : State) (c : Claim) (ch : Channel) : Level :=
  match c.source with
  | .fixed v => v
  | .scene n => (tget (s.scene n).levels ch).getD 0
  | .player n => (s.player n).level

/-! ### The claim list -/

/-- The priority of the record a list entry names. -/
def priorityOf (s : State) (h : Handle) : Priority :=
  match (s.record h.slot).claim with
  | some c => c.priority
  | none => 0

/-- Insertion at the head of a priority class: after every entry of higher priority and before every other (R30). -/
def insertClass (prio : Handle → Priority) (p : Priority) (h : Handle) (l : List Handle) : List Handle :=
  l.takeWhile (fun e => decide (p < prio e)) ++ h :: l.dropWhile (fun e => decide (p < prio e))

/-- The record enters the list of each of its channels (R28, R30). -/
def enlist (h : Handle) (c : Claim) (s : State) : State :=
  forEach (members c.channels)
    (fun ch s => s.modEntry ch fun e => { e with list := insertClass (priorityOf s) c.priority h e.list }) s

/-- The record leaves the list of each of its channels; the other entries keep their order (R32). -/
def unlist (h : Handle) (c : Claim) (s : State) : State :=
  forEach (members c.channels)
    (fun ch s => s.modEntry ch fun e => { e with list := e.list.filter fun x => decide (x ≠ h) }) s

/-- Re-insertion at the head of the record's priority class in every list it stands in (R31). -/
def reinsert (h : Handle) (c : Claim) (s : State) : State := enlist h c (unlist h c s)

/-! ### Choosing the winner -/

/-- The ACTIVE entries of a channel's list, head first (R33, R38). -/
def activeEntries (s : State) (ch : Channel) : List (Handle × Claim) :=
  (s.entry ch).list.filterMap fun h =>
    match claimAt s h with
    | some c => if c.active then some (h, c) else none
    | none => none

/-- The highest priority present (R38). -/
def topPriority (l : List (Handle × Claim)) : Priority := l.foldl (fun m e => max m e.2.priority) 0

/-- The entries of the highest priority present (R38). -/
def topClass (l : List (Handle × Claim)) : List (Handle × Claim) :=
  l.filter fun e => e.2.priority == topPriority l

/-- The entry of the highest effective level, the one nearest the head among equals (R40). -/
def brightest (level : Claim → Level) : List (Handle × Claim) → Option (Handle × Claim)
  | [] => none
  | e :: es =>
    match brightest level es with
    | none => some e
    | some f => if level e.2 < level f.2 then some f else some e

/-- The winner of a channel, by its policy (R38 to R41). -/
def chooseWinner (s : State) (ch : Channel) : Option (Handle × Claim) :=
  match (s.entry ch).policy with
  | .priority => (topClass (activeEntries s ch)).head?
  | .maximum => brightest (fun c => effectiveLevel s c ch) (topClass (activeEntries s ch))

/-- The target level that follows from a winner, or from none (R41, R42). -/
def targetLevelOf (s : State) (ch : Channel) (w : Option (Handle × Claim)) : Level :=
  match w with
  | some (_, c) => effectiveLevel s c ch
  | none => (s.entry ch).idle

/-- The target pattern that follows from a winner, or from none (R41, R42). -/
def targetPatternOf (w : Option (Handle × Claim)) : Pattern :=
  match w with
  | some (_, c) => c.pattern
  | none => .steady

def handleOfWinner (w : Option (Handle × Claim)) : Option Handle := w.map (·.1)

/-- The fade index handed with a winner change (R44). -/
def winnerFade (s : State) (ch : Channel) (w : Option (Handle × Claim)) : FadeIndex :=
  match w with
  | some (_, c) => c.fade
  | none => (s.chan ch).defaultIndex

/-- The fade index handed with a change of level under the same winner, or under none: 0 where the level source is
PLAYER (R45, R46, R47). -/
def levelFade (s : State) (ch : Channel) (w : Option (Handle × Claim)) : FadeIndex :=
  match w with
  | some (_, c) =>
    match c.source with
    | .fixed _ => c.fade
    | .scene _ => c.fade
    | .player _ => 0
  | none => (s.chan ch).defaultIndex

/-! ### What resolution hands on -/

/-- Whether the winner is the claim whose fade a MODIFY has chosen (R47). -/
def isFaded (faded : Option Handle) (w : Option (Handle × Claim)) : Bool :=
  match faded, w with
  | some h, some (h', _) => h == h'
  | _, _ => false

/-- What the modulator is handed for a channel, given the entry as it stood before the taking (R44 to R47). `faded` is
the claim whose fade a MODIFY has chosen. -/
def handOn (faded : Option Handle) (ch : Channel) (old : ResolverEntry) (w : Option (Handle × Claim)) (s : State) :
    State :=
  let level := targetLevelOf s ch w
  let pattern := targetPatternOf w
  if handleOfWinner w ≠ old.winner then handLevel ch level pattern (winnerFade s ch w) s
  else if isFaded faded w then handLevel ch level pattern (winnerFade s ch w) s
  else if level ≠ old.target then handLevel ch level pattern (levelFade s ch w) s
  else handPattern ch pattern s

/-- What a WINNER event carries (R48). -/
def winnerInfo (w : Option (Handle × Claim)) : Option WinnerInfo :=
  match w with
  | some (h, c) => some { handle := h, owner := c.owner, priority := c.priority, tag := c.tag }
  | none => none

/-- A WINNER event for a channel (R48). -/
def winnerEvent (ch : Channel) (w : Option (Handle × Claim)) (s : State) : State :=
  fireWatches .winner ch.val (.winner ch (winnerInfo w)) s

/-- The resolver stores the outcome for a channel (R42). -/
def storeOutcome (ch : Channel) (w : Option (Handle × Claim)) (s : State) : State :=
  let level := targetLevelOf s ch w
  s.modEntry ch fun e =>
    { e with winner := handleOfWinner w, target := level, pattern := targetPatternOf w }

/-- Resolution of one channel: the winner, what is handed to the modulator, and, unless the taking is ENABLE low, the
WINNER event of a winner change (R37 to R48). -/
def resolveChannel (faded : Option Handle) (events : Bool) (ch : Channel) (s : State) : State :=
  let old := s.entry ch
  let w := chooseWinner s ch
  let s' := storeOutcome ch w (handOn faded ch old w s)
  if events && decide (handleOfWinner w ≠ old.winner) then winnerEvent ch w s' else s'

/-- Resolution redone once on each channel of a set, in ascending order (R21, R37). -/
def resolveSet (faded : Option Handle) (events : Bool) (cs : ChannelSet) (s : State) : State :=
  forEach (members cs) (resolveChannel faded events) s

/-- The WINNER events of a taking that has redone resolution without them: one for each channel of a set whose winner
differs from the one before the taking, in ascending order (R43, R48). -/
def winnerEvents (cs : ChannelSet) (before s : State) : State :=
  forEach (members cs)
    (fun ch u =>
      if (u.entry ch).winner ≠ (before.entry ch).winner then winnerEvent ch (chooseWinner u ch) u else u) s

/-- How many channels of a set a claim is the winner of (R11, R17, R18). -/
def winsOn (s : State) (h : Handle) (cs : ChannelSet) : Nat :=
  ((members cs).filter fun ch => (s.entry ch).winner == some h).length

end Sys2Proof.Machine
end

