-- ==== Sys2Proof/Machine/Pool.lean ====
section
/-! DEFINITION. The claim pool: placing and freeing records (spec/01 sections 1.4 and 1.8). -/

namespace Sys2Proof.Machine

/-- The most entries a claim list holds (R29). -/
def listLimit : Nat := 8

/-! ### Placement -/

/-- The lowest-numbered FREE record (R10). -/
def freeSlot? (s : State) : Option Slot := (indexes 48).find? fun slot => (s.record slot).claim.isNone

/-- The lowest covered channel whose list is full (R8 step 5, R12). -/
def fullChannel? (s : State) (cs : ChannelSet) : Option Channel :=
  (members cs).find? fun ch => decide (listLimit ≤ (s.entry ch).list.length)

/-- The outcome of the checks of a placement. -/
inductive Check where
  | refused (code : ResultCode) (extra : Nat)
  | room (slot : Slot)
  deriving DecidableEq, Repr

/-- Steps 4 and 5 of a placement (R8, R12). -/
def roomCheck (s : State) (cs : ChannelSet) : Check :=
  match freeSlot? s with
  | none => .refused .full 0
  | some slot =>
    match fullChannel? s cs with
    | some ch => .refused .listFull ch.val
    | none => .room slot

/-- The five steps of a placement owned by a port; `bad` is the outcome of step 2 (R7, R8, R12). -/
def placementCheck (s : State) (p : Port) (priority : Priority) (bad : Option ResultCode) (cs : ChannelSet) : Check :=
  if (s.right p).ceiling < priority then .refused .privilege 0
  else
    match bad with
    | some code => .refused code 0
    | none =>
      if (s.right p).quota.val < (s.right p).held + 1 then .refused .quota (s.right p).held
      else roomCheck s cs

/-- The handle of the record a slot holds now (R3). -/
def handleAt (s : State) (slot : Slot) : Handle := { slot := slot, gen := (s.record slot).gen }

/-- The held-claim count a placement owned by a port raises (R6, R11). -/
def raiseHeld (c : Claim) (s : State) : State :=
  match c.owner with
  | .port p => s.modRight p fun r => { r with held := r.held + 1 }
  | .line _ => s

/-- The in-use count a placement of a SCENE claim raises (R11, R69). -/
def raiseInUse (c : Claim) (s : State) : State :=
  match c.source with
  | .fixed _ => s
  | .scene n => s.modScene n fun x => { x with inUse := x.inUse + 1 }
  | .player _ => s

def raiseCounts (c : Claim) (s : State) : State := raiseInUse c (raiseHeld c s)

/-- A placement up to its resolution: the record takes its fields and enters its lists, and the counts rise (R11). -/
def seat (slot : Slot) (c : Claim) (s : State) : State :=
  raiseCounts c (enlist (handleAt s slot) c (s.modRecord slot fun r => { r with claim := some c }))

/-- A successful placement: the record is seated, and resolution is redone on every covered channel (R11). -/
def place (slot : Slot) (c : Claim) (s : State) : State := resolveSet none true c.channels (seat slot c s)

/-! ### Freeing -/

/-- The causes that free a record (spec/01 section 1.8). -/
inductive FreeCause where
  | withdraw
  | withdrawAll
  | leaseExpiry
  | ceilingCascade
  | playerFinish
  | playerAbort
  | playerRelease
  | lineUnbind
  | portReset
  | enableLow
  deriving DecidableEq, Repr

/-- The reason of the CLAIM_REMOVED notice of a cause, where it queues one (R20). -/
def FreeCause.reason : FreeCause → Option RemovalReason
  | .leaseExpiry => some .lease
  | .ceilingCascade => some .ceiling
  | .playerFinish => some .finished
  | .withdraw => none
  | .withdrawAll => none
  | .playerAbort => none
  | .playerRelease => none
  | .lineUnbind => none
  | .portReset => none
  | .enableLow => none

/-- The detail of the PLAYER notice of a cause, where the freed claim is a player's and the cause queues one (R23). -/
def FreeCause.playerDetail : FreeCause → Option PlayerDetail
  | .playerFinish => some .finished
  | .leaseExpiry => some .aborted
  | .ceilingCascade => some .aborted
  | .withdraw => none
  | .withdrawAll => none
  | .playerAbort => none
  | .playerRelease => none
  | .lineUnbind => none
  | .portReset => none
  | .enableLow => none

/-- Whether a cause empties the step queue of the player whose claim it frees: every cause but the player's own
finish (R88). -/
def FreeCause.emptiesQueue : FreeCause → Bool
  | .playerFinish => false
  | .withdraw => true
  | .withdrawAll => true
  | .leaseExpiry => true
  | .ceilingCascade => true
  | .playerAbort => true
  | .playerRelease => true
  | .lineUnbind => true
  | .portReset => true
  | .enableLow => true

/-- A player that loses its claim goes to LOADING: no current step, level 0, stream-complete clear, claim none; the
holder is kept (R86, R103, R106). -/
def toLoading (emptyQueue : Bool) (x : Player) : Player :=
  { Player.reset with state := .loading, holder := x.holder, queue := if emptyQueue then [] else x.queue }

/-- The held-claim count the freeing of a port's record lowers (R6, R20). -/
def lowerHeld (c : Claim) (s : State) : State :=
  match c.owner with
  | .port p => s.modRight p fun r => { r with held := r.held - 1 }
  | .line _ => s

/-- The in-use count the freeing of a SCENE claim lowers (R22). -/
def lowerInUse (c : Claim) (s : State) : State :=
  match c.source with
  | .fixed _ => s
  | .scene n => s.modScene n fun x => { x with inUse := x.inUse - 1 }
  | .player _ => s

def lowerCounts (c : Claim) (s : State) : State := lowerInUse c (lowerHeld c s)

/-- The CLAIM_REMOVED notice of a freeing (R20). -/
def removedNotice (cause : FreeCause) (h : Handle) (c : Claim) (s : State) : State :=
  match c.owner, cause.reason with
  | .port p, some r => offer p (.claimRemoved (lowest c.channels) h p c.tag r) s
  | _, _ => s

/-- The freeing and its cause handed to the player, with its notice to the holder (R23, R103, R106). -/
def playerLoss (cause : FreeCause) (h : Handle) (c : Claim) (s : State) : State :=
  match c.source with
  | .fixed _ => s
  | .scene _ => s
  | .player n =>
    let s' := s.modPlayer n (toLoading cause.emptiesQueue)
    match (s.player n).holder, cause.playerDetail with
    | some p, some d => offer p (.player n h p c.tag d) s'
    | _, _ => s'

/-- The freeing of one record, without the resolution that follows (R20). A FREE record is left as it is. -/
def freeRecord (cause : FreeCause) (slot : Slot) (s : State) : State :=
  match (s.record slot).claim with
  | none => s
  | some c =>
    let h := handleAt s slot
    let s := (unlist h c s).modRecord slot fun r => { gen := r.gen + 1, claim := none }
    playerLoss cause h c (removedNotice cause h c (lowerCounts c s))

/-- The channels that the records of some slots cover. -/
def coveredBy (s : State) (slots : List Slot) : ChannelSet :=
  slots.foldl (fun cs slot => match (s.record slot).claim with | some c => cs ||| c.channels | none => cs) 0#16

/-- The slots whose record passes a test, ascending. -/
def slotsWhere (s : State) (f : Claim → Bool) : List Slot :=
  (indexes 48).filter fun slot => match (s.record slot).claim with | some c => f c | none => false

/-- The freeings of one taking, in ascending slot order, and then resolution once on each channel that a freed record
covered; `events` is false for ENABLE low (R21, R26). -/
def freeRecords (cause : FreeCause) (events : Bool) (slots : List Slot) (s : State) : State :=
  resolveSet none events (coveredBy s slots) (forEach slots (freeRecord cause) s)

/-- Whether a claim is owned by a port. -/
def ownedBy (p : Port) (c : Claim) : Bool := c.owner == .port p

end Sys2Proof.Machine
end

