-- ==== Sys2Proof/Machine/Stage.lean ====
section
/-! DEFINITION. The output stage: stage changes, demand and what follows a taking (spec/08 sections 8.1 to 8.6). -/

namespace Sys2Proof.Machine

/-- One supply condition (R151). -/
def Supply.get (x : Supply) : SupplyCondition → Bool
  | .lampSupplyLow => x.lampSupplyLow
  | .overcurrent => x.overcurrent
  | .overtempWarn => x.overtempWarn
  | .overtempShutdown => x.overtempShutdown

def Supply.put (x : Supply) (c : SupplyCondition) (v : Bool) : Supply :=
  match c with
  | .lampSupplyLow => { x with lampSupplyLow := v }
  | .overcurrent => { x with overcurrent := v }
  | .overtempWarn => { x with overtempWarn := v }
  | .overtempShutdown => { x with overtempShutdown := v }

/-- OVERTEMP_WARN is not a forcing condition; the other three are, and each names a cause (R151, R153). -/
def forcingCause : SupplyCondition → Option Cause
  | .lampSupplyLow => some .lampSupplyLow
  | .overcurrent => some .overcurrent
  | .overtempWarn => none
  | .overtempShutdown => some .overtempShutdown

/-- At least one forcing condition is present (R157). -/
def Supply.forcing (x : Supply) : Bool := x.lampSupplyLow || x.overcurrent || x.overtempShutdown

/-- The stages in which port commands other than PORT_RESET are refused (R152, R191). -/
def refusesCommands (st : StageName) : Bool :=
  match st with
  | .off => true
  | .init => true
  | .standby => false
  | .softstart => false
  | .active => false
  | .recovery => false
  | .latched => false

/-- The lamps are up or being brought up (R147, R163). -/
def lampsUp (st : StageName) : Bool :=
  match st with
  | .off => false
  | .init => false
  | .standby => false
  | .softstart => true
  | .active => true
  | .recovery => false
  | .latched => false

/-- A stage change that ends a running lamp test: from SOFTSTART or ACTIVE to any stage other than ACTIVE (R147), and
any move to RECOVERY or LATCHED (R149, log 15). -/
def endsLampTest (old new : StageName) : Bool :=
  (lampsUp old && new != .active) || new == .recovery || new == .latched

/-- The retry timers pause when the stage enters LATCHED (R171). -/
def pauseRetry (now : Instant) (o : OutChannel) : OutChannel :=
  match o.fault with
  | .faulted k (.pending (.running e)) => { o with fault := .faulted k (.pending (.paused (e - now))) }
  | _ => o

/-- The interval or timer that starts with a stage; every other one is cancelled, since each belongs to one stage
(R151, R152). -/
def OutputStage.enter (o : OutputStage) (st : StageName) (cause : Cause) (now : Instant) : OutputStage :=
  { o with
    stage := st, lastCause := cause,
    initEnd := if st = .init then some (now + initTime) else none,
    softEnd := if st = .softstart then some (now + softstartTime) else none,
    recoveryEnd := if st = .recovery then some (now + recoveryTime) else none,
    standbyEnd := none,
    activeEnd := if st = .active then some (now + activeTime) else none }

/-- A stage change, without its STAGE event: intervals, lamp test, retry timers, openings and closings (R131, R147,
R151, R152, R171). -/
def changeStage (st : StageName) (cause : Cause) (s : State) : State :=
  let s1 := if endsLampTest s.output.stage st then s.setLampTest none else s
  let s2 := s1.modOutput fun o => o.enter st cause s.now
  let s3 := if st = .latched then s2.modOuts (pauseRetry s.now) else s2
  syncChannels s3

/-- A stage change and its STAGE event to every port (R153). -/
def enterStage (st : StageName) (cause : Cause) (s : State) : State :=
  offerAll (.stage st cause) (changeStage st cause s)

/-- Whether a channel gives demand: enabled, READY, and a target level above 0 (R156). -/
def channelDemands (s : State) (ch : Channel) : Bool :=
  (s.out ch).enabled && (s.out ch).fault == .ready && decide (0 < (s.entry ch).target.val)

/-- Demand as the stage reads it (R156). -/
def demandNow (s : State) : Bool :=
  !(refusesCommands s.output.stage) && (s.lampTest.isSome || (indexes 16).any (channelDemands s))

/-- The three things that take a STANDBY stage to SOFTSTART (R157). -/
def maySoftstart (o : OutputStage) : Bool := o.demand && !o.hold && !o.supply.forcing

/-- The standby delay runs in ACTIVE while demand is absent (R159). -/
def standbyDelay (now : Instant) (o : OutputStage) : OutputStage :=
  if o.stage = .active then
    { o with
      standbyEnd :=
        if o.demand then none
        else match o.standbyEnd with
          | some e => some e
          | none => some (now + standbyTime) }
  else o

/-- Demand read afresh, and what the stage does on it: the standby delay in ACTIVE, and from STANDBY to SOFTSTART with
the cause given (R156, R157, R159). -/
def settleStage (cause : Cause) (s : State) : State :=
  let s1 := s.modOutput fun o => standbyDelay s.now { o with demand := demandNow s }
  if s1.output.stage == .standby && maySoftstart s1.output then enterStage .softstart cause s1 else s1

/-- The end of a taking: demand and the stage, then the clean intervals (R156, R157, R159, R172). -/
def settle (cause : Cause) (s : State) : State := cleanChannels (settleStage cause s)

/-! ### Channel faults (section 8.7) -/

/-- A channel is held-faulted (R167). -/
def isHeld (o : OutChannel) : Bool :=
  match o.fault with
  | .faulted _ .held => true
  | .faulted _ (.pending _) => false
  | .ready => false

def isFaulted (o : OutChannel) : Bool := o.fault != .ready

/-- The latch check: at least one channel is enabled and every enabled channel is held-faulted (R170). -/
def allHeld (s : State) : Bool :=
  (indexes 16).any (fun ch => (s.out ch).enabled) &&
    (indexes 16).all (fun ch => !(s.out ch).enabled || isHeld (s.out ch))

/-- The retry status of a new fault, by the rearm mode and the count after the increase (R169). -/
def retryStatus (manual : Bool) (count : Nat) (stage : StageName) (now : Instant) : RetryStatus :=
  if manual then .held
  else if 3 ≤ count then .held
  else if stage = .latched then .pending (.paused retryTime)
  else .pending (.running (now + retryTime))

/-- A channel becomes FAULTED (R169). The count does not pass 3 (R167, log 20). -/
def takeFault (k : FaultKind) (stage : StageName) (now : Instant) (o : OutChannel) : OutChannel :=
  let n := min 3 (o.retry + 1)
  { o with fault := .faulted k (retryStatus o.manual n stage now), retry := n, cleanEnd := none }

/-- Whether a fault event is taken (R169). -/
def faultIsTaken (s : State) (ch : Channel) (k : FaultKind) : Bool :=
  (s.out ch).enabled && (s.out ch).fault == .ready &&
    match k with
    | .ground => !(refusesCommands s.output.stage)
    | .openString => s.output.stage == .active && decide (0 < (outputLevel s ch).val)
    | .short => s.output.stage == .active && decide (0 < (outputLevel s ch).val)

/-- The stages in which a fault event is followed by the latch check (R170). -/
def checksLatch (st : StageName) : Bool := !(refusesCommands st) && st != .latched

/-- A channel returns to READY with its retry count 0: its kind, status, timer and clean interval are gone
(R166, R171, R172, R173). -/
def rearm (o : OutChannel) : OutChannel := { o with fault := .ready, retry := 0, cleanEnd := none }

/-- A rearm by command: the FAULT READY event of a channel that was FAULTED, its opening where it may, and its retry
count 0 (R166, R173). -/
def rearmChannel (ch : Channel) (s : State) : State :=
  let s1 := syncChannel ch (s.modOut ch rearm)
  if isFaulted (s.out ch) then faultEvent ch .ready s1 else s1

/-- How many channels of a list are FAULTED (R166, R173). -/
def faultedCount (s : State) (l : List Channel) : Nat := (l.filter fun ch => isFaulted (s.out ch)).length

end Sys2Proof.Machine
end

