-- ==== Sys2Proof/Machine/Board.lean ====
section
/-! DEFINITION. What the board lines, the lamp-supply monitor and the string sense do, and the ends of the output
stage's intervals and timers (spec/08). The end of INIT, which reaches every block, is in Machine/Init.lean. -/

namespace Sys2Proof.Machine

/-! ### HOLD (R161) -/

/-- HOLD asserted: recorded, a running lamp test ends (R147), and SOFTSTART or ACTIVE goes to STANDBY (R161). -/
def assertHold (s : State) : State :=
  let s1 := (s.modOutput fun o => { o with hold := true }).setLampTest none
  settle .demand (if lampsUp s.output.stage then enterStage .standby .hold s1 else s1)

def execHoldAsserted (s : State) : Host.Outcome State Fault Refusal := .next (assertHold s)

/-- HOLD released: recorded, and STANDBY may go to SOFTSTART with cause HOLD_RELEASE (R157, R161). -/
def releaseHold (s : State) : State := settle .holdRelease (s.modOutput fun o => { o with hold := false })

def execHoldReleased (s : State) : Host.Outcome State Fault Refusal := .next (releaseHold s)

/-! ### Supply conditions (R162, R163) -/

/-- The onset of a forcing condition in SOFTSTART or ACTIVE (R163). -/
def forceDown (cause : Cause) (s : State) : State :=
  let n := s.output.recovery + 1
  let s1 := s.modOutput fun o => { o with recovery := n }
  if n < recoveryLimit then enterStage .recovery cause s1 else enterStage .latched .recoveryLimit s1

/-- The onset of a supply condition (R162). One already present changes nothing. -/
def supplyOnset (c : SupplyCondition) (s : State) : State :=
  if s.output.supply.get c then s
  else
    let s1 := s.modOutput fun o => { o with supply := o.supply.put c true }
    match forcingCause c with
    | none => cleanChannels s1
    | some cause => if lampsUp s.output.stage then settle .demand (forceDown cause s1) else s1

def execSupplyOnset (c : SupplyCondition) (s : State) : Host.Outcome State Fault Refusal := .next (supplyOnset c s)

/-- The clearing of a supply condition (R162). One already absent changes nothing; the last forcing condition may take
STANDBY to SOFTSTART with cause SUPPLY_CLEAR (R157). -/
def supplyClearing (c : SupplyCondition) (s : State) : State :=
  if s.output.supply.get c then
    let s1 := s.modOutput fun o => { o with supply := o.supply.put c false }
    match forcingCause c with
    | none => cleanChannels s1
    | some _ => settle .supplyClear s1
  else s

def execSupplyClearing (c : SupplyCondition) (s : State) : Host.Outcome State Fault Refusal :=
  .next (supplyClearing c s)

/-! ### Channel fault events (R169, R170) -/

/-- A fault event that is taken: FAULTED, closed, the FAULT event, and the latch check (R169, R170). -/
def faultTaken (ch : Channel) (k : FaultKind) (s : State) : State :=
  let s1 := syncChannel ch (s.modOut ch (takeFault k s.output.stage s.now))
  let s2 := faultEvent ch (.kind k) s1
  let s3 := if checksLatch s.output.stage && allHeld s2 then enterStage .latched .channelFaults s2 else s2
  settle .demand s3

/-- A channel fault event: taken or ignored (R169). -/
def channelFault (ch : Channel) (k : FaultKind) (s : State) : State :=
  if faultIsTaken s ch k then faultTaken ch k s else s

def execChannelFaultEvent (ch : Channel) (k : FaultKind) (s : State) : Host.Outcome State Fault Refusal :=
  .next (channelFault ch k s)

/-! ### Intervals and timers of the stage -/

/-- The end of the softstart interval: ACTIVE (R158). -/
def softstartEnds (s : State) : State :=
  if dueAt s.output.softEnd s.now then settle .demand (enterStage .active .softstartEnd s) else s

def execSoftstartIntervalEnd (s : State) : Host.Outcome State Fault Refusal := .next (softstartEnds s)

/-- The expiry of the standby delay: STANDBY with cause NO_DEMAND (R159). -/
def standbyExpires (s : State) : State :=
  if dueAt s.output.standbyEnd s.now then settle .demand (enterStage .standby .noDemand s) else s

def execStandbyDelayExpiry (s : State) : Host.Outcome State Fault Refusal := .next (standbyExpires s)

/-- The end of the ACTIVE-duration timer: the recovery count becomes 0 (R160). -/
def activeTimerEnds (s : State) : State :=
  if dueAt s.output.activeEnd s.now then s.modOutput fun o => { o with recovery := 0, activeEnd := none } else s

def execActiveDurationTimerEnd (s : State) : Host.Outcome State Fault Refusal := .next (activeTimerEnds s)

/-- The end of the recovery interval: a new interval while a forcing condition is present, else STANDBY with cause
RECOVERY_END (R164). -/
def recoveryEnds (s : State) : State :=
  if dueAt s.output.recoveryEnd s.now then
    if s.output.supply.forcing then s.modOutput fun o => { o with recoveryEnd := some (s.now + recoveryTime) }
    else settle .demand (enterStage .standby .recoveryEnd s)
  else s

def execRecoveryIntervalEnd (s : State) : Host.Outcome State Fault Refusal := .next (recoveryEnds s)

/-- The end of the running retry timer of a channel, none where no retry timer runs (R167, R171). -/
def retryEnd? (o : OutChannel) : Option Instant :=
  match o.fault with
  | .faulted _ (.pending (.running e)) => some e
  | .faulted _ (.pending (.paused _)) => none
  | .faulted _ .held => none
  | .ready => none

/-- The end of a retry timer: READY with the count kept, the FAULT READY event, and the opening where it may
(R171). -/
def retryEnds (ch : Channel) (s : State) : State :=
  if dueAt (retryEnd? (s.out ch)) s.now then
    settle .demand (faultEvent ch .ready (syncChannel ch (s.modOut ch fun o => { o with fault := .ready })))
  else s

def execRetryTimerEnd (ch : Channel) (s : State) : Host.Outcome State Fault Refusal := .next (retryEnds ch s)

/-- The end of a clean interval: the retry count becomes 0 (R172). -/
def cleanEnds (ch : Channel) (s : State) : State :=
  if dueAt (s.out ch).cleanEnd s.now then s.modOut ch fun o => { o with retry := 0, cleanEnd := none } else s

def execCleanIntervalEnd (ch : Channel) (s : State) : Host.Outcome State Fault Refusal := .next (cleanEnds ch s)

/-! ### The modulator's timed events -/

/-- The end of a running fade, none where no fade runs (R127). -/
def fadeEnd? (m : ModChannel) : Option Instant :=
  match m.fade with
  | .fading _ d start _ => some (start + d)
  | .settled => none
  | .parked => none

/-- A fade reaching its duration: SETTLED at its target (R127). -/
def fadeCompletes (ch : Channel) (s : State) : State :=
  if dueAt (fadeEnd? (s.chan ch)) s.now then
    cleanChannels (s.modChan ch fun m => { m with fade := .settled })
  else s

def execFadeCompletion (ch : Channel) (s : State) : Host.Outcome State Fault Refusal := .next (fadeCompletes ch s)

/-- The taking in which a rising fade, and with it the output level, first exceeds 0: the clean interval of the channel
starts if the other four things hold (R172). -/
def outputRises (ch : Channel) (s : State) : State := cleanChannel ch s

def execOutputLevelRisesAbove0 (ch : Channel) (s : State) : Host.Outcome State Fault Refusal :=
  .next (outputRises ch s)

/-- The end of a half of a pattern clock: the other half begins (R135). -/
def clockHalfEnds (k : ClockNo) (s : State) : State :=
  if dueAt (s.clock k).ends s.now then
    cleanChannels (s.modClock k fun c => { c with offHalf := !c.offHalf, began := some s.now })
  else s

def execClockHalfEnd (k : ClockNo) (s : State) : Host.Outcome State Fault Refusal := .next (clockHalfEnds k s)

/-- The end fade of an open channel: from the test level over the default fade (R146). -/
def endFade (isOpen : Bool) (now : Instant) (m : ModChannel) : ModChannel :=
  if isOpen then { m with fade := beginFade testLevel m.target (fadeTime m.defaultIndex) m.defaultShape now } else m

/-- The expiry of the lamp test: IDLE, and an end fade on each open channel (R146). -/
def lampTestExpires (s : State) : State :=
  if dueAt s.lampTest s.now then
    settle .demand
      (forEach (indexes 16) (fun ch s => s.modChan ch (endFade (isOpen s ch) s.now)) (s.setLampTest none))
  else s

def execLampTestExpiry (s : State) : Host.Outcome State Fault Refusal := .next (lampTestExpires s)

end Sys2Proof.Machine
end

