-- ==== Sys2Proof/Machine/Taking.lean ====
section
/-! DEFINITION. Taking a command at a port: the port's checks, the result registers and the counters (R191, R192). -/

namespace Sys2Proof.Machine

/-- The right a command needs (R191). -/
inductive Need where
  | none
  | maintenance
  | sceneEdit
  deriving DecidableEq, Repr

/-- Whether a port holds the right, as the access table stands in the taking (R191 step 2). -/
def holdsRight (s : State) (p : Port) (n : Need) : Bool :=
  match n with
  | .none => true
  | .maintenance => s.access.maintenance == p
  | .sceneEdit => (s.right p).sceneEdit

/-- A command refused: nothing changes, the handle is *none* (R12, R191). Where the rule of a refusal gives its code alone,
the callers take handle *none* and extra 0 (log 27, DESIGN CHOICE). -/
def refuse (code : ResultCode) (extra : Nat) (s : State) : State × Result :=
  (s, { code := code, handle := none, extra := extra })

/-- A command carried out. -/
def done (handle : Option Handle) (extra : Nat) (s : State) : State × Result :=
  (s, { code := .ok, handle := handle, extra := extra })

/-- The port's own checks, and then the owning block's (R191). -/
def checkedBody (p : Port) (n : Need) (body : State → State × Result) (s : State) : State × Result :=
  if refusesCommands s.output.stage then refuse .wrongState 0 s
  else if !(holdsRight s p n) then refuse .privilege 0 s
  else body s

/-- A command taken at a port: its effect, its result registers and its counter, in one taking (R191, R192). -/
def takeCommand (p : Port) (n : Need) (body : State → State × Result) (s : State) : State :=
  setResult p (checkedBody p n body s).2 (checkedBody p n body s).1

end Sys2Proof.Machine
end

