-- ==== Sys2Proof/Machine/Claims.lean ====
section
/-! DEFINITION. CLAIM, MODIFY, WITHDRAW, WITHDRAW_ALL, RENEW, CHANNEL_POLICY and the expiry of a lease (spec/01,
spec/02 section 2.5, spec/03). -/

namespace Sys2Proof.Machine

/-- A placement owned by a port: the checks of R8, and on success the record, its handle and the number of covered
channels it wins (R11, R12). -/
def placeForPort (p : Port) (bad : Option ResultCode) (c : Claim) (s : State) : State × Result :=
  match placementCheck s p c.priority bad c.channels with
  | .refused code extra => refuse code extra s
  | .room slot =>
    let h := handleAt s slot
    let s1 := place slot c s
    done (some h) (winsOn s1 h c.channels) (settle .demand s1)

/-! ### CLAIM (R14) -/

/-- The claim a CLAIM asks for, from its arguments (R14, R203). -/
def claimRequest (p : Port) (lease : Option Lease) (s : State) : Claim :=
  let w := argClaimWord s p
  { active := true, owner := .port p, channels := arg s p 0, priority := w.priority,
    source := .fixed (toLevel (argNat s p 1)), pattern := w.pattern, fade := w.fade, lease := lease,
    tag := arg s p 4 }

/-- The argument step of CLAIM (R9): the set, the level and the lease; the other fields are as wide as their ranges
(R204). -/
def claimArguments (p : Port) (s : State) : Option ResultCode :=
  if arg s p 0 = 0 ∨ 4096 ≤ argNat s p 1 ∨ argLease s p = none then some .badArgument else none

def claimBody (p : Port) (s : State) : State × Result :=
  placeForPort p (claimArguments p s) (claimRequest p ((argLease s p).getD none) s) s

def claimTaken (p : Port) (s : State) : State := takeCommand p .none (claimBody p) s

def execClaim (p : Port) (s : State) : Host.Outcome State Fault Refusal := .next (claimTaken p s)

/-! ### MODIFY (R15 to R17, R58) -/

/-- Whether a claim's level source is FIXED. -/
def LevelSource.isFixed : LevelSource → Bool
  | .fixed _ => true
  | .scene _ => false
  | .player _ => false

/-- The cases that fail step 3 of MODIFY (R15). -/
def modifyArguments (p : Port) (c : Claim) (s : State) : Bool :=
  let f := fieldSelectOf (arg s p 5)
  let op := leaseOpOf (arg s p 3) s.now
  f.isEmpty || (f.level && (!c.source.isFixed || decide (4096 ≤ argNat s p 1))) ||
    (f.lease && (op.isNone || (op == some .restart && c.lease.isNone)))

/-- A lease after a lease operation (R58). -/
def applyLeaseOp (op : Option LeaseOp) (now : Instant) (l : Option Lease) : Option Lease :=
  match op with
  | some (.set x) => some x
  | some .restart => l.map fun x => { x with start := now }
  | some .remove => none
  | none => l

/-- The claim with all chosen changes (R17). -/
def modifiedClaim (p : Port) (c : Claim) (s : State) : Claim :=
  let f := fieldSelectOf (arg s p 5)
  let w := argClaimWord s p
  { c with
    source := if f.level then .fixed (toLevel (argNat s p 1)) else c.source,
    priority := if f.priority then w.priority else c.priority,
    pattern := if f.pattern then w.pattern else c.pattern,
    fade := if f.fade then w.fade else c.fade,
    lease := if f.lease then applyLeaseOp (leaseOpOf (arg s p 3) s.now) s.now c.lease else c.lease,
    tag := if f.tag then arg s p 4 else c.tag }

/-- A new fade time handed on each channel the claim wins, toward the unchanged target (R17, R47). -/
def handFade (h : Handle) (c : Claim) (s : State) : State :=
  forEach (members c.channels)
    (fun ch s =>
      if (s.entry ch).winner == some h then handLevel ch (s.entry ch).target (s.entry ch).pattern c.fade s else s) s

/-- A MODIFY that has passed its checks (R16, R17): the record, its place in the lists, and resolution once where a
level, a pattern or a changed priority is chosen, else the new fade time alone. -/
def applyModify (p : Port) (h : Handle) (c : Claim) (s : State) : State :=
  let f := fieldSelectOf (arg s p 5)
  let c' := modifiedClaim p c s
  let moved := decide (c'.priority ≠ c.priority)
  let s1 := s.modRecord h.slot fun r => { r with claim := some c' }
  let s2 := if moved then reinsert h c' s1 else s1
  if f.level || f.pattern || moved then
    settle .demand (resolveSet (if f.fade then some h else none) true c'.channels s2)
  else if f.fade then settle .demand (handFade h c' s2)
  else s2

/-- MODIFY: the handle checks of R5, the ceiling, the arguments, and the changes (R15). -/
def modifyBody (p : Port) (s : State) : State × Result :=
  match handleOf (arg s p 0) with
  | none => refuse .badArgument 0 s
  | some h =>
    match claimAt s h with
    | none => refuse .stale 0 s
    | some c =>
      if c.owner ≠ .port p then refuse .notOwner 0 s
      else if (fieldSelectOf (arg s p 5)).priority && decide ((s.right p).ceiling < (argClaimWord s p).priority) then
        refuse .privilege 0 s
      else if modifyArguments p c s then refuse .badArgument 0 s
      else
        let s1 := applyModify p h c s
        done (some h) (winsOn s1 h c.channels) s1

def modifyTaken (p : Port) (s : State) : State := takeCommand p .none (modifyBody p) s

def execModify (p : Port) (s : State) : Host.Outcome State Fault Refusal := .next (modifyTaken p s)

/-! ### WITHDRAW and WITHDRAW_ALL (R18, R19) -/

/-- WITHDRAW: the handle checks of R5, and the freeing; the extra word is the number of channels won before (R18). -/
def withdrawBody (p : Port) (s : State) : State × Result :=
  match handleOf (arg s p 0) with
  | none => refuse .badArgument 0 s
  | some h =>
    match claimAt s h with
    | none => refuse .stale 0 s
    | some c =>
      if c.owner ≠ .port p then refuse .notOwner 0 s
      else done (some h) (winsOn s h c.channels) (settle .demand (freeRecords .withdraw true [h.slot] s))

def withdrawTaken (p : Port) (s : State) : State := takeCommand p .none (withdrawBody p) s

def execWithdraw (p : Port) (s : State) : Host.Outcome State Fault Refusal := .next (withdrawTaken p s)

/-- The slots of the port's records that share a channel with a set (R19). -/
def ownTouching (p : Port) (cs : ChannelSet) (s : State) : List Slot :=
  slotsWhere s fun c => ownedBy p c && decide (c.channels &&& cs ≠ 0)

def withdrawAllBody (p : Port) (s : State) : State × Result :=
  if arg s p 0 = 0 then refuse .badArgument 0 s
  else
    let slots := ownTouching p (arg s p 0) s
    done none slots.length (settle .demand (freeRecords .withdrawAll true slots s))

def withdrawAllTaken (p : Port) (s : State) : State := takeCommand p .none (withdrawAllBody p) s

def execWithdrawAll (p : Port) (s : State) : Host.Outcome State Fault Refusal := .next (withdrawAllTaken p s)

/-! ### RENEW (R59) -/

/-- A record whose lease restarts now (R59). -/
def restartLease (now : Instant) (r : ClaimRecord) : ClaimRecord :=
  { r with claim := r.claim.map fun c => { c with lease := c.lease.map fun l => { l with start := now } } }

/-- The slots of the port's leased records. -/
def ownLeased (p : Port) (s : State) : List Slot := slotsWhere s fun c => ownedBy p c && c.lease.isSome

def renewBody (p : Port) (s : State) : State × Result :=
  let slots := ownLeased p s
  done none slots.length (forEach slots (fun slot s => s.modRecord slot (restartLease s.now)) s)

def renewTaken (p : Port) (s : State) : State := takeCommand p .none (renewBody p) s

def execRenew (p : Port) (s : State) : Host.Outcome State Fault Refusal := .next (renewTaken p s)

/-! ### Lease expiry (R60, R61) -/

/-- When the record of a slot falls due, none where it has no lease (R55). -/
def leaseEnd? (s : State) (slot : Slot) : Option Instant :=
  match (s.record slot).claim with
  | some c => c.lease.map Lease.ends
  | none => none

/-- A lease that has fallen due: the record is freed with cause lease expiry (R60, R61). -/
def leaseExpires (slot : Slot) (s : State) : State :=
  if dueAt (leaseEnd? s slot) s.now then settle .demand (freeRecords .leaseExpiry true [slot] s) else s

def execLeaseExpiry (slot : Slot) (s : State) : Host.Outcome State Fault Refusal := .next (leaseExpires slot s)

/-! ### CHANNEL_POLICY (R50, R51) -/

/-- How many channels of a set have another winner than before (R51). -/
def winnerChanges (before after : State) (cs : ChannelSet) : Nat :=
  ((members cs).filter fun ch => (before.entry ch).winner != (after.entry ch).winner).length

/-- Policy and idle level of every channel of a set, and resolution once on each (R50). -/
def setPolicy (cs : ChannelSet) (policy : Policy) (idle : Level) (s : State) : State :=
  resolveSet none true cs
    (forEach (members cs) (fun ch s => s.modEntry ch fun e => { e with policy := policy, idle := idle }) s)

def channelPolicyBody (p : Port) (s : State) : State × Result :=
  match policyOf (argNat s p 2), inRange (argNat s p 1) 4096 with
  | some policy, some idle =>
    if arg s p 0 = 0 then refuse .badArgument 0 s
    else
      let s1 := setPolicy (arg s p 0) policy idle s
      done none (winnerChanges s s1 (arg s p 0)) (settle .demand s1)
  | _, _ => refuse .badArgument 0 s

def channelPolicyTaken (p : Port) (s : State) : State := takeCommand p .maintenance (channelPolicyBody p) s

def execChannelPolicy (p : Port) (s : State) : Host.Outcome State Fault Refusal := .next (channelPolicyTaken p s)

end Sys2Proof.Machine
end

