-- ==== Sys2Proof/Machine/Scenes.lean ====
section
/-! DEFINITION. Scenes (spec/04). -/

namespace Sys2Proof.Machine

/-- The number of a scene's entries (R68). -/
def Scene.entryCount (x : Scene) : Nat := (x.levels.toList.filter Option.isSome).length

/-- A scene's channel set (R68). -/
def Scene.channels (x : Scene) : ChannelSet := setOf fun ch => (tget x.levels ch).isSome

/-- The scene, channel and level arguments of the edit commands: ARG0, ARG1, ARG2 (R203). -/
def argScene (s : State) (p : Port) : Option SceneNo := inRange (argNat s p 0) 16
def argSceneChannel (s : State) (p : Port) : Option Channel := inRange (argNat s p 1) 16
def argSceneLevel (s : State) (p : Port) : Option Level := inRange (argNat s p 2) 4096

/-- An edit after its argument checks: IN_USE while the count is above 0, else the entries change and the extra word is
the new entry count (R70). -/
def editScene (n : SceneNo) (levels : Vector (Option Level) 16) (s : State) : State × Result :=
  if 0 < (s.scene n).inUse then refuse .inUse (s.scene n).inUse s
  else
    let s1 := s.modScene n fun x => { x with levels := levels }
    done none (s1.scene n).entryCount s1

/-- SCENE_PUT adds an entry or replaces its level (R71). -/
def scenePutBody (p : Port) (s : State) : State × Result :=
  match argScene s p, argSceneChannel s p, argSceneLevel s p with
  | some n, some ch, some v => editScene n (tset (s.scene n).levels ch (some v)) s
  | _, _, _ => refuse .badArgument 0 s

def scenePutTaken (p : Port) (s : State) : State := takeCommand p .sceneEdit (scenePutBody p) s

def execScenePut (p : Port) (s : State) : Host.Outcome State Fault Refusal := .next (scenePutTaken p s)

/-- SCENE_DROP removes an entry; a missing entry is refused after the in-use check (R70 step 5, R72). -/
def sceneDropBody (p : Port) (s : State) : State × Result :=
  match argScene s p, argSceneChannel s p with
  | some n, some ch =>
    if 0 < (s.scene n).inUse then refuse .inUse (s.scene n).inUse s
    else if (tget (s.scene n).levels ch).isNone then refuse .badArgument 0 s
    else editScene n (tset (s.scene n).levels ch none) s
  | _, _ => refuse .badArgument 0 s

def sceneDropTaken (p : Port) (s : State) : State := takeCommand p .sceneEdit (sceneDropBody p) s

def execSceneDrop (p : Port) (s : State) : Host.Outcome State Fault Refusal := .next (sceneDropTaken p s)

/-- SCENE_ERASE removes every entry (R73). -/
def sceneEraseBody (p : Port) (s : State) : State × Result :=
  match argScene s p with
  | some n => editScene n (Vector.replicate 16 none) s
  | none => refuse .badArgument 0 s

def sceneEraseTaken (p : Port) (s : State) : State := takeCommand p .sceneEdit (sceneEraseBody p) s

def execSceneErase (p : Port) (s : State) : Host.Outcome State Fault Refusal := .next (sceneEraseTaken p s)

/-- The claim a SCENE_INVOKE asks for (R76, R77). -/
def sceneRequest (p : Port) (n : SceneNo) (lease : Option Lease) (s : State) : Claim :=
  let w := argClaimWord s p
  { active := true, owner := .port p, channels := (s.scene n).channels, priority := w.priority,
    source := .scene n, pattern := w.pattern, fade := w.fade, lease := lease, tag := arg s p 4 }

/-- Step 2 of SCENE_INVOKE: the ranges, then a scene with no entry gives EMPTY (R76). -/
def sceneArguments (p : Port) (s : State) : Option ResultCode :=
  match argScene s p, argLease s p with
  | some n, some _ => if (s.scene n).entryCount = 0 then some .empty else none
  | _, _ => some .badArgument

/-- SCENE_INVOKE (R76, R77). Where the scene number is out of range, `sceneArguments` refuses the command. -/
def sceneInvokeBody (p : Port) (s : State) : State × Result :=
  placeForPort p (sceneArguments p s)
    (sceneRequest p ((argScene s p).getD 0) ((argLease s p).getD none) s) s

def sceneInvokeTaken (p : Port) (s : State) : State := takeCommand p .none (sceneInvokeBody p) s

def execSceneInvoke (p : Port) (s : State) : Host.Outcome State Fault Refusal := .next (sceneInvokeTaken p s)

end Sys2Proof.Machine
end

