-- ==== Sys2Proof/Machine/Players.lean ====
section
/-! DEFINITION. Sequence players (spec/05). -/

namespace Sys2Proof.Machine

/-- The most steps a queue holds (R88). -/
def stepLimit : Nat := 32

/-- A player is recirculating while PLAYING or STARVED, in LOOP, with stream-complete clear (R87). -/
def Player.recirculating (x : Player) : Bool :=
  (x.state == .playing || x.state == .starved) && x.mode == .loop && !x.streamComplete

/-- A step with ramp 0 and hold 0 (R91). -/
def PlayerStep.zeroTime (st : PlayerStep) : Bool := st.ramp.val == 0 && st.hold.val == 0

/-- A PLAYER notice to the holder, with the player's claim handle and that claim's tag (R181). -/
def playerNotice (n : PlayerNo) (d : PlayerDetail) (s : State) : State :=
  match (s.player n).holder, (s.player n).claim with
  | some p, some h =>
    match claimAt s h with
    | some c => offer p (.player n h p c.tag d) s
    | none => s
  | _, _ => s

/-- Whether the beginning of the step at the head gives LOW_WATER: the count falls from 9 to 8 in PLAYING, not
recirculating, stream-complete clear (R93). -/
def Player.lowWater (x : Player) : Bool :=
  x.state == .playing && !x.recirculating && !x.streamComplete && x.queue.length == 9

/-- The step at the head begins: it leaves the queue, is appended again where the player is recirculating, and with
ramp 0 sets the level at once (R89). -/
def Player.begin (now : Instant) (x : Player) : Player :=
  match x.queue with
  | [] => x
  | st :: rest =>
    { x with
      queue := if x.recirculating then rest ++ [st] else rest,
      current := some { step := st, origin := x.level, began := now, updates := 0 },
      level := if st.ramp.val = 0 then st.level else x.level }

def beginStep (n : PlayerNo) (s : State) : State :=
  let s1 := s.modPlayer n (Player.begin s.now)
  if (s.player n).lowWater then playerNotice n .lowWater s1 else s1

/-- Completion with an empty queue and stream-complete clear (R90). -/
def starve (n : PlayerNo) (s : State) : State :=
  playerNotice n .starved (s.modPlayer n fun x => { x with current := none, state := .starved })

/-- Finish: HOLDING with its notice (R102), or the freeing of the claim with cause player finish (R103). -/
def finishPlayer (n : PlayerNo) (s : State) : State :=
  match (s.player n).finish with
  | .hold => playerNotice n .finished (s.modPlayer n fun x => { x with current := none, state := .holding })
  | .release =>
    match (s.player n).claim with
    | some h => freeRecords .playerFinish true [h.slot] s
    | none => s.modPlayer n (toLoading false)

/-- What follows a completion, and the run of zero-time steps that one taking passes through (R90, R91). Each step of
the run takes one unit of fuel: one more than the queue holds is enough, since a recirculating queue has a step of
ramp or hold above 0 (R91), and without recirculation each step leaves the queue. -/
def runSteps : Nat → PlayerNo → State → State
  | 0, _, s => s
  | fuel + 1, n, s =>
    match (s.player n).queue with
    | [] => if (s.player n).streamComplete then finishPlayer n s else starve n s
    | st :: _ =>
      let s1 := beginStep n s
      if st.zeroTime then runSteps fuel n s1 else s1

def runQueue (n : PlayerNo) (s : State) : State := runSteps ((s.player n).queue.length + 1) n s

/-- The channel set of a player's claim. -/
def playerChannels (n : PlayerNo) (s : State) : ChannelSet :=
  match (s.player n).claim with
  | some h => match claimAt s h with | some c => c.channels | none => 0#16
  | none => 0#16

/-- A taking of the player that ends with a level other than the one last handed hands it to the resolver of every
channel of its claim (R36, R92). `events` is false where the WINNER events are left to the end of the taking (R43). -/
def handPlayerLevel (events : Bool) (n : PlayerNo) (s : State) : State :=
  if (s.player n).level = (s.player n).lastHanded then s
  else
    resolveSet none events (playerChannels n s) (s.modPlayer n fun x => { x with lastHanded := x.level })

/-! ### Timed events -/

/-- When the next ramp update of a player is taken (R89). -/
def rampEnd? (x : Player) : Option Instant :=
  match x.current with
  | some c => c.nextUpdate
  | none => none

/-- When the current step of a player completes, none before its ramp has ended (R90). -/
def stepEnd? (x : Player) : Option Instant :=
  match x.current with
  | some c => c.completes
  | none => none

/-- The level after one ramp update: the k-th of r gives k / r of the way from the ramp origin (R89). -/
def Player.rampOnce (x : Player) : Player :=
  match x.current with
  | none => x
  | some c =>
    { x with
      level := partWay c.origin c.step.level (c.updates + 1) c.step.ramp.val,
      current := some { c with updates := c.updates + 1 } }

/-- A ramp update (R89, R92). -/
def rampUpdates (n : PlayerNo) (s : State) : State :=
  if dueAt (rampEnd? (s.player n)) s.now then settle .demand (handPlayerLevel true n (s.modPlayer n Player.rampOnce)) else s

def execRampUpdate (n : PlayerNo) (s : State) : Host.Outcome State Fault Refusal := .next (rampUpdates n s)

/-- The completion of a step (R90, R91). -/
def stepCompletes (n : PlayerNo) (s : State) : State :=
  if dueAt (stepEnd? (s.player n)) s.now then settle .demand (handPlayerLevel true n (runQueue n s)) else s

def execStepCompletion (n : PlayerNo) (s : State) : Host.Outcome State Fault Refusal := .next (stepCompletes n s)

/-! ### Player commands -/

/-- The player argument, ARG5 (R203). -/
def argPlayer (s : State) (p : Port) : Option PlayerNo := inRange (argNat s p 5) 2

/-- The first two checks of every player command but PLAYER_ACQUIRE and PLAYER_START (R94). -/
def onHeldPlayer (p : Port) (body : PlayerNo → State → State × Result) (s : State) : State × Result :=
  match argPlayer s p with
  | none => refuse .badArgument 0 s
  | some n =>
    if (s.player n).state = .free then refuse .wrongState 0 s
    else if (s.player n).holder ≠ some p then refuse .notOwner 0 s
    else body n s

/-- PLAYER_ACQUIRE (R95). -/
def playerAcquireBody (p : Port) (s : State) : State × Result :=
  match argPlayer s p with
  | none => refuse .badArgument 0 s
  | some n =>
    if (s.player n).state = .free then
      done none 0 (s.modPlayer n fun _ => { Player.reset with state := .loading, holder := some p })
    else if (s.player n).holder = some p then done none (s.player n).queue.length s
    else refuse .busy (((s.player n).holder.getD 0).val) s

def playerAcquireTaken (p : Port) (s : State) : State := takeCommand p .none (playerAcquireBody p) s

def execPlayerAcquire (p : Port) (s : State) : Host.Outcome State Fault Refusal := .next (playerAcquireTaken p s)

/-- The step record of a PLAYER_PUSH: ARG1, ARG2, ARG3 (R88, R203). -/
def argStep (s : State) (p : Port) : Option PlayerStep :=
  match inRange (argNat s p 1) 4096, inRange (argNat s p 2) 1001, inRange (argNat s p 3) 6001 with
  | some level, some ramp, some hold => some { level := level, ramp := ramp, hold := hold }
  | _, _, _ => none

/-- The step joins the queue; in STARVED it begins at once (R96). -/
def pushStep (n : PlayerNo) (st : PlayerStep) (s : State) : State :=
  let s1 := s.modPlayer n fun x => { x with queue := x.queue ++ [st] }
  if (s.player n).state = .starved then
    settle .demand (handPlayerLevel true n (runQueue n (s1.modPlayer n fun x => { x with state := .playing })))
  else s1

/-- PLAYER_PUSH (R96). -/
def playerPushBody (p : Port) (s : State) : State × Result :=
  onHeldPlayer p
    (fun n s =>
      match argStep s p with
      | none => refuse .badArgument 0 s
      | some st =>
        if (s.player n).streamComplete ∨ (s.player n).state = .holding then refuse .wrongState 0 s
        else if stepLimit ≤ (s.player n).queue.length then refuse .full stepLimit s
        else
          let s1 := pushStep n st s
          done none (s1.player n).queue.length s1) s

def playerPushTaken (p : Port) (s : State) : State := takeCommand p .none (playerPushBody p) s

def execPlayerPush (p : Port) (s : State) : Host.Outcome State Fault Refusal := .next (playerPushTaken p s)

/-- Stream-complete is set; a STARVED player finishes at once; already set, nothing changes (R97). -/
def endStream (n : PlayerNo) (s : State) : State :=
  if (s.player n).streamComplete then s
  else
    let s1 := s.modPlayer n fun x => { x with streamComplete := true }
    if (s.player n).state = .starved then settle .demand (finishPlayer n s1) else s1

/-- PLAYER_END (R97). -/
def playerEndBody (p : Port) (s : State) : State × Result :=
  onHeldPlayer p
    (fun n s =>
      if (s.player n).state = .holding then refuse .wrongState 0 s
      else
        let s1 := endStream n s
        done none (s1.player n).queue.length s1) s

def playerEndTaken (p : Port) (s : State) : State := takeCommand p .none (playerEndBody p) s

def execPlayerEnd (p : Port) (s : State) : Host.Outcome State Fault Refusal := .next (playerEndTaken p s)

/-- The mode and the finish action of a PLAYER_START: ARG6 (R203). -/
def argMode (s : State) (p : Port) : Option PlayerMode := modeOf (field (arg s p 6) 0 2)
def argFinish (s : State) (p : Port) : Option FinishAction := finishOf (field (arg s p 6) 4 2)

/-- The preconditions of the player at PLAYER_START, after the ranges (R98). -/
def startPrecondition (p : Port) (x : Player) (mode : PlayerMode) : Option ResultCode :=
  if x.state = .free then some .wrongState
  else if x.holder ≠ some p then some .notOwner
  else if x.state ≠ .loading then some .wrongState
  else if x.queue = [] then some .empty
  else if mode = .loop ∧ !x.streamComplete ∧ x.queue.all PlayerStep.zeroTime then some .badArgument
  else none

/-- Step 2 of PLAYER_START (R98). -/
def startArguments (p : Port) (s : State) : Option ResultCode :=
  match argPlayer s p, argMode s p, argFinish s p, argLease s p with
  | some n, some mode, some _, some _ =>
    if arg s p 0 = 0 then some .badArgument else startPrecondition p (s.player n) mode
  | _, _, _, _ => some .badArgument

/-- The claim a PLAYER_START asks for (R99). -/
def startRequest (p : Port) (n : PlayerNo) (lease : Option Lease) (s : State) : Claim :=
  let w := argClaimWord s p
  { active := true, owner := .port p, channels := arg s p 0, priority := w.priority, source := .player n,
    pattern := w.pattern, fade := w.fade, lease := lease, tag := arg s p 4 }

/-- The player takes its claim, mode and finish action, and its level and level last handed are 0 (R99). -/
def startPlayer (h : Handle) (mode : PlayerMode) (finish : FinishAction) (x : Player) : Player :=
  { x with state := .playing, mode := mode, finish := finish, claim := some h, level := 0, lastHanded := 0 }

/-- A PLAYER_START that has passed its checks, past its placement at level 0 (R92, R99). The first step begins on the
placement as resolved; the level of the step reaches the resolver at the end of the taking, and the WINNER events follow
the notices of the player, one for each channel whose winner is another than before the whole taking (R43, R48; log 13).
Where the zero-time steps finish with RELEASE in this same taking, the claim has come and gone: resolution is redone once,
with all changes of the taking in place, and no winner has changed (R37, R43; log 26). -/
def runStart (n : PlayerNo) (start : Player → Player) (cs : ChannelSet) (before seated placed : State) : State :=
  let gone := runQueue n (seated.modPlayer n start)
  if (gone.player n).claim = none then gone
  else winnerEvents cs before (handPlayerLevel false n (runQueue n (placed.modPlayer n start)))

/-- PLAYER_START: the checks of a placement, the claim seated and resolved at level 0, which the extra word counts the
winners of, then PLAYING and the first step (R98, R99). -/
def playerStartBody (p : Port) (s : State) : State × Result :=
  let n := (argPlayer s p).getD 0
  let mode := (argMode s p).getD .oneShot
  let finish := (argFinish s p).getD .hold
  let c := startRequest p n ((argLease s p).getD none) s
  match placementCheck s p c.priority (startArguments p s) c.channels with
  | .refused code extra => refuse code extra s
  | .room slot =>
    let h := handleAt s slot
    let seated := seat slot c (s.modPlayer n fun x => { x with level := 0, lastHanded := 0 })
    let placed := resolveSet none false c.channels seated
    done (some h) (winsOn placed h c.channels)
      (settle .demand (runStart n (startPlayer h mode finish) c.channels s seated placed))

def playerStartTaken (p : Port) (s : State) : State := takeCommand p .none (playerStartBody p) s

def execPlayerStart (p : Port) (s : State) : Host.Outcome State Fault Refusal := .next (playerStartTaken p s)

/-- A player's claim freed with a cause, its queue emptied, and the player LOADING (R100). -/
def abortPlayer (cause : FreeCause) (n : PlayerNo) (s : State) : State :=
  let s1 :=
    match (s.player n).claim with
    | some h => freeRecords cause true [h.slot] s
    | none => s
  s1.modPlayer n (toLoading true)

/-- PLAYER_ABORT (R100). -/
def playerAbortBody (p : Port) (s : State) : State × Result :=
  onHeldPlayer p
    (fun n s =>
      done (s.player n).claim (s.player n).queue.length (settle .demand (abortPlayer .playerAbort n s))) s

def playerAbortTaken (p : Port) (s : State) : State := takeCommand p .none (playerAbortBody p) s

def execPlayerAbort (p : Port) (s : State) : Host.Outcome State Fault Refusal := .next (playerAbortTaken p s)

/-- PLAYER_RELEASE: all that PLAYER_ABORT does, and the player is FREE (R101). -/
def playerReleaseBody (p : Port) (s : State) : State × Result :=
  onHeldPlayer p
    (fun n s =>
      done (s.player n).claim (s.player n).queue.length
        (settle .demand ((abortPlayer .playerRelease n s).modPlayer n fun _ => Player.reset))) s

def playerReleaseTaken (p : Port) (s : State) : State := takeCommand p .none (playerReleaseBody p) s

def execPlayerRelease (p : Port) (s : State) : Host.Outcome State Fault Refusal := .next (playerReleaseTaken p s)

end Sys2Proof.Machine
end

