-- ==== Sys2Proof/Machine/Lines.lean ====
section
/-! DEFINITION. The line unit: filters, activity, LINE_CONFIG, LINE_BIND and LINE_UNBIND (spec/06). -/

namespace Sys2Proof.Machine

/-! ### Activity events (R115, R120) -/

/-- The claim pool follows an activity event of a line whose record exists: ACTIVE and re-inserted at a start, DORMANT
in its place at an end, and resolution redone (R31, R33, R120). -/
def followActivity (l : Line) (active : Bool) (s : State) : State :=
  match (s.line l).claim with
  | none => s
  | some h =>
    match claimAt s h with
    | none => s
    | some c =>
      let s1 := s.modRecord h.slot fun r => { r with claim := some { c with active := active } }
      let s2 := if active then reinsert h c s1 else s1
      resolveSet none true c.channels s2

/-- An activity start: the LINE event, then the claim pool; demand and the gates follow (R115). -/
def activityStart (l : Line) (s : State) : State :=
  settle .demand (followActivity l true (fireWatches .line l.val (.line l .start) s))

/-- An activity end (R115). -/
def activityEnd (l : Line) (s : State) : State :=
  settle .demand (followActivity l false (fireWatches .line l.val (.line l .stop) s))

/-! ### Qualification (R111 to R114) -/

/-- Under LEVEL sense the line matches its polarity: high under HIGH, low under LOW (R112). -/
def matchesPolarity (p : Polarity) (filtered : Bool) : Bool :=
  match p with
  | .first => filtered
  | .second => !filtered

/-- The activity event a qualification brings. -/
inductive ActivityEvent where
  | none
  | start
  | stop
  /-- a start and an end, the start taken first (R114) -/
  | pulse
  deriving DecidableEq, Repr

/-- The stretch runs from now for the line's stretch time (R113, R114). -/
def LineState.startStretch (x : LineState) (now : Instant) : LineState :=
  { x with activity := .stretch, stretchEnd := some (now + 10 * x.stretch.val) }

/-- A qualification under LEVEL sense, the filtered value already set (R113). -/
def levelQualified (now : Instant) (x : LineState) : LineState × ActivityEvent :=
  match x.activity, matchesPolarity x.polarity x.filtered with
  | .quiet, true => ({ x with activity := .asserted }, .start)
  | .asserted, false =>
    if 0 < x.stretch.val then (x.startStretch now, .none) else ({ x with activity := .quiet }, .stop)
  | .stretch, true => ({ x with activity := .asserted, stretchEnd := none }, .none)
  | .quiet, false => (x, .none)
  | .asserted, true => (x, .none)
  | .stretch, false => (x, .none)

/-- Whether a qualification to the value given is a qualifying edge (R112). -/
def qualifyingEdge (x : LineState) (filtered : Bool) : Bool := x.anyEdge || matchesPolarity x.polarity filtered

/-- A qualification under EDGE sense, the filtered value already set (R114). -/
def edgeQualified (now : Instant) (x : LineState) : LineState × ActivityEvent :=
  if qualifyingEdge x x.filtered then
    match x.activity with
    | .quiet => if 0 < x.stretch.val then (x.startStretch now, .start) else (x, .pulse)
    | .stretch => (x.startStretch now, .none)
    | .asserted => (x, .none)
  else (x, .none)

/-- A qualification: the filtered value takes the raw input's value, no filter interval runs, and the activity state
moves (R111, R113, R114). -/
def LineState.qualified (now : Instant) (x : LineState) : LineState × ActivityEvent :=
  let x1 := { x with filtered := x.raw, filterEnd := none }
  match x.sense with
  | .level => levelQualified now x1
  | .edge => edgeQualified now x1

/-- The start and the end that an edge line of stretch 0 gives together: in the taking of the start the line is active,
and the gates that name it follow it there; in the taking of the end it is QUIET again (R49, R114, R115, log 12). -/
def activityPulse (l : Line) (s : State) : State :=
  let s1 := activityStart l (s.modLine l fun x => { x with activity := .stretch })
  activityEnd l (s1.modLine l fun x => { x with activity := .quiet })

/-- The activity event of a line handed on, each start and each end a taking of its own (R49, R115, log 12). -/
def handActivity (l : Line) (e : ActivityEvent) (s : State) : State :=
  match e with
  | .none => s
  | .start => activityStart l s
  | .stop => activityEnd l s
  | .pulse => activityPulse l s

def qualify (l : Line) (s : State) : State :=
  let r := (s.line l).qualified s.now
  handActivity l r.2 (s.modLine l fun _ => r.1)

/-! ### Input changes and the line's intervals -/

/-- What an input change does at a running line unit with filter above 0, or back to the filtered value: the filter
interval starts or is cancelled (R111). -/
def LineState.refilter (now : Instant) (x : LineState) : LineState :=
  { x with filterEnd := if x.raw = x.filtered then none else some (now + x.filter.val) }

/-- A change of a raw input. In OFF and INIT it is seen in the raw input and nothing more (R111, R123). -/
def inputChanges (l : Line) (s : State) : State :=
  let s1 := s.modLine l fun x => { x with raw := !x.raw }
  if refusesCommands s.output.stage then s1
  else if (s1.line l).raw ≠ (s1.line l).filtered ∧ (s1.line l).filter = 0 then qualify l s1
  else s1.modLine l (LineState.refilter s.now)

def execLineInputChange (l : Line) (s : State) : Host.Outcome State Fault Refusal := .next (inputChanges l s)

/-- The end of a filter interval: the change qualifies (R111). -/
def filterEnds (l : Line) (s : State) : State := if dueAt (s.line l).filterEnd s.now then qualify l s else s

def execFilterIntervalEnd (l : Line) (s : State) : Host.Outcome State Fault Refusal := .next (filterEnds l s)

/-- The end of a stretch: QUIET, and an activity end (R113, R114). -/
def stretchEnds (l : Line) (s : State) : State :=
  if dueAt (s.line l).stretchEnd s.now then
    activityEnd l (s.modLine l fun x => { x with activity := .quiet, stretchEnd := none })
  else s

def execStretchEnd (l : Line) (s : State) : Host.Outcome State Fault Refusal := .next (stretchEnds l s)

/-! ### LINE_CONFIG (R117) -/

/-- The line argument of the line commands, ARG5 (R203). -/
def argLine (s : State) (p : Port) : Option Line := inRange (argNat s p 5) 8

/-- The five settings of a LINE_CONFIG (R117, R203). -/
structure LineSettings where
  sense : Sense
  polarity : Polarity
  anyEdge : Bool
  filter : Fin 16
  stretch : Fin 256
  deriving DecidableEq, Repr

def argLineSettings (s : State) (p : Port) : Option LineSettings :=
  match senseOf (field (arg s p 1) 0 2), polarityOf (field (arg s p 1) 4 2), inRange (argNat s p 2) 16,
      inRange (argNat s p 3) 256 with
  | some sense, some polarity, some filter, some stretch =>
    some { sense := sense, polarity := polarity, anyEdge := (arg s p 1).getLsbD 8, filter := filter,
           stretch := stretch }
  | _, _, _, _ => none

/-- The activity a line takes up afresh from its raw input (R117, R124). -/
def freshActivity (sense : Sense) (polarity : Polarity) (raw : Bool) : Activity :=
  match sense with
  | .level => if matchesPolarity polarity raw then .asserted else .quiet
  | .edge => .quiet

/-- Steps 1 to 4 of LINE_CONFIG (R117). -/
def LineState.configure (x : LineState) (c : LineSettings) : LineState :=
  { x with
    sense := c.sense, polarity := c.polarity, anyEdge := c.anyEdge, filter := c.filter, stretch := c.stretch,
    filterEnd := none, stretchEnd := none, filtered := x.raw,
    activity := freshActivity c.sense c.polarity x.raw }

/-- Step 5 of LINE_CONFIG: the activity before and after (R117). -/
def activityDifference (before after : Bool) : ActivityEvent :=
  match before, after with
  | true, false => .stop
  | false, true => .start
  | true, true => .none
  | false, false => .none

/-- LINE_CONFIG (R117). R117 gives the code of a refusal and neither its handle nor its extra word: *none* and 0, as
other refusals have them (log 27, DESIGN CHOICE). -/
def lineConfigBody (p : Port) (s : State) : State × Result :=
  match argLine s p, argLineSettings s p with
  | some l, some c =>
    let x := (s.line l).configure c
    let s1 := handActivity l (activityDifference (s.line l).isActive x.isActive) (s.modLine l fun _ => x)
    done none (if x.isActive then 1 else 0) s1
  | _, _ => refuse .badArgument 0 s

def lineConfigTaken (p : Port) (s : State) : State := takeCommand p .maintenance (lineConfigBody p) s

def execLineConfig (p : Port) (s : State) : Host.Outcome State Fault Refusal := .next (lineConfigTaken p s)

/-! ### LINE_BIND and LINE_UNBIND (R118, R119, R121) -/

/-- The claim of a line's binding: FIXED, tag 0, no lease, ACTIVE while the line is active (R1, R118, R120). -/
def lineClaim (l : Line) (active : Bool) (t : Template) : Claim :=
  { active := active, owner := .line l, channels := t.channels, priority := t.priority, source := .fixed t.level,
    pattern := t.pattern, fade := t.fade, lease := none, tag := 0 }

/-- The template of a LINE_BIND (R119, R203). -/
def argTemplate (s : State) (p : Port) : Option Template :=
  let w := argClaimWord s p
  match inRange (argNat s p 1) 4096 with
  | some level =>
    if arg s p 0 = 0 then none
    else some { channels := arg s p 0, priority := w.priority, level := level, pattern := w.pattern, fade := w.fade }
  | none => none

/-- The record of a bound line placed in a slot, and named by the binding (R118, R119, R124). -/
def placeLine (l : Line) (t : Template) (slot : Slot) (s : State) : State :=
  let h := handleAt s slot
  (place slot (lineClaim l (s.line l).isActive t) s).modLine l fun x => { x with binding := some t, claim := some h }

/-- LINE_BIND (R119). -/
def lineBindBody (p : Port) (s : State) : State × Result :=
  match argLine s p with
  | none => refuse .badArgument 0 s
  | some l =>
    if (s.line l).binding.isSome then refuse .inUse 0 s
    else
      match argTemplate s p with
      | none => refuse .badArgument 0 s
      | some t =>
        match roomCheck s t.channels with
        | .refused code extra => refuse code extra s
        | .room slot =>
          let h := handleAt s slot
          let s1 := placeLine l t slot s
          done (some h) (winsOn s1 h t.channels) (settle .demand s1)

def lineBindTaken (p : Port) (s : State) : State := takeCommand p .maintenance (lineBindBody p) s

def execLineBind (p : Port) (s : State) : Host.Outcome State Fault Refusal := .next (lineBindTaken p s)

/-- The record of a line freed with cause LINE_UNBIND, and the binding cleared (R121). -/
def unbindLine (l : Line) (s : State) : State :=
  let s1 :=
    match (s.line l).claim with
    | some h => freeRecords .lineUnbind true [h.slot] s
    | none => s
  s1.modLine l fun x => { x with binding := none, claim := none }

/-- How many channels the claim of a line wins (R121). -/
def lineWins (l : Line) (s : State) : Nat :=
  match (s.line l).claim with
  | some h => match claimAt s h with | some c => winsOn s h c.channels | none => 0
  | none => 0

/-- LINE_UNBIND (R121). R121 gives the code of a refusal and neither its handle nor its extra word: *none* and 0, as
other refusals have them (log 27, DESIGN CHOICE). -/
def lineUnbindBody (p : Port) (s : State) : State × Result :=
  match argLine s p with
  | none => refuse .badArgument 0 s
  | some l =>
    if (s.line l).binding.isNone then refuse .wrongState 0 s
    else done (s.line l).claim (lineWins l s) (settle .demand (unbindLine l s))

def lineUnbindTaken (p : Port) (s : State) : State := takeCommand p .maintenance (lineUnbindBody p) s

def execLineUnbind (p : Port) (s : State) : Host.Outcome State Fault Refusal := .next (lineUnbindTaken p s)

end Sys2Proof.Machine
end

