-- ==== Sys2Proof/Machine/Settings.lean ====
section
/-! DEFINITION. The commands that set the modulator and the output stage: CHANNEL_FADE, CLOCK_CONFIG, DERATE_CONFIG,
LAMP_TEST, LATCH_CLEAR, CHANNEL_ENABLE, CHANNEL_REARM_MODE, FAULT_REARM (spec/07, spec/08), and WATCH_SET,
WATCH_DROP (spec/09). -/

namespace Sys2Proof.Machine

/-! ### Modulator -/

/-- The default fade of every channel of a set (R133). -/
def setDefaultFade (cs : ChannelSet) (i : FadeIndex) (shape : Shape) (s : State) : State :=
  forEach (members cs) (fun ch s => s.modChan ch fun m => { m with defaultIndex := i, defaultShape := shape }) s

/-- CHANNEL_FADE (R133). -/
def channelFadeBody (p : Port) (s : State) : State × Result :=
  match inRange (argNat s p 1) 8, shapeOf (argNat s p 2) with
  | some i, some shape =>
    if arg s p 0 = 0 then refuse .badArgument 0 s
    else done none (members (arg s p 0)).length (setDefaultFade (arg s p 0) i shape s)
  | _, _ => refuse .badArgument 0 s

def channelFadeTaken (p : Port) (s : State) : State := takeCommand p .maintenance (channelFadeBody p) s

def execChannelFade (p : Port) (s : State) : Host.Outcome State Fault Refusal := .next (channelFadeTaken p s)

/-- The half-period argument of CLOCK_CONFIG, 1..127 (R136). -/
def halfPeriodOf (n : Nat) : Option (Fin 128) := if n = 0 then none else inRange n 128

/-- CLOCK_CONFIG: the half-period is stored and the clock restarts in its ON-half (R136). -/
def clockConfigBody (p : Port) (s : State) : State × Result :=
  match inRange (argNat s p 0) 4, halfPeriodOf (argNat s p 1) with
  | some k, some half =>
    done none 0
      (cleanChannels (s.modClock k fun _ => { halfPeriod := half, offHalf := false, began := some s.now }))
  | _, _ => refuse .badArgument 0 s

def clockConfigTaken (p : Port) (s : State) : State := takeCommand p .maintenance (clockConfigBody p) s

def execClockConfig (p : Port) (s : State) : Host.Outcome State Fault Refusal := .next (clockConfigTaken p s)

/-- DERATE_CONFIG (R140). -/
def derateConfigBody (p : Port) (s : State) : State × Result :=
  match inRange (argNat s p 1) 4096 with
  | some v =>
    done none (if s.output.supply.overtempWarn then 1 else 0) (cleanChannels (s.setDerateCeiling v))
  | none => refuse .badArgument 0 s

def derateConfigTaken (p : Port) (s : State) : State := takeCommand p .maintenance (derateConfigBody p) s

def execDerateConfig (p : Port) (s : State) : Host.Outcome State Fault Refusal := .next (derateConfigTaken p s)

/-- LAMP_TEST (R144). -/
def lampTestBody (p : Port) (s : State) : State × Result :=
  if argNat s p 1 = 0 ∨ 30 < argNat s p 1 then refuse .badArgument 0 s
  else if s.output.hold ∨ s.output.stage = .recovery ∨ s.output.stage = .latched then refuse .wrongState 0 s
  else
    done none (if s.lampTest.isSome then 1 else 0)
      (settle .demand (s.setLampTest (some (s.now + 1000 * argNat s p 1))))

def lampTestTaken (p : Port) (s : State) : State := takeCommand p .maintenance (lampTestBody p) s

def execLampTest (p : Port) (s : State) : Host.Outcome State Fault Refusal := .next (lampTestTaken p s)

/-! ### Output stage -/

/-- LATCH_CLEAR: every channel rearmed, the recovery count 0, STANDBY, and on to SOFTSTART where it may (R166). -/
def clearLatch (s : State) : State :=
  let s1 := forEach (indexes 16) rearmChannel s
  settle .demand (enterStage .standby .latchClear (s1.modOutput fun o => { o with recovery := 0 }))

def latchClearBody (s : State) : State × Result :=
  if s.output.stage = .latched then done none (faultedCount s (indexes 16)) (clearLatch s)
  else refuse .wrongState 0 s

def latchClearTaken (p : Port) (s : State) : State := takeCommand p .maintenance latchClearBody s

def execLatchClear (p : Port) (s : State) : Host.Outcome State Fault Refusal := .next (latchClearTaken p s)

/-- A channel disabled: its clean interval is cancelled, and a PENDING fault becomes HELD (R168). -/
def disableOut (o : OutChannel) : OutChannel :=
  { o with
    enabled := false, cleanEnd := none,
    fault :=
      match o.fault with
      | .faulted k (.pending _) => .faulted k .held
      | .faulted k .held => .faulted k .held
      | .ready => .ready }

/-- A channel enabled or disabled, and opened or closed by it (R131, R168). -/
def enableChannel (v : Bool) (ch : Channel) (s : State) : State :=
  syncChannel ch (s.modOut ch fun o => if v then { o with enabled := true } else disableOut o)

/-- CHANNEL_ENABLE (R168). -/
def channelEnableBody (p : Port) (s : State) : State × Result :=
  match flagOf (argNat s p 1) with
  | some v =>
    if arg s p 0 = 0 then refuse .badArgument 0 s
    else
      done none ((members (arg s p 0)).filter fun ch => (s.out ch).enabled != v).length
        (settle .demand (forEach (members (arg s p 0)) (enableChannel v) s))
  | none => refuse .badArgument 0 s

def channelEnableTaken (p : Port) (s : State) : State := takeCommand p .maintenance (channelEnableBody p) s

def execChannelEnable (p : Port) (s : State) : Host.Outcome State Fault Refusal := .next (channelEnableTaken p s)

/-- CHANNEL_REARM_MODE (R168). -/
def channelRearmModeBody (p : Port) (s : State) : State × Result :=
  match flagOf (argNat s p 1) with
  | some v =>
    if arg s p 0 = 0 then refuse .badArgument 0 s
    else
      done none (members (arg s p 0)).length
        (forEach (members (arg s p 0)) (fun ch s => s.modOut ch fun o => { o with manual := v }) s)
  | none => refuse .badArgument 0 s

def channelRearmModeTaken (p : Port) (s : State) : State := takeCommand p .maintenance (channelRearmModeBody p) s

def execChannelRearmMode (p : Port) (s : State) : Host.Outcome State Fault Refusal :=
  .next (channelRearmModeTaken p s)

/-- FAULT_REARM (R173). -/
def faultRearmBody (p : Port) (s : State) : State × Result :=
  if arg s p 0 = 0 then refuse .badArgument 0 s
  else
    done none (faultedCount s (members (arg s p 0)))
      (settle .demand (forEach (members (arg s p 0)) rearmChannel s))

def faultRearmTaken (p : Port) (s : State) : State := takeCommand p .maintenance (faultRearmBody p) s

def execFaultRearm (p : Port) (s : State) : Host.Outcome State Fault Refusal := .next (faultRearmTaken p s)

/-! ### Watches -/

/-- The watch a WATCH_SET asks for: kind ARG0, lo ARG1, hi ARG2, one-shot ARG3, none where one is out of range or lo is
above hi (R177, R203). -/
def argWatch (s : State) (p : Port) : Option Watch :=
  match watchKindOf (argNat s p 0), inRange (argNat s p 1) 16, inRange (argNat s p 2) 16, flagOf (argNat s p 3) with
  | some kind, some lo, some hi, some oneShot =>
    if hi.val ≤ kind.top ∧ lo.val ≤ hi.val then
      some { owner := p, kind := kind, lo := lo, hi := hi, oneShot := oneShot }
    else none
  | _, _, _, _ => none

/-- WATCH_SET (R177). -/
def watchSetBody (p : Port) (s : State) : State × Result :=
  match argWatch s p with
  | none => refuse .badArgument 0 s
  | some w =>
    match freeWatch? s with
    | none => refuse .full 0 s
    | some i => done none i.val (s.setWatch i (some w))

def watchSetTaken (p : Port) (s : State) : State := takeCommand p .none (watchSetBody p) s

def execWatchSet (p : Port) (s : State) : Host.Outcome State Fault Refusal := .next (watchSetTaken p s)

/-- WATCH_DROP (R178). -/
def watchDropBody (p : Port) (s : State) : State × Result :=
  match inRange (argNat s p 0) 12 with
  | none => refuse .badArgument 0 s
  | some i =>
    match s.watch i with
    | none => refuse .badArgument 0 s
    | some w =>
      if w.owner ≠ p then refuse .notOwner 0 s
      else
        let s1 := s.setWatch i none
        done none (watchCount s1 p) s1

def watchDropTaken (p : Port) (s : State) : State := takeCommand p .none (watchDropBody p) s

def execWatchDrop (p : Port) (s : State) : Host.Outcome State Fault Refusal := .next (watchDropTaken p s)

end Sys2Proof.Machine
end

