-- ==== Sys2Proof/Machine/Rights.lean ====
section
/-! DEFINITION. The access table and the port resets: PRIV_SET, MAINT_HANDOVER, PORT_RESET, PORT_CLEAR (spec/10). -/

namespace Sys2Proof.Machine

/-- The port argument, ARG0 (R203). -/
def argPort (s : State) (p : Port) : Option Port := inRange (argNat s p 0) 3

/-! ### PRIV_SET (R194) -/

/-- The records of a port whose priority is above a ceiling (R194). -/
def aboveCeiling (p : Port) (ceiling : Priority) (s : State) : List Slot :=
  slotsWhere s fun c => ownedBy p c && decide (ceiling < c.priority)

/-- The records that the cascade frees: those above the new ceiling, where it is lower than the old (R194). -/
def cascadeSlots (p : Port) (ceiling : Priority) (s : State) : List Slot :=
  if ceiling < (s.right p).ceiling then aboveCeiling p ceiling s else []

/-- A PRIV_SET that has passed its checks: the values, the ACCESS notice where the ceiling changes, and the cascade
(R194). -/
def applyPrivSet (p : Port) (ceiling : Priority) (sceneEdit : Bool) (quota : Fin 49) (s : State) : State :=
  let slots := cascadeSlots p ceiling s
  let s1 := s.modRight p fun r => { r with ceiling := ceiling, sceneEdit := sceneEdit, quota := quota }
  let s2 := if ceiling ≠ (s.right p).ceiling then offer p (.access p .ceilingChanged) s1 else s1
  if slots = [] then s2 else settle .demand (freeRecords .ceilingCascade true slots s2)

def privSetBody (p : Port) (s : State) : State × Result :=
  match argPort s p, inRange (argNat s p 1) 8, flagOf (argNat s p 2), inRange (argNat s p 3) 49 with
  | some q, some ceiling, some sceneEdit, some quota =>
    if quota.val < (s.right q).held then refuse .inUse (s.right q).held s
    else done none (cascadeSlots q ceiling s).length (applyPrivSet q ceiling sceneEdit quota s)
  | _, _, _, _ => refuse .badArgument 0 s

def privSetTaken (p : Port) (s : State) : State := takeCommand p .maintenance (privSetBody p) s

def execPrivSet (p : Port) (s : State) : Host.Outcome State Fault Refusal := .next (privSetTaken p s)

/-! ### MAINT_HANDOVER (R195) -/

def maintHandoverBody (p : Port) (s : State) : State × Result :=
  match argPort s p with
  | none => refuse .badArgument 0 s
  | some q =>
    if q = p then done none q.val s
    else
      done none q.val
        (offer q (.access q .maintGained) (offer p (.access p .maintLost) (s.setMaintenance q)))

def maintHandoverTaken (p : Port) (s : State) : State := takeCommand p .maintenance (maintHandoverBody p) s

def execMaintHandover (p : Port) (s : State) : Host.Outcome State Fault Refusal := .next (maintHandoverTaken p s)

/-! ### Port resets (R196, R197) -/

/-- The records a port owns (R27). -/
def ownSlots (p : Port) (s : State) : List Slot := slotsWhere s (ownedBy p)

/-- Each player a port holds becomes FREE (R23, R196 step 3). -/
def freePlayers (p : Port) (s : State) : State :=
  forEach (indexes 2) (fun n s => s.modPlayer n fun x => if x.holder = some p then Player.reset else x) s

/-- The registers a port reset sets to 0 (R196 step 4, R198). -/
def clearRegisters (q : PortState) : PortState :=
  { q with
    args := Vector.replicate 8 0, status := .ok, handle := none, extra := 0, selChannel := 0, selSlot := 0,
    selList := 0, selScene := 0, selPlayer := 0, accepted := 0, refused := 0 }

/-- Steps 1 to 4 of a port reset (R196). -/
def resetPort (p : Port) (s : State) : State :=
  let s1 := resetNotices p s
  let s2 := freeRecords .portReset true (ownSlots p s1) s1
  (freePlayers p s2).modPort p clearRegisters

/-- PORT_RESET: steps 1 to 5, in every stage (R196). Where the freeings bring a demand start in STANDBY, the STAGE
SOFTSTART notice goes to every port, the port reset among them (R153, R157), although R187 says that its queue holds no
notice of its own reset (log 28, DESIGN CHOICE). PORT_CLEAR does the same at its target. -/
def portResetTaken (p : Port) (s : State) : State :=
  setResult p { code := .ok, handle := none, extra := (ownSlots p s).length } (settle .demand (resetPort p s))

def execPortReset (p : Port) (s : State) : Host.Outcome State Fault Refusal := .next (portResetTaken p s)

/-- PORT_CLEAR: steps 1 to 4 on the target, ACCESS CLEARED to it, and the issuer's result (R197). -/
def portClearBody (p : Port) (s : State) : State × Result :=
  match argPort s p with
  | none => refuse .badArgument 0 s
  | some q =>
    done none (ownSlots q s).length (settle .demand (offer q (.access q .cleared) (resetPort q s)))

def portClearTaken (p : Port) (s : State) : State := takeCommand p .maintenance (portClearBody p) s

def execPortClear (p : Port) (s : State) : Host.Outcome State Fault Refusal := .next (portClearTaken p s)

end Sys2Proof.Machine
end

