-- ==== Sys2Proof/Machine/Init.lean ====
section
/-! DEFINITION. The takings that reach every block: power-on reset, ENABLE low, ENABLE high and the end of INIT
(R25, R26, R108, R123, R124, R137, R148, R154, R155, R187, R193). -/

namespace Sys2Proof.Machine

/-! ### ENABLE -/

/-- ENABLE going high in OFF: INIT, with its interval (R155). -/
def enableHigh (s : State) : State :=
  if s.output.stage = .off then enterStage .init .enableHigh s else s

def execEnableHigh (s : State) : Host.Outcome State Fault Refusal := .next (enableHigh s)

/-- A channel of the output stage at ENABLE low: READY, retry count 0, no timer and no clean interval; enable and rearm
mode are kept (R154 step 3, R167). -/
def outOff (o : OutChannel) : OutChannel := { o with fault := .ready, retry := 0, cleanEnd := none }

/-- A line at ENABLE low: QUIET, no interval and no stretch, the binding without a record (R118, R123). -/
def lineOff (x : LineState) : LineState :=
  { x with filterEnd := none, stretchEnd := none, activity := .quiet, claim := none }

/-- A clock at ENABLE low: stopped, its phase reading ON-half (R137). -/
def clockOff (c : PatternClock) : PatternClock := { c with offHalf := false, began := none }

/-- A held player at ENABLE low goes to LOADING with its queue emptied; a FREE one stays FREE (R108). -/
def playerOff (x : Player) : Player := if x.state = .free then x else toLoading true x

/-- A port at ENABLE low: its queue is emptied and its overflow flag cleared (R187). -/
def portOff (q : PortState) : PortState := { q with queue := [], overflow := false }

/-- The output stage at ENABLE low: OFF, no interval, recovery count 0, demand absent; the supply conditions and HOLD
are kept (R154, R156). -/
def outputOff (s : State) : State :=
  let s1 := changeStage .off .enableLow (s.setLampTest none)
  (s1.modOutput fun o => { o with recovery := 0, demand := false }).modOuts outOff

/-- Every claim freed with no notice, the lines held quiet, the clocks stopped, the players LOADING (R26, R108, R123,
R137). -/
def blocksOff (s : State) : State :=
  let s1 := freeRecords .enableLow false (indexes 48) s
  let s2 := { s1 with players := tmap playerOff s1.players }
  (s2.modLines lineOff).modClocks clockOff

/-- ENABLE going low, in any stage but OFF (R154). -/
def enableLow (s : State) : State :=
  if s.output.stage = .off then s
  else
    let s1 := blocksOff (outputOff s)
    offerAll (.stage .off .enableLow) { s1 with ports := tmap portOff s1.ports }

def execEnableLow (s : State) : Host.Outcome State Fault Refusal := .next (enableLow s)

/-! ### The end of INIT -/

/-- A line taken up afresh at the end of INIT (R124). -/
def lineFresh (x : LineState) : LineState :=
  { x with
    filtered := x.raw, filterEnd := none, stretchEnd := none,
    activity := freshActivity x.sense x.polarity x.raw }

/-- The record of a bound line re-created from its template in the lowest FREE slot (R124). -/
def recreateLine (l : Line) (s : State) : State :=
  match (s.line l).binding with
  | none => s
  | some t =>
    match roomCheck s t.channels with
    | .refused _ _ => s
    | .room slot => placeLine l t slot s

/-- The LINE START of a line found active (R124). -/
def announceLine (l : Line) (s : State) : State :=
  if (s.line l).isActive then fireWatches .line l.val (.line l .start) s else s

/-- The start-up lamp test: 1 s where LTS is strapped and HOLD is released (R148). -/
def startupTest (s : State) : State :=
  if s.lts && !s.output.hold then s.setLampTest (some (s.now + startupTestTime)) else s

/-- The clocks begin an ON-half (R137). -/
def clockOn (now : Instant) (c : PatternClock) : PatternClock := { c with offHalf := false, began := some now }

/-- The end of INIT: STANDBY, the lines and their claims, the LINE START events, the clocks and the start-up test; then
the stage moves on where it may (R124, R137, R148, R155, R186). -/
def initEnds (s : State) : State :=
  if dueAt s.output.initEnd s.now then
    let s1 := (enterStage .standby .initEnd s).modLines lineFresh
    let s2 := forEach (indexes 8) announceLine (forEach (indexes 8) recreateLine s1)
    settle .demand (startupTest (s2.modClocks (clockOn s.now)))
  else s

def execInitIntervalEnd (s : State) : Host.Outcome State Fault Refusal := .next (initEnds s)

/-! ### Power-on reset -/

/-- A line at power-on, with its raw input as sampled (R110). -/
def lineSampled (levels : Byte) (n : Nat) : LineState := { LineState.reset with raw := levels.getLsbD n }

/-- The arbiter with every piece of state at its power-on value and the straps and pins sampled; the instant, the
draws and the queue are the model's own and stay (R110, R193, log 6). -/
def powerOnState (pins : PowerOnPins) (s : State) : State :=
  { State.reset with
    now := s.now, draws := s.draws, pending := s.pending,
    lts := pins.lts, address0 := pins.address0, address1 := pins.address1,
    access := Access.reset pins.msel,
    lines :=
      #v[lineSampled pins.lines 0, lineSampled pins.lines 1, lineSampled pins.lines 2, lineSampled pins.lines 3,
         lineSampled pins.lines 4, lineSampled pins.lines 5, lineSampled pins.lines 6, lineSampled pins.lines 7],
    output :=
      { State.reset.output with
        hold := pins.hold,
        supply :=
          { lampSupplyLow := pins.lampSupplyLow, overcurrent := pins.overcurrent,
            overtempWarn := pins.overtempWarn, overtempShutdown := pins.overtempShutdown } } }

/-- Power-on reset; at its end an ENABLE that stands high is taken as ENABLE going high in OFF (R155). -/
def powerOn (pins : PowerOnPins) (s : State) : State :=
  if pins.enable then enableHigh (powerOnState pins s) else powerOnState pins s

def execPowerOnReset (pins : PowerOnPins) (s : State) : Host.Outcome State Fault Refusal := .next (powerOn pins s)

end Sys2Proof.Machine
end

