-- ==== Sys2Proof/Machine/Window.lean ====
section
/-! DEFINITION. The register window as a port reads it: the layouts of spec/11 over the state as it stands when the read
frame's offset arrives (R24, R53, R54, R67, R83, R109, R125, R150, R175, R184, R185, R200 to R205). A read of a register
changes no state; the clearing reads are in Machine/Frames.lean. -/

namespace Sys2Proof.Machine

/-- A register from its fields, each a value and the place of its lowest bit. Bits that no field names read 0 (R201). -/
def pack (fields : List (Nat × Nat)) : Word :=
  BitVec.ofNat 16 (fields.foldl (fun n f => n + f.1 * 2 ^ f.2) 0)

def bit (b : Bool) : Nat := if b then 1 else 0

/-- A remaining time in units, rounded up. -/
def unitsLeft (unit : Nat) (ends now : Instant) : Nat := (ends - now + (unit - 1)) / unit

/-- A remaining time in units, rounded up; 0 where nothing runs. -/
def unitsOf (unit : Nat) (ends : Option Instant) (now : Instant) : Nat :=
  match ends with
  | none => 0
  | some e => unitsLeft unit e now

def ownerCode (o : Option Owner) : Nat :=
  match o with
  | none => 15
  | some x => x.code

/-! ### The port's own registers -/

/-- PORT_STATUS: bits 4..0 queue count, bit 8 overflow, bit 9 frame-error (R185, R189, R200). -/
def portStatus (q : PortState) : Word := pack [(q.queue.length, 0), (bit q.overflow, 8), (bit q.frameError, 9)]

def removalCode : RemovalReason → Nat
  | .lease => 0
  | .ceiling => 1
  | .finished => 2

def faultKindCode : FaultKind → Nat
  | .openString => 0
  | .short => 1
  | .ground => 2

def faultDetailCode : FaultDetail → Nat
  | .kind k => faultKindCode k
  | .ready => 3

def lineDetailCode : LineDetail → Nat
  | .start => 0
  | .stop => 1

def playerDetailCode : PlayerDetail → Nat
  | .lowWater => 0
  | .starved => 1
  | .finished => 2
  | .aborted => 3

def accessDetailCode : AccessDetail → Nat
  | .ceilingChanged => 0
  | .maintGained => 1
  | .maintLost => 2
  | .cleared => 3

/-- The subject of a notice (R181). -/
def Notice.subject : Notice → Nat
  | .claimRemoved ch .. => ch.val
  | .winner ch _ => ch.val
  | .fault ch _ => ch.val
  | .line l _ => l.val
  | .player n .. => n.val
  | .stage st _ => st.code
  | .access p _ => p.val

/-- The owner field of a notice, 15 where it does not apply (R181, R202). -/
def Notice.ownerField : Notice → Nat
  | .claimRemoved _ _ p _ _ => p.val
  | .winner _ (some i) => i.owner.code
  | .winner _ none => 15
  | .fault .. => 15
  | .line .. => 15
  | .player _ _ p _ _ => p.val
  | .stage .. => 15
  | .access .. => 15

/-- The detail of a notice, 15 where it does not apply (R202). -/
def Notice.detail : Notice → Nat
  | .claimRemoved _ _ _ _ r => removalCode r
  | .winner _ (some i) => i.priority.val
  | .winner _ none => 15
  | .fault _ d => faultDetailCode d
  | .line _ d => lineDetailCode d
  | .player _ _ _ _ d => playerDetailCode d
  | .stage _ c => c.code
  | .access _ d => accessDetailCode d

/-- The handle of a notice (R181). -/
def Notice.handleField : Notice → Option Handle
  | .claimRemoved _ h _ _ _ => some h
  | .winner _ (some i) => some i.handle
  | .winner _ none => none
  | .fault .. => none
  | .line .. => none
  | .player _ h _ _ _ => some h
  | .stage .. => none
  | .access .. => none

/-- The tag of a notice, 0 where it does not apply (R181, R202). -/
def Notice.tagField : Notice → Word
  | .claimRemoved _ _ _ t _ => t
  | .winner _ (some i) => i.tag
  | .winner _ none => 0
  | .fault .. => 0
  | .line .. => 0
  | .player _ _ _ t _ => t
  | .stage .. => 0
  | .access .. => 0

/-- The notice head, the first register: kind, subject, owner, detail; with the queue empty, kind NONE and every other
field as one that does not apply (R184, R200, R202). -/
def headWord (q : PortState) : Word :=
  match q.queue.head? with
  | none => pack [(0, 0), (0, 3), (15, 7), (15, 11)]
  | some n => pack [(n.kindCode, 0), (n.subject, 3), (n.ownerField, 7), (n.detail, 11)]

def headHandle (q : PortState) : Word :=
  match q.queue.head? with
  | none => BitVec.ofNat 16 (handleCode none)
  | some n => BitVec.ofNat 16 (handleCode n.handleField)

def headTag (q : PortState) : Word :=
  match q.queue.head? with
  | none => 0
  | some n => n.tagField

/-! ### Channel window, 0x20 -/

def policyCode : Policy → Nat
  | .priority => 0
  | .maximum => 1

def shapeCode : Shape → Nat
  | .linear => 0
  | .smooth => 1

def fadeStateCode : Fade → Nat
  | .parked => 0
  | .settled => 1
  | .fading .. => 2

/-- The shape in use reads LINEAR unless FADING (R150). -/
def shapeInUse : Fade → Shape
  | .parked => .linear
  | .settled => .linear
  | .fading _ _ _ sh => sh

def faultKindOf : FaultState → Nat
  | .ready => 0
  | .faulted k _ => faultKindCode k

/-- The retry timer's remaining time in ms, and whether it is paused (R175). -/
def retryLeft (f : FaultState) (now : Instant) : Nat :=
  match f with
  | .faulted _ (.pending (.running e)) => e - now
  | .faulted _ (.pending (.paused r)) => r
  | .faulted _ .held => 0
  | .ready => 0

def retryPaused : FaultState → Bool
  | .faulted _ (.pending (.running _)) => false
  | .faulted _ (.pending (.paused _)) => true
  | .faulted _ .held => false
  | .ready => false

/-- The winner's claim on a channel. -/
def winnerClaim (s : State) (ch : Channel) : Option Claim :=
  match (s.entry ch).winner with
  | none => none
  | some h => claimAt s h

/-- The channel window of a channel (R53, R150, R175, R205). -/
def channelRegisters (s : State) (ch : Channel) : List Word :=
  let e := s.entry ch
  let m := s.chan ch
  let o := s.out ch
  let w := winnerClaim s ch
  [ pack
      [(policyCode e.policy, 0), (fadeStateCode m.fade, 1), (shapeCode (shapeInUse m.fade), 3),
       (m.defaultIndex.val, 4), (shapeCode m.defaultShape, 7), (bit (gateLit s ch), 8), (bit o.enabled, 9),
       (bit o.manual, 10), (bit (isFaulted o), 11), (faultKindOf o.fault, 12), (bit (isHeld o), 14),
       (bit (retryPaused o.fault), 15)],
    pack [(e.idle.val, 0), (e.list.length, 12)],
    BitVec.ofNat 16 (handleCode e.winner),
    pack
      [(ownerCode (w.map (·.owner)), 0), (match w with | none => 15 | some c => c.priority.val, 4),
       ((activeEntries s ch).length, 8), (o.retry, 12)],
    pack [(e.pattern.code, 0), (unitsLeft 10 (retryLeft o.fault s.now) 0, 8)],
    pack [(e.target.val, 0)],
    pack [((fadeLevel m s.now).val, 0)],
    pack [(unitsOf 10 (fadeEnd? m) s.now, 0), (unitsOf 100 o.cleanEnd s.now, 9)],
    pack [((outputLevel s ch).val, 0)] ]

/-- The channel window under a select value outside 0..15 (R53). -/
def noChannelRegisters : List Word :=
  [0, 0, BitVec.ofNat 16 (handleCode none), pack [(15, 0), (15, 4)], 0, 0, 0, 0, 0]

/-! ### Claim slot window, 0x29 -/

def sourceNumber : LevelSource → Nat
  | .fixed v => v.val
  | .scene n => n.val
  | .player n => n.val

/-- The number of FREE records (R24). -/
def freeCount (s : State) : Nat := (s.pool.toList.filter fun r => r.claim.isNone).length

/-- The remaining time of a lease in units of 100 ms, rounded up, and 1 or more until its expiry has been taken; an absent
lease shows 0 (R67). -/
def leaseLeft (l : Option Lease) (now : Instant) : Nat :=
  match l with
  | none => 0
  | some x => max 1 (unitsLeft 100 x.ends now)

/-- The claim slot window for a record and the pool summary (R24, R67, R205). -/
def slotRegisters (s : State) (r : ClaimRecord) : List Word :=
  let held : Port → Nat := fun p => (s.right p).held
  match r.claim with
  | none =>
    [pack [(0, 0), (r.gen.val, 2), (15, 6)], 0, 0, 0, pack [(freeCount s, 8)], 0, pack [(held 0, 0), (held 1, 8)],
     pack [(held 2, 0)]]
  | some c =>
    [pack
      [(if c.active then 2 else 1, 0), (r.gen.val, 2), (c.owner.code, 6), (c.source.code, 10), (c.priority.val, 12)],
     c.channels,
     pack [(sourceNumber c.source, 0), (c.fade.val, 12)],
     pack [(c.pattern.code, 0), (match c.lease with | none => 0 | some l => l.length.val, 8)],
     pack [(leaseLeft c.lease s.now, 0), (freeCount s, 8)],
     c.tag,
     pack [(held 0, 0), (held 1, 8)],
     pack [(held 2, 0)]]

/-- The record a claim-slot select value shows: outside 0..47 as a FREE record of generation 0 (R24). -/
def selectedRecord (s : State) (n : Nat) : ClaimRecord :=
  match inRange n 48 with
  | some slot => s.record slot
  | none => { gen := 0, claim := none }

/-! ### List entry window, 0x31 -/

/-- The list entry window (R54, R205). -/
def listRegisters (s : State) (channel position : Nat) : List Word :=
  let nothing : List Word := [BitVec.ofNat 16 (handleCode none), pack [(15, 1)], 0]
  match inRange channel 16 with
  | none => nothing
  | some ch =>
    match (s.entry ch).list[position]? with
    | none => nothing
    | some h =>
      match claimAt s h with
      | none => nothing
      | some c =>
        [BitVec.ofNat 16 h.code,
         pack
          [(bit c.active, 0), (c.owner.code, 1), (c.priority.val, 5), (c.source.code, 8),
           (bit ((s.entry ch).winner == some h), 10)],
         pack [((effectiveLevel s c ch).val, 0)]]

/-! ### Scene window, 0x34 -/

/-- The scene window (R83, R205); a select value outside 0..15 reads every field as 0. -/
def sceneRegisters (s : State) (n : Nat) : List Word :=
  match inRange n 16 with
  | none => List.replicate 18 0
  | some k =>
    let x := s.scene k
    pack [(x.entryCount, 0), (x.inUse, 8)] :: x.channels ::
      x.levels.toList.map fun v => pack [((v.getD 0).val, 0)]

/-! ### Player window, 0x46 -/

def playerStateCode : PlayerState → Nat
  | .free => 0
  | .loading => 1
  | .playing => 2
  | .starved => 3
  | .holding => 4

/-- The time remaining in the current step, in units of 10 ms rounded up (R109). -/
def stepLeft (c : CurrentStep) (now : Instant) : Nat :=
  unitsLeft 10 (c.began + 10 * (c.step.ramp.val + c.step.hold.val)) now

def stepWords (st : Option PlayerStep) : List Word :=
  match st with
  | none => [0, 0, 0]
  | some x => [pack [(x.level.val, 0)], pack [(x.ramp.val, 0)], pack [(x.hold.val, 0)]]

/-- The player window (R109, R205). -/
def playerRegisters (s : State) (n : Nat) : List Word :=
  match inRange n 2 with
  | none => [pack [(3, 3)], 0, BitVec.ofNat 16 (handleCode none), 0, 0, 0, 0, 0, 0, 0]
  | some k =>
    let x := s.player k
    [pack
      [(playerStateCode x.state, 0), (match x.holder with | none => 3 | some p => p.val, 3), (x.queue.length, 5),
       (bit x.streamComplete, 11), (bit (x.mode == .loop), 12), (bit (x.finish == .release), 13)],
     pack [(x.level.val, 0)],
     BitVec.ofNat 16 (handleCode x.claim)] ++
    stepWords (x.current.map (·.step)) ++
    [pack [(match x.current with | none => 0 | some c => stepLeft c s.now, 0)]] ++
    stepWords x.queue.head?

/-! ### Stage window, 0x50 -/

/-- The interval that runs and its number: 0 none, 1 INIT, 2 softstart, 3 recovery, 4 standby delay (R175, R205). -/
def runningInterval (o : OutputStage) : Nat × Option Instant :=
  match o.initEnd, o.softEnd, o.recoveryEnd, o.standbyEnd with
  | some e, _, _, _ => (1, some e)
  | none, some e, _, _ => (2, some e)
  | none, none, some e, _ => (3, some e)
  | none, none, none, some e => (4, some e)
  | none, none, none, none => (0, none)

def clockByte (c : PatternClock) : Nat := c.halfPeriod.val + 128 * bit c.offHalf

/-- The stage window; bits 13..10 of its first register are the four supply conditions in the order R205 names them,
LAMP_SUPPLY_LOW in bit 13 (R150, R175, R205). -/
def stageRegisters (s : State) : List Word :=
  let o := s.output
  let i := runningInterval o
  [pack
    [(o.stage.code, 0), (o.lastCause.code, 3), (o.recovery, 7), (bit o.supply.overtempShutdown, 10),
     (bit o.supply.overtempWarn, 11), (bit o.supply.overcurrent, 12), (bit o.supply.lampSupplyLow, 13),
     (bit o.hold, 14), (bit o.demand, 15)],
   pack [(i.1, 0), (unitsOf 10 i.2 s.now, 3), (bit s.lampTest.isSome, 11)],
   pack [(unitsOf 100 o.activeEnd s.now, 0), (unitsOf 100 s.lampTest s.now, 7)],
   pack [(s.derateCeiling.val, 0)],
   pack [(clockByte (s.clock 0), 0), (clockByte (s.clock 1), 8)],
   pack [(clockByte (s.clock 2), 0), (clockByte (s.clock 3), 8)]]

/-! ### Lines window, 0x56 -/

def activityCode : Activity → Nat
  | .quiet => 0
  | .asserted => 1
  | .stretch => 2

def lineWords (s : State) (l : Line) : List Word :=
  let x := s.line l
  [pack
    [(match x.sense with | .level => 0 | .edge => 1, 0), (match x.polarity with | .first => 0 | .second => 1, 1),
     (bit x.anyEdge, 2), (x.filter.val, 4), (x.stretch.val, 8)],
   pack
    [(activityCode x.activity, 0), (bit x.raw, 2), (bit x.filtered, 3), (bit x.filterEnd.isSome, 4),
     (bit x.binding.isSome, 5), (unitsOf 10 x.stretchEnd s.now, 8)],
   BitVec.ofNat 16 (handleCode x.claim)]

/-- The lines window: three registers for each line (R125, R205). -/
def lineRegisters (s : State) : List Word := ((indexes 8).map (lineWords s)).flatten

/-! ### The window -/

/-- The observation windows at 0x20..0x6D, as the select registers of the port stand (R205). -/
def windowRegisters (s : State) (p : Port) : List Word :=
  let q := s.port p
  (match inRange q.selChannel.toNat 16 with
    | some ch => channelRegisters s ch
    | none => noChannelRegisters) ++
  slotRegisters s (selectedRecord s q.selSlot.toNat) ++
  listRegisters s q.selChannel.toNat q.selList.toNat ++
  sceneRegisters s q.selScene.toNat ++
  playerRegisters s q.selPlayer.toNat ++
  stageRegisters s ++
  lineRegisters s

/-- The registers at 0x00..0x1A (R200); MASK_SET, MASK_CLEAR and NOTICE_POP read 0 (R201). -/
def portRegisters (q : PortState) : List Word :=
  q.args.toList ++
  [BitVec.ofNat 16 q.status.code, BitVec.ofNat 16 (handleCode q.handle), q.extra, portStatus q, q.kindMask, 0, 0, 0,
   headWord q, headHandle q, headTag q, BitVec.ofNat 16 q.accepted.val, BitVec.ofNat 16 q.refused.val,
   q.selChannel, q.selSlot, q.selList, q.selScene, q.selPlayer, 0x1648]

/-- The register a port reads at an offset (R200, R201): 0 at a reserved offset or outside 0..127. -/
def readRegister (s : State) (p : Port) (offset : Byte) : Word :=
  let n := offset.toNat
  if n < 0x20 then (portRegisters (s.port p)).getD n 0
  else (windowRegisters s p).getD (n - 0x20) 0

end Sys2Proof.Machine
end

