-- ==== Sys2Proof/Machine/Frames.lean ====
section
/-! DEFINITION. What a frame does at a port: good writes, discarded writes and the clearing reads (R188 to R190,
R201). -/

namespace Sys2Proof.Machine

/-! ### Good writes (R190) -/

/-- The command registers, 0x20..0x40 (R203). -/
def commandAt (n : Nat) (p : Port) (s : State) : State :=
  match n with
  | 0x20 => claimTaken p s
  | 0x21 => modifyTaken p s
  | 0x22 => withdrawTaken p s
  | 0x23 => withdrawAllTaken p s
  | 0x24 => renewTaken p s
  | 0x25 => channelPolicyTaken p s
  | 0x26 => scenePutTaken p s
  | 0x27 => sceneDropTaken p s
  | 0x28 => sceneEraseTaken p s
  | 0x29 => sceneInvokeTaken p s
  | 0x2A => playerAcquireTaken p s
  | 0x2B => playerEndTaken p s
  | 0x2C => playerAbortTaken p s
  | 0x2D => playerReleaseTaken p s
  | 0x2E => playerPushTaken p s
  | 0x2F => playerStartTaken p s
  | 0x30 => lineConfigTaken p s
  | 0x31 => lineBindTaken p s
  | 0x32 => lineUnbindTaken p s
  | 0x33 => channelFadeTaken p s
  | 0x34 => clockConfigTaken p s
  | 0x35 => derateConfigTaken p s
  | 0x36 => lampTestTaken p s
  | 0x37 => latchClearTaken p s
  | 0x38 => channelEnableTaken p s
  | 0x39 => channelRearmModeTaken p s
  | 0x3A => faultRearmTaken p s
  | 0x3B => watchSetTaken p s
  | 0x3C => watchDropTaken p s
  | 0x3D => privSetTaken p s
  | 0x3E => maintHandoverTaken p s
  | 0x3F => portResetTaken p s
  | 0x40 => portClearTaken p s
  | _ => s

/-- A value stored in ARG0..ARG7 or a select register; every other offset is read-only or reserved and the write is
ignored (R190, R201). -/
def storeRegister (n : Nat) (v : Word) (q : PortState) : PortState :=
  match inRange n 8 with
  | some i => { q with args := tset q.args i v }
  | none =>
    match n with
    | 0x15 => { q with selChannel := v }
    | 0x16 => { q with selSlot := v }
    | 0x17 => { q with selList := v }
    | 0x18 => { q with selScene := v }
    | 0x19 => { q with selPlayer := v }
    | _ => q

/-- A good write frame acts according to the register it names (R190, R201). -/
def goodWrite (p : Port) (offset : Byte) (v : Word) (s : State) : State :=
  let n := offset.toNat
  if n < 0x20 then
    match n with
    | 0x0D => disableKinds p v s
    | 0x0E => enableKinds p v s
    | 0x0F => popNotice p s
    | _ => s.modPort p (storeRegister n v)
  else commandAt n p s

def execRegisterWrite (p : Port) (offset : Byte) (v : Word) (s : State) : Host.Outcome State Fault Refusal :=
  .next (goodWrite p offset v s)

def execMaskSet (p : Port) (v : Word) (s : State) : Host.Outcome State Fault Refusal := .next (disableKinds p v s)

def execMaskClear (p : Port) (v : Word) (s : State) : Host.Outcome State Fault Refusal := .next (enableKinds p v s)

def execNoticePop (p : Port) (s : State) : Host.Outcome State Fault Refusal := .next (popNotice p s)

/-! ### Write frames as received (R188, R189) -/

/-- Whether the port sees a frame: a two-wire frame addressed to another target is not seen (R188). -/
def isAddressed (s : State) (p : Port) (address : Nat) : Bool :=
  match p with
  | 0 => address == s.address0
  | 1 => address == s.address1
  | 2 => true

/-- A write frame as received at a port: discarded with the frame-error flag set, or of no effect, or good (R189). -/
def writeFrameTaken (p : Port) (address : Nat) (bytes : List Byte) (s : State) : State :=
  if isAddressed s p address then
    match readWriteFrame p bytes with
    | .discarded => s.modPort p fun q => { q with frameError := true }
    | .empty => s
    | .readDirection => s
    | .good offset v => goodWrite p offset v s
  else s

def execWriteFrameDiscarded (p : Port) (address : Nat) (bytes : List Byte) (s : State) :
    Host.Outcome State Fault Refusal := .next (writeFrameTaken p address bytes s)

/-! ### Reads (R188, R190, R201) -/

/-- What a read clears: PORT_STATUS its two flags, ACCEPTED and REFUSED their counters, every other register nothing
(R190). -/
def clearByRead (n : Nat) (q : PortState) : PortState :=
  match n with
  | 0x0B => { q with overflow := false, frameError := false }
  | 0x13 => { q with accepted := 0 }
  | 0x14 => { q with refused := 0 }
  | _ => q

/-- The answer of the arbiter to a read frame: the register as it stands, and the check byte over the offset byte as
received and the data (R188). -/
def answerOf (s : State) (p : Port) (offset : Byte) : ReadReply :=
  let data := readRegister s p offset
  { data := data, check := checkByte (readOffsetByte p offset) data }

/-- A read frame: the value as it stood, and the clearing in the same taking (R188, R190). -/
def readFrame (p : Port) (offset : Byte) (s : State) : State :=
  s.modPort p fun q => { clearByRead offset.toNat q with reply := some (answerOf s p offset) }

/-- The bytes a master clocks out of a read: data high, data low, check byte, and 0 beyond (R188). -/
def replyByte (r : ReadReply) (k : Nat) : Byte :=
  match k with
  | 0 => highByte r.data
  | 1 => lowByte r.data
  | 2 => r.check
  | _ => 0

def execPortStatusRead (p : Port) (s : State) : Host.Outcome State Fault Refusal := .next (readFrame p 0x0B s)

def execAcceptedRead (p : Port) (s : State) : Host.Outcome State Fault Refusal := .next (readFrame p 0x13 s)

def execRefusedRead (p : Port) (s : State) : Host.Outcome State Fault Refusal := .next (readFrame p 0x14 s)

end Sys2Proof.Machine
end

