-- ==== Sys2Proof/Machine/Due.lean ====
section
/-! DEFINITION. The timed events that are due at the instant: what the arbiter's own blocks bring about when their
intervals, timers, leases, fades, halves and steps come to their end (log 2, log 3). -/

namespace Sys2Proof.Machine

/-- An event where a test says it is due. -/
def whenDue (due : Bool) (i : Instr) : List Instr := if due then [i] else []

def stageEvents (s : State) : List Instr :=
  whenDue (dueAt s.output.initEnd s.now) .initIntervalEnd ++
  whenDue (dueAt s.output.softEnd s.now) .softstartIntervalEnd ++
  whenDue (dueAt s.output.recoveryEnd s.now) .recoveryIntervalEnd ++
  whenDue (dueAt s.output.standbyEnd s.now) .standbyDelayExpiry ++
  whenDue (dueAt s.output.activeEnd s.now) .activeDurationTimerEnd ++
  whenDue (dueAt s.lampTest s.now) .lampTestExpiry

/-- The taking in which a rising output starts a clean interval is due once the five things of R172 hold and no clean
interval runs. -/
def riseIsDue (s : State) (ch : Channel) : Bool := cleanHolds s ch && (s.out ch).cleanEnd.isNone

def channelEvents (s : State) (ch : Channel) : List Instr :=
  whenDue (dueAt (fadeEnd? (s.chan ch)) s.now) (.fadeCompletion ch) ++
  whenDue (dueAt (retryEnd? (s.out ch)) s.now) (.retryTimerEnd ch) ++
  whenDue (dueAt (s.out ch).cleanEnd s.now) (.cleanIntervalEnd ch) ++
  whenDue (riseIsDue s ch) (.outputLevelRisesAbove0 ch)

def lineEvents (s : State) (l : Line) : List Instr :=
  whenDue (dueAt (s.line l).filterEnd s.now) (.filterIntervalEnd l) ++
  whenDue (dueAt (s.line l).stretchEnd s.now) (.stretchEnd l)

def playerEvents (s : State) (n : PlayerNo) : List Instr :=
  whenDue (dueAt (rampEnd? (s.player n)) s.now) (.rampUpdate n) ++
  whenDue (dueAt (stepEnd? (s.player n)) s.now) (.stepCompletion n)

def clockEvents (s : State) (k : ClockNo) : List Instr :=
  whenDue (dueAt (s.clock k).ends s.now) (.clockHalfEnd k)

def leaseEvents (s : State) (slot : Slot) : List Instr :=
  whenDue (dueAt (leaseEnd? s slot) s.now) (.leaseExpiry slot)

/-- Every timed event that is due. -/
def dueEvents (s : State) : List Instr :=
  stageEvents s ++ (indexes 48).flatMap (leaseEvents s) ++ (indexes 2).flatMap (playerEvents s) ++
  (indexes 8).flatMap (lineEvents s) ++ (indexes 4).flatMap (clockEvents s) ++
  (indexes 16).flatMap (channelEvents s)

end Sys2Proof.Machine
end

