-- ==== Sys2Proof/Machine/Dispatch.lean ====
section
/-! DEFINITION. One arm for each command, each one call of its meaning. -/

namespace Sys2Proof.Machine

def exec (i : Instr) (s : State) : Host.Outcome State Fault Refusal :=
  match i with
  | .powerOnReset pins => Sys2Proof.Machine.execPowerOnReset pins s
  | .enableLow => Sys2Proof.Machine.execEnableLow s
  | .enableHigh => Sys2Proof.Machine.execEnableHigh s
  | .holdAsserted => Sys2Proof.Machine.execHoldAsserted s
  | .holdReleased => Sys2Proof.Machine.execHoldReleased s
  | .supplyOnset c => Sys2Proof.Machine.execSupplyOnset c s
  | .supplyClearing c => Sys2Proof.Machine.execSupplyClearing c s
  | .channelFaultEvent ch k => Sys2Proof.Machine.execChannelFaultEvent ch k s
  | .lineInputChange l => Sys2Proof.Machine.execLineInputChange l s
  | .filterIntervalEnd l => Sys2Proof.Machine.execFilterIntervalEnd l s
  | .stretchEnd l => Sys2Proof.Machine.execStretchEnd l s
  | .initIntervalEnd => Sys2Proof.Machine.execInitIntervalEnd s
  | .softstartIntervalEnd => Sys2Proof.Machine.execSoftstartIntervalEnd s
  | .standbyDelayExpiry => Sys2Proof.Machine.execStandbyDelayExpiry s
  | .activeDurationTimerEnd => Sys2Proof.Machine.execActiveDurationTimerEnd s
  | .recoveryIntervalEnd => Sys2Proof.Machine.execRecoveryIntervalEnd s
  | .retryTimerEnd ch => Sys2Proof.Machine.execRetryTimerEnd ch s
  | .cleanIntervalEnd ch => Sys2Proof.Machine.execCleanIntervalEnd ch s
  | .leaseExpiry slot => Sys2Proof.Machine.execLeaseExpiry slot s
  | .clockHalfEnd k => Sys2Proof.Machine.execClockHalfEnd k s
  | .fadeCompletion ch => Sys2Proof.Machine.execFadeCompletion ch s
  | .rampUpdate n => Sys2Proof.Machine.execRampUpdate n s
  | .stepCompletion n => Sys2Proof.Machine.execStepCompletion n s
  | .lampTestExpiry => Sys2Proof.Machine.execLampTestExpiry s
  | .writeFrameDiscarded p address bytes => Sys2Proof.Machine.execWriteFrameDiscarded p address bytes s
  | .registerWrite p offset value => Sys2Proof.Machine.execRegisterWrite p offset value s
  | .portStatusRead p => Sys2Proof.Machine.execPortStatusRead p s
  | .acceptedRead p => Sys2Proof.Machine.execAcceptedRead p s
  | .refusedRead p => Sys2Proof.Machine.execRefusedRead p s
  | .maskSet p value => Sys2Proof.Machine.execMaskSet p value s
  | .maskClear p value => Sys2Proof.Machine.execMaskClear p value s
  | .noticePop p => Sys2Proof.Machine.execNoticePop p s
  | .claim p => Sys2Proof.Machine.execClaim p s
  | .modify p => Sys2Proof.Machine.execModify p s
  | .withdraw p => Sys2Proof.Machine.execWithdraw p s
  | .withdrawAll p => Sys2Proof.Machine.execWithdrawAll p s
  | .renew p => Sys2Proof.Machine.execRenew p s
  | .channelPolicy p => Sys2Proof.Machine.execChannelPolicy p s
  | .scenePut p => Sys2Proof.Machine.execScenePut p s
  | .sceneDrop p => Sys2Proof.Machine.execSceneDrop p s
  | .sceneErase p => Sys2Proof.Machine.execSceneErase p s
  | .sceneInvoke p => Sys2Proof.Machine.execSceneInvoke p s
  | .playerAcquire p => Sys2Proof.Machine.execPlayerAcquire p s
  | .playerPush p => Sys2Proof.Machine.execPlayerPush p s
  | .playerEnd p => Sys2Proof.Machine.execPlayerEnd p s
  | .playerStart p => Sys2Proof.Machine.execPlayerStart p s
  | .playerAbort p => Sys2Proof.Machine.execPlayerAbort p s
  | .playerRelease p => Sys2Proof.Machine.execPlayerRelease p s
  | .lineConfig p => Sys2Proof.Machine.execLineConfig p s
  | .lineBind p => Sys2Proof.Machine.execLineBind p s
  | .lineUnbind p => Sys2Proof.Machine.execLineUnbind p s
  | .channelFade p => Sys2Proof.Machine.execChannelFade p s
  | .clockConfig p => Sys2Proof.Machine.execClockConfig p s
  | .derateConfig p => Sys2Proof.Machine.execDerateConfig p s
  | .lampTest p => Sys2Proof.Machine.execLampTest p s
  | .latchClear p => Sys2Proof.Machine.execLatchClear p s
  | .channelEnable p => Sys2Proof.Machine.execChannelEnable p s
  | .channelRearmMode p => Sys2Proof.Machine.execChannelRearmMode p s
  | .faultRearm p => Sys2Proof.Machine.execFaultRearm p s
  | .watchSet p => Sys2Proof.Machine.execWatchSet p s
  | .watchDrop p => Sys2Proof.Machine.execWatchDrop p s
  | .privSet p => Sys2Proof.Machine.execPrivSet p s
  | .maintHandover p => Sys2Proof.Machine.execMaintHandover p s
  | .portReset p => Sys2Proof.Machine.execPortReset p s
  | .portClear p => Sys2Proof.Machine.execPortClear p s
  | .outputLevelRisesAbove0 ch => Sys2Proof.Machine.execOutputLevelRisesAbove0 ch s

end Sys2Proof.Machine
end

