-- ==== Sys2Proof/Machine/Step.lean ====
section
/-! DEFINITION. One step: the command at the front of the queue, or, on an empty queue, the passing of time. -/

namespace Sys2Proof.Machine

/-- What a step does on an empty queue: it takes a timed event that is due, the choice among several being a free value
(`Config.dueChoice`), and lets one millisecond pass where none is due (log 2, log 3). DESIGN CHOICE. -/
def tick (s : State) : Host.Outcome State Fault Refusal :=
  match dueEvents s with
  | [] => .next { s with now := s.now + 1 }
  | [e] => exec e s
  | e :: f :: es =>
    exec ((e :: f :: es).getD (Config.dueChoice s.draws % (e :: f :: es).length) e) { s with draws := s.draws + 1 }

/-- One step: the command at the front of the queue is taken, on the state with the rest of the queue. -/
def step (s : State) : Host.Outcome State Fault Refusal :=
  match s.pending with
  | c :: rest => exec c { s with pending := rest }
  | [] => tick s

/-- The state with the command a word spells at the front of its queue; no word spells one (log 21, log 22). -/
def State.withFetchWord (s : State) (nbits w : Nat) : State :=
  match decodeTableWord nbits w with
  | some c => { s with pending := c :: s.pending }
  | none => s

end Sys2Proof.Machine
end

