-- ==== Sys2Proof/Safety.lean ====
section
/-! DEFINITION. What counts as a safe run, the invariants of the arbiter, and the vocabulary the statements share: what a
carried-out or a refused command leaves in the registers of its port, and what resolution and the stage's following
moves keep. -/

namespace Sys2Proof.Machine

/-! ### Safety -/

/-- No channel is lit in a stage that keeps the lamps off, and none that is disabled or FAULTED is lit (R141, R152). -/
def DarkWhenClosed (s : State) : Prop := ∀ ch : Channel, isOpen s ch = false → outputLevel s ch = 0

/-- While OVERTEMP_WARN is present no output level exceeds the derate ceiling (R141). -/
def Derated (s : State) : Prop :=
  s.output.supply.overtempWarn = true → ∀ ch : Channel, outputLevel s ch ≤ s.derateCeiling

/-- While the lamps are up or being brought up, no forcing condition is present (R162). -/
def NoForcingWhileUp (s : State) : Prop := lampsUp s.output.stage = true → s.output.supply.forcing = false

/-- A safe state. -/
def Safe (s : State) : Prop := DarkWhenClosed s ∧ Derated s ∧ NoForcingWhileUp s

/-- A run of k steps from a state that never stops and stays safe. -/
def SafeFor : Nat → State → Prop
  | 0, s => Safe s
  | k + 1, s => Safe s ∧ ∃ s', step s = .next s' ∧ SafeFor k s'

/-! ### Invariants -/

/-- Each interval and timer of the output stage runs only in the stage it belongs to (R151). -/
structure TimersBelong (o : OutputStage) : Prop where
  initEnd : o.initEnd ≠ none → o.stage = .init
  softEnd : o.softEnd ≠ none → o.stage = .softstart
  recoveryEnd : o.recoveryEnd ≠ none → o.stage = .recovery
  standbyEnd : o.standbyEnd ≠ none → o.stage = .active
  activeEnd : o.activeEnd ≠ none → o.stage = .active

/-- The invariant of the output stage: its timers belong to their stages, no forcing condition is present while the
lamps are up or coming up, and the recovery count is at most 4, and 4 in LATCHED only (R151, R162, R163). -/
structure StageInv (s : State) : Prop where
  timers : TimersBelong s.output
  forcing : NoForcingWhileUp s
  recovery : s.output.recovery ≤ recoveryLimit
  notLatched : s.output.stage ≠ .latched → s.output.recovery < recoveryLimit

/-- The modulator holds the resolver's present target and pattern, and a channel is PARKED exactly while it is closed
(R126, R150). -/
structure ModulatorInv (s : State) : Prop where
  target : ∀ ch, (s.chan ch).target = (s.entry ch).target
  pattern : ∀ ch, (s.chan ch).pattern = (s.entry ch).pattern
  parked : ∀ ch, (s.chan ch).fade = .parked ↔ isOpen s ch = false

/-- No notice queue holds more than 16 notices (R182). -/
def QueuesBounded (s : State) : Prop := ∀ p, (s.port p).queue.length ≤ queueLimit

/-- No retry count is above 3 (R167). -/
def RetriesBounded (s : State) : Prop := ∀ ch, (s.out ch).retry ≤ 3

/-- A clean interval runs on a channel only while the channel is READY and enabled, the stage is ACTIVE and the retry count
is above 0 (R172). -/
def CleanInv (s : State) : Prop :=
  ∀ ch, (s.out ch).cleanEnd ≠ none →
    (s.out ch).fault = .ready ∧ (s.out ch).enabled = true ∧ s.output.stage = .active ∧ 0 < (s.out ch).retry

/-- How many non-free records pass a test. -/
def recordsWhere (s : State) (f : Claim → Bool) : Nat := (slotsWhere s f).length

/-- Whether a claim draws its levels from a scene. -/
def drawsFrom (n : SceneNo) (c : Claim) : Bool := c.source == .scene n

/-- The held-claim count of each port is the number of non-free records it owns, and stays within its quota; the in-use
count of each scene is the number of non-free records whose level source it is (R6, R69). -/
structure CountsInv (s : State) : Prop where
  held : ∀ p, (s.right p).held = recordsWhere s (ownedBy p)
  quota : ∀ p, (s.right p).held ≤ (s.right p).quota.val
  inUse : ∀ n, (s.scene n).inUse = recordsWhere s (drawsFrom n)

/-- Every claim owned by a port has a priority no higher than that port's ceiling (R194). -/
def CeilingsHold (s : State) : Prop :=
  ∀ slot c p, (s.record slot).claim = some c → c.owner = .port p → c.priority ≤ (s.right p).ceiling

/-- The list of a channel holds exactly the live claims that cover the channel, each once, by falling priority, and at most
8 of them (R28, R29). -/
structure ListInv (s : State) (ch : Channel) : Prop where
  members : ∀ h, h ∈ (s.entry ch).list ↔ ∃ c, claimAt s h = some c ∧ inSet c.channels ch = true
  nodup : (s.entry ch).list.Nodup
  sorted : (s.entry ch).list.Pairwise fun a b => priorityOf s b ≤ priorityOf s a
  depth : (s.entry ch).list.length ≤ listLimit

/-- Every claim list is as R28 and R29 say. -/
def ListsInv (s : State) : Prop := ∀ ch, ListInv s ch

/-! ### Results -/

/-- The registers of a port after a command that was carried out: OK, the handle and the extra word, and the accepted
counter one step on (R191, R192). -/
structure Accepted (p : Port) (h : Option Handle) (x : Nat) (s t : State) : Prop where
  status : (t.port p).status = .ok
  handle : (t.port p).handle = h
  extra : (t.port p).extra = BitVec.ofNat 16 x
  accepted : (t.port p).accepted = stepAccepted (s.port p).accepted
  refused : (t.port p).refused = (s.port p).refused

/-- The state after a refused command: the result registers of its port and its refused counter, and nothing else
(R191, R192). -/
def refusedState (p : Port) (code : ResultCode) (extra : Nat) (s : State) : State :=
  s.modPort p fun q =>
    { q with status := code, handle := none, extra := BitVec.ofNat 16 extra, refused := stepRefused q.refused }

/-- The state after a carried-out command that touches its port alone. -/
def acceptedState (p : Port) (h : Option Handle) (extra : Nat) (s : State) : State :=
  s.modPort p fun q =>
    { q with status := .ok, handle := h, extra := BitVec.ofNat 16 extra, accepted := stepAccepted q.accepted }

/-! ### Frames -/

/-- The registers of a port that no command result, notice or counter touches (R190). -/
structure RegistersKept (q r : PortState) : Prop where
  args : r.args = q.args
  selChannel : r.selChannel = q.selChannel
  selSlot : r.selSlot = q.selSlot
  selList : r.selList = q.selList
  selScene : r.selScene = q.selScene
  selPlayer : r.selPlayer = q.selPlayer
  frameError : r.frameError = q.frameError
  kindMask : r.kindMask = q.kindMask
  reply : r.reply = q.reply

/-- The result registers and counters of a port (R191, R192). -/
structure ResultsKept (q r : PortState) : Prop where
  status : r.status = q.status
  handle : r.handle = q.handle
  extra : r.extra = q.extra
  accepted : r.accepted = q.accepted
  refused : r.refused = q.refused

/-- A watch entry stays, or is a one-shot entry that has fired (R179). -/
def WatchKept (a b : Option Watch) : Prop := b = a ∨ (∃ e, a = some e ∧ e.oneShot = true) ∧ b = none

/-- The stage stays, or moves from STANDBY to SOFTSTART as demand arises (R157). -/
def StageKept (a b : StageName) : Prop := b = a ∨ (a = .standby ∧ b = .softstart)

/-- What a taking that redoes resolution, and the stage's move that may follow, leave as it was: time, straps, rights,
registers, clocks, settings, fault states, board lines and the recovery count. Queues only grow, and only one-shot
watches are spent. -/
structure Kept (s t : State) : Prop where
  now : t.now = s.now
  draws : t.draws = s.draws
  pending : t.pending = s.pending
  lts : t.lts = s.lts
  address0 : t.address0 = s.address0
  address1 : t.address1 = s.address1
  clocks : t.clocks = s.clocks
  derateCeiling : t.derateCeiling = s.derateCeiling
  lampTest : t.lampTest = s.lampTest
  maintenance : t.access.maintenance = s.access.maintenance
  ceiling : ∀ p, (t.right p).ceiling = (s.right p).ceiling
  sceneEdit : ∀ p, (t.right p).sceneEdit = (s.right p).sceneEdit
  quota : ∀ p, (t.right p).quota = (s.right p).quota
  registers : ∀ p, RegistersKept (s.port p) (t.port p)
  notices : ∀ p, (s.port p).queue <+: (t.port p).queue
  watches : ∀ w, WatchKept (s.watch w) (t.watch w)
  policy : ∀ ch, (t.entry ch).policy = (s.entry ch).policy
  idle : ∀ ch, (t.entry ch).idle = (s.entry ch).idle
  defaultIndex : ∀ ch, (t.chan ch).defaultIndex = (s.chan ch).defaultIndex
  defaultShape : ∀ ch, (t.chan ch).defaultShape = (s.chan ch).defaultShape
  enabled : ∀ ch, (t.out ch).enabled = (s.out ch).enabled
  manual : ∀ ch, (t.out ch).manual = (s.out ch).manual
  fault : ∀ ch, (t.out ch).fault = (s.out ch).fault
  retry : ∀ ch, (t.out ch).retry = (s.out ch).retry
  supply : t.output.supply = s.output.supply
  hold : t.output.hold = s.output.hold
  recovery : t.output.recovery = s.output.recovery
  stage : StageKept s.output.stage t.output.stage

/-! ### What a placement and a freeing leave -/

/-- The handles of the ACTIVE entries of a channel's list, in the order of the list, the DORMANT ones skipped (R33,
R38). -/
def activeHandles (s : State) (ch : Channel) : List Handle :=
  (s.entry ch).list.filter fun h => (claimAt s h).any fun c => c.active

/-- Some entries are the ACTIVE ones of a channel's list, in the order of the list, each with its record (R33, R38). -/
def AreActive (s : State) (ch : Channel) (l : List (Handle × Claim)) : Prop :=
  l.map Prod.fst = activeHandles s ch ∧ ∀ e ∈ l, claimAt s e.1 = some e.2

/-- The resolver stores for a channel what its list, policy and idle level choose (R38 to R42). -/
structure Resolved (s : State) (ch : Channel) : Prop where
  winner : (s.entry ch).winner = handleOfWinner (chooseWinner s ch)
  target : (s.entry ch).target = targetLevelOf s ch (chooseWinner s ch)
  pattern : (s.entry ch).pattern = targetPatternOf (chooseWinner s ch)

/-- What the modulator holds for a channel after a taking, but for the start from STANDBY, where a closed channel is
PARKED (R126). -/
def ChanIs (m : ModChannel) (s t : State) (ch : Channel) : Prop :=
  t.chan ch = m ∨ (s.output.stage = .standby ∧ t.output.stage = .softstart ∧ t.chan ch = { m with fade := .parked })

/-- What the modulator is handed for a channel whose resolution a taking has redone (R44 to R47): at a winner change the
target with the new winner's fade index, or with the default index where there is none; under the same winner, or none, a
changed target with the winner's index, with fade time 0 under a PLAYER winner, with the default index where there is
none; else the pattern alone. `faded` names the claim whose fade a MODIFY has chosen, which hands its new fade time. -/
def handedTo (faded : Option Handle) (s t : State) (ch : Channel) : ModChannel :=
  let old := s.entry ch
  let new := t.entry ch
  let byIndex : FadeIndex → ModChannel := fun i =>
    redirect new.target new.pattern (fadeTime i) s.now (s.chan ch)
  let patternAlone : ModChannel := { s.chan ch with pattern := new.pattern }
  match chooseWinner t ch with
  | none =>
    if new.winner ≠ old.winner ∨ new.target ≠ old.target then byIndex (s.chan ch).defaultIndex else patternAlone
  | some (h, c) =>
    if new.winner ≠ old.winner ∨ faded = some h then byIndex c.fade
    else if new.target ≠ old.target then
      match c.source with
      | .fixed _ => byIndex c.fade
      | .scene _ => byIndex c.fade
      | .player _ => byIndex 0
    else patternAlone

/-- Resolution redone on each channel of a set, with its hand-off to the modulator, and on no other (R37, R44 to R47). -/
structure RedoneBy (faded : Option Handle) (cs : ChannelSet) (s t : State) : Prop where
  resolved : ∀ ch, inSet cs ch = true → Resolved t ch
  handed : ∀ ch, inSet cs ch = true → ChanIs (handedTo faded s t ch) s t ch
  winner : ∀ ch, inSet cs ch = false → (t.entry ch).winner = (s.entry ch).winner
  target : ∀ ch, inSet cs ch = false → (t.entry ch).target = (s.entry ch).target
  pattern : ∀ ch, inSet cs ch = false → (t.entry ch).pattern = (s.entry ch).pattern
  modulator : ∀ ch, inSet cs ch = false → ChanIs (s.chan ch) s t ch

/-- Resolution redone in a taking that is no MODIFY of a fade. -/
abbrev Redone (cs : ChannelSet) (s t : State) : Prop := RedoneBy none cs s t

/-- The result registers of every port but one stay. -/
def OtherResultsKept (p : Port) (s t : State) : Prop := ∀ q, q ≠ p → ResultsKept (s.port q) (t.port q)

/-- A claim entered in a FREE slot: its record, its place in the lists of its channels, and the counts (R3, R11, R30,
R69). -/
structure Entered (slot : Slot) (c : Claim) (s t : State) : Prop where
  record : t.record slot = { gen := (s.record slot).gen, claim := some c }
  others : ∀ x, x ≠ slot → t.record x = s.record x
  listed : ∀ ch, inSet c.channels ch = true →
    (t.entry ch).list = insertClass (priorityOf t) c.priority (handleAt s slot) (s.entry ch).list
  unlisted : ∀ ch, inSet c.channels ch = false → (t.entry ch).list = (s.entry ch).list
  held : ∀ q, (t.right q).held = (s.right q).held + if c.owner = .port q then 1 else 0
  inUse : ∀ n, (t.scene n).inUse = (s.scene n).inUse + if c.source = .scene n then 1 else 0
  levels : ∀ n, (t.scene n).levels = (s.scene n).levels
  kept : Kept s t

/-- A placement: the claim entered, and resolution redone on its channels (R11). -/
structure Placed (slot : Slot) (c : Claim) (s t : State) : Prop extends Entered slot c s t where
  redone : Redone c.channels s t

/-- A record after its freeing; a FREE one keeps its generation (R4, R20). -/
def freed (r : ClaimRecord) : ClaimRecord :=
  match r.claim with
  | some _ => { gen := r.gen + 1, claim := none }
  | none => r

/-- Whether the claim of a slot passes a test. -/
def slotPasses (s : State) (f : Claim → Bool) (slot : Slot) : Bool :=
  match (s.record slot).claim with
  | some c => f c
  | none => false

/-- The records of some slots freed: the records, their entries, the counts, and resolution on the channels they
covered (R20, R21, R22, R32). -/
structure Freed (slots : List Slot) (s t : State) : Prop where
  record : ∀ x, t.record x = if x ∈ slots then freed (s.record x) else s.record x
  lists : ∀ ch, (t.entry ch).list = (s.entry ch).list.filter fun h => decide (h.slot ∉ slots)
  held : ∀ q, (t.right q).held = (s.right q).held - (slots.filter (slotPasses s (ownedBy q))).length
  inUse : ∀ n, (t.scene n).inUse = (s.scene n).inUse - (slots.filter (slotPasses s (drawsFrom n))).length
  levels : ∀ n, (t.scene n).levels = (s.scene n).levels
  redone : Redone (coveredBy s slots) s t
  kept : Kept s t

/-- Whether one of some slots holds a claim of a player. -/
def freesPlayer (s : State) (slots : List Slot) (n : PlayerNo) : Bool :=
  slots.any (slotPasses s fun c => c.source == .player n)

/-- The players after a freeing whose cause empties their step queues (R23, R106). -/
def PlayersEmptied (slots : List Slot) (s t : State) : Prop :=
  ∀ n, t.player n = if freesPlayer s slots n then toLoading true (s.player n) else s.player n

/-! ### What a stage change leaves -/

/-- What a taking of the output stage can reach: the stage, the channels, the lamp test, queues and one-shot watches. The
settings of the channels stay, and each channel opens, closes or goes on as the stage, its enable and its fault state now
say (R131, R152). -/
structure LampSide (s t : State) : Prop where
  frame : t = { s with
    output := t.output, outs := t.outs, modulator := t.modulator, ports := t.ports, lampTest := t.lampTest,
    watches := t.watches }
  channels : ∀ ch, t.chan ch = openOrClose (isOpen t ch) s.now (s.chan ch)
  enabled : ∀ ch, (t.out ch).enabled = (s.out ch).enabled
  manual : ∀ ch, (t.out ch).manual = (s.out ch).manual
  registers : ∀ p, RegistersKept (s.port p) (t.port p)
  results : ∀ p, ResultsKept (s.port p) (t.port p)
  notices : ∀ p, (s.port p).queue <+: (t.port p).queue
  watches : ∀ w, WatchKept (s.watch w) (t.watch w)

/-- No channel changes its fault state or its retry count. -/
def FaultsKept (s t : State) : Prop :=
  ∀ ch, (t.out ch).fault = (s.out ch).fault ∧ (t.out ch).retry = (s.out ch).retry

/-- A running retry timer paused with its remaining time (R171). -/
def pausedFault (now : Instant) (f : FaultState) : FaultState :=
  match f with
  | .faulted k (.pending (.running e)) => .faulted k (.pending (.paused (e - now)))
  | f => f

/-- The output stage with no interval and no timer. -/
def OutputStage.idle (o : OutputStage) : OutputStage :=
  { o with initEnd := none, softEnd := none, recoveryEnd := none, standbyEnd := none, activeEnd := none }

/-- STANDBY entered with a cause, and left at once for SOFTSTART with cause DEMAND where demand is present, HOLD is
released and no forcing condition is present (R157). -/
def StandbyEntered (cause : Cause) (o : OutputStage) (t : State) : Prop :=
  let ready := demandNow t && !o.hold && !o.supply.forcing
  t.output =
    { o.idle with
      stage := if ready then .softstart else .standby,
      lastCause := if ready then .demand else cause,
      softEnd := if ready then some (t.now + 20) else none,
      demand := demandNow t }

/-- The standby delay after a taking that leaves the stage in ACTIVE (R159). -/
def delayAfter (now : Instant) (before : Option Instant) (demand : Bool) : Option Instant :=
  if demand then none else some (before.getD (now + 500))

/-- The output stage after a taking that leaves the stage where it is: demand as it now is, and in ACTIVE the standby delay
by it; every other field as it was (R156, R159). -/
def withDemand (now : Instant) (demand : Bool) (o : OutputStage) : OutputStage :=
  { o with
    demand := demand,
    standbyEnd := if o.stage = .active then delayAfter now o.standbyEnd demand else o.standbyEnd }

/-- What the output stage makes of a taking that may change demand: demand as it now is; from STANDBY the move to SOFTSTART
with cause DEMAND, where demand is present, HOLD is released and no forcing condition is present; in ACTIVE the standby
delay, cancelled by a demand start and started by a demand end; and nothing else (R156, R157, R159). -/
def StageFollows (s t : State) : Prop :=
  t.output =
    if s.output.stage = .standby ∧ demandNow t = true ∧ s.output.hold = false ∧ s.output.supply.forcing = false then
      { s.output.idle with
        stage := .softstart, lastCause := .demand, softEnd := some (s.now + 20), demand := true }
    else withDemand s.now (demandNow t) s.output

/-- The notices that a port holds after one more has been offered to it, and perhaps others after that one. -/
def Offered (n : Notice) (s t : State) : Prop := ∀ p, (offerTo n (s.port p)).queue <+: (t.port p).queue

/-! ### The notices of a taking (R179, R182, R186) -/

/-- Notices offered to a port one after another. -/
def offerEach (ns : List Notice) (q : PortState) : PortState := ns.foldl (fun r n => offerTo n r) q

/-- The queue and the overflow flag of a port after some notices, and no other, have been offered to it in this order. -/
structure Queued (ns : List Notice) (q r : PortState) : Prop where
  queue : r.queue = (offerEach ns q).queue
  overflow : r.overflow = (offerEach ns q).overflow

/-- The entries of a port in the watch table, of one kind (R176). -/
def watchesOf (s : State) (p : Port) (k : WatchKind) : List Watch :=
  s.watches.toList.filterMap fun w =>
    match w with
    | none => none
    | some e => if e.owner = p ∧ e.kind = k then some e else none

/-- Whether an entry covers a subject (R179). -/
def covers (i : Nat) (e : Watch) : Bool := decide (e.lo.val ≤ i) && decide (i ≤ e.hi.val)

/-- The subjects, of events in the order they are handed, that reach the holder of some entries: an event reaches it where
an entry covers its subject, and each such one-shot entry is then gone (R179). -/
def reached {m : Nat} : List Watch → List (Fin m) → List (Fin m)
  | _, [] => []
  | ws, i :: is =>
    let left := ws.filter fun e => !(e.oneShot && covers i.val e)
    if ws.any (covers i.val) then i :: reached left is else reached left is

/-- The subjects of events of one kind, in the order they are handed, that reach a port (R179). -/
def told {m : Nat} (s : State) (p : Port) (k : WatchKind) (l : List (Fin m)) : List (Fin m) :=
  reached (watchesOf s p k) l

/-- The winner of a channel as a WINNER notice shows it (R48). -/
def shownWinner (t : State) (ch : Channel) : Option WinnerInfo :=
  match (t.entry ch).winner with
  | none => none
  | some h =>
    match claimAt t h with
    | none => none
    | some c => some { handle := h, owner := c.owner, priority := c.priority, tag := c.tag }

/-- The channels of a set whose winner a taking changes, ascending (R43). -/
def changedWinners (cs : ChannelSet) (s t : State) : List Channel :=
  (members cs).filter fun ch => decide ((t.entry ch).winner ≠ (s.entry ch).winner)

/-- The WINNER notices of a taking to a port: one for each winner change on a channel of a set that reaches it, in
ascending channel order (R43, R48, R179). -/
def winnersTold (p : Port) (cs : ChannelSet) (s t : State) : List Notice :=
  (told s p .winner (changedWinners cs s t)).map fun ch => .winner ch (shownWinner t ch)

/-- A watch entry after some events of a kind: a one-shot entry of that kind that covers one of their subjects is freed,
and every other one stays (R179). -/
def spentBy {m : Nat} (k : WatchKind) (l : List (Fin m)) (w : Option Watch) : Option Watch :=
  w.filter fun e => !(decide (e.kind = k) && e.oneShot && l.any fun i => covers i.val e)

/-- The watch table after a taking that hands the WINNER events of a set of channels and no other event (R48, R179). -/
def WinnersSpend (cs : ChannelSet) (s t : State) : Prop :=
  ∀ w, t.watch w = spentBy .winner (changedWinners cs s t) (s.watch w)

/-- The FAULT READY notices of a taking to a port, for the FAULTED channels of a list (R174, R179). -/
def readyTold (p : Port) (l : List Channel) (s : State) : List Notice :=
  (told s p .fault (l.filter fun ch => isFaulted (s.out ch))).map fun ch => .fault ch .ready

/-- The STAGE notice of a taking that changes the stage once (R153). -/
def stageTold (s t : State) : List Notice :=
  if t.output.stage = s.output.stage then [] else [.stage t.output.stage t.output.lastCause]

/-- What a taking queues at a port: the notices given, then the WINNER notices of a set of channels, then the STAGE notice
of the stage's move, and nothing else (R21, R48, R186). -/
def Announced (p : Port) (ns : List Notice) (cs : ChannelSet) (s t : State) : Prop :=
  Queued (ns ++ winnersTold p cs s t ++ stageTold s t) (s.port p) (t.port p)

/-- The LINE notice of an activity event, where it reaches a port (R115, R179). -/
def lineTold (p : Port) (l : Line) (d : LineDetail) (s : State) : List Notice :=
  (told s p .line [l]).map fun i => .line i d

/-- The notices of a freeing to a port, one record after another: its CLAIM_REMOVED with a reason, and the PLAYER notice
of a player that the port holds (R20, R21, R23). -/
def removalsTold (p : Port) (r : RemovalReason) (d : PlayerDetail) (slots : List Slot) (s : State) : List Notice :=
  slots.flatMap fun slot =>
    match (s.record slot).claim with
    | none => []
    | some c =>
      (if c.owner = .port p then [.claimRemoved (lowest c.channels) (handleAt s slot) p c.tag r] else []) ++
        match c.source with
        | .fixed _ => []
        | .scene _ => []
        | .player n =>
          if (s.player n).holder = some p then [.player n (handleAt s slot) p c.tag d] else []

/-! ### Runs of zero-time steps (R91, R93) -/

/-- Every step of a list has ramp 0 and hold 0 (R91). -/
def AllZeroTime (l : List PlayerStep) : Prop := ∀ z ∈ l, z.ramp = 0 ∧ z.hold = 0

/-- The level after the steps of a list have each taken the player to their own (R91). -/
def levelAfter (l : List PlayerStep) (v : Level) : Level := l.foldl (fun _ z => z.level) v

/-- Whether the beginnings of a taking lower the queue count from 9 to 8, where they take it from one count to another
(R93). -/
def fallsToEight (before rest : Nat) : Bool := decide (9 ≤ before) && decide (rest ≤ 8)

/-! ### What the register window shows (R200 to R205)

In each predicate `read` is the register at an offset as the port reads it now. -/

/-- The registers of the port's own (R185, R200, R201). -/
def PortRegistersShown (p : Port) (s : State) : Prop :=
  let read : Nat → Word := fun offset => readRegister s p (BitVec.ofNat 8 offset)
  let q := s.port p
  (∀ i : Fin 8, read i.val = arg s p i) ∧
  read 0x08 = BitVec.ofNat 16 q.status.code ∧ read 0x09 = BitVec.ofNat 16 (handleCode q.handle) ∧ read 0x0A = q.extra ∧
  (q.queue.length ≤ 16 → field (read 0x0B) 0 5 = q.queue.length ∧ (read 0x0B).getLsbD 8 = q.overflow ∧
    (read 0x0B).getLsbD 9 = q.frameError ∧ field (read 0x0B) 5 3 = 0 ∧ field (read 0x0B) 10 6 = 0) ∧
  read 0x0C = q.kindMask ∧ read 0x0D = 0 ∧ read 0x0E = 0 ∧ read 0x0F = 0 ∧
  read 0x13 = BitVec.ofNat 16 q.accepted.val ∧ read 0x14 = BitVec.ofNat 16 q.refused.val ∧
  read 0x15 = q.selChannel ∧ read 0x16 = q.selSlot ∧ read 0x17 = q.selList ∧ read 0x18 = q.selScene ∧
  read 0x19 = q.selPlayer ∧ read 0x1A = 0x1648

/-- The notice head: the oldest notice, or kind NONE with every field as one that does not apply (R181, R184, R202). -/
def HeadShown (p : Port) (s : State) : Prop :=
  let read : Nat → Word := fun offset => readRegister s p (BitVec.ofNat 8 offset)
  let shows : Nat → Nat → Nat → Nat → Word → Word → Prop := fun kind subject owner detail handle tag =>
    field (read 0x10) 0 3 = kind ∧ field (read 0x10) 3 4 = subject ∧ field (read 0x10) 7 4 = owner ∧
    field (read 0x10) 11 4 = detail ∧ (read 0x10).getLsbD 15 = false ∧ read 0x11 = handle ∧ read 0x12 = tag
  let code : Handle → Word := fun h => BitVec.ofNat 16 h.code
  match (s.port p).queue with
  | [] => shows 0 0 15 15 0xFFFF 0
  | .claimRemoved ch h q tag .lease :: _ => shows 1 ch.val q.val 0 (code h) tag
  | .claimRemoved ch h q tag .ceiling :: _ => shows 1 ch.val q.val 1 (code h) tag
  | .claimRemoved ch h q tag .finished :: _ => shows 1 ch.val q.val 2 (code h) tag
  | .winner ch none :: _ => shows 2 ch.val 15 15 0xFFFF 0
  | .winner ch (some i) :: _ => shows 2 ch.val i.owner.code i.priority.val (code i.handle) i.tag
  | .fault ch (.kind .openString) :: _ => shows 3 ch.val 15 0 0xFFFF 0
  | .fault ch (.kind .short) :: _ => shows 3 ch.val 15 1 0xFFFF 0
  | .fault ch (.kind .ground) :: _ => shows 3 ch.val 15 2 0xFFFF 0
  | .fault ch .ready :: _ => shows 3 ch.val 15 3 0xFFFF 0
  | .line l .start :: _ => shows 4 l.val 15 0 0xFFFF 0
  | .line l .stop :: _ => shows 4 l.val 15 1 0xFFFF 0
  | .player n h q tag .lowWater :: _ => shows 5 n.val q.val 0 (code h) tag
  | .player n h q tag .starved :: _ => shows 5 n.val q.val 1 (code h) tag
  | .player n h q tag .finished :: _ => shows 5 n.val q.val 2 (code h) tag
  | .player n h q tag .aborted :: _ => shows 5 n.val q.val 3 (code h) tag
  | .stage st cause :: _ => shows 6 st.code 15 cause.code 0xFFFF 0
  | .access q .ceilingChanged :: _ => shows 7 q.val 15 0 0xFFFF 0
  | .access q .maintGained :: _ => shows 7 q.val 15 1 0xFFFF 0
  | .access q .maintLost :: _ => shows 7 q.val 15 2 0xFFFF 0
  | .access q .cleared :: _ => shows 7 q.val 15 3 0xFFFF 0

/-- The channel window of the channel selected; a select value outside 0..15 reads no winner and every other field as 0
(R53, R150, R175, R205). -/
def ChannelWindowShown (p : Port) (s : State) : Prop :=
  let read : Nat → Word := fun offset => readRegister s p (BitVec.ofNat 8 offset)
  let w := read 0x20
  (∀ ch : Channel, (s.port p).selChannel.toNat = ch.val →
    let e := s.entry ch
    let m := s.chan ch
    let o := s.out ch
    let fadeEnds : Option Instant :=
      match m.fade with
      | .parked => none
      | .settled => none
      | .fading _ d start _ => some (start + d)
    let retryLeft : Nat :=
      match o.fault with
      | .ready => 0
      | .faulted _ .held => 0
      | .faulted _ (.pending (.running ends)) => unitsOf 10 (some ends) s.now
      | .faulted _ (.pending (.paused left)) => unitsOf 10 (some left) 0
    (w.getLsbD 0 = true ↔ e.policy = .maximum) ∧
    field w 1 2 = (match m.fade with | .parked => 0 | .settled => 1 | .fading .. => 2) ∧
    (w.getLsbD 3 = true ↔ ∃ origin d start, m.fade = .fading origin d start .smooth) ∧
    field w 4 3 = m.defaultIndex.val ∧ (w.getLsbD 7 = true ↔ m.defaultShape = .smooth) ∧ w.getLsbD 8 = gateLit s ch ∧
    w.getLsbD 9 = o.enabled ∧ w.getLsbD 10 = o.manual ∧ (w.getLsbD 11 = true ↔ o.fault ≠ .ready) ∧
    (∀ k status, o.fault = .faulted k status →
      field w 12 2 = match k with | .openString => 0 | .short => 1 | .ground => 2) ∧
    (o.fault = .ready → field w 12 2 = 0) ∧
    (w.getLsbD 14 = true ↔ ∃ k, o.fault = .faulted k .held) ∧
    (w.getLsbD 15 = true ↔ ∃ k left, o.fault = .faulted k (.pending (.paused left))) ∧
    (e.list.length ≤ 8 → field (read 0x21) 0 12 = e.idle.val ∧ field (read 0x21) 12 4 = e.list.length) ∧
    read 0x22 = BitVec.ofNat 16 (handleCode e.winner) ∧
    ((activeHandles s ch).length ≤ 8 → o.retry ≤ 3 →
      field (read 0x23) 8 4 = (activeHandles s ch).length ∧ field (read 0x23) 12 2 = o.retry ∧
      (e.winner = none → field (read 0x23) 0 4 = 15 ∧ field (read 0x23) 4 4 = 15) ∧
      ∀ h c, e.winner = some h → claimAt s h = some c →
        field (read 0x23) 0 4 = c.owner.code ∧ field (read 0x23) 4 4 = c.priority.val) ∧
    (retryLeft ≤ 100 → field (read 0x24) 0 8 = e.pattern.code ∧ field (read 0x24) 8 7 = retryLeft) ∧
    read 0x25 = BitVec.ofNat 16 e.target.val ∧ read 0x26 = BitVec.ofNat 16 (fadeLevel m s.now).val ∧
    (unitsOf 10 fadeEnds s.now ≤ 320 → unitsOf 100 o.cleanEnd s.now ≤ 100 →
      field (read 0x27) 0 9 = unitsOf 10 fadeEnds s.now ∧ field (read 0x27) 9 7 = unitsOf 100 o.cleanEnd s.now) ∧
    read 0x28 = BitVec.ofNat 16 (outputLevel s ch).val) ∧
  (15 < (s.port p).selChannel.toNat → read 0x22 = 0xFFFF ∧ read 0x23 = 0xFF ∧
    ∀ n ∈ [0x20, 0x21, 0x24, 0x25, 0x26, 0x27, 0x28], read n = 0)

/-- The claim slot window of the slot selected, with the pool summary; a select value outside 0..47 reads as a FREE record
of generation 0. A lease shows 1 or more until its expiry has been taken (R24, R67, R205). -/
def SlotWindowShown (p : Port) (s : State) : Prop :=
  let read : Nat → Word := fun offset => readRegister s p (BitVec.ofNat 8 offset)
  let free := ((indexes 48).filter fun x => (s.record x).claim.isNone).length
  let showsFree : Gen → Prop := fun gen =>
    field (read 0x29) 0 2 = 0 ∧ field (read 0x29) 2 4 = gen.val ∧ field (read 0x29) 6 4 = 15 ∧
    field (read 0x29) 10 6 = 0 ∧ read 0x2A = 0 ∧ read 0x2B = 0 ∧ read 0x2C = 0 ∧ field (read 0x2D) 0 8 = 0 ∧ read 0x2E = 0
  (∀ (slot : Slot) (c : Claim), (s.port p).selSlot.toNat = slot.val → (s.record slot).claim = some c →
    field (read 0x29) 0 2 = (if c.active then 2 else 1) ∧ field (read 0x29) 2 4 = (s.record slot).gen.val ∧
    field (read 0x29) 6 4 = c.owner.code ∧ field (read 0x29) 10 2 = c.source.code ∧
    field (read 0x29) 12 3 = c.priority.val ∧ read 0x2A = c.channels ∧
    field (read 0x2B) 0 12 = (match c.source with | .fixed v => v.val | .scene n => n.val | .player n => n.val) ∧
    field (read 0x2B) 12 3 = c.fade.val ∧ field (read 0x2C) 0 8 = c.pattern.code ∧ read 0x2E = c.tag ∧
    (c.lease = none → field (read 0x2C) 8 8 = 0 ∧ field (read 0x2D) 0 8 = 0) ∧
    ∀ l, c.lease = some l → field (read 0x2C) 8 8 = l.length.val ∧
      (s.now < l.start + 100 * l.length.val → l.start ≤ s.now →
        field (read 0x2D) 0 8 = unitsOf 100 (some (l.start + 100 * l.length.val)) s.now) ∧
      (l.start + 100 * l.length.val ≤ s.now → field (read 0x2D) 0 8 = 1) ∧
      (l.start ≤ s.now → 1 ≤ field (read 0x2D) 0 8)) ∧
  (∀ slot : Slot, (s.port p).selSlot.toNat = slot.val → (s.record slot).claim = none → showsFree (s.record slot).gen) ∧
  (47 < (s.port p).selSlot.toNat → showsFree 0) ∧
  ((∀ (slot : Slot) c l, (s.record slot).claim = some c → c.lease = some l → l.start ≤ s.now) →
    field (read 0x2D) 8 6 = free) ∧
  ((s.right 0).held ≤ 48 → (s.right 1).held ≤ 48 →
    field (read 0x2F) 0 6 = (s.right 0).held ∧ field (read 0x2F) 8 6 = (s.right 1).held) ∧
  ((s.right 2).held ≤ 48 → field (read 0x30) 0 6 = (s.right 2).held)

/-- The list entry window: the entry of the channel selected at the position selected, or no entry (R54, R205). -/
def ListWindowShown (p : Port) (s : State) : Prop :=
  let read : Nat → Word := fun offset => readRegister s p (BitVec.ofNat 8 offset)
  let nothing := read 0x31 = 0xFFFF ∧ field (read 0x32) 0 1 = 0 ∧ field (read 0x32) 1 4 = 15 ∧
    field (read 0x32) 5 11 = 0 ∧ read 0x33 = 0
  (15 < (s.port p).selChannel.toNat → nothing) ∧
  ∀ ch : Channel, (s.port p).selChannel.toNat = ch.val →
    ((s.entry ch).list.length ≤ (s.port p).selList.toNat → nothing) ∧
    ∀ above h below c, (s.entry ch).list = above ++ h :: below → above.length = (s.port p).selList.toNat →
      claimAt s h = some c →
      read 0x31 = BitVec.ofNat 16 h.code ∧ (read 0x32).getLsbD 0 = c.active ∧ field (read 0x32) 1 4 = c.owner.code ∧
      field (read 0x32) 5 3 = c.priority.val ∧ field (read 0x32) 8 2 = c.source.code ∧
      ((read 0x32).getLsbD 10 = true ↔ (s.entry ch).winner = some h) ∧
      read 0x33 = BitVec.ofNat 16 (effectiveLevel s c ch).val

/-- The scene window of the scene selected; a select value outside 0..15 reads every field as 0 (R83, R205). -/
def SceneWindowShown (p : Port) (s : State) : Prop :=
  let read : Nat → Word := fun offset => readRegister s p (BitVec.ofNat 8 offset)
  (∀ n : SceneNo, (s.port p).selScene.toNat = n.val →
    let x := s.scene n
    (x.inUse ≤ 48 → field (read 0x34) 0 5 = ((indexes 16).filter fun ch => (tget x.levels ch).isSome).length ∧
      field (read 0x34) 8 6 = x.inUse) ∧
    (∀ ch : Channel, inSet (read 0x35) ch = (tget x.levels ch).isSome) ∧
    ∀ ch : Channel, read (0x36 + ch.val) = BitVec.ofNat 16 ((tget x.levels ch).getD 0).val) ∧
  (15 < (s.port p).selScene.toNat → ∀ n, 0x34 ≤ n → n ≤ 0x45 → read n = 0)

/-- The player window of the player selected; a select value outside 0..1 reads FREE, no holder, no claim and every other
field as 0 (R109, R205). -/
def PlayerWindowShown (p : Port) (s : State) : Prop :=
  let read : Nat → Word := fun offset => readRegister s p (BitVec.ofNat 8 offset)
  let stepAt : Nat → PlayerStep → Prop := fun n st =>
    read n = BitVec.ofNat 16 st.level.val ∧ read (n + 1) = BitVec.ofNat 16 st.ramp.val ∧
    read (n + 2) = BitVec.ofNat 16 st.hold.val
  (∀ n : PlayerNo, (s.port p).selPlayer.toNat = n.val →
    let x := s.player n
    (x.queue.length ≤ 32 →
      field (read 0x46) 0 3 =
        (match x.state with | .free => 0 | .loading => 1 | .playing => 2 | .starved => 3 | .holding => 4) ∧
      field (read 0x46) 3 2 = (match x.holder with | none => 3 | some q => q.val) ∧
      field (read 0x46) 5 6 = x.queue.length ∧ (read 0x46).getLsbD 11 = x.streamComplete ∧
      ((read 0x46).getLsbD 12 = true ↔ x.mode = .loop) ∧ ((read 0x46).getLsbD 13 = true ↔ x.finish = .release)) ∧
    read 0x47 = BitVec.ofNat 16 x.level.val ∧ read 0x48 = BitVec.ofNat 16 (handleCode x.claim) ∧
    (∀ c, x.current = some c → stepAt 0x49 c.step ∧ read 0x4C = BitVec.ofNat 16
      (unitsOf 10 (some (c.began + 10 * (c.step.ramp.val + c.step.hold.val))) s.now)) ∧
    (x.current = none → ∀ m, 0x49 ≤ m → m ≤ 0x4C → read m = 0) ∧
    (∀ st rest, x.queue = st :: rest → stepAt 0x4D st) ∧
    (x.queue = [] → ∀ m, 0x4D ≤ m → m ≤ 0x4F → read m = 0)) ∧
  (1 < (s.port p).selPlayer.toNat → field (read 0x46) 0 3 = 0 ∧ field (read 0x46) 3 2 = 3 ∧ field (read 0x46) 5 11 = 0 ∧
    read 0x47 = 0 ∧ read 0x48 = 0xFFFF ∧ ∀ m, 0x49 ≤ m → m ≤ 0x4F → read m = 0)

/-- The stage window (R150, R175, R205). -/
def StageWindowShown (p : Port) (s : State) : Prop :=
  let read : Nat → Word := fun offset => readRegister s p (BitVec.ofNat 8 offset)
  let w := read 0x50
  let o := s.output
  let runs : Nat → Option Instant → Prop := fun number ends =>
    unitsOf 10 ends s.now ≤ 50 → field (read 0x51) 0 3 = number ∧ field (read 0x51) 3 8 = unitsOf 10 ends s.now ∧
      (read 0x51).getLsbD 11 = s.lampTest.isSome
  (o.recovery ≤ 4 →
    field w 0 3 = o.stage.code ∧ field w 3 4 = o.lastCause.code ∧ field w 7 3 = o.recovery ∧
    w.getLsbD 13 = o.supply.lampSupplyLow ∧ w.getLsbD 12 = o.supply.overcurrent ∧
    w.getLsbD 11 = o.supply.overtempWarn ∧ w.getLsbD 10 = o.supply.overtempShutdown ∧
    w.getLsbD 14 = o.hold ∧ w.getLsbD 15 = o.demand) ∧
  (TimersBelong o →
    (o.initEnd ≠ none → runs 1 o.initEnd) ∧ (o.softEnd ≠ none → runs 2 o.softEnd) ∧
    (o.recoveryEnd ≠ none → runs 3 o.recoveryEnd) ∧ (o.standbyEnd ≠ none → runs 4 o.standbyEnd)) ∧
  (o.initEnd = none → o.softEnd = none → o.recoveryEnd = none → o.standbyEnd = none → runs 0 none) ∧
  (unitsOf 100 o.activeEnd s.now ≤ 100 → unitsOf 100 s.lampTest s.now ≤ 300 →
    field (read 0x52) 0 7 = unitsOf 100 o.activeEnd s.now ∧ field (read 0x52) 7 9 = unitsOf 100 s.lampTest s.now) ∧
  read 0x53 = BitVec.ofNat 16 s.derateCeiling.val ∧
  ∀ k : ClockNo,
    let r := read (0x54 + k.val / 2)
    field r (8 * (k.val % 2)) 7 = (s.clock k).halfPeriod.val ∧ r.getLsbD (8 * (k.val % 2) + 7) = (s.clock k).offHalf

/-- The lines window: three registers for each line (R125, R205). -/
def LinesWindowShown (p : Port) (s : State) : Prop :=
  let read : Nat → Word := fun offset => readRegister s p (BitVec.ofNat 8 offset)
  ∀ l : Line,
    let x := s.line l
    let w := read (0x56 + 3 * l.val)
    let v := read (0x57 + 3 * l.val)
    (w.getLsbD 0 = true ↔ x.sense = .edge) ∧ (w.getLsbD 1 = true ↔ x.polarity = .second) ∧ w.getLsbD 2 = x.anyEdge ∧
    w.getLsbD 3 = false ∧ field w 4 4 = x.filter.val ∧ field w 8 8 = x.stretch.val ∧
    (unitsOf 10 x.stretchEnd s.now ≤ 255 →
      field v 0 2 = (match x.activity with | .quiet => 0 | .asserted => 1 | .stretch => 2) ∧ v.getLsbD 2 = x.raw ∧
      v.getLsbD 3 = x.filtered ∧ v.getLsbD 4 = x.filterEnd.isSome ∧ v.getLsbD 5 = x.binding.isSome ∧
      field v 6 2 = 0 ∧ field v 8 8 = unitsOf 10 x.stretchEnd s.now) ∧
    read (0x58 + 3 * l.val) = BitVec.ofNat 16 (handleCode x.claim)

/-! ### What a line's activity brings -/

/-- The claim of a line as its activity starts or ends (R120): its record turns ACTIVE or DORMANT, at a start it moves to
the head of its class, and resolution is redone on its channels; a line without a record reaches nothing in the pool. The
stage follows (R115, R156). -/
structure Follows (l : Line) (active : Bool) (s t : State) : Prop where
  claim : ∀ h c, (s.line l).claim = some h → claimAt s h = some c → claimAt t h = some { c with active := active }
  others : ∀ x, (∀ h, (s.line l).claim = some h → x ≠ h.slot) → t.record x = s.record x
  lists : ∀ h c, (s.line l).claim = some h → claimAt s h = some c → ∀ ch,
    (t.entry ch).list =
      if active && inSet c.channels ch then
        insertClass (priorityOf t) c.priority h ((s.entry ch).list.filter fun x => decide (x ≠ h))
      else (s.entry ch).list
  redone : ∀ h c, (s.line l).claim = some h → claimAt s h = some c → Redone c.channels s t
  unbound : (s.line l).claim = none → t.pool = s.pool ∧ t.resolver = s.resolver ∧ ∀ ch, ChanIs (s.chan ch) s t ch
  stage : StageFollows s t

/-- What no activity event of a line touches. -/
structure LineFrame (l : Line) (s t : State) : Prop where
  lines : ∀ k, k ≠ l → t.line k = s.line k
  settings : (t.line l).sense = (s.line l).sense ∧ (t.line l).polarity = (s.line l).polarity ∧
    (t.line l).anyEdge = (s.line l).anyEdge ∧ (t.line l).filter = (s.line l).filter ∧
    (t.line l).stretch = (s.line l).stretch ∧ (t.line l).raw = (s.line l).raw
  binding : (t.line l).binding = (s.line l).binding ∧ (t.line l).claim = (s.line l).claim
  players : t.players = s.players
  scenes : t.scenes = s.scenes
  access : t.access = s.access
  results : ∀ p, ResultsKept (s.port p) (t.port p)
  kept : Kept s t

/-- The notices of an activity event: LINE where it reaches the port, then the WINNER notices on the channels of the line's
claim, where it has a record, then the stage's move; the one-shot entries that these events match are freed (R115, R179,
R186). -/
structure LineAnnounced (l : Line) (d : LineDetail) (s t : State) : Prop where
  bound : ∀ h c, (s.line l).claim = some h → claimAt s h = some c →
    ∀ p, Announced p (lineTold p l d s) c.channels s t
  unbound : (s.line l).claim = none → ∀ p, Announced p (lineTold p l d s) 0 s t
  spent : ∀ h c, (s.line l).claim = some h → claimAt s h = some c → ∀ w,
    t.watch w = spentBy .winner (changedWinners c.channels s t) (spentBy .line [l] (s.watch w))
  spentUnbound : (s.line l).claim = none → ∀ w, t.watch w = spentBy .line [l] (s.watch w)

/-! ### Which commands a port takes -/

/-- The port and the right of a port command; PORT_RESET, which is taken in every stage, is not among them (R191). -/
def portCommand : Instr → Option (Port × Need)
  | .claim p | .modify p | .withdraw p | .withdrawAll p | .renew p | .sceneInvoke p | .playerAcquire p | .playerPush p
  | .playerEnd p | .playerStart p | .playerAbort p | .playerRelease p | .watchSet p | .watchDrop p => some (p, .none)
  | .scenePut p | .sceneDrop p | .sceneErase p => some (p, .sceneEdit)
  | .channelPolicy p | .lineConfig p | .lineBind p | .lineUnbind p | .channelFade p | .clockConfig p
  | .derateConfig p | .lampTest p | .latchClear p | .channelEnable p | .channelRearmMode p | .faultRearm p
  | .privSet p | .maintHandover p | .portClear p => some (p, .maintenance)
  | _ => none

/-- A port command can be carried out: the stage takes commands and the port holds the right (R191 steps 1 and 2). -/
structure Taken (p : Port) (n : Need) (s : State) : Prop where
  stage : refusesCommands s.output.stage = false
  right : holdsRight s p n = true

end Sys2Proof.Machine
end

