-- ==== Sys2Proof/Certificates/Slice0/Obligations.lean ====
section
/-! DEFINITION. The statements for the provers, chapter by chapter of the manual. OBLIGATIONS.json lists them with the
rules they rest on. -/

section ArbiterStatements

open Sys2Proof Sys2Proof.Machine

/-! ### The machine -/

/-- The command at the front of the queue is executed on the state with the rest of the queue. -/
def Obligations.StepTakesFrontCommand : Prop :=
  ∀ (c : Instr) (rest : List Instr) (s : State),
    step { s with pending := c :: rest } = exec c { s with pending := rest }

/-- On an empty queue a step takes one event that is due, any one where several are, and lets a millisecond pass where
none is (the model's choice, log 2 and log 3). -/
def Obligations.EmptyQueueStepTakesDueEvent : Prop :=
  ∀ s : State, s.pending = [] →
    (dueEvents s = [] → step s = .next { s with now := s.now + 1 }) ∧
    (∀ i, dueEvents s = [i] → step s = exec i s) ∧
    (2 ≤ (dueEvents s).length → ∃ i ∈ dueEvents s, step s = exec i { s with draws := s.draws + 1 })

/-- Every command completes (log 17: nothing in the manual stops the block), a timed event that is not due among them
(log 4), and none moves the instant, the free choices or the queue, which are the model's own and stay through
POWER_ON_RESET as well (log 6). What logs 4 and 6 settle is the model's choice, and log 17 its reading. -/
def Obligations.EveryCommandCompletes : Prop :=
  ∀ (c : Instr) (s : State), ∃ t, exec c s = .next t ∧ t.now = s.now ∧ t.draws = s.draws ∧ t.pending = s.pending

/-! ### Resets and ENABLE -/

/-- The values the manual gives the state after power-on reset (R4, R25, R34, R52, R85, R108, R110, R134, R135, R137,
R140, R143, R151, R167, R176, R183, R185, R187, R193, R198). The board lines and the monitor are sampled then, and are
in the statement of POWER_ON_RESET. -/
def Obligations.ResetHasPowerOnValues : Prop :=
  let s := State.reset
  (∀ x, s.record x = { gen := 0, claim := none }) ∧
  (∀ ch, s.entry ch =
    { list := [], policy := .priority, idle := 0, winner := none, target := 0, pattern := .steady }) ∧
  (∀ n ch, (s.scene n).inUse = 0 ∧ tget (s.scene n).levels ch = none) ∧
  (∀ n, (s.player n).state = .free ∧ (s.player n).holder = none ∧ (s.player n).queue = [] ∧
    (s.player n).streamComplete = false ∧ (s.player n).level = 0 ∧ (s.player n).claim = none) ∧
  (∀ l, (s.line l).sense = .level ∧ (s.line l).polarity = .first ∧ (s.line l).anyEdge = false ∧
    (s.line l).filter = 0 ∧ (s.line l).stretch = 0 ∧ (s.line l).filtered = false ∧ (s.line l).filterEnd = none ∧
    (s.line l).activity = .quiet ∧ (s.line l).stretchEnd = none ∧ (s.line l).binding = none ∧
    (s.line l).claim = none) ∧
  (∀ ch, (s.chan ch).fade = .parked ∧ (s.chan ch).target = 0 ∧ (s.chan ch).pattern = .steady ∧
    (s.chan ch).defaultIndex = 3 ∧ (s.chan ch).defaultShape = .linear) ∧
  ((s.clock 0).halfPeriod = 13 ∧ (s.clock 1).halfPeriod = 25 ∧ (s.clock 2).halfPeriod = 5 ∧
    (s.clock 3).halfPeriod = 50 ∧ ∀ k, (s.clock k).offHalf = false ∧ (s.clock k).began = none) ∧
  s.derateCeiling = 2048 ∧ s.lampTest = none ∧
  s.output.stage = .off ∧ s.output.lastCause = .enableLow ∧ s.output.recovery = 0 ∧ s.output.demand = false ∧
  s.output.initEnd = none ∧ s.output.softEnd = none ∧ s.output.recoveryEnd = none ∧ s.output.standbyEnd = none ∧
  s.output.activeEnd = none ∧
  (∀ ch, s.out ch = { enabled := true, manual := false, fault := .ready, retry := 0, cleanEnd := none }) ∧
  (∀ w, s.watch w = none) ∧
  (∀ p, (s.right p).quota = 16 ∧ (s.right p).held = 0) ∧
  (∀ p, (∀ i, arg s p i = 0) ∧ (s.port p).status = .ok ∧ (s.port p).handle = none ∧ (s.port p).extra = 0 ∧
    (s.port p).selChannel = 0 ∧ (s.port p).selSlot = 0 ∧ (s.port p).selList = 0 ∧ (s.port p).selScene = 0 ∧
    (s.port p).selPlayer = 0 ∧ (s.port p).accepted = 0 ∧ (s.port p).refused = 0 ∧
    (s.port p).frameError = false ∧ (s.port p).queue = [] ∧ (s.port p).overflow = false ∧ (s.port p).kindMask = 0)

/-- Power-on reset with ENABLE low: every piece of state at its power-on value, the straps and pins sampled; the
model's instant, draws and queue stay (log 6). With ENABLE high it is followed by ENABLE going high (R110, R148, R151,
R155, R193). ENABLE going high in OFF enters INIT for 10 ms and offers a STAGE notice to every port; every channel is
closed (R153, R155). In any other stage ENABLE stands high already, an event the manual does not give: that nothing
changes there is log 24, the model's reading. -/
def Obligations.PowerOnResetThenEnableHigh : Prop :=
  (∀ (pins : PowerOnPins) (s : State),
    (pins.enable = false → ∃ t, exec (.powerOnReset pins) s = .next t ∧
      t = { State.reset with
        now := s.now, draws := s.draws, pending := s.pending, lts := pins.lts,
        address0 := pins.address0, address1 := pins.address1, access := t.access, lines := t.lines,
        output := { State.reset.output with
          hold := pins.hold,
          supply := ⟨pins.lampSupplyLow, pins.overcurrent, pins.overtempWarn, pins.overtempShutdown⟩ } } ∧
      t.access.maintenance = pins.msel ∧
      (∀ p, t.right p =
        { ceiling := if p = pins.msel then 7 else 6, sceneEdit := decide (p = pins.msel), quota := 16, held := 0 }) ∧
      ∀ l, t.line l = { LineState.reset with raw := pins.lines.getLsbD l.val }) ∧
    (pins.enable = true → ∀ t, exec (.powerOnReset { pins with enable := false }) s = .next t →
      exec (.powerOnReset pins) s = exec .enableHigh t)) ∧
  (∀ s : State,
    (s.output.stage = .off → exec .enableHigh s = .next { s with
      output := { s.output.idle with
        stage := .init, lastCause := .enableHigh, initEnd := some (s.now + 10) },
      modulator := tmap (fun m => { m with fade := .parked }) s.modulator,
      ports := tmap (offerTo (.stage .init .enableHigh)) s.ports }) ∧
    (s.output.stage ≠ .off → exec .enableHigh s = .next s))

/-- ENABLE going low, in any stage but OFF: what each block keeps and loses (R26, R34, R108, R123, R137, R140, R147,
R154, R187, R198). A channel that a freed record covered, or whose stored outcome is the one its list gives, ends with
no winner, the idle level and STEADY; what the resolver stores for any other channel stays (R34, R41, R52); the
modulator holds these targets and patterns, every channel PARKED (R134). In OFF ENABLE stands low already, an event
the manual does not give: that nothing changes there is log 24, the model's reading. -/
def Obligations.EnableLowClearsArbiter : Prop :=
  ∀ s : State,
    (s.output.stage = .off → exec .enableLow s = .next s) ∧
    (s.output.stage ≠ .off → ListsInv s → CountsInv s → ∃ t, exec .enableLow s = .next t ∧
      t = { s with
        output := { s.output.idle with stage := .off, lastCause := .enableLow, recovery := 0, demand := false },
        lampTest := none, pool := t.pool, resolver := t.resolver, modulator := t.modulator, access := t.access,
        scenes := t.scenes, players := t.players, lines := t.lines, clocks := t.clocks, outs := t.outs,
        ports := t.ports } ∧
      (∀ x, t.record x = freed (s.record x)) ∧
      (∀ ch, (t.entry ch).list = [] ∧ (t.entry ch).policy = (s.entry ch).policy ∧
        (t.entry ch).idle = (s.entry ch).idle) ∧
      (∀ ch, (inSet (coveredBy s (indexes 48)) ch = true ∨ Resolved s ch) →
        (t.entry ch).winner = none ∧ (t.entry ch).target = (s.entry ch).idle ∧ (t.entry ch).pattern = .steady) ∧
      (∀ ch, inSet (coveredBy s (indexes 48)) ch = false → (t.entry ch).winner = (s.entry ch).winner ∧
        (t.entry ch).target = (s.entry ch).target ∧ (t.entry ch).pattern = (s.entry ch).pattern) ∧
      (ModulatorInv s → ∀ ch,
        (t.chan ch).target = (t.entry ch).target ∧ (t.chan ch).pattern = (t.entry ch).pattern) ∧
      (∀ ch, (t.chan ch).fade = .parked ∧ (t.chan ch).defaultIndex = (s.chan ch).defaultIndex ∧
        (t.chan ch).defaultShape = (s.chan ch).defaultShape) ∧
      t.access.maintenance = s.access.maintenance ∧
      (∀ p, t.right p = { s.right p with held := 0 }) ∧
      (∀ n, t.scene n = { s.scene n with inUse := 0 }) ∧
      (∀ n, (s.player n).state = .free → freesPlayer s (indexes 48) n = false → t.player n = s.player n) ∧
      (∀ n, (s.player n).state ≠ .free →
        t.player n = { Player.reset with state := .loading, holder := (s.player n).holder }) ∧
      (∀ l, t.line l =
        { s.line l with filterEnd := none, stretchEnd := none, activity := .quiet, claim := none }) ∧
      (∀ k, t.clock k = { s.clock k with offHalf := false, began := none }) ∧
      (∀ ch, t.out ch = { s.out ch with fault := .ready, retry := 0, cleanEnd := none }) ∧
      ∀ p, t.port p = offerTo (.stage .off .enableLow) { s.port p with queue := [], overflow := false })

/-- The end of INIT: STANDBY with cause INIT_END and on to SOFTSTART where it may, the lines taken up afresh, the
clocks in an ON-half, the start-up lamp test where LTS is strapped and HOLD released (R124, R137, R148, R155, R157).
With no record placed, the bound lines' records are re-created in line order in the lowest slots, from their
templates, with the generations the slots hold, ACTIVE where the line is found active (R26, R124). The notices of each
port are, in this order, STAGE STANDBY, the WINNER notices of each re-creation in line order, the LINE START of each
line found active that reaches the port, and STAGE SOFTSTART where the stage moves on (R124, R153, R179, R186). -/
def Obligations.InitEndTakesUpLinesAndClaims : Prop :=
  (∀ s : State, s.output.stage = .init → dueAt s.output.initEnd s.now = true →
    ∃ t, exec .initIntervalEnd s = .next t ∧
      StandbyEntered .initEnd s.output t ∧ Offered (.stage .standby .initEnd) s t ∧
      t.lampTest = (if s.lts && !s.output.hold then some (s.now + 1000) else s.lampTest) ∧
      (∀ k, t.clock k = { s.clock k with offHalf := false, began := some s.now }) ∧
      (∀ l, t.line l = { s.line l with
        filtered := (s.line l).raw, filterEnd := none, stretchEnd := none,
        activity := freshActivity (s.line l).sense (s.line l).polarity (s.line l).raw,
        claim := (t.line l).claim }) ∧
      (∀ l, (s.line l).binding = none → (t.line l).claim = (s.line l).claim) ∧
      t.access = s.access ∧ t.scenes = s.scenes ∧ t.players = s.players ∧
      ∀ p, RegistersKept (s.port p) (t.port p) ∧ ResultsKept (s.port p) (t.port p)) ∧
  (∀ s : State, s.output.stage = .init → dueAt s.output.initEnd s.now = true →
    (∀ x, (s.record x).claim = none) → (∀ ch, (s.entry ch).list = []) →
    ∃ (t : State) (u : Nat → State), exec .initIntervalEnd s = .next t ∧
      (u 0).pool = s.pool ∧ (u 0).resolver = s.resolver ∧ (u 0).watches = s.watches ∧
      (∀ p, Queued [.stage .standby .initEnd] (s.port p) ((u 0).port p)) ∧
      (∀ l : Line, (s.line l).binding = none → u (l.val + 1) = u l.val) ∧
      (∀ (l : Line) template, (s.line l).binding = some template →
        (∀ p, Announced p [] template.channels (u l.val) (u (l.val + 1))) ∧
        WinnersSpend template.channels (u l.val) (u (l.val + 1)) ∧
        ∃ h : Handle, (t.line l).claim = some h ∧
          claimAt t h = some (lineClaim l (t.line l).isActive template) ∧
          h.gen = (s.record h.slot).gen ∧
          h.slot.val = ((indexes 8).filter fun k => decide (k < l) && (s.line k).binding.isSome).length ∧
          Placed h.slot (lineClaim l (t.line l).isActive template) (u l.val) (u (l.val + 1))) ∧
      t.pool = (u 8).pool ∧ t.resolver = (u 8).resolver ∧
      (∀ w, t.watch w = spentBy .line ((indexes 8).filter fun l => (t.line l).isActive) ((u 8).watch w)) ∧
      ∀ p, Queued
        ((told s p .line ((indexes 8).filter fun l => (t.line l).isActive)).map (fun l => .line l .start) ++
          if t.output.stage = .softstart then [.stage .softstart .demand] else [])
        ((u 8).port p) (t.port p))

/-! ### Ports, frames and results -/

/-- In OFF and INIT every port command but PORT_RESET is refused WRONG_STATE, and past those stages a command whose
right the port lacks is refused PRIVILEGE; a refused command sets its result registers and steps its refused counter,
and nothing else (R191, R192). -/
def Obligations.PortChecksRefuse : Prop :=
  ∀ (c : Instr) (p : Port) (n : Need) (s : State), portCommand c = some (p, n) →
    (refusesCommands s.output.stage = true → exec c s = .next (refusedState p .wrongState 0 s)) ∧
    (refusesCommands s.output.stage = false → holdsRight s p n = false →
      exec c s = .next (refusedState p .privilege 0 s))

/-- What each frame does that the model gives to the row WRITE_FRAME_DISCARDED, which carries a frame as received (log
8). A write frame that is not the offset, two data bytes and the right check byte sets the frame-error flag and does
nothing else (R188, R189, R199). By log 8, the model's reading, the frames that are no write frame at this port do
nothing here: one addressed to another target, one that ends after its offset byte (one that ends before any byte is
log 29, the model's choice), and on port 2 one with the direction bit of a read, whose reading is a row of its own
where it clears; and a good write does what the register write does. -/
def Obligations.WriteFrameIsChecked : Prop :=
  ∀ (p : Port) (address : Nat) (bytes : List Byte) (s : State),
    (isAddressed s p address = false → exec (.writeFrameDiscarded p address bytes) s = .next s) ∧
    (bytes.length ≤ 1 → exec (.writeFrameDiscarded p address bytes) s = .next s) ∧
    (p = 2 → (bytes.headD 0).getLsbD 7 = true → exec (.writeFrameDiscarded p address bytes) s = .next s) ∧
    (isAddressed s p address = true → ∀ b hi lo check, bytes = [b, hi, lo, check] →
      (p = 2 → b.getLsbD 7 = false) →
      (check ≠ crc8 [b, hi, lo] →
        exec (.writeFrameDiscarded p address bytes) s = .next (s.modPort p fun q => { q with frameError := true })) ∧
      (check = crc8 [b, hi, lo] →
        exec (.writeFrameDiscarded p address bytes) s = exec (.registerWrite p b (hi ++ lo)) s)) ∧
    (isAddressed s p address = true → 2 ≤ bytes.length → bytes.length ≠ 4 →
      (p = 2 → (bytes.headD 0).getLsbD 7 = false) →
      exec (.writeFrameDiscarded p address bytes) s = .next (s.modPort p fun q => { q with frameError := true }))

/-- A good write stores an ARG or a select register, acts on the mask or the queue, takes the command of a command
register, and is ignored at every other offset (R190, R200, R203). -/
def Obligations.RegisterWriteActs : Prop :=
  ∀ (p : Port) (v : Word) (s : State),
    (∀ i : Fin 8, exec (.registerWrite p (BitVec.ofNat 8 i.val) v) s =
      .next (s.modPort p fun q => { q with args := tset q.args i v })) ∧
    (∀ n ∈ [0x08, 0x09, 0x0A, 0x0B, 0x0C, 0x10, 0x11, 0x12, 0x13, 0x14, 0x1A, 0x1B, 0x1C, 0x1D, 0x1E, 0x1F],
      exec (.registerWrite p (BitVec.ofNat 8 n) v) s = .next s) ∧
    exec (.registerWrite p 0x0D v) s = exec (.maskSet p v) s ∧
    exec (.registerWrite p 0x0E v) s = exec (.maskClear p v) s ∧
    exec (.registerWrite p 0x0F v) s = exec (.noticePop p) s ∧
    exec (.registerWrite p 0x15 v) s = .next (s.modPort p fun q => { q with selChannel := v }) ∧
    exec (.registerWrite p 0x16 v) s = .next (s.modPort p fun q => { q with selSlot := v }) ∧
    exec (.registerWrite p 0x17 v) s = .next (s.modPort p fun q => { q with selList := v }) ∧
    exec (.registerWrite p 0x18 v) s = .next (s.modPort p fun q => { q with selScene := v }) ∧
    exec (.registerWrite p 0x19 v) s = .next (s.modPort p fun q => { q with selPlayer := v }) ∧
    (∀ e ∈ [(0x20, Instr.claim), (0x21, .modify), (0x22, .withdraw), (0x23, .withdrawAll), (0x24, .renew),
        (0x25, .channelPolicy), (0x26, .scenePut), (0x27, .sceneDrop), (0x28, .sceneErase), (0x29, .sceneInvoke),
        (0x2A, .playerAcquire), (0x2B, .playerEnd), (0x2C, .playerAbort), (0x2D, .playerRelease),
        (0x2E, .playerPush), (0x2F, .playerStart), (0x30, .lineConfig), (0x31, .lineBind), (0x32, .lineUnbind),
        (0x33, .channelFade), (0x34, .clockConfig), (0x35, .derateConfig), (0x36, .lampTest), (0x37, .latchClear),
        (0x38, .channelEnable), (0x39, .channelRearmMode), (0x3A, .faultRearm), (0x3B, .watchSet),
        (0x3C, .watchDrop), (0x3D, .privSet), (0x3E, .maintHandover), (0x3F, .portReset), (0x40, .portClear)],
      exec (.registerWrite p (BitVec.ofNat 8 e.1) v) s = exec (e.2 p) s) ∧
    (∀ offset : Byte, 0x40 < offset.toNat → exec (.registerWrite p offset v) s = .next s)

/-- A clearing read answers with the register as it stood and the check byte over the offset byte and the data, and
clears that register alone (R185, R188, R190, R192); the answer stands in `reply`, the model's own record of what was
sent (log 9, the model's choice). MASK_SET disables the kinds named and MASK_CLEAR enables them; NOTICE_POP removes
the oldest notice, and does nothing on an empty queue (R183, R184). The attention output of a port is asserted while
its queue holds a notice or its overflow flag is set, and released otherwise (R185). -/
def Obligations.ClearingReadsMasksAndPop : Prop :=
  (∀ (p : Port) (s : State),
    let ask : Byte → Byte := fun offset => if p = 2 then offset ||| 0x80 else offset
    let answer : Byte → Word → Option ReadReply := fun offset data =>
      some { data := data, check := crc8 [ask offset, highByte data, lowByte data] }
    exec (.acceptedRead p) s = .next (s.modPort p fun q =>
      { q with accepted := 0, reply := answer 0x13 (BitVec.ofNat 16 (s.port p).accepted.val) }) ∧
    exec (.refusedRead p) s = .next (s.modPort p fun q =>
      { q with refused := 0, reply := answer 0x14 (BitVec.ofNat 16 (s.port p).refused.val) }) ∧
    ∃ data, exec (.portStatusRead p) s = .next (s.modPort p fun q =>
        { q with overflow := false, frameError := false, reply := answer 0x0B data }) ∧
      ((s.port p).queue.length ≤ 16 →
        (data.extractLsb' 0 5).toNat = (s.port p).queue.length ∧ data.getLsbD 8 = (s.port p).overflow ∧
        data.getLsbD 9 = (s.port p).frameError)) ∧
  (∀ (p : Port) (v : Word) (s : State),
    (∃ t, exec (.maskSet p v) s = .next t ∧
      t = s.modPort p (fun q => { q with kindMask := (t.port p).kindMask }) ∧
      ∀ k, 1 ≤ k → k ≤ 7 → (t.port p).kindMask.getLsbD k = ((s.port p).kindMask.getLsbD k || v.getLsbD k)) ∧
    (∃ t, exec (.maskClear p v) s = .next t ∧
      t = s.modPort p (fun q => { q with kindMask := (t.port p).kindMask }) ∧
      ∀ k, 1 ≤ k → k ≤ 7 → (t.port p).kindMask.getLsbD k = ((s.port p).kindMask.getLsbD k && !(v.getLsbD k))) ∧
    ((s.port p).queue = [] → exec (.noticePop p) s = .next s) ∧
    (∀ n rest, (s.port p).queue = n :: rest →
      exec (.noticePop p) s = .next (s.modPort p fun q => { q with queue := rest }))) ∧
  (∀ (p : Port) (s : State), attention s p = true ↔ (s.port p).queue ≠ [] ∨ (s.port p).overflow = true)

/-- What a read of the register window shows: the port's own registers, the notice head, and every field of the
observation windows under the select registers; a reserved offset, and one outside 0..127, reads 0 (R24, R53, R54,
R67, R83, R109, R125, R150, R175, R184, R185, R200, R201, R202, R205). What the layouts leave to the sense of a field
is log 25, the model's reading. -/
def Obligations.WindowShowsState : Prop :=
  (∀ (p : Port) (s : State),
    PortRegistersShown p s ∧ HeadShown p s ∧ ChannelWindowShown p s ∧ SlotWindowShown p s ∧ ListWindowShown p s ∧
    SceneWindowShown p s ∧ PlayerWindowShown p s ∧ StageWindowShown p s ∧ LinesWindowShown p s ∧
    ∀ offset : Byte, (0x1B ≤ offset.toNat ∧ offset.toNat ≤ 0x1F ∨ 0x6E ≤ offset.toNat) →
      readRegister s p offset = 0) ∧
  ∀ (unit : Nat) (ends now : Instant), 0 < unit → now ≤ ends →
    unitsOf unit none now = 0 ∧ ends - now ≤ unit * unitsOf unit (some ends) now ∧
    unit * unitsOf unit (some ends) now < ends - now + unit

/-! ### Notices and watches -/

/-- A notice offered to a port is discarded where the mask disables its kind, is discarded with the overflow flag set
where the queue holds 16 notices, and else joins the tail (R182). An event offers one notice to each port with a
matching entry in use, and frees the matching one-shot entries (R179). -/
def Obligations.NoticesOfferedAndWatchesFired : Prop :=
  (∀ (p : Port) (n : Notice) (s : State),
    ((s.port p).kindMask.getLsbD n.kindCode = true → offer p n s = s) ∧
    ((s.port p).kindMask.getLsbD n.kindCode = false → 16 ≤ (s.port p).queue.length →
      offer p n s = s.modPort p fun q => { q with overflow := true }) ∧
    ((s.port p).kindMask.getLsbD n.kindCode = false → (s.port p).queue.length < 16 →
      offer p n s = s.modPort p fun q => { q with queue := q.queue ++ [n] })) ∧
  (∀ (k : WatchKind) (subject : Nat) (n : Notice) (s : State),
    let covers : Watch → Prop := fun e => e.kind = k ∧ e.lo.val ≤ subject ∧ subject ≤ e.hi.val
    let t := fireWatches k subject n s
    (∀ p, (∃ w e, s.watch w = some e ∧ e.owner = p ∧ covers e) → t.port p = offerTo n (s.port p)) ∧
    (∀ p, (¬ ∃ w e, s.watch w = some e ∧ e.owner = p ∧ covers e) → t.port p = s.port p) ∧
    (∀ w e, s.watch w = some e → covers e → e.oneShot = true → t.watch w = none) ∧
    (∀ w e, s.watch w = some e → (covers e → e.oneShot = false) → t.watch w = s.watch w) ∧
    (∀ w, s.watch w = none → t.watch w = none) ∧
    t = { s with ports := t.ports, watches := t.watches })

/-- WATCH_SET takes the lowest free entry for the issuing port, or is refused (R177). WATCH_DROP frees an entry of the
issuing port and answers with how many it still holds, or is refused (R178). -/
def Obligations.WatchCommandsSetAndDrop : Prop :=
  (∀ (p : Port) (s : State), Taken p .none s →
    ((2 < argNat s p 0 ∨ 15 < argNat s p 1 ∨ 15 < argNat s p 2 ∨ (argNat s p 0 = 2 ∧ 7 < argNat s p 2) ∨
        argNat s p 2 < argNat s p 1 ∨ 1 < argNat s p 3) →
      exec (.watchSet p) s = .next (refusedState p .badArgument 0 s)) ∧
    (∀ kind lo hi oneShot, watchKindOf (argNat s p 0) = some kind → argNat s p 1 = Fin.val lo →
      argNat s p 2 = Fin.val hi → flagOf (argNat s p 3) = some oneShot → lo ≤ hi → hi.val ≤ kind.top →
      ((∀ w, s.watch w ≠ none) → exec (.watchSet p) s = .next (refusedState p .full 0 s)) ∧
      (∀ w, s.watch w = none → (∀ v, v < w → s.watch v ≠ none) →
        exec (.watchSet p) s = .next (acceptedState p none w.val
          (s.setWatch w (some { owner := p, kind := kind, lo := lo, hi := hi, oneShot := oneShot })))))) ∧
  (∀ (p : Port) (s : State), Taken p .none s →
    (12 ≤ argNat s p 0 → exec (.watchDrop p) s = .next (refusedState p .badArgument 0 s)) ∧
    (∀ w : WatchNo, argNat s p 0 = w.val →
      (s.watch w = none → exec (.watchDrop p) s = .next (refusedState p .badArgument 0 s)) ∧
      (∀ e, s.watch w = some e → e.owner ≠ p → exec (.watchDrop p) s = .next (refusedState p .notOwner 0 s)) ∧
      (∀ e, s.watch w = some e → e.owner = p →
        exec (.watchDrop p) s =
          .next (acceptedState p none (watchCount (s.setWatch w none) p) (s.setWatch w none)))))

/-! ### Resolution -/

/-- The winner is chosen among the entries of the channel's list whose records are ACTIVE, in the order of the list;
the DORMANT ones are skipped (R33, R38). Under PRIORITY the winner is the ACTIVE entry of the highest priority present
that stands nearest the head; levels play no part (R38, R39). Under MAXIMUM the winner is the ACTIVE entry of the
highest priority present with the highest effective level there, the one nearest the head among equals (R38, R40). -/
def Obligations.PolicyChoosesWinner : Prop :=
  (∀ (s : State) (ch : Channel), AreActive s ch (activeEntries s ch)) ∧
  (∀ (s : State) (ch : Channel), (s.entry ch).policy = .priority →
    ∀ e, chooseWinner s ch = some e ↔
      ∃ above below, activeEntries s ch = above ++ e :: below ∧
        (∀ a ∈ above, a.2.priority < e.2.priority) ∧ ∀ b ∈ below, b.2.priority ≤ e.2.priority) ∧
  (∀ (s : State) (ch : Channel), (s.entry ch).policy = .maximum →
    ∀ e, chooseWinner s ch = some e ↔
      ∃ above below, activeEntries s ch = above ++ e :: below ∧
        (∀ a ∈ above ++ below, a.2.priority ≤ e.2.priority) ∧
        (∀ a ∈ above, a.2.priority = e.2.priority → effectiveLevel s a.2 ch < effectiveLevel s e.2 ch) ∧
        ∀ b ∈ below, b.2.priority = e.2.priority → effectiveLevel s b.2 ch ≤ effectiveLevel s e.2 ch)

/-- A channel with no ACTIVE entry has no winner, its idle level as target and STEADY as pattern; one with a winner
takes the winner's effective level and pattern (R35, R38, R41, R42). The ACTIVE entries are those of the channel's
list whose records are ACTIVE, the DORMANT ones skipped (R33, R38). -/
def Obligations.TargetFollowsWinner : Prop :=
  ∀ (s : State) (cs : ChannelSet) (ch : Channel), inSet cs ch = true →
    let t := resolveSet none true cs s
    AreActive s ch (activeEntries s ch) ∧
    (activeEntries s ch = [] →
      (t.entry ch).winner = none ∧ (t.entry ch).target = (s.entry ch).idle ∧ (t.entry ch).pattern = .steady) ∧
    (activeEntries s ch ≠ [] → ∃ h c, (h, c) ∈ activeEntries s ch ∧ chooseWinner s ch = some (h, c) ∧
      (t.entry ch).winner = some h ∧ (t.entry ch).pattern = c.pattern ∧
      (∀ v, c.source = .fixed v → (t.entry ch).target = v) ∧
      (∀ n v, c.source = .scene n → tget (s.scene n).levels ch = some v → (t.entry ch).target = v) ∧
      ∀ n, c.source = .player n → (t.entry ch).target = (s.player n).level)

/-- What resolution hands the modulator for a channel it covers: at a winner change the target with the new winner's
fade or the default fade; under the same winner, or none, a changed target with the winner's fade, with fade time 0
for a PLAYER claim, with the default fade where there is none; else the pattern alone (R44 to R47). What the modulator
makes of a level handed: a PARKED channel records target and pattern, and an open channel's fade starts anew from its
fade level of that instant, over the whole time handed, in its default shape, SETTLED at once where the time is 0 or
the level is there already (R129, R132). The times of the fade indices (R126). -/
def Obligations.ResolutionHandsFade : Prop :=
  (∀ (s : State) (cs : ChannelSet) (ch : Channel), inSet cs ch = true →
    let t := resolveSet none true cs s
    let handed : FadeIndex → Prop := fun i =>
      t.chan ch = redirect (t.entry ch).target (t.entry ch).pattern (fadeTime i) s.now (s.chan ch)
    ((t.entry ch).winner ≠ (s.entry ch).winner →
      (∀ h c, chooseWinner s ch = some (h, c) → handed c.fade) ∧
      (chooseWinner s ch = none → handed (s.chan ch).defaultIndex)) ∧
    ((t.entry ch).winner = (s.entry ch).winner → (t.entry ch).target ≠ (s.entry ch).target →
      (∀ h c, chooseWinner s ch = some (h, c) →
        ((∀ n, c.source ≠ .player n) → handed c.fade) ∧ ((∃ n, c.source = .player n) → handed 0)) ∧
      (chooseWinner s ch = none → handed (s.chan ch).defaultIndex)) ∧
    ((t.entry ch).winner = (s.entry ch).winner → (t.entry ch).target = (s.entry ch).target →
      t.chan ch = { s.chan ch with pattern := (t.entry ch).pattern })) ∧
  (∀ (level : Level) (pattern : Pattern) (d : Nat) (now : Instant) (m : ModChannel),
    (m.fade = .parked → redirect level pattern d now m = { m with target := level, pattern := pattern }) ∧
    (m.fade ≠ .parked → redirect level pattern d now m = { m with
      target := level, pattern := pattern,
      fade := if d = 0 ∨ fadeLevel m now = level then .settled else .fading (fadeLevel m now) d now m.defaultShape })) ∧
  (indexes 8).map fadeTime = [0, 50, 100, 200, 400, 800, 1600, 3200]

/-- A winner change of a channel offers one WINNER notice, with the new winner's fields, to every port with a WINNER
watch on it, and none where the winner stays (R43, R48). -/
def Obligations.WinnerChangeIsAnnounced : Prop :=
  ∀ (s : State) (ch : Channel) (p : Port),
    let t := resolveChannel none true ch s
    ((t.entry ch).winner = (s.entry ch).winner → t.port p = s.port p) ∧
    ((t.entry ch).winner ≠ (s.entry ch).winner → s.watches.toList.any (watchMatches p .winner ch.val) = true →
      (chooseWinner s ch = none → t.port p = offerTo (.winner ch none) (s.port p)) ∧
      ∀ h c, chooseWinner s ch = some (h, c) →
        t.port p = offerTo
          (.winner ch (some { handle := h, owner := c.owner, priority := c.priority, tag := c.tag })) (s.port p)) ∧
    (s.watches.toList.any (watchMatches p .winner ch.val) = false → t.port p = s.port p)

/-! ### Claims -/

/-- A CLAIM that passes its checks places an ACTIVE record of the port with the fields of its arguments in the lowest
FREE slot, and answers with its handle and the number of channels it wins (R3, R10, R11, R14, R30). A SCENE_INVOKE
that passes its checks places a record whose channels and levels come from the scene (R76, R77). Each covered channel
is handed to the modulator (R44 to R47); each port's notices are the WINNER notices and the stage's move, and nothing
else, and the one-shot watches that the WINNER events match are freed (R11, R48, R179); demand and the stage follow
(R156, R157, R159). -/
def Obligations.ClaimAndSceneInvokePlaceRecord : Prop :=
  (∀ (p : Port) (s : State) (slot : Slot) (level : Level) (lease : Option Lease),
    Taken p .none s → arg s p 0 ≠ 0 → argNat s p 1 = level.val → argLease s p = some lease →
    (argClaimWord s p).priority ≤ (s.right p).ceiling → (s.right p).held < (s.right p).quota.val →
    (s.record slot).claim = none → (∀ x, x < slot → (s.record x).claim ≠ none) →
    (∀ ch, inSet (arg s p 0) ch = true → (s.entry ch).list.length < 8) →
    ∃ t, exec (.claim p) s = .next t ∧
      Placed slot
        { active := true, owner := .port p, channels := arg s p 0, priority := (argClaimWord s p).priority,
          source := .fixed level, pattern := (argClaimWord s p).pattern, fade := (argClaimWord s p).fade,
          lease := lease, tag := arg s p 4 } s t ∧
      (∀ q, Announced q [] (arg s p 0) s t) ∧ WinnersSpend (arg s p 0) s t ∧ StageFollows s t ∧
      Accepted p (some (handleAt s slot)) (winsOn t (handleAt s slot) (arg s p 0)) s t ∧
      OtherResultsKept p s t ∧ t.players = s.players ∧ t.lines = s.lines) ∧
  (∀ (p : Port) (s : State) (slot : Slot) (n : SceneNo) (lease : Option Lease),
    Taken p .none s → argNat s p 0 = n.val → argLease s p = some lease → (s.scene n).entryCount ≠ 0 →
    (argClaimWord s p).priority ≤ (s.right p).ceiling → (s.right p).held < (s.right p).quota.val →
    (s.record slot).claim = none → (∀ x, x < slot → (s.record x).claim ≠ none) →
    (∀ ch, (tget (s.scene n).levels ch).isSome = true → (s.entry ch).list.length < 8) →
    ∃ t, exec (.sceneInvoke p) s = .next t ∧
      (∀ ch, inSet (s.scene n).channels ch = (tget (s.scene n).levels ch).isSome) ∧
      Placed slot
        { active := true, owner := .port p, channels := (s.scene n).channels,
          priority := (argClaimWord s p).priority, source := .scene n, pattern := (argClaimWord s p).pattern,
          fade := (argClaimWord s p).fade, lease := lease, tag := arg s p 4 } s t ∧
      (∀ q, Announced q [] (s.scene n).channels s t) ∧ WinnersSpend (s.scene n).channels s t ∧ StageFollows s t ∧
      Accepted p (some (handleAt s slot)) (winsOn t (handleAt s slot) (s.scene n).channels) s t ∧
      OtherResultsKept p s t ∧ t.players = s.players ∧ t.lines = s.lines)

/-- The five checks of a placement by a port, in their order, for CLAIM, SCENE_INVOKE and PLAYER_START: what each
refusal answers, and that it changes nothing else (R7, R8, R12). The second check of each: for CLAIM the empty set,
the level and the lease (R9); for SCENE_INVOKE the ranges and then a scene with no entry (R76); for PLAYER_START the
ranges, then a FREE player, another holder, a state other than LOADING, an empty queue, and a LOOP of zero-time steps
alone (R98). The fields of a claim word are as wide as their ranges (R204). -/
def Obligations.PlacementChecksInOrder : Prop :=
  ∀ (p : Port) (s : State) (c : Instr) (bad : Option ResultCode) (channels : ChannelSet),
    Taken p .none s →
    let badLease := 250 < ((arg s p 3).extractLsb' 0 8).toNat
    let scene := s.scene (Fin.ofNat 16 (argNat s p 0))
    let player := s.player (Fin.ofNat 2 (argNat s p 5))
    (c = .claim p ∧ channels = arg s p 0 ∧
        bad = (if arg s p 0 = 0 ∨ 4095 < argNat s p 1 ∨ badLease then some .badArgument else none) ∨
      c = .sceneInvoke p ∧ channels = scene.channels ∧
        bad = (if 15 < argNat s p 0 ∨ badLease then some .badArgument
          else if ∀ ch : Channel, tget scene.levels ch = none then some .empty else none) ∨
      c = .playerStart p ∧ channels = arg s p 0 ∧
        bad = (if arg s p 0 = 0 ∨ 1 < argNat s p 5 ∨ 1 < field (arg s p 6) 0 2 ∨ 1 < field (arg s p 6) 4 2 ∨ badLease
            then some .badArgument
          else if player.state = .free then some .wrongState
          else if player.holder ≠ some p then some .notOwner
          else if player.state ≠ .loading then some .wrongState
          else if player.queue = [] then some .empty
          else if field (arg s p 6) 0 2 = 1 ∧ player.streamComplete = false ∧
              ∀ st ∈ player.queue, st.ramp = 0 ∧ st.hold = 0 then some .badArgument
          else none)) →
    ((s.right p).ceiling < (argClaimWord s p).priority → exec c s = .next (refusedState p .privilege 0 s)) ∧
    ((argClaimWord s p).priority ≤ (s.right p).ceiling →
      (∀ code, bad = some code → exec c s = .next (refusedState p code 0 s)) ∧
      (bad = none →
        ((s.right p).quota.val ≤ (s.right p).held →
          exec c s = .next (refusedState p .quota (s.right p).held s)) ∧
        ((s.right p).held < (s.right p).quota.val →
          ((∀ x, (s.record x).claim ≠ none) → exec c s = .next (refusedState p .full 0 s)) ∧
          ((∃ x, (s.record x).claim = none) →
            ∀ ch, inSet channels ch = true → 8 ≤ (s.entry ch).list.length →
              (∀ i, i < ch → inSet channels i = true → (s.entry i).list.length < 8) →
              exec c s = .next (refusedState p .listFull ch.val s)))))

/-- The handle checks of MODIFY and WITHDRAW, in their order (R4, R5). The checks of MODIFY after the handle: the
ceiling, then the arguments (R15). -/
def Obligations.ModifyAndWithdrawChecksInOrder : Prop :=
  (∀ (p : Port) (s : State) (c : Instr), Taken p .none s → (c = .modify p ∨ c = .withdraw p) →
    (handleOf (arg s p 0) = none → exec c s = .next (refusedState p .badArgument 0 s)) ∧
    (∀ h, handleOf (arg s p 0) = some h →
      ((s.record h.slot).claim = none ∨ (s.record h.slot).gen ≠ h.gen →
        exec c s = .next (refusedState p .stale 0 s)) ∧
      ∀ x, (s.record h.slot).claim = some x → (s.record h.slot).gen = h.gen → x.owner ≠ .port p →
        exec c s = .next (refusedState p .notOwner 0 s))) ∧
  (∀ (p : Port) (s : State) (h : Handle) (c : Claim), Taken p .none s → handleOf (arg s p 0) = some h →
    claimAt s h = some c → c.owner = .port p →
    let f := fieldSelectOf (arg s p 5)
    let op := (arg s p 3).extractLsb' 8 2
    let length := ((arg s p 3).extractLsb' 0 8).toNat
    let above := f.priority = true ∧ (s.right p).ceiling < (argClaimWord s p).priority
    (above → exec (.modify p) s = .next (refusedState p .privilege 0 s)) ∧
    (¬ above →
      ((arg s p 5).extractLsb' 0 6 = 0 ∨
        (f.level = true ∧ ((∀ v, c.source ≠ .fixed v) ∨ 4095 < argNat s p 1)) ∨
        (f.lease = true ∧ (op = 3 ∨ (op = 0 ∧ (length = 0 ∨ 250 < length)) ∨ (op = 1 ∧ c.lease = none)))) →
      exec (.modify p) s = .next (refusedState p .badArgument 0 s)))

/-- A MODIFY that passes its checks changes the chosen fields of the record, moves it to the head of its new class
where its priority changes, redoes resolution where a level, a pattern or a changed priority is chosen, and answers
with the handle and the channels won (R16, R17, R58). What the modulator is handed, a chosen fade on the channels won
included (R44 to R47); each port's notices are the WINNER notices and the stage's move, and nothing else (R48); demand
and the stage follow (R156, R157, R159). -/
def Obligations.ModifyChangesChosenFields : Prop :=
  ∀ (p : Port) (s : State) (h : Handle) (c : Claim), Taken p .none s → handleOf (arg s p 0) = some h →
    claimAt s h = some c → c.owner = .port p → ListsInv s →
    ¬ ((fieldSelectOf (arg s p 5)).priority = true ∧ (s.right p).ceiling < (argClaimWord s p).priority) →
    modifyArguments p c s = false →
    let f := fieldSelectOf (arg s p 5)
    let length := ((arg s p 3).extractLsb' 0 8).toNat
    ∃ t c', exec (.modify p) s = .next t ∧ claimAt t h = some c' ∧
      c'.active = c.active ∧ c'.owner = c.owner ∧ c'.channels = c.channels ∧
      (f.level = true → c'.source = .fixed (Fin.ofNat 4096 (argNat s p 1))) ∧
      (f.level = false → c'.source = c.source) ∧
      c'.priority = (if f.priority then (argClaimWord s p).priority else c.priority) ∧
      c'.pattern = (if f.pattern then (argClaimWord s p).pattern else c.pattern) ∧
      c'.fade = (if f.fade then (argClaimWord s p).fade else c.fade) ∧
      c'.tag = (if f.tag then arg s p 4 else c.tag) ∧
      (f.lease = false → c'.lease = c.lease) ∧
      (f.lease = true → (arg s p 3).extractLsb' 8 2 = 0 →
        c'.lease = some { length := Fin.ofNat 251 length, start := s.now }) ∧
      (f.lease = true → (arg s p 3).extractLsb' 8 2 = 1 →
        c'.lease = c.lease.map fun l => { l with start := s.now }) ∧
      (f.lease = true → (arg s p 3).extractLsb' 8 2 = 2 → c'.lease = none) ∧
      (∀ x, x ≠ h.slot → t.record x = s.record x) ∧ (t.record h.slot).gen = (s.record h.slot).gen ∧
      (∀ ch, (t.entry ch).list =
        if c'.priority ≠ c.priority ∧ inSet c.channels ch = true then
          insertClass (priorityOf t) c'.priority h ((s.entry ch).list.filter fun x => decide (x ≠ h))
        else (s.entry ch).list) ∧
      (f.level = true ∨ f.pattern = true ∨ c'.priority ≠ c.priority →
        RedoneBy (if f.fade then some h else none) c.channels s t ∧ StageFollows s t ∧
        WinnersSpend c.channels s t ∧ ∀ q, Announced q [] c.channels s t) ∧
      (f.level = false → f.pattern = false → c'.priority = c.priority →
        t.resolver = s.resolver ∧ (∀ q, Announced q [] 0 s t) ∧ WinnersSpend 0 s t ∧
        (f.fade = true → StageFollows s t ∧ ∀ ch, ChanIs
          (if inSet c.channels ch = true ∧ (s.entry ch).winner = some h then
            redirect (s.entry ch).target (s.entry ch).pattern (fadeTime c'.fade) s.now (s.chan ch)
          else s.chan ch) s t ch) ∧
        (f.fade = false → t.modulator = s.modulator ∧ t.output = s.output)) ∧
      Accepted p (some h) (winsOn t h c.channels) s t ∧ OtherResultsKept p s t ∧ Kept s t ∧
      t.access = s.access ∧ t.scenes = s.scenes ∧ t.players = s.players ∧ t.lines = s.lines

/-- WITHDRAW frees the record its handle names, and WITHDRAW_ALL every record of the port that shares a channel with
the set given; an empty set is refused (R18, R19, R20, R23). No CLAIM_REMOVED and no PLAYER notice is queued: the
notices of each port are the WINNER notices of the channels freed and the stage's move (R20, R23, R48). Demand and the
stage follow (R156, R157, R159). The handle and extra word of WITHDRAW_ALL's refusal are log 27's, the model's choice.
-/
def Obligations.WithdrawFreesOwnRecords : Prop :=
  ∀ (p : Port) (s : State), Taken p .none s → ListsInv s →
    (∀ h c, handleOf (arg s p 0) = some h → claimAt s h = some c → c.owner = .port p →
      ∃ t, exec (.withdraw p) s = .next t ∧ Freed [h.slot] s t ∧ PlayersEmptied [h.slot] s t ∧
        (∀ q, Announced q [] c.channels s t) ∧ WinnersSpend c.channels s t ∧ StageFollows s t ∧
        Accepted p (some h) (winsOn s h c.channels) s t ∧ OtherResultsKept p s t ∧ t.lines = s.lines) ∧
    (arg s p 0 = 0 → exec (.withdrawAll p) s = .next (refusedState p .badArgument 0 s)) ∧
    (arg s p 0 ≠ 0 → ∃ t slots, exec (.withdrawAll p) s = .next t ∧
      slots.Nodup ∧ slots.Pairwise (fun x y => x < y) ∧
      (∀ x, x ∈ slots ↔ ∃ c, (s.record x).claim = some c ∧ c.owner = .port p ∧
        ∃ ch, inSet c.channels ch = true ∧ inSet (arg s p 0) ch = true) ∧
      Freed slots s t ∧ PlayersEmptied slots s t ∧ (∀ q, Announced q [] (coveredBy s slots) s t) ∧
      WinnersSpend (coveredBy s slots) s t ∧ StageFollows s t ∧ Accepted p none slots.length s t ∧
      OtherResultsKept p s t ∧ t.lines = s.lines)

/-- A lease that falls due frees its record; the owner is offered CLAIM_REMOVED, and ABORTED after it for a PLAYER
claim, and then the WINNER notices follow; no result register or counter moves (R20, R21, R60, R61, R106). Demand and
the stage follow (R156, R157, R159). -/
def Obligations.LeaseExpiryFreesRecord : Prop :=
  ∀ (s : State) (slot : Slot) (c : Claim) (lease : Lease) (p : Port), ListsInv s →
    (s.record slot).claim = some c → c.lease = some lease → c.owner = .port p →
    lease.start + 100 * lease.length.val ≤ s.now →
    ∃ t, exec (.leaseExpiry slot) s = .next t ∧ Freed [slot] s t ∧ PlayersEmptied [slot] s t ∧
      (∀ q, ResultsKept (s.port q) (t.port q)) ∧ t.lines = s.lines ∧ StageFollows s t ∧
      (∀ q, Announced q (removalsTold q .lease .aborted [slot] s) c.channels s t) ∧ WinnersSpend c.channels s t ∧
      (∀ v, c.source ≠ .player v → removalsTold p .lease .aborted [slot] s =
        [.claimRemoved (lowest c.channels) (handleAt s slot) p c.tag .lease]) ∧
      ∀ n, c.source = .player n → (s.player n).holder = some p → removalsTold p .lease .aborted [slot] s =
        [.claimRemoved (lowest c.channels) (handleAt s slot) p c.tag .lease,
          .player n (handleAt s slot) p c.tag .aborted]

/-- RENEW restarts every lease of the port and counts them, and nothing else changes; in OFF and INIT it is refused
WRONG_STATE (R59). -/
def Obligations.RenewRestartsOwnLeases : Prop :=
  ∀ (p : Port) (s : State),
    (refusesCommands s.output.stage = true → exec (.renew p) s = .next (refusedState p .wrongState 0 s)) ∧
    (refusesCommands s.output.stage = false →
      ∃ t, exec (.renew p) s = .next (acceptedState p none
          (recordsWhere s fun c => ownedBy p c && c.lease.isSome) { s with pool := t }) ∧
        ∀ x, tget t x =
          if slotPasses s (ownedBy p) x then
            { s.record x with claim := (s.record x).claim.map fun c =>
                { c with lease := c.lease.map fun l => { l with start := s.now } } }
          else s.record x)

/-- CHANNEL_POLICY sets policy and idle level of the set's channels, redoes resolution on them and counts the winner
changes; an argument out of range is refused (R50, R51). Each covered channel is handed to the modulator (R44 to R47);
each port's notices are the WINNER notices and the stage's move, and nothing else (R48); demand and the stage follow
(R156, R157, R159). -/
def Obligations.ChannelPolicySetsAndResolves : Prop :=
  ∀ (p : Port) (s : State), Taken p .maintenance s →
    ((arg s p 0 = 0 ∨ 4095 < argNat s p 1 ∨ 1 < argNat s p 2) →
      exec (.channelPolicy p) s = .next (refusedState p .badArgument 0 s)) ∧
    (∀ policy (idle : Level), arg s p 0 ≠ 0 → argNat s p 1 = idle.val → policyOf (argNat s p 2) = some policy →
      ∃ t, exec (.channelPolicy p) s = .next t ∧
        (∀ ch, inSet (arg s p 0) ch = true → (t.entry ch).policy = policy ∧ (t.entry ch).idle = idle) ∧
        (∀ ch, inSet (arg s p 0) ch = false →
          (t.entry ch).policy = (s.entry ch).policy ∧ (t.entry ch).idle = (s.entry ch).idle) ∧
        (∀ ch, (t.entry ch).list = (s.entry ch).list) ∧ Redone (arg s p 0) s t ∧
        (∀ q, Announced q [] (arg s p 0) s t) ∧ WinnersSpend (arg s p 0) s t ∧ StageFollows s t ∧
        Accepted p none (winnerChanges s t (arg s p 0)) s t ∧ OtherResultsKept p s t ∧
        Kept { s with resolver := t.resolver } t ∧
        t.pool = s.pool ∧ t.access = s.access ∧ t.scenes = s.scenes ∧ t.players = s.players ∧ t.lines = s.lines)

/-! ### Scenes -/

/-- The checks of the edit commands, past the port's own, in their order, with the code and the extra word of each
refusal (R70); its handle *none* is log 27, the model's choice. SCENE_PUT, SCENE_DROP and SCENE_ERASE carried out: the
entry added, replaced or removed, every entry removed, and the entry count after the edit as the extra word; nothing
else changes (R70 to R74). -/
def Obligations.SceneEditsCheckedAndMade : Prop :=
  (∀ (p : Port) (s : State), Taken p .sceneEdit s →
    ((15 < argNat s p 0 ∨ 15 < argNat s p 1 ∨ 4095 < argNat s p 2) →
      exec (.scenePut p) s = .next (refusedState p .badArgument 0 s)) ∧
    ((15 < argNat s p 0 ∨ 15 < argNat s p 1) → exec (.sceneDrop p) s = .next (refusedState p .badArgument 0 s)) ∧
    (15 < argNat s p 0 → exec (.sceneErase p) s = .next (refusedState p .badArgument 0 s)) ∧
    ∀ n : SceneNo, argNat s p 0 = n.val →
      (0 < (s.scene n).inUse →
        (argNat s p 1 ≤ 15 → argNat s p 2 ≤ 4095 →
          exec (.scenePut p) s = .next (refusedState p .inUse (s.scene n).inUse s)) ∧
        (argNat s p 1 ≤ 15 → exec (.sceneDrop p) s = .next (refusedState p .inUse (s.scene n).inUse s)) ∧
        exec (.sceneErase p) s = .next (refusedState p .inUse (s.scene n).inUse s)) ∧
      ((s.scene n).inUse = 0 → ∀ ch : Channel, argNat s p 1 = ch.val → tget (s.scene n).levels ch = none →
        exec (.sceneDrop p) s = .next (refusedState p .badArgument 0 s))) ∧
  (∀ (p : Port) (s : State) (n : SceneNo), Taken p .sceneEdit s → argNat s p 0 = n.val → (s.scene n).inUse = 0 →
    let edited : Vector (Option Level) 16 → State := fun levels =>
      s.modScene n fun x => { x with levels := levels }
    let count : Vector (Option Level) 16 → Nat := fun levels =>
      ((indexes 16).filter fun ch => (tget levels ch).isSome).length
    (∀ (ch : Channel) (v : Level), argNat s p 1 = ch.val → argNat s p 2 = v.val →
      ∃ levels, exec (.scenePut p) s = .next (acceptedState p none (count levels) (edited levels)) ∧
        ∀ i, tget levels i = if i = ch then some v else tget (s.scene n).levels i) ∧
    (∀ ch : Channel, argNat s p 1 = ch.val → tget (s.scene n).levels ch ≠ none →
      ∃ levels, exec (.sceneDrop p) s = .next (acceptedState p none (count levels) (edited levels)) ∧
        ∀ i, tget levels i = if i = ch then none else tget (s.scene n).levels i) ∧
    exec (.sceneErase p) s = .next (acceptedState p none 0 (edited (Vector.replicate 16 none))))

/-! ### Players -/

/-- PLAYER_ACQUIRE: a FREE player becomes the port's, in LOADING; one the port holds stays as it is; one another port
holds is refused BUSY with that port's number (R94, R95). The checks that the commands on a held player share (R94).
-/
def Obligations.PlayerHolderChecksAndAcquire : Prop :=
  (∀ (p : Port) (s : State), Taken p .none s →
    (1 < argNat s p 5 → exec (.playerAcquire p) s = .next (refusedState p .badArgument 0 s)) ∧
    ∀ n : PlayerNo, argNat s p 5 = n.val →
      ((s.player n).state = .free →
        exec (.playerAcquire p) s = .next (acceptedState p none 0
          (s.modPlayer n fun _ => { Player.reset with state := .loading, holder := some p }))) ∧
      ((s.player n).state ≠ .free → (s.player n).holder = some p →
        exec (.playerAcquire p) s = .next (acceptedState p none (s.player n).queue.length s)) ∧
      ∀ q, (s.player n).state ≠ .free → (s.player n).holder = some q → q ≠ p →
        exec (.playerAcquire p) s = .next (refusedState p .busy q.val s)) ∧
  (∀ (p : Port) (s : State) (c : Instr), Taken p .none s →
    c ∈ [Instr.playerPush p, .playerEnd p, .playerAbort p, .playerRelease p] →
    (1 < argNat s p 5 → exec c s = .next (refusedState p .badArgument 0 s)) ∧
    ∀ n : PlayerNo, argNat s p 5 = n.val →
      ((s.player n).state = .free → exec c s = .next (refusedState p .wrongState 0 s)) ∧
      ((s.player n).state ≠ .free → (s.player n).holder ≠ some p → exec c s = .next (refusedState p .notOwner 0 s)))

/-- PLAYER_PUSH: its refusals in order, the step appended in LOADING and PLAYING, and in STARVED begun at once from
the held level (R88, R89, R96). A zero-time step pushed in STARVED completes in the same taking, and the player, which
is not recirculating, is STARVED again at the step's level (R90, R91). Demand and the stage follow a step begun in
STARVED (R156, R157, R159). -/
def Obligations.PlayerPushQueuesStep : Prop :=
  ∀ (p : Port) (s : State) (n : PlayerNo), Taken p .none s → argNat s p 5 = n.val → (s.player n).state ≠ .free →
    (s.player n).holder = some p →
    ((4095 < argNat s p 1 ∨ 1000 < argNat s p 2 ∨ 6000 < argNat s p 3) →
      exec (.playerPush p) s = .next (refusedState p .badArgument 0 s)) ∧
    ∀ (v : Level) (ramp : Fin 1001) (hold : Fin 6001),
      argNat s p 1 = v.val → argNat s p 2 = ramp.val → argNat s p 3 = hold.val →
      let st : PlayerStep := { level := v, ramp := ramp, hold := hold }
      (((s.player n).streamComplete = true ∨ (s.player n).state = .holding) →
        exec (.playerPush p) s = .next (refusedState p .wrongState 0 s)) ∧
      ((s.player n).streamComplete = false → (s.player n).state ≠ .holding →
        (32 ≤ (s.player n).queue.length → exec (.playerPush p) s = .next (refusedState p .full 32 s)) ∧
        ((s.player n).queue.length < 32 → (s.player n).state ≠ .starved →
          exec (.playerPush p) s = .next (acceptedState p none ((s.player n).queue.length + 1)
            (s.modPlayer n fun x => { x with queue := x.queue ++ [st] }))) ∧
        ((s.player n).state = .starved → (s.player n).queue = [] → (0 < ramp.val ∨ 0 < hold.val) →
          ∃ t, exec (.playerPush p) s = .next t ∧
            t.player n = { s.player n with
              state := .playing,
              queue := if (s.player n).mode = .loop then [st] else [],
              current := some { step := st, origin := (s.player n).level, began := s.now, updates := 0 },
              level := if ramp.val = 0 then v else (s.player n).level,
              lastHanded := if ramp.val = 0 then v else (s.player n).level } ∧
            (∀ m, m ≠ n → t.player m = s.player m) ∧
            Redone (if (t.player n).level = (s.player n).lastHanded then 0 else playerChannels n s) s t ∧
            (∀ q, Announced q []
              (if (t.player n).level = (s.player n).lastHanded then 0 else playerChannels n s) s t) ∧
              WinnersSpend (if (t.player n).level = (s.player n).lastHanded then 0 else playerChannels n s) s t ∧
            StageFollows s t ∧
            Accepted p none (t.player n).queue.length s t ∧ OtherResultsKept p s t ∧ Kept s t ∧
            t.pool = s.pool ∧ t.access = s.access ∧ t.scenes = s.scenes ∧ t.lines = s.lines) ∧
        ((s.player n).state = .starved → (s.player n).queue = [] → (s.player n).mode = .oneShot →
          ramp = 0 → hold = 0 →
          ∃ t, exec (.playerPush p) s = .next t ∧
            t.player n = { s.player n with state := .starved, current := none, level := v, lastHanded := v } ∧
            (∀ m, m ≠ n → t.player m = s.player m) ∧
            Redone (if v = (s.player n).lastHanded then 0 else playerChannels n s) s t ∧ StageFollows s t ∧
            WinnersSpend (if v = (s.player n).lastHanded then 0 else playerChannels n s) s t ∧
            (∀ h x, (s.player n).claim = some h → claimAt s h = some x → ∀ q, Announced q
              (if q = p then [.player n h p x.tag .starved] else [])
              (if v = (s.player n).lastHanded then 0 else x.channels) s t) ∧
            Accepted p none 0 s t ∧ OtherResultsKept p s t ∧ Kept s t ∧
            t.pool = s.pool ∧ t.access = s.access ∧ t.scenes = s.scenes ∧ t.lines = s.lines))

/-- PLAYER_END: refused in HOLDING; in LOADING and PLAYING stream-complete is set; already set, nothing changes; a
STARVED player finishes at once, by HOLDING or by the freeing of its claim, with its notices (R97, R102, R103). Demand
and the stage follow such a finish (R156, R157, R159). -/
def Obligations.PlayerEndCompletesStream : Prop :=
  ∀ (p : Port) (s : State) (n : PlayerNo), Taken p .none s → argNat s p 5 = n.val → (s.player n).state ≠ .free →
    (s.player n).holder = some p →
    ((s.player n).state = .holding → exec (.playerEnd p) s = .next (refusedState p .wrongState 0 s)) ∧
    ((s.player n).state ≠ .holding → (s.player n).streamComplete = true →
      exec (.playerEnd p) s = .next (acceptedState p none (s.player n).queue.length s)) ∧
    ((s.player n).state = .loading ∨ (s.player n).state = .playing → (s.player n).streamComplete = false →
      exec (.playerEnd p) s = .next (acceptedState p none (s.player n).queue.length
        (s.modPlayer n fun x => { x with streamComplete := true }))) ∧
    (∀ h c, (s.player n).state = .starved → (s.player n).streamComplete = false → (s.player n).claim = some h →
      claimAt s h = some c → c.owner = .port p → c.source = .player n →
      ((s.player n).finish = .hold → ∃ t, exec (.playerEnd p) s = .next t ∧
        t.player n = { s.player n with state := .holding, current := none, streamComplete := true } ∧
        (∀ m, m ≠ n → t.player m = s.player m) ∧
        (∀ q, Announced q (if q = p then [.player n h p c.tag .finished] else []) 0 s t) ∧ WinnersSpend 0 s t ∧
        StageFollows s t ∧ Redone 0 s t ∧
        Accepted p none (s.player n).queue.length s t ∧ OtherResultsKept p s t ∧ Kept s t ∧
        t.pool = s.pool ∧ t.resolver = s.resolver ∧ t.access = s.access ∧ t.scenes = s.scenes ∧
        t.lines = s.lines) ∧
      ((s.player n).finish = .release → ListsInv s → ∃ t, exec (.playerEnd p) s = .next t ∧
        Freed [h.slot] s t ∧ t.player n = toLoading false (s.player n) ∧ (∀ m, m ≠ n → t.player m = s.player m) ∧
        (∀ q, Announced q (if q = p then
          [.claimRemoved (lowest c.channels) h p c.tag .finished, .player n h p c.tag .finished] else [])
          c.channels s t) ∧ WinnersSpend c.channels s t ∧ StageFollows s t ∧
        Accepted p none (s.player n).queue.length s t ∧ OtherResultsKept p s t ∧ t.lines = s.lines))

/-- A PLAYER_START that passes its checks places the PLAYER claim in the lowest FREE slot, resolved at level 0 (the
state `u`), and begins the first step; the extra word counts the channels won at level 0 (R89, R92, R99). Steps with
ramp 0 and hold 0 are passed through in the same taking, up to the first that takes time, and where there is none the
player is STARVED or finishes (R90, R91, R102, R103); a fall of the queue count from 9 to 8 gives LOW_WATER (R93). The
WINNER notices compare the winners before and after the whole taking and come after the notices of the player (R43,
R48), and a start that finishes with RELEASE leaves every record but its slot, every list and every count as they
were: logs 13 and 26, the model's reading. Demand and the stage follow (R156, R157, R159). -/
def Obligations.PlayerStartPlacesAndBegins : Prop :=
  ∀ (p : Port) (s : State) (n : PlayerNo) (slot : Slot) (mode : PlayerMode) (finish : FinishAction)
    (lease : Option Lease) (zeros rest : List PlayerStep),
    Taken p .none s → arg s p 0 ≠ 0 → argNat s p 5 = n.val → argMode s p = some mode → argFinish s p = some finish →
    argLease s p = some lease → (s.player n).state = .loading → (s.player n).holder = some p →
    (s.player n).queue = zeros ++ rest → AllZeroTime zeros → (∀ st more, rest = st :: more → ¬ AllZeroTime [st]) →
    (rest = [] → zeros ≠ [] ∧ (mode = .oneShot ∨ (s.player n).streamComplete = true)) →
    (argClaimWord s p).priority ≤ (s.right p).ceiling → (s.right p).held < (s.right p).quota.val →
    (s.record slot).claim = none → (∀ x, x < slot → (s.record x).claim ≠ none) →
    (∀ ch, inSet (arg s p 0) ch = true → (s.entry ch).list.length < 8) →
    let c : Claim :=
      { active := true, owner := .port p, channels := arg s p 0, priority := (argClaimWord s p).priority,
        source := .player n, pattern := (argClaimWord s p).pattern, fade := (argClaimWord s p).fade,
        lease := lease, tag := arg s p 4 }
    let h := handleAt s slot
    let atZero := s.modPlayer n fun x => { x with level := 0, lastHanded := 0 }
    let last := levelAfter zeros 0
    let started : Player :=
      { s.player n with
        state := .playing, mode := mode, finish := finish, claim := some h, level := last, lastHanded := last }
    let lowWater : Nat → List Notice := fun left =>
      if mode = .oneShot ∧ (s.player n).streamComplete = false ∧
          fallsToEight (zeros.length + rest.length) left = true then [.player n h p c.tag .lowWater] else []
    let told : State → List Notice → Prop := fun t ns =>
      (∀ q, Announced q (if q = p then ns else []) (arg s p 0) s t) ∧ WinnersSpend (arg s p 0) s t
    ∃ t u, exec (.playerStart p) s = .next t ∧ Placed slot c atZero u ∧ u.players = atZero.players ∧
      u.output = s.output ∧
      Accepted p (some h) (winsOn u h (arg s p 0)) s t ∧ OtherResultsKept p s t ∧ t.lines = s.lines ∧ Kept s t ∧
      (∀ m, m ≠ n → t.player m = s.player m) ∧ StageFollows s t ∧
      (¬ (rest = [] ∧ (s.player n).streamComplete = true ∧ finish = .release) →
        Entered slot c s t ∧ Redone (if (t.player n).level = 0 then 0 else arg s p 0) u t) ∧
      (∀ st more, rest = st :: more →
        t.player n = { started with
          queue := if mode = .loop ∧ (s.player n).streamComplete = false then more ++ zeros ++ [st] else more,
          current := some { step := st, origin := last, began := s.now, updates := 0 },
          level := if st.ramp.val = 0 then st.level else last,
          lastHanded := if st.ramp.val = 0 then st.level else last } ∧
        told t (lowWater more.length)) ∧
      (rest = [] → (s.player n).streamComplete = false →
        t.player n = { started with state := .starved, queue := [], current := none } ∧
        told t (lowWater 0 ++ [.player n h p c.tag .starved])) ∧
      (rest = [] → (s.player n).streamComplete = true → finish = .hold →
        t.player n = { started with state := .holding, queue := [], current := none } ∧
        told t [.player n h p c.tag .finished]) ∧
      (rest = [] → (s.player n).streamComplete = true → finish = .release → ListsInv s →
        t.player n = { Player.reset with state := .loading, holder := some p } ∧
        (∀ x, t.record x = if x = slot then { gen := (s.record slot).gen + 1, claim := none } else s.record x) ∧
        (∀ ch, (t.entry ch).list = (s.entry ch).list) ∧ t.access = s.access ∧ t.scenes = s.scenes ∧
        Redone (arg s p 0) s t ∧
        told t [.claimRemoved (lowest c.channels) h p c.tag .finished, .player n h p c.tag .finished])

/-- PLAYER_ABORT frees the player's claim, if it has one, and returns the player to LOADING; PLAYER_RELEASE makes it
FREE besides; each answers with the handle and the number of steps discarded. No CLAIM_REMOVED and no PLAYER notice is
queued: the notices of each port are the WINNER notices of the channels freed and the stage's move (R100, R101).
Demand and the stage follow (R156, R157, R159). -/
def Obligations.PlayerAbortAndRelease : Prop :=
  ∀ (p : Port) (s : State) (n : PlayerNo) (x : Instr) (after : Player), Taken p .none s → argNat s p 5 = n.val →
    (s.player n).state ≠ .free → (s.player n).holder = some p →
    (x = .playerAbort p ∧ after = { Player.reset with state := .loading, holder := some p } ∨
      x = .playerRelease p ∧ after = Player.reset) →
    ((s.player n).claim = none → ∃ t, exec x s = .next t ∧ t.player n = after ∧
      (∀ m, m ≠ n → t.player m = s.player m) ∧ Accepted p none (s.player n).queue.length s t ∧
      (∀ q, Announced q [] 0 s t) ∧ WinnersSpend 0 s t ∧ StageFollows s t ∧ Redone 0 s t ∧
      OtherResultsKept p s t ∧ Kept s t ∧ t.pool = s.pool ∧ t.resolver = s.resolver ∧ t.access = s.access ∧
      t.scenes = s.scenes ∧ t.lines = s.lines) ∧
    (∀ h c, ListsInv s → (s.player n).claim = some h → claimAt s h = some c → c.source = .player n →
      ∃ t, exec x s = .next t ∧ t.player n = after ∧ (∀ m, m ≠ n → t.player m = s.player m) ∧
        Freed [h.slot] s t ∧ (∀ q, Announced q [] c.channels s t) ∧ WinnersSpend c.channels s t ∧ StageFollows s t ∧
        Accepted p (some h) (s.player n).queue.length s t ∧ OtherResultsKept p s t ∧ t.lines = s.lines)

/-- A ramp update that is due sets the level to the origin plus the change times k / r, the fraction discarded toward
the origin, and hands a changed level to the resolver of the claim's channels (R36, R89, R92); at the last update of a
step with hold 0 the step stays current, and its completion is a second event of the same instant (log 16, the model's
reading). The completion of a step that is due: steps with ramp 0 and hold 0 are passed through in the same taking,
then the next step that takes time begins, or the player is STARVED, or it finishes with HOLD or RELEASE, as the queue
and stream-complete say (R89, R90, R91, R102, R103); a fall of the queue count from 9 to 8 gives LOW_WATER, ahead of
those notices (R93); the level with which the taking ends is handed once (R92, log 14). Demand and the stage follow
(R156, R157, R159). -/
def Obligations.PlayerTimedEvents : Prop :=
  (∀ (s : State) (n : PlayerNo) (c : CurrentStep), (s.player n).current = some c → c.updates < c.step.ramp.val →
    c.began + 10 * (c.updates + 1) ≤ s.now →
    ∃ t, exec (.rampUpdate n) s = .next t ∧
      t.player n = { s.player n with
        level := (t.player n).level, lastHanded := (t.player n).level,
        current := some { c with updates := c.updates + 1 } } ∧
      (c.origin ≤ c.step.level → (t.player n).level.val =
        c.origin.val + (c.step.level.val - c.origin.val) * (c.updates + 1) / c.step.ramp.val) ∧
      (c.step.level ≤ c.origin → (t.player n).level.val =
        c.origin.val - (c.origin.val - c.step.level.val) * (c.updates + 1) / c.step.ramp.val) ∧
      (∀ m, m ≠ n → t.player m = s.player m) ∧
      Redone (if (t.player n).level = (s.player n).lastHanded then 0 else playerChannels n s) s t ∧
      (∀ q, Announced q [] (if (t.player n).level = (s.player n).lastHanded then 0 else playerChannels n s) s t) ∧
      WinnersSpend (if (t.player n).level = (s.player n).lastHanded then 0 else playerChannels n s) s t ∧
      StageFollows s t ∧ Kept s t ∧ (∀ p, ResultsKept (s.port p) (t.port p)) ∧ t.pool = s.pool ∧
      t.access = s.access ∧ t.scenes = s.scenes ∧ t.lines = s.lines) ∧
  (∀ (s : State) (n : PlayerNo) (c : CurrentStep) (zeros rest : List PlayerStep),
    (s.player n).current = some c → c.updates = c.step.ramp.val →
    c.began + 10 * (c.step.ramp.val + c.step.hold.val) ≤ s.now → (s.player n).lastHanded = (s.player n).level →
    (s.player n).queue = zeros ++ rest → AllZeroTime zeros →
    let last := levelAfter zeros (s.player n).level
    let falls : Nat → Bool := fun left =>
      (s.player n).state == .playing && (s.player n).mode == .oneShot && !(s.player n).streamComplete &&
        fallsToEight (zeros.length + rest.length) left
    let changed : Level → ChannelSet := fun v => if v = (s.player n).level then 0 else playerChannels n s
    (∀ st more, rest = st :: more → ¬ AllZeroTime [st] →
      ∃ t, exec (.stepCompletion n) s = .next t ∧
        t.player n = { s.player n with
          queue := if (s.player n).recirculating then more ++ zeros ++ [st] else more,
          current := some { step := st, origin := last, began := s.now, updates := 0 },
          level := if st.ramp.val = 0 then st.level else last,
          lastHanded := if st.ramp.val = 0 then st.level else last } ∧
        (∀ m, m ≠ n → t.player m = s.player m) ∧ Redone (changed (t.player n).level) s t ∧
        WinnersSpend (changed (t.player n).level) s t ∧
        (∀ h p x, (s.player n).claim = some h → (s.player n).holder = some p → claimAt s h = some x →
          ∀ q, Announced q (if q = p ∧ falls more.length = true then [.player n h p x.tag .lowWater] else [])
            (changed (t.player n).level) s t) ∧
        StageFollows s t ∧ Kept s t ∧ (∀ p, ResultsKept (s.port p) (t.port p)) ∧ t.pool = s.pool ∧
        t.access = s.access ∧ t.scenes = s.scenes ∧ t.lines = s.lines) ∧
    (∀ h p x, rest = [] → (zeros = [] ∨ (s.player n).recirculating = false) →
      (s.player n).claim = some h → (s.player n).holder = some p →
      claimAt s h = some x → x.owner = .port p → x.source = .player n →
      let ended : PlayerState → Player := fun state =>
        { s.player n with state := state, current := none, queue := [], level := last, lastHanded := last }
      ((s.player n).streamComplete = false → ∃ t, exec (.stepCompletion n) s = .next t ∧
        t.player n = ended .starved ∧
        (∀ q, Announced q (if q = p then
          (if falls 0 then [.player n h p x.tag .lowWater] else []) ++ [.player n h p x.tag .starved] else [])
          (changed last) s t) ∧
        WinnersSpend (changed last) s t ∧
        (∀ m, m ≠ n → t.player m = s.player m) ∧ StageFollows s t ∧ Kept s t ∧
        (∀ q, ResultsKept (s.port q) (t.port q)) ∧
        Redone (changed last) s t ∧ (last = (s.player n).level → t.resolver = s.resolver) ∧
        t.pool = s.pool ∧ t.access = s.access ∧ t.scenes = s.scenes ∧ t.lines = s.lines) ∧
      ((s.player n).streamComplete = true → (s.player n).finish = .hold →
        ∃ t, exec (.stepCompletion n) s = .next t ∧
          t.player n = ended .holding ∧
          (∀ q, Announced q (if q = p then [.player n h p x.tag .finished] else []) (changed last) s t) ∧
          WinnersSpend (changed last) s t ∧
          (∀ m, m ≠ n → t.player m = s.player m) ∧ StageFollows s t ∧ Kept s t ∧
          (∀ q, ResultsKept (s.port q) (t.port q)) ∧
          Redone (changed last) s t ∧ (last = (s.player n).level → t.resolver = s.resolver) ∧
          t.pool = s.pool ∧ t.access = s.access ∧ t.scenes = s.scenes ∧ t.lines = s.lines) ∧
      ((s.player n).streamComplete = true → (s.player n).finish = .release → ListsInv s →
        ∃ t, exec (.stepCompletion n) s = .next t ∧ Freed [h.slot] s t ∧
          t.player n = { Player.reset with state := .loading, holder := some p } ∧
          (∀ q, Announced q (if q = p then
            [.claimRemoved (lowest x.channels) h p x.tag .finished, .player n h p x.tag .finished] else [])
            x.channels s t) ∧ WinnersSpend x.channels s t ∧
          (∀ m, m ≠ n → t.player m = s.player m) ∧ StageFollows s t ∧ (∀ q, ResultsKept (s.port q) (t.port q)) ∧
          t.lines = s.lines)))

/-! ### Event lines -/

/-- A change of a raw input: seen in the raw input alone in OFF and INIT; else with filter 0 a change away from the
filtered value qualifies at once, with a filter it starts the interval, and a change back cancels it (R111, R123). The
end of a stretch makes the line QUIET and is an activity end, announced to the LINE watches before the winners that
change by it; the one-shot watches that these events match are freed, and no other watch moves; demand and the stage
follow (R113, R114, R115, R120, R156, R157, R159, R179). -/
def Obligations.LineInputChangeAndStretchEnd : Prop :=
  (∀ (s : State) (l : Line),
    let flipped : LineState → LineState := fun x => { x with raw := !x.raw }
    (refusesCommands s.output.stage = true → exec (.lineInputChange l) s = .next (s.modLine l flipped)) ∧
    (refusesCommands s.output.stage = false →
      ((s.line l).raw ≠ (s.line l).filtered →
        exec (.lineInputChange l) s = .next (s.modLine l fun x => { flipped x with filterEnd := none })) ∧
      ((s.line l).raw = (s.line l).filtered → 0 < (s.line l).filter.val →
        exec (.lineInputChange l) s =
          .next (s.modLine l fun x => { flipped x with filterEnd := some (s.now + x.filter.val) })) ∧
      ((s.line l).raw = (s.line l).filtered → (s.line l).filter.val = 0 →
        exec (.lineInputChange l) s =
          exec (.filterIntervalEnd l) (s.modLine l fun x => { flipped x with filterEnd := some s.now })))) ∧
  (∀ (s : State) (l : Line), dueAt (s.line l).stretchEnd s.now = true →
    ∃ t, exec (.stretchEnd l) s = .next t ∧ LineFrame l s t ∧ Follows l false s t ∧
      t.line l = { s.line l with activity := .quiet, stretchEnd := none } ∧ LineAnnounced l .stop s t)

/-- A qualification under LEVEL sense: the filtered value takes the raw input's, and the activity state moves as the
table of R113 says, with a start, an end or no event (R111, R112, R113, R120); in the three cells that R113 says
cannot arise nothing else moves, which is log 20, the model's choice. A qualification under EDGE sense: a qualifying
edge starts the stretch, restarts it, or with stretch 0 brings a start and an end together, two takings one after the
other, the line active for the gates in the first (R49, R112, R114, R115, log 12); another edge moves the filtered
value alone. Each start and each end is announced to the LINE watches, before the winners that change by it (R115,
R186), and demand and the stage follow it (R156, R157, R159). -/
def Obligations.LineQualifies : Prop :=
  (∀ (s : State) (l : Line), (s.line l).sense = .level → dueAt (s.line l).filterEnd s.now = true →
    ∃ t, exec (.filterIntervalEnd l) s = .next t ∧
      LineFrame l s t ∧ (t.line l).filtered = (s.line l).raw ∧ (t.line l).filterEnd = none ∧
      let isMatch := if (s.line l).polarity = .first then (s.line l).raw else !(s.line l).raw
      let length := 10 * (s.line l).stretch.val
      let same := t.pool = s.pool ∧ t.resolver = s.resolver ∧ t.ports = s.ports ∧ t.watches = s.watches ∧
        t.modulator = s.modulator ∧ t.output = s.output
      ((s.line l).activity = .quiet → isMatch = true →
        (t.line l).activity = .asserted ∧ (t.line l).stretchEnd = (s.line l).stretchEnd ∧ Follows l true s t ∧
          LineAnnounced l .start s t) ∧
      ((s.line l).activity = .asserted → isMatch = false →
        (0 < length → (t.line l).activity = .stretch ∧ (t.line l).stretchEnd = some (s.now + length) ∧ same) ∧
        (length = 0 → (t.line l).activity = .quiet ∧ (t.line l).stretchEnd = (s.line l).stretchEnd ∧
          Follows l false s t ∧ LineAnnounced l .stop s t)) ∧
      ((s.line l).activity = .stretch → isMatch = true →
        (t.line l).activity = .asserted ∧ (t.line l).stretchEnd = none ∧ same) ∧
      (((s.line l).activity = .quiet ∧ isMatch = false ∨ (s.line l).activity = .asserted ∧ isMatch = true ∨
          (s.line l).activity = .stretch ∧ isMatch = false) →
        (t.line l).activity = (s.line l).activity ∧ (t.line l).stretchEnd = (s.line l).stretchEnd ∧ same)) ∧
  (∀ (s : State) (l : Line), (s.line l).sense = .edge → dueAt (s.line l).filterEnd s.now = true →
    ∃ t, exec (.filterIntervalEnd l) s = .next t ∧
      LineFrame l s t ∧ (t.line l).filtered = (s.line l).raw ∧ (t.line l).filterEnd = none ∧
      let qualifies := (s.line l).anyEdge || (if (s.line l).polarity = .first then (s.line l).raw else !(s.line l).raw)
      let length := 10 * (s.line l).stretch.val
      let same := t.pool = s.pool ∧ t.resolver = s.resolver ∧ t.ports = s.ports ∧ t.watches = s.watches ∧
        t.modulator = s.modulator ∧ t.output = s.output
      (qualifies = false → (t.line l).activity = (s.line l).activity ∧
        (t.line l).stretchEnd = (s.line l).stretchEnd ∧ same) ∧
      (qualifies = true → (s.line l).activity = .stretch →
        (t.line l).activity = .stretch ∧ (t.line l).stretchEnd = some (s.now + length) ∧ same) ∧
      (qualifies = true → (s.line l).activity = .quiet → 0 < length →
        (t.line l).activity = .stretch ∧ (t.line l).stretchEnd = some (s.now + length) ∧ Follows l true s t ∧
          LineAnnounced l .start s t) ∧
      (qualifies = true → (s.line l).activity = .quiet → length = 0 →
        (t.line l).activity = .quiet ∧ (t.line l).stretchEnd = (s.line l).stretchEnd ∧
        ∃ u, (u.line l).isActive = true ∧ Follows l true s u ∧ LineAnnounced l .start s u ∧
          (∀ ch, (u.out ch).cleanEnd = if cleanHolds u ch then some (((s.out ch).cleanEnd).getD (s.now + 10000)) else none) ∧
          Follows l false u t ∧ LineAnnounced l .stop u t ∧ LineFrame l u t ∧
          ∀ ch, (t.out ch).cleanEnd = if cleanHolds t ch then some (((u.out ch).cleanEnd).getD (s.now + 10000)) else none))

/-- LINE_CONFIG stores the settings, ends filter and stretch, takes the filtered value and the activity afresh, hands
the activity event that the difference makes, with its LINE notice, and answers whether the line is active; a value
out of range is refused, with handle *none* and extra 0 by log 27, the model's choice (R115, R117). Demand and the
stage follow an activity event (R156, R157, R159). -/
def Obligations.LineConfigTakesActivityAfresh : Prop :=
  ∀ (p : Port) (s : State), Taken p .maintenance s →
    ((7 < argNat s p 5 ∨ 1 < field (arg s p 1) 0 2 ∨ 1 < field (arg s p 1) 4 2 ∨ 15 < argNat s p 2 ∨
        255 < argNat s p 3) → exec (.lineConfig p) s = .next (refusedState p .badArgument 0 s)) ∧
    ∀ (l : Line) sense polarity (filter : Fin 16) (stretch : Fin 256), argNat s p 5 = l.val →
      senseOf (field (arg s p 1) 0 2) = some sense → polarityOf (field (arg s p 1) 4 2) = some polarity →
      argNat s p 2 = filter.val → argNat s p 3 = stretch.val →
      let isMatch := if polarity = .first then (s.line l).raw else !(s.line l).raw
      let active := decide (sense = .level) && isMatch
      ∃ t, exec (.lineConfig p) s = .next t ∧
        t.line l = { s.line l with
          sense := sense, polarity := polarity, anyEdge := (arg s p 1).getLsbD 8, filter := filter,
          stretch := stretch, filterEnd := none, stretchEnd := none, filtered := (s.line l).raw,
          activity := if active then .asserted else .quiet } ∧
        (∀ k, k ≠ l → t.line k = s.line k) ∧
        ((s.line l).isActive = active → t.pool = s.pool ∧ t.resolver = s.resolver ∧
          t.modulator = s.modulator ∧ t.output = s.output ∧ ∀ q, Queued [] (s.port q) (t.port q)) ∧
        ((s.line l).isActive = true → active = false → Follows l false s t ∧ LineAnnounced l .stop s t) ∧
        ((s.line l).isActive = false → active = true → Follows l true s t ∧ LineAnnounced l .start s t) ∧
        Accepted p none (if active then 1 else 0) s t ∧ OtherResultsKept p s t ∧ Kept s t ∧
        t.access = s.access ∧ t.scenes = s.scenes ∧ t.players = s.players

/-- LINE_BIND: its refusals in order, and the template stored and its record placed, ACTIVE where the line is active
(R118, R119). LINE_UNBIND frees the line's record and clears the binding; an unbound line is refused (R121), with handle
*none* and extra 0 by log 27, the model's choice. Each port's notices are the WINNER notices and the stage's move, and
nothing else (R48); demand and the stage follow (R156, R157, R159). -/
def Obligations.LineBindAndUnbind : Prop :=
  (∀ (p : Port) (s : State), Taken p .maintenance s →
    (7 < argNat s p 5 → exec (.lineBind p) s = .next (refusedState p .badArgument 0 s)) ∧
    ∀ l : Line, argNat s p 5 = l.val →
      ((s.line l).binding ≠ none → exec (.lineBind p) s = .next (refusedState p .inUse 0 s)) ∧
      ((s.line l).binding = none →
        ((arg s p 0 = 0 ∨ 4095 < argNat s p 1) →
          exec (.lineBind p) s = .next (refusedState p .badArgument 0 s)) ∧
        ∀ level : Level, arg s p 0 ≠ 0 → argNat s p 1 = level.val →
          ((∀ x, (s.record x).claim ≠ none) → exec (.lineBind p) s = .next (refusedState p .full 0 s)) ∧
          ((∃ x, (s.record x).claim = none) → ∀ ch, inSet (arg s p 0) ch = true → 8 ≤ (s.entry ch).list.length →
            (∀ i, i < ch → inSet (arg s p 0) i = true → (s.entry i).list.length < 8) →
            exec (.lineBind p) s = .next (refusedState p .listFull ch.val s)) ∧
          ∀ slot, (s.record slot).claim = none → (∀ x, x < slot → (s.record x).claim ≠ none) →
            (∀ ch, inSet (arg s p 0) ch = true → (s.entry ch).list.length < 8) →
            let template : Template :=
              { channels := arg s p 0, priority := (argClaimWord s p).priority, level := level,
                pattern := (argClaimWord s p).pattern, fade := (argClaimWord s p).fade }
            ∃ t, exec (.lineBind p) s = .next t ∧
              Placed slot
                { active := (s.line l).isActive, owner := .line l, channels := arg s p 0,
                  priority := (argClaimWord s p).priority, source := .fixed level,
                  pattern := (argClaimWord s p).pattern, fade := (argClaimWord s p).fade, lease := none,
                  tag := 0 } s t ∧
              t.line l = { s.line l with binding := some template, claim := some (handleAt s slot) } ∧
              (∀ k, k ≠ l → t.line k = s.line k) ∧
              (∀ q, Announced q [] (arg s p 0) s t) ∧ WinnersSpend (arg s p 0) s t ∧ StageFollows s t ∧
              Accepted p (some (handleAt s slot)) (winsOn t (handleAt s slot) (arg s p 0)) s t ∧
              OtherResultsKept p s t ∧ t.players = s.players)) ∧
  (∀ (p : Port) (s : State), Taken p .maintenance s →
    (7 < argNat s p 5 → exec (.lineUnbind p) s = .next (refusedState p .badArgument 0 s)) ∧
    ∀ l : Line, argNat s p 5 = l.val →
      ((s.line l).binding = none → exec (.lineUnbind p) s = .next (refusedState p .wrongState 0 s)) ∧
      (∀ h c, (s.line l).binding ≠ none → (s.line l).claim = some h → claimAt s h = some c → c.owner = .line l →
        (∀ n, c.source ≠ .player n) → ListsInv s →
        ∃ t, exec (.lineUnbind p) s = .next t ∧ Freed [h.slot] s t ∧
          t.line l = { s.line l with binding := none, claim := none } ∧ (∀ k, k ≠ l → t.line k = s.line k) ∧
          (∀ q, Announced q [] c.channels s t) ∧ WinnersSpend c.channels s t ∧ StageFollows s t ∧
          Accepted p (some h) (winsOn s h c.channels) s t ∧ OtherResultsKept p s t ∧ t.players = s.players))

/-! ### Fades, patterns and the lamp test -/

/-- The output level of a channel: 0 where closed; else the test level 3072 while a lamp test runs, the fade level
where the gate is lit and 0 where it is dark, and no more than the derate ceiling while OVERTEMP_WARN is present
(R126, R141). The gate of a channel is that of its target pattern, and the gate of each pattern (R138). The fade level
of a channel at an instant: 0 while PARKED, the target once SETTLED or at the end of the fade; before it the origin
plus the change times t / D under LINEAR, and times (1 - cos (π t / D)) / 2 under SMOOTH, the fraction discarded
toward the origin (R127, R128), where the model's progress, a number of units of 2^-64 (log 11), is the exact one to
within 2^-56, and one half at the middle. -/
def Obligations.OutputLevelAndGate : Prop :=
  (∀ (s : State) (ch : Channel),
    let isOpen := s.output.stage = .active ∧ (s.out ch).enabled = true ∧ (s.out ch).fault = .ready
    let before : Level :=
      if s.lampTest = none then (if gateLit s ch then fadeLevel (s.chan ch) s.now else 0) else 3072
    gateLit s ch = gateOf s (s.chan ch).pattern ∧
    (¬ isOpen → outputLevel s ch = 0) ∧
    (isOpen → outputLevel s ch =
      if s.output.supply.overtempWarn then (if before ≤ s.derateCeiling then before else s.derateCeiling) else before)) ∧
  (∀ (s : State) (k : ClockNo) (l : Line),
    let onHalf := (s.clock k).offHalf = false
    let active := (s.line l).activity = .asserted ∨ (s.line l).activity = .stretch
    gateOf s .steady = true ∧
    (gateOf s (.blink k .normal) = true ↔ onHalf) ∧
    (gateOf s (.blink k .inverted) = true ↔ ¬ onHalf) ∧
    (gateOf s (.flash l) = true ↔ active) ∧
    (gateOf s (.combine l k) = true ↔ (¬ active ∨ onHalf))) ∧
  (∀ (m : ModChannel) (now : Instant),
    (m.fade = .parked → fadeLevel m now = 0) ∧ (m.fade = .settled → fadeLevel m now = m.target) ∧
    ∀ origin d start shape, m.fade = .fading origin d start shape →
      let level : Nat := (fadeLevel m now).val
      let partOf : Nat → Nat → Prop := fun num den =>
        (origin ≤ m.target → level = origin.val + (m.target.val - origin.val) * num / den) ∧
        (m.target ≤ origin → level = origin.val - (origin.val - m.target.val) * num / den)
      (start + d ≤ now → fadeLevel m now = m.target) ∧
      ∀ t : Nat, now = start + t → t < d →
        (shape = .linear → partOf t d) ∧
        (shape = .smooth → ∃ num : Nat, partOf num (2 ^ 64) ∧ (2 * t = d → num = 2 ^ 63) ∧
          |(num : ℝ) / 2 ^ 64 - (1 - Real.cos (Real.pi * t / d)) / 2| ≤ 1 / 2 ^ 56))

/-- CHANNEL_FADE, CLOCK_CONFIG and DERATE_CONFIG: their refusals, and what they store. A clock restarts in its ON-
half, and the clean intervals follow the output levels (R133, R136, R140, R172). The end of a clock's half begins the
other half, and a fade that reaches its duration settles at its target; the clean intervals follow the output levels,
and nothing else changes (R127, R135, R172). What opening and closing do to a channel: closed, it is PARKED; opened,
it fades from 0 to the target it holds over its default fade, SETTLED at once where the target or the index is 0; open
already, it goes on (R131). The handle and extra word of the refusals are log 27's, the model's choice. -/
def Obligations.ModulatorSettingsAndTimedEvents : Prop :=
  (∀ (p : Port) (s : State), Taken p .maintenance s →
    ((arg s p 0 = 0 ∨ 7 < argNat s p 1 ∨ 1 < argNat s p 2) →
      exec (.channelFade p) s = .next (refusedState p .badArgument 0 s)) ∧
    (∀ (i : FadeIndex) shape, arg s p 0 ≠ 0 → argNat s p 1 = i.val → shapeOf (argNat s p 2) = some shape →
      ∃ m, exec (.channelFade p) s =
          .next (acceptedState p none (members (arg s p 0)).length { s with modulator := m }) ∧
        ∀ ch, tget m ch = if inSet (arg s p 0) ch then
          { s.chan ch with defaultIndex := i, defaultShape := shape } else s.chan ch) ∧
    ((3 < argNat s p 0 ∨ argNat s p 1 = 0 ∨ 127 < argNat s p 1) →
      exec (.clockConfig p) s = .next (refusedState p .badArgument 0 s)) ∧
    (∀ (k : ClockNo) (half : Fin 128), argNat s p 0 = k.val → argNat s p 1 = half.val → 0 < half.val →
      exec (.clockConfig p) s = .next (acceptedState p none 0 (cleanChannels
        (s.modClock k fun _ => { halfPeriod := half, offHalf := false, began := some s.now })))) ∧
    (4095 < argNat s p 1 → exec (.derateConfig p) s = .next (refusedState p .badArgument 0 s)) ∧
    (∀ v : Level, argNat s p 1 = v.val →
      exec (.derateConfig p) s = .next (acceptedState p none (if s.output.supply.overtempWarn then 1 else 0)
        (cleanChannels { s with derateCeiling := v })))) ∧
  (∀ s : State,
    (∀ (k : ClockNo) (began : Instant), (s.clock k).began = some began →
      began + 20 * (s.clock k).halfPeriod.val ≤ s.now →
      exec (.clockHalfEnd k) s = .next (cleanChannels
        (s.modClock k fun c => { c with offHalf := !c.offHalf, began := some s.now }))) ∧
    (∀ (ch : Channel) origin d start shape, (s.chan ch).fade = .fading origin d start shape → start + d ≤ s.now →
      exec (.fadeCompletion ch) s = .next (cleanChannels (s.modChan ch fun m => { m with fade := .settled })))) ∧
  (∀ (now : Instant) (m : ModChannel),
    openOrClose false now m = { m with fade := .parked } ∧
    (m.fade ≠ .parked → openOrClose true now m = m) ∧
    (m.fade = .parked → openOrClose true now m = { m with
      fade := if m.defaultIndex = 0 ∨ m.target = 0 then .settled
        else .fading 0 (fadeTime m.defaultIndex) now m.defaultShape }))

/-- LAMP_TEST: its refusals in order, and the test started or restarted for the seconds given (R143, R144, R156). The
expiry of the lamp test begins an end fade from 3072 over the default fade on each open channel, and demand is read
afresh (R146, R156, R159). An expiry in STANDBY begins no end fade, every channel being closed; the stage stays there
as HOLD or a forcing condition holds it or demand is absent, and goes to SOFTSTART otherwise (R147, R157). Each port's
notices are the STAGE notice of the stage's move, and nothing else (R153). -/
def Obligations.LampTestStartsAndExpires : Prop :=
  (∀ (p : Port) (s : State), Taken p .maintenance s →
    ((argNat s p 1 = 0 ∨ 30 < argNat s p 1) →
      exec (.lampTest p) s = .next (refusedState p .badArgument 0 s)) ∧
    (0 < argNat s p 1 → argNat s p 1 ≤ 30 →
      ((s.output.hold = true ∨ s.output.stage = .recovery ∨ s.output.stage = .latched) →
        exec (.lampTest p) s = .next (refusedState p .wrongState 0 s)) ∧
      (s.output.hold = false → s.output.stage ≠ .recovery → s.output.stage ≠ .latched →
        ∃ t, exec (.lampTest p) s = .next t ∧ t.lampTest = some (s.now + 1000 * argNat s p 1) ∧
          t.output.demand = true ∧ StageFollows { s with lampTest := t.lampTest } t ∧
          (s.output.stage = .standby →
            t.output.stage = if s.output.supply.forcing then .standby else .softstart) ∧
          (s.output.stage ≠ .standby → t.output.stage = s.output.stage) ∧
          (s.output.stage = .active → t.output.standbyEnd = none) ∧ (∀ ch, ChanIs (s.chan ch) s t ch) ∧
          (∀ q, Queued (stageTold s t) (s.port q) (t.port q)) ∧ t.watches = s.watches ∧
          Accepted p none (if s.lampTest = none then 0 else 1) s t ∧ OtherResultsKept p s t ∧
          Kept { s with lampTest := t.lampTest } t ∧ t.pool = s.pool ∧ t.resolver = s.resolver ∧
          t.access = s.access ∧ t.scenes = s.scenes ∧ t.players = s.players ∧ t.lines = s.lines))) ∧
  (∀ (s : State) (ends : Instant), s.lampTest = some ends → ends ≤ s.now → s.output.stage ≠ .standby →
    ∃ t, exec .lampTestExpiry s = .next t ∧ t.lampTest = none ∧
      (∀ ch, isOpen s ch = true → t.chan ch = { s.chan ch with
        fade :=
          if fadeTime (s.chan ch).defaultIndex = 0 ∨ (s.chan ch).target = 3072 then .settled
          else .fading 3072 (fadeTime (s.chan ch).defaultIndex) s.now (s.chan ch).defaultShape }) ∧
      (∀ ch, isOpen s ch = false → t.chan ch = s.chan ch) ∧
      t.output = withDemand s.now (demandNow t) s.output ∧
      t = { s with lampTest := none, modulator := t.modulator, output := t.output, outs := t.outs } ∧
      ∀ ch, t.out ch = { s.out ch with cleanEnd := (t.out ch).cleanEnd }) ∧
  (∀ (s : State) (ends : Instant), ModulatorInv s → s.lampTest = some ends → ends ≤ s.now → s.output.stage = .standby →
    let moves := demandNow { s with lampTest := none } && !s.output.hold && !s.output.supply.forcing
    ∃ t, exec .lampTestExpiry s = .next t ∧ t.modulator = s.modulator ∧ demandNow t = demandNow { s with lampTest := none } ∧
      t.output = (if moves then { s.output.idle with
          stage := .softstart, lastCause := .demand, softEnd := some (s.now + 20), demand := true }
        else { s.output with demand := demandNow t }) ∧
      (∀ p, Queued (if moves then [.stage .softstart .demand] else []) (s.port p) (t.port p)) ∧
      t = { s with lampTest := none, output := t.output, outs := t.outs, ports := t.ports } ∧
      ∀ ch, t.out ch = { s.out ch with cleanEnd := none })

/-! ### Output stage -/

/-- HOLD asserted ends a lamp test and takes SOFTSTART and ACTIVE to STANDBY; HOLD released may take STANDBY to
SOFTSTART; in every other stage each is recorded, and no interval, timer or count moves (R147, R157, R161). Each
port's notices are the STAGE notice of the move, and nothing else (R153). -/
def Obligations.HoldLineTaken : Prop :=
  ∀ s : State, ModulatorInv s →
    (∃ t, exec .holdAsserted s = .next t ∧ LampSide s t ∧ FaultsKept s t ∧ t.lampTest = none ∧
      t.watches = s.watches ∧
      ((s.output.stage = .softstart ∨ s.output.stage = .active) →
        t.output = { s.output.idle with
          stage := .standby, lastCause := .hold, hold := true, demand := demandNow t } ∧
        (∀ ch, (t.out ch).cleanEnd = none) ∧
        ∀ p, Queued [.stage .standby .hold] (s.port p) (t.port p)) ∧
      (s.output.stage ≠ .softstart → s.output.stage ≠ .active →
        t.output = { s.output with hold := true, demand := demandNow t } ∧ t.ports = s.ports)) ∧
    (∃ t, exec .holdReleased s = .next t ∧ LampSide s t ∧ FaultsKept s t ∧ t.lampTest = s.lampTest ∧
      t.watches = s.watches ∧ t.output.hold = false ∧ t.output.demand = demandNow t ∧
      (s.output.stage = .standby → demandNow s = true → s.output.supply.forcing = false →
        t.output = { s.output.idle with
          stage := .softstart, lastCause := .holdRelease, softEnd := some (s.now + 20), hold := false,
          demand := true } ∧ ∀ p, Queued [.stage .softstart .holdRelease] (s.port p) (t.port p)) ∧
      ((s.output.stage ≠ .standby ∨ demandNow s = false ∨ s.output.supply.forcing = true) →
        t.output = withDemand s.now (demandNow t) { s.output with hold := false } ∧ t.modulator = s.modulator ∧
        t.ports = s.ports))

/-- The onset of a supply condition: nothing where it is present already; recorded; and where it is a forcing
condition in SOFTSTART or ACTIVE, one more recovery and RECOVERY, or LATCHED at the fourth (R162, R163, R171). The
clearing of a supply condition: nothing where it is absent already; recorded; and the clearing of the last forcing
condition in STANDBY with demand present and HOLD released starts the lamps (R157, R162); any other clearing moves no
interval, timer or count, but for the standby delay by the demand as it is (R159, R164). Each port's notices are the
STAGE notice of the move, and nothing else (R153). -/
def Obligations.SupplyConditionsTaken : Prop :=
  (∀ (s : State) (x : SupplyCondition),
    (s.output.supply.get x = true → exec (.supplyOnset x) s = .next s) ∧
    (s.output.supply.get x = false →
      (x = .overtempWarn → exec (.supplyOnset x) s =
        .next (cleanChannels { s with output := { s.output with supply := s.output.supply.put x true } })) ∧
      (∀ cause, forcingCause x = some cause →
        (s.output.stage ≠ .softstart → s.output.stage ≠ .active →
          exec (.supplyOnset x) s =
            .next { s with output := { s.output with supply := s.output.supply.put x true } }) ∧
        (s.output.stage = .softstart ∨ s.output.stage = .active → ModulatorInv s →
          ∃ t, exec (.supplyOnset x) s = .next t ∧ LampSide s t ∧ t.lampTest = none ∧
            t.watches = s.watches ∧ (∀ ch, (t.out ch).cleanEnd = none) ∧
            (∀ ch, (t.out ch).retry = (s.out ch).retry) ∧
            (s.output.recovery + 1 < 4 → FaultsKept s t ∧
              (∀ p, Queued [.stage .recovery cause] (s.port p) (t.port p)) ∧
              t.output = { s.output.idle with
                stage := .recovery, lastCause := cause, recovery := s.output.recovery + 1,
                recoveryEnd := some (s.now + 250), supply := s.output.supply.put x true,
                demand := demandNow t }) ∧
            (4 ≤ s.output.recovery + 1 →
              (∀ p, Queued [.stage .latched .recoveryLimit] (s.port p) (t.port p)) ∧
              (∀ ch, (t.out ch).fault = pausedFault s.now (s.out ch).fault) ∧
              t.output = { s.output.idle with
                stage := .latched, lastCause := .recoveryLimit, recovery := s.output.recovery + 1,
                supply := s.output.supply.put x true, demand := demandNow t }))))) ∧
  (∀ (s : State) (x : SupplyCondition),
    (s.output.supply.get x = false → exec (.supplyClearing x) s = .next s) ∧
    (s.output.supply.get x = true →
      (x = .overtempWarn → exec (.supplyClearing x) s =
        .next (cleanChannels { s with output := { s.output with supply := s.output.supply.put x false } })) ∧
      (x ≠ .overtempWarn → ModulatorInv s → ∃ t, exec (.supplyClearing x) s = .next t ∧ LampSide s t ∧
        FaultsKept s t ∧ t.lampTest = s.lampTest ∧ t.watches = s.watches ∧
        t.output.supply = s.output.supply.put x false ∧
        (s.output.stage = .standby → demandNow s = true → s.output.hold = false →
          (s.output.supply.put x false).forcing = false →
          t.output = { s.output.idle with
            stage := .softstart, lastCause := .supplyClear, softEnd := some (s.now + 20),
            supply := s.output.supply.put x false, demand := true } ∧
          ∀ p, Queued [.stage .softstart .supplyClear] (s.port p) (t.port p)) ∧
        ((s.output.stage ≠ .standby ∨ demandNow s = false ∨ s.output.hold = true ∨
            (s.output.supply.put x false).forcing = true) →
          t.output = withDemand s.now (demandNow t)
            { s.output with supply := s.output.supply.put x false } ∧
          t.modulator = s.modulator ∧ t.ports = s.ports))))

/-- The ends of the stage's intervals and timers that are due: SOFTSTART to ACTIVE, the standby delay to STANDBY, the
recovery count back to 0, and RECOVERY to a new interval or to STANDBY and on (R157 to R160, R164). Each port's
notices are the STAGE notices of the moves, in their order, and nothing else (R153). -/
def Obligations.StageIntervalsEnd : Prop :=
  ∀ s : State, ModulatorInv s →
    (s.output.stage = .softstart → dueAt s.output.softEnd s.now = true →
      ∃ t, exec .softstartIntervalEnd s = .next t ∧ LampSide s t ∧ FaultsKept s t ∧ t.lampTest = s.lampTest ∧
        (∀ p, Queued [.stage .active .softstartEnd] (s.port p) (t.port p)) ∧ t.watches = s.watches ∧
        t.output = { s.output.idle with
          stage := .active, lastCause := .softstartEnd, activeEnd := some (s.now + 10000),
          standbyEnd := delayAfter s.now none (demandNow t), demand := demandNow t }) ∧
    (s.output.stage = .active → s.output.demand = false → demandNow s = false →
      dueAt s.output.standbyEnd s.now = true →
      ∃ t, exec .standbyDelayExpiry s = .next t ∧ LampSide s t ∧ FaultsKept s t ∧
        (∀ p, Queued [.stage .standby .noDemand] (s.port p) (t.port p)) ∧ t.watches = s.watches ∧
        (∀ ch, (t.out ch).cleanEnd = none) ∧
        t.output = { s.output.idle with stage := .standby, lastCause := .noDemand }) ∧
    (dueAt s.output.activeEnd s.now = true → exec .activeDurationTimerEnd s =
      .next { s with output := { s.output with recovery := 0, activeEnd := none } }) ∧
    (s.output.stage = .recovery → dueAt s.output.recoveryEnd s.now = true →
      (s.output.supply.forcing = true → exec .recoveryIntervalEnd s =
        .next { s with output := { s.output with recoveryEnd := some (s.now + 250) } }) ∧
      (s.output.supply.forcing = false → ∃ t, exec .recoveryIntervalEnd s = .next t ∧ LampSide s t ∧
        FaultsKept s t ∧ StandbyEntered .recoveryEnd s.output t ∧ t.watches = s.watches ∧
        (∀ ch, (t.out ch).cleanEnd = none) ∧
        ∀ p, Queued
          (.stage .standby .recoveryEnd ::
            if t.output.stage = .softstart then [.stage .softstart .demand] else [])
          (s.port p) (t.port p)))

/-- LATCH_CLEAR: refused outside LATCHED; else every channel READY with retry count 0, the recovery count 0, STANDBY
and on to SOFTSTART where it may, and the number of FAULTED channels as the answer (R157, R166). The notices of each
port are the FAULT READY of each channel that was FAULTED and reaches the port, ascending, then STAGE STANDBY, then
STAGE SOFTSTART where it follows (R153, R166, R174, R186). The handle and extra word of the refusal are log 27's, the
model's choice. -/
def Obligations.LatchClearRearmsAll : Prop :=
  ∀ (p : Port) (s : State), Taken p .maintenance s →
    (s.output.stage ≠ .latched → exec (.latchClear p) s = .next (refusedState p .wrongState 0 s)) ∧
    (s.output.stage = .latched → ModulatorInv s → ∃ t, exec (.latchClear p) s = .next t ∧
      t = { s with
        output := t.output, outs := t.outs, ports := t.ports, watches := t.watches } ∧
      (∀ ch, t.out ch = { s.out ch with fault := .ready, retry := 0, cleanEnd := none }) ∧
      StandbyEntered .latchClear { s.output with recovery := 0 } t ∧
      (∀ q, Queued
        (readyTold q (indexes 16) s ++ .stage .standby .latchClear ::
          if t.output.stage = .softstart then [.stage .softstart .demand] else [])
        (s.port q) (t.port q)) ∧
      Accepted p none ((indexes 16).filter fun ch => decide ((s.out ch).fault ≠ .ready)).length s t ∧
      OtherResultsKept p s t ∧ (∀ q, RegistersKept (s.port q) (t.port q)) ∧
      ∀ w, t.watch w = spentBy .fault ((indexes 16).filter fun ch => isFaulted (s.out ch)) (s.watch w))

/-! ### Channel faults -/

/-- Which fault events are taken (R169): on an enabled READY channel, OPEN and SHORT in ACTIVE with an output level
above 0, GROUND past INIT; every other one changes nothing. A fault event that is taken: FAULTED with its kind, the
retry count raised, PENDING or HELD as the rearm mode and the count say, the channel closed; then LATCHED where every
enabled channel is held-faulted, with the retry timers paused (R167, R169, R170, R171). Each port's notices are the
FAULT notice, where it reaches the port, and then STAGE LATCHED where the stage latches (R170, R174, R186). A one-shot
FAULT watch that covers the channel is freed by the event, and no other watch moves (R179). A running lamp test ends
as the stage latches: from SOFTSTART and ACTIVE by R147, from STANDBY by log 15, the model's reading. -/
def Obligations.FaultEventsIgnoredOrTaken : Prop :=
  (∀ (s : State) (ch : Channel) (k : FaultKind),
    ((s.out ch).enabled = false ∨ (s.out ch).fault ≠ .ready ∨
      (k ≠ .ground ∧ (s.output.stage ≠ .active ∨ outputLevel s ch = 0)) ∨
      (k = .ground ∧ (s.output.stage = .off ∨ s.output.stage = .init))) →
    exec (.channelFaultEvent ch k) s = .next s) ∧
  (∀ (s : State) (ch : Channel) (k : FaultKind), ModulatorInv s → (s.out ch).retry < 3 →
    (s.output.stage = .standby → (demandNow s && !s.output.hold && !s.output.supply.forcing) = false) →
    (s.out ch).enabled = true → (s.out ch).fault = .ready →
    (k = .ground ∧ s.output.stage ≠ .off ∧ s.output.stage ≠ .init ∨
      s.output.stage = .active ∧ 0 < (outputLevel s ch).val) →
    let count := (s.out ch).retry + 1
    let status : RetryStatus :=
      if (s.out ch).manual ∨ count = 3 then .held
      else if s.output.stage = .latched then .pending (.paused 1000) else .pending (.running (s.now + 1000))
    let faultOf : Channel → FaultState := fun i => if i = ch then .faulted k status else (s.out i).fault
    let latches := s.output.stage ≠ .latched ∧
      ∀ i, (s.out i).enabled = true → ∃ kind, faultOf i = .faulted kind .held
    let toldFault : Port → List Notice := fun p => (told s p .fault [ch]).map fun i => .fault i (.kind k)
    ∃ t, exec (.channelFaultEvent ch k) s = .next t ∧ LampSide s t ∧
      (t.out ch).retry = count ∧ (t.out ch).cleanEnd = none ∧
      (∀ i, i ≠ ch → (t.out i).retry = (s.out i).retry) ∧
      (∀ w, t.watch w = spentBy .fault [ch] (s.watch w)) ∧
      (latches → t.lampTest = none ∧ (∀ i, (t.out i).fault = pausedFault s.now (faultOf i)) ∧
        (∀ i, (t.out i).cleanEnd = none) ∧
        t.output = { s.output.idle with
          stage := .latched, lastCause := .channelFaults, demand := demandNow t } ∧
        ∀ p, Queued (toldFault p ++ [.stage .latched .channelFaults]) (s.port p) (t.port p)) ∧
      (¬ latches → t.lampTest = s.lampTest ∧ (∀ i, (t.out i).fault = faultOf i) ∧
        t.output = withDemand s.now (demandNow t) s.output ∧
        ∀ p, Queued (toldFault p) (s.port p) (t.port p)))

/-- The end of a running retry timer: READY with the count kept, the FAULT READY event, and the channel opened where
the stage is ACTIVE and it is enabled, with a restart fade from 0 (R131, R171). The notices of each port are FAULT
READY, where it reaches the port, and the stage's move (R174, R186). Demand and the stage follow (R156, R157, R159).
-/
def Obligations.RetryTimerEndReturnsReady : Prop :=
  ∀ (s : State) (ch : Channel) (k : FaultKind) (ends : Instant), ModulatorInv s →
    (s.out ch).fault = .faulted k (.pending (.running ends)) → ends ≤ s.now →
    ∃ t, exec (.retryTimerEnd ch) s = .next t ∧
      (t.out ch).fault = .ready ∧ (t.out ch).retry = (s.out ch).retry ∧
      (∀ i, i ≠ ch → (t.out i).fault = (s.out i).fault ∧ (t.out i).retry = (s.out i).retry) ∧
      LampSide s t ∧ t.lampTest = s.lampTest ∧ StageFollows s t ∧
      (∀ w, t.watch w = spentBy .fault [ch] (s.watch w)) ∧
      ∀ p, Queued (readyTold p [ch] s ++ stageTold s t) (s.port p) (t.port p)

/-- A clean interval starts as the five things come to hold, is cancelled as one stops holding, and sets the retry
count to 0 at its end (R172). After every step, as before it, a clean interval runs only while the channel is READY
and enabled, the stage is ACTIVE and the retry count is above 0: a step that ends one of these cancels the interval.
The output level, the fifth, is compared at the end of each taking: log 23, the model's reading. -/
def Obligations.CleanIntervalRule : Prop :=
  (∀ (s : State) (ch : Channel),
    let holds := (s.out ch).fault = .ready ∧ (s.out ch).enabled = true ∧ s.output.stage = .active ∧
      0 < (outputLevel s ch).val ∧ 0 < (s.out ch).retry
    let after : OutChannel → OutChannel := fun o =>
      { o with cleanEnd := if holds then some (o.cleanEnd.getD (s.now + 10000)) else none }
    (cleanChannels s).out ch = after (s.out ch) ∧
    cleanChannels s = { s with outs := (cleanChannels s).outs } ∧
    exec (.outputLevelRisesAbove0 ch) s = .next (s.modOut ch after) ∧
    (dueAt (s.out ch).cleanEnd s.now = true → exec (.cleanIntervalEnd ch) s =
      .next (s.modOut ch fun o => { o with retry := 0, cleanEnd := none }))) ∧
  ∀ s t : State, CleanInv s → step s = .next t → CleanInv t

/-- CHANNEL_ENABLE, CHANNEL_REARM_MODE and FAULT_REARM: their refusals, what they set on each channel of the set, and
the numbers they answer with (R131, R168, R173). FAULT_REARM hands FAULT READY for each channel that was FAULTED, in
ascending order, before the stage's move (R173, R174, R186). After CHANNEL_ENABLE and FAULT_REARM demand and the stage
follow (R156, R157, R159). The handle and extra word of the refusals are log 27's, the model's choice. -/
def Obligations.ChannelCommandsSetChannels : Prop :=
  ∀ (p : Port) (s : State), Taken p .maintenance s → ModulatorInv s →
    (arg s p 0 = 0 ∨ 1 < argNat s p 1 →
      exec (.channelEnable p) s = .next (refusedState p .badArgument 0 s) ∧
      exec (.channelRearmMode p) s = .next (refusedState p .badArgument 0 s)) ∧
    (arg s p 0 = 0 → exec (.faultRearm p) s = .next (refusedState p .badArgument 0 s)) ∧
    (∀ v, arg s p 0 ≠ 0 → flagOf (argNat s p 1) = some v →
      (∃ t, exec (.channelEnable p) s = .next t ∧
        (∀ ch, inSet (arg s p 0) ch = false → (t.out ch).enabled = (s.out ch).enabled ∧
          (t.out ch).fault = (s.out ch).fault) ∧
        (∀ ch, inSet (arg s p 0) ch = true → (t.out ch).enabled = v ∧
          (v = true → (t.out ch).fault = (s.out ch).fault) ∧
          (v = false → (t.out ch).cleanEnd = none ∧
            ∀ k status, (s.out ch).fault = .faulted k status → (t.out ch).fault = .faulted k .held) ∧
          (v = false → (s.out ch).fault = .ready → (t.out ch).fault = .ready)) ∧
        (∀ ch, (t.out ch).retry = (s.out ch).retry ∧ (t.out ch).manual = (s.out ch).manual) ∧
        (∀ ch, t.chan ch = openOrClose (isOpen t ch) s.now (s.chan ch)) ∧
        StageFollows s t ∧
        (∀ q, Queued (stageTold s t) (s.port q) (t.port q)) ∧
        Accepted p none ((members (arg s p 0)).filter fun ch => (s.out ch).enabled != v).length s t ∧
        OtherResultsKept p s t ∧
        t = { s with outs := t.outs, modulator := t.modulator, output := t.output, ports := t.ports }) ∧
      ∃ outs, exec (.channelRearmMode p) s =
          .next (acceptedState p none (members (arg s p 0)).length { s with outs := outs }) ∧
        ∀ ch, tget outs ch = if inSet (arg s p 0) ch then { s.out ch with manual := v } else s.out ch) ∧
    (arg s p 0 ≠ 0 → ∃ t, exec (.faultRearm p) s = .next t ∧
      (∀ ch, inSet (arg s p 0) ch = true → (t.out ch).fault = .ready ∧ (t.out ch).retry = 0 ∧
        (t.out ch).cleanEnd = none) ∧
      (∀ ch, inSet (arg s p 0) ch = false → (t.out ch).fault = (s.out ch).fault ∧
        (t.out ch).retry = (s.out ch).retry) ∧
      (∀ ch, (t.out ch).enabled = (s.out ch).enabled ∧ (t.out ch).manual = (s.out ch).manual) ∧
      (∀ ch, t.chan ch = openOrClose (isOpen t ch) s.now (s.chan ch)) ∧
      StageFollows s t ∧
      (∀ q, Queued (readyTold q (members (arg s p 0)) s ++ stageTold s t) (s.port q) (t.port q)) ∧
      (∀ w, t.watch w = spentBy .fault ((members (arg s p 0)).filter fun ch => isFaulted (s.out ch)) (s.watch w)) ∧
      Accepted p none ((members (arg s p 0)).filter fun ch => decide ((s.out ch).fault ≠ .ready)).length s t ∧
      OtherResultsKept p s t ∧
      t = { s with
        outs := t.outs, modulator := t.modulator, output := t.output, ports := t.ports, watches := t.watches })

/-! ### Access table and port resets -/

/-- PRIV_SET: its refusals in order; else the three values stored, CEILING_CHANGED where the ceiling changes, and
where it falls the cascade that frees the records above it. The notices of the target are CEILING_CHANGED, then for
each freed record in ascending slot order CLAIM_REMOVED CEILING and PLAYER ABORTED where the record was a player's
claim, then the WINNER notices (R186, R194); demand and the stage follow the freeings (R156, R157, R159). The handle
of the refusals is log 27's, the model's choice. -/
def Obligations.PrivSetStoresAndCascades : Prop :=
  ∀ (p : Port) (s : State), Taken p .maintenance s →
    ((2 < argNat s p 0 ∨ 7 < argNat s p 1 ∨ 1 < argNat s p 2 ∨ 48 < argNat s p 3) →
      exec (.privSet p) s = .next (refusedState p .badArgument 0 s)) ∧
    ∀ (q : Port) (ceiling : Priority) sceneEdit (quota : Fin 49), argNat s p 0 = q.val → argNat s p 1 = ceiling.val →
      flagOf (argNat s p 2) = some sceneEdit → argNat s p 3 = quota.val →
      (quota.val < (s.right q).held →
        exec (.privSet p) s = .next (refusedState p .inUse (s.right q).held s)) ∧
      ((s.right q).held ≤ quota.val → ListsInv s → CeilingsHold s →
        let stored : State := s.modRight q fun r => { r with ceiling := ceiling, sceneEdit := sceneEdit, quota := quota }
        ∃ t slots, exec (.privSet p) s = .next t ∧ slots.Pairwise (fun x y => x < y) ∧
          (∀ x, x ∈ slots ↔ ∃ c, (s.record x).claim = some c ∧ c.owner = .port q ∧ ceiling < c.priority) ∧
          Freed slots stored t ∧ PlayersEmptied slots stored t ∧
          (slots = [] → t.output = s.output) ∧ (slots ≠ [] → StageFollows s t) ∧
          (∀ r, Announced r
            ((if r = q ∧ ceiling ≠ (s.right q).ceiling then [.access q .ceilingChanged] else []) ++
              removalsTold r .ceiling .aborted slots s)
            (coveredBy s slots) s t) ∧ WinnersSpend (coveredBy s slots) s t ∧
          (ceiling = (s.right q).ceiling → t.ports = (acceptedState p none 0 s).ports) ∧
          Accepted p none slots.length s t ∧ OtherResultsKept p s t ∧ t.lines = s.lines)

/-- MAINT_HANDOVER moves the maintenance right, tells both ports, and changes nothing else; a handover to the issuing
port changes nothing but the result (R195). The handle and extra word of the refusal are log 27's, the model's choice.
-/
def Obligations.MaintHandoverMovesRight : Prop :=
  ∀ (p : Port) (s : State), Taken p .maintenance s →
    (2 < argNat s p 0 → exec (.maintHandover p) s = .next (refusedState p .badArgument 0 s)) ∧
    (argNat s p 0 = p.val → exec (.maintHandover p) s = .next (acceptedState p none p.val s)) ∧
    ∀ q : Port, argNat s p 0 = q.val → q ≠ p →
      exec (.maintHandover p) s = .next (acceptedState p none q.val
        (((s.setMaintenance q).modPort p (offerTo (.access p .maintLost))).modPort q
          (offerTo (.access q .maintGained))))

/-- PORT_RESET, in every stage: watches, queue, overflow and mask cleared, the port's records freed, its players FREE,
its registers and counters 0, then its own result; the frame-error flag, the rights, the line bindings, the settings
and fault states of the channels, the clocks, the derate ceiling, the lamp test and the straps stay (R27, R134, R187,
R196, R198). Its held count and its scenes' in-use counts fall with the records freed, and the other ports receive the
WINNER notices and the stage's move (R6, R22, R196); demand and the stage follow (R156, R157, R159). The queue of the
port reset holds no notice of its own reset (R187); that it holds the STAGE notice of a start from STANDBY is log 28,
the model's choice. Its own watches are gone, and of the other ports' watches the one-shot entries that match the
WINNER events (R179, R187). PORT_CLEAR does to its target what PORT_RESET does to its own port, its ARG and select
registers, results and counters 0 among it, tells it CLEARED, and answers the issuer with the number of records freed;
every port but those two is left as PORT_RESET leaves it (R27, R197). The handle and extra word of PORT_CLEAR's
refusal are log 27's, the model's choice. -/
def Obligations.PortResetAndPortClear : Prop :=
  (∀ (p : Port) (s : State), ListsInv s →
    ∃ t slots, exec (.portReset p) s = .next t ∧ slots.Pairwise (fun x y => x < y) ∧
      (∀ x, x ∈ slots ↔ ∃ c, (s.record x).claim = some c ∧ c.owner = .port p) ∧
      (∀ x, t.record x = if x ∈ slots then freed (s.record x) else s.record x) ∧
      (∀ ch, (t.entry ch).list = (s.entry ch).list.filter fun h => decide (h.slot ∉ slots)) ∧
      ((∀ n x c, (s.player n).holder = some p → (s.record x).claim = some c → c.source = .player n →
          c.owner = .port p) →
        Redone (coveredBy s slots) s t) ∧
      Kept { s with ports := t.ports, watches := t.watches } t ∧
      (∀ n, (s.player n).holder = some p → t.player n = Player.reset) ∧
      (∀ n, (s.player n).holder ≠ some p →
        t.player n = if freesPlayer s slots n then toLoading true (s.player n) else s.player n) ∧
      (∀ w, s.watch w = none → t.watch w = none) ∧
      (∀ w e, s.watch w = some e → e.owner = p → t.watch w = none) ∧
      (∀ w e, s.watch w = some e → e.owner ≠ p →
        t.watch w = spentBy .winner (changedWinners (coveredBy s slots) s t) (s.watch w)) ∧
      (∀ q, q ≠ p → ResultsKept (s.port q) (t.port q) ∧ RegistersKept (s.port q) (t.port q)) ∧
      (∀ q, q ≠ p → Announced q [] (coveredBy s slots) s t) ∧
      (∀ i, arg t p i = 0) ∧ (t.port p).selChannel = 0 ∧ (t.port p).selSlot = 0 ∧ (t.port p).selList = 0 ∧
      (t.port p).selScene = 0 ∧ (t.port p).selPlayer = 0 ∧ (t.port p).refused = 0 ∧ (t.port p).accepted = 1 ∧
      (t.port p).status = .ok ∧ (t.port p).handle = none ∧ (t.port p).extra = BitVec.ofNat 16 slots.length ∧
      (t.port p).kindMask = 0 ∧ (t.port p).overflow = false ∧ (t.port p).frameError = (s.port p).frameError ∧
      (t.port p).reply = (s.port p).reply ∧
      (t.port p).queue = stageTold s t ∧
      (∀ q, (t.right q).ceiling = (s.right q).ceiling ∧ (t.right q).sceneEdit = (s.right q).sceneEdit ∧
        (t.right q).quota = (s.right q).quota) ∧ t.access.maintenance = s.access.maintenance ∧
      (∀ q, q ≠ p → (t.right q).held = (s.right q).held) ∧
      (t.right p).held = (s.right p).held - slots.length ∧ (CountsInv s → (t.right p).held = 0) ∧
      (∀ n, (t.scene n).levels = (s.scene n).levels ∧
        (t.scene n).inUse = (s.scene n).inUse - (slots.filter (slotPasses s (drawsFrom n))).length) ∧
      t.lines = s.lines ∧ StageFollows s t) ∧
  (∀ (p : Port) (s : State), Taken p .maintenance s →
    (2 < argNat s p 0 → exec (.portClear p) s = .next (refusedState p .badArgument 0 s)) ∧
    ∀ q : Port, argNat s p 0 = q.val → ∃ (t u : State) (slots : List Slot), exec (.portClear p) s = .next t ∧
      exec (.portReset q) s = .next u ∧
      (∀ x, x ∈ slots ↔ ∃ c, (s.record x).claim = some c ∧ c.owner = .port q) ∧ slots.Nodup ∧
      t = { u with ports := t.ports } ∧
      (∀ r, r ≠ p → r ≠ q → t.port r = u.port r) ∧
      (q ≠ p → (t.port p).queue = (u.port p).queue ∧ (t.port p).overflow = (u.port p).overflow ∧
        RegistersKept (u.port p) (t.port p)) ∧
      (∀ i, arg t q i = 0) ∧ (t.port q).selChannel = 0 ∧ (t.port q).selSlot = 0 ∧ (t.port q).selList = 0 ∧
      (t.port q).selScene = 0 ∧ (t.port q).selPlayer = 0 ∧ (t.port q).reply = (s.port q).reply ∧
      (t.port q).refused = 0 ∧ (t.port q).status = .ok ∧ (t.port q).handle = none ∧
      (t.port q).queue = .access q .cleared :: (u.port q).queue ∧ (t.port q).kindMask = 0 ∧
      (t.port q).overflow = false ∧ (t.port q).frameError = (s.port q).frameError ∧
      (q ≠ p → (t.port q).accepted = 0 ∧ (t.port q).extra = 0 ∧ Accepted p none slots.length s t) ∧
      (q = p → (t.port p).accepted = 1 ∧ (t.port p).extra = BitVec.ofNat 16 slots.length))

/-! ### Codes -/

/-- The numeric form of a handle decodes to the handle, *none* and every value with an unused bit set or a slot above
47 decodes to no handle (R202, R204). The bits of a pattern code, as it is shown and as it is read (R202); of a claim
word and of the lease of a lease word, of the mode and the finish action, and of the field select of MODIFY, with the
codes of the enumerated arguments (R203, R204). The codes of results, stages, causes, owners and level sources (R202).
-/
def Obligations.HandleAndPatternCodesDecode : Prop :=
  (∀ h : Handle, handleOf (BitVec.ofNat 16 h.code) = some h) ∧
  (∀ w : Word, handleOf w = none ↔ w.toNat ≥ 1024 ∨ w.toNat % 64 ≥ 48) ∧
  (∀ w : Word, ∀ h, handleOf w = some h → w.toNat = h.gen.val * 64 + h.slot.val) ∧
  handleCode none = 0xFFFF ∧
  (∀ (k : ClockNo) (l : Line),
    Pattern.steady.code = 0 ∧ (Pattern.blink k .normal).code = 1 + 4 * k.val ∧
    (Pattern.blink k .inverted).code = 1 + 4 * k.val + 16 ∧ (Pattern.flash l).code = 2 + 32 * l.val ∧
    (Pattern.combine l k).code = 3 + 4 * k.val + 32 * l.val) ∧
  (∀ b : Byte,
    let kind := (b.extractLsb' 0 2).toNat
    let clock : ClockNo := Fin.ofNat 4 (b.extractLsb' 2 2).toNat
    let phase : Phase := if b.getLsbD 4 then .inverted else .normal
    let line : Line := Fin.ofNat 8 (b.extractLsb' 5 3).toNat
    (kind = 0 → patternOf b = .steady) ∧ (kind = 1 → patternOf b = .blink clock phase) ∧
    (kind = 2 → patternOf b = .flash line) ∧ (kind = 3 → patternOf b = .combine line clock)) ∧
  (∀ (p : Port) (s : State),
    let w := arg s p 2
    (argClaimWord s p).priority.val = (w.extractLsb' 0 3).toNat ∧
    (argClaimWord s p).fade.val = (w.extractLsb' 4 3).toNat ∧
    (argClaimWord s p).pattern = patternOf (w.extractLsb' 8 8)) ∧
  (∀ (p : Port) (s : State),
    let n := ((arg s p 3).extractLsb' 0 8).toNat
    (n = 0 → argLease s p = some none) ∧
    (0 < n → n ≤ 250 → argLease s p = some (some { length := Fin.ofNat 251 n, start := s.now })) ∧
    (250 < n → argLease s p = none)) ∧
  (∀ (p : Port) (s : State),
    let mode := ((arg s p 6).extractLsb' 0 2).toNat
    let finish := ((arg s p 6).extractLsb' 4 2).toNat
    argMode s p = (if mode = 0 then some .oneShot else if mode = 1 then some .loop else none) ∧
    argFinish s p = (if finish = 0 then some .hold else if finish = 1 then some .release else none)) ∧
  (∀ n : Nat,
    policyOf n = (if n = 0 then some .priority else if n = 1 then some .maximum else none) ∧
    shapeOf n = (if n = 0 then some .linear else if n = 1 then some .smooth else none) ∧
    senseOf n = (if n = 0 then some .level else if n = 1 then some .edge else none) ∧
    polarityOf n = (if n = 0 then some .first else if n = 1 then some .second else none) ∧
    flagOf n = (if n = 0 then some false else if n = 1 then some true else none) ∧
    watchKindOf n = (if n = 0 then some .winner else if n = 1 then some .fault else if n = 2 then some .line else none)) ∧
  (∀ w : Word, fieldSelectOf w =
    { level := w.getLsbD 0, priority := w.getLsbD 1, pattern := w.getLsbD 2, fade := w.getLsbD 3,
      lease := w.getLsbD 4, tag := w.getLsbD 5 }) ∧
  [ResultCode.ok, .full, .quota, .listFull, .privilege, .stale, .notOwner, .badArgument, .inUse, .busy, .wrongState,
    .empty].map ResultCode.code = List.range 12 ∧
  [StageName.off, .init, .standby, .softstart, .active, .recovery, .latched].map StageName.code = List.range 7 ∧
  [Cause.enableLow, .enableHigh, .initEnd, .demand, .holdRelease, .supplyClear, .softstartEnd, .hold, .noDemand,
    .lampSupplyLow, .overcurrent, .overtempShutdown, .recoveryLimit, .recoveryEnd, .channelFaults,
    .latchClear].map Cause.code = List.range 16 ∧
  (∀ p : Port, (Owner.port p).code = p.val) ∧ (∀ l : Line, (Owner.line l).code = 3 + l.val) ∧
  (∀ v n k, (LevelSource.fixed v).code = 0 ∧ (LevelSource.scene n).code = 1 ∧ (LevelSource.player k).code = 2)

/-! ### Invariants -/

/-- The state after reset satisfies every invariant. -/
def Obligations.ResetSatisfiesInvariants : Prop :=
  StageInv State.reset ∧ ModulatorInv State.reset ∧ CountsInv State.reset ∧ CeilingsHold State.reset ∧
    ListsInv State.reset ∧ QueuesBounded State.reset ∧ RetriesBounded State.reset ∧ CleanInv State.reset

/-- Every step keeps the invariant of the output stage (R151, R162, R163). -/
def Obligations.StepKeepsStageInvariant : Prop :=
  ∀ s t : State, StageInv s → step s = .next t → StageInv t

/-- Every step keeps the modulator with the resolver's target and pattern, and PARKED exactly the closed channels
(R126, R131). -/
def Obligations.StepKeepsModulatorInvariant : Prop :=
  ∀ s t : State, ModulatorInv s → step s = .next t → ModulatorInv t

/-- Every step keeps the held-claim counts, within the quotas, and the in-use counts (R6, R69). -/
def Obligations.StepKeepsCounts : Prop :=
  ∀ s t : State, CountsInv s → step s = .next t → CountsInv t

/-- Every step keeps each port's claims at or below its ceiling (R194). -/
def Obligations.StepKeepsCeilings : Prop :=
  ∀ s t : State, CeilingsHold s → step s = .next t → CeilingsHold t

/-- Every step keeps the claim lists: exactly the live claims of each channel, once each, by falling priority, at most
8 (R28, R29). -/
def Obligations.StepKeepsClaimLists : Prop :=
  ∀ s t : State, ListsInv s → step s = .next t → ListsInv t

/-- Every step keeps the notice queues at 16 and the retry counts at 3 (R167, R182). -/
def Obligations.StepKeepsBounds : Prop :=
  ∀ s t : State, QueuesBounded s → RetriesBounded s → step s = .next t → QueuesBounded t ∧ RetriesBounded t

/-- In every state a closed channel is dark and derating holds; with the invariant of the output stage the state is
safe (R141, R152, R162). -/
def Obligations.StageInvariantMakesSafe : Prop :=
  ∀ s : State, StageInv s → Safe s

end ArbiterStatements
end

