-- ==== Sys2Proof/Laws/Checks.lean ====
section
/-! SUPPORT. Checks that evaluate on a concrete state and establish the invariants that speak of handles and claims. -/

namespace Sys2Proof.Machine

/-- Whether a handle names a live claim that covers a channel. -/
def namesClaimOn (s : State) (ch : Channel) (h : Handle) : Bool :=
  match claimAt s h with
  | some c => inSet c.channels ch
  | none => false

/-- Whether the claim of a slot, if any, stands in the list of a channel it covers. -/
def isListed (s : State) (ch : Channel) (slot : Slot) : Bool :=
  match (s.record slot).claim with
  | some c => !(inSet c.channels ch) || decide (handleAt s slot ∈ (s.entry ch).list)
  | none => true

/-- Everything `ListInv` says of a channel, as a computation. -/
def checkList (s : State) (ch : Channel) : Bool :=
  decide ((s.entry ch).list.Nodup) &&
    decide ((s.entry ch).list.Pairwise fun a b => priorityOf s b ≤ priorityOf s a) &&
    decide ((s.entry ch).list.length ≤ listLimit) &&
    (s.entry ch).list.all (namesClaimOn s ch) && (indexes 48).all (isListed s ch)

/-- Everything `CeilingsHold` says of a slot, as a computation. -/
def checkCeiling (s : State) (slot : Slot) : Bool :=
  match (s.record slot).claim with
  | some c =>
    match c.owner with
    | .port p => decide (c.priority ≤ (s.right p).ceiling)
    | .line _ => true
  | none => true

theorem namesClaimOn_iff (s : State) (ch : Channel) (h : Handle) :
    namesClaimOn s ch h = true ↔ ∃ c, claimAt s h = some c ∧ inSet c.channels ch = true := by
  unfold namesClaimOn
  cases claimAt s h <;> simp

theorem listInv_of_check {s : State} {ch : Channel} (hc : checkList s ch = true) : ListInv s ch := by
  simp only [checkList, Bool.and_eq_true, decide_eq_true_eq, List.all_eq_true] at hc
  obtain ⟨⟨⟨⟨h1, h2⟩, h3⟩, h4⟩, h5⟩ := hc
  refine ⟨fun h => ⟨fun hm => (namesClaimOn_iff s ch h).mp (h4 h hm), fun ⟨c, hcl, hin⟩ => ?_⟩, h1, h2, h3⟩
  have hx := h5 h.slot (List.mem_finRange h.slot)
  unfold claimAt at hcl
  split at hcl
  · next hg =>
    have he : handleAt s h.slot = h := by unfold handleAt; rw [hg]
    simp only [isListed, hcl, hin, he, Bool.not_true, Bool.false_or, decide_eq_true_eq] at hx
    exact hx
  · exact absurd hcl (by simp)

theorem listsInv_of_check {s : State} (hc : (indexes 16).all (checkList s) = true) : ListsInv s := fun ch =>
  listInv_of_check (List.all_eq_true.mp hc ch (List.mem_finRange ch))

theorem ceilingsHold_of_check {s : State} (hc : (indexes 48).all (checkCeiling s) = true) : CeilingsHold s := by
  intro slot c p h1 h2
  have hx := List.all_eq_true.mp hc slot (List.mem_finRange slot)
  simpa [checkCeiling, h1, h2] using hx

end Sys2Proof.Machine
end

