-- ==== Sys2Proof/Laws/State.lean ====
section
/-! SUPPORT. One lemma for each field and each accessor under each named update of the state, all true by rfl: no proof
need unfold a record update. -/

namespace Sys2Proof.Machine.State

/-! ### modPort -/

@[simp] theorem modPort_now (s : State) (p : Port) (f : PortState → PortState) : (s.modPort p f).now = s.now := rfl
@[simp] theorem modPort_draws (s : State) (p : Port) (f : PortState → PortState) : (s.modPort p f).draws = s.draws := rfl
@[simp] theorem modPort_pending (s : State) (p : Port) (f : PortState → PortState) : (s.modPort p f).pending = s.pending := rfl
@[simp] theorem modPort_lts (s : State) (p : Port) (f : PortState → PortState) : (s.modPort p f).lts = s.lts := rfl
@[simp] theorem modPort_address0 (s : State) (p : Port) (f : PortState → PortState) : (s.modPort p f).address0 = s.address0 := rfl
@[simp] theorem modPort_address1 (s : State) (p : Port) (f : PortState → PortState) : (s.modPort p f).address1 = s.address1 := rfl
@[simp] theorem modPort_access (s : State) (p : Port) (f : PortState → PortState) : (s.modPort p f).access = s.access := rfl
@[simp] theorem modPort_pool (s : State) (p : Port) (f : PortState → PortState) : (s.modPort p f).pool = s.pool := rfl
@[simp] theorem modPort_resolver (s : State) (p : Port) (f : PortState → PortState) : (s.modPort p f).resolver = s.resolver := rfl
@[simp] theorem modPort_scenes (s : State) (p : Port) (f : PortState → PortState) : (s.modPort p f).scenes = s.scenes := rfl
@[simp] theorem modPort_players (s : State) (p : Port) (f : PortState → PortState) : (s.modPort p f).players = s.players := rfl
@[simp] theorem modPort_lines (s : State) (p : Port) (f : PortState → PortState) : (s.modPort p f).lines = s.lines := rfl
@[simp] theorem modPort_modulator (s : State) (p : Port) (f : PortState → PortState) : (s.modPort p f).modulator = s.modulator := rfl
@[simp] theorem modPort_clocks (s : State) (p : Port) (f : PortState → PortState) : (s.modPort p f).clocks = s.clocks := rfl
@[simp] theorem modPort_derateCeiling (s : State) (p : Port) (f : PortState → PortState) : (s.modPort p f).derateCeiling = s.derateCeiling := rfl
@[simp] theorem modPort_lampTest (s : State) (p : Port) (f : PortState → PortState) : (s.modPort p f).lampTest = s.lampTest := rfl
@[simp] theorem modPort_output (s : State) (p : Port) (f : PortState → PortState) : (s.modPort p f).output = s.output := rfl
@[simp] theorem modPort_outs (s : State) (p : Port) (f : PortState → PortState) : (s.modPort p f).outs = s.outs := rfl
@[simp] theorem modPort_watches (s : State) (p : Port) (f : PortState → PortState) : (s.modPort p f).watches = s.watches := rfl
@[simp] theorem modPort_right (s : State) (p : Port) (f : PortState → PortState) (q : Port) : (s.modPort p f).right q = s.right q := rfl
@[simp] theorem modPort_record (s : State) (p : Port) (f : PortState → PortState) (i : Slot) : (s.modPort p f).record i = s.record i := rfl
@[simp] theorem modPort_entry (s : State) (p : Port) (f : PortState → PortState) (i : Channel) : (s.modPort p f).entry i = s.entry i := rfl
@[simp] theorem modPort_scene (s : State) (p : Port) (f : PortState → PortState) (i : SceneNo) : (s.modPort p f).scene i = s.scene i := rfl
@[simp] theorem modPort_player (s : State) (p : Port) (f : PortState → PortState) (i : PlayerNo) : (s.modPort p f).player i = s.player i := rfl
@[simp] theorem modPort_line (s : State) (p : Port) (f : PortState → PortState) (i : Line) : (s.modPort p f).line i = s.line i := rfl
@[simp] theorem modPort_chan (s : State) (p : Port) (f : PortState → PortState) (i : Channel) : (s.modPort p f).chan i = s.chan i := rfl
@[simp] theorem modPort_clock (s : State) (p : Port) (f : PortState → PortState) (i : ClockNo) : (s.modPort p f).clock i = s.clock i := rfl
@[simp] theorem modPort_out (s : State) (p : Port) (f : PortState → PortState) (i : Channel) : (s.modPort p f).out i = s.out i := rfl
@[simp] theorem modPort_watch (s : State) (p : Port) (f : PortState → PortState) (i : WatchNo) : (s.modPort p f).watch i = s.watch i := rfl

/-! ### modRight -/

@[simp] theorem modRight_now (s : State) (p : Port) (f : Rights → Rights) : (s.modRight p f).now = s.now := rfl
@[simp] theorem modRight_draws (s : State) (p : Port) (f : Rights → Rights) : (s.modRight p f).draws = s.draws := rfl
@[simp] theorem modRight_pending (s : State) (p : Port) (f : Rights → Rights) : (s.modRight p f).pending = s.pending := rfl
@[simp] theorem modRight_lts (s : State) (p : Port) (f : Rights → Rights) : (s.modRight p f).lts = s.lts := rfl
@[simp] theorem modRight_address0 (s : State) (p : Port) (f : Rights → Rights) : (s.modRight p f).address0 = s.address0 := rfl
@[simp] theorem modRight_address1 (s : State) (p : Port) (f : Rights → Rights) : (s.modRight p f).address1 = s.address1 := rfl
@[simp] theorem modRight_ports (s : State) (p : Port) (f : Rights → Rights) : (s.modRight p f).ports = s.ports := rfl
@[simp] theorem modRight_pool (s : State) (p : Port) (f : Rights → Rights) : (s.modRight p f).pool = s.pool := rfl
@[simp] theorem modRight_resolver (s : State) (p : Port) (f : Rights → Rights) : (s.modRight p f).resolver = s.resolver := rfl
@[simp] theorem modRight_scenes (s : State) (p : Port) (f : Rights → Rights) : (s.modRight p f).scenes = s.scenes := rfl
@[simp] theorem modRight_players (s : State) (p : Port) (f : Rights → Rights) : (s.modRight p f).players = s.players := rfl
@[simp] theorem modRight_lines (s : State) (p : Port) (f : Rights → Rights) : (s.modRight p f).lines = s.lines := rfl
@[simp] theorem modRight_modulator (s : State) (p : Port) (f : Rights → Rights) : (s.modRight p f).modulator = s.modulator := rfl
@[simp] theorem modRight_clocks (s : State) (p : Port) (f : Rights → Rights) : (s.modRight p f).clocks = s.clocks := rfl
@[simp] theorem modRight_derateCeiling (s : State) (p : Port) (f : Rights → Rights) : (s.modRight p f).derateCeiling = s.derateCeiling := rfl
@[simp] theorem modRight_lampTest (s : State) (p : Port) (f : Rights → Rights) : (s.modRight p f).lampTest = s.lampTest := rfl
@[simp] theorem modRight_output (s : State) (p : Port) (f : Rights → Rights) : (s.modRight p f).output = s.output := rfl
@[simp] theorem modRight_outs (s : State) (p : Port) (f : Rights → Rights) : (s.modRight p f).outs = s.outs := rfl
@[simp] theorem modRight_watches (s : State) (p : Port) (f : Rights → Rights) : (s.modRight p f).watches = s.watches := rfl
@[simp] theorem modRight_port (s : State) (p : Port) (f : Rights → Rights) (q : Port) : (s.modRight p f).port q = s.port q := rfl
@[simp] theorem modRight_record (s : State) (p : Port) (f : Rights → Rights) (i : Slot) : (s.modRight p f).record i = s.record i := rfl
@[simp] theorem modRight_entry (s : State) (p : Port) (f : Rights → Rights) (i : Channel) : (s.modRight p f).entry i = s.entry i := rfl
@[simp] theorem modRight_scene (s : State) (p : Port) (f : Rights → Rights) (i : SceneNo) : (s.modRight p f).scene i = s.scene i := rfl
@[simp] theorem modRight_player (s : State) (p : Port) (f : Rights → Rights) (i : PlayerNo) : (s.modRight p f).player i = s.player i := rfl
@[simp] theorem modRight_line (s : State) (p : Port) (f : Rights → Rights) (i : Line) : (s.modRight p f).line i = s.line i := rfl
@[simp] theorem modRight_chan (s : State) (p : Port) (f : Rights → Rights) (i : Channel) : (s.modRight p f).chan i = s.chan i := rfl
@[simp] theorem modRight_clock (s : State) (p : Port) (f : Rights → Rights) (i : ClockNo) : (s.modRight p f).clock i = s.clock i := rfl
@[simp] theorem modRight_out (s : State) (p : Port) (f : Rights → Rights) (i : Channel) : (s.modRight p f).out i = s.out i := rfl
@[simp] theorem modRight_watch (s : State) (p : Port) (f : Rights → Rights) (i : WatchNo) : (s.modRight p f).watch i = s.watch i := rfl

/-! ### setMaintenance -/

@[simp] theorem setMaintenance_now (s : State) (p : Port) : (s.setMaintenance p).now = s.now := rfl
@[simp] theorem setMaintenance_draws (s : State) (p : Port) : (s.setMaintenance p).draws = s.draws := rfl
@[simp] theorem setMaintenance_pending (s : State) (p : Port) : (s.setMaintenance p).pending = s.pending := rfl
@[simp] theorem setMaintenance_lts (s : State) (p : Port) : (s.setMaintenance p).lts = s.lts := rfl
@[simp] theorem setMaintenance_address0 (s : State) (p : Port) : (s.setMaintenance p).address0 = s.address0 := rfl
@[simp] theorem setMaintenance_address1 (s : State) (p : Port) : (s.setMaintenance p).address1 = s.address1 := rfl
@[simp] theorem setMaintenance_ports (s : State) (p : Port) : (s.setMaintenance p).ports = s.ports := rfl
@[simp] theorem setMaintenance_pool (s : State) (p : Port) : (s.setMaintenance p).pool = s.pool := rfl
@[simp] theorem setMaintenance_resolver (s : State) (p : Port) : (s.setMaintenance p).resolver = s.resolver := rfl
@[simp] theorem setMaintenance_scenes (s : State) (p : Port) : (s.setMaintenance p).scenes = s.scenes := rfl
@[simp] theorem setMaintenance_players (s : State) (p : Port) : (s.setMaintenance p).players = s.players := rfl
@[simp] theorem setMaintenance_lines (s : State) (p : Port) : (s.setMaintenance p).lines = s.lines := rfl
@[simp] theorem setMaintenance_modulator (s : State) (p : Port) : (s.setMaintenance p).modulator = s.modulator := rfl
@[simp] theorem setMaintenance_clocks (s : State) (p : Port) : (s.setMaintenance p).clocks = s.clocks := rfl
@[simp] theorem setMaintenance_derateCeiling (s : State) (p : Port) : (s.setMaintenance p).derateCeiling = s.derateCeiling := rfl
@[simp] theorem setMaintenance_lampTest (s : State) (p : Port) : (s.setMaintenance p).lampTest = s.lampTest := rfl
@[simp] theorem setMaintenance_output (s : State) (p : Port) : (s.setMaintenance p).output = s.output := rfl
@[simp] theorem setMaintenance_outs (s : State) (p : Port) : (s.setMaintenance p).outs = s.outs := rfl
@[simp] theorem setMaintenance_watches (s : State) (p : Port) : (s.setMaintenance p).watches = s.watches := rfl
@[simp] theorem setMaintenance_port (s : State) (p : Port) (q : Port) : (s.setMaintenance p).port q = s.port q := rfl
@[simp] theorem setMaintenance_record (s : State) (p : Port) (i : Slot) : (s.setMaintenance p).record i = s.record i := rfl
@[simp] theorem setMaintenance_entry (s : State) (p : Port) (i : Channel) : (s.setMaintenance p).entry i = s.entry i := rfl
@[simp] theorem setMaintenance_scene (s : State) (p : Port) (i : SceneNo) : (s.setMaintenance p).scene i = s.scene i := rfl
@[simp] theorem setMaintenance_player (s : State) (p : Port) (i : PlayerNo) : (s.setMaintenance p).player i = s.player i := rfl
@[simp] theorem setMaintenance_line (s : State) (p : Port) (i : Line) : (s.setMaintenance p).line i = s.line i := rfl
@[simp] theorem setMaintenance_chan (s : State) (p : Port) (i : Channel) : (s.setMaintenance p).chan i = s.chan i := rfl
@[simp] theorem setMaintenance_clock (s : State) (p : Port) (i : ClockNo) : (s.setMaintenance p).clock i = s.clock i := rfl
@[simp] theorem setMaintenance_out (s : State) (p : Port) (i : Channel) : (s.setMaintenance p).out i = s.out i := rfl
@[simp] theorem setMaintenance_watch (s : State) (p : Port) (i : WatchNo) : (s.setMaintenance p).watch i = s.watch i := rfl

/-! ### modRecord -/

@[simp] theorem modRecord_now (s : State) (k : Slot) (f : ClaimRecord → ClaimRecord) : (s.modRecord k f).now = s.now := rfl
@[simp] theorem modRecord_draws (s : State) (k : Slot) (f : ClaimRecord → ClaimRecord) : (s.modRecord k f).draws = s.draws := rfl
@[simp] theorem modRecord_pending (s : State) (k : Slot) (f : ClaimRecord → ClaimRecord) : (s.modRecord k f).pending = s.pending := rfl
@[simp] theorem modRecord_lts (s : State) (k : Slot) (f : ClaimRecord → ClaimRecord) : (s.modRecord k f).lts = s.lts := rfl
@[simp] theorem modRecord_address0 (s : State) (k : Slot) (f : ClaimRecord → ClaimRecord) : (s.modRecord k f).address0 = s.address0 := rfl
@[simp] theorem modRecord_address1 (s : State) (k : Slot) (f : ClaimRecord → ClaimRecord) : (s.modRecord k f).address1 = s.address1 := rfl
@[simp] theorem modRecord_ports (s : State) (k : Slot) (f : ClaimRecord → ClaimRecord) : (s.modRecord k f).ports = s.ports := rfl
@[simp] theorem modRecord_access (s : State) (k : Slot) (f : ClaimRecord → ClaimRecord) : (s.modRecord k f).access = s.access := rfl
@[simp] theorem modRecord_resolver (s : State) (k : Slot) (f : ClaimRecord → ClaimRecord) : (s.modRecord k f).resolver = s.resolver := rfl
@[simp] theorem modRecord_scenes (s : State) (k : Slot) (f : ClaimRecord → ClaimRecord) : (s.modRecord k f).scenes = s.scenes := rfl
@[simp] theorem modRecord_players (s : State) (k : Slot) (f : ClaimRecord → ClaimRecord) : (s.modRecord k f).players = s.players := rfl
@[simp] theorem modRecord_lines (s : State) (k : Slot) (f : ClaimRecord → ClaimRecord) : (s.modRecord k f).lines = s.lines := rfl
@[simp] theorem modRecord_modulator (s : State) (k : Slot) (f : ClaimRecord → ClaimRecord) : (s.modRecord k f).modulator = s.modulator := rfl
@[simp] theorem modRecord_clocks (s : State) (k : Slot) (f : ClaimRecord → ClaimRecord) : (s.modRecord k f).clocks = s.clocks := rfl
@[simp] theorem modRecord_derateCeiling (s : State) (k : Slot) (f : ClaimRecord → ClaimRecord) : (s.modRecord k f).derateCeiling = s.derateCeiling := rfl
@[simp] theorem modRecord_lampTest (s : State) (k : Slot) (f : ClaimRecord → ClaimRecord) : (s.modRecord k f).lampTest = s.lampTest := rfl
@[simp] theorem modRecord_output (s : State) (k : Slot) (f : ClaimRecord → ClaimRecord) : (s.modRecord k f).output = s.output := rfl
@[simp] theorem modRecord_outs (s : State) (k : Slot) (f : ClaimRecord → ClaimRecord) : (s.modRecord k f).outs = s.outs := rfl
@[simp] theorem modRecord_watches (s : State) (k : Slot) (f : ClaimRecord → ClaimRecord) : (s.modRecord k f).watches = s.watches := rfl
@[simp] theorem modRecord_port (s : State) (k : Slot) (f : ClaimRecord → ClaimRecord) (q : Port) : (s.modRecord k f).port q = s.port q := rfl
@[simp] theorem modRecord_right (s : State) (k : Slot) (f : ClaimRecord → ClaimRecord) (q : Port) : (s.modRecord k f).right q = s.right q := rfl
@[simp] theorem modRecord_entry (s : State) (k : Slot) (f : ClaimRecord → ClaimRecord) (i : Channel) : (s.modRecord k f).entry i = s.entry i := rfl
@[simp] theorem modRecord_scene (s : State) (k : Slot) (f : ClaimRecord → ClaimRecord) (i : SceneNo) : (s.modRecord k f).scene i = s.scene i := rfl
@[simp] theorem modRecord_player (s : State) (k : Slot) (f : ClaimRecord → ClaimRecord) (i : PlayerNo) : (s.modRecord k f).player i = s.player i := rfl
@[simp] theorem modRecord_line (s : State) (k : Slot) (f : ClaimRecord → ClaimRecord) (i : Line) : (s.modRecord k f).line i = s.line i := rfl
@[simp] theorem modRecord_chan (s : State) (k : Slot) (f : ClaimRecord → ClaimRecord) (i : Channel) : (s.modRecord k f).chan i = s.chan i := rfl
@[simp] theorem modRecord_clock (s : State) (k : Slot) (f : ClaimRecord → ClaimRecord) (i : ClockNo) : (s.modRecord k f).clock i = s.clock i := rfl
@[simp] theorem modRecord_out (s : State) (k : Slot) (f : ClaimRecord → ClaimRecord) (i : Channel) : (s.modRecord k f).out i = s.out i := rfl
@[simp] theorem modRecord_watch (s : State) (k : Slot) (f : ClaimRecord → ClaimRecord) (i : WatchNo) : (s.modRecord k f).watch i = s.watch i := rfl

/-! ### modEntry -/

@[simp] theorem modEntry_now (s : State) (ch : Channel) (f : ResolverEntry → ResolverEntry) : (s.modEntry ch f).now = s.now := rfl
@[simp] theorem modEntry_draws (s : State) (ch : Channel) (f : ResolverEntry → ResolverEntry) : (s.modEntry ch f).draws = s.draws := rfl
@[simp] theorem modEntry_pending (s : State) (ch : Channel) (f : ResolverEntry → ResolverEntry) : (s.modEntry ch f).pending = s.pending := rfl
@[simp] theorem modEntry_lts (s : State) (ch : Channel) (f : ResolverEntry → ResolverEntry) : (s.modEntry ch f).lts = s.lts := rfl
@[simp] theorem modEntry_address0 (s : State) (ch : Channel) (f : ResolverEntry → ResolverEntry) : (s.modEntry ch f).address0 = s.address0 := rfl
@[simp] theorem modEntry_address1 (s : State) (ch : Channel) (f : ResolverEntry → ResolverEntry) : (s.modEntry ch f).address1 = s.address1 := rfl
@[simp] theorem modEntry_ports (s : State) (ch : Channel) (f : ResolverEntry → ResolverEntry) : (s.modEntry ch f).ports = s.ports := rfl
@[simp] theorem modEntry_access (s : State) (ch : Channel) (f : ResolverEntry → ResolverEntry) : (s.modEntry ch f).access = s.access := rfl
@[simp] theorem modEntry_pool (s : State) (ch : Channel) (f : ResolverEntry → ResolverEntry) : (s.modEntry ch f).pool = s.pool := rfl
@[simp] theorem modEntry_scenes (s : State) (ch : Channel) (f : ResolverEntry → ResolverEntry) : (s.modEntry ch f).scenes = s.scenes := rfl
@[simp] theorem modEntry_players (s : State) (ch : Channel) (f : ResolverEntry → ResolverEntry) : (s.modEntry ch f).players = s.players := rfl
@[simp] theorem modEntry_lines (s : State) (ch : Channel) (f : ResolverEntry → ResolverEntry) : (s.modEntry ch f).lines = s.lines := rfl
@[simp] theorem modEntry_modulator (s : State) (ch : Channel) (f : ResolverEntry → ResolverEntry) : (s.modEntry ch f).modulator = s.modulator := rfl
@[simp] theorem modEntry_clocks (s : State) (ch : Channel) (f : ResolverEntry → ResolverEntry) : (s.modEntry ch f).clocks = s.clocks := rfl
@[simp] theorem modEntry_derateCeiling (s : State) (ch : Channel) (f : ResolverEntry → ResolverEntry) : (s.modEntry ch f).derateCeiling = s.derateCeiling := rfl
@[simp] theorem modEntry_lampTest (s : State) (ch : Channel) (f : ResolverEntry → ResolverEntry) : (s.modEntry ch f).lampTest = s.lampTest := rfl
@[simp] theorem modEntry_output (s : State) (ch : Channel) (f : ResolverEntry → ResolverEntry) : (s.modEntry ch f).output = s.output := rfl
@[simp] theorem modEntry_outs (s : State) (ch : Channel) (f : ResolverEntry → ResolverEntry) : (s.modEntry ch f).outs = s.outs := rfl
@[simp] theorem modEntry_watches (s : State) (ch : Channel) (f : ResolverEntry → ResolverEntry) : (s.modEntry ch f).watches = s.watches := rfl
@[simp] theorem modEntry_port (s : State) (ch : Channel) (f : ResolverEntry → ResolverEntry) (q : Port) : (s.modEntry ch f).port q = s.port q := rfl
@[simp] theorem modEntry_right (s : State) (ch : Channel) (f : ResolverEntry → ResolverEntry) (q : Port) : (s.modEntry ch f).right q = s.right q := rfl
@[simp] theorem modEntry_record (s : State) (ch : Channel) (f : ResolverEntry → ResolverEntry) (i : Slot) : (s.modEntry ch f).record i = s.record i := rfl
@[simp] theorem modEntry_scene (s : State) (ch : Channel) (f : ResolverEntry → ResolverEntry) (i : SceneNo) : (s.modEntry ch f).scene i = s.scene i := rfl
@[simp] theorem modEntry_player (s : State) (ch : Channel) (f : ResolverEntry → ResolverEntry) (i : PlayerNo) : (s.modEntry ch f).player i = s.player i := rfl
@[simp] theorem modEntry_line (s : State) (ch : Channel) (f : ResolverEntry → ResolverEntry) (i : Line) : (s.modEntry ch f).line i = s.line i := rfl
@[simp] theorem modEntry_chan (s : State) (ch : Channel) (f : ResolverEntry → ResolverEntry) (i : Channel) : (s.modEntry ch f).chan i = s.chan i := rfl
@[simp] theorem modEntry_clock (s : State) (ch : Channel) (f : ResolverEntry → ResolverEntry) (i : ClockNo) : (s.modEntry ch f).clock i = s.clock i := rfl
@[simp] theorem modEntry_out (s : State) (ch : Channel) (f : ResolverEntry → ResolverEntry) (i : Channel) : (s.modEntry ch f).out i = s.out i := rfl
@[simp] theorem modEntry_watch (s : State) (ch : Channel) (f : ResolverEntry → ResolverEntry) (i : WatchNo) : (s.modEntry ch f).watch i = s.watch i := rfl

/-! ### modScene -/

@[simp] theorem modScene_now (s : State) (k : SceneNo) (f : Scene → Scene) : (s.modScene k f).now = s.now := rfl
@[simp] theorem modScene_draws (s : State) (k : SceneNo) (f : Scene → Scene) : (s.modScene k f).draws = s.draws := rfl
@[simp] theorem modScene_pending (s : State) (k : SceneNo) (f : Scene → Scene) : (s.modScene k f).pending = s.pending := rfl
@[simp] theorem modScene_lts (s : State) (k : SceneNo) (f : Scene → Scene) : (s.modScene k f).lts = s.lts := rfl
@[simp] theorem modScene_address0 (s : State) (k : SceneNo) (f : Scene → Scene) : (s.modScene k f).address0 = s.address0 := rfl
@[simp] theorem modScene_address1 (s : State) (k : SceneNo) (f : Scene → Scene) : (s.modScene k f).address1 = s.address1 := rfl
@[simp] theorem modScene_ports (s : State) (k : SceneNo) (f : Scene → Scene) : (s.modScene k f).ports = s.ports := rfl
@[simp] theorem modScene_access (s : State) (k : SceneNo) (f : Scene → Scene) : (s.modScene k f).access = s.access := rfl
@[simp] theorem modScene_pool (s : State) (k : SceneNo) (f : Scene → Scene) : (s.modScene k f).pool = s.pool := rfl
@[simp] theorem modScene_resolver (s : State) (k : SceneNo) (f : Scene → Scene) : (s.modScene k f).resolver = s.resolver := rfl
@[simp] theorem modScene_players (s : State) (k : SceneNo) (f : Scene → Scene) : (s.modScene k f).players = s.players := rfl
@[simp] theorem modScene_lines (s : State) (k : SceneNo) (f : Scene → Scene) : (s.modScene k f).lines = s.lines := rfl
@[simp] theorem modScene_modulator (s : State) (k : SceneNo) (f : Scene → Scene) : (s.modScene k f).modulator = s.modulator := rfl
@[simp] theorem modScene_clocks (s : State) (k : SceneNo) (f : Scene → Scene) : (s.modScene k f).clocks = s.clocks := rfl
@[simp] theorem modScene_derateCeiling (s : State) (k : SceneNo) (f : Scene → Scene) : (s.modScene k f).derateCeiling = s.derateCeiling := rfl
@[simp] theorem modScene_lampTest (s : State) (k : SceneNo) (f : Scene → Scene) : (s.modScene k f).lampTest = s.lampTest := rfl
@[simp] theorem modScene_output (s : State) (k : SceneNo) (f : Scene → Scene) : (s.modScene k f).output = s.output := rfl
@[simp] theorem modScene_outs (s : State) (k : SceneNo) (f : Scene → Scene) : (s.modScene k f).outs = s.outs := rfl
@[simp] theorem modScene_watches (s : State) (k : SceneNo) (f : Scene → Scene) : (s.modScene k f).watches = s.watches := rfl
@[simp] theorem modScene_port (s : State) (k : SceneNo) (f : Scene → Scene) (q : Port) : (s.modScene k f).port q = s.port q := rfl
@[simp] theorem modScene_right (s : State) (k : SceneNo) (f : Scene → Scene) (q : Port) : (s.modScene k f).right q = s.right q := rfl
@[simp] theorem modScene_record (s : State) (k : SceneNo) (f : Scene → Scene) (i : Slot) : (s.modScene k f).record i = s.record i := rfl
@[simp] theorem modScene_entry (s : State) (k : SceneNo) (f : Scene → Scene) (i : Channel) : (s.modScene k f).entry i = s.entry i := rfl
@[simp] theorem modScene_player (s : State) (k : SceneNo) (f : Scene → Scene) (i : PlayerNo) : (s.modScene k f).player i = s.player i := rfl
@[simp] theorem modScene_line (s : State) (k : SceneNo) (f : Scene → Scene) (i : Line) : (s.modScene k f).line i = s.line i := rfl
@[simp] theorem modScene_chan (s : State) (k : SceneNo) (f : Scene → Scene) (i : Channel) : (s.modScene k f).chan i = s.chan i := rfl
@[simp] theorem modScene_clock (s : State) (k : SceneNo) (f : Scene → Scene) (i : ClockNo) : (s.modScene k f).clock i = s.clock i := rfl
@[simp] theorem modScene_out (s : State) (k : SceneNo) (f : Scene → Scene) (i : Channel) : (s.modScene k f).out i = s.out i := rfl
@[simp] theorem modScene_watch (s : State) (k : SceneNo) (f : Scene → Scene) (i : WatchNo) : (s.modScene k f).watch i = s.watch i := rfl

/-! ### modPlayer -/

@[simp] theorem modPlayer_now (s : State) (n : PlayerNo) (f : Player → Player) : (s.modPlayer n f).now = s.now := rfl
@[simp] theorem modPlayer_draws (s : State) (n : PlayerNo) (f : Player → Player) : (s.modPlayer n f).draws = s.draws := rfl
@[simp] theorem modPlayer_pending (s : State) (n : PlayerNo) (f : Player → Player) : (s.modPlayer n f).pending = s.pending := rfl
@[simp] theorem modPlayer_lts (s : State) (n : PlayerNo) (f : Player → Player) : (s.modPlayer n f).lts = s.lts := rfl
@[simp] theorem modPlayer_address0 (s : State) (n : PlayerNo) (f : Player → Player) : (s.modPlayer n f).address0 = s.address0 := rfl
@[simp] theorem modPlayer_address1 (s : State) (n : PlayerNo) (f : Player → Player) : (s.modPlayer n f).address1 = s.address1 := rfl
@[simp] theorem modPlayer_ports (s : State) (n : PlayerNo) (f : Player → Player) : (s.modPlayer n f).ports = s.ports := rfl
@[simp] theorem modPlayer_access (s : State) (n : PlayerNo) (f : Player → Player) : (s.modPlayer n f).access = s.access := rfl
@[simp] theorem modPlayer_pool (s : State) (n : PlayerNo) (f : Player → Player) : (s.modPlayer n f).pool = s.pool := rfl
@[simp] theorem modPlayer_resolver (s : State) (n : PlayerNo) (f : Player → Player) : (s.modPlayer n f).resolver = s.resolver := rfl
@[simp] theorem modPlayer_scenes (s : State) (n : PlayerNo) (f : Player → Player) : (s.modPlayer n f).scenes = s.scenes := rfl
@[simp] theorem modPlayer_lines (s : State) (n : PlayerNo) (f : Player → Player) : (s.modPlayer n f).lines = s.lines := rfl
@[simp] theorem modPlayer_modulator (s : State) (n : PlayerNo) (f : Player → Player) : (s.modPlayer n f).modulator = s.modulator := rfl
@[simp] theorem modPlayer_clocks (s : State) (n : PlayerNo) (f : Player → Player) : (s.modPlayer n f).clocks = s.clocks := rfl
@[simp] theorem modPlayer_derateCeiling (s : State) (n : PlayerNo) (f : Player → Player) : (s.modPlayer n f).derateCeiling = s.derateCeiling := rfl
@[simp] theorem modPlayer_lampTest (s : State) (n : PlayerNo) (f : Player → Player) : (s.modPlayer n f).lampTest = s.lampTest := rfl
@[simp] theorem modPlayer_output (s : State) (n : PlayerNo) (f : Player → Player) : (s.modPlayer n f).output = s.output := rfl
@[simp] theorem modPlayer_outs (s : State) (n : PlayerNo) (f : Player → Player) : (s.modPlayer n f).outs = s.outs := rfl
@[simp] theorem modPlayer_watches (s : State) (n : PlayerNo) (f : Player → Player) : (s.modPlayer n f).watches = s.watches := rfl
@[simp] theorem modPlayer_port (s : State) (n : PlayerNo) (f : Player → Player) (q : Port) : (s.modPlayer n f).port q = s.port q := rfl
@[simp] theorem modPlayer_right (s : State) (n : PlayerNo) (f : Player → Player) (q : Port) : (s.modPlayer n f).right q = s.right q := rfl
@[simp] theorem modPlayer_record (s : State) (n : PlayerNo) (f : Player → Player) (i : Slot) : (s.modPlayer n f).record i = s.record i := rfl
@[simp] theorem modPlayer_entry (s : State) (n : PlayerNo) (f : Player → Player) (i : Channel) : (s.modPlayer n f).entry i = s.entry i := rfl
@[simp] theorem modPlayer_scene (s : State) (n : PlayerNo) (f : Player → Player) (i : SceneNo) : (s.modPlayer n f).scene i = s.scene i := rfl
@[simp] theorem modPlayer_line (s : State) (n : PlayerNo) (f : Player → Player) (i : Line) : (s.modPlayer n f).line i = s.line i := rfl
@[simp] theorem modPlayer_chan (s : State) (n : PlayerNo) (f : Player → Player) (i : Channel) : (s.modPlayer n f).chan i = s.chan i := rfl
@[simp] theorem modPlayer_clock (s : State) (n : PlayerNo) (f : Player → Player) (i : ClockNo) : (s.modPlayer n f).clock i = s.clock i := rfl
@[simp] theorem modPlayer_out (s : State) (n : PlayerNo) (f : Player → Player) (i : Channel) : (s.modPlayer n f).out i = s.out i := rfl
@[simp] theorem modPlayer_watch (s : State) (n : PlayerNo) (f : Player → Player) (i : WatchNo) : (s.modPlayer n f).watch i = s.watch i := rfl

/-! ### modLine -/

@[simp] theorem modLine_now (s : State) (l : Line) (f : LineState → LineState) : (s.modLine l f).now = s.now := rfl
@[simp] theorem modLine_draws (s : State) (l : Line) (f : LineState → LineState) : (s.modLine l f).draws = s.draws := rfl
@[simp] theorem modLine_pending (s : State) (l : Line) (f : LineState → LineState) : (s.modLine l f).pending = s.pending := rfl
@[simp] theorem modLine_lts (s : State) (l : Line) (f : LineState → LineState) : (s.modLine l f).lts = s.lts := rfl
@[simp] theorem modLine_address0 (s : State) (l : Line) (f : LineState → LineState) : (s.modLine l f).address0 = s.address0 := rfl
@[simp] theorem modLine_address1 (s : State) (l : Line) (f : LineState → LineState) : (s.modLine l f).address1 = s.address1 := rfl
@[simp] theorem modLine_ports (s : State) (l : Line) (f : LineState → LineState) : (s.modLine l f).ports = s.ports := rfl
@[simp] theorem modLine_access (s : State) (l : Line) (f : LineState → LineState) : (s.modLine l f).access = s.access := rfl
@[simp] theorem modLine_pool (s : State) (l : Line) (f : LineState → LineState) : (s.modLine l f).pool = s.pool := rfl
@[simp] theorem modLine_resolver (s : State) (l : Line) (f : LineState → LineState) : (s.modLine l f).resolver = s.resolver := rfl
@[simp] theorem modLine_scenes (s : State) (l : Line) (f : LineState → LineState) : (s.modLine l f).scenes = s.scenes := rfl
@[simp] theorem modLine_players (s : State) (l : Line) (f : LineState → LineState) : (s.modLine l f).players = s.players := rfl
@[simp] theorem modLine_modulator (s : State) (l : Line) (f : LineState → LineState) : (s.modLine l f).modulator = s.modulator := rfl
@[simp] theorem modLine_clocks (s : State) (l : Line) (f : LineState → LineState) : (s.modLine l f).clocks = s.clocks := rfl
@[simp] theorem modLine_derateCeiling (s : State) (l : Line) (f : LineState → LineState) : (s.modLine l f).derateCeiling = s.derateCeiling := rfl
@[simp] theorem modLine_lampTest (s : State) (l : Line) (f : LineState → LineState) : (s.modLine l f).lampTest = s.lampTest := rfl
@[simp] theorem modLine_output (s : State) (l : Line) (f : LineState → LineState) : (s.modLine l f).output = s.output := rfl
@[simp] theorem modLine_outs (s : State) (l : Line) (f : LineState → LineState) : (s.modLine l f).outs = s.outs := rfl
@[simp] theorem modLine_watches (s : State) (l : Line) (f : LineState → LineState) : (s.modLine l f).watches = s.watches := rfl
@[simp] theorem modLine_port (s : State) (l : Line) (f : LineState → LineState) (q : Port) : (s.modLine l f).port q = s.port q := rfl
@[simp] theorem modLine_right (s : State) (l : Line) (f : LineState → LineState) (q : Port) : (s.modLine l f).right q = s.right q := rfl
@[simp] theorem modLine_record (s : State) (l : Line) (f : LineState → LineState) (i : Slot) : (s.modLine l f).record i = s.record i := rfl
@[simp] theorem modLine_entry (s : State) (l : Line) (f : LineState → LineState) (i : Channel) : (s.modLine l f).entry i = s.entry i := rfl
@[simp] theorem modLine_scene (s : State) (l : Line) (f : LineState → LineState) (i : SceneNo) : (s.modLine l f).scene i = s.scene i := rfl
@[simp] theorem modLine_player (s : State) (l : Line) (f : LineState → LineState) (i : PlayerNo) : (s.modLine l f).player i = s.player i := rfl
@[simp] theorem modLine_chan (s : State) (l : Line) (f : LineState → LineState) (i : Channel) : (s.modLine l f).chan i = s.chan i := rfl
@[simp] theorem modLine_clock (s : State) (l : Line) (f : LineState → LineState) (i : ClockNo) : (s.modLine l f).clock i = s.clock i := rfl
@[simp] theorem modLine_out (s : State) (l : Line) (f : LineState → LineState) (i : Channel) : (s.modLine l f).out i = s.out i := rfl
@[simp] theorem modLine_watch (s : State) (l : Line) (f : LineState → LineState) (i : WatchNo) : (s.modLine l f).watch i = s.watch i := rfl

/-! ### modLines -/

@[simp] theorem modLines_now (s : State) (f : LineState → LineState) : (s.modLines f).now = s.now := rfl
@[simp] theorem modLines_draws (s : State) (f : LineState → LineState) : (s.modLines f).draws = s.draws := rfl
@[simp] theorem modLines_pending (s : State) (f : LineState → LineState) : (s.modLines f).pending = s.pending := rfl
@[simp] theorem modLines_lts (s : State) (f : LineState → LineState) : (s.modLines f).lts = s.lts := rfl
@[simp] theorem modLines_address0 (s : State) (f : LineState → LineState) : (s.modLines f).address0 = s.address0 := rfl
@[simp] theorem modLines_address1 (s : State) (f : LineState → LineState) : (s.modLines f).address1 = s.address1 := rfl
@[simp] theorem modLines_ports (s : State) (f : LineState → LineState) : (s.modLines f).ports = s.ports := rfl
@[simp] theorem modLines_access (s : State) (f : LineState → LineState) : (s.modLines f).access = s.access := rfl
@[simp] theorem modLines_pool (s : State) (f : LineState → LineState) : (s.modLines f).pool = s.pool := rfl
@[simp] theorem modLines_resolver (s : State) (f : LineState → LineState) : (s.modLines f).resolver = s.resolver := rfl
@[simp] theorem modLines_scenes (s : State) (f : LineState → LineState) : (s.modLines f).scenes = s.scenes := rfl
@[simp] theorem modLines_players (s : State) (f : LineState → LineState) : (s.modLines f).players = s.players := rfl
@[simp] theorem modLines_modulator (s : State) (f : LineState → LineState) : (s.modLines f).modulator = s.modulator := rfl
@[simp] theorem modLines_clocks (s : State) (f : LineState → LineState) : (s.modLines f).clocks = s.clocks := rfl
@[simp] theorem modLines_derateCeiling (s : State) (f : LineState → LineState) : (s.modLines f).derateCeiling = s.derateCeiling := rfl
@[simp] theorem modLines_lampTest (s : State) (f : LineState → LineState) : (s.modLines f).lampTest = s.lampTest := rfl
@[simp] theorem modLines_output (s : State) (f : LineState → LineState) : (s.modLines f).output = s.output := rfl
@[simp] theorem modLines_outs (s : State) (f : LineState → LineState) : (s.modLines f).outs = s.outs := rfl
@[simp] theorem modLines_watches (s : State) (f : LineState → LineState) : (s.modLines f).watches = s.watches := rfl
@[simp] theorem modLines_port (s : State) (f : LineState → LineState) (q : Port) : (s.modLines f).port q = s.port q := rfl
@[simp] theorem modLines_right (s : State) (f : LineState → LineState) (q : Port) : (s.modLines f).right q = s.right q := rfl
@[simp] theorem modLines_record (s : State) (f : LineState → LineState) (i : Slot) : (s.modLines f).record i = s.record i := rfl
@[simp] theorem modLines_entry (s : State) (f : LineState → LineState) (i : Channel) : (s.modLines f).entry i = s.entry i := rfl
@[simp] theorem modLines_scene (s : State) (f : LineState → LineState) (i : SceneNo) : (s.modLines f).scene i = s.scene i := rfl
@[simp] theorem modLines_player (s : State) (f : LineState → LineState) (i : PlayerNo) : (s.modLines f).player i = s.player i := rfl
@[simp] theorem modLines_chan (s : State) (f : LineState → LineState) (i : Channel) : (s.modLines f).chan i = s.chan i := rfl
@[simp] theorem modLines_clock (s : State) (f : LineState → LineState) (i : ClockNo) : (s.modLines f).clock i = s.clock i := rfl
@[simp] theorem modLines_out (s : State) (f : LineState → LineState) (i : Channel) : (s.modLines f).out i = s.out i := rfl
@[simp] theorem modLines_watch (s : State) (f : LineState → LineState) (i : WatchNo) : (s.modLines f).watch i = s.watch i := rfl

/-! ### modChan -/

@[simp] theorem modChan_now (s : State) (ch : Channel) (f : ModChannel → ModChannel) : (s.modChan ch f).now = s.now := rfl
@[simp] theorem modChan_draws (s : State) (ch : Channel) (f : ModChannel → ModChannel) : (s.modChan ch f).draws = s.draws := rfl
@[simp] theorem modChan_pending (s : State) (ch : Channel) (f : ModChannel → ModChannel) : (s.modChan ch f).pending = s.pending := rfl
@[simp] theorem modChan_lts (s : State) (ch : Channel) (f : ModChannel → ModChannel) : (s.modChan ch f).lts = s.lts := rfl
@[simp] theorem modChan_address0 (s : State) (ch : Channel) (f : ModChannel → ModChannel) : (s.modChan ch f).address0 = s.address0 := rfl
@[simp] theorem modChan_address1 (s : State) (ch : Channel) (f : ModChannel → ModChannel) : (s.modChan ch f).address1 = s.address1 := rfl
@[simp] theorem modChan_ports (s : State) (ch : Channel) (f : ModChannel → ModChannel) : (s.modChan ch f).ports = s.ports := rfl
@[simp] theorem modChan_access (s : State) (ch : Channel) (f : ModChannel → ModChannel) : (s.modChan ch f).access = s.access := rfl
@[simp] theorem modChan_pool (s : State) (ch : Channel) (f : ModChannel → ModChannel) : (s.modChan ch f).pool = s.pool := rfl
@[simp] theorem modChan_resolver (s : State) (ch : Channel) (f : ModChannel → ModChannel) : (s.modChan ch f).resolver = s.resolver := rfl
@[simp] theorem modChan_scenes (s : State) (ch : Channel) (f : ModChannel → ModChannel) : (s.modChan ch f).scenes = s.scenes := rfl
@[simp] theorem modChan_players (s : State) (ch : Channel) (f : ModChannel → ModChannel) : (s.modChan ch f).players = s.players := rfl
@[simp] theorem modChan_lines (s : State) (ch : Channel) (f : ModChannel → ModChannel) : (s.modChan ch f).lines = s.lines := rfl
@[simp] theorem modChan_clocks (s : State) (ch : Channel) (f : ModChannel → ModChannel) : (s.modChan ch f).clocks = s.clocks := rfl
@[simp] theorem modChan_derateCeiling (s : State) (ch : Channel) (f : ModChannel → ModChannel) : (s.modChan ch f).derateCeiling = s.derateCeiling := rfl
@[simp] theorem modChan_lampTest (s : State) (ch : Channel) (f : ModChannel → ModChannel) : (s.modChan ch f).lampTest = s.lampTest := rfl
@[simp] theorem modChan_output (s : State) (ch : Channel) (f : ModChannel → ModChannel) : (s.modChan ch f).output = s.output := rfl
@[simp] theorem modChan_outs (s : State) (ch : Channel) (f : ModChannel → ModChannel) : (s.modChan ch f).outs = s.outs := rfl
@[simp] theorem modChan_watches (s : State) (ch : Channel) (f : ModChannel → ModChannel) : (s.modChan ch f).watches = s.watches := rfl
@[simp] theorem modChan_port (s : State) (ch : Channel) (f : ModChannel → ModChannel) (q : Port) : (s.modChan ch f).port q = s.port q := rfl
@[simp] theorem modChan_right (s : State) (ch : Channel) (f : ModChannel → ModChannel) (q : Port) : (s.modChan ch f).right q = s.right q := rfl
@[simp] theorem modChan_record (s : State) (ch : Channel) (f : ModChannel → ModChannel) (i : Slot) : (s.modChan ch f).record i = s.record i := rfl
@[simp] theorem modChan_entry (s : State) (ch : Channel) (f : ModChannel → ModChannel) (i : Channel) : (s.modChan ch f).entry i = s.entry i := rfl
@[simp] theorem modChan_scene (s : State) (ch : Channel) (f : ModChannel → ModChannel) (i : SceneNo) : (s.modChan ch f).scene i = s.scene i := rfl
@[simp] theorem modChan_player (s : State) (ch : Channel) (f : ModChannel → ModChannel) (i : PlayerNo) : (s.modChan ch f).player i = s.player i := rfl
@[simp] theorem modChan_line (s : State) (ch : Channel) (f : ModChannel → ModChannel) (i : Line) : (s.modChan ch f).line i = s.line i := rfl
@[simp] theorem modChan_clock (s : State) (ch : Channel) (f : ModChannel → ModChannel) (i : ClockNo) : (s.modChan ch f).clock i = s.clock i := rfl
@[simp] theorem modChan_out (s : State) (ch : Channel) (f : ModChannel → ModChannel) (i : Channel) : (s.modChan ch f).out i = s.out i := rfl
@[simp] theorem modChan_watch (s : State) (ch : Channel) (f : ModChannel → ModChannel) (i : WatchNo) : (s.modChan ch f).watch i = s.watch i := rfl

/-! ### modClock -/

@[simp] theorem modClock_now (s : State) (k : ClockNo) (f : PatternClock → PatternClock) : (s.modClock k f).now = s.now := rfl
@[simp] theorem modClock_draws (s : State) (k : ClockNo) (f : PatternClock → PatternClock) : (s.modClock k f).draws = s.draws := rfl
@[simp] theorem modClock_pending (s : State) (k : ClockNo) (f : PatternClock → PatternClock) : (s.modClock k f).pending = s.pending := rfl
@[simp] theorem modClock_lts (s : State) (k : ClockNo) (f : PatternClock → PatternClock) : (s.modClock k f).lts = s.lts := rfl
@[simp] theorem modClock_address0 (s : State) (k : ClockNo) (f : PatternClock → PatternClock) : (s.modClock k f).address0 = s.address0 := rfl
@[simp] theorem modClock_address1 (s : State) (k : ClockNo) (f : PatternClock → PatternClock) : (s.modClock k f).address1 = s.address1 := rfl
@[simp] theorem modClock_ports (s : State) (k : ClockNo) (f : PatternClock → PatternClock) : (s.modClock k f).ports = s.ports := rfl
@[simp] theorem modClock_access (s : State) (k : ClockNo) (f : PatternClock → PatternClock) : (s.modClock k f).access = s.access := rfl
@[simp] theorem modClock_pool (s : State) (k : ClockNo) (f : PatternClock → PatternClock) : (s.modClock k f).pool = s.pool := rfl
@[simp] theorem modClock_resolver (s : State) (k : ClockNo) (f : PatternClock → PatternClock) : (s.modClock k f).resolver = s.resolver := rfl
@[simp] theorem modClock_scenes (s : State) (k : ClockNo) (f : PatternClock → PatternClock) : (s.modClock k f).scenes = s.scenes := rfl
@[simp] theorem modClock_players (s : State) (k : ClockNo) (f : PatternClock → PatternClock) : (s.modClock k f).players = s.players := rfl
@[simp] theorem modClock_lines (s : State) (k : ClockNo) (f : PatternClock → PatternClock) : (s.modClock k f).lines = s.lines := rfl
@[simp] theorem modClock_modulator (s : State) (k : ClockNo) (f : PatternClock → PatternClock) : (s.modClock k f).modulator = s.modulator := rfl
@[simp] theorem modClock_derateCeiling (s : State) (k : ClockNo) (f : PatternClock → PatternClock) : (s.modClock k f).derateCeiling = s.derateCeiling := rfl
@[simp] theorem modClock_lampTest (s : State) (k : ClockNo) (f : PatternClock → PatternClock) : (s.modClock k f).lampTest = s.lampTest := rfl
@[simp] theorem modClock_output (s : State) (k : ClockNo) (f : PatternClock → PatternClock) : (s.modClock k f).output = s.output := rfl
@[simp] theorem modClock_outs (s : State) (k : ClockNo) (f : PatternClock → PatternClock) : (s.modClock k f).outs = s.outs := rfl
@[simp] theorem modClock_watches (s : State) (k : ClockNo) (f : PatternClock → PatternClock) : (s.modClock k f).watches = s.watches := rfl
@[simp] theorem modClock_port (s : State) (k : ClockNo) (f : PatternClock → PatternClock) (q : Port) : (s.modClock k f).port q = s.port q := rfl
@[simp] theorem modClock_right (s : State) (k : ClockNo) (f : PatternClock → PatternClock) (q : Port) : (s.modClock k f).right q = s.right q := rfl
@[simp] theorem modClock_record (s : State) (k : ClockNo) (f : PatternClock → PatternClock) (i : Slot) : (s.modClock k f).record i = s.record i := rfl
@[simp] theorem modClock_entry (s : State) (k : ClockNo) (f : PatternClock → PatternClock) (i : Channel) : (s.modClock k f).entry i = s.entry i := rfl
@[simp] theorem modClock_scene (s : State) (k : ClockNo) (f : PatternClock → PatternClock) (i : SceneNo) : (s.modClock k f).scene i = s.scene i := rfl
@[simp] theorem modClock_player (s : State) (k : ClockNo) (f : PatternClock → PatternClock) (i : PlayerNo) : (s.modClock k f).player i = s.player i := rfl
@[simp] theorem modClock_line (s : State) (k : ClockNo) (f : PatternClock → PatternClock) (i : Line) : (s.modClock k f).line i = s.line i := rfl
@[simp] theorem modClock_chan (s : State) (k : ClockNo) (f : PatternClock → PatternClock) (i : Channel) : (s.modClock k f).chan i = s.chan i := rfl
@[simp] theorem modClock_out (s : State) (k : ClockNo) (f : PatternClock → PatternClock) (i : Channel) : (s.modClock k f).out i = s.out i := rfl
@[simp] theorem modClock_watch (s : State) (k : ClockNo) (f : PatternClock → PatternClock) (i : WatchNo) : (s.modClock k f).watch i = s.watch i := rfl

/-! ### modClocks -/

@[simp] theorem modClocks_now (s : State) (f : PatternClock → PatternClock) : (s.modClocks f).now = s.now := rfl
@[simp] theorem modClocks_draws (s : State) (f : PatternClock → PatternClock) : (s.modClocks f).draws = s.draws := rfl
@[simp] theorem modClocks_pending (s : State) (f : PatternClock → PatternClock) : (s.modClocks f).pending = s.pending := rfl
@[simp] theorem modClocks_lts (s : State) (f : PatternClock → PatternClock) : (s.modClocks f).lts = s.lts := rfl
@[simp] theorem modClocks_address0 (s : State) (f : PatternClock → PatternClock) : (s.modClocks f).address0 = s.address0 := rfl
@[simp] theorem modClocks_address1 (s : State) (f : PatternClock → PatternClock) : (s.modClocks f).address1 = s.address1 := rfl
@[simp] theorem modClocks_ports (s : State) (f : PatternClock → PatternClock) : (s.modClocks f).ports = s.ports := rfl
@[simp] theorem modClocks_access (s : State) (f : PatternClock → PatternClock) : (s.modClocks f).access = s.access := rfl
@[simp] theorem modClocks_pool (s : State) (f : PatternClock → PatternClock) : (s.modClocks f).pool = s.pool := rfl
@[simp] theorem modClocks_resolver (s : State) (f : PatternClock → PatternClock) : (s.modClocks f).resolver = s.resolver := rfl
@[simp] theorem modClocks_scenes (s : State) (f : PatternClock → PatternClock) : (s.modClocks f).scenes = s.scenes := rfl
@[simp] theorem modClocks_players (s : State) (f : PatternClock → PatternClock) : (s.modClocks f).players = s.players := rfl
@[simp] theorem modClocks_lines (s : State) (f : PatternClock → PatternClock) : (s.modClocks f).lines = s.lines := rfl
@[simp] theorem modClocks_modulator (s : State) (f : PatternClock → PatternClock) : (s.modClocks f).modulator = s.modulator := rfl
@[simp] theorem modClocks_derateCeiling (s : State) (f : PatternClock → PatternClock) : (s.modClocks f).derateCeiling = s.derateCeiling := rfl
@[simp] theorem modClocks_lampTest (s : State) (f : PatternClock → PatternClock) : (s.modClocks f).lampTest = s.lampTest := rfl
@[simp] theorem modClocks_output (s : State) (f : PatternClock → PatternClock) : (s.modClocks f).output = s.output := rfl
@[simp] theorem modClocks_outs (s : State) (f : PatternClock → PatternClock) : (s.modClocks f).outs = s.outs := rfl
@[simp] theorem modClocks_watches (s : State) (f : PatternClock → PatternClock) : (s.modClocks f).watches = s.watches := rfl
@[simp] theorem modClocks_port (s : State) (f : PatternClock → PatternClock) (q : Port) : (s.modClocks f).port q = s.port q := rfl
@[simp] theorem modClocks_right (s : State) (f : PatternClock → PatternClock) (q : Port) : (s.modClocks f).right q = s.right q := rfl
@[simp] theorem modClocks_record (s : State) (f : PatternClock → PatternClock) (i : Slot) : (s.modClocks f).record i = s.record i := rfl
@[simp] theorem modClocks_entry (s : State) (f : PatternClock → PatternClock) (i : Channel) : (s.modClocks f).entry i = s.entry i := rfl
@[simp] theorem modClocks_scene (s : State) (f : PatternClock → PatternClock) (i : SceneNo) : (s.modClocks f).scene i = s.scene i := rfl
@[simp] theorem modClocks_player (s : State) (f : PatternClock → PatternClock) (i : PlayerNo) : (s.modClocks f).player i = s.player i := rfl
@[simp] theorem modClocks_line (s : State) (f : PatternClock → PatternClock) (i : Line) : (s.modClocks f).line i = s.line i := rfl
@[simp] theorem modClocks_chan (s : State) (f : PatternClock → PatternClock) (i : Channel) : (s.modClocks f).chan i = s.chan i := rfl
@[simp] theorem modClocks_out (s : State) (f : PatternClock → PatternClock) (i : Channel) : (s.modClocks f).out i = s.out i := rfl
@[simp] theorem modClocks_watch (s : State) (f : PatternClock → PatternClock) (i : WatchNo) : (s.modClocks f).watch i = s.watch i := rfl

/-! ### modOut -/

@[simp] theorem modOut_now (s : State) (ch : Channel) (f : OutChannel → OutChannel) : (s.modOut ch f).now = s.now := rfl
@[simp] theorem modOut_draws (s : State) (ch : Channel) (f : OutChannel → OutChannel) : (s.modOut ch f).draws = s.draws := rfl
@[simp] theorem modOut_pending (s : State) (ch : Channel) (f : OutChannel → OutChannel) : (s.modOut ch f).pending = s.pending := rfl
@[simp] theorem modOut_lts (s : State) (ch : Channel) (f : OutChannel → OutChannel) : (s.modOut ch f).lts = s.lts := rfl
@[simp] theorem modOut_address0 (s : State) (ch : Channel) (f : OutChannel → OutChannel) : (s.modOut ch f).address0 = s.address0 := rfl
@[simp] theorem modOut_address1 (s : State) (ch : Channel) (f : OutChannel → OutChannel) : (s.modOut ch f).address1 = s.address1 := rfl
@[simp] theorem modOut_ports (s : State) (ch : Channel) (f : OutChannel → OutChannel) : (s.modOut ch f).ports = s.ports := rfl
@[simp] theorem modOut_access (s : State) (ch : Channel) (f : OutChannel → OutChannel) : (s.modOut ch f).access = s.access := rfl
@[simp] theorem modOut_pool (s : State) (ch : Channel) (f : OutChannel → OutChannel) : (s.modOut ch f).pool = s.pool := rfl
@[simp] theorem modOut_resolver (s : State) (ch : Channel) (f : OutChannel → OutChannel) : (s.modOut ch f).resolver = s.resolver := rfl
@[simp] theorem modOut_scenes (s : State) (ch : Channel) (f : OutChannel → OutChannel) : (s.modOut ch f).scenes = s.scenes := rfl
@[simp] theorem modOut_players (s : State) (ch : Channel) (f : OutChannel → OutChannel) : (s.modOut ch f).players = s.players := rfl
@[simp] theorem modOut_lines (s : State) (ch : Channel) (f : OutChannel → OutChannel) : (s.modOut ch f).lines = s.lines := rfl
@[simp] theorem modOut_modulator (s : State) (ch : Channel) (f : OutChannel → OutChannel) : (s.modOut ch f).modulator = s.modulator := rfl
@[simp] theorem modOut_clocks (s : State) (ch : Channel) (f : OutChannel → OutChannel) : (s.modOut ch f).clocks = s.clocks := rfl
@[simp] theorem modOut_derateCeiling (s : State) (ch : Channel) (f : OutChannel → OutChannel) : (s.modOut ch f).derateCeiling = s.derateCeiling := rfl
@[simp] theorem modOut_lampTest (s : State) (ch : Channel) (f : OutChannel → OutChannel) : (s.modOut ch f).lampTest = s.lampTest := rfl
@[simp] theorem modOut_output (s : State) (ch : Channel) (f : OutChannel → OutChannel) : (s.modOut ch f).output = s.output := rfl
@[simp] theorem modOut_watches (s : State) (ch : Channel) (f : OutChannel → OutChannel) : (s.modOut ch f).watches = s.watches := rfl
@[simp] theorem modOut_port (s : State) (ch : Channel) (f : OutChannel → OutChannel) (q : Port) : (s.modOut ch f).port q = s.port q := rfl
@[simp] theorem modOut_right (s : State) (ch : Channel) (f : OutChannel → OutChannel) (q : Port) : (s.modOut ch f).right q = s.right q := rfl
@[simp] theorem modOut_record (s : State) (ch : Channel) (f : OutChannel → OutChannel) (i : Slot) : (s.modOut ch f).record i = s.record i := rfl
@[simp] theorem modOut_entry (s : State) (ch : Channel) (f : OutChannel → OutChannel) (i : Channel) : (s.modOut ch f).entry i = s.entry i := rfl
@[simp] theorem modOut_scene (s : State) (ch : Channel) (f : OutChannel → OutChannel) (i : SceneNo) : (s.modOut ch f).scene i = s.scene i := rfl
@[simp] theorem modOut_player (s : State) (ch : Channel) (f : OutChannel → OutChannel) (i : PlayerNo) : (s.modOut ch f).player i = s.player i := rfl
@[simp] theorem modOut_line (s : State) (ch : Channel) (f : OutChannel → OutChannel) (i : Line) : (s.modOut ch f).line i = s.line i := rfl
@[simp] theorem modOut_chan (s : State) (ch : Channel) (f : OutChannel → OutChannel) (i : Channel) : (s.modOut ch f).chan i = s.chan i := rfl
@[simp] theorem modOut_clock (s : State) (ch : Channel) (f : OutChannel → OutChannel) (i : ClockNo) : (s.modOut ch f).clock i = s.clock i := rfl
@[simp] theorem modOut_watch (s : State) (ch : Channel) (f : OutChannel → OutChannel) (i : WatchNo) : (s.modOut ch f).watch i = s.watch i := rfl

/-! ### modOuts -/

@[simp] theorem modOuts_now (s : State) (f : OutChannel → OutChannel) : (s.modOuts f).now = s.now := rfl
@[simp] theorem modOuts_draws (s : State) (f : OutChannel → OutChannel) : (s.modOuts f).draws = s.draws := rfl
@[simp] theorem modOuts_pending (s : State) (f : OutChannel → OutChannel) : (s.modOuts f).pending = s.pending := rfl
@[simp] theorem modOuts_lts (s : State) (f : OutChannel → OutChannel) : (s.modOuts f).lts = s.lts := rfl
@[simp] theorem modOuts_address0 (s : State) (f : OutChannel → OutChannel) : (s.modOuts f).address0 = s.address0 := rfl
@[simp] theorem modOuts_address1 (s : State) (f : OutChannel → OutChannel) : (s.modOuts f).address1 = s.address1 := rfl
@[simp] theorem modOuts_ports (s : State) (f : OutChannel → OutChannel) : (s.modOuts f).ports = s.ports := rfl
@[simp] theorem modOuts_access (s : State) (f : OutChannel → OutChannel) : (s.modOuts f).access = s.access := rfl
@[simp] theorem modOuts_pool (s : State) (f : OutChannel → OutChannel) : (s.modOuts f).pool = s.pool := rfl
@[simp] theorem modOuts_resolver (s : State) (f : OutChannel → OutChannel) : (s.modOuts f).resolver = s.resolver := rfl
@[simp] theorem modOuts_scenes (s : State) (f : OutChannel → OutChannel) : (s.modOuts f).scenes = s.scenes := rfl
@[simp] theorem modOuts_players (s : State) (f : OutChannel → OutChannel) : (s.modOuts f).players = s.players := rfl
@[simp] theorem modOuts_lines (s : State) (f : OutChannel → OutChannel) : (s.modOuts f).lines = s.lines := rfl
@[simp] theorem modOuts_modulator (s : State) (f : OutChannel → OutChannel) : (s.modOuts f).modulator = s.modulator := rfl
@[simp] theorem modOuts_clocks (s : State) (f : OutChannel → OutChannel) : (s.modOuts f).clocks = s.clocks := rfl
@[simp] theorem modOuts_derateCeiling (s : State) (f : OutChannel → OutChannel) : (s.modOuts f).derateCeiling = s.derateCeiling := rfl
@[simp] theorem modOuts_lampTest (s : State) (f : OutChannel → OutChannel) : (s.modOuts f).lampTest = s.lampTest := rfl
@[simp] theorem modOuts_output (s : State) (f : OutChannel → OutChannel) : (s.modOuts f).output = s.output := rfl
@[simp] theorem modOuts_watches (s : State) (f : OutChannel → OutChannel) : (s.modOuts f).watches = s.watches := rfl
@[simp] theorem modOuts_port (s : State) (f : OutChannel → OutChannel) (q : Port) : (s.modOuts f).port q = s.port q := rfl
@[simp] theorem modOuts_right (s : State) (f : OutChannel → OutChannel) (q : Port) : (s.modOuts f).right q = s.right q := rfl
@[simp] theorem modOuts_record (s : State) (f : OutChannel → OutChannel) (i : Slot) : (s.modOuts f).record i = s.record i := rfl
@[simp] theorem modOuts_entry (s : State) (f : OutChannel → OutChannel) (i : Channel) : (s.modOuts f).entry i = s.entry i := rfl
@[simp] theorem modOuts_scene (s : State) (f : OutChannel → OutChannel) (i : SceneNo) : (s.modOuts f).scene i = s.scene i := rfl
@[simp] theorem modOuts_player (s : State) (f : OutChannel → OutChannel) (i : PlayerNo) : (s.modOuts f).player i = s.player i := rfl
@[simp] theorem modOuts_line (s : State) (f : OutChannel → OutChannel) (i : Line) : (s.modOuts f).line i = s.line i := rfl
@[simp] theorem modOuts_chan (s : State) (f : OutChannel → OutChannel) (i : Channel) : (s.modOuts f).chan i = s.chan i := rfl
@[simp] theorem modOuts_clock (s : State) (f : OutChannel → OutChannel) (i : ClockNo) : (s.modOuts f).clock i = s.clock i := rfl
@[simp] theorem modOuts_watch (s : State) (f : OutChannel → OutChannel) (i : WatchNo) : (s.modOuts f).watch i = s.watch i := rfl

/-! ### modWatches -/

@[simp] theorem modWatches_now (s : State) (f : Option Watch → Option Watch) : (s.modWatches f).now = s.now := rfl
@[simp] theorem modWatches_draws (s : State) (f : Option Watch → Option Watch) : (s.modWatches f).draws = s.draws := rfl
@[simp] theorem modWatches_pending (s : State) (f : Option Watch → Option Watch) : (s.modWatches f).pending = s.pending := rfl
@[simp] theorem modWatches_lts (s : State) (f : Option Watch → Option Watch) : (s.modWatches f).lts = s.lts := rfl
@[simp] theorem modWatches_address0 (s : State) (f : Option Watch → Option Watch) : (s.modWatches f).address0 = s.address0 := rfl
@[simp] theorem modWatches_address1 (s : State) (f : Option Watch → Option Watch) : (s.modWatches f).address1 = s.address1 := rfl
@[simp] theorem modWatches_ports (s : State) (f : Option Watch → Option Watch) : (s.modWatches f).ports = s.ports := rfl
@[simp] theorem modWatches_access (s : State) (f : Option Watch → Option Watch) : (s.modWatches f).access = s.access := rfl
@[simp] theorem modWatches_pool (s : State) (f : Option Watch → Option Watch) : (s.modWatches f).pool = s.pool := rfl
@[simp] theorem modWatches_resolver (s : State) (f : Option Watch → Option Watch) : (s.modWatches f).resolver = s.resolver := rfl
@[simp] theorem modWatches_scenes (s : State) (f : Option Watch → Option Watch) : (s.modWatches f).scenes = s.scenes := rfl
@[simp] theorem modWatches_players (s : State) (f : Option Watch → Option Watch) : (s.modWatches f).players = s.players := rfl
@[simp] theorem modWatches_lines (s : State) (f : Option Watch → Option Watch) : (s.modWatches f).lines = s.lines := rfl
@[simp] theorem modWatches_modulator (s : State) (f : Option Watch → Option Watch) : (s.modWatches f).modulator = s.modulator := rfl
@[simp] theorem modWatches_clocks (s : State) (f : Option Watch → Option Watch) : (s.modWatches f).clocks = s.clocks := rfl
@[simp] theorem modWatches_derateCeiling (s : State) (f : Option Watch → Option Watch) : (s.modWatches f).derateCeiling = s.derateCeiling := rfl
@[simp] theorem modWatches_lampTest (s : State) (f : Option Watch → Option Watch) : (s.modWatches f).lampTest = s.lampTest := rfl
@[simp] theorem modWatches_output (s : State) (f : Option Watch → Option Watch) : (s.modWatches f).output = s.output := rfl
@[simp] theorem modWatches_outs (s : State) (f : Option Watch → Option Watch) : (s.modWatches f).outs = s.outs := rfl
@[simp] theorem modWatches_port (s : State) (f : Option Watch → Option Watch) (q : Port) : (s.modWatches f).port q = s.port q := rfl
@[simp] theorem modWatches_right (s : State) (f : Option Watch → Option Watch) (q : Port) : (s.modWatches f).right q = s.right q := rfl
@[simp] theorem modWatches_record (s : State) (f : Option Watch → Option Watch) (i : Slot) : (s.modWatches f).record i = s.record i := rfl
@[simp] theorem modWatches_entry (s : State) (f : Option Watch → Option Watch) (i : Channel) : (s.modWatches f).entry i = s.entry i := rfl
@[simp] theorem modWatches_scene (s : State) (f : Option Watch → Option Watch) (i : SceneNo) : (s.modWatches f).scene i = s.scene i := rfl
@[simp] theorem modWatches_player (s : State) (f : Option Watch → Option Watch) (i : PlayerNo) : (s.modWatches f).player i = s.player i := rfl
@[simp] theorem modWatches_line (s : State) (f : Option Watch → Option Watch) (i : Line) : (s.modWatches f).line i = s.line i := rfl
@[simp] theorem modWatches_chan (s : State) (f : Option Watch → Option Watch) (i : Channel) : (s.modWatches f).chan i = s.chan i := rfl
@[simp] theorem modWatches_clock (s : State) (f : Option Watch → Option Watch) (i : ClockNo) : (s.modWatches f).clock i = s.clock i := rfl
@[simp] theorem modWatches_out (s : State) (f : Option Watch → Option Watch) (i : Channel) : (s.modWatches f).out i = s.out i := rfl

/-! ### setWatch -/

@[simp] theorem setWatch_now (s : State) (w : WatchNo) (x : Option Watch) : (s.setWatch w x).now = s.now := rfl
@[simp] theorem setWatch_draws (s : State) (w : WatchNo) (x : Option Watch) : (s.setWatch w x).draws = s.draws := rfl
@[simp] theorem setWatch_pending (s : State) (w : WatchNo) (x : Option Watch) : (s.setWatch w x).pending = s.pending := rfl
@[simp] theorem setWatch_lts (s : State) (w : WatchNo) (x : Option Watch) : (s.setWatch w x).lts = s.lts := rfl
@[simp] theorem setWatch_address0 (s : State) (w : WatchNo) (x : Option Watch) : (s.setWatch w x).address0 = s.address0 := rfl
@[simp] theorem setWatch_address1 (s : State) (w : WatchNo) (x : Option Watch) : (s.setWatch w x).address1 = s.address1 := rfl
@[simp] theorem setWatch_ports (s : State) (w : WatchNo) (x : Option Watch) : (s.setWatch w x).ports = s.ports := rfl
@[simp] theorem setWatch_access (s : State) (w : WatchNo) (x : Option Watch) : (s.setWatch w x).access = s.access := rfl
@[simp] theorem setWatch_pool (s : State) (w : WatchNo) (x : Option Watch) : (s.setWatch w x).pool = s.pool := rfl
@[simp] theorem setWatch_resolver (s : State) (w : WatchNo) (x : Option Watch) : (s.setWatch w x).resolver = s.resolver := rfl
@[simp] theorem setWatch_scenes (s : State) (w : WatchNo) (x : Option Watch) : (s.setWatch w x).scenes = s.scenes := rfl
@[simp] theorem setWatch_players (s : State) (w : WatchNo) (x : Option Watch) : (s.setWatch w x).players = s.players := rfl
@[simp] theorem setWatch_lines (s : State) (w : WatchNo) (x : Option Watch) : (s.setWatch w x).lines = s.lines := rfl
@[simp] theorem setWatch_modulator (s : State) (w : WatchNo) (x : Option Watch) : (s.setWatch w x).modulator = s.modulator := rfl
@[simp] theorem setWatch_clocks (s : State) (w : WatchNo) (x : Option Watch) : (s.setWatch w x).clocks = s.clocks := rfl
@[simp] theorem setWatch_derateCeiling (s : State) (w : WatchNo) (x : Option Watch) : (s.setWatch w x).derateCeiling = s.derateCeiling := rfl
@[simp] theorem setWatch_lampTest (s : State) (w : WatchNo) (x : Option Watch) : (s.setWatch w x).lampTest = s.lampTest := rfl
@[simp] theorem setWatch_output (s : State) (w : WatchNo) (x : Option Watch) : (s.setWatch w x).output = s.output := rfl
@[simp] theorem setWatch_outs (s : State) (w : WatchNo) (x : Option Watch) : (s.setWatch w x).outs = s.outs := rfl
@[simp] theorem setWatch_port (s : State) (w : WatchNo) (x : Option Watch) (q : Port) : (s.setWatch w x).port q = s.port q := rfl
@[simp] theorem setWatch_right (s : State) (w : WatchNo) (x : Option Watch) (q : Port) : (s.setWatch w x).right q = s.right q := rfl
@[simp] theorem setWatch_record (s : State) (w : WatchNo) (x : Option Watch) (i : Slot) : (s.setWatch w x).record i = s.record i := rfl
@[simp] theorem setWatch_entry (s : State) (w : WatchNo) (x : Option Watch) (i : Channel) : (s.setWatch w x).entry i = s.entry i := rfl
@[simp] theorem setWatch_scene (s : State) (w : WatchNo) (x : Option Watch) (i : SceneNo) : (s.setWatch w x).scene i = s.scene i := rfl
@[simp] theorem setWatch_player (s : State) (w : WatchNo) (x : Option Watch) (i : PlayerNo) : (s.setWatch w x).player i = s.player i := rfl
@[simp] theorem setWatch_line (s : State) (w : WatchNo) (x : Option Watch) (i : Line) : (s.setWatch w x).line i = s.line i := rfl
@[simp] theorem setWatch_chan (s : State) (w : WatchNo) (x : Option Watch) (i : Channel) : (s.setWatch w x).chan i = s.chan i := rfl
@[simp] theorem setWatch_clock (s : State) (w : WatchNo) (x : Option Watch) (i : ClockNo) : (s.setWatch w x).clock i = s.clock i := rfl
@[simp] theorem setWatch_out (s : State) (w : WatchNo) (x : Option Watch) (i : Channel) : (s.setWatch w x).out i = s.out i := rfl

/-! ### modOutput -/

@[simp] theorem modOutput_now (s : State) (f : OutputStage → OutputStage) : (s.modOutput f).now = s.now := rfl
@[simp] theorem modOutput_draws (s : State) (f : OutputStage → OutputStage) : (s.modOutput f).draws = s.draws := rfl
@[simp] theorem modOutput_pending (s : State) (f : OutputStage → OutputStage) : (s.modOutput f).pending = s.pending := rfl
@[simp] theorem modOutput_lts (s : State) (f : OutputStage → OutputStage) : (s.modOutput f).lts = s.lts := rfl
@[simp] theorem modOutput_address0 (s : State) (f : OutputStage → OutputStage) : (s.modOutput f).address0 = s.address0 := rfl
@[simp] theorem modOutput_address1 (s : State) (f : OutputStage → OutputStage) : (s.modOutput f).address1 = s.address1 := rfl
@[simp] theorem modOutput_ports (s : State) (f : OutputStage → OutputStage) : (s.modOutput f).ports = s.ports := rfl
@[simp] theorem modOutput_access (s : State) (f : OutputStage → OutputStage) : (s.modOutput f).access = s.access := rfl
@[simp] theorem modOutput_pool (s : State) (f : OutputStage → OutputStage) : (s.modOutput f).pool = s.pool := rfl
@[simp] theorem modOutput_resolver (s : State) (f : OutputStage → OutputStage) : (s.modOutput f).resolver = s.resolver := rfl
@[simp] theorem modOutput_scenes (s : State) (f : OutputStage → OutputStage) : (s.modOutput f).scenes = s.scenes := rfl
@[simp] theorem modOutput_players (s : State) (f : OutputStage → OutputStage) : (s.modOutput f).players = s.players := rfl
@[simp] theorem modOutput_lines (s : State) (f : OutputStage → OutputStage) : (s.modOutput f).lines = s.lines := rfl
@[simp] theorem modOutput_modulator (s : State) (f : OutputStage → OutputStage) : (s.modOutput f).modulator = s.modulator := rfl
@[simp] theorem modOutput_clocks (s : State) (f : OutputStage → OutputStage) : (s.modOutput f).clocks = s.clocks := rfl
@[simp] theorem modOutput_derateCeiling (s : State) (f : OutputStage → OutputStage) : (s.modOutput f).derateCeiling = s.derateCeiling := rfl
@[simp] theorem modOutput_lampTest (s : State) (f : OutputStage → OutputStage) : (s.modOutput f).lampTest = s.lampTest := rfl
@[simp] theorem modOutput_outs (s : State) (f : OutputStage → OutputStage) : (s.modOutput f).outs = s.outs := rfl
@[simp] theorem modOutput_watches (s : State) (f : OutputStage → OutputStage) : (s.modOutput f).watches = s.watches := rfl
@[simp] theorem modOutput_port (s : State) (f : OutputStage → OutputStage) (q : Port) : (s.modOutput f).port q = s.port q := rfl
@[simp] theorem modOutput_right (s : State) (f : OutputStage → OutputStage) (q : Port) : (s.modOutput f).right q = s.right q := rfl
@[simp] theorem modOutput_record (s : State) (f : OutputStage → OutputStage) (i : Slot) : (s.modOutput f).record i = s.record i := rfl
@[simp] theorem modOutput_entry (s : State) (f : OutputStage → OutputStage) (i : Channel) : (s.modOutput f).entry i = s.entry i := rfl
@[simp] theorem modOutput_scene (s : State) (f : OutputStage → OutputStage) (i : SceneNo) : (s.modOutput f).scene i = s.scene i := rfl
@[simp] theorem modOutput_player (s : State) (f : OutputStage → OutputStage) (i : PlayerNo) : (s.modOutput f).player i = s.player i := rfl
@[simp] theorem modOutput_line (s : State) (f : OutputStage → OutputStage) (i : Line) : (s.modOutput f).line i = s.line i := rfl
@[simp] theorem modOutput_chan (s : State) (f : OutputStage → OutputStage) (i : Channel) : (s.modOutput f).chan i = s.chan i := rfl
@[simp] theorem modOutput_clock (s : State) (f : OutputStage → OutputStage) (i : ClockNo) : (s.modOutput f).clock i = s.clock i := rfl
@[simp] theorem modOutput_out (s : State) (f : OutputStage → OutputStage) (i : Channel) : (s.modOutput f).out i = s.out i := rfl
@[simp] theorem modOutput_watch (s : State) (f : OutputStage → OutputStage) (i : WatchNo) : (s.modOutput f).watch i = s.watch i := rfl

/-! ### setLampTest -/

@[simp] theorem setLampTest_now (s : State) (t : Option Instant) : (s.setLampTest t).now = s.now := rfl
@[simp] theorem setLampTest_draws (s : State) (t : Option Instant) : (s.setLampTest t).draws = s.draws := rfl
@[simp] theorem setLampTest_pending (s : State) (t : Option Instant) : (s.setLampTest t).pending = s.pending := rfl
@[simp] theorem setLampTest_lts (s : State) (t : Option Instant) : (s.setLampTest t).lts = s.lts := rfl
@[simp] theorem setLampTest_address0 (s : State) (t : Option Instant) : (s.setLampTest t).address0 = s.address0 := rfl
@[simp] theorem setLampTest_address1 (s : State) (t : Option Instant) : (s.setLampTest t).address1 = s.address1 := rfl
@[simp] theorem setLampTest_ports (s : State) (t : Option Instant) : (s.setLampTest t).ports = s.ports := rfl
@[simp] theorem setLampTest_access (s : State) (t : Option Instant) : (s.setLampTest t).access = s.access := rfl
@[simp] theorem setLampTest_pool (s : State) (t : Option Instant) : (s.setLampTest t).pool = s.pool := rfl
@[simp] theorem setLampTest_resolver (s : State) (t : Option Instant) : (s.setLampTest t).resolver = s.resolver := rfl
@[simp] theorem setLampTest_scenes (s : State) (t : Option Instant) : (s.setLampTest t).scenes = s.scenes := rfl
@[simp] theorem setLampTest_players (s : State) (t : Option Instant) : (s.setLampTest t).players = s.players := rfl
@[simp] theorem setLampTest_lines (s : State) (t : Option Instant) : (s.setLampTest t).lines = s.lines := rfl
@[simp] theorem setLampTest_modulator (s : State) (t : Option Instant) : (s.setLampTest t).modulator = s.modulator := rfl
@[simp] theorem setLampTest_clocks (s : State) (t : Option Instant) : (s.setLampTest t).clocks = s.clocks := rfl
@[simp] theorem setLampTest_derateCeiling (s : State) (t : Option Instant) : (s.setLampTest t).derateCeiling = s.derateCeiling := rfl
@[simp] theorem setLampTest_output (s : State) (t : Option Instant) : (s.setLampTest t).output = s.output := rfl
@[simp] theorem setLampTest_outs (s : State) (t : Option Instant) : (s.setLampTest t).outs = s.outs := rfl
@[simp] theorem setLampTest_watches (s : State) (t : Option Instant) : (s.setLampTest t).watches = s.watches := rfl
@[simp] theorem setLampTest_port (s : State) (t : Option Instant) (q : Port) : (s.setLampTest t).port q = s.port q := rfl
@[simp] theorem setLampTest_right (s : State) (t : Option Instant) (q : Port) : (s.setLampTest t).right q = s.right q := rfl
@[simp] theorem setLampTest_record (s : State) (t : Option Instant) (i : Slot) : (s.setLampTest t).record i = s.record i := rfl
@[simp] theorem setLampTest_entry (s : State) (t : Option Instant) (i : Channel) : (s.setLampTest t).entry i = s.entry i := rfl
@[simp] theorem setLampTest_scene (s : State) (t : Option Instant) (i : SceneNo) : (s.setLampTest t).scene i = s.scene i := rfl
@[simp] theorem setLampTest_player (s : State) (t : Option Instant) (i : PlayerNo) : (s.setLampTest t).player i = s.player i := rfl
@[simp] theorem setLampTest_line (s : State) (t : Option Instant) (i : Line) : (s.setLampTest t).line i = s.line i := rfl
@[simp] theorem setLampTest_chan (s : State) (t : Option Instant) (i : Channel) : (s.setLampTest t).chan i = s.chan i := rfl
@[simp] theorem setLampTest_clock (s : State) (t : Option Instant) (i : ClockNo) : (s.setLampTest t).clock i = s.clock i := rfl
@[simp] theorem setLampTest_out (s : State) (t : Option Instant) (i : Channel) : (s.setLampTest t).out i = s.out i := rfl
@[simp] theorem setLampTest_watch (s : State) (t : Option Instant) (i : WatchNo) : (s.setLampTest t).watch i = s.watch i := rfl

/-! ### setDerateCeiling -/

@[simp] theorem setDerateCeiling_now (s : State) (v : Level) : (s.setDerateCeiling v).now = s.now := rfl
@[simp] theorem setDerateCeiling_draws (s : State) (v : Level) : (s.setDerateCeiling v).draws = s.draws := rfl
@[simp] theorem setDerateCeiling_pending (s : State) (v : Level) : (s.setDerateCeiling v).pending = s.pending := rfl
@[simp] theorem setDerateCeiling_lts (s : State) (v : Level) : (s.setDerateCeiling v).lts = s.lts := rfl
@[simp] theorem setDerateCeiling_address0 (s : State) (v : Level) : (s.setDerateCeiling v).address0 = s.address0 := rfl
@[simp] theorem setDerateCeiling_address1 (s : State) (v : Level) : (s.setDerateCeiling v).address1 = s.address1 := rfl
@[simp] theorem setDerateCeiling_ports (s : State) (v : Level) : (s.setDerateCeiling v).ports = s.ports := rfl
@[simp] theorem setDerateCeiling_access (s : State) (v : Level) : (s.setDerateCeiling v).access = s.access := rfl
@[simp] theorem setDerateCeiling_pool (s : State) (v : Level) : (s.setDerateCeiling v).pool = s.pool := rfl
@[simp] theorem setDerateCeiling_resolver (s : State) (v : Level) : (s.setDerateCeiling v).resolver = s.resolver := rfl
@[simp] theorem setDerateCeiling_scenes (s : State) (v : Level) : (s.setDerateCeiling v).scenes = s.scenes := rfl
@[simp] theorem setDerateCeiling_players (s : State) (v : Level) : (s.setDerateCeiling v).players = s.players := rfl
@[simp] theorem setDerateCeiling_lines (s : State) (v : Level) : (s.setDerateCeiling v).lines = s.lines := rfl
@[simp] theorem setDerateCeiling_modulator (s : State) (v : Level) : (s.setDerateCeiling v).modulator = s.modulator := rfl
@[simp] theorem setDerateCeiling_clocks (s : State) (v : Level) : (s.setDerateCeiling v).clocks = s.clocks := rfl
@[simp] theorem setDerateCeiling_lampTest (s : State) (v : Level) : (s.setDerateCeiling v).lampTest = s.lampTest := rfl
@[simp] theorem setDerateCeiling_output (s : State) (v : Level) : (s.setDerateCeiling v).output = s.output := rfl
@[simp] theorem setDerateCeiling_outs (s : State) (v : Level) : (s.setDerateCeiling v).outs = s.outs := rfl
@[simp] theorem setDerateCeiling_watches (s : State) (v : Level) : (s.setDerateCeiling v).watches = s.watches := rfl
@[simp] theorem setDerateCeiling_port (s : State) (v : Level) (q : Port) : (s.setDerateCeiling v).port q = s.port q := rfl
@[simp] theorem setDerateCeiling_right (s : State) (v : Level) (q : Port) : (s.setDerateCeiling v).right q = s.right q := rfl
@[simp] theorem setDerateCeiling_record (s : State) (v : Level) (i : Slot) : (s.setDerateCeiling v).record i = s.record i := rfl
@[simp] theorem setDerateCeiling_entry (s : State) (v : Level) (i : Channel) : (s.setDerateCeiling v).entry i = s.entry i := rfl
@[simp] theorem setDerateCeiling_scene (s : State) (v : Level) (i : SceneNo) : (s.setDerateCeiling v).scene i = s.scene i := rfl
@[simp] theorem setDerateCeiling_player (s : State) (v : Level) (i : PlayerNo) : (s.setDerateCeiling v).player i = s.player i := rfl
@[simp] theorem setDerateCeiling_line (s : State) (v : Level) (i : Line) : (s.setDerateCeiling v).line i = s.line i := rfl
@[simp] theorem setDerateCeiling_chan (s : State) (v : Level) (i : Channel) : (s.setDerateCeiling v).chan i = s.chan i := rfl
@[simp] theorem setDerateCeiling_clock (s : State) (v : Level) (i : ClockNo) : (s.setDerateCeiling v).clock i = s.clock i := rfl
@[simp] theorem setDerateCeiling_out (s : State) (v : Level) (i : Channel) : (s.setDerateCeiling v).out i = s.out i := rfl
@[simp] theorem setDerateCeiling_watch (s : State) (v : Level) (i : WatchNo) : (s.setDerateCeiling v).watch i = s.watch i := rfl

/-! ### The field an update changes -/

@[simp] theorem modPort_ports (s : State) (p : Port) (f : PortState → PortState) : (s.modPort p f).ports = tmod s.ports p f := rfl
@[simp] theorem modRight_access (s : State) (p : Port) (f : Rights → Rights) : (s.modRight p f).access = { s.access with rights := tmod s.access.rights p f } := rfl
@[simp] theorem setMaintenance_access (s : State) (p : Port) : (s.setMaintenance p).access = { s.access with maintenance := p } := rfl
@[simp] theorem modRecord_pool (s : State) (k : Slot) (f : ClaimRecord → ClaimRecord) : (s.modRecord k f).pool = tmod s.pool k f := rfl
@[simp] theorem modEntry_resolver (s : State) (ch : Channel) (f : ResolverEntry → ResolverEntry) : (s.modEntry ch f).resolver = tmod s.resolver ch f := rfl
@[simp] theorem modScene_scenes (s : State) (k : SceneNo) (f : Scene → Scene) : (s.modScene k f).scenes = tmod s.scenes k f := rfl
@[simp] theorem modPlayer_players (s : State) (n : PlayerNo) (f : Player → Player) : (s.modPlayer n f).players = tmod s.players n f := rfl
@[simp] theorem modLine_lines (s : State) (l : Line) (f : LineState → LineState) : (s.modLine l f).lines = tmod s.lines l f := rfl
@[simp] theorem modLines_lines (s : State) (f : LineState → LineState) : (s.modLines f).lines = tmap f s.lines := rfl
@[simp] theorem modChan_modulator (s : State) (ch : Channel) (f : ModChannel → ModChannel) : (s.modChan ch f).modulator = tmod s.modulator ch f := rfl
@[simp] theorem modClock_clocks (s : State) (k : ClockNo) (f : PatternClock → PatternClock) : (s.modClock k f).clocks = tmod s.clocks k f := rfl
@[simp] theorem modClocks_clocks (s : State) (f : PatternClock → PatternClock) : (s.modClocks f).clocks = tmap f s.clocks := rfl
@[simp] theorem modOut_outs (s : State) (ch : Channel) (f : OutChannel → OutChannel) : (s.modOut ch f).outs = tmod s.outs ch f := rfl
@[simp] theorem modOuts_outs (s : State) (f : OutChannel → OutChannel) : (s.modOuts f).outs = tmap f s.outs := rfl
@[simp] theorem modWatches_watches (s : State) (f : Option Watch → Option Watch) : (s.modWatches f).watches = tmap f s.watches := rfl
@[simp] theorem setWatch_watches (s : State) (w : WatchNo) (x : Option Watch) : (s.setWatch w x).watches = tset s.watches w x := rfl
@[simp] theorem modOutput_output (s : State) (f : OutputStage → OutputStage) : (s.modOutput f).output = f s.output := rfl
@[simp] theorem setLampTest_lampTest (s : State) (t : Option Instant) : (s.setLampTest t).lampTest = t := rfl
@[simp] theorem setDerateCeiling_derateCeiling (s : State) (v : Level) : (s.setDerateCeiling v).derateCeiling = v := rfl
@[simp] theorem setMaintenance_right (s : State) (p q : Port) : (s.setMaintenance p).right q = s.right q := rfl

end Sys2Proof.Machine.State
end

