-- ==== Sys2Proof/Laws/Tables.lean ====
section
/-! SUPPORT. Tables, channel sets and operations done for each index of a list: what a read gives after a write, and
what a sequence of operations keeps. -/

namespace Sys2Proof.Machine

/-! ### Tables -/

@[simp] theorem tget_tset_self {α : Type} {n : Nat} (v : Vector α n) (i : Fin n) (x : α) :
    tget (tset v i x) i = x := by simp [tget, tset]

theorem tget_tset_ne {α : Type} {n : Nat} (v : Vector α n) {i j : Fin n} (x : α) (h : j ≠ i) :
    tget (tset v i x) j = tget v j := by
  have : i.val ≠ j.val := fun e => h (Fin.ext e.symm)
  simp [tget, tset, this]

theorem tget_tset {α : Type} {n : Nat} (v : Vector α n) (i j : Fin n) (x : α) :
    tget (tset v i x) j = if j = i then x else tget v j := by
  by_cases h : j = i
  · subst h; simp
  · simp [h, tget_tset_ne v x h]

@[simp] theorem tget_tmod_self {α : Type} {n : Nat} (v : Vector α n) (i : Fin n) (f : α → α) :
    tget (tmod v i f) i = f (tget v i) := by simp [tmod]

theorem tget_tmod_ne {α : Type} {n : Nat} (v : Vector α n) {i j : Fin n} (f : α → α) (h : j ≠ i) :
    tget (tmod v i f) j = tget v j := by simp [tmod, tget_tset_ne v _ h]

theorem tget_tmod {α : Type} {n : Nat} (v : Vector α n) (i j : Fin n) (f : α → α) :
    tget (tmod v i f) j = if j = i then f (tget v i) else tget v j := by simp [tmod, tget_tset]

@[simp] theorem tget_tmap {α : Type} {n : Nat} (f : α → α) (v : Vector α n) (i : Fin n) :
    tget (tmap f v) i = f (tget v i) := by simp [tget, tmap]

@[simp] theorem tget_replicate {α : Type} {n : Nat} (x : α) (i : Fin n) : tget (Vector.replicate n x) i = x := by
  simp [tget]

/-- Two tables with the same entries are equal. -/
theorem table_ext {α : Type} {n : Nat} {v w : Vector α n} (h : ∀ i, tget v i = tget w i) : v = w := by
  ext i hi
  exact h ⟨i, hi⟩

/-- Writing back the entry that stands changes nothing. -/
theorem tset_tget {α : Type} {n : Nat} (v : Vector α n) (i : Fin n) : tset v i (tget v i) = v := by
  apply table_ext
  intro j
  rw [tget_tset]
  split
  · next h => rw [h]
  · rfl

@[simp] theorem mem_indexes {n : Nat} (i : Fin n) : i ∈ indexes n := List.mem_finRange i

theorem nodup_indexes (n : Nat) : (indexes n).Nodup := List.nodup_finRange n

/-! ### The accessors after the update of their own table -/

namespace State

theorem port_modPort (s : State) (p q : Port) (f : PortState → PortState) :
    (s.modPort p f).port q = if q = p then f (s.port p) else s.port q := tget_tmod s.ports p q f

@[simp] theorem port_modPort_self (s : State) (p : Port) (f : PortState → PortState) :
    (s.modPort p f).port p = f (s.port p) := by simp [port_modPort]

theorem right_modRight (s : State) (p q : Port) (f : Rights → Rights) :
    (s.modRight p f).right q = if q = p then f (s.right p) else s.right q := tget_tmod s.access.rights p q f

@[simp] theorem maintenance_modRight (s : State) (p : Port) (f : Rights → Rights) :
    (s.modRight p f).access.maintenance = s.access.maintenance := rfl

theorem record_modRecord (s : State) (i j : Slot) (f : ClaimRecord → ClaimRecord) :
    (s.modRecord i f).record j = if j = i then f (s.record i) else s.record j := tget_tmod s.pool i j f

@[simp] theorem record_modRecord_self (s : State) (i : Slot) (f : ClaimRecord → ClaimRecord) :
    (s.modRecord i f).record i = f (s.record i) := by simp [record_modRecord]

theorem entry_modEntry (s : State) (i j : Channel) (f : ResolverEntry → ResolverEntry) :
    (s.modEntry i f).entry j = if j = i then f (s.entry i) else s.entry j := tget_tmod s.resolver i j f

@[simp] theorem entry_modEntry_self (s : State) (i : Channel) (f : ResolverEntry → ResolverEntry) :
    (s.modEntry i f).entry i = f (s.entry i) := by simp [entry_modEntry]

theorem scene_modScene (s : State) (i j : SceneNo) (f : Scene → Scene) :
    (s.modScene i f).scene j = if j = i then f (s.scene i) else s.scene j := tget_tmod s.scenes i j f

theorem player_modPlayer (s : State) (i j : PlayerNo) (f : Player → Player) :
    (s.modPlayer i f).player j = if j = i then f (s.player i) else s.player j := tget_tmod s.players i j f

@[simp] theorem player_modPlayer_self (s : State) (i : PlayerNo) (f : Player → Player) :
    (s.modPlayer i f).player i = f (s.player i) := by simp [player_modPlayer]

theorem line_modLine (s : State) (i j : Line) (f : LineState → LineState) :
    (s.modLine i f).line j = if j = i then f (s.line i) else s.line j := tget_tmod s.lines i j f

@[simp] theorem line_modLine_self (s : State) (i : Line) (f : LineState → LineState) :
    (s.modLine i f).line i = f (s.line i) := by simp [line_modLine]

@[simp] theorem line_modLines (s : State) (i : Line) (f : LineState → LineState) :
    (s.modLines f).line i = f (s.line i) := tget_tmap f s.lines i

theorem chan_modChan (s : State) (i j : Channel) (f : ModChannel → ModChannel) :
    (s.modChan i f).chan j = if j = i then f (s.chan i) else s.chan j := tget_tmod s.modulator i j f

@[simp] theorem chan_modChan_self (s : State) (i : Channel) (f : ModChannel → ModChannel) :
    (s.modChan i f).chan i = f (s.chan i) := by simp [chan_modChan]

theorem clock_modClock (s : State) (i j : ClockNo) (f : PatternClock → PatternClock) :
    (s.modClock i f).clock j = if j = i then f (s.clock i) else s.clock j := tget_tmod s.clocks i j f

@[simp] theorem clock_modClocks (s : State) (i : ClockNo) (f : PatternClock → PatternClock) :
    (s.modClocks f).clock i = f (s.clock i) := tget_tmap f s.clocks i

theorem out_modOut (s : State) (i j : Channel) (f : OutChannel → OutChannel) :
    (s.modOut i f).out j = if j = i then f (s.out i) else s.out j := tget_tmod s.outs i j f

@[simp] theorem out_modOut_self (s : State) (i : Channel) (f : OutChannel → OutChannel) :
    (s.modOut i f).out i = f (s.out i) := by simp [out_modOut]

@[simp] theorem out_modOuts (s : State) (i : Channel) (f : OutChannel → OutChannel) :
    (s.modOuts f).out i = f (s.out i) := tget_tmap f s.outs i

theorem watch_setWatch (s : State) (i j : WatchNo) (x : Option Watch) :
    (s.setWatch i x).watch j = if j = i then x else s.watch j := tget_tset s.watches i j x

@[simp] theorem watch_modWatches (s : State) (i : WatchNo) (f : Option Watch → Option Watch) :
    (s.modWatches f).watch i = f (s.watch i) := tget_tmap f s.watches i

end State

/-! ### Operations done for each index -/

@[simp] theorem forEach_nil {ι : Type} (f : ι → State → State) (s : State) : forEach [] f s = s := rfl

@[simp] theorem forEach_cons {ι : Type} (i : ι) (l : List ι) (f : ι → State → State) (s : State) :
    forEach (i :: l) f s = forEach l f (f i s) := rfl

/-- What each operation keeps, the sequence keeps. -/
theorem forEach_keeps {ι β : Type} (g : State → β) (l : List ι) (f : ι → State → State)
    (h : ∀ i s, g (f i s) = g s) (s : State) : g (forEach l f s) = g s := by
  induction l generalizing s with
  | nil => rfl
  | cons i l ih => rw [forEach_cons, ih, h]

/-- What each operation makes true of the next state, given it of the present one, the sequence does. -/
theorem forEach_preserves {ι : Type} (P : State → Prop) (l : List ι) (f : ι → State → State)
    (h : ∀ i s, P s → P (f i s)) (s : State) (hs : P s) : P (forEach l f s) := by
  induction l generalizing s with
  | nil => exact hs
  | cons i l ih => exact ih _ (h i s hs)

/-- The entry of one index after a sequence of operations, each on its own index, in a list without repetition: what
its own operation makes of it, given that the other operations leave that unchanged. -/
theorem forEach_at {ι β : Type} [DecidableEq ι] (get : State → ι → β) (op : ι → State → State) (g : ι → State → β)
    (hself : ∀ i s, get (op i s) i = g i s) (hother : ∀ i j s, j ≠ i → get (op i s) j = get s j)
    (hindep : ∀ i j s, j ≠ i → g j (op i s) = g j s) (l : List ι) (hl : l.Nodup) (s : State) (j : ι) :
    get (forEach l op s) j = if j ∈ l then g j s else get s j := by
  induction l generalizing s with
  | nil => simp
  | cons i l ih =>
    have hi := List.nodup_cons.mp hl
    rw [forEach_cons, ih hi.2]
    by_cases hj : j = i
    · subst hj
      simp [hi.1, hself]
    · by_cases hm : j ∈ l
      · simp [hj, hm, hindep i j s hj]
      · simp [hj, hm, hother i j s hj]

/-! ### Channel sets -/

theorem mem_members {cs : ChannelSet} {ch : Channel} : ch ∈ members cs ↔ inSet cs ch = true := by
  simp [members]

theorem nodup_members (cs : ChannelSet) : (members cs).Nodup := (nodup_indexes 16).filter _

/-! ### Numbers in a range -/

theorem inRange_some {n b : Nat} (h : n < b) : inRange n b = some ⟨n, h⟩ := by simp [inRange, h]

theorem inRange_none {n b : Nat} (h : b ≤ n) : inRange n b = none := by simp [inRange, Nat.not_lt.mpr h]

@[simp] theorem inRange_eq_some {n b : Nat} {i : Fin b} : inRange n b = some i ↔ n = i.val := by
  constructor
  · intro h
    by_cases hb : n < b
    · rw [inRange_some hb] at h
      cases h
      rfl
    · rw [inRange_none (Nat.not_lt.mp hb)] at h
      cases h
  · intro h
    rw [inRange_some (h ▸ i.isLt)]
    congr 1
    exact Fin.ext h

end Sys2Proof.Machine
end

