-- ==== Sys2Proof/Laws/Frames.lean ====
section
/-! SUPPORT. What each shared operation leaves as it was: one lemma for each operation and each field it does not write.
A proof about a command reads the frame of its shared operations here and unfolds none of them. -/

namespace Sys2Proof.Machine

/-! ### Notices -/

@[simp] theorem offer_now (p : Port) (n : Notice) (s : State) : (offer p n s).now = s.now :=
  rfl
@[simp] theorem offer_draws (p : Port) (n : Notice) (s : State) : (offer p n s).draws = s.draws :=
  rfl
@[simp] theorem offer_pending (p : Port) (n : Notice) (s : State) : (offer p n s).pending = s.pending :=
  rfl
@[simp] theorem offer_lts (p : Port) (n : Notice) (s : State) : (offer p n s).lts = s.lts :=
  rfl
@[simp] theorem offer_address0 (p : Port) (n : Notice) (s : State) : (offer p n s).address0 = s.address0 :=
  rfl
@[simp] theorem offer_address1 (p : Port) (n : Notice) (s : State) : (offer p n s).address1 = s.address1 :=
  rfl
@[simp] theorem offer_access (p : Port) (n : Notice) (s : State) : (offer p n s).access = s.access :=
  rfl
@[simp] theorem offer_pool (p : Port) (n : Notice) (s : State) : (offer p n s).pool = s.pool :=
  rfl
@[simp] theorem offer_resolver (p : Port) (n : Notice) (s : State) : (offer p n s).resolver = s.resolver :=
  rfl
@[simp] theorem offer_scenes (p : Port) (n : Notice) (s : State) : (offer p n s).scenes = s.scenes :=
  rfl
@[simp] theorem offer_players (p : Port) (n : Notice) (s : State) : (offer p n s).players = s.players :=
  rfl
@[simp] theorem offer_lines (p : Port) (n : Notice) (s : State) : (offer p n s).lines = s.lines :=
  rfl
@[simp] theorem offer_modulator (p : Port) (n : Notice) (s : State) : (offer p n s).modulator = s.modulator :=
  rfl
@[simp] theorem offer_clocks (p : Port) (n : Notice) (s : State) : (offer p n s).clocks = s.clocks :=
  rfl
@[simp] theorem offer_derateCeiling (p : Port) (n : Notice) (s : State) : (offer p n s).derateCeiling = s.derateCeiling :=
  rfl
@[simp] theorem offer_lampTest (p : Port) (n : Notice) (s : State) : (offer p n s).lampTest = s.lampTest :=
  rfl
@[simp] theorem offer_output (p : Port) (n : Notice) (s : State) : (offer p n s).output = s.output :=
  rfl
@[simp] theorem offer_outs (p : Port) (n : Notice) (s : State) : (offer p n s).outs = s.outs :=
  rfl
@[simp] theorem offer_watches (p : Port) (n : Notice) (s : State) : (offer p n s).watches = s.watches :=
  rfl
@[simp] theorem offer_right (p : Port) (n : Notice) (s : State) (q : Port) : (offer p n s).right q = s.right q := by
  simp only [State.right, offer_access]
@[simp] theorem offer_record (p : Port) (n : Notice) (s : State) (i : Slot) : (offer p n s).record i = s.record i := by
  simp only [State.record, offer_pool]
@[simp] theorem offer_entry (p : Port) (n : Notice) (s : State) (i : Channel) : (offer p n s).entry i = s.entry i := by
  simp only [State.entry, offer_resolver]
@[simp] theorem offer_scene (p : Port) (n : Notice) (s : State) (i : SceneNo) : (offer p n s).scene i = s.scene i := by
  simp only [State.scene, offer_scenes]
@[simp] theorem offer_player (p : Port) (n : Notice) (s : State) (i : PlayerNo) : (offer p n s).player i = s.player i := by
  simp only [State.player, offer_players]
@[simp] theorem offer_line (p : Port) (n : Notice) (s : State) (i : Line) : (offer p n s).line i = s.line i := by
  simp only [State.line, offer_lines]
@[simp] theorem offer_chan (p : Port) (n : Notice) (s : State) (i : Channel) : (offer p n s).chan i = s.chan i := by
  simp only [State.chan, offer_modulator]
@[simp] theorem offer_clock (p : Port) (n : Notice) (s : State) (i : ClockNo) : (offer p n s).clock i = s.clock i := by
  simp only [State.clock, offer_clocks]
@[simp] theorem offer_out (p : Port) (n : Notice) (s : State) (i : Channel) : (offer p n s).out i = s.out i := by
  simp only [State.out, offer_outs]
@[simp] theorem offer_watch (p : Port) (n : Notice) (s : State) (i : WatchNo) : (offer p n s).watch i = s.watch i := by
  simp only [State.watch, offer_watches]

@[simp] theorem offerAll_now (n : Notice) (s : State) : (offerAll n s).now = s.now :=
  forEach_keeps (fun s => s.now) _ _ (fun _ _ => by simp) _
@[simp] theorem offerAll_draws (n : Notice) (s : State) : (offerAll n s).draws = s.draws :=
  forEach_keeps (fun s => s.draws) _ _ (fun _ _ => by simp) _
@[simp] theorem offerAll_pending (n : Notice) (s : State) : (offerAll n s).pending = s.pending :=
  forEach_keeps (fun s => s.pending) _ _ (fun _ _ => by simp) _
@[simp] theorem offerAll_lts (n : Notice) (s : State) : (offerAll n s).lts = s.lts :=
  forEach_keeps (fun s => s.lts) _ _ (fun _ _ => by simp) _
@[simp] theorem offerAll_address0 (n : Notice) (s : State) : (offerAll n s).address0 = s.address0 :=
  forEach_keeps (fun s => s.address0) _ _ (fun _ _ => by simp) _
@[simp] theorem offerAll_address1 (n : Notice) (s : State) : (offerAll n s).address1 = s.address1 :=
  forEach_keeps (fun s => s.address1) _ _ (fun _ _ => by simp) _
@[simp] theorem offerAll_access (n : Notice) (s : State) : (offerAll n s).access = s.access :=
  forEach_keeps (fun s => s.access) _ _ (fun _ _ => by simp) _
@[simp] theorem offerAll_pool (n : Notice) (s : State) : (offerAll n s).pool = s.pool :=
  forEach_keeps (fun s => s.pool) _ _ (fun _ _ => by simp) _
@[simp] theorem offerAll_resolver (n : Notice) (s : State) : (offerAll n s).resolver = s.resolver :=
  forEach_keeps (fun s => s.resolver) _ _ (fun _ _ => by simp) _
@[simp] theorem offerAll_scenes (n : Notice) (s : State) : (offerAll n s).scenes = s.scenes :=
  forEach_keeps (fun s => s.scenes) _ _ (fun _ _ => by simp) _
@[simp] theorem offerAll_players (n : Notice) (s : State) : (offerAll n s).players = s.players :=
  forEach_keeps (fun s => s.players) _ _ (fun _ _ => by simp) _
@[simp] theorem offerAll_lines (n : Notice) (s : State) : (offerAll n s).lines = s.lines :=
  forEach_keeps (fun s => s.lines) _ _ (fun _ _ => by simp) _
@[simp] theorem offerAll_modulator (n : Notice) (s : State) : (offerAll n s).modulator = s.modulator :=
  forEach_keeps (fun s => s.modulator) _ _ (fun _ _ => by simp) _
@[simp] theorem offerAll_clocks (n : Notice) (s : State) : (offerAll n s).clocks = s.clocks :=
  forEach_keeps (fun s => s.clocks) _ _ (fun _ _ => by simp) _
@[simp] theorem offerAll_derateCeiling (n : Notice) (s : State) : (offerAll n s).derateCeiling = s.derateCeiling :=
  forEach_keeps (fun s => s.derateCeiling) _ _ (fun _ _ => by simp) _
@[simp] theorem offerAll_lampTest (n : Notice) (s : State) : (offerAll n s).lampTest = s.lampTest :=
  forEach_keeps (fun s => s.lampTest) _ _ (fun _ _ => by simp) _
@[simp] theorem offerAll_output (n : Notice) (s : State) : (offerAll n s).output = s.output :=
  forEach_keeps (fun s => s.output) _ _ (fun _ _ => by simp) _
@[simp] theorem offerAll_outs (n : Notice) (s : State) : (offerAll n s).outs = s.outs :=
  forEach_keeps (fun s => s.outs) _ _ (fun _ _ => by simp) _
@[simp] theorem offerAll_watches (n : Notice) (s : State) : (offerAll n s).watches = s.watches :=
  forEach_keeps (fun s => s.watches) _ _ (fun _ _ => by simp) _
@[simp] theorem offerAll_right (n : Notice) (s : State) (q : Port) : (offerAll n s).right q = s.right q := by
  simp only [State.right, offerAll_access]
@[simp] theorem offerAll_record (n : Notice) (s : State) (i : Slot) : (offerAll n s).record i = s.record i := by
  simp only [State.record, offerAll_pool]
@[simp] theorem offerAll_entry (n : Notice) (s : State) (i : Channel) : (offerAll n s).entry i = s.entry i := by
  simp only [State.entry, offerAll_resolver]
@[simp] theorem offerAll_scene (n : Notice) (s : State) (i : SceneNo) : (offerAll n s).scene i = s.scene i := by
  simp only [State.scene, offerAll_scenes]
@[simp] theorem offerAll_player (n : Notice) (s : State) (i : PlayerNo) : (offerAll n s).player i = s.player i := by
  simp only [State.player, offerAll_players]
@[simp] theorem offerAll_line (n : Notice) (s : State) (i : Line) : (offerAll n s).line i = s.line i := by
  simp only [State.line, offerAll_lines]
@[simp] theorem offerAll_chan (n : Notice) (s : State) (i : Channel) : (offerAll n s).chan i = s.chan i := by
  simp only [State.chan, offerAll_modulator]
@[simp] theorem offerAll_clock (n : Notice) (s : State) (i : ClockNo) : (offerAll n s).clock i = s.clock i := by
  simp only [State.clock, offerAll_clocks]
@[simp] theorem offerAll_out (n : Notice) (s : State) (i : Channel) : (offerAll n s).out i = s.out i := by
  simp only [State.out, offerAll_outs]
@[simp] theorem offerAll_watch (n : Notice) (s : State) (i : WatchNo) : (offerAll n s).watch i = s.watch i := by
  simp only [State.watch, offerAll_watches]

@[simp] theorem fireFor_now (k : WatchKind) (subject : Nat) (n : Notice) (p : Port) (s : State) : (fireFor k subject n p s).now = s.now :=
  by unfold fireFor; split <;> simp
@[simp] theorem fireFor_draws (k : WatchKind) (subject : Nat) (n : Notice) (p : Port) (s : State) : (fireFor k subject n p s).draws = s.draws :=
  by unfold fireFor; split <;> simp
@[simp] theorem fireFor_pending (k : WatchKind) (subject : Nat) (n : Notice) (p : Port) (s : State) : (fireFor k subject n p s).pending = s.pending :=
  by unfold fireFor; split <;> simp
@[simp] theorem fireFor_lts (k : WatchKind) (subject : Nat) (n : Notice) (p : Port) (s : State) : (fireFor k subject n p s).lts = s.lts :=
  by unfold fireFor; split <;> simp
@[simp] theorem fireFor_address0 (k : WatchKind) (subject : Nat) (n : Notice) (p : Port) (s : State) : (fireFor k subject n p s).address0 = s.address0 :=
  by unfold fireFor; split <;> simp
@[simp] theorem fireFor_address1 (k : WatchKind) (subject : Nat) (n : Notice) (p : Port) (s : State) : (fireFor k subject n p s).address1 = s.address1 :=
  by unfold fireFor; split <;> simp
@[simp] theorem fireFor_access (k : WatchKind) (subject : Nat) (n : Notice) (p : Port) (s : State) : (fireFor k subject n p s).access = s.access :=
  by unfold fireFor; split <;> simp
@[simp] theorem fireFor_pool (k : WatchKind) (subject : Nat) (n : Notice) (p : Port) (s : State) : (fireFor k subject n p s).pool = s.pool :=
  by unfold fireFor; split <;> simp
@[simp] theorem fireFor_resolver (k : WatchKind) (subject : Nat) (n : Notice) (p : Port) (s : State) : (fireFor k subject n p s).resolver = s.resolver :=
  by unfold fireFor; split <;> simp
@[simp] theorem fireFor_scenes (k : WatchKind) (subject : Nat) (n : Notice) (p : Port) (s : State) : (fireFor k subject n p s).scenes = s.scenes :=
  by unfold fireFor; split <;> simp
@[simp] theorem fireFor_players (k : WatchKind) (subject : Nat) (n : Notice) (p : Port) (s : State) : (fireFor k subject n p s).players = s.players :=
  by unfold fireFor; split <;> simp
@[simp] theorem fireFor_lines (k : WatchKind) (subject : Nat) (n : Notice) (p : Port) (s : State) : (fireFor k subject n p s).lines = s.lines :=
  by unfold fireFor; split <;> simp
@[simp] theorem fireFor_modulator (k : WatchKind) (subject : Nat) (n : Notice) (p : Port) (s : State) : (fireFor k subject n p s).modulator = s.modulator :=
  by unfold fireFor; split <;> simp
@[simp] theorem fireFor_clocks (k : WatchKind) (subject : Nat) (n : Notice) (p : Port) (s : State) : (fireFor k subject n p s).clocks = s.clocks :=
  by unfold fireFor; split <;> simp
@[simp] theorem fireFor_derateCeiling (k : WatchKind) (subject : Nat) (n : Notice) (p : Port) (s : State) : (fireFor k subject n p s).derateCeiling = s.derateCeiling :=
  by unfold fireFor; split <;> simp
@[simp] theorem fireFor_lampTest (k : WatchKind) (subject : Nat) (n : Notice) (p : Port) (s : State) : (fireFor k subject n p s).lampTest = s.lampTest :=
  by unfold fireFor; split <;> simp
@[simp] theorem fireFor_output (k : WatchKind) (subject : Nat) (n : Notice) (p : Port) (s : State) : (fireFor k subject n p s).output = s.output :=
  by unfold fireFor; split <;> simp
@[simp] theorem fireFor_outs (k : WatchKind) (subject : Nat) (n : Notice) (p : Port) (s : State) : (fireFor k subject n p s).outs = s.outs :=
  by unfold fireFor; split <;> simp

@[simp] theorem fireWatches_now (k : WatchKind) (subject : Nat) (n : Notice) (s : State) : (fireWatches k subject n s).now = s.now :=
  forEach_keeps (fun s => s.now) _ _ (fun _ _ => by simp) _
@[simp] theorem fireWatches_draws (k : WatchKind) (subject : Nat) (n : Notice) (s : State) : (fireWatches k subject n s).draws = s.draws :=
  forEach_keeps (fun s => s.draws) _ _ (fun _ _ => by simp) _
@[simp] theorem fireWatches_pending (k : WatchKind) (subject : Nat) (n : Notice) (s : State) : (fireWatches k subject n s).pending = s.pending :=
  forEach_keeps (fun s => s.pending) _ _ (fun _ _ => by simp) _
@[simp] theorem fireWatches_lts (k : WatchKind) (subject : Nat) (n : Notice) (s : State) : (fireWatches k subject n s).lts = s.lts :=
  forEach_keeps (fun s => s.lts) _ _ (fun _ _ => by simp) _
@[simp] theorem fireWatches_address0 (k : WatchKind) (subject : Nat) (n : Notice) (s : State) : (fireWatches k subject n s).address0 = s.address0 :=
  forEach_keeps (fun s => s.address0) _ _ (fun _ _ => by simp) _
@[simp] theorem fireWatches_address1 (k : WatchKind) (subject : Nat) (n : Notice) (s : State) : (fireWatches k subject n s).address1 = s.address1 :=
  forEach_keeps (fun s => s.address1) _ _ (fun _ _ => by simp) _
@[simp] theorem fireWatches_access (k : WatchKind) (subject : Nat) (n : Notice) (s : State) : (fireWatches k subject n s).access = s.access :=
  forEach_keeps (fun s => s.access) _ _ (fun _ _ => by simp) _
@[simp] theorem fireWatches_pool (k : WatchKind) (subject : Nat) (n : Notice) (s : State) : (fireWatches k subject n s).pool = s.pool :=
  forEach_keeps (fun s => s.pool) _ _ (fun _ _ => by simp) _
@[simp] theorem fireWatches_resolver (k : WatchKind) (subject : Nat) (n : Notice) (s : State) : (fireWatches k subject n s).resolver = s.resolver :=
  forEach_keeps (fun s => s.resolver) _ _ (fun _ _ => by simp) _
@[simp] theorem fireWatches_scenes (k : WatchKind) (subject : Nat) (n : Notice) (s : State) : (fireWatches k subject n s).scenes = s.scenes :=
  forEach_keeps (fun s => s.scenes) _ _ (fun _ _ => by simp) _
@[simp] theorem fireWatches_players (k : WatchKind) (subject : Nat) (n : Notice) (s : State) : (fireWatches k subject n s).players = s.players :=
  forEach_keeps (fun s => s.players) _ _ (fun _ _ => by simp) _
@[simp] theorem fireWatches_lines (k : WatchKind) (subject : Nat) (n : Notice) (s : State) : (fireWatches k subject n s).lines = s.lines :=
  forEach_keeps (fun s => s.lines) _ _ (fun _ _ => by simp) _
@[simp] theorem fireWatches_modulator (k : WatchKind) (subject : Nat) (n : Notice) (s : State) : (fireWatches k subject n s).modulator = s.modulator :=
  forEach_keeps (fun s => s.modulator) _ _ (fun _ _ => by simp) _
@[simp] theorem fireWatches_clocks (k : WatchKind) (subject : Nat) (n : Notice) (s : State) : (fireWatches k subject n s).clocks = s.clocks :=
  forEach_keeps (fun s => s.clocks) _ _ (fun _ _ => by simp) _
@[simp] theorem fireWatches_derateCeiling (k : WatchKind) (subject : Nat) (n : Notice) (s : State) : (fireWatches k subject n s).derateCeiling = s.derateCeiling :=
  forEach_keeps (fun s => s.derateCeiling) _ _ (fun _ _ => by simp) _
@[simp] theorem fireWatches_lampTest (k : WatchKind) (subject : Nat) (n : Notice) (s : State) : (fireWatches k subject n s).lampTest = s.lampTest :=
  forEach_keeps (fun s => s.lampTest) _ _ (fun _ _ => by simp) _
@[simp] theorem fireWatches_output (k : WatchKind) (subject : Nat) (n : Notice) (s : State) : (fireWatches k subject n s).output = s.output :=
  forEach_keeps (fun s => s.output) _ _ (fun _ _ => by simp) _
@[simp] theorem fireWatches_outs (k : WatchKind) (subject : Nat) (n : Notice) (s : State) : (fireWatches k subject n s).outs = s.outs :=
  forEach_keeps (fun s => s.outs) _ _ (fun _ _ => by simp) _
@[simp] theorem fireWatches_right (k : WatchKind) (subject : Nat) (n : Notice) (s : State) (q : Port) : (fireWatches k subject n s).right q = s.right q := by
  simp only [State.right, fireWatches_access]
@[simp] theorem fireWatches_record (k : WatchKind) (subject : Nat) (n : Notice) (s : State) (i : Slot) : (fireWatches k subject n s).record i = s.record i := by
  simp only [State.record, fireWatches_pool]
@[simp] theorem fireWatches_entry (k : WatchKind) (subject : Nat) (n : Notice) (s : State) (i : Channel) : (fireWatches k subject n s).entry i = s.entry i := by
  simp only [State.entry, fireWatches_resolver]
@[simp] theorem fireWatches_scene (k : WatchKind) (subject : Nat) (n : Notice) (s : State) (i : SceneNo) : (fireWatches k subject n s).scene i = s.scene i := by
  simp only [State.scene, fireWatches_scenes]
@[simp] theorem fireWatches_player (k : WatchKind) (subject : Nat) (n : Notice) (s : State) (i : PlayerNo) : (fireWatches k subject n s).player i = s.player i := by
  simp only [State.player, fireWatches_players]
@[simp] theorem fireWatches_line (k : WatchKind) (subject : Nat) (n : Notice) (s : State) (i : Line) : (fireWatches k subject n s).line i = s.line i := by
  simp only [State.line, fireWatches_lines]
@[simp] theorem fireWatches_chan (k : WatchKind) (subject : Nat) (n : Notice) (s : State) (i : Channel) : (fireWatches k subject n s).chan i = s.chan i := by
  simp only [State.chan, fireWatches_modulator]
@[simp] theorem fireWatches_clock (k : WatchKind) (subject : Nat) (n : Notice) (s : State) (i : ClockNo) : (fireWatches k subject n s).clock i = s.clock i := by
  simp only [State.clock, fireWatches_clocks]
@[simp] theorem fireWatches_out (k : WatchKind) (subject : Nat) (n : Notice) (s : State) (i : Channel) : (fireWatches k subject n s).out i = s.out i := by
  simp only [State.out, fireWatches_outs]

@[simp] theorem faultEvent_now (ch : Channel) (d : FaultDetail) (s : State) : (faultEvent ch d s).now = s.now :=
  by simp [faultEvent]
@[simp] theorem faultEvent_draws (ch : Channel) (d : FaultDetail) (s : State) : (faultEvent ch d s).draws = s.draws :=
  by simp [faultEvent]
@[simp] theorem faultEvent_pending (ch : Channel) (d : FaultDetail) (s : State) : (faultEvent ch d s).pending = s.pending :=
  by simp [faultEvent]
@[simp] theorem faultEvent_lts (ch : Channel) (d : FaultDetail) (s : State) : (faultEvent ch d s).lts = s.lts :=
  by simp [faultEvent]
@[simp] theorem faultEvent_address0 (ch : Channel) (d : FaultDetail) (s : State) : (faultEvent ch d s).address0 = s.address0 :=
  by simp [faultEvent]
@[simp] theorem faultEvent_address1 (ch : Channel) (d : FaultDetail) (s : State) : (faultEvent ch d s).address1 = s.address1 :=
  by simp [faultEvent]
@[simp] theorem faultEvent_access (ch : Channel) (d : FaultDetail) (s : State) : (faultEvent ch d s).access = s.access :=
  by simp [faultEvent]
@[simp] theorem faultEvent_pool (ch : Channel) (d : FaultDetail) (s : State) : (faultEvent ch d s).pool = s.pool :=
  by simp [faultEvent]
@[simp] theorem faultEvent_resolver (ch : Channel) (d : FaultDetail) (s : State) : (faultEvent ch d s).resolver = s.resolver :=
  by simp [faultEvent]
@[simp] theorem faultEvent_scenes (ch : Channel) (d : FaultDetail) (s : State) : (faultEvent ch d s).scenes = s.scenes :=
  by simp [faultEvent]
@[simp] theorem faultEvent_players (ch : Channel) (d : FaultDetail) (s : State) : (faultEvent ch d s).players = s.players :=
  by simp [faultEvent]
@[simp] theorem faultEvent_lines (ch : Channel) (d : FaultDetail) (s : State) : (faultEvent ch d s).lines = s.lines :=
  by simp [faultEvent]
@[simp] theorem faultEvent_modulator (ch : Channel) (d : FaultDetail) (s : State) : (faultEvent ch d s).modulator = s.modulator :=
  by simp [faultEvent]
@[simp] theorem faultEvent_clocks (ch : Channel) (d : FaultDetail) (s : State) : (faultEvent ch d s).clocks = s.clocks :=
  by simp [faultEvent]
@[simp] theorem faultEvent_derateCeiling (ch : Channel) (d : FaultDetail) (s : State) : (faultEvent ch d s).derateCeiling = s.derateCeiling :=
  by simp [faultEvent]
@[simp] theorem faultEvent_lampTest (ch : Channel) (d : FaultDetail) (s : State) : (faultEvent ch d s).lampTest = s.lampTest :=
  by simp [faultEvent]
@[simp] theorem faultEvent_output (ch : Channel) (d : FaultDetail) (s : State) : (faultEvent ch d s).output = s.output :=
  by simp [faultEvent]
@[simp] theorem faultEvent_outs (ch : Channel) (d : FaultDetail) (s : State) : (faultEvent ch d s).outs = s.outs :=
  by simp [faultEvent]

@[simp] theorem resetNotices_now (p : Port) (s : State) : (resetNotices p s).now = s.now :=
  rfl
@[simp] theorem resetNotices_draws (p : Port) (s : State) : (resetNotices p s).draws = s.draws :=
  rfl
@[simp] theorem resetNotices_pending (p : Port) (s : State) : (resetNotices p s).pending = s.pending :=
  rfl
@[simp] theorem resetNotices_lts (p : Port) (s : State) : (resetNotices p s).lts = s.lts :=
  rfl
@[simp] theorem resetNotices_address0 (p : Port) (s : State) : (resetNotices p s).address0 = s.address0 :=
  rfl
@[simp] theorem resetNotices_address1 (p : Port) (s : State) : (resetNotices p s).address1 = s.address1 :=
  rfl
@[simp] theorem resetNotices_access (p : Port) (s : State) : (resetNotices p s).access = s.access :=
  rfl
@[simp] theorem resetNotices_pool (p : Port) (s : State) : (resetNotices p s).pool = s.pool :=
  rfl
@[simp] theorem resetNotices_resolver (p : Port) (s : State) : (resetNotices p s).resolver = s.resolver :=
  rfl
@[simp] theorem resetNotices_scenes (p : Port) (s : State) : (resetNotices p s).scenes = s.scenes :=
  rfl
@[simp] theorem resetNotices_players (p : Port) (s : State) : (resetNotices p s).players = s.players :=
  rfl
@[simp] theorem resetNotices_lines (p : Port) (s : State) : (resetNotices p s).lines = s.lines :=
  rfl
@[simp] theorem resetNotices_modulator (p : Port) (s : State) : (resetNotices p s).modulator = s.modulator :=
  rfl
@[simp] theorem resetNotices_clocks (p : Port) (s : State) : (resetNotices p s).clocks = s.clocks :=
  rfl
@[simp] theorem resetNotices_derateCeiling (p : Port) (s : State) : (resetNotices p s).derateCeiling = s.derateCeiling :=
  rfl
@[simp] theorem resetNotices_lampTest (p : Port) (s : State) : (resetNotices p s).lampTest = s.lampTest :=
  rfl
@[simp] theorem resetNotices_output (p : Port) (s : State) : (resetNotices p s).output = s.output :=
  rfl
@[simp] theorem resetNotices_outs (p : Port) (s : State) : (resetNotices p s).outs = s.outs :=
  rfl

@[simp] theorem setResult_now (p : Port) (r : Result) (s : State) : (setResult p r s).now = s.now :=
  rfl
@[simp] theorem setResult_draws (p : Port) (r : Result) (s : State) : (setResult p r s).draws = s.draws :=
  rfl
@[simp] theorem setResult_pending (p : Port) (r : Result) (s : State) : (setResult p r s).pending = s.pending :=
  rfl
@[simp] theorem setResult_lts (p : Port) (r : Result) (s : State) : (setResult p r s).lts = s.lts :=
  rfl
@[simp] theorem setResult_address0 (p : Port) (r : Result) (s : State) : (setResult p r s).address0 = s.address0 :=
  rfl
@[simp] theorem setResult_address1 (p : Port) (r : Result) (s : State) : (setResult p r s).address1 = s.address1 :=
  rfl
@[simp] theorem setResult_access (p : Port) (r : Result) (s : State) : (setResult p r s).access = s.access :=
  rfl
@[simp] theorem setResult_pool (p : Port) (r : Result) (s : State) : (setResult p r s).pool = s.pool :=
  rfl
@[simp] theorem setResult_resolver (p : Port) (r : Result) (s : State) : (setResult p r s).resolver = s.resolver :=
  rfl
@[simp] theorem setResult_scenes (p : Port) (r : Result) (s : State) : (setResult p r s).scenes = s.scenes :=
  rfl
@[simp] theorem setResult_players (p : Port) (r : Result) (s : State) : (setResult p r s).players = s.players :=
  rfl
@[simp] theorem setResult_lines (p : Port) (r : Result) (s : State) : (setResult p r s).lines = s.lines :=
  rfl
@[simp] theorem setResult_modulator (p : Port) (r : Result) (s : State) : (setResult p r s).modulator = s.modulator :=
  rfl
@[simp] theorem setResult_clocks (p : Port) (r : Result) (s : State) : (setResult p r s).clocks = s.clocks :=
  rfl
@[simp] theorem setResult_derateCeiling (p : Port) (r : Result) (s : State) : (setResult p r s).derateCeiling = s.derateCeiling :=
  rfl
@[simp] theorem setResult_lampTest (p : Port) (r : Result) (s : State) : (setResult p r s).lampTest = s.lampTest :=
  rfl
@[simp] theorem setResult_output (p : Port) (r : Result) (s : State) : (setResult p r s).output = s.output :=
  rfl
@[simp] theorem setResult_outs (p : Port) (r : Result) (s : State) : (setResult p r s).outs = s.outs :=
  rfl
@[simp] theorem setResult_watches (p : Port) (r : Result) (s : State) : (setResult p r s).watches = s.watches :=
  rfl
@[simp] theorem setResult_right (p : Port) (r : Result) (s : State) (q : Port) : (setResult p r s).right q = s.right q := by
  simp only [State.right, setResult_access]
@[simp] theorem setResult_record (p : Port) (r : Result) (s : State) (i : Slot) : (setResult p r s).record i = s.record i := by
  simp only [State.record, setResult_pool]
@[simp] theorem setResult_entry (p : Port) (r : Result) (s : State) (i : Channel) : (setResult p r s).entry i = s.entry i := by
  simp only [State.entry, setResult_resolver]
@[simp] theorem setResult_scene (p : Port) (r : Result) (s : State) (i : SceneNo) : (setResult p r s).scene i = s.scene i := by
  simp only [State.scene, setResult_scenes]
@[simp] theorem setResult_player (p : Port) (r : Result) (s : State) (i : PlayerNo) : (setResult p r s).player i = s.player i := by
  simp only [State.player, setResult_players]
@[simp] theorem setResult_line (p : Port) (r : Result) (s : State) (i : Line) : (setResult p r s).line i = s.line i := by
  simp only [State.line, setResult_lines]
@[simp] theorem setResult_chan (p : Port) (r : Result) (s : State) (i : Channel) : (setResult p r s).chan i = s.chan i := by
  simp only [State.chan, setResult_modulator]
@[simp] theorem setResult_clock (p : Port) (r : Result) (s : State) (i : ClockNo) : (setResult p r s).clock i = s.clock i := by
  simp only [State.clock, setResult_clocks]
@[simp] theorem setResult_out (p : Port) (r : Result) (s : State) (i : Channel) : (setResult p r s).out i = s.out i := by
  simp only [State.out, setResult_outs]
@[simp] theorem setResult_watch (p : Port) (r : Result) (s : State) (i : WatchNo) : (setResult p r s).watch i = s.watch i := by
  simp only [State.watch, setResult_watches]

/-! ### Modulator -/

@[simp] theorem handLevel_now (ch : Channel) (v : Level) (p : Pattern) (fi : FadeIndex) (s : State) : (handLevel ch v p fi s).now = s.now :=
  rfl
@[simp] theorem handLevel_draws (ch : Channel) (v : Level) (p : Pattern) (fi : FadeIndex) (s : State) : (handLevel ch v p fi s).draws = s.draws :=
  rfl
@[simp] theorem handLevel_pending (ch : Channel) (v : Level) (p : Pattern) (fi : FadeIndex) (s : State) : (handLevel ch v p fi s).pending = s.pending :=
  rfl
@[simp] theorem handLevel_lts (ch : Channel) (v : Level) (p : Pattern) (fi : FadeIndex) (s : State) : (handLevel ch v p fi s).lts = s.lts :=
  rfl
@[simp] theorem handLevel_address0 (ch : Channel) (v : Level) (p : Pattern) (fi : FadeIndex) (s : State) : (handLevel ch v p fi s).address0 = s.address0 :=
  rfl
@[simp] theorem handLevel_address1 (ch : Channel) (v : Level) (p : Pattern) (fi : FadeIndex) (s : State) : (handLevel ch v p fi s).address1 = s.address1 :=
  rfl
@[simp] theorem handLevel_ports (ch : Channel) (v : Level) (p : Pattern) (fi : FadeIndex) (s : State) : (handLevel ch v p fi s).ports = s.ports :=
  rfl
@[simp] theorem handLevel_access (ch : Channel) (v : Level) (p : Pattern) (fi : FadeIndex) (s : State) : (handLevel ch v p fi s).access = s.access :=
  rfl
@[simp] theorem handLevel_pool (ch : Channel) (v : Level) (p : Pattern) (fi : FadeIndex) (s : State) : (handLevel ch v p fi s).pool = s.pool :=
  rfl
@[simp] theorem handLevel_resolver (ch : Channel) (v : Level) (p : Pattern) (fi : FadeIndex) (s : State) : (handLevel ch v p fi s).resolver = s.resolver :=
  rfl
@[simp] theorem handLevel_scenes (ch : Channel) (v : Level) (p : Pattern) (fi : FadeIndex) (s : State) : (handLevel ch v p fi s).scenes = s.scenes :=
  rfl
@[simp] theorem handLevel_players (ch : Channel) (v : Level) (p : Pattern) (fi : FadeIndex) (s : State) : (handLevel ch v p fi s).players = s.players :=
  rfl
@[simp] theorem handLevel_lines (ch : Channel) (v : Level) (p : Pattern) (fi : FadeIndex) (s : State) : (handLevel ch v p fi s).lines = s.lines :=
  rfl
@[simp] theorem handLevel_clocks (ch : Channel) (v : Level) (p : Pattern) (fi : FadeIndex) (s : State) : (handLevel ch v p fi s).clocks = s.clocks :=
  rfl
@[simp] theorem handLevel_derateCeiling (ch : Channel) (v : Level) (p : Pattern) (fi : FadeIndex) (s : State) : (handLevel ch v p fi s).derateCeiling = s.derateCeiling :=
  rfl
@[simp] theorem handLevel_lampTest (ch : Channel) (v : Level) (p : Pattern) (fi : FadeIndex) (s : State) : (handLevel ch v p fi s).lampTest = s.lampTest :=
  rfl
@[simp] theorem handLevel_output (ch : Channel) (v : Level) (p : Pattern) (fi : FadeIndex) (s : State) : (handLevel ch v p fi s).output = s.output :=
  rfl
@[simp] theorem handLevel_outs (ch : Channel) (v : Level) (p : Pattern) (fi : FadeIndex) (s : State) : (handLevel ch v p fi s).outs = s.outs :=
  rfl
@[simp] theorem handLevel_watches (ch : Channel) (v : Level) (p : Pattern) (fi : FadeIndex) (s : State) : (handLevel ch v p fi s).watches = s.watches :=
  rfl

@[simp] theorem handPattern_now (ch : Channel) (p : Pattern) (s : State) : (handPattern ch p s).now = s.now :=
  rfl
@[simp] theorem handPattern_draws (ch : Channel) (p : Pattern) (s : State) : (handPattern ch p s).draws = s.draws :=
  rfl
@[simp] theorem handPattern_pending (ch : Channel) (p : Pattern) (s : State) : (handPattern ch p s).pending = s.pending :=
  rfl
@[simp] theorem handPattern_lts (ch : Channel) (p : Pattern) (s : State) : (handPattern ch p s).lts = s.lts :=
  rfl
@[simp] theorem handPattern_address0 (ch : Channel) (p : Pattern) (s : State) : (handPattern ch p s).address0 = s.address0 :=
  rfl
@[simp] theorem handPattern_address1 (ch : Channel) (p : Pattern) (s : State) : (handPattern ch p s).address1 = s.address1 :=
  rfl
@[simp] theorem handPattern_ports (ch : Channel) (p : Pattern) (s : State) : (handPattern ch p s).ports = s.ports :=
  rfl
@[simp] theorem handPattern_access (ch : Channel) (p : Pattern) (s : State) : (handPattern ch p s).access = s.access :=
  rfl
@[simp] theorem handPattern_pool (ch : Channel) (p : Pattern) (s : State) : (handPattern ch p s).pool = s.pool :=
  rfl
@[simp] theorem handPattern_resolver (ch : Channel) (p : Pattern) (s : State) : (handPattern ch p s).resolver = s.resolver :=
  rfl
@[simp] theorem handPattern_scenes (ch : Channel) (p : Pattern) (s : State) : (handPattern ch p s).scenes = s.scenes :=
  rfl
@[simp] theorem handPattern_players (ch : Channel) (p : Pattern) (s : State) : (handPattern ch p s).players = s.players :=
  rfl
@[simp] theorem handPattern_lines (ch : Channel) (p : Pattern) (s : State) : (handPattern ch p s).lines = s.lines :=
  rfl
@[simp] theorem handPattern_clocks (ch : Channel) (p : Pattern) (s : State) : (handPattern ch p s).clocks = s.clocks :=
  rfl
@[simp] theorem handPattern_derateCeiling (ch : Channel) (p : Pattern) (s : State) : (handPattern ch p s).derateCeiling = s.derateCeiling :=
  rfl
@[simp] theorem handPattern_lampTest (ch : Channel) (p : Pattern) (s : State) : (handPattern ch p s).lampTest = s.lampTest :=
  rfl
@[simp] theorem handPattern_output (ch : Channel) (p : Pattern) (s : State) : (handPattern ch p s).output = s.output :=
  rfl
@[simp] theorem handPattern_outs (ch : Channel) (p : Pattern) (s : State) : (handPattern ch p s).outs = s.outs :=
  rfl
@[simp] theorem handPattern_watches (ch : Channel) (p : Pattern) (s : State) : (handPattern ch p s).watches = s.watches :=
  rfl

@[simp] theorem syncChannel_now (ch : Channel) (s : State) : (syncChannel ch s).now = s.now :=
  rfl
@[simp] theorem syncChannel_draws (ch : Channel) (s : State) : (syncChannel ch s).draws = s.draws :=
  rfl
@[simp] theorem syncChannel_pending (ch : Channel) (s : State) : (syncChannel ch s).pending = s.pending :=
  rfl
@[simp] theorem syncChannel_lts (ch : Channel) (s : State) : (syncChannel ch s).lts = s.lts :=
  rfl
@[simp] theorem syncChannel_address0 (ch : Channel) (s : State) : (syncChannel ch s).address0 = s.address0 :=
  rfl
@[simp] theorem syncChannel_address1 (ch : Channel) (s : State) : (syncChannel ch s).address1 = s.address1 :=
  rfl
@[simp] theorem syncChannel_ports (ch : Channel) (s : State) : (syncChannel ch s).ports = s.ports :=
  rfl
@[simp] theorem syncChannel_access (ch : Channel) (s : State) : (syncChannel ch s).access = s.access :=
  rfl
@[simp] theorem syncChannel_pool (ch : Channel) (s : State) : (syncChannel ch s).pool = s.pool :=
  rfl
@[simp] theorem syncChannel_resolver (ch : Channel) (s : State) : (syncChannel ch s).resolver = s.resolver :=
  rfl
@[simp] theorem syncChannel_scenes (ch : Channel) (s : State) : (syncChannel ch s).scenes = s.scenes :=
  rfl
@[simp] theorem syncChannel_players (ch : Channel) (s : State) : (syncChannel ch s).players = s.players :=
  rfl
@[simp] theorem syncChannel_lines (ch : Channel) (s : State) : (syncChannel ch s).lines = s.lines :=
  rfl
@[simp] theorem syncChannel_clocks (ch : Channel) (s : State) : (syncChannel ch s).clocks = s.clocks :=
  rfl
@[simp] theorem syncChannel_derateCeiling (ch : Channel) (s : State) : (syncChannel ch s).derateCeiling = s.derateCeiling :=
  rfl
@[simp] theorem syncChannel_lampTest (ch : Channel) (s : State) : (syncChannel ch s).lampTest = s.lampTest :=
  rfl
@[simp] theorem syncChannel_output (ch : Channel) (s : State) : (syncChannel ch s).output = s.output :=
  rfl
@[simp] theorem syncChannel_outs (ch : Channel) (s : State) : (syncChannel ch s).outs = s.outs :=
  rfl
@[simp] theorem syncChannel_watches (ch : Channel) (s : State) : (syncChannel ch s).watches = s.watches :=
  rfl

@[simp] theorem syncChannels_now (s : State) : (syncChannels s).now = s.now :=
  forEach_keeps (fun s => s.now) _ _ (fun _ _ => by simp) _
@[simp] theorem syncChannels_draws (s : State) : (syncChannels s).draws = s.draws :=
  forEach_keeps (fun s => s.draws) _ _ (fun _ _ => by simp) _
@[simp] theorem syncChannels_pending (s : State) : (syncChannels s).pending = s.pending :=
  forEach_keeps (fun s => s.pending) _ _ (fun _ _ => by simp) _
@[simp] theorem syncChannels_lts (s : State) : (syncChannels s).lts = s.lts :=
  forEach_keeps (fun s => s.lts) _ _ (fun _ _ => by simp) _
@[simp] theorem syncChannels_address0 (s : State) : (syncChannels s).address0 = s.address0 :=
  forEach_keeps (fun s => s.address0) _ _ (fun _ _ => by simp) _
@[simp] theorem syncChannels_address1 (s : State) : (syncChannels s).address1 = s.address1 :=
  forEach_keeps (fun s => s.address1) _ _ (fun _ _ => by simp) _
@[simp] theorem syncChannels_ports (s : State) : (syncChannels s).ports = s.ports :=
  forEach_keeps (fun s => s.ports) _ _ (fun _ _ => by simp) _
@[simp] theorem syncChannels_access (s : State) : (syncChannels s).access = s.access :=
  forEach_keeps (fun s => s.access) _ _ (fun _ _ => by simp) _
@[simp] theorem syncChannels_pool (s : State) : (syncChannels s).pool = s.pool :=
  forEach_keeps (fun s => s.pool) _ _ (fun _ _ => by simp) _
@[simp] theorem syncChannels_resolver (s : State) : (syncChannels s).resolver = s.resolver :=
  forEach_keeps (fun s => s.resolver) _ _ (fun _ _ => by simp) _
@[simp] theorem syncChannels_scenes (s : State) : (syncChannels s).scenes = s.scenes :=
  forEach_keeps (fun s => s.scenes) _ _ (fun _ _ => by simp) _
@[simp] theorem syncChannels_players (s : State) : (syncChannels s).players = s.players :=
  forEach_keeps (fun s => s.players) _ _ (fun _ _ => by simp) _
@[simp] theorem syncChannels_lines (s : State) : (syncChannels s).lines = s.lines :=
  forEach_keeps (fun s => s.lines) _ _ (fun _ _ => by simp) _
@[simp] theorem syncChannels_clocks (s : State) : (syncChannels s).clocks = s.clocks :=
  forEach_keeps (fun s => s.clocks) _ _ (fun _ _ => by simp) _
@[simp] theorem syncChannels_derateCeiling (s : State) : (syncChannels s).derateCeiling = s.derateCeiling :=
  forEach_keeps (fun s => s.derateCeiling) _ _ (fun _ _ => by simp) _
@[simp] theorem syncChannels_lampTest (s : State) : (syncChannels s).lampTest = s.lampTest :=
  forEach_keeps (fun s => s.lampTest) _ _ (fun _ _ => by simp) _
@[simp] theorem syncChannels_output (s : State) : (syncChannels s).output = s.output :=
  forEach_keeps (fun s => s.output) _ _ (fun _ _ => by simp) _
@[simp] theorem syncChannels_outs (s : State) : (syncChannels s).outs = s.outs :=
  forEach_keeps (fun s => s.outs) _ _ (fun _ _ => by simp) _
@[simp] theorem syncChannels_watches (s : State) : (syncChannels s).watches = s.watches :=
  forEach_keeps (fun s => s.watches) _ _ (fun _ _ => by simp) _
@[simp] theorem syncChannels_port (s : State) (q : Port) : (syncChannels s).port q = s.port q := by
  simp only [State.port, syncChannels_ports]
@[simp] theorem syncChannels_right (s : State) (q : Port) : (syncChannels s).right q = s.right q := by
  simp only [State.right, syncChannels_access]
@[simp] theorem syncChannels_record (s : State) (i : Slot) : (syncChannels s).record i = s.record i := by
  simp only [State.record, syncChannels_pool]
@[simp] theorem syncChannels_entry (s : State) (i : Channel) : (syncChannels s).entry i = s.entry i := by
  simp only [State.entry, syncChannels_resolver]
@[simp] theorem syncChannels_scene (s : State) (i : SceneNo) : (syncChannels s).scene i = s.scene i := by
  simp only [State.scene, syncChannels_scenes]
@[simp] theorem syncChannels_player (s : State) (i : PlayerNo) : (syncChannels s).player i = s.player i := by
  simp only [State.player, syncChannels_players]
@[simp] theorem syncChannels_line (s : State) (i : Line) : (syncChannels s).line i = s.line i := by
  simp only [State.line, syncChannels_lines]
@[simp] theorem syncChannels_clock (s : State) (i : ClockNo) : (syncChannels s).clock i = s.clock i := by
  simp only [State.clock, syncChannels_clocks]
@[simp] theorem syncChannels_out (s : State) (i : Channel) : (syncChannels s).out i = s.out i := by
  simp only [State.out, syncChannels_outs]
@[simp] theorem syncChannels_watch (s : State) (i : WatchNo) : (syncChannels s).watch i = s.watch i := by
  simp only [State.watch, syncChannels_watches]

@[simp] theorem cleanChannel_now (ch : Channel) (s : State) : (cleanChannel ch s).now = s.now :=
  rfl
@[simp] theorem cleanChannel_draws (ch : Channel) (s : State) : (cleanChannel ch s).draws = s.draws :=
  rfl
@[simp] theorem cleanChannel_pending (ch : Channel) (s : State) : (cleanChannel ch s).pending = s.pending :=
  rfl
@[simp] theorem cleanChannel_lts (ch : Channel) (s : State) : (cleanChannel ch s).lts = s.lts :=
  rfl
@[simp] theorem cleanChannel_address0 (ch : Channel) (s : State) : (cleanChannel ch s).address0 = s.address0 :=
  rfl
@[simp] theorem cleanChannel_address1 (ch : Channel) (s : State) : (cleanChannel ch s).address1 = s.address1 :=
  rfl
@[simp] theorem cleanChannel_ports (ch : Channel) (s : State) : (cleanChannel ch s).ports = s.ports :=
  rfl
@[simp] theorem cleanChannel_access (ch : Channel) (s : State) : (cleanChannel ch s).access = s.access :=
  rfl
@[simp] theorem cleanChannel_pool (ch : Channel) (s : State) : (cleanChannel ch s).pool = s.pool :=
  rfl
@[simp] theorem cleanChannel_resolver (ch : Channel) (s : State) : (cleanChannel ch s).resolver = s.resolver :=
  rfl
@[simp] theorem cleanChannel_scenes (ch : Channel) (s : State) : (cleanChannel ch s).scenes = s.scenes :=
  rfl
@[simp] theorem cleanChannel_players (ch : Channel) (s : State) : (cleanChannel ch s).players = s.players :=
  rfl
@[simp] theorem cleanChannel_lines (ch : Channel) (s : State) : (cleanChannel ch s).lines = s.lines :=
  rfl
@[simp] theorem cleanChannel_modulator (ch : Channel) (s : State) : (cleanChannel ch s).modulator = s.modulator :=
  rfl
@[simp] theorem cleanChannel_clocks (ch : Channel) (s : State) : (cleanChannel ch s).clocks = s.clocks :=
  rfl
@[simp] theorem cleanChannel_derateCeiling (ch : Channel) (s : State) : (cleanChannel ch s).derateCeiling = s.derateCeiling :=
  rfl
@[simp] theorem cleanChannel_lampTest (ch : Channel) (s : State) : (cleanChannel ch s).lampTest = s.lampTest :=
  rfl
@[simp] theorem cleanChannel_output (ch : Channel) (s : State) : (cleanChannel ch s).output = s.output :=
  rfl
@[simp] theorem cleanChannel_watches (ch : Channel) (s : State) : (cleanChannel ch s).watches = s.watches :=
  rfl

@[simp] theorem cleanChannels_now (s : State) : (cleanChannels s).now = s.now :=
  forEach_keeps (fun s => s.now) _ _ (fun _ _ => by simp) _
@[simp] theorem cleanChannels_draws (s : State) : (cleanChannels s).draws = s.draws :=
  forEach_keeps (fun s => s.draws) _ _ (fun _ _ => by simp) _
@[simp] theorem cleanChannels_pending (s : State) : (cleanChannels s).pending = s.pending :=
  forEach_keeps (fun s => s.pending) _ _ (fun _ _ => by simp) _
@[simp] theorem cleanChannels_lts (s : State) : (cleanChannels s).lts = s.lts :=
  forEach_keeps (fun s => s.lts) _ _ (fun _ _ => by simp) _
@[simp] theorem cleanChannels_address0 (s : State) : (cleanChannels s).address0 = s.address0 :=
  forEach_keeps (fun s => s.address0) _ _ (fun _ _ => by simp) _
@[simp] theorem cleanChannels_address1 (s : State) : (cleanChannels s).address1 = s.address1 :=
  forEach_keeps (fun s => s.address1) _ _ (fun _ _ => by simp) _
@[simp] theorem cleanChannels_ports (s : State) : (cleanChannels s).ports = s.ports :=
  forEach_keeps (fun s => s.ports) _ _ (fun _ _ => by simp) _
@[simp] theorem cleanChannels_access (s : State) : (cleanChannels s).access = s.access :=
  forEach_keeps (fun s => s.access) _ _ (fun _ _ => by simp) _
@[simp] theorem cleanChannels_pool (s : State) : (cleanChannels s).pool = s.pool :=
  forEach_keeps (fun s => s.pool) _ _ (fun _ _ => by simp) _
@[simp] theorem cleanChannels_resolver (s : State) : (cleanChannels s).resolver = s.resolver :=
  forEach_keeps (fun s => s.resolver) _ _ (fun _ _ => by simp) _
@[simp] theorem cleanChannels_scenes (s : State) : (cleanChannels s).scenes = s.scenes :=
  forEach_keeps (fun s => s.scenes) _ _ (fun _ _ => by simp) _
@[simp] theorem cleanChannels_players (s : State) : (cleanChannels s).players = s.players :=
  forEach_keeps (fun s => s.players) _ _ (fun _ _ => by simp) _
@[simp] theorem cleanChannels_lines (s : State) : (cleanChannels s).lines = s.lines :=
  forEach_keeps (fun s => s.lines) _ _ (fun _ _ => by simp) _
@[simp] theorem cleanChannels_modulator (s : State) : (cleanChannels s).modulator = s.modulator :=
  forEach_keeps (fun s => s.modulator) _ _ (fun _ _ => by simp) _
@[simp] theorem cleanChannels_clocks (s : State) : (cleanChannels s).clocks = s.clocks :=
  forEach_keeps (fun s => s.clocks) _ _ (fun _ _ => by simp) _
@[simp] theorem cleanChannels_derateCeiling (s : State) : (cleanChannels s).derateCeiling = s.derateCeiling :=
  forEach_keeps (fun s => s.derateCeiling) _ _ (fun _ _ => by simp) _
@[simp] theorem cleanChannels_lampTest (s : State) : (cleanChannels s).lampTest = s.lampTest :=
  forEach_keeps (fun s => s.lampTest) _ _ (fun _ _ => by simp) _
@[simp] theorem cleanChannels_output (s : State) : (cleanChannels s).output = s.output :=
  forEach_keeps (fun s => s.output) _ _ (fun _ _ => by simp) _
@[simp] theorem cleanChannels_watches (s : State) : (cleanChannels s).watches = s.watches :=
  forEach_keeps (fun s => s.watches) _ _ (fun _ _ => by simp) _
@[simp] theorem cleanChannels_port (s : State) (q : Port) : (cleanChannels s).port q = s.port q := by
  simp only [State.port, cleanChannels_ports]
@[simp] theorem cleanChannels_right (s : State) (q : Port) : (cleanChannels s).right q = s.right q := by
  simp only [State.right, cleanChannels_access]
@[simp] theorem cleanChannels_record (s : State) (i : Slot) : (cleanChannels s).record i = s.record i := by
  simp only [State.record, cleanChannels_pool]
@[simp] theorem cleanChannels_entry (s : State) (i : Channel) : (cleanChannels s).entry i = s.entry i := by
  simp only [State.entry, cleanChannels_resolver]
@[simp] theorem cleanChannels_scene (s : State) (i : SceneNo) : (cleanChannels s).scene i = s.scene i := by
  simp only [State.scene, cleanChannels_scenes]
@[simp] theorem cleanChannels_player (s : State) (i : PlayerNo) : (cleanChannels s).player i = s.player i := by
  simp only [State.player, cleanChannels_players]
@[simp] theorem cleanChannels_line (s : State) (i : Line) : (cleanChannels s).line i = s.line i := by
  simp only [State.line, cleanChannels_lines]
@[simp] theorem cleanChannels_chan (s : State) (i : Channel) : (cleanChannels s).chan i = s.chan i := by
  simp only [State.chan, cleanChannels_modulator]
@[simp] theorem cleanChannels_clock (s : State) (i : ClockNo) : (cleanChannels s).clock i = s.clock i := by
  simp only [State.clock, cleanChannels_clocks]
@[simp] theorem cleanChannels_watch (s : State) (i : WatchNo) : (cleanChannels s).watch i = s.watch i := by
  simp only [State.watch, cleanChannels_watches]

/-! ### Resolver -/

@[simp] theorem enlist_now (h : Handle) (c : Claim) (s : State) : (enlist h c s).now = s.now :=
  forEach_keeps (fun s => s.now) _ _ (fun _ _ => by simp) _
@[simp] theorem enlist_draws (h : Handle) (c : Claim) (s : State) : (enlist h c s).draws = s.draws :=
  forEach_keeps (fun s => s.draws) _ _ (fun _ _ => by simp) _
@[simp] theorem enlist_pending (h : Handle) (c : Claim) (s : State) : (enlist h c s).pending = s.pending :=
  forEach_keeps (fun s => s.pending) _ _ (fun _ _ => by simp) _
@[simp] theorem enlist_lts (h : Handle) (c : Claim) (s : State) : (enlist h c s).lts = s.lts :=
  forEach_keeps (fun s => s.lts) _ _ (fun _ _ => by simp) _
@[simp] theorem enlist_address0 (h : Handle) (c : Claim) (s : State) : (enlist h c s).address0 = s.address0 :=
  forEach_keeps (fun s => s.address0) _ _ (fun _ _ => by simp) _
@[simp] theorem enlist_address1 (h : Handle) (c : Claim) (s : State) : (enlist h c s).address1 = s.address1 :=
  forEach_keeps (fun s => s.address1) _ _ (fun _ _ => by simp) _
@[simp] theorem enlist_ports (h : Handle) (c : Claim) (s : State) : (enlist h c s).ports = s.ports :=
  forEach_keeps (fun s => s.ports) _ _ (fun _ _ => by simp) _
@[simp] theorem enlist_access (h : Handle) (c : Claim) (s : State) : (enlist h c s).access = s.access :=
  forEach_keeps (fun s => s.access) _ _ (fun _ _ => by simp) _
@[simp] theorem enlist_pool (h : Handle) (c : Claim) (s : State) : (enlist h c s).pool = s.pool :=
  forEach_keeps (fun s => s.pool) _ _ (fun _ _ => by simp) _
@[simp] theorem enlist_scenes (h : Handle) (c : Claim) (s : State) : (enlist h c s).scenes = s.scenes :=
  forEach_keeps (fun s => s.scenes) _ _ (fun _ _ => by simp) _
@[simp] theorem enlist_players (h : Handle) (c : Claim) (s : State) : (enlist h c s).players = s.players :=
  forEach_keeps (fun s => s.players) _ _ (fun _ _ => by simp) _
@[simp] theorem enlist_lines (h : Handle) (c : Claim) (s : State) : (enlist h c s).lines = s.lines :=
  forEach_keeps (fun s => s.lines) _ _ (fun _ _ => by simp) _
@[simp] theorem enlist_modulator (h : Handle) (c : Claim) (s : State) : (enlist h c s).modulator = s.modulator :=
  forEach_keeps (fun s => s.modulator) _ _ (fun _ _ => by simp) _
@[simp] theorem enlist_clocks (h : Handle) (c : Claim) (s : State) : (enlist h c s).clocks = s.clocks :=
  forEach_keeps (fun s => s.clocks) _ _ (fun _ _ => by simp) _
@[simp] theorem enlist_derateCeiling (h : Handle) (c : Claim) (s : State) : (enlist h c s).derateCeiling = s.derateCeiling :=
  forEach_keeps (fun s => s.derateCeiling) _ _ (fun _ _ => by simp) _
@[simp] theorem enlist_lampTest (h : Handle) (c : Claim) (s : State) : (enlist h c s).lampTest = s.lampTest :=
  forEach_keeps (fun s => s.lampTest) _ _ (fun _ _ => by simp) _
@[simp] theorem enlist_output (h : Handle) (c : Claim) (s : State) : (enlist h c s).output = s.output :=
  forEach_keeps (fun s => s.output) _ _ (fun _ _ => by simp) _
@[simp] theorem enlist_outs (h : Handle) (c : Claim) (s : State) : (enlist h c s).outs = s.outs :=
  forEach_keeps (fun s => s.outs) _ _ (fun _ _ => by simp) _
@[simp] theorem enlist_watches (h : Handle) (c : Claim) (s : State) : (enlist h c s).watches = s.watches :=
  forEach_keeps (fun s => s.watches) _ _ (fun _ _ => by simp) _

@[simp] theorem unlist_now (h : Handle) (c : Claim) (s : State) : (unlist h c s).now = s.now :=
  forEach_keeps (fun s => s.now) _ _ (fun _ _ => by simp) _
@[simp] theorem unlist_draws (h : Handle) (c : Claim) (s : State) : (unlist h c s).draws = s.draws :=
  forEach_keeps (fun s => s.draws) _ _ (fun _ _ => by simp) _
@[simp] theorem unlist_pending (h : Handle) (c : Claim) (s : State) : (unlist h c s).pending = s.pending :=
  forEach_keeps (fun s => s.pending) _ _ (fun _ _ => by simp) _
@[simp] theorem unlist_lts (h : Handle) (c : Claim) (s : State) : (unlist h c s).lts = s.lts :=
  forEach_keeps (fun s => s.lts) _ _ (fun _ _ => by simp) _
@[simp] theorem unlist_address0 (h : Handle) (c : Claim) (s : State) : (unlist h c s).address0 = s.address0 :=
  forEach_keeps (fun s => s.address0) _ _ (fun _ _ => by simp) _
@[simp] theorem unlist_address1 (h : Handle) (c : Claim) (s : State) : (unlist h c s).address1 = s.address1 :=
  forEach_keeps (fun s => s.address1) _ _ (fun _ _ => by simp) _
@[simp] theorem unlist_ports (h : Handle) (c : Claim) (s : State) : (unlist h c s).ports = s.ports :=
  forEach_keeps (fun s => s.ports) _ _ (fun _ _ => by simp) _
@[simp] theorem unlist_access (h : Handle) (c : Claim) (s : State) : (unlist h c s).access = s.access :=
  forEach_keeps (fun s => s.access) _ _ (fun _ _ => by simp) _
@[simp] theorem unlist_pool (h : Handle) (c : Claim) (s : State) : (unlist h c s).pool = s.pool :=
  forEach_keeps (fun s => s.pool) _ _ (fun _ _ => by simp) _
@[simp] theorem unlist_scenes (h : Handle) (c : Claim) (s : State) : (unlist h c s).scenes = s.scenes :=
  forEach_keeps (fun s => s.scenes) _ _ (fun _ _ => by simp) _
@[simp] theorem unlist_players (h : Handle) (c : Claim) (s : State) : (unlist h c s).players = s.players :=
  forEach_keeps (fun s => s.players) _ _ (fun _ _ => by simp) _
@[simp] theorem unlist_lines (h : Handle) (c : Claim) (s : State) : (unlist h c s).lines = s.lines :=
  forEach_keeps (fun s => s.lines) _ _ (fun _ _ => by simp) _
@[simp] theorem unlist_modulator (h : Handle) (c : Claim) (s : State) : (unlist h c s).modulator = s.modulator :=
  forEach_keeps (fun s => s.modulator) _ _ (fun _ _ => by simp) _
@[simp] theorem unlist_clocks (h : Handle) (c : Claim) (s : State) : (unlist h c s).clocks = s.clocks :=
  forEach_keeps (fun s => s.clocks) _ _ (fun _ _ => by simp) _
@[simp] theorem unlist_derateCeiling (h : Handle) (c : Claim) (s : State) : (unlist h c s).derateCeiling = s.derateCeiling :=
  forEach_keeps (fun s => s.derateCeiling) _ _ (fun _ _ => by simp) _
@[simp] theorem unlist_lampTest (h : Handle) (c : Claim) (s : State) : (unlist h c s).lampTest = s.lampTest :=
  forEach_keeps (fun s => s.lampTest) _ _ (fun _ _ => by simp) _
@[simp] theorem unlist_output (h : Handle) (c : Claim) (s : State) : (unlist h c s).output = s.output :=
  forEach_keeps (fun s => s.output) _ _ (fun _ _ => by simp) _
@[simp] theorem unlist_outs (h : Handle) (c : Claim) (s : State) : (unlist h c s).outs = s.outs :=
  forEach_keeps (fun s => s.outs) _ _ (fun _ _ => by simp) _
@[simp] theorem unlist_watches (h : Handle) (c : Claim) (s : State) : (unlist h c s).watches = s.watches :=
  forEach_keeps (fun s => s.watches) _ _ (fun _ _ => by simp) _

@[simp] theorem reinsert_now (h : Handle) (c : Claim) (s : State) : (reinsert h c s).now = s.now :=
  by simp [reinsert]
@[simp] theorem reinsert_draws (h : Handle) (c : Claim) (s : State) : (reinsert h c s).draws = s.draws :=
  by simp [reinsert]
@[simp] theorem reinsert_pending (h : Handle) (c : Claim) (s : State) : (reinsert h c s).pending = s.pending :=
  by simp [reinsert]
@[simp] theorem reinsert_lts (h : Handle) (c : Claim) (s : State) : (reinsert h c s).lts = s.lts :=
  by simp [reinsert]
@[simp] theorem reinsert_address0 (h : Handle) (c : Claim) (s : State) : (reinsert h c s).address0 = s.address0 :=
  by simp [reinsert]
@[simp] theorem reinsert_address1 (h : Handle) (c : Claim) (s : State) : (reinsert h c s).address1 = s.address1 :=
  by simp [reinsert]
@[simp] theorem reinsert_ports (h : Handle) (c : Claim) (s : State) : (reinsert h c s).ports = s.ports :=
  by simp [reinsert]
@[simp] theorem reinsert_access (h : Handle) (c : Claim) (s : State) : (reinsert h c s).access = s.access :=
  by simp [reinsert]
@[simp] theorem reinsert_pool (h : Handle) (c : Claim) (s : State) : (reinsert h c s).pool = s.pool :=
  by simp [reinsert]
@[simp] theorem reinsert_scenes (h : Handle) (c : Claim) (s : State) : (reinsert h c s).scenes = s.scenes :=
  by simp [reinsert]
@[simp] theorem reinsert_players (h : Handle) (c : Claim) (s : State) : (reinsert h c s).players = s.players :=
  by simp [reinsert]
@[simp] theorem reinsert_lines (h : Handle) (c : Claim) (s : State) : (reinsert h c s).lines = s.lines :=
  by simp [reinsert]
@[simp] theorem reinsert_modulator (h : Handle) (c : Claim) (s : State) : (reinsert h c s).modulator = s.modulator :=
  by simp [reinsert]
@[simp] theorem reinsert_clocks (h : Handle) (c : Claim) (s : State) : (reinsert h c s).clocks = s.clocks :=
  by simp [reinsert]
@[simp] theorem reinsert_derateCeiling (h : Handle) (c : Claim) (s : State) : (reinsert h c s).derateCeiling = s.derateCeiling :=
  by simp [reinsert]
@[simp] theorem reinsert_lampTest (h : Handle) (c : Claim) (s : State) : (reinsert h c s).lampTest = s.lampTest :=
  by simp [reinsert]
@[simp] theorem reinsert_output (h : Handle) (c : Claim) (s : State) : (reinsert h c s).output = s.output :=
  by simp [reinsert]
@[simp] theorem reinsert_outs (h : Handle) (c : Claim) (s : State) : (reinsert h c s).outs = s.outs :=
  by simp [reinsert]
@[simp] theorem reinsert_watches (h : Handle) (c : Claim) (s : State) : (reinsert h c s).watches = s.watches :=
  by simp [reinsert]

@[simp] theorem handOn_now (f : Option Handle) (ch : Channel) (o : ResolverEntry) (w : Option (Handle × Claim)) (s : State) : (handOn f ch o w s).now = s.now :=
  by unfold handOn; dsimp only; split_ifs <;> simp
@[simp] theorem handOn_draws (f : Option Handle) (ch : Channel) (o : ResolverEntry) (w : Option (Handle × Claim)) (s : State) : (handOn f ch o w s).draws = s.draws :=
  by unfold handOn; dsimp only; split_ifs <;> simp
@[simp] theorem handOn_pending (f : Option Handle) (ch : Channel) (o : ResolverEntry) (w : Option (Handle × Claim)) (s : State) : (handOn f ch o w s).pending = s.pending :=
  by unfold handOn; dsimp only; split_ifs <;> simp
@[simp] theorem handOn_lts (f : Option Handle) (ch : Channel) (o : ResolverEntry) (w : Option (Handle × Claim)) (s : State) : (handOn f ch o w s).lts = s.lts :=
  by unfold handOn; dsimp only; split_ifs <;> simp
@[simp] theorem handOn_address0 (f : Option Handle) (ch : Channel) (o : ResolverEntry) (w : Option (Handle × Claim)) (s : State) : (handOn f ch o w s).address0 = s.address0 :=
  by unfold handOn; dsimp only; split_ifs <;> simp
@[simp] theorem handOn_address1 (f : Option Handle) (ch : Channel) (o : ResolverEntry) (w : Option (Handle × Claim)) (s : State) : (handOn f ch o w s).address1 = s.address1 :=
  by unfold handOn; dsimp only; split_ifs <;> simp
@[simp] theorem handOn_ports (f : Option Handle) (ch : Channel) (o : ResolverEntry) (w : Option (Handle × Claim)) (s : State) : (handOn f ch o w s).ports = s.ports :=
  by unfold handOn; dsimp only; split_ifs <;> simp
@[simp] theorem handOn_access (f : Option Handle) (ch : Channel) (o : ResolverEntry) (w : Option (Handle × Claim)) (s : State) : (handOn f ch o w s).access = s.access :=
  by unfold handOn; dsimp only; split_ifs <;> simp
@[simp] theorem handOn_pool (f : Option Handle) (ch : Channel) (o : ResolverEntry) (w : Option (Handle × Claim)) (s : State) : (handOn f ch o w s).pool = s.pool :=
  by unfold handOn; dsimp only; split_ifs <;> simp
@[simp] theorem handOn_resolver (f : Option Handle) (ch : Channel) (o : ResolverEntry) (w : Option (Handle × Claim)) (s : State) : (handOn f ch o w s).resolver = s.resolver :=
  by unfold handOn; dsimp only; split_ifs <;> simp
@[simp] theorem handOn_scenes (f : Option Handle) (ch : Channel) (o : ResolverEntry) (w : Option (Handle × Claim)) (s : State) : (handOn f ch o w s).scenes = s.scenes :=
  by unfold handOn; dsimp only; split_ifs <;> simp
@[simp] theorem handOn_players (f : Option Handle) (ch : Channel) (o : ResolverEntry) (w : Option (Handle × Claim)) (s : State) : (handOn f ch o w s).players = s.players :=
  by unfold handOn; dsimp only; split_ifs <;> simp
@[simp] theorem handOn_lines (f : Option Handle) (ch : Channel) (o : ResolverEntry) (w : Option (Handle × Claim)) (s : State) : (handOn f ch o w s).lines = s.lines :=
  by unfold handOn; dsimp only; split_ifs <;> simp
@[simp] theorem handOn_clocks (f : Option Handle) (ch : Channel) (o : ResolverEntry) (w : Option (Handle × Claim)) (s : State) : (handOn f ch o w s).clocks = s.clocks :=
  by unfold handOn; dsimp only; split_ifs <;> simp
@[simp] theorem handOn_derateCeiling (f : Option Handle) (ch : Channel) (o : ResolverEntry) (w : Option (Handle × Claim)) (s : State) : (handOn f ch o w s).derateCeiling = s.derateCeiling :=
  by unfold handOn; dsimp only; split_ifs <;> simp
@[simp] theorem handOn_lampTest (f : Option Handle) (ch : Channel) (o : ResolverEntry) (w : Option (Handle × Claim)) (s : State) : (handOn f ch o w s).lampTest = s.lampTest :=
  by unfold handOn; dsimp only; split_ifs <;> simp
@[simp] theorem handOn_output (f : Option Handle) (ch : Channel) (o : ResolverEntry) (w : Option (Handle × Claim)) (s : State) : (handOn f ch o w s).output = s.output :=
  by unfold handOn; dsimp only; split_ifs <;> simp
@[simp] theorem handOn_outs (f : Option Handle) (ch : Channel) (o : ResolverEntry) (w : Option (Handle × Claim)) (s : State) : (handOn f ch o w s).outs = s.outs :=
  by unfold handOn; dsimp only; split_ifs <;> simp
@[simp] theorem handOn_watches (f : Option Handle) (ch : Channel) (o : ResolverEntry) (w : Option (Handle × Claim)) (s : State) : (handOn f ch o w s).watches = s.watches :=
  by unfold handOn; dsimp only; split_ifs <;> simp

@[simp] theorem winnerEvent_now (ch : Channel) (w : Option (Handle × Claim)) (s : State) : (winnerEvent ch w s).now = s.now :=
  by simp [winnerEvent]
@[simp] theorem winnerEvent_draws (ch : Channel) (w : Option (Handle × Claim)) (s : State) : (winnerEvent ch w s).draws = s.draws :=
  by simp [winnerEvent]
@[simp] theorem winnerEvent_pending (ch : Channel) (w : Option (Handle × Claim)) (s : State) : (winnerEvent ch w s).pending = s.pending :=
  by simp [winnerEvent]
@[simp] theorem winnerEvent_lts (ch : Channel) (w : Option (Handle × Claim)) (s : State) : (winnerEvent ch w s).lts = s.lts :=
  by simp [winnerEvent]
@[simp] theorem winnerEvent_address0 (ch : Channel) (w : Option (Handle × Claim)) (s : State) : (winnerEvent ch w s).address0 = s.address0 :=
  by simp [winnerEvent]
@[simp] theorem winnerEvent_address1 (ch : Channel) (w : Option (Handle × Claim)) (s : State) : (winnerEvent ch w s).address1 = s.address1 :=
  by simp [winnerEvent]
@[simp] theorem winnerEvent_access (ch : Channel) (w : Option (Handle × Claim)) (s : State) : (winnerEvent ch w s).access = s.access :=
  by simp [winnerEvent]
@[simp] theorem winnerEvent_pool (ch : Channel) (w : Option (Handle × Claim)) (s : State) : (winnerEvent ch w s).pool = s.pool :=
  by simp [winnerEvent]
@[simp] theorem winnerEvent_resolver (ch : Channel) (w : Option (Handle × Claim)) (s : State) : (winnerEvent ch w s).resolver = s.resolver :=
  by simp [winnerEvent]
@[simp] theorem winnerEvent_scenes (ch : Channel) (w : Option (Handle × Claim)) (s : State) : (winnerEvent ch w s).scenes = s.scenes :=
  by simp [winnerEvent]
@[simp] theorem winnerEvent_players (ch : Channel) (w : Option (Handle × Claim)) (s : State) : (winnerEvent ch w s).players = s.players :=
  by simp [winnerEvent]
@[simp] theorem winnerEvent_lines (ch : Channel) (w : Option (Handle × Claim)) (s : State) : (winnerEvent ch w s).lines = s.lines :=
  by simp [winnerEvent]
@[simp] theorem winnerEvent_modulator (ch : Channel) (w : Option (Handle × Claim)) (s : State) : (winnerEvent ch w s).modulator = s.modulator :=
  by simp [winnerEvent]
@[simp] theorem winnerEvent_clocks (ch : Channel) (w : Option (Handle × Claim)) (s : State) : (winnerEvent ch w s).clocks = s.clocks :=
  by simp [winnerEvent]
@[simp] theorem winnerEvent_derateCeiling (ch : Channel) (w : Option (Handle × Claim)) (s : State) : (winnerEvent ch w s).derateCeiling = s.derateCeiling :=
  by simp [winnerEvent]
@[simp] theorem winnerEvent_lampTest (ch : Channel) (w : Option (Handle × Claim)) (s : State) : (winnerEvent ch w s).lampTest = s.lampTest :=
  by simp [winnerEvent]
@[simp] theorem winnerEvent_output (ch : Channel) (w : Option (Handle × Claim)) (s : State) : (winnerEvent ch w s).output = s.output :=
  by simp [winnerEvent]
@[simp] theorem winnerEvent_outs (ch : Channel) (w : Option (Handle × Claim)) (s : State) : (winnerEvent ch w s).outs = s.outs :=
  by simp [winnerEvent]

@[simp] theorem storeOutcome_now (ch : Channel) (w : Option (Handle × Claim)) (s : State) : (storeOutcome ch w s).now = s.now :=
  rfl
@[simp] theorem storeOutcome_draws (ch : Channel) (w : Option (Handle × Claim)) (s : State) : (storeOutcome ch w s).draws = s.draws :=
  rfl
@[simp] theorem storeOutcome_pending (ch : Channel) (w : Option (Handle × Claim)) (s : State) : (storeOutcome ch w s).pending = s.pending :=
  rfl
@[simp] theorem storeOutcome_lts (ch : Channel) (w : Option (Handle × Claim)) (s : State) : (storeOutcome ch w s).lts = s.lts :=
  rfl
@[simp] theorem storeOutcome_address0 (ch : Channel) (w : Option (Handle × Claim)) (s : State) : (storeOutcome ch w s).address0 = s.address0 :=
  rfl
@[simp] theorem storeOutcome_address1 (ch : Channel) (w : Option (Handle × Claim)) (s : State) : (storeOutcome ch w s).address1 = s.address1 :=
  rfl
@[simp] theorem storeOutcome_ports (ch : Channel) (w : Option (Handle × Claim)) (s : State) : (storeOutcome ch w s).ports = s.ports :=
  rfl
@[simp] theorem storeOutcome_access (ch : Channel) (w : Option (Handle × Claim)) (s : State) : (storeOutcome ch w s).access = s.access :=
  rfl
@[simp] theorem storeOutcome_pool (ch : Channel) (w : Option (Handle × Claim)) (s : State) : (storeOutcome ch w s).pool = s.pool :=
  rfl
@[simp] theorem storeOutcome_scenes (ch : Channel) (w : Option (Handle × Claim)) (s : State) : (storeOutcome ch w s).scenes = s.scenes :=
  rfl
@[simp] theorem storeOutcome_players (ch : Channel) (w : Option (Handle × Claim)) (s : State) : (storeOutcome ch w s).players = s.players :=
  rfl
@[simp] theorem storeOutcome_lines (ch : Channel) (w : Option (Handle × Claim)) (s : State) : (storeOutcome ch w s).lines = s.lines :=
  rfl
@[simp] theorem storeOutcome_modulator (ch : Channel) (w : Option (Handle × Claim)) (s : State) : (storeOutcome ch w s).modulator = s.modulator :=
  rfl
@[simp] theorem storeOutcome_clocks (ch : Channel) (w : Option (Handle × Claim)) (s : State) : (storeOutcome ch w s).clocks = s.clocks :=
  rfl
@[simp] theorem storeOutcome_derateCeiling (ch : Channel) (w : Option (Handle × Claim)) (s : State) : (storeOutcome ch w s).derateCeiling = s.derateCeiling :=
  rfl
@[simp] theorem storeOutcome_lampTest (ch : Channel) (w : Option (Handle × Claim)) (s : State) : (storeOutcome ch w s).lampTest = s.lampTest :=
  rfl
@[simp] theorem storeOutcome_output (ch : Channel) (w : Option (Handle × Claim)) (s : State) : (storeOutcome ch w s).output = s.output :=
  rfl
@[simp] theorem storeOutcome_outs (ch : Channel) (w : Option (Handle × Claim)) (s : State) : (storeOutcome ch w s).outs = s.outs :=
  rfl
@[simp] theorem storeOutcome_watches (ch : Channel) (w : Option (Handle × Claim)) (s : State) : (storeOutcome ch w s).watches = s.watches :=
  rfl

@[simp] theorem resolveChannel_now (f : Option Handle) (e : Bool) (ch : Channel) (s : State) : (resolveChannel f e ch s).now = s.now :=
  by unfold resolveChannel; dsimp only; split_ifs <;> simp
@[simp] theorem resolveChannel_draws (f : Option Handle) (e : Bool) (ch : Channel) (s : State) : (resolveChannel f e ch s).draws = s.draws :=
  by unfold resolveChannel; dsimp only; split_ifs <;> simp
@[simp] theorem resolveChannel_pending (f : Option Handle) (e : Bool) (ch : Channel) (s : State) : (resolveChannel f e ch s).pending = s.pending :=
  by unfold resolveChannel; dsimp only; split_ifs <;> simp
@[simp] theorem resolveChannel_lts (f : Option Handle) (e : Bool) (ch : Channel) (s : State) : (resolveChannel f e ch s).lts = s.lts :=
  by unfold resolveChannel; dsimp only; split_ifs <;> simp
@[simp] theorem resolveChannel_address0 (f : Option Handle) (e : Bool) (ch : Channel) (s : State) : (resolveChannel f e ch s).address0 = s.address0 :=
  by unfold resolveChannel; dsimp only; split_ifs <;> simp
@[simp] theorem resolveChannel_address1 (f : Option Handle) (e : Bool) (ch : Channel) (s : State) : (resolveChannel f e ch s).address1 = s.address1 :=
  by unfold resolveChannel; dsimp only; split_ifs <;> simp
@[simp] theorem resolveChannel_access (f : Option Handle) (e : Bool) (ch : Channel) (s : State) : (resolveChannel f e ch s).access = s.access :=
  by unfold resolveChannel; dsimp only; split_ifs <;> simp
@[simp] theorem resolveChannel_pool (f : Option Handle) (e : Bool) (ch : Channel) (s : State) : (resolveChannel f e ch s).pool = s.pool :=
  by unfold resolveChannel; dsimp only; split_ifs <;> simp
@[simp] theorem resolveChannel_scenes (f : Option Handle) (e : Bool) (ch : Channel) (s : State) : (resolveChannel f e ch s).scenes = s.scenes :=
  by unfold resolveChannel; dsimp only; split_ifs <;> simp
@[simp] theorem resolveChannel_players (f : Option Handle) (e : Bool) (ch : Channel) (s : State) : (resolveChannel f e ch s).players = s.players :=
  by unfold resolveChannel; dsimp only; split_ifs <;> simp
@[simp] theorem resolveChannel_lines (f : Option Handle) (e : Bool) (ch : Channel) (s : State) : (resolveChannel f e ch s).lines = s.lines :=
  by unfold resolveChannel; dsimp only; split_ifs <;> simp
@[simp] theorem resolveChannel_clocks (f : Option Handle) (e : Bool) (ch : Channel) (s : State) : (resolveChannel f e ch s).clocks = s.clocks :=
  by unfold resolveChannel; dsimp only; split_ifs <;> simp
@[simp] theorem resolveChannel_derateCeiling (f : Option Handle) (e : Bool) (ch : Channel) (s : State) : (resolveChannel f e ch s).derateCeiling = s.derateCeiling :=
  by unfold resolveChannel; dsimp only; split_ifs <;> simp
@[simp] theorem resolveChannel_lampTest (f : Option Handle) (e : Bool) (ch : Channel) (s : State) : (resolveChannel f e ch s).lampTest = s.lampTest :=
  by unfold resolveChannel; dsimp only; split_ifs <;> simp
@[simp] theorem resolveChannel_output (f : Option Handle) (e : Bool) (ch : Channel) (s : State) : (resolveChannel f e ch s).output = s.output :=
  by unfold resolveChannel; dsimp only; split_ifs <;> simp
@[simp] theorem resolveChannel_outs (f : Option Handle) (e : Bool) (ch : Channel) (s : State) : (resolveChannel f e ch s).outs = s.outs :=
  by unfold resolveChannel; dsimp only; split_ifs <;> simp

@[simp] theorem winnerEvents_now (cs : ChannelSet) (o s : State) : (winnerEvents cs o s).now = s.now :=
  forEach_keeps (fun s => s.now) _ _ (fun ch s => by split_ifs <;> simp) s
@[simp] theorem winnerEvents_draws (cs : ChannelSet) (o s : State) : (winnerEvents cs o s).draws = s.draws :=
  forEach_keeps (fun s => s.draws) _ _ (fun ch s => by split_ifs <;> simp) s
@[simp] theorem winnerEvents_pending (cs : ChannelSet) (o s : State) : (winnerEvents cs o s).pending = s.pending :=
  forEach_keeps (fun s => s.pending) _ _ (fun ch s => by split_ifs <;> simp) s
@[simp] theorem winnerEvents_lts (cs : ChannelSet) (o s : State) : (winnerEvents cs o s).lts = s.lts :=
  forEach_keeps (fun s => s.lts) _ _ (fun ch s => by split_ifs <;> simp) s
@[simp] theorem winnerEvents_address0 (cs : ChannelSet) (o s : State) : (winnerEvents cs o s).address0 = s.address0 :=
  forEach_keeps (fun s => s.address0) _ _ (fun ch s => by split_ifs <;> simp) s
@[simp] theorem winnerEvents_address1 (cs : ChannelSet) (o s : State) : (winnerEvents cs o s).address1 = s.address1 :=
  forEach_keeps (fun s => s.address1) _ _ (fun ch s => by split_ifs <;> simp) s
@[simp] theorem winnerEvents_access (cs : ChannelSet) (o s : State) : (winnerEvents cs o s).access = s.access :=
  forEach_keeps (fun s => s.access) _ _ (fun ch s => by split_ifs <;> simp) s
@[simp] theorem winnerEvents_pool (cs : ChannelSet) (o s : State) : (winnerEvents cs o s).pool = s.pool :=
  forEach_keeps (fun s => s.pool) _ _ (fun ch s => by split_ifs <;> simp) s
@[simp] theorem winnerEvents_resolver (cs : ChannelSet) (o s : State) : (winnerEvents cs o s).resolver = s.resolver :=
  forEach_keeps (fun s => s.resolver) _ _ (fun ch s => by split_ifs <;> simp) s
@[simp] theorem winnerEvents_scenes (cs : ChannelSet) (o s : State) : (winnerEvents cs o s).scenes = s.scenes :=
  forEach_keeps (fun s => s.scenes) _ _ (fun ch s => by split_ifs <;> simp) s
@[simp] theorem winnerEvents_players (cs : ChannelSet) (o s : State) : (winnerEvents cs o s).players = s.players :=
  forEach_keeps (fun s => s.players) _ _ (fun ch s => by split_ifs <;> simp) s
@[simp] theorem winnerEvents_lines (cs : ChannelSet) (o s : State) : (winnerEvents cs o s).lines = s.lines :=
  forEach_keeps (fun s => s.lines) _ _ (fun ch s => by split_ifs <;> simp) s
@[simp] theorem winnerEvents_modulator (cs : ChannelSet) (o s : State) : (winnerEvents cs o s).modulator = s.modulator :=
  forEach_keeps (fun s => s.modulator) _ _ (fun ch s => by split_ifs <;> simp) s
@[simp] theorem winnerEvents_clocks (cs : ChannelSet) (o s : State) : (winnerEvents cs o s).clocks = s.clocks :=
  forEach_keeps (fun s => s.clocks) _ _ (fun ch s => by split_ifs <;> simp) s
@[simp] theorem winnerEvents_derateCeiling (cs : ChannelSet) (o s : State) : (winnerEvents cs o s).derateCeiling = s.derateCeiling :=
  forEach_keeps (fun s => s.derateCeiling) _ _ (fun ch s => by split_ifs <;> simp) s
@[simp] theorem winnerEvents_lampTest (cs : ChannelSet) (o s : State) : (winnerEvents cs o s).lampTest = s.lampTest :=
  forEach_keeps (fun s => s.lampTest) _ _ (fun ch s => by split_ifs <;> simp) s
@[simp] theorem winnerEvents_output (cs : ChannelSet) (o s : State) : (winnerEvents cs o s).output = s.output :=
  forEach_keeps (fun s => s.output) _ _ (fun ch s => by split_ifs <;> simp) s
@[simp] theorem winnerEvents_outs (cs : ChannelSet) (o s : State) : (winnerEvents cs o s).outs = s.outs :=
  forEach_keeps (fun s => s.outs) _ _ (fun ch s => by split_ifs <;> simp) s

@[simp] theorem resolveSet_now (f : Option Handle) (e : Bool) (cs : ChannelSet) (s : State) : (resolveSet f e cs s).now = s.now :=
  forEach_keeps (fun s => s.now) _ _ (fun _ _ => by simp) _
@[simp] theorem resolveSet_draws (f : Option Handle) (e : Bool) (cs : ChannelSet) (s : State) : (resolveSet f e cs s).draws = s.draws :=
  forEach_keeps (fun s => s.draws) _ _ (fun _ _ => by simp) _
@[simp] theorem resolveSet_pending (f : Option Handle) (e : Bool) (cs : ChannelSet) (s : State) : (resolveSet f e cs s).pending = s.pending :=
  forEach_keeps (fun s => s.pending) _ _ (fun _ _ => by simp) _
@[simp] theorem resolveSet_lts (f : Option Handle) (e : Bool) (cs : ChannelSet) (s : State) : (resolveSet f e cs s).lts = s.lts :=
  forEach_keeps (fun s => s.lts) _ _ (fun _ _ => by simp) _
@[simp] theorem resolveSet_address0 (f : Option Handle) (e : Bool) (cs : ChannelSet) (s : State) : (resolveSet f e cs s).address0 = s.address0 :=
  forEach_keeps (fun s => s.address0) _ _ (fun _ _ => by simp) _
@[simp] theorem resolveSet_address1 (f : Option Handle) (e : Bool) (cs : ChannelSet) (s : State) : (resolveSet f e cs s).address1 = s.address1 :=
  forEach_keeps (fun s => s.address1) _ _ (fun _ _ => by simp) _
@[simp] theorem resolveSet_access (f : Option Handle) (e : Bool) (cs : ChannelSet) (s : State) : (resolveSet f e cs s).access = s.access :=
  forEach_keeps (fun s => s.access) _ _ (fun _ _ => by simp) _
@[simp] theorem resolveSet_pool (f : Option Handle) (e : Bool) (cs : ChannelSet) (s : State) : (resolveSet f e cs s).pool = s.pool :=
  forEach_keeps (fun s => s.pool) _ _ (fun _ _ => by simp) _
@[simp] theorem resolveSet_scenes (f : Option Handle) (e : Bool) (cs : ChannelSet) (s : State) : (resolveSet f e cs s).scenes = s.scenes :=
  forEach_keeps (fun s => s.scenes) _ _ (fun _ _ => by simp) _
@[simp] theorem resolveSet_players (f : Option Handle) (e : Bool) (cs : ChannelSet) (s : State) : (resolveSet f e cs s).players = s.players :=
  forEach_keeps (fun s => s.players) _ _ (fun _ _ => by simp) _
@[simp] theorem resolveSet_lines (f : Option Handle) (e : Bool) (cs : ChannelSet) (s : State) : (resolveSet f e cs s).lines = s.lines :=
  forEach_keeps (fun s => s.lines) _ _ (fun _ _ => by simp) _
@[simp] theorem resolveSet_clocks (f : Option Handle) (e : Bool) (cs : ChannelSet) (s : State) : (resolveSet f e cs s).clocks = s.clocks :=
  forEach_keeps (fun s => s.clocks) _ _ (fun _ _ => by simp) _
@[simp] theorem resolveSet_derateCeiling (f : Option Handle) (e : Bool) (cs : ChannelSet) (s : State) : (resolveSet f e cs s).derateCeiling = s.derateCeiling :=
  forEach_keeps (fun s => s.derateCeiling) _ _ (fun _ _ => by simp) _
@[simp] theorem resolveSet_lampTest (f : Option Handle) (e : Bool) (cs : ChannelSet) (s : State) : (resolveSet f e cs s).lampTest = s.lampTest :=
  forEach_keeps (fun s => s.lampTest) _ _ (fun _ _ => by simp) _
@[simp] theorem resolveSet_output (f : Option Handle) (e : Bool) (cs : ChannelSet) (s : State) : (resolveSet f e cs s).output = s.output :=
  forEach_keeps (fun s => s.output) _ _ (fun _ _ => by simp) _
@[simp] theorem resolveSet_outs (f : Option Handle) (e : Bool) (cs : ChannelSet) (s : State) : (resolveSet f e cs s).outs = s.outs :=
  forEach_keeps (fun s => s.outs) _ _ (fun _ _ => by simp) _
@[simp] theorem resolveSet_right (f : Option Handle) (e : Bool) (cs : ChannelSet) (s : State) (q : Port) : (resolveSet f e cs s).right q = s.right q := by
  simp only [State.right, resolveSet_access]
@[simp] theorem resolveSet_record (f : Option Handle) (e : Bool) (cs : ChannelSet) (s : State) (i : Slot) : (resolveSet f e cs s).record i = s.record i := by
  simp only [State.record, resolveSet_pool]
@[simp] theorem resolveSet_scene (f : Option Handle) (e : Bool) (cs : ChannelSet) (s : State) (i : SceneNo) : (resolveSet f e cs s).scene i = s.scene i := by
  simp only [State.scene, resolveSet_scenes]
@[simp] theorem resolveSet_player (f : Option Handle) (e : Bool) (cs : ChannelSet) (s : State) (i : PlayerNo) : (resolveSet f e cs s).player i = s.player i := by
  simp only [State.player, resolveSet_players]
@[simp] theorem resolveSet_line (f : Option Handle) (e : Bool) (cs : ChannelSet) (s : State) (i : Line) : (resolveSet f e cs s).line i = s.line i := by
  simp only [State.line, resolveSet_lines]
@[simp] theorem resolveSet_clock (f : Option Handle) (e : Bool) (cs : ChannelSet) (s : State) (i : ClockNo) : (resolveSet f e cs s).clock i = s.clock i := by
  simp only [State.clock, resolveSet_clocks]
@[simp] theorem resolveSet_out (f : Option Handle) (e : Bool) (cs : ChannelSet) (s : State) (i : Channel) : (resolveSet f e cs s).out i = s.out i := by
  simp only [State.out, resolveSet_outs]

/-! ### Pool -/

@[simp] theorem raiseHeld_now (c : Claim) (s : State) : (raiseHeld c s).now = s.now :=
  by unfold raiseHeld; split <;> rfl
@[simp] theorem raiseHeld_draws (c : Claim) (s : State) : (raiseHeld c s).draws = s.draws :=
  by unfold raiseHeld; split <;> rfl
@[simp] theorem raiseHeld_pending (c : Claim) (s : State) : (raiseHeld c s).pending = s.pending :=
  by unfold raiseHeld; split <;> rfl
@[simp] theorem raiseHeld_lts (c : Claim) (s : State) : (raiseHeld c s).lts = s.lts :=
  by unfold raiseHeld; split <;> rfl
@[simp] theorem raiseHeld_address0 (c : Claim) (s : State) : (raiseHeld c s).address0 = s.address0 :=
  by unfold raiseHeld; split <;> rfl
@[simp] theorem raiseHeld_address1 (c : Claim) (s : State) : (raiseHeld c s).address1 = s.address1 :=
  by unfold raiseHeld; split <;> rfl
@[simp] theorem raiseHeld_ports (c : Claim) (s : State) : (raiseHeld c s).ports = s.ports :=
  by unfold raiseHeld; split <;> rfl
@[simp] theorem raiseHeld_pool (c : Claim) (s : State) : (raiseHeld c s).pool = s.pool :=
  by unfold raiseHeld; split <;> rfl
@[simp] theorem raiseHeld_resolver (c : Claim) (s : State) : (raiseHeld c s).resolver = s.resolver :=
  by unfold raiseHeld; split <;> rfl
@[simp] theorem raiseHeld_scenes (c : Claim) (s : State) : (raiseHeld c s).scenes = s.scenes :=
  by unfold raiseHeld; split <;> rfl
@[simp] theorem raiseHeld_players (c : Claim) (s : State) : (raiseHeld c s).players = s.players :=
  by unfold raiseHeld; split <;> rfl
@[simp] theorem raiseHeld_lines (c : Claim) (s : State) : (raiseHeld c s).lines = s.lines :=
  by unfold raiseHeld; split <;> rfl
@[simp] theorem raiseHeld_modulator (c : Claim) (s : State) : (raiseHeld c s).modulator = s.modulator :=
  by unfold raiseHeld; split <;> rfl
@[simp] theorem raiseHeld_clocks (c : Claim) (s : State) : (raiseHeld c s).clocks = s.clocks :=
  by unfold raiseHeld; split <;> rfl
@[simp] theorem raiseHeld_derateCeiling (c : Claim) (s : State) : (raiseHeld c s).derateCeiling = s.derateCeiling :=
  by unfold raiseHeld; split <;> rfl
@[simp] theorem raiseHeld_lampTest (c : Claim) (s : State) : (raiseHeld c s).lampTest = s.lampTest :=
  by unfold raiseHeld; split <;> rfl
@[simp] theorem raiseHeld_output (c : Claim) (s : State) : (raiseHeld c s).output = s.output :=
  by unfold raiseHeld; split <;> rfl
@[simp] theorem raiseHeld_outs (c : Claim) (s : State) : (raiseHeld c s).outs = s.outs :=
  by unfold raiseHeld; split <;> rfl
@[simp] theorem raiseHeld_watches (c : Claim) (s : State) : (raiseHeld c s).watches = s.watches :=
  by unfold raiseHeld; split <;> rfl

@[simp] theorem raiseInUse_now (c : Claim) (s : State) : (raiseInUse c s).now = s.now :=
  by unfold raiseInUse; split <;> rfl
@[simp] theorem raiseInUse_draws (c : Claim) (s : State) : (raiseInUse c s).draws = s.draws :=
  by unfold raiseInUse; split <;> rfl
@[simp] theorem raiseInUse_pending (c : Claim) (s : State) : (raiseInUse c s).pending = s.pending :=
  by unfold raiseInUse; split <;> rfl
@[simp] theorem raiseInUse_lts (c : Claim) (s : State) : (raiseInUse c s).lts = s.lts :=
  by unfold raiseInUse; split <;> rfl
@[simp] theorem raiseInUse_address0 (c : Claim) (s : State) : (raiseInUse c s).address0 = s.address0 :=
  by unfold raiseInUse; split <;> rfl
@[simp] theorem raiseInUse_address1 (c : Claim) (s : State) : (raiseInUse c s).address1 = s.address1 :=
  by unfold raiseInUse; split <;> rfl
@[simp] theorem raiseInUse_ports (c : Claim) (s : State) : (raiseInUse c s).ports = s.ports :=
  by unfold raiseInUse; split <;> rfl
@[simp] theorem raiseInUse_access (c : Claim) (s : State) : (raiseInUse c s).access = s.access :=
  by unfold raiseInUse; split <;> rfl
@[simp] theorem raiseInUse_pool (c : Claim) (s : State) : (raiseInUse c s).pool = s.pool :=
  by unfold raiseInUse; split <;> rfl
@[simp] theorem raiseInUse_resolver (c : Claim) (s : State) : (raiseInUse c s).resolver = s.resolver :=
  by unfold raiseInUse; split <;> rfl
@[simp] theorem raiseInUse_players (c : Claim) (s : State) : (raiseInUse c s).players = s.players :=
  by unfold raiseInUse; split <;> rfl
@[simp] theorem raiseInUse_lines (c : Claim) (s : State) : (raiseInUse c s).lines = s.lines :=
  by unfold raiseInUse; split <;> rfl
@[simp] theorem raiseInUse_modulator (c : Claim) (s : State) : (raiseInUse c s).modulator = s.modulator :=
  by unfold raiseInUse; split <;> rfl
@[simp] theorem raiseInUse_clocks (c : Claim) (s : State) : (raiseInUse c s).clocks = s.clocks :=
  by unfold raiseInUse; split <;> rfl
@[simp] theorem raiseInUse_derateCeiling (c : Claim) (s : State) : (raiseInUse c s).derateCeiling = s.derateCeiling :=
  by unfold raiseInUse; split <;> rfl
@[simp] theorem raiseInUse_lampTest (c : Claim) (s : State) : (raiseInUse c s).lampTest = s.lampTest :=
  by unfold raiseInUse; split <;> rfl
@[simp] theorem raiseInUse_output (c : Claim) (s : State) : (raiseInUse c s).output = s.output :=
  by unfold raiseInUse; split <;> rfl
@[simp] theorem raiseInUse_outs (c : Claim) (s : State) : (raiseInUse c s).outs = s.outs :=
  by unfold raiseInUse; split <;> rfl
@[simp] theorem raiseInUse_watches (c : Claim) (s : State) : (raiseInUse c s).watches = s.watches :=
  by unfold raiseInUse; split <;> rfl

@[simp] theorem raiseCounts_now (c : Claim) (s : State) : (raiseCounts c s).now = s.now :=
  by simp [raiseCounts]
@[simp] theorem raiseCounts_draws (c : Claim) (s : State) : (raiseCounts c s).draws = s.draws :=
  by simp [raiseCounts]
@[simp] theorem raiseCounts_pending (c : Claim) (s : State) : (raiseCounts c s).pending = s.pending :=
  by simp [raiseCounts]
@[simp] theorem raiseCounts_lts (c : Claim) (s : State) : (raiseCounts c s).lts = s.lts :=
  by simp [raiseCounts]
@[simp] theorem raiseCounts_address0 (c : Claim) (s : State) : (raiseCounts c s).address0 = s.address0 :=
  by simp [raiseCounts]
@[simp] theorem raiseCounts_address1 (c : Claim) (s : State) : (raiseCounts c s).address1 = s.address1 :=
  by simp [raiseCounts]
@[simp] theorem raiseCounts_ports (c : Claim) (s : State) : (raiseCounts c s).ports = s.ports :=
  by simp [raiseCounts]
@[simp] theorem raiseCounts_pool (c : Claim) (s : State) : (raiseCounts c s).pool = s.pool :=
  by simp [raiseCounts]
@[simp] theorem raiseCounts_resolver (c : Claim) (s : State) : (raiseCounts c s).resolver = s.resolver :=
  by simp [raiseCounts]
@[simp] theorem raiseCounts_players (c : Claim) (s : State) : (raiseCounts c s).players = s.players :=
  by simp [raiseCounts]
@[simp] theorem raiseCounts_lines (c : Claim) (s : State) : (raiseCounts c s).lines = s.lines :=
  by simp [raiseCounts]
@[simp] theorem raiseCounts_modulator (c : Claim) (s : State) : (raiseCounts c s).modulator = s.modulator :=
  by simp [raiseCounts]
@[simp] theorem raiseCounts_clocks (c : Claim) (s : State) : (raiseCounts c s).clocks = s.clocks :=
  by simp [raiseCounts]
@[simp] theorem raiseCounts_derateCeiling (c : Claim) (s : State) : (raiseCounts c s).derateCeiling = s.derateCeiling :=
  by simp [raiseCounts]
@[simp] theorem raiseCounts_lampTest (c : Claim) (s : State) : (raiseCounts c s).lampTest = s.lampTest :=
  by simp [raiseCounts]
@[simp] theorem raiseCounts_output (c : Claim) (s : State) : (raiseCounts c s).output = s.output :=
  by simp [raiseCounts]
@[simp] theorem raiseCounts_outs (c : Claim) (s : State) : (raiseCounts c s).outs = s.outs :=
  by simp [raiseCounts]
@[simp] theorem raiseCounts_watches (c : Claim) (s : State) : (raiseCounts c s).watches = s.watches :=
  by simp [raiseCounts]

@[simp] theorem lowerHeld_now (c : Claim) (s : State) : (lowerHeld c s).now = s.now :=
  by unfold lowerHeld; split <;> rfl
@[simp] theorem lowerHeld_draws (c : Claim) (s : State) : (lowerHeld c s).draws = s.draws :=
  by unfold lowerHeld; split <;> rfl
@[simp] theorem lowerHeld_pending (c : Claim) (s : State) : (lowerHeld c s).pending = s.pending :=
  by unfold lowerHeld; split <;> rfl
@[simp] theorem lowerHeld_lts (c : Claim) (s : State) : (lowerHeld c s).lts = s.lts :=
  by unfold lowerHeld; split <;> rfl
@[simp] theorem lowerHeld_address0 (c : Claim) (s : State) : (lowerHeld c s).address0 = s.address0 :=
  by unfold lowerHeld; split <;> rfl
@[simp] theorem lowerHeld_address1 (c : Claim) (s : State) : (lowerHeld c s).address1 = s.address1 :=
  by unfold lowerHeld; split <;> rfl
@[simp] theorem lowerHeld_ports (c : Claim) (s : State) : (lowerHeld c s).ports = s.ports :=
  by unfold lowerHeld; split <;> rfl
@[simp] theorem lowerHeld_pool (c : Claim) (s : State) : (lowerHeld c s).pool = s.pool :=
  by unfold lowerHeld; split <;> rfl
@[simp] theorem lowerHeld_resolver (c : Claim) (s : State) : (lowerHeld c s).resolver = s.resolver :=
  by unfold lowerHeld; split <;> rfl
@[simp] theorem lowerHeld_scenes (c : Claim) (s : State) : (lowerHeld c s).scenes = s.scenes :=
  by unfold lowerHeld; split <;> rfl
@[simp] theorem lowerHeld_players (c : Claim) (s : State) : (lowerHeld c s).players = s.players :=
  by unfold lowerHeld; split <;> rfl
@[simp] theorem lowerHeld_lines (c : Claim) (s : State) : (lowerHeld c s).lines = s.lines :=
  by unfold lowerHeld; split <;> rfl
@[simp] theorem lowerHeld_modulator (c : Claim) (s : State) : (lowerHeld c s).modulator = s.modulator :=
  by unfold lowerHeld; split <;> rfl
@[simp] theorem lowerHeld_clocks (c : Claim) (s : State) : (lowerHeld c s).clocks = s.clocks :=
  by unfold lowerHeld; split <;> rfl
@[simp] theorem lowerHeld_derateCeiling (c : Claim) (s : State) : (lowerHeld c s).derateCeiling = s.derateCeiling :=
  by unfold lowerHeld; split <;> rfl
@[simp] theorem lowerHeld_lampTest (c : Claim) (s : State) : (lowerHeld c s).lampTest = s.lampTest :=
  by unfold lowerHeld; split <;> rfl
@[simp] theorem lowerHeld_output (c : Claim) (s : State) : (lowerHeld c s).output = s.output :=
  by unfold lowerHeld; split <;> rfl
@[simp] theorem lowerHeld_outs (c : Claim) (s : State) : (lowerHeld c s).outs = s.outs :=
  by unfold lowerHeld; split <;> rfl
@[simp] theorem lowerHeld_watches (c : Claim) (s : State) : (lowerHeld c s).watches = s.watches :=
  by unfold lowerHeld; split <;> rfl

@[simp] theorem lowerInUse_now (c : Claim) (s : State) : (lowerInUse c s).now = s.now :=
  by unfold lowerInUse; split <;> rfl
@[simp] theorem lowerInUse_draws (c : Claim) (s : State) : (lowerInUse c s).draws = s.draws :=
  by unfold lowerInUse; split <;> rfl
@[simp] theorem lowerInUse_pending (c : Claim) (s : State) : (lowerInUse c s).pending = s.pending :=
  by unfold lowerInUse; split <;> rfl
@[simp] theorem lowerInUse_lts (c : Claim) (s : State) : (lowerInUse c s).lts = s.lts :=
  by unfold lowerInUse; split <;> rfl
@[simp] theorem lowerInUse_address0 (c : Claim) (s : State) : (lowerInUse c s).address0 = s.address0 :=
  by unfold lowerInUse; split <;> rfl
@[simp] theorem lowerInUse_address1 (c : Claim) (s : State) : (lowerInUse c s).address1 = s.address1 :=
  by unfold lowerInUse; split <;> rfl
@[simp] theorem lowerInUse_ports (c : Claim) (s : State) : (lowerInUse c s).ports = s.ports :=
  by unfold lowerInUse; split <;> rfl
@[simp] theorem lowerInUse_access (c : Claim) (s : State) : (lowerInUse c s).access = s.access :=
  by unfold lowerInUse; split <;> rfl
@[simp] theorem lowerInUse_pool (c : Claim) (s : State) : (lowerInUse c s).pool = s.pool :=
  by unfold lowerInUse; split <;> rfl
@[simp] theorem lowerInUse_resolver (c : Claim) (s : State) : (lowerInUse c s).resolver = s.resolver :=
  by unfold lowerInUse; split <;> rfl
@[simp] theorem lowerInUse_players (c : Claim) (s : State) : (lowerInUse c s).players = s.players :=
  by unfold lowerInUse; split <;> rfl
@[simp] theorem lowerInUse_lines (c : Claim) (s : State) : (lowerInUse c s).lines = s.lines :=
  by unfold lowerInUse; split <;> rfl
@[simp] theorem lowerInUse_modulator (c : Claim) (s : State) : (lowerInUse c s).modulator = s.modulator :=
  by unfold lowerInUse; split <;> rfl
@[simp] theorem lowerInUse_clocks (c : Claim) (s : State) : (lowerInUse c s).clocks = s.clocks :=
  by unfold lowerInUse; split <;> rfl
@[simp] theorem lowerInUse_derateCeiling (c : Claim) (s : State) : (lowerInUse c s).derateCeiling = s.derateCeiling :=
  by unfold lowerInUse; split <;> rfl
@[simp] theorem lowerInUse_lampTest (c : Claim) (s : State) : (lowerInUse c s).lampTest = s.lampTest :=
  by unfold lowerInUse; split <;> rfl
@[simp] theorem lowerInUse_output (c : Claim) (s : State) : (lowerInUse c s).output = s.output :=
  by unfold lowerInUse; split <;> rfl
@[simp] theorem lowerInUse_outs (c : Claim) (s : State) : (lowerInUse c s).outs = s.outs :=
  by unfold lowerInUse; split <;> rfl
@[simp] theorem lowerInUse_watches (c : Claim) (s : State) : (lowerInUse c s).watches = s.watches :=
  by unfold lowerInUse; split <;> rfl

@[simp] theorem lowerCounts_now (c : Claim) (s : State) : (lowerCounts c s).now = s.now :=
  by simp [lowerCounts]
@[simp] theorem lowerCounts_draws (c : Claim) (s : State) : (lowerCounts c s).draws = s.draws :=
  by simp [lowerCounts]
@[simp] theorem lowerCounts_pending (c : Claim) (s : State) : (lowerCounts c s).pending = s.pending :=
  by simp [lowerCounts]
@[simp] theorem lowerCounts_lts (c : Claim) (s : State) : (lowerCounts c s).lts = s.lts :=
  by simp [lowerCounts]
@[simp] theorem lowerCounts_address0 (c : Claim) (s : State) : (lowerCounts c s).address0 = s.address0 :=
  by simp [lowerCounts]
@[simp] theorem lowerCounts_address1 (c : Claim) (s : State) : (lowerCounts c s).address1 = s.address1 :=
  by simp [lowerCounts]
@[simp] theorem lowerCounts_ports (c : Claim) (s : State) : (lowerCounts c s).ports = s.ports :=
  by simp [lowerCounts]
@[simp] theorem lowerCounts_pool (c : Claim) (s : State) : (lowerCounts c s).pool = s.pool :=
  by simp [lowerCounts]
@[simp] theorem lowerCounts_resolver (c : Claim) (s : State) : (lowerCounts c s).resolver = s.resolver :=
  by simp [lowerCounts]
@[simp] theorem lowerCounts_players (c : Claim) (s : State) : (lowerCounts c s).players = s.players :=
  by simp [lowerCounts]
@[simp] theorem lowerCounts_lines (c : Claim) (s : State) : (lowerCounts c s).lines = s.lines :=
  by simp [lowerCounts]
@[simp] theorem lowerCounts_modulator (c : Claim) (s : State) : (lowerCounts c s).modulator = s.modulator :=
  by simp [lowerCounts]
@[simp] theorem lowerCounts_clocks (c : Claim) (s : State) : (lowerCounts c s).clocks = s.clocks :=
  by simp [lowerCounts]
@[simp] theorem lowerCounts_derateCeiling (c : Claim) (s : State) : (lowerCounts c s).derateCeiling = s.derateCeiling :=
  by simp [lowerCounts]
@[simp] theorem lowerCounts_lampTest (c : Claim) (s : State) : (lowerCounts c s).lampTest = s.lampTest :=
  by simp [lowerCounts]
@[simp] theorem lowerCounts_output (c : Claim) (s : State) : (lowerCounts c s).output = s.output :=
  by simp [lowerCounts]
@[simp] theorem lowerCounts_outs (c : Claim) (s : State) : (lowerCounts c s).outs = s.outs :=
  by simp [lowerCounts]
@[simp] theorem lowerCounts_watches (c : Claim) (s : State) : (lowerCounts c s).watches = s.watches :=
  by simp [lowerCounts]

@[simp] theorem seat_now (k : Slot) (c : Claim) (s : State) : (seat k c s).now = s.now :=
  by simp [seat]
@[simp] theorem seat_draws (k : Slot) (c : Claim) (s : State) : (seat k c s).draws = s.draws :=
  by simp [seat]
@[simp] theorem seat_pending (k : Slot) (c : Claim) (s : State) : (seat k c s).pending = s.pending :=
  by simp [seat]
@[simp] theorem seat_lts (k : Slot) (c : Claim) (s : State) : (seat k c s).lts = s.lts :=
  by simp [seat]
@[simp] theorem seat_address0 (k : Slot) (c : Claim) (s : State) : (seat k c s).address0 = s.address0 :=
  by simp [seat]
@[simp] theorem seat_address1 (k : Slot) (c : Claim) (s : State) : (seat k c s).address1 = s.address1 :=
  by simp [seat]
@[simp] theorem seat_ports (k : Slot) (c : Claim) (s : State) : (seat k c s).ports = s.ports :=
  by simp [seat]
@[simp] theorem seat_players (k : Slot) (c : Claim) (s : State) : (seat k c s).players = s.players :=
  by simp [seat]
@[simp] theorem seat_lines (k : Slot) (c : Claim) (s : State) : (seat k c s).lines = s.lines :=
  by simp [seat]
@[simp] theorem seat_modulator (k : Slot) (c : Claim) (s : State) : (seat k c s).modulator = s.modulator :=
  by simp [seat]
@[simp] theorem seat_clocks (k : Slot) (c : Claim) (s : State) : (seat k c s).clocks = s.clocks :=
  by simp [seat]
@[simp] theorem seat_derateCeiling (k : Slot) (c : Claim) (s : State) : (seat k c s).derateCeiling = s.derateCeiling :=
  by simp [seat]
@[simp] theorem seat_lampTest (k : Slot) (c : Claim) (s : State) : (seat k c s).lampTest = s.lampTest :=
  by simp [seat]
@[simp] theorem seat_output (k : Slot) (c : Claim) (s : State) : (seat k c s).output = s.output :=
  by simp [seat]
@[simp] theorem seat_outs (k : Slot) (c : Claim) (s : State) : (seat k c s).outs = s.outs :=
  by simp [seat]
@[simp] theorem seat_watches (k : Slot) (c : Claim) (s : State) : (seat k c s).watches = s.watches :=
  by simp [seat]

@[simp] theorem place_now (k : Slot) (c : Claim) (s : State) : (place k c s).now = s.now :=
  by simp [place]
@[simp] theorem place_draws (k : Slot) (c : Claim) (s : State) : (place k c s).draws = s.draws :=
  by simp [place]
@[simp] theorem place_pending (k : Slot) (c : Claim) (s : State) : (place k c s).pending = s.pending :=
  by simp [place]
@[simp] theorem place_lts (k : Slot) (c : Claim) (s : State) : (place k c s).lts = s.lts :=
  by simp [place]
@[simp] theorem place_address0 (k : Slot) (c : Claim) (s : State) : (place k c s).address0 = s.address0 :=
  by simp [place]
@[simp] theorem place_address1 (k : Slot) (c : Claim) (s : State) : (place k c s).address1 = s.address1 :=
  by simp [place]
@[simp] theorem place_players (k : Slot) (c : Claim) (s : State) : (place k c s).players = s.players :=
  by simp [place]
@[simp] theorem place_lines (k : Slot) (c : Claim) (s : State) : (place k c s).lines = s.lines :=
  by simp [place]
@[simp] theorem place_clocks (k : Slot) (c : Claim) (s : State) : (place k c s).clocks = s.clocks :=
  by simp [place]
@[simp] theorem place_derateCeiling (k : Slot) (c : Claim) (s : State) : (place k c s).derateCeiling = s.derateCeiling :=
  by simp [place]
@[simp] theorem place_lampTest (k : Slot) (c : Claim) (s : State) : (place k c s).lampTest = s.lampTest :=
  by simp [place]
@[simp] theorem place_output (k : Slot) (c : Claim) (s : State) : (place k c s).output = s.output :=
  by simp [place]
@[simp] theorem place_outs (k : Slot) (c : Claim) (s : State) : (place k c s).outs = s.outs :=
  by simp [place]
@[simp] theorem place_player (k : Slot) (c : Claim) (s : State) (i : PlayerNo) : (place k c s).player i = s.player i := by
  simp only [State.player, place_players]
@[simp] theorem place_line (k : Slot) (c : Claim) (s : State) (i : Line) : (place k c s).line i = s.line i := by
  simp only [State.line, place_lines]
@[simp] theorem place_clock (k : Slot) (c : Claim) (s : State) (i : ClockNo) : (place k c s).clock i = s.clock i := by
  simp only [State.clock, place_clocks]
@[simp] theorem place_out (k : Slot) (c : Claim) (s : State) (i : Channel) : (place k c s).out i = s.out i := by
  simp only [State.out, place_outs]

@[simp] theorem removedNotice_now (x : FreeCause) (h : Handle) (c : Claim) (s : State) : (removedNotice x h c s).now = s.now :=
  by unfold removedNotice; split <;> simp
@[simp] theorem removedNotice_draws (x : FreeCause) (h : Handle) (c : Claim) (s : State) : (removedNotice x h c s).draws = s.draws :=
  by unfold removedNotice; split <;> simp
@[simp] theorem removedNotice_pending (x : FreeCause) (h : Handle) (c : Claim) (s : State) : (removedNotice x h c s).pending = s.pending :=
  by unfold removedNotice; split <;> simp
@[simp] theorem removedNotice_lts (x : FreeCause) (h : Handle) (c : Claim) (s : State) : (removedNotice x h c s).lts = s.lts :=
  by unfold removedNotice; split <;> simp
@[simp] theorem removedNotice_address0 (x : FreeCause) (h : Handle) (c : Claim) (s : State) : (removedNotice x h c s).address0 = s.address0 :=
  by unfold removedNotice; split <;> simp
@[simp] theorem removedNotice_address1 (x : FreeCause) (h : Handle) (c : Claim) (s : State) : (removedNotice x h c s).address1 = s.address1 :=
  by unfold removedNotice; split <;> simp
@[simp] theorem removedNotice_access (x : FreeCause) (h : Handle) (c : Claim) (s : State) : (removedNotice x h c s).access = s.access :=
  by unfold removedNotice; split <;> simp
@[simp] theorem removedNotice_pool (x : FreeCause) (h : Handle) (c : Claim) (s : State) : (removedNotice x h c s).pool = s.pool :=
  by unfold removedNotice; split <;> simp
@[simp] theorem removedNotice_resolver (x : FreeCause) (h : Handle) (c : Claim) (s : State) : (removedNotice x h c s).resolver = s.resolver :=
  by unfold removedNotice; split <;> simp
@[simp] theorem removedNotice_scenes (x : FreeCause) (h : Handle) (c : Claim) (s : State) : (removedNotice x h c s).scenes = s.scenes :=
  by unfold removedNotice; split <;> simp
@[simp] theorem removedNotice_players (x : FreeCause) (h : Handle) (c : Claim) (s : State) : (removedNotice x h c s).players = s.players :=
  by unfold removedNotice; split <;> simp
@[simp] theorem removedNotice_lines (x : FreeCause) (h : Handle) (c : Claim) (s : State) : (removedNotice x h c s).lines = s.lines :=
  by unfold removedNotice; split <;> simp
@[simp] theorem removedNotice_modulator (x : FreeCause) (h : Handle) (c : Claim) (s : State) : (removedNotice x h c s).modulator = s.modulator :=
  by unfold removedNotice; split <;> simp
@[simp] theorem removedNotice_clocks (x : FreeCause) (h : Handle) (c : Claim) (s : State) : (removedNotice x h c s).clocks = s.clocks :=
  by unfold removedNotice; split <;> simp
@[simp] theorem removedNotice_derateCeiling (x : FreeCause) (h : Handle) (c : Claim) (s : State) : (removedNotice x h c s).derateCeiling = s.derateCeiling :=
  by unfold removedNotice; split <;> simp
@[simp] theorem removedNotice_lampTest (x : FreeCause) (h : Handle) (c : Claim) (s : State) : (removedNotice x h c s).lampTest = s.lampTest :=
  by unfold removedNotice; split <;> simp
@[simp] theorem removedNotice_output (x : FreeCause) (h : Handle) (c : Claim) (s : State) : (removedNotice x h c s).output = s.output :=
  by unfold removedNotice; split <;> simp
@[simp] theorem removedNotice_outs (x : FreeCause) (h : Handle) (c : Claim) (s : State) : (removedNotice x h c s).outs = s.outs :=
  by unfold removedNotice; split <;> simp
@[simp] theorem removedNotice_watches (x : FreeCause) (h : Handle) (c : Claim) (s : State) : (removedNotice x h c s).watches = s.watches :=
  by unfold removedNotice; split <;> simp

@[simp] theorem playerLoss_now (x : FreeCause) (h : Handle) (c : Claim) (s : State) : (playerLoss x h c s).now = s.now :=
  by unfold playerLoss; dsimp only; (repeat' split) <;> simp
@[simp] theorem playerLoss_draws (x : FreeCause) (h : Handle) (c : Claim) (s : State) : (playerLoss x h c s).draws = s.draws :=
  by unfold playerLoss; dsimp only; (repeat' split) <;> simp
@[simp] theorem playerLoss_pending (x : FreeCause) (h : Handle) (c : Claim) (s : State) : (playerLoss x h c s).pending = s.pending :=
  by unfold playerLoss; dsimp only; (repeat' split) <;> simp
@[simp] theorem playerLoss_lts (x : FreeCause) (h : Handle) (c : Claim) (s : State) : (playerLoss x h c s).lts = s.lts :=
  by unfold playerLoss; dsimp only; (repeat' split) <;> simp
@[simp] theorem playerLoss_address0 (x : FreeCause) (h : Handle) (c : Claim) (s : State) : (playerLoss x h c s).address0 = s.address0 :=
  by unfold playerLoss; dsimp only; (repeat' split) <;> simp
@[simp] theorem playerLoss_address1 (x : FreeCause) (h : Handle) (c : Claim) (s : State) : (playerLoss x h c s).address1 = s.address1 :=
  by unfold playerLoss; dsimp only; (repeat' split) <;> simp
@[simp] theorem playerLoss_access (x : FreeCause) (h : Handle) (c : Claim) (s : State) : (playerLoss x h c s).access = s.access :=
  by unfold playerLoss; dsimp only; (repeat' split) <;> simp
@[simp] theorem playerLoss_pool (x : FreeCause) (h : Handle) (c : Claim) (s : State) : (playerLoss x h c s).pool = s.pool :=
  by unfold playerLoss; dsimp only; (repeat' split) <;> simp
@[simp] theorem playerLoss_resolver (x : FreeCause) (h : Handle) (c : Claim) (s : State) : (playerLoss x h c s).resolver = s.resolver :=
  by unfold playerLoss; dsimp only; (repeat' split) <;> simp
@[simp] theorem playerLoss_scenes (x : FreeCause) (h : Handle) (c : Claim) (s : State) : (playerLoss x h c s).scenes = s.scenes :=
  by unfold playerLoss; dsimp only; (repeat' split) <;> simp
@[simp] theorem playerLoss_lines (x : FreeCause) (h : Handle) (c : Claim) (s : State) : (playerLoss x h c s).lines = s.lines :=
  by unfold playerLoss; dsimp only; (repeat' split) <;> simp
@[simp] theorem playerLoss_modulator (x : FreeCause) (h : Handle) (c : Claim) (s : State) : (playerLoss x h c s).modulator = s.modulator :=
  by unfold playerLoss; dsimp only; (repeat' split) <;> simp
@[simp] theorem playerLoss_clocks (x : FreeCause) (h : Handle) (c : Claim) (s : State) : (playerLoss x h c s).clocks = s.clocks :=
  by unfold playerLoss; dsimp only; (repeat' split) <;> simp
@[simp] theorem playerLoss_derateCeiling (x : FreeCause) (h : Handle) (c : Claim) (s : State) : (playerLoss x h c s).derateCeiling = s.derateCeiling :=
  by unfold playerLoss; dsimp only; (repeat' split) <;> simp
@[simp] theorem playerLoss_lampTest (x : FreeCause) (h : Handle) (c : Claim) (s : State) : (playerLoss x h c s).lampTest = s.lampTest :=
  by unfold playerLoss; dsimp only; (repeat' split) <;> simp
@[simp] theorem playerLoss_output (x : FreeCause) (h : Handle) (c : Claim) (s : State) : (playerLoss x h c s).output = s.output :=
  by unfold playerLoss; dsimp only; (repeat' split) <;> simp
@[simp] theorem playerLoss_outs (x : FreeCause) (h : Handle) (c : Claim) (s : State) : (playerLoss x h c s).outs = s.outs :=
  by unfold playerLoss; dsimp only; (repeat' split) <;> simp
@[simp] theorem playerLoss_watches (x : FreeCause) (h : Handle) (c : Claim) (s : State) : (playerLoss x h c s).watches = s.watches :=
  by unfold playerLoss; dsimp only; (repeat' split) <;> simp

@[simp] theorem freeRecord_now (x : FreeCause) (k : Slot) (s : State) : (freeRecord x k s).now = s.now :=
  by unfold freeRecord; dsimp only; split <;> simp
@[simp] theorem freeRecord_draws (x : FreeCause) (k : Slot) (s : State) : (freeRecord x k s).draws = s.draws :=
  by unfold freeRecord; dsimp only; split <;> simp
@[simp] theorem freeRecord_pending (x : FreeCause) (k : Slot) (s : State) : (freeRecord x k s).pending = s.pending :=
  by unfold freeRecord; dsimp only; split <;> simp
@[simp] theorem freeRecord_lts (x : FreeCause) (k : Slot) (s : State) : (freeRecord x k s).lts = s.lts :=
  by unfold freeRecord; dsimp only; split <;> simp
@[simp] theorem freeRecord_address0 (x : FreeCause) (k : Slot) (s : State) : (freeRecord x k s).address0 = s.address0 :=
  by unfold freeRecord; dsimp only; split <;> simp
@[simp] theorem freeRecord_address1 (x : FreeCause) (k : Slot) (s : State) : (freeRecord x k s).address1 = s.address1 :=
  by unfold freeRecord; dsimp only; split <;> simp
@[simp] theorem freeRecord_lines (x : FreeCause) (k : Slot) (s : State) : (freeRecord x k s).lines = s.lines :=
  by unfold freeRecord; dsimp only; split <;> simp
@[simp] theorem freeRecord_modulator (x : FreeCause) (k : Slot) (s : State) : (freeRecord x k s).modulator = s.modulator :=
  by unfold freeRecord; dsimp only; split <;> simp
@[simp] theorem freeRecord_clocks (x : FreeCause) (k : Slot) (s : State) : (freeRecord x k s).clocks = s.clocks :=
  by unfold freeRecord; dsimp only; split <;> simp
@[simp] theorem freeRecord_derateCeiling (x : FreeCause) (k : Slot) (s : State) : (freeRecord x k s).derateCeiling = s.derateCeiling :=
  by unfold freeRecord; dsimp only; split <;> simp
@[simp] theorem freeRecord_lampTest (x : FreeCause) (k : Slot) (s : State) : (freeRecord x k s).lampTest = s.lampTest :=
  by unfold freeRecord; dsimp only; split <;> simp
@[simp] theorem freeRecord_output (x : FreeCause) (k : Slot) (s : State) : (freeRecord x k s).output = s.output :=
  by unfold freeRecord; dsimp only; split <;> simp
@[simp] theorem freeRecord_outs (x : FreeCause) (k : Slot) (s : State) : (freeRecord x k s).outs = s.outs :=
  by unfold freeRecord; dsimp only; split <;> simp
@[simp] theorem freeRecord_watches (x : FreeCause) (k : Slot) (s : State) : (freeRecord x k s).watches = s.watches :=
  by unfold freeRecord; dsimp only; split <;> simp

@[simp] theorem freeRecords_now (x : FreeCause) (e : Bool) (l : List Slot) (s : State) : (freeRecords x e l s).now = s.now :=
  by
  unfold freeRecords
  rw [resolveSet_now]
  exact forEach_keeps (fun s => s.now) _ _ (fun _ _ => by simp) _
@[simp] theorem freeRecords_draws (x : FreeCause) (e : Bool) (l : List Slot) (s : State) : (freeRecords x e l s).draws = s.draws :=
  by
  unfold freeRecords
  rw [resolveSet_draws]
  exact forEach_keeps (fun s => s.draws) _ _ (fun _ _ => by simp) _
@[simp] theorem freeRecords_pending (x : FreeCause) (e : Bool) (l : List Slot) (s : State) : (freeRecords x e l s).pending = s.pending :=
  by
  unfold freeRecords
  rw [resolveSet_pending]
  exact forEach_keeps (fun s => s.pending) _ _ (fun _ _ => by simp) _
@[simp] theorem freeRecords_lts (x : FreeCause) (e : Bool) (l : List Slot) (s : State) : (freeRecords x e l s).lts = s.lts :=
  by
  unfold freeRecords
  rw [resolveSet_lts]
  exact forEach_keeps (fun s => s.lts) _ _ (fun _ _ => by simp) _
@[simp] theorem freeRecords_address0 (x : FreeCause) (e : Bool) (l : List Slot) (s : State) : (freeRecords x e l s).address0 = s.address0 :=
  by
  unfold freeRecords
  rw [resolveSet_address0]
  exact forEach_keeps (fun s => s.address0) _ _ (fun _ _ => by simp) _
@[simp] theorem freeRecords_address1 (x : FreeCause) (e : Bool) (l : List Slot) (s : State) : (freeRecords x e l s).address1 = s.address1 :=
  by
  unfold freeRecords
  rw [resolveSet_address1]
  exact forEach_keeps (fun s => s.address1) _ _ (fun _ _ => by simp) _
@[simp] theorem freeRecords_lines (x : FreeCause) (e : Bool) (l : List Slot) (s : State) : (freeRecords x e l s).lines = s.lines :=
  by
  unfold freeRecords
  rw [resolveSet_lines]
  exact forEach_keeps (fun s => s.lines) _ _ (fun _ _ => by simp) _
@[simp] theorem freeRecords_clocks (x : FreeCause) (e : Bool) (l : List Slot) (s : State) : (freeRecords x e l s).clocks = s.clocks :=
  by
  unfold freeRecords
  rw [resolveSet_clocks]
  exact forEach_keeps (fun s => s.clocks) _ _ (fun _ _ => by simp) _
@[simp] theorem freeRecords_derateCeiling (x : FreeCause) (e : Bool) (l : List Slot) (s : State) : (freeRecords x e l s).derateCeiling = s.derateCeiling :=
  by
  unfold freeRecords
  rw [resolveSet_derateCeiling]
  exact forEach_keeps (fun s => s.derateCeiling) _ _ (fun _ _ => by simp) _
@[simp] theorem freeRecords_lampTest (x : FreeCause) (e : Bool) (l : List Slot) (s : State) : (freeRecords x e l s).lampTest = s.lampTest :=
  by
  unfold freeRecords
  rw [resolveSet_lampTest]
  exact forEach_keeps (fun s => s.lampTest) _ _ (fun _ _ => by simp) _
@[simp] theorem freeRecords_output (x : FreeCause) (e : Bool) (l : List Slot) (s : State) : (freeRecords x e l s).output = s.output :=
  by
  unfold freeRecords
  rw [resolveSet_output]
  exact forEach_keeps (fun s => s.output) _ _ (fun _ _ => by simp) _
@[simp] theorem freeRecords_outs (x : FreeCause) (e : Bool) (l : List Slot) (s : State) : (freeRecords x e l s).outs = s.outs :=
  by
  unfold freeRecords
  rw [resolveSet_outs]
  exact forEach_keeps (fun s => s.outs) _ _ (fun _ _ => by simp) _
@[simp] theorem freeRecords_line (x : FreeCause) (e : Bool) (l : List Slot) (s : State) (i : Line) : (freeRecords x e l s).line i = s.line i := by
  simp only [State.line, freeRecords_lines]
@[simp] theorem freeRecords_clock (x : FreeCause) (e : Bool) (l : List Slot) (s : State) (i : ClockNo) : (freeRecords x e l s).clock i = s.clock i := by
  simp only [State.clock, freeRecords_clocks]
@[simp] theorem freeRecords_out (x : FreeCause) (e : Bool) (l : List Slot) (s : State) (i : Channel) : (freeRecords x e l s).out i = s.out i := by
  simp only [State.out, freeRecords_outs]

/-! ### Stage -/

@[simp] theorem changeStage_now (st : StageName) (c : Cause) (s : State) : (changeStage st c s).now = s.now :=
  by unfold changeStage; dsimp only; split_ifs <;> simp
@[simp] theorem changeStage_draws (st : StageName) (c : Cause) (s : State) : (changeStage st c s).draws = s.draws :=
  by unfold changeStage; dsimp only; split_ifs <;> simp
@[simp] theorem changeStage_pending (st : StageName) (c : Cause) (s : State) : (changeStage st c s).pending = s.pending :=
  by unfold changeStage; dsimp only; split_ifs <;> simp
@[simp] theorem changeStage_lts (st : StageName) (c : Cause) (s : State) : (changeStage st c s).lts = s.lts :=
  by unfold changeStage; dsimp only; split_ifs <;> simp
@[simp] theorem changeStage_address0 (st : StageName) (c : Cause) (s : State) : (changeStage st c s).address0 = s.address0 :=
  by unfold changeStage; dsimp only; split_ifs <;> simp
@[simp] theorem changeStage_address1 (st : StageName) (c : Cause) (s : State) : (changeStage st c s).address1 = s.address1 :=
  by unfold changeStage; dsimp only; split_ifs <;> simp
@[simp] theorem changeStage_ports (st : StageName) (c : Cause) (s : State) : (changeStage st c s).ports = s.ports :=
  by unfold changeStage; dsimp only; split_ifs <;> simp
@[simp] theorem changeStage_access (st : StageName) (c : Cause) (s : State) : (changeStage st c s).access = s.access :=
  by unfold changeStage; dsimp only; split_ifs <;> simp
@[simp] theorem changeStage_pool (st : StageName) (c : Cause) (s : State) : (changeStage st c s).pool = s.pool :=
  by unfold changeStage; dsimp only; split_ifs <;> simp
@[simp] theorem changeStage_resolver (st : StageName) (c : Cause) (s : State) : (changeStage st c s).resolver = s.resolver :=
  by unfold changeStage; dsimp only; split_ifs <;> simp
@[simp] theorem changeStage_scenes (st : StageName) (c : Cause) (s : State) : (changeStage st c s).scenes = s.scenes :=
  by unfold changeStage; dsimp only; split_ifs <;> simp
@[simp] theorem changeStage_players (st : StageName) (c : Cause) (s : State) : (changeStage st c s).players = s.players :=
  by unfold changeStage; dsimp only; split_ifs <;> simp
@[simp] theorem changeStage_lines (st : StageName) (c : Cause) (s : State) : (changeStage st c s).lines = s.lines :=
  by unfold changeStage; dsimp only; split_ifs <;> simp
@[simp] theorem changeStage_clocks (st : StageName) (c : Cause) (s : State) : (changeStage st c s).clocks = s.clocks :=
  by unfold changeStage; dsimp only; split_ifs <;> simp
@[simp] theorem changeStage_derateCeiling (st : StageName) (c : Cause) (s : State) : (changeStage st c s).derateCeiling = s.derateCeiling :=
  by unfold changeStage; dsimp only; split_ifs <;> simp
@[simp] theorem changeStage_watches (st : StageName) (c : Cause) (s : State) : (changeStage st c s).watches = s.watches :=
  by unfold changeStage; dsimp only; split_ifs <;> simp

@[simp] theorem enterStage_now (st : StageName) (c : Cause) (s : State) : (enterStage st c s).now = s.now :=
  by simp [enterStage]
@[simp] theorem enterStage_draws (st : StageName) (c : Cause) (s : State) : (enterStage st c s).draws = s.draws :=
  by simp [enterStage]
@[simp] theorem enterStage_pending (st : StageName) (c : Cause) (s : State) : (enterStage st c s).pending = s.pending :=
  by simp [enterStage]
@[simp] theorem enterStage_lts (st : StageName) (c : Cause) (s : State) : (enterStage st c s).lts = s.lts :=
  by simp [enterStage]
@[simp] theorem enterStage_address0 (st : StageName) (c : Cause) (s : State) : (enterStage st c s).address0 = s.address0 :=
  by simp [enterStage]
@[simp] theorem enterStage_address1 (st : StageName) (c : Cause) (s : State) : (enterStage st c s).address1 = s.address1 :=
  by simp [enterStage]
@[simp] theorem enterStage_access (st : StageName) (c : Cause) (s : State) : (enterStage st c s).access = s.access :=
  by simp [enterStage]
@[simp] theorem enterStage_pool (st : StageName) (c : Cause) (s : State) : (enterStage st c s).pool = s.pool :=
  by simp [enterStage]
@[simp] theorem enterStage_resolver (st : StageName) (c : Cause) (s : State) : (enterStage st c s).resolver = s.resolver :=
  by simp [enterStage]
@[simp] theorem enterStage_scenes (st : StageName) (c : Cause) (s : State) : (enterStage st c s).scenes = s.scenes :=
  by simp [enterStage]
@[simp] theorem enterStage_players (st : StageName) (c : Cause) (s : State) : (enterStage st c s).players = s.players :=
  by simp [enterStage]
@[simp] theorem enterStage_lines (st : StageName) (c : Cause) (s : State) : (enterStage st c s).lines = s.lines :=
  by simp [enterStage]
@[simp] theorem enterStage_clocks (st : StageName) (c : Cause) (s : State) : (enterStage st c s).clocks = s.clocks :=
  by simp [enterStage]
@[simp] theorem enterStage_derateCeiling (st : StageName) (c : Cause) (s : State) : (enterStage st c s).derateCeiling = s.derateCeiling :=
  by simp [enterStage]
@[simp] theorem enterStage_watches (st : StageName) (c : Cause) (s : State) : (enterStage st c s).watches = s.watches :=
  by simp [enterStage]
@[simp] theorem enterStage_right (st : StageName) (c : Cause) (s : State) (q : Port) : (enterStage st c s).right q = s.right q := by
  simp only [State.right, enterStage_access]
@[simp] theorem enterStage_record (st : StageName) (c : Cause) (s : State) (i : Slot) : (enterStage st c s).record i = s.record i := by
  simp only [State.record, enterStage_pool]
@[simp] theorem enterStage_entry (st : StageName) (c : Cause) (s : State) (i : Channel) : (enterStage st c s).entry i = s.entry i := by
  simp only [State.entry, enterStage_resolver]
@[simp] theorem enterStage_scene (st : StageName) (c : Cause) (s : State) (i : SceneNo) : (enterStage st c s).scene i = s.scene i := by
  simp only [State.scene, enterStage_scenes]
@[simp] theorem enterStage_player (st : StageName) (c : Cause) (s : State) (i : PlayerNo) : (enterStage st c s).player i = s.player i := by
  simp only [State.player, enterStage_players]
@[simp] theorem enterStage_line (st : StageName) (c : Cause) (s : State) (i : Line) : (enterStage st c s).line i = s.line i := by
  simp only [State.line, enterStage_lines]
@[simp] theorem enterStage_clock (st : StageName) (c : Cause) (s : State) (i : ClockNo) : (enterStage st c s).clock i = s.clock i := by
  simp only [State.clock, enterStage_clocks]
@[simp] theorem enterStage_watch (st : StageName) (c : Cause) (s : State) (i : WatchNo) : (enterStage st c s).watch i = s.watch i := by
  simp only [State.watch, enterStage_watches]

@[simp] theorem settleStage_now (c : Cause) (s : State) : (settleStage c s).now = s.now :=
  by unfold settleStage; dsimp only; split_ifs <;> simp
@[simp] theorem settleStage_draws (c : Cause) (s : State) : (settleStage c s).draws = s.draws :=
  by unfold settleStage; dsimp only; split_ifs <;> simp
@[simp] theorem settleStage_pending (c : Cause) (s : State) : (settleStage c s).pending = s.pending :=
  by unfold settleStage; dsimp only; split_ifs <;> simp
@[simp] theorem settleStage_lts (c : Cause) (s : State) : (settleStage c s).lts = s.lts :=
  by unfold settleStage; dsimp only; split_ifs <;> simp
@[simp] theorem settleStage_address0 (c : Cause) (s : State) : (settleStage c s).address0 = s.address0 :=
  by unfold settleStage; dsimp only; split_ifs <;> simp
@[simp] theorem settleStage_address1 (c : Cause) (s : State) : (settleStage c s).address1 = s.address1 :=
  by unfold settleStage; dsimp only; split_ifs <;> simp
@[simp] theorem settleStage_access (c : Cause) (s : State) : (settleStage c s).access = s.access :=
  by unfold settleStage; dsimp only; split_ifs <;> simp
@[simp] theorem settleStage_pool (c : Cause) (s : State) : (settleStage c s).pool = s.pool :=
  by unfold settleStage; dsimp only; split_ifs <;> simp
@[simp] theorem settleStage_resolver (c : Cause) (s : State) : (settleStage c s).resolver = s.resolver :=
  by unfold settleStage; dsimp only; split_ifs <;> simp
@[simp] theorem settleStage_scenes (c : Cause) (s : State) : (settleStage c s).scenes = s.scenes :=
  by unfold settleStage; dsimp only; split_ifs <;> simp
@[simp] theorem settleStage_players (c : Cause) (s : State) : (settleStage c s).players = s.players :=
  by unfold settleStage; dsimp only; split_ifs <;> simp
@[simp] theorem settleStage_lines (c : Cause) (s : State) : (settleStage c s).lines = s.lines :=
  by unfold settleStage; dsimp only; split_ifs <;> simp
@[simp] theorem settleStage_clocks (c : Cause) (s : State) : (settleStage c s).clocks = s.clocks :=
  by unfold settleStage; dsimp only; split_ifs <;> simp
@[simp] theorem settleStage_derateCeiling (c : Cause) (s : State) : (settleStage c s).derateCeiling = s.derateCeiling :=
  by unfold settleStage; dsimp only; split_ifs <;> simp
@[simp] theorem settleStage_watches (c : Cause) (s : State) : (settleStage c s).watches = s.watches :=
  by unfold settleStage; dsimp only; split_ifs <;> simp

@[simp] theorem settle_now (c : Cause) (s : State) : (settle c s).now = s.now :=
  by simp [settle]
@[simp] theorem settle_draws (c : Cause) (s : State) : (settle c s).draws = s.draws :=
  by simp [settle]
@[simp] theorem settle_pending (c : Cause) (s : State) : (settle c s).pending = s.pending :=
  by simp [settle]
@[simp] theorem settle_lts (c : Cause) (s : State) : (settle c s).lts = s.lts :=
  by simp [settle]
@[simp] theorem settle_address0 (c : Cause) (s : State) : (settle c s).address0 = s.address0 :=
  by simp [settle]
@[simp] theorem settle_address1 (c : Cause) (s : State) : (settle c s).address1 = s.address1 :=
  by simp [settle]
@[simp] theorem settle_access (c : Cause) (s : State) : (settle c s).access = s.access :=
  by simp [settle]
@[simp] theorem settle_pool (c : Cause) (s : State) : (settle c s).pool = s.pool :=
  by simp [settle]
@[simp] theorem settle_resolver (c : Cause) (s : State) : (settle c s).resolver = s.resolver :=
  by simp [settle]
@[simp] theorem settle_scenes (c : Cause) (s : State) : (settle c s).scenes = s.scenes :=
  by simp [settle]
@[simp] theorem settle_players (c : Cause) (s : State) : (settle c s).players = s.players :=
  by simp [settle]
@[simp] theorem settle_lines (c : Cause) (s : State) : (settle c s).lines = s.lines :=
  by simp [settle]
@[simp] theorem settle_clocks (c : Cause) (s : State) : (settle c s).clocks = s.clocks :=
  by simp [settle]
@[simp] theorem settle_derateCeiling (c : Cause) (s : State) : (settle c s).derateCeiling = s.derateCeiling :=
  by simp [settle]
@[simp] theorem settle_watches (c : Cause) (s : State) : (settle c s).watches = s.watches :=
  by simp [settle]
@[simp] theorem settle_right (c : Cause) (s : State) (q : Port) : (settle c s).right q = s.right q := by
  simp only [State.right, settle_access]
@[simp] theorem settle_record (c : Cause) (s : State) (i : Slot) : (settle c s).record i = s.record i := by
  simp only [State.record, settle_pool]
@[simp] theorem settle_entry (c : Cause) (s : State) (i : Channel) : (settle c s).entry i = s.entry i := by
  simp only [State.entry, settle_resolver]
@[simp] theorem settle_scene (c : Cause) (s : State) (i : SceneNo) : (settle c s).scene i = s.scene i := by
  simp only [State.scene, settle_scenes]
@[simp] theorem settle_player (c : Cause) (s : State) (i : PlayerNo) : (settle c s).player i = s.player i := by
  simp only [State.player, settle_players]
@[simp] theorem settle_line (c : Cause) (s : State) (i : Line) : (settle c s).line i = s.line i := by
  simp only [State.line, settle_lines]
@[simp] theorem settle_clock (c : Cause) (s : State) (i : ClockNo) : (settle c s).clock i = s.clock i := by
  simp only [State.clock, settle_clocks]
@[simp] theorem settle_watch (c : Cause) (s : State) (i : WatchNo) : (settle c s).watch i = s.watch i := by
  simp only [State.watch, settle_watches]

@[simp] theorem rearmChannel_now (ch : Channel) (s : State) : (rearmChannel ch s).now = s.now :=
  by unfold rearmChannel; dsimp only; split_ifs <;> simp
@[simp] theorem rearmChannel_draws (ch : Channel) (s : State) : (rearmChannel ch s).draws = s.draws :=
  by unfold rearmChannel; dsimp only; split_ifs <;> simp
@[simp] theorem rearmChannel_pending (ch : Channel) (s : State) : (rearmChannel ch s).pending = s.pending :=
  by unfold rearmChannel; dsimp only; split_ifs <;> simp
@[simp] theorem rearmChannel_lts (ch : Channel) (s : State) : (rearmChannel ch s).lts = s.lts :=
  by unfold rearmChannel; dsimp only; split_ifs <;> simp
@[simp] theorem rearmChannel_address0 (ch : Channel) (s : State) : (rearmChannel ch s).address0 = s.address0 :=
  by unfold rearmChannel; dsimp only; split_ifs <;> simp
@[simp] theorem rearmChannel_address1 (ch : Channel) (s : State) : (rearmChannel ch s).address1 = s.address1 :=
  by unfold rearmChannel; dsimp only; split_ifs <;> simp
@[simp] theorem rearmChannel_access (ch : Channel) (s : State) : (rearmChannel ch s).access = s.access :=
  by unfold rearmChannel; dsimp only; split_ifs <;> simp
@[simp] theorem rearmChannel_pool (ch : Channel) (s : State) : (rearmChannel ch s).pool = s.pool :=
  by unfold rearmChannel; dsimp only; split_ifs <;> simp
@[simp] theorem rearmChannel_resolver (ch : Channel) (s : State) : (rearmChannel ch s).resolver = s.resolver :=
  by unfold rearmChannel; dsimp only; split_ifs <;> simp
@[simp] theorem rearmChannel_scenes (ch : Channel) (s : State) : (rearmChannel ch s).scenes = s.scenes :=
  by unfold rearmChannel; dsimp only; split_ifs <;> simp
@[simp] theorem rearmChannel_players (ch : Channel) (s : State) : (rearmChannel ch s).players = s.players :=
  by unfold rearmChannel; dsimp only; split_ifs <;> simp
@[simp] theorem rearmChannel_lines (ch : Channel) (s : State) : (rearmChannel ch s).lines = s.lines :=
  by unfold rearmChannel; dsimp only; split_ifs <;> simp
@[simp] theorem rearmChannel_clocks (ch : Channel) (s : State) : (rearmChannel ch s).clocks = s.clocks :=
  by unfold rearmChannel; dsimp only; split_ifs <;> simp
@[simp] theorem rearmChannel_derateCeiling (ch : Channel) (s : State) : (rearmChannel ch s).derateCeiling = s.derateCeiling :=
  by unfold rearmChannel; dsimp only; split_ifs <;> simp
@[simp] theorem rearmChannel_lampTest (ch : Channel) (s : State) : (rearmChannel ch s).lampTest = s.lampTest :=
  by unfold rearmChannel; dsimp only; split_ifs <;> simp
@[simp] theorem rearmChannel_output (ch : Channel) (s : State) : (rearmChannel ch s).output = s.output :=
  by unfold rearmChannel; dsimp only; split_ifs <;> simp

end Sys2Proof.Machine
end

