-- ==== Sys2Proof/Laws/Kept.lean ====
section
/-! SUPPORT. The frame `Kept` of the takings that redo resolution: it holds of every shared operation they are made of,
and is closed under composition. -/

namespace Sys2Proof.Machine

/-! ### Reflexivity and composition -/

@[simp] theorem RegistersKept.refl (q : PortState) : RegistersKept q q := ⟨rfl, rfl, rfl, rfl, rfl, rfl, rfl, rfl, rfl⟩

theorem RegistersKept.trans {a b c : PortState} (h : RegistersKept a b) (k : RegistersKept b c) : RegistersKept a c :=
  ⟨k.1.trans h.1, k.2.trans h.2, k.3.trans h.3, k.4.trans h.4, k.5.trans h.5, k.6.trans h.6, k.7.trans h.7,
    k.8.trans h.8, k.9.trans h.9⟩

@[simp] theorem ResultsKept.refl (q : PortState) : ResultsKept q q := ⟨rfl, rfl, rfl, rfl, rfl⟩

theorem ResultsKept.trans {a b c : PortState} (h : ResultsKept a b) (k : ResultsKept b c) : ResultsKept a c :=
  ⟨k.1.trans h.1, k.2.trans h.2, k.3.trans h.3, k.4.trans h.4, k.5.trans h.5⟩

@[simp] theorem WatchKept.refl (a : Option Watch) : WatchKept a a := Or.inl rfl

theorem WatchKept.trans {a b c : Option Watch} (h : WatchKept a b) (k : WatchKept b c) : WatchKept a c := by
  rcases h with h | ⟨h, hb⟩
  · exact h ▸ k
  · rcases k with k | ⟨⟨e, he, -⟩, -⟩
    · exact Or.inr ⟨h, k.trans hb⟩
    · rw [hb] at he
      cases he

@[simp] theorem StageKept.refl (a : StageName) : StageKept a a := Or.inl rfl

theorem StageKept.trans {a b c : StageName} (h : StageKept a b) (k : StageKept b c) : StageKept a c := by
  rcases h with h | ⟨ha, hb⟩
  · exact h ▸ k
  · rcases k with k | ⟨kb, -⟩
    · exact Or.inr ⟨ha, k.trans hb⟩
    · rw [hb] at kb
      cases kb

theorem Kept.refl (s : State) : Kept s s :=
  { now := rfl, draws := rfl, pending := rfl, lts := rfl, address0 := rfl, address1 := rfl, clocks := rfl,
    derateCeiling := rfl, lampTest := rfl, maintenance := rfl, ceiling := fun _ => rfl, sceneEdit := fun _ => rfl,
    quota := fun _ => rfl, registers := fun _ => .refl _, notices := fun _ => List.prefix_refl _,
    watches := fun _ => .refl _, policy := fun _ => rfl, idle := fun _ => rfl, defaultIndex := fun _ => rfl,
    defaultShape := fun _ => rfl, enabled := fun _ => rfl, manual := fun _ => rfl, fault := fun _ => rfl,
    retry := fun _ => rfl, supply := rfl, hold := rfl, recovery := rfl, stage := .refl _ }

theorem Kept.trans {s t u : State} (h : Kept s t) (k : Kept t u) : Kept s u :=
  { now := k.now.trans h.now, draws := k.draws.trans h.draws, pending := k.pending.trans h.pending,
    lts := k.lts.trans h.lts, address0 := k.address0.trans h.address0, address1 := k.address1.trans h.address1,
    clocks := k.clocks.trans h.clocks, derateCeiling := k.derateCeiling.trans h.derateCeiling,
    lampTest := k.lampTest.trans h.lampTest, maintenance := k.maintenance.trans h.maintenance,
    ceiling := fun p => (k.ceiling p).trans (h.ceiling p), sceneEdit := fun p => (k.sceneEdit p).trans (h.sceneEdit p),
    quota := fun p => (k.quota p).trans (h.quota p), registers := fun p => (h.registers p).trans (k.registers p),
    notices := fun p => (h.notices p).trans (k.notices p), watches := fun w => (h.watches w).trans (k.watches w),
    policy := fun c => (k.policy c).trans (h.policy c), idle := fun c => (k.idle c).trans (h.idle c),
    defaultIndex := fun c => (k.defaultIndex c).trans (h.defaultIndex c),
    defaultShape := fun c => (k.defaultShape c).trans (h.defaultShape c),
    enabled := fun c => (k.enabled c).trans (h.enabled c), manual := fun c => (k.manual c).trans (h.manual c),
    fault := fun c => (k.fault c).trans (h.fault c), retry := fun c => (k.retry c).trans (h.retry c),
    supply := k.supply.trans h.supply, hold := k.hold.trans h.hold, recovery := k.recovery.trans h.recovery,
    stage := h.stage.trans k.stage }

/-- A sequence of operations keeps what each of them keeps. -/
theorem forEach_kept {ι : Type} (l : List ι) (f : ι → State → State) (h : ∀ i s, Kept s (f i s)) (s : State) :
    Kept s (forEach l f s) :=
  forEach_preserves (Kept s) l f (fun i u hu => hu.trans (h i u)) s (.refl s)

/-! ### Updates of one table -/

/-- An update of the ports that keeps the registers and lets the queues grow. -/
theorem Kept.of_ports (s : State) (v : Vector PortState 3) (h : ∀ p, RegistersKept (s.port p) (tget v p))
    (k : ∀ p, (s.port p).queue <+: (tget v p).queue) : Kept s { s with ports := v } :=
  { Kept.refl s with registers := h, notices := k }

theorem Kept.of_watches (s : State) (v : Vector (Option Watch) 12) (h : ∀ w, WatchKept (s.watch w) (tget v w)) :
    Kept s { s with watches := v } := { Kept.refl s with watches := h }

theorem Kept.of_resolver (s : State) (v : Vector ResolverEntry 16)
    (h : ∀ ch, (tget v ch).policy = (s.entry ch).policy) (k : ∀ ch, (tget v ch).idle = (s.entry ch).idle) :
    Kept s { s with resolver := v } := { Kept.refl s with policy := h, idle := k }

theorem Kept.of_modulator (s : State) (v : Vector ModChannel 16)
    (h : ∀ ch, (tget v ch).defaultIndex = (s.chan ch).defaultIndex)
    (k : ∀ ch, (tget v ch).defaultShape = (s.chan ch).defaultShape) :
    Kept s { s with modulator := v } := { Kept.refl s with defaultIndex := h, defaultShape := k }

theorem Kept.of_outs (s : State) (v : Vector OutChannel 16) (h1 : ∀ ch, (tget v ch).enabled = (s.out ch).enabled)
    (h2 : ∀ ch, (tget v ch).manual = (s.out ch).manual) (h3 : ∀ ch, (tget v ch).fault = (s.out ch).fault)
    (h4 : ∀ ch, (tget v ch).retry = (s.out ch).retry) : Kept s { s with outs := v } :=
  { Kept.refl s with enabled := h1, manual := h2, fault := h3, retry := h4 }

theorem Kept.of_pool (s : State) (v : Vector ClaimRecord 48) : Kept s { s with pool := v } := { Kept.refl s with }

theorem Kept.of_scenes (s : State) (v : Vector Scene 16) : Kept s { s with scenes := v } := { Kept.refl s with }

theorem Kept.of_players (s : State) (v : Vector Player 2) : Kept s { s with players := v } := { Kept.refl s with }

theorem Kept.of_lines (s : State) (v : Vector LineState 8) : Kept s { s with lines := v } := { Kept.refl s with }

theorem Kept.of_output (s : State) (o : OutputStage) (h1 : o.supply = s.output.supply) (h2 : o.hold = s.output.hold)
    (h3 : o.recovery = s.output.recovery) (h4 : StageKept s.output.stage o.stage) : Kept s { s with output := o } :=
  { Kept.refl s with supply := h1, hold := h2, recovery := h3, stage := h4 }

theorem modRecord_kept (s : State) (i : Slot) (f : ClaimRecord → ClaimRecord) : Kept s (s.modRecord i f) :=
  .of_pool s _

theorem modScene_kept (s : State) (i : SceneNo) (f : Scene → Scene) : Kept s (s.modScene i f) := .of_scenes s _

theorem modPlayer_kept (s : State) (i : PlayerNo) (f : Player → Player) : Kept s (s.modPlayer i f) := .of_players s _

theorem modLine_kept (s : State) (i : Line) (f : LineState → LineState) : Kept s (s.modLine i f) := .of_lines s _

theorem modEntry_kept (s : State) (i : Channel) (f : ResolverEntry → ResolverEntry)
    (h : ∀ e, (f e).policy = e.policy) (k : ∀ e, (f e).idle = e.idle) : Kept s (s.modEntry i f) :=
  .of_resolver s _ (fun ch => by rw [tget_tmod]; split <;> simp_all [State.entry])
    (fun ch => by rw [tget_tmod]; split <;> simp_all [State.entry])

theorem modChan_kept (s : State) (i : Channel) (f : ModChannel → ModChannel)
    (h : ∀ m, (f m).defaultIndex = m.defaultIndex) (k : ∀ m, (f m).defaultShape = m.defaultShape) :
    Kept s (s.modChan i f) :=
  .of_modulator s _ (fun ch => by rw [tget_tmod]; split <;> simp_all [State.chan])
    (fun ch => by rw [tget_tmod]; split <;> simp_all [State.chan])

theorem modHeld_kept (s : State) (p : Port) (f : Nat → Nat) :
    Kept s (s.modRight p fun r => { r with held := f r.held }) :=
  { Kept.refl s with
    ceiling := fun q => by rw [State.right_modRight]; split <;> simp_all
    sceneEdit := fun q => by rw [State.right_modRight]; split <;> simp_all
    quota := fun q => by rw [State.right_modRight]; split <;> simp_all }

/-! ### Notices -/

theorem offerTo_registers (n : Notice) (q : PortState) : RegistersKept q (offerTo n q) := by
  unfold offerTo
  split_ifs <;> exact ⟨rfl, rfl, rfl, rfl, rfl, rfl, rfl, rfl, rfl⟩

theorem offerTo_results (n : Notice) (q : PortState) : ResultsKept q (offerTo n q) := by
  unfold offerTo
  split_ifs <;> exact ⟨rfl, rfl, rfl, rfl, rfl⟩

theorem offerTo_queue (n : Notice) (q : PortState) : q.queue <+: (offerTo n q).queue := by
  unfold offerTo
  split_ifs
  · exact List.prefix_refl _
  · exact List.prefix_refl _
  · exact List.prefix_append _ _

theorem offerTo_bounded (n : Notice) (q : PortState) (h : q.queue.length ≤ queueLimit) :
    (offerTo n q).queue.length ≤ queueLimit := by
  unfold offerTo
  split_ifs with h1 h2
  · exact h
  · exact h
  · simpa using Nat.lt_of_not_le h2

theorem port_offer (p q : Port) (n : Notice) (s : State) :
    (offer p n s).port q = if q = p then offerTo n (s.port p) else s.port q := State.port_modPort s p q _

theorem offer_kept (p : Port) (n : Notice) (s : State) : Kept s (offer p n s) :=
  .of_ports s _ (fun q => by rw [tget_tmod]; split <;> simp_all [State.port, offerTo_registers])
    (fun q => by rw [tget_tmod]; split <;> simp_all [State.port, offerTo_queue])

theorem offerAll_kept (n : Notice) (s : State) : Kept s (offerAll n s) := forEach_kept _ _ (fun p s => offer_kept p n s) s

theorem spendOneShot_kept (p : Port) (k : WatchKind) (i : Nat) (w : Option Watch) :
    WatchKept w (spendOneShot p k i w) := by
  unfold spendOneShot
  split
  · exact .refl _
  · next e =>
    split_ifs with h
    · exact Or.inr ⟨⟨e, rfl, by simp_all⟩, rfl⟩
    · exact .refl _

theorem fireFor_kept (k : WatchKind) (i : Nat) (n : Notice) (p : Port) (s : State) : Kept s (fireFor k i n p s) := by
  unfold fireFor
  split_ifs
  · exact (offer_kept p n s).trans
      (.of_watches _ _ fun w => by rw [tget_tmap]; exact spendOneShot_kept p k i _)
  · exact .refl s

theorem fireWatches_kept (k : WatchKind) (i : Nat) (n : Notice) (s : State) : Kept s (fireWatches k i n s) :=
  forEach_kept _ _ (fun p s => fireFor_kept k i n p s) s

/-! ### Resolution -/

theorem handLevel_kept (ch : Channel) (v : Level) (p : Pattern) (i : FadeIndex) (s : State) :
    Kept s (handLevel ch v p i s) :=
  modChan_kept s ch _ (fun m => by unfold redirect; split <;> rfl) (fun m => by unfold redirect; split <;> rfl)

theorem handPattern_kept (ch : Channel) (p : Pattern) (s : State) : Kept s (handPattern ch p s) :=
  modChan_kept s ch _ (fun _ => rfl) (fun _ => rfl)

theorem handOn_kept (f : Option Handle) (ch : Channel) (o : ResolverEntry) (w : Option (Handle × Claim)) (s : State) :
    Kept s (handOn f ch o w s) := by
  unfold handOn
  dsimp only
  split_ifs
  · exact handLevel_kept _ _ _ _ s
  · exact handLevel_kept _ _ _ _ s
  · exact handLevel_kept _ _ _ _ s
  · exact handPattern_kept _ _ s

theorem resolveChannel_kept (f : Option Handle) (e : Bool) (ch : Channel) (s : State) :
    Kept s (resolveChannel f e ch s) := by
  have h : ∀ o w, Kept s (storeOutcome ch w (handOn f ch o w s)) := fun o w =>
    (handOn_kept f ch o w s).trans (modEntry_kept _ _ _ (fun _ => rfl) (fun _ => rfl))
  unfold resolveChannel
  dsimp only
  split_ifs
  · exact (h _ _).trans (fireWatches_kept _ _ _ _)
  · exact h _ _

theorem resolveSet_kept (f : Option Handle) (e : Bool) (cs : ChannelSet) (s : State) : Kept s (resolveSet f e cs s) :=
  forEach_kept _ _ (fun ch s => resolveChannel_kept f e ch s) s

theorem enlist_kept (h : Handle) (c : Claim) (s : State) : Kept s (enlist h c s) := by
  unfold enlist
  exact forEach_kept _ _ (fun ch s => by apply modEntry_kept <;> intro _ <;> rfl) s

theorem unlist_kept (h : Handle) (c : Claim) (s : State) : Kept s (unlist h c s) := by
  unfold unlist
  exact forEach_kept _ _ (fun ch s => by apply modEntry_kept <;> intro _ <;> rfl) s

theorem reinsert_kept (h : Handle) (c : Claim) (s : State) : Kept s (reinsert h c s) :=
  (unlist_kept h c s).trans (enlist_kept h c _)

/-! ### Placing and freeing -/

theorem raiseCounts_kept (c : Claim) (s : State) : Kept s (raiseCounts c s) := by
  have h : Kept s (raiseHeld c s) := by
    unfold raiseHeld
    split
    · exact modHeld_kept s _ (· + 1)
    · exact .refl s
  have k : ∀ u, Kept u (raiseInUse c u) := fun u => by
    unfold raiseInUse
    split
    · exact .refl u
    · exact modScene_kept u _ _
    · exact .refl u
  exact h.trans (k _)

theorem lowerCounts_kept (c : Claim) (s : State) : Kept s (lowerCounts c s) := by
  have h : Kept s (lowerHeld c s) := by
    unfold lowerHeld
    split
    · exact modHeld_kept s _ (· - 1)
    · exact .refl s
  have k : ∀ u, Kept u (lowerInUse c u) := fun u => by
    unfold lowerInUse
    split
    · exact .refl u
    · exact modScene_kept u _ _
    · exact .refl u
  exact h.trans (k _)

theorem seat_kept (k : Slot) (c : Claim) (s : State) : Kept s (seat k c s) :=
  (modRecord_kept s k _).trans ((enlist_kept _ c _).trans (raiseCounts_kept c _))

theorem place_kept (k : Slot) (c : Claim) (s : State) : Kept s (place k c s) :=
  (seat_kept k c s).trans (resolveSet_kept _ _ _ _)

theorem winnerEvents_kept (cs : ChannelSet) (o s : State) : Kept s (winnerEvents cs o s) :=
  forEach_kept _ _ (fun ch s => by
    split_ifs
    · exact fireWatches_kept _ _ _ s
    · exact .refl s) s

theorem removedNotice_kept (x : FreeCause) (h : Handle) (c : Claim) (s : State) : Kept s (removedNotice x h c s) := by
  unfold removedNotice
  split
  · exact offer_kept _ _ s
  · exact .refl s

theorem playerLoss_kept (x : FreeCause) (h : Handle) (c : Claim) (s : State) : Kept s (playerLoss x h c s) := by
  unfold playerLoss
  dsimp only
  split
  · exact .refl s
  · exact .refl s
  · split
    · exact (modPlayer_kept s _ _).trans (offer_kept _ _ _)
    · exact modPlayer_kept s _ _

theorem freeRecord_kept (x : FreeCause) (k : Slot) (s : State) : Kept s (freeRecord x k s) := by
  unfold freeRecord
  dsimp only
  split
  · exact .refl s
  · exact (((unlist_kept _ _ s).trans (modRecord_kept _ _ _)).trans (lowerCounts_kept _ _)).trans
      ((removedNotice_kept _ _ _ _).trans (playerLoss_kept _ _ _ _))

theorem freeRecords_kept (x : FreeCause) (e : Bool) (l : List Slot) (s : State) : Kept s (freeRecords x e l s) :=
  (forEach_kept _ _ (fun k s => freeRecord_kept x k s) s).trans (resolveSet_kept _ _ _ _)

/-! ### The stage's own following moves -/

theorem openOrClose_default (b : Bool) (now : Instant) (m : ModChannel) :
    (openOrClose b now m).defaultIndex = m.defaultIndex ∧ (openOrClose b now m).defaultShape = m.defaultShape := by
  unfold openOrClose
  split
  · split <;> exact ⟨rfl, rfl⟩
  · exact ⟨rfl, rfl⟩

theorem syncChannels_kept (s : State) : Kept s (syncChannels s) :=
  forEach_kept _ _ (fun ch s => modChan_kept s ch _ (fun m => (openOrClose_default _ _ m).1)
    (fun m => (openOrClose_default _ _ m).2)) s

theorem cleanChannel_kept (ch : Channel) (s : State) : Kept s (cleanChannel ch s) :=
  .of_outs s _ (fun i => by rw [tget_tmod]; split <;> simp_all [State.out])
    (fun i => by rw [tget_tmod]; split <;> simp_all [State.out])
    (fun i => by rw [tget_tmod]; split <;> simp_all [State.out])
    (fun i => by rw [tget_tmod]; split <;> simp_all [State.out])

theorem cleanChannels_kept (s : State) : Kept s (cleanChannels s) := forEach_kept _ _ cleanChannel_kept s

/-- A STANDBY stage that enters SOFTSTART. -/
theorem enterSoftstart_kept (c : Cause) (s : State) (h : s.output.stage = .standby) :
    Kept s (enterStage .softstart c s) := by
  have h0 : endsLampTest s.output.stage .softstart = false := by rw [h]; rfl
  have h1 : changeStage .softstart c s = syncChannels (s.modOutput fun o => o.enter .softstart c s.now) := by
    unfold changeStage
    simp only [h0, Bool.false_eq_true, if_false, reduceCtorEq]
  have h2 : Kept s (s.modOutput fun o => o.enter .softstart c s.now) :=
    .of_output s _ rfl rfl rfl (Or.inr ⟨h, rfl⟩)
  unfold enterStage
  rw [h1]
  exact (h2.trans (syncChannels_kept _)).trans (offerAll_kept _ _)

theorem standbyDelay_keeps (now : Instant) (o : OutputStage) (d : Bool) :
    (standbyDelay now { o with demand := d }).supply = o.supply ∧
    (standbyDelay now { o with demand := d }).hold = o.hold ∧
    (standbyDelay now { o with demand := d }).recovery = o.recovery ∧
    (standbyDelay now { o with demand := d }).stage = o.stage ∧
    (standbyDelay now { o with demand := d }).demand = d ∧
    (standbyDelay now { o with demand := d }).lastCause = o.lastCause := by
  unfold standbyDelay
  split_ifs <;> exact ⟨rfl, rfl, rfl, rfl, rfl, rfl⟩

theorem settleStage_kept (c : Cause) (s : State) : Kept s (settleStage c s) := by
  have k := standbyDelay_keeps s.now s.output (demandNow s)
  have h : Kept s (s.modOutput fun o => standbyDelay s.now { o with demand := demandNow s }) :=
    .of_output s _ k.1 k.2.1 k.2.2.1 (Or.inl k.2.2.2.1)
  unfold settleStage
  dsimp only
  split_ifs with hs
  · refine h.trans (enterSoftstart_kept _ _ ?_)
    simp only [Bool.and_eq_true, beq_iff_eq] at hs
    exact hs.1
  · exact h

theorem settle_kept (c : Cause) (s : State) : Kept s (settle c s) := by
  unfold settle
  exact (settleStage_kept c s).trans (cleanChannels_kept _)

/-! ### The registers of a port under a command -/

/-- Setting a result keeps everything but the result registers and counters of the port. -/
theorem setResult_kept (p : Port) (r : Result) (s : State) : Kept s (setResult p r s) :=
  .of_ports s _ (fun q => by
      rw [tget_tmod]
      split
      · next h => subst h; exact ⟨rfl, rfl, rfl, rfl, rfl, rfl, rfl, rfl, rfl⟩
      · exact .refl _)
    (fun q => by
      rw [tget_tmod]
      split
      · next h => subst h; exact List.prefix_refl _
      · exact List.prefix_refl _)

end Sys2Proof.Machine
end

