-- ==== Sys2Proof/Laws/Resolution.lean ====
section
/-! SUPPORT. Resolution, said once: what a channel's outcome is read from, what the resolver stores, what the modulator is
handed, and what becomes of the channels outside the set. -/

namespace Sys2Proof.Machine

/-! ### What an outcome is read from -/

/-- Two states in which a channel's outcome is read from the same data. -/
structure SameSources (s t : State) (ch : Channel) : Prop where
  pool : t.pool = s.pool
  scenes : t.scenes = s.scenes
  players : t.players = s.players
  list : (t.entry ch).list = (s.entry ch).list
  policy : (t.entry ch).policy = (s.entry ch).policy
  idle : (t.entry ch).idle = (s.entry ch).idle

theorem claimAt_congr {s t : State} (h : t.pool = s.pool) (x : Handle) : claimAt t x = claimAt s x := by
  unfold claimAt State.record
  rw [h]

theorem effectiveLevel_congr {s t : State} (h : t.scenes = s.scenes) (k : t.players = s.players) (c : Claim)
    (ch : Channel) : effectiveLevel t c ch = effectiveLevel s c ch := by
  simp only [effectiveLevel, State.scene, State.player, h, k]

theorem activeEntries_congr {s t : State} {ch : Channel} (h : t.pool = s.pool)
    (k : (t.entry ch).list = (s.entry ch).list) : activeEntries t ch = activeEntries s ch := by
  have hc : claimAt t = claimAt s := funext (claimAt_congr h)
  unfold activeEntries
  rw [k, hc]

theorem chooseWinner_congr {s t : State} {ch : Channel} (h : SameSources s t ch) : chooseWinner t ch = chooseWinner s ch := by
  simp only [chooseWinner, activeEntries_congr h.pool h.list, h.policy]
  have : (fun c => effectiveLevel t c ch) = fun c => effectiveLevel s c ch :=
    funext fun c => effectiveLevel_congr h.scenes h.players c ch
  rw [this]

theorem targetLevelOf_congr {s t : State} {ch : Channel} (h : SameSources s t ch) (w : Option (Handle × Claim)) :
    targetLevelOf t ch w = targetLevelOf s ch w := by
  simp only [targetLevelOf]
  split
  · exact effectiveLevel_congr h.scenes h.players _ _
  · exact h.idle

/-! ### One channel -/

/-- The entry a channel has after its resolution (R42). -/
def resolvedEntry (s : State) (ch : Channel) : ResolverEntry :=
  let w := chooseWinner s ch
  { s.entry ch with winner := handleOfWinner w, target := targetLevelOf s ch w, pattern := targetPatternOf w }

@[simp] theorem handOn_entry (f : Option Handle) (ch : Channel) (o : ResolverEntry) (w : Option (Handle × Claim))
    (s : State) (i : Channel) : (handOn f ch o w s).entry i = s.entry i := by
  simp only [State.entry, handOn_resolver]

@[simp] theorem winnerEvent_entry (ch : Channel) (w : Option (Handle × Claim)) (s : State) (i : Channel) :
    (winnerEvent ch w s).entry i = s.entry i := by simp only [State.entry, winnerEvent_resolver]

theorem targetLevelOf_handOn (f : Option Handle) (ch : Channel) (o : ResolverEntry) (v w : Option (Handle × Claim))
    (s : State) (i : Channel) : targetLevelOf (handOn f ch o v s) i w = targetLevelOf s i w :=
  targetLevelOf_congr ⟨by simp, by simp, by simp, by simp, by simp, by simp⟩ w

theorem resolveChannel_entry_self (f : Option Handle) (e : Bool) (ch : Channel) (s : State) :
    (resolveChannel f e ch s).entry ch = resolvedEntry s ch := by
  unfold resolveChannel
  dsimp only
  split_ifs <;> simp [storeOutcome, resolvedEntry, targetLevelOf_handOn]

theorem resolveChannel_entry_ne (f : Option Handle) (e : Bool) {ch i : Channel} (h : i ≠ ch) (s : State) :
    (resolveChannel f e ch s).entry i = s.entry i := by
  unfold resolveChannel
  dsimp only
  split_ifs <;> simp [storeOutcome, State.entry_modEntry, h]

/-- Resolution of one channel leaves the sources of every channel. -/
theorem resolveChannel_sources (f : Option Handle) (e : Bool) (ch i : Channel) (s : State) :
    SameSources s (resolveChannel f e ch s) i where
  pool := by simp
  scenes := by simp
  players := by simp
  list := by
    by_cases h : i = ch
    · subst h; rw [resolveChannel_entry_self]; rfl
    · rw [resolveChannel_entry_ne f e h]
  policy := (resolveChannel_kept f e ch s).policy i
  idle := (resolveChannel_kept f e ch s).idle i

/-- What the modulator holds for a channel after its resolution (R44 to R47). -/
def handedChan (f : Option Handle) (s : State) (ch : Channel) : ModChannel :=
  (handOn f ch (s.entry ch) (chooseWinner s ch) s).chan ch

theorem handOn_chan_ne (f : Option Handle) {ch i : Channel} (h : i ≠ ch) (o : ResolverEntry)
    (w : Option (Handle × Claim)) (s : State) : (handOn f ch o w s).chan i = s.chan i := by
  unfold handOn
  dsimp only
  split_ifs <;> simp [handLevel, handPattern, State.chan_modChan, h]

theorem resolveChannel_chan_self (f : Option Handle) (e : Bool) (ch : Channel) (s : State) :
    (resolveChannel f e ch s).chan ch = handedChan f s ch := by
  unfold resolveChannel handedChan
  dsimp only
  split_ifs <;> simp [State.chan]

theorem resolveChannel_chan_ne (f : Option Handle) (e : Bool) {ch i : Channel} (h : i ≠ ch) (s : State) :
    (resolveChannel f e ch s).chan i = s.chan i := by
  have k : ∀ o w, (storeOutcome ch w (handOn f ch o w s)).chan i = s.chan i := fun o w => by
    rw [← handOn_chan_ne f h o w s]; simp [State.chan]
  unfold resolveChannel
  dsimp only
  split_ifs
  · rw [← k (s.entry ch) (chooseWinner s ch)]; simp [State.chan]
  · exact k _ _

/-! ### A set of channels -/

theorem resolvedEntry_congr {s t : State} {ch : Channel} (h : SameSources s t ch) (k : t.entry ch = s.entry ch) :
    resolvedEntry t ch = resolvedEntry s ch := by
  simp only [resolvedEntry, chooseWinner_congr h, targetLevelOf_congr h, k]

/-- Every channel of the set stores its outcome; the others keep their entries (R21, R37, R42). -/
theorem resolveSet_entry (f : Option Handle) (e : Bool) (cs : ChannelSet) (s : State) (ch : Channel) :
    (resolveSet f e cs s).entry ch = if ch ∈ members cs then resolvedEntry s ch else s.entry ch :=
  forEach_at (fun s ch => s.entry ch) (resolveChannel f e) (fun ch s => resolvedEntry s ch)
    (fun i s => resolveChannel_entry_self f e i s) (fun _ _ s h => resolveChannel_entry_ne f e h s)
    (fun i j s h => resolvedEntry_congr (resolveChannel_sources f e i j s) (resolveChannel_entry_ne f e h s))
    (members cs) (nodup_members cs) s ch

/-- The lists of every channel stay. -/
theorem resolveSet_list (f : Option Handle) (e : Bool) (cs : ChannelSet) (s : State) (ch : Channel) :
    ((resolveSet f e cs s).entry ch).list = (s.entry ch).list := by
  rw [resolveSet_entry]
  split_ifs <;> rfl

/-- Resolution of a set leaves the sources of every channel. -/
theorem resolveSet_sources (f : Option Handle) (e : Bool) (cs : ChannelSet) (i : Channel) (s : State) :
    SameSources s (resolveSet f e cs s) i where
  pool := by simp
  scenes := by simp
  players := by simp
  list := resolveSet_list f e cs s i
  policy := (resolveSet_kept f e cs s).policy i
  idle := (resolveSet_kept f e cs s).idle i

/-- After resolution of a set, the winner of each of its channels is the one its policy chooses (R38 to R41). -/
theorem resolveSet_winner (f : Option Handle) (e : Bool) (cs : ChannelSet) (s : State) {ch : Channel}
    (h : ch ∈ members cs) :
    ((resolveSet f e cs s).entry ch).winner = handleOfWinner (chooseWinner (resolveSet f e cs s) ch) := by
  rw [chooseWinner_congr (resolveSet_sources f e cs ch s), resolveSet_entry, if_pos h]
  rfl

theorem handedChan_congr (f : Option Handle) {s t : State} {ch : Channel} (h : SameSources s t ch)
    (k : t.entry ch = s.entry ch) (m : t.chan ch = s.chan ch) (n : t.now = s.now) :
    handedChan f t ch = handedChan f s ch := by
  have hw : ∀ w, winnerFade t ch w = winnerFade s ch w := fun w => by simp only [winnerFade, m]
  have hl : ∀ w, levelFade t ch w = levelFade s ch w := fun w => by simp only [levelFade, m]
  simp only [handedChan, handOn, chooseWinner_congr h, targetLevelOf_congr h, hw, hl, k]
  split_ifs <;> simp [handLevel, handPattern, m, n]

/-- Every channel of the set takes its hand-off; the others keep what the modulator held (R44 to R47, R129). -/
theorem resolveSet_chan (f : Option Handle) (e : Bool) (cs : ChannelSet) (s : State) (ch : Channel) :
    (resolveSet f e cs s).chan ch = if ch ∈ members cs then handedChan f s ch else s.chan ch :=
  forEach_at (fun s ch => s.chan ch) (resolveChannel f e) (fun ch s => handedChan f s ch)
    (fun i s => resolveChannel_chan_self f e i s) (fun _ _ s h => resolveChannel_chan_ne f e h s)
    (fun i j s h => handedChan_congr f (resolveChannel_sources f e i j s) (resolveChannel_entry_ne f e h s)
      (resolveChannel_chan_ne f e h s) (by simp))
    (members cs) (nodup_members cs) s ch

/-! ### What the modulator is handed -/

theorem redirect_target (v : Level) (p : Pattern) (d : Nat) (now : Instant) (m : ModChannel) :
    (redirect v p d now m).target = v ∧ (redirect v p d now m).pattern = p := by
  unfold redirect
  split <;> exact ⟨rfl, rfl⟩

/-- A redirect leaves a PARKED channel PARKED and an open one open (R129, R132). -/
theorem redirect_parked (v : Level) (p : Pattern) (d : Nat) (now : Instant) (m : ModChannel) :
    (redirect v p d now m).fade = .parked ↔ m.fade = .parked := by
  unfold redirect
  split
  · next h => simp [h]
  · next h =>
    constructor
    · intro k
      simp only [beginFade] at k
      split_ifs at k
    · intro k
      exact absurd k h

theorem handedChan_pattern (f : Option Handle) (s : State) (ch : Channel) :
    (handedChan f s ch).pattern = (resolvedEntry s ch).pattern := by
  simp only [handedChan, handOn, resolvedEntry]
  split_ifs <;> simp [handLevel, handPattern, redirect_target]

/-- After its resolution the modulator holds the resolver's target, if it held the old one before (R150). -/
theorem handedChan_target (f : Option Handle) (s : State) (ch : Channel)
    (h : (s.chan ch).target = (s.entry ch).target) : (handedChan f s ch).target = (resolvedEntry s ch).target := by
  simp only [handedChan, handOn, resolvedEntry]
  split_ifs with h1 h2 h3
  · simp [handLevel, redirect_target]
  · simp [handLevel, redirect_target]
  · simp [handLevel, redirect_target]
  · simp only [handPattern, State.chan_modChan_self, h]
    exact (not_not.mp h3).symm

theorem handedChan_parked (f : Option Handle) (s : State) (ch : Channel) :
    (handedChan f s ch).fade = .parked ↔ (s.chan ch).fade = .parked := by
  simp only [handedChan, handOn]
  split_ifs <;> simp [handLevel, handPattern, redirect_parked]

/-! ### Choosing the winner -/

/-- The winner is an ACTIVE entry of the channel's list (R38). -/
theorem chooseWinner_mem {s : State} {ch : Channel} {e : Handle × Claim} (h : chooseWinner s ch = some e) :
    e ∈ topClass (activeEntries s ch) := by
  have hb : ∀ (g : Claim → Level) (l : List (Handle × Claim)) (e), brightest g l = some e → e ∈ l := by
    intro g l
    induction l with
    | nil => intro e he; simp [brightest] at he
    | cons a l ih =>
      intro e he
      simp only [brightest] at he
      split at he
      · simp_all
      · next f hf =>
        split_ifs at he
        · cases he
          exact List.mem_cons_of_mem _ (ih _ hf)
        · cases he
          exact List.mem_cons_self
  unfold chooseWinner at h
  split at h
  · exact List.mem_of_mem_head? h
  · exact hb _ _ _ h

/-- The entries among which the winner is chosen are the ACTIVE ones, in the order of the list (R33, R38). -/
theorem activeEntries_areActive (s : State) (ch : Channel) : AreActive s ch (activeEntries s ch) := by
  unfold AreActive activeHandles activeEntries
  induction (s.entry ch).list with
  | nil => simp
  | cons h l ih =>
    cases hc : claimAt s h with
    | none => simpa [hc] using ih
    | some c => cases ha : c.active <;> simpa [hc, ha] using ih

theorem mem_activeEntries {s : State} {ch : Channel} {e : Handle × Claim} :
    e ∈ activeEntries s ch ↔ e.1 ∈ (s.entry ch).list ∧ claimAt s e.1 = some e.2 ∧ e.2.active = true := by
  simp only [activeEntries, List.mem_filterMap]
  constructor
  · rintro ⟨h, hh, hx⟩
    split at hx
    · next c hc =>
      split_ifs at hx with ha
      cases hx
      exact ⟨hh, hc, ha⟩
    · cases hx
  · rintro ⟨hh, hc, ha⟩
    exact ⟨e.1, hh, by simp [hc, ha]⟩

theorem chooseWinner_active {s : State} {ch : Channel} {e : Handle × Claim} (h : chooseWinner s ch = some e) :
    e.1 ∈ (s.entry ch).list ∧ claimAt s e.1 = some e.2 ∧ e.2.active = true :=
  mem_activeEntries.mp (List.mem_of_mem_filter (chooseWinner_mem h))

end Sys2Proof.Machine
end

