-- ==== Sys2Proof/Laws/Pool.lean ====
section
/-! SUPPORT. Placing and freeing records, said once: the records, the lists, the counts and the players afterwards. -/

namespace Sys2Proof.Machine

/-! ### Claim lists -/

theorem mem_insertClass (prio : Handle → Priority) (p : Priority) (h x : Handle) (l : List Handle) :
    x ∈ insertClass prio p h l ↔ x = h ∨ x ∈ l := by
  have := List.takeWhile_append_dropWhile (p := fun e => decide (p < prio e)) (l := l)
  constructor
  · intro hx
    simp only [insertClass, List.mem_append, List.mem_cons] at hx
    rcases hx with hx | hx | hx
    · exact Or.inr (this ▸ List.mem_append_left _ hx)
    · exact Or.inl hx
    · exact Or.inr (this ▸ List.mem_append_right _ hx)
  · rintro (hx | hx)
    · simp [insertClass, hx]
    · rw [← this, List.mem_append] at hx
      rcases hx with hx | hx
      · exact List.mem_append_left _ hx
      · exact List.mem_append_right _ (List.mem_cons_of_mem _ hx)

theorem length_insertClass (prio : Handle → Priority) (p : Priority) (h : Handle) (l : List Handle) :
    (insertClass prio p h l).length = l.length + 1 := by
  have := congrArg List.length (List.takeWhile_append_dropWhile (p := fun e => decide (p < prio e)) (l := l))
  simp only [List.length_append] at this
  simp only [insertClass, List.length_append, List.length_cons]
  omega

/-- The entry of a channel once a record has entered its lists (R28, R30). -/
theorem enlist_entry (h : Handle) (c : Claim) (s : State) (ch : Channel) :
    (enlist h c s).entry ch =
      if ch ∈ members c.channels then
        { s.entry ch with list := insertClass (priorityOf s) c.priority h (s.entry ch).list }
      else s.entry ch := by
  unfold enlist
  rw [forEach_at (fun s ch => s.entry ch) _
    (fun ch s => { s.entry ch with list := insertClass (priorityOf s) c.priority h (s.entry ch).list })
    (fun i s => by simp) (fun i j s hj => by simp [State.entry_modEntry, hj])
    (fun i j s hj => by
      have hp : priorityOf (s.modEntry i fun e =>
          { e with list := insertClass (priorityOf s) c.priority h e.list }) = priorityOf s := rfl
      simp [State.entry_modEntry, hj, hp])
    _ (nodup_members _)]

/-- The entry of a channel once a record has left its lists (R32). -/
theorem unlist_entry (h : Handle) (c : Claim) (s : State) (ch : Channel) :
    (unlist h c s).entry ch =
      if ch ∈ members c.channels then { s.entry ch with list := (s.entry ch).list.filter fun x => decide (x ≠ h) }
      else s.entry ch := by
  unfold unlist
  rw [forEach_at (fun s ch => s.entry ch) _
    (fun ch s => { s.entry ch with list := (s.entry ch).list.filter fun x => decide (x ≠ h) })
    (fun i s => by simp) (fun i j s hj => by simp [State.entry_modEntry, hj])
    (fun i j s hj => by simp [State.entry_modEntry, hj]) _ (nodup_members _)]

/-! ### Counts -/

/-- The held-claim count of a port after a placement (R6, R11). -/
theorem raiseCounts_held (c : Claim) (s : State) (p : Port) :
    ((raiseCounts c s).right p).held = (s.right p).held + if c.owner = .port p then 1 else 0 := by
  have h : (raiseCounts c s).right p = (raiseHeld c s).right p := by simp only [State.right, raiseCounts, raiseInUse_access]
  rw [h]
  unfold raiseHeld
  split
  · next q hq =>
    rw [State.right_modRight]
    by_cases hp : p = q
    · subst hp; simp [hq]
    · have : Owner.port q ≠ Owner.port p := fun e => hp (Owner.port.inj e).symm
      simp [hp, hq, this]
  · next l hl => simp [hl]

/-- The held-claim count of a port after a freeing (R6, R20). -/
theorem lowerCounts_held (c : Claim) (s : State) (p : Port) :
    ((lowerCounts c s).right p).held = (s.right p).held - if c.owner = .port p then 1 else 0 := by
  have h : (lowerCounts c s).right p = (lowerHeld c s).right p := by simp only [State.right, lowerCounts, lowerInUse_access]
  rw [h]
  unfold lowerHeld
  split
  · next q hq =>
    rw [State.right_modRight]
    by_cases hp : p = q
    · subst hp; simp [hq]
    · have : Owner.port q ≠ Owner.port p := fun e => hp (Owner.port.inj e).symm
      simp [hp, hq, this]
  · next l hl => simp [hl]

/-- The in-use count of a scene after a placement; its levels stay (R11, R69). -/
theorem raiseCounts_scene (c : Claim) (s : State) (n : SceneNo) :
    (raiseCounts c s).scene n =
      { s.scene n with inUse := (s.scene n).inUse + if c.source = .scene n then 1 else 0 } := by
  have h : (raiseHeld c s).scene n = s.scene n := by simp only [State.scene, raiseHeld_scenes]
  unfold raiseCounts raiseInUse
  split
  · next hv => rw [h]; simp [hv]
  · next m hm =>
    rw [State.scene_modScene]
    by_cases hn : n = m
    · subst hn; simp [h, hm]
    · have : LevelSource.scene m ≠ LevelSource.scene n := fun e => hn (LevelSource.scene.inj e).symm
      simp [hn, h, hm, this]
  · next hv => rw [h]; simp [hv]

/-- The in-use count of a scene after a freeing; its levels stay (R22). -/
theorem lowerCounts_scene (c : Claim) (s : State) (n : SceneNo) :
    (lowerCounts c s).scene n =
      { s.scene n with inUse := (s.scene n).inUse - if c.source = .scene n then 1 else 0 } := by
  have h : (lowerHeld c s).scene n = s.scene n := by simp only [State.scene, lowerHeld_scenes]
  unfold lowerCounts lowerInUse
  split
  · next hv => rw [h]; simp [hv]
  · next m hm =>
    rw [State.scene_modScene]
    by_cases hn : n = m
    · subst hn; simp [h, hm]
    · have : LevelSource.scene m ≠ LevelSource.scene n := fun e => hn (LevelSource.scene.inj e).symm
      simp [hn, h, hm, this]
  · next hv => rw [h]; simp [hv]

/-! ### Placement -/

/-- The slot of a placement is FREE, and every lower one is taken (R10). -/
theorem freeSlot?_some {s : State} {k : Slot} (h : freeSlot? s = some k) :
    (s.record k).claim = none ∧ ∀ j : Slot, j < k → (s.record j).claim ≠ none := by
  have hk := List.find?_some h
  refine ⟨by simpa using hk, fun j hj hn => ?_⟩
  obtain ⟨as, bs, hab, hlt⟩ := (List.find?_eq_some_iff_append.mp h).2
  have hsorted : (indexes 48).Pairwise (· < ·) := List.pairwise_lt_finRange 48
  have hmem : j ∈ indexes 48 := mem_indexes j
  rw [hab] at hmem hsorted
  rcases List.mem_append.mp hmem with hm | hm
  · have := hlt j hm
    simp [hn] at this
  · rcases List.mem_cons.mp hm with hm | hm
    · exact absurd hm (ne_of_lt hj)
    · have := (List.pairwise_append.mp hsorted).2.1
      exact absurd ((List.pairwise_cons.mp this).1 j hm) (not_lt.mpr hj.le)

theorem roomCheck_room {s : State} {cs : ChannelSet} {k : Slot} (h : roomCheck s cs = .room k) :
    freeSlot? s = some k ∧ ∀ ch ∈ members cs, (s.entry ch).list.length < listLimit := by
  unfold roomCheck at h
  split at h
  · cases h
  · next j hj =>
    split at h
    · cases h
    · next hn =>
      cases h
      refine ⟨hj, fun ch hc => ?_⟩
      have := List.find?_eq_none.mp hn ch hc
      simpa using this

/-- The record of each slot after a record is seated (R11). -/
theorem seat_record (k : Slot) (c : Claim) (s : State) (i : Slot) :
    (seat k c s).record i = if i = k then { gen := (s.record k).gen, claim := some c } else s.record i := by
  have : (seat k c s).record i = (s.modRecord k fun r => { r with claim := some c }).record i := by
    simp [seat, State.record]
  rw [this, State.record_modRecord]

/-- The held-claim count of each port after a record is seated (R6). -/
theorem seat_held (k : Slot) (c : Claim) (s : State) (p : Port) :
    ((seat k c s).right p).held = (s.right p).held + if c.owner = .port p then 1 else 0 := by
  unfold seat
  rw [raiseCounts_held]
  simp [State.right]

/-- The scenes after a record is seated (R69). -/
theorem seat_scene (k : Slot) (c : Claim) (s : State) (n : SceneNo) :
    (seat k c s).scene n =
      { s.scene n with inUse := (s.scene n).inUse + if c.source = .scene n then 1 else 0 } := by
  unfold seat
  rw [raiseCounts_scene]
  simp [State.scene]

/-- The entry of each channel after a record is seated: the new record at the head of its class on each covered channel,
and all else as it was (R30). -/
theorem seat_entry (k : Slot) (c : Claim) (s : State) (ch : Channel) :
    (seat k c s).entry ch =
      if ch ∈ members c.channels then
        { s.entry ch with
          list := insertClass (priorityOf (s.modRecord k fun r => { r with claim := some c })) c.priority (handleAt s k)
            (s.entry ch).list }
      else s.entry ch := by
  unfold seat
  rw [State.entry, raiseCounts_resolver, ← State.entry, enlist_entry]
  rfl

/-- A record that is seated leaves what the resolver holds for every channel. -/
theorem seat_keeps (k : Slot) (c : Claim) (s : State) (ch : Channel) :
    ((seat k c s).entry ch).winner = (s.entry ch).winner ∧ ((seat k c s).entry ch).target = (s.entry ch).target ∧
      ((seat k c s).entry ch).pattern = (s.entry ch).pattern := by
  rw [seat_entry]
  split_ifs <;> exact ⟨rfl, rfl, rfl⟩

/-- The record of each slot after a placement (R11). -/
theorem place_record (k : Slot) (c : Claim) (s : State) (i : Slot) :
    (place k c s).record i = if i = k then { gen := (s.record k).gen, claim := some c } else s.record i := by
  rw [place, resolveSet_record, seat_record]

/-- The held-claim count of each port after a placement (R6). -/
theorem place_held (k : Slot) (c : Claim) (s : State) (p : Port) :
    ((place k c s).right p).held = (s.right p).held + if c.owner = .port p then 1 else 0 := by
  rw [place, resolveSet_right, seat_held]

/-- The scenes after a placement (R69). -/
theorem place_scene (k : Slot) (c : Claim) (s : State) (n : SceneNo) :
    (place k c s).scene n =
      { s.scene n with inUse := (s.scene n).inUse + if c.source = .scene n then 1 else 0 } := by
  rw [place, resolveSet_scene, seat_scene]

/-- The list of each channel after a placement: the new record at the head of its class on each covered channel
(R30). -/
theorem place_list (k : Slot) (c : Claim) (s : State) (ch : Channel) :
    ((place k c s).entry ch).list =
      if ch ∈ members c.channels then
        insertClass (priorityOf (s.modRecord k fun r => { r with claim := some c })) c.priority (handleAt s k)
          (s.entry ch).list
      else (s.entry ch).list := by
  rw [place, resolveSet_list, seat_entry]
  split_ifs <;> rfl

/-! ### Freeing -/

theorem freeRecord_free (x : FreeCause) (k : Slot) (s : State) (h : (s.record k).claim = none) :
    freeRecord x k s = s := by
  unfold freeRecord
  rw [h]

/-- The record of each slot after the freeing of one (R4, R20). -/
theorem freeRecord_record (x : FreeCause) (k : Slot) (s : State) (i : Slot) :
    (freeRecord x k s).record i =
      if i = k ∧ (s.record k).claim ≠ none then { gen := (s.record k).gen + 1, claim := none } else s.record i := by
  unfold freeRecord
  dsimp only
  split
  · next h => simp [h]
  · next c h =>
    simp only [State.record, playerLoss_pool, removedNotice_pool, lowerCounts_pool, State.modRecord_pool, unlist_pool]
    rw [tget_tmod]
    have h' : (tget s.pool k).claim = some c := h
    by_cases hi : i = k
    · simp [hi, h']
    · simp [hi]

theorem freeRecord_held (x : FreeCause) (k : Slot) (s : State) (p : Port) :
    ((freeRecord x k s).right p).held =
      (s.right p).held - if (s.record k).claim.any (ownedBy p) then 1 else 0 := by
  unfold freeRecord
  dsimp only
  split
  · next h => simp [h]
  · next c h =>
    have : ∀ a b : State, b.access = a.access → b.right p = a.right p := fun a b e => by simp only [State.right, e]
    rw [this _ _ (playerLoss_access _ _ _ _), this _ _ (removedNotice_access _ _ _ _), lowerCounts_held,
      State.modRecord_right, this _ _ (unlist_access _ _ _)]
    simp [h, ownedBy]

theorem freeRecord_scene (x : FreeCause) (k : Slot) (s : State) (n : SceneNo) :
    (freeRecord x k s).scene n =
      { s.scene n with
        inUse := (s.scene n).inUse - if (s.record k).claim.any (drawsFrom n) then 1 else 0 } := by
  unfold freeRecord
  dsimp only
  split
  · next h => simp [h]
  · next c h =>
    have : ∀ a b : State, b.scenes = a.scenes → b.scene n = a.scene n := fun a b e => by simp only [State.scene, e]
    rw [this _ _ (playerLoss_scenes _ _ _ _), this _ _ (removedNotice_scenes _ _ _ _), lowerCounts_scene,
      State.modRecord_scene, this _ _ (unlist_scenes _ _ _)]
    simp [h, drawsFrom]

/-- The record of each slot after the freeings of one taking, for slots without repetition (R20, R21). -/
theorem freeRecords_record (x : FreeCause) (e : Bool) (l : List Slot) (hl : l.Nodup) (s : State) (i : Slot) :
    (freeRecords x e l s).record i =
      if i ∈ l ∧ (s.record i).claim ≠ none then { gen := (s.record i).gen + 1, claim := none } else s.record i := by
  have h : (freeRecords x e l s).record i = (forEach l (freeRecord x) s).record i := by
    simp [freeRecords, State.record]
  rw [h, forEach_at (fun s i => s.record i) (freeRecord x)
    (fun i s => if (s.record i).claim ≠ none then { gen := (s.record i).gen + 1, claim := none } else s.record i)
    (fun i s => by simp [freeRecord_record]) (fun i j s hj => by simp [freeRecord_record, hj])
    (fun i j s hj => by simp [freeRecord_record, hj]) l hl s i]
  split_ifs <;> simp_all

theorem mem_slotsWhere {s : State} {f : Claim → Bool} {k : Slot} :
    k ∈ slotsWhere s f ↔ ∃ c, (s.record k).claim = some c ∧ f c = true := by
  simp only [slotsWhere, List.mem_filter, mem_indexes, true_and]
  cases h : (s.record k).claim <;> simp

theorem nodup_slotsWhere (s : State) (f : Claim → Bool) : (slotsWhere s f).Nodup := (nodup_indexes 48).filter _

end Sys2Proof.Machine
end

