-- ==== Sys2Proof/Laws/Queues.lean ====
section
/-! SUPPORT. The bound of the notice queues is kept by every shared operation (R182). -/

namespace Sys2Proof.Machine

theorem QueuesBounded.of_ports {s t : State} (h : t.ports = s.ports) (hs : QueuesBounded s) : QueuesBounded t := by
  intro p
  have : t.port p = s.port p := by simp only [State.port, h]
  rw [this]
  exact hs p

theorem QueuesBounded.modPort {s : State} (p : Port) (f : PortState → PortState)
    (h : ∀ q, q.queue.length ≤ queueLimit → (f q).queue.length ≤ queueLimit) (hs : QueuesBounded s) :
    QueuesBounded (s.modPort p f) := by
  intro q
  rw [State.port_modPort]
  split
  · exact h _ (hs p)
  · exact hs q

theorem offer_queues (p : Port) (n : Notice) (s : State) (h : QueuesBounded s) : QueuesBounded (offer p n s) :=
  h.modPort p _ (offerTo_bounded n)

theorem offerAll_queues (n : Notice) (s : State) (h : QueuesBounded s) : QueuesBounded (offerAll n s) :=
  forEach_preserves QueuesBounded _ _ (fun p s h => offer_queues p n s h) s h

theorem fireWatches_queues (k : WatchKind) (i : Nat) (n : Notice) (s : State) (h : QueuesBounded s) :
    QueuesBounded (fireWatches k i n s) :=
  forEach_preserves QueuesBounded _ _
    (fun p s h => by
      unfold fireFor
      split_ifs
      · exact (offer_queues p n s h).of_ports rfl
      · exact h) s h

theorem resolveChannel_queues (f : Option Handle) (e : Bool) (ch : Channel) (s : State) (h : QueuesBounded s) :
    QueuesBounded (resolveChannel f e ch s) := by
  unfold resolveChannel
  dsimp only
  split_ifs
  · exact fireWatches_queues _ _ _ _ (h.of_ports (by simp))
  · exact h.of_ports (by simp)

theorem resolveSet_queues (f : Option Handle) (e : Bool) (cs : ChannelSet) (s : State) (h : QueuesBounded s) :
    QueuesBounded (resolveSet f e cs s) :=
  forEach_preserves QueuesBounded _ _ (fun ch s h => resolveChannel_queues f e ch s h) s h

theorem place_queues (k : Slot) (c : Claim) (s : State) (h : QueuesBounded s) : QueuesBounded (place k c s) :=
  resolveSet_queues _ _ _ _ (h.of_ports (by simp))

theorem winnerEvents_queues (cs : ChannelSet) (o s : State) (h : QueuesBounded s) :
    QueuesBounded (winnerEvents cs o s) :=
  forEach_preserves QueuesBounded _ _ (fun ch s h => by
    split_ifs
    · exact fireWatches_queues _ _ _ _ h
    · exact h) s h

theorem freeRecord_queues (x : FreeCause) (k : Slot) (s : State) (h : QueuesBounded s) :
    QueuesBounded (freeRecord x k s) := by
  have hr : ∀ hd c u, QueuesBounded u → QueuesBounded (removedNotice x hd c u) := fun hd c u hu => by
    unfold removedNotice
    split
    · exact offer_queues _ _ _ hu
    · exact hu
  have hp : ∀ hd c u, QueuesBounded u → QueuesBounded (playerLoss x hd c u) := fun hd c u hu => by
    unfold playerLoss
    dsimp only
    split
    · exact hu
    · exact hu
    · split
      · exact offer_queues _ _ _ (hu.of_ports rfl)
      · exact hu.of_ports rfl
  unfold freeRecord
  dsimp only
  split
  · exact h
  · exact hp _ _ _ (hr _ _ _ (h.of_ports (by simp)))

theorem freeRecords_queues (x : FreeCause) (e : Bool) (l : List Slot) (s : State) (h : QueuesBounded s) :
    QueuesBounded (freeRecords x e l s) :=
  resolveSet_queues _ _ _ _ (forEach_preserves QueuesBounded _ _ (fun k s h => freeRecord_queues x k s h) s h)

theorem enterStage_queues (st : StageName) (c : Cause) (s : State) (h : QueuesBounded s) :
    QueuesBounded (enterStage st c s) := offerAll_queues _ _ (h.of_ports (by simp))

theorem settle_queues (c : Cause) (s : State) (h : QueuesBounded s) : QueuesBounded (settle c s) := by
  unfold settle settleStage
  dsimp only
  refine QueuesBounded.of_ports (cleanChannels_ports _) ?_
  split_ifs
  · exact enterStage_queues _ _ _ (h.of_ports rfl)
  · exact h.of_ports rfl

theorem setResult_queues (p : Port) (r : Result) (s : State) (h : QueuesBounded s) : QueuesBounded (setResult p r s) :=
  h.modPort p _ fun _ hq => hq

/-- A command at a port keeps the bound if its body does. -/
theorem takeCommand_queues (p : Port) (n : Need) (body : State → State × Result)
    (hb : ∀ s, QueuesBounded s → QueuesBounded (body s).1) (s : State) (h : QueuesBounded s) :
    QueuesBounded (takeCommand p n body s) := by
  refine setResult_queues _ _ _ ?_
  unfold checkedBody
  split_ifs
  · exact h
  · exact h
  · exact hb s h

end Sys2Proof.Machine
end

