-- ==== Sys2Proof/Laws/Modulator.lean ====
section
/-! SUPPORT. The modulator's agreement with the resolver and the stage is kept by every shared operation (R126, R131,
R150). -/

namespace Sys2Proof.Machine

theorem isOpen_congr {s t : State} {ch : Channel} (h : t.output.stage = s.output.stage) (k : t.out ch = s.out ch) :
    isOpen t ch = isOpen s ch := by simp only [isOpen, h, k]

/-- Whether a channel is open is read from its stage, enable and fault state alone. -/
theorem isOpen_of {s t : State} {ch : Channel} (h : t.output.stage = s.output.stage)
    (k : (t.out ch).enabled = (s.out ch).enabled) (m : (t.out ch).fault = (s.out ch).fault) :
    isOpen t ch = isOpen s ch := by simp only [isOpen, h, k, m]

/-- The agreement reads the resolver, the modulator, and what decides whether a channel is open. -/
theorem ModulatorInv.congr {s t : State} (hs : ModulatorInv s) (h1 : t.resolver = s.resolver)
    (h2 : t.modulator = s.modulator) (h3 : t.output.stage = s.output.stage)
    (h4 : ∀ ch, (t.out ch).enabled = (s.out ch).enabled) (h5 : ∀ ch, (t.out ch).fault = (s.out ch).fault) :
    ModulatorInv t := by
  have he : ∀ ch, t.entry ch = s.entry ch := fun ch => by simp only [State.entry, h1]
  have hc : ∀ ch, t.chan ch = s.chan ch := fun ch => by simp only [State.chan, h2]
  refine ⟨fun ch => ?_, fun ch => ?_, fun ch => ?_⟩
  · rw [he, hc]; exact hs.target ch
  · rw [he, hc]; exact hs.pattern ch
  · rw [hc, isOpen_of h3 (h4 ch) (h5 ch)]; exact hs.parked ch

theorem resolveSet_modulator_inv (f : Option Handle) (e : Bool) (cs : ChannelSet) (s : State) (hs : ModulatorInv s) :
    ModulatorInv (resolveSet f e cs s) := by
  refine ⟨fun ch => ?_, fun ch => ?_, fun ch => ?_⟩
  · rw [resolveSet_entry, resolveSet_chan]
    split_ifs
    · exact handedChan_target f s ch (hs.target ch)
    · exact hs.target ch
  · rw [resolveSet_entry, resolveSet_chan]
    split_ifs
    · exact handedChan_pattern f s ch
    · exact hs.pattern ch
  · have ho : isOpen (resolveSet f e cs s) ch = isOpen s ch := isOpen_congr (by simp) (by simp)
    rw [ho, resolveSet_chan]
    split_ifs
    · rw [handedChan_parked]; exact hs.parked ch
    · exact hs.parked ch

/-! ### Opening and closing -/

theorem openOrClose_target (b : Bool) (now : Instant) (m : ModChannel) :
    (openOrClose b now m).target = m.target ∧ (openOrClose b now m).pattern = m.pattern := by
  unfold openOrClose
  split
  · split <;> exact ⟨rfl, rfl⟩
  · exact ⟨rfl, rfl⟩

theorem openOrClose_parked (b : Bool) (now : Instant) (m : ModChannel) :
    (openOrClose b now m).fade = .parked ↔ b = false := by
  unfold openOrClose beginFade
  cases b <;> cases h : m.fade <;> simp [h]
  split_ifs <;> simp

theorem syncChannel_chan (ch i : Channel) (s : State) :
    (syncChannel ch s).chan i = if i = ch then openOrClose (isOpen s ch) s.now (s.chan ch) else s.chan i :=
  State.chan_modChan s ch i _

theorem syncChannels_chan (s : State) (ch : Channel) :
    (syncChannels s).chan ch = openOrClose (isOpen s ch) s.now (s.chan ch) := by
  unfold syncChannels
  rw [forEach_at (fun s ch => s.chan ch) syncChannel (fun ch s => openOrClose (isOpen s ch) s.now (s.chan ch))
    (fun i s => by simp [syncChannel]) (fun i j s hj => by simp [syncChannel_chan, hj])
    (fun i j s hj => by
      have : isOpen (syncChannel i s) j = isOpen s j := rfl
      simp [syncChannel_chan, hj, this]) _ (nodup_indexes 16)]
  simp

/-- Whatever the stage and the channels were before, every channel has opened or closed as they now say (R131). -/
theorem syncChannels_modulator_inv (s : State) (h1 : ∀ ch, (s.chan ch).target = (s.entry ch).target)
    (h2 : ∀ ch, (s.chan ch).pattern = (s.entry ch).pattern) : ModulatorInv (syncChannels s) := by
  have he : ∀ ch, (syncChannels s).entry ch = s.entry ch := fun ch => by simp
  have ho : ∀ ch, isOpen (syncChannels s) ch = isOpen s ch := fun ch => isOpen_congr (by simp) (by simp)
  refine ⟨fun ch => ?_, fun ch => ?_, fun ch => ?_⟩
  · rw [he, syncChannels_chan, (openOrClose_target _ _ _).1]; exact h1 ch
  · rw [he, syncChannels_chan, (openOrClose_target _ _ _).2]; exact h2 ch
  · rw [ho, syncChannels_chan, openOrClose_parked]

/-- A change of one channel of the output stage, followed by that channel's opening or closing. -/
theorem syncChannel_modulator_inv (ch : Channel) (f : OutChannel → OutChannel) (s : State) (hs : ModulatorInv s) :
    ModulatorInv (syncChannel ch (s.modOut ch f)) := by
  refine ⟨fun i => ?_, fun i => ?_, fun i => ?_⟩
  · rw [syncChannel_chan]
    split_ifs with h
    · subst h; rw [(openOrClose_target _ _ _).1]; exact hs.target i
    · exact hs.target i
  · rw [syncChannel_chan]
    split_ifs with h
    · subst h; rw [(openOrClose_target _ _ _).2]; exact hs.pattern i
    · exact hs.pattern i
  · rw [syncChannel_chan]
    split_ifs with h
    · subst h; exact openOrClose_parked _ _ _
    · have : isOpen (syncChannel ch (s.modOut ch f)) i = isOpen s i :=
        isOpen_congr rfl (by simp [syncChannel, State.out_modOut, h])
      rw [this]
      exact hs.parked i

theorem changeStage_modulator_inv (st : StageName) (c : Cause) (s : State) (hs : ModulatorInv s) :
    ModulatorInv (changeStage st c s) := by
  unfold changeStage
  dsimp only
  split_ifs <;> exact syncChannels_modulator_inv _ hs.target hs.pattern

theorem enterStage_modulator_inv (st : StageName) (c : Cause) (s : State) (hs : ModulatorInv s) :
    ModulatorInv (enterStage st c s) :=
  (changeStage_modulator_inv st c s hs).congr (by simp [enterStage]) (by simp [enterStage]) (by simp [enterStage])
    (fun ch => by simp [enterStage]) (fun ch => by simp [enterStage])

theorem cleanChannels_modulator_inv (s : State) (hs : ModulatorInv s) : ModulatorInv (cleanChannels s) :=
  hs.congr (by simp) (by simp) (by simp) (cleanChannels_kept s).enabled (cleanChannels_kept s).fault

theorem settle_modulator_inv (c : Cause) (s : State) (hs : ModulatorInv s) : ModulatorInv (settle c s) := by
  have h : ModulatorInv (s.modOutput fun o => standbyDelay s.now { o with demand := demandNow s }) :=
    hs.congr rfl rfl (standbyDelay_keeps _ _ _).2.2.2.1 (fun _ => rfl) (fun _ => rfl)
  unfold settle settleStage
  dsimp only
  split_ifs
  · exact cleanChannels_modulator_inv _ (enterStage_modulator_inv _ _ _ h)
  · exact cleanChannels_modulator_inv _ h

theorem seat_modulator_inv (k : Slot) (c : Claim) (s : State) (hs : ModulatorInv s) : ModulatorInv (seat k c s) := by
  refine ⟨fun ch => ?_, fun ch => ?_, fun ch => ?_⟩
  · rw [(seat_keeps k c s ch).2.1]
    simpa [State.chan] using hs.target ch
  · rw [(seat_keeps k c s ch).2.2]
    simpa [State.chan] using hs.pattern ch
  · have h : isOpen (seat k c s) ch = isOpen s ch := isOpen_congr (by simp) (by simp [State.out])
    rw [h]
    simpa [State.chan] using hs.parked ch

/-- A placement, the freeings of one taking and a change of list order end in a resolution. -/
theorem place_modulator_inv (k : Slot) (c : Claim) (s : State) (hs : ModulatorInv s) : ModulatorInv (place k c s) :=
  resolveSet_modulator_inv _ _ _ _ (seat_modulator_inv k c s hs)

theorem freeRecord_modulator_inv (x : FreeCause) (k : Slot) (s : State) (hs : ModulatorInv s) :
    ModulatorInv (freeRecord x k s) := by
  have he : ∀ ch, ((freeRecord x k s).entry ch).target = (s.entry ch).target ∧
      ((freeRecord x k s).entry ch).pattern = (s.entry ch).pattern := fun ch => by
    unfold freeRecord
    dsimp only
    split
    · exact ⟨rfl, rfl⟩
    · simp only [State.entry, playerLoss_resolver, removedNotice_resolver, lowerCounts_resolver,
        State.modRecord_resolver]
      rw [← State.entry, unlist_entry, ← State.entry]
      split_ifs <;> exact ⟨rfl, rfl⟩
  refine ⟨fun ch => ?_, fun ch => ?_, fun ch => ?_⟩
  · rw [(he ch).1]; simpa [State.chan] using hs.target ch
  · rw [(he ch).2]; simpa [State.chan] using hs.pattern ch
  · have h : isOpen (freeRecord x k s) ch = isOpen s ch := isOpen_congr (by simp) (by simp [State.out])
    rw [h]; simpa [State.chan] using hs.parked ch

theorem freeRecords_modulator_inv (x : FreeCause) (e : Bool) (l : List Slot) (s : State) (hs : ModulatorInv s) :
    ModulatorInv (freeRecords x e l s) :=
  resolveSet_modulator_inv _ _ _ _
    (forEach_preserves ModulatorInv _ _ (fun k s h => freeRecord_modulator_inv x k s h) s hs)

end Sys2Proof.Machine
end

