-- ==== Sys2Proof/Laws/Counts.lean ====
section
/-! SUPPORT. How the counts, the ceilings and the claim lists follow the records: each placement and each freeing keeps the
invariants of the claim pool (R6, R28, R29, R69, R194). -/

namespace Sys2Proof.Machine

/-! ### Counting records -/

/-- The count of the slots that pass a test, when the test changes at one slot alone. -/
theorem length_filter_update {n : Nat} (f g : Fin n → Bool) (k : Fin n) (h : ∀ i, i ≠ k → g i = f i) :
    ((indexes n).filter g).length + (if f k then 1 else 0) = ((indexes n).filter f).length + if g k then 1 else 0 := by
  have key : ∀ l : List (Fin n), l.Nodup →
      (l.filter g).length + (if k ∈ l ∧ f k = true then 1 else 0) =
        (l.filter f).length + if k ∈ l ∧ g k = true then 1 else 0 := by
    intro l
    induction l with
    | nil => simp
    | cons a l ih =>
      intro hl
      have hl' := List.nodup_cons.mp hl
      have := ih hl'.2
      by_cases ha : a = k
      · subst ha
        have h1 : l.filter g = l.filter f :=
          List.filter_congr fun x hx => h x fun e => hl'.1 (e ▸ hx)
        simp only [List.filter_cons, List.mem_cons, true_or, true_and, h1]
        cases hf : f a <;> cases hg : g a <;> simp
      · have ha' : ¬k = a := fun e => ha e.symm
        simp only [List.filter_cons, List.mem_cons, ha', false_or, h a ha]
        cases f a <;> simp <;> omega
  simpa using key (indexes n) (nodup_indexes n)

/-- Whether the record of a slot passes a test. -/
def passes (s : State) (f : Claim → Bool) (k : Slot) : Bool := (s.record k).claim.any f

theorem recordsWhere_eq (s : State) (f : Claim → Bool) : recordsWhere s f = ((indexes 48).filter (passes s f)).length := by
  unfold recordsWhere slotsWhere passes
  congr 1
  apply List.filter_congr
  intro k _
  cases (s.record k).claim <;> rfl

/-- The number of records that pass a test, when one record changes. -/
theorem recordsWhere_update {s t : State} (f : Claim → Bool) (k : Slot)
    (h : ∀ i, i ≠ k → (t.record i).claim = (s.record i).claim) :
    recordsWhere t f + (if passes s f k then 1 else 0) = recordsWhere s f + if passes t f k then 1 else 0 := by
  rw [recordsWhere_eq, recordsWhere_eq]
  exact length_filter_update (passes s f) (passes t f) k fun i hi => by simp only [passes, h i hi]

theorem recordsWhere_congr {s t : State} (f : Claim → Bool)
    (h : ∀ i, ((t.record i).claim.any f) = ((s.record i).claim.any f)) : recordsWhere t f = recordsWhere s f := by
  rw [recordsWhere_eq, recordsWhere_eq]
  congr 1
  exact List.filter_congr fun i _ => h i

/-- The counts read the rights, the scenes' in-use counts and, of the pool, who owns a record and what it draws from. -/
theorem CountsInv.congr {s t : State} (hs : CountsInv s) (h1 : ∀ p, t.right p = s.right p)
    (h2 : ∀ n, (t.scene n).inUse = (s.scene n).inUse)
    (h3 : ∀ i p, (t.record i).claim.any (ownedBy p) = (s.record i).claim.any (ownedBy p))
    (h4 : ∀ i n, (t.record i).claim.any (drawsFrom n) = (s.record i).claim.any (drawsFrom n)) : CountsInv t := by
  refine ⟨fun p => ?_, fun p => ?_, fun n => ?_⟩
  · rw [h1, recordsWhere_congr _ fun i => h3 i p]; exact hs.held p
  · rw [h1]; exact hs.quota p
  · rw [h2, recordsWhere_congr _ fun i => h4 i n]; exact hs.inUse n

theorem CountsInv.of_eq {s t : State} (hs : CountsInv s) (h1 : t.access = s.access) (h2 : t.scenes = s.scenes)
    (h3 : t.pool = s.pool) : CountsInv t :=
  hs.congr (fun p => by simp only [State.right, h1]) (fun n => by simp only [State.scene, h2])
    (fun i p => by simp only [State.record, h3]) (fun i n => by simp only [State.record, h3])

/-- A record seated in a FREE slot keeps the counts, if the quota of an owning port has room (R7, R11). -/
theorem seat_counts (k : Slot) (c : Claim) (s : State) (hs : CountsInv s) (hk : (s.record k).claim = none)
    (hq : ∀ p, c.owner = .port p → (s.right p).held + 1 ≤ (s.right p).quota.val) : CountsInv (seat k c s) := by
  have hr : ∀ i, i ≠ k → ((seat k c s).record i).claim = (s.record i).claim := fun i hi => by
    rw [seat_record, if_neg hi]
  have hc : ∀ f, recordsWhere (seat k c s) f = recordsWhere s f + if f c then 1 else 0 := fun f => by
    have := recordsWhere_update f k hr
    simpa [passes, hk, seat_record] using this
  refine ⟨fun p => ?_, fun p => ?_, fun n => ?_⟩
  · rw [seat_held, hc, hs.held p]
    simp [ownedBy]
  · rw [seat_held, (seat_kept k c s).quota p]
    split_ifs with h
    · exact hq p h
    · exact hs.quota p
  · rw [seat_scene, hc]
    simp [hs.inUse n, drawsFrom]

theorem place_counts (k : Slot) (c : Claim) (s : State) (hs : CountsInv s) (hk : (s.record k).claim = none)
    (hq : ∀ p, c.owner = .port p → (s.right p).held + 1 ≤ (s.right p).quota.val) : CountsInv (place k c s) :=
  (seat_counts k c s hs hk hq).of_eq (by simp [place]) (by simp [place]) (by simp [place])

/-- The freeing of a record keeps the counts (R6, R20, R22). -/
theorem freeRecord_counts (x : FreeCause) (k : Slot) (s : State) (hs : CountsInv s) : CountsInv (freeRecord x k s) := by
  by_cases hk : (s.record k).claim = none
  · rw [freeRecord_free x k s hk]; exact hs
  · have hr : ∀ i, i ≠ k → ((freeRecord x k s).record i).claim = (s.record i).claim := fun i hi => by
      rw [freeRecord_record, if_neg fun h => hi h.1]
    have hc : ∀ f, recordsWhere (freeRecord x k s) f = recordsWhere s f - if passes s f k then 1 else 0 := fun f => by
      have := recordsWhere_update f k hr
      have h0 : passes (freeRecord x k s) f k = false := by simp [passes, freeRecord_record, hk]
      rw [h0] at this
      simp only [Bool.false_eq_true, if_false, Nat.add_zero] at this
      omega
    refine ⟨fun p => ?_, fun p => ?_, fun n => ?_⟩
    · rw [freeRecord_held, hc, hs.held p]; rfl
    · rw [freeRecord_held, (freeRecord_kept x k s).quota p]
      exact (Nat.sub_le _ _).trans (hs.quota p)
    · rw [freeRecord_scene, hc]
      simp only [hs.inUse n]
      rfl

theorem resolveSet_counts (f : Option Handle) (e : Bool) (cs : ChannelSet) (s : State) (hs : CountsInv s) :
    CountsInv (resolveSet f e cs s) := hs.of_eq (by simp) (by simp) (by simp)

theorem freeRecords_counts (x : FreeCause) (e : Bool) (l : List Slot) (s : State) (hs : CountsInv s) :
    CountsInv (freeRecords x e l s) :=
  resolveSet_counts _ _ _ _ (forEach_preserves CountsInv _ _ (fun k s h => freeRecord_counts x k s h) s hs)

theorem settle_counts (c : Cause) (s : State) (hs : CountsInv s) : CountsInv (settle c s) :=
  hs.of_eq (by simp) (by simp) (by simp)

/-! ### Ceilings -/

/-- Ceilings hold where each record is one of before, or is new and within its owner's ceiling (R8, R194). -/
theorem CeilingsHold.of_records {s t : State} (hs : CeilingsHold s)
    (h : ∀ p, (t.right p).ceiling = (s.right p).ceiling)
    (k : ∀ i c p, (t.record i).claim = some c → c.owner = .port p →
      (∃ d, (s.record i).claim = some d ∧ d.owner = c.owner ∧ d.priority = c.priority) ∨
        c.priority ≤ (s.right p).ceiling) : CeilingsHold t := by
  intro i c p hc ho
  rw [h]
  rcases k i c p hc ho with ⟨d, hd, hd1, hd2⟩ | hle
  · exact hd2 ▸ hs i d p hd (hd1.trans ho)
  · exact hle

theorem seat_ceilings (k : Slot) (c : Claim) (s : State) (hs : CeilingsHold s)
    (hc : ∀ p, c.owner = .port p → c.priority ≤ (s.right p).ceiling) : CeilingsHold (seat k c s) :=
  hs.of_records (seat_kept k c s).ceiling fun i d p hd ho => by
    rw [seat_record] at hd
    split_ifs at hd with hi
    · cases hd
      exact Or.inr (hc p ho)
    · exact Or.inl ⟨d, hd, rfl, rfl⟩

theorem place_ceilings (k : Slot) (c : Claim) (s : State) (hs : CeilingsHold s)
    (hc : ∀ p, c.owner = .port p → c.priority ≤ (s.right p).ceiling) : CeilingsHold (place k c s) :=
  (seat_ceilings k c s hs hc).of_records (resolveSet_kept _ _ _ _).ceiling fun i d p hd _ => by
    rw [place, resolveSet_record] at hd
    exact Or.inl ⟨d, hd, rfl, rfl⟩

theorem freeRecords_claim {x : FreeCause} {e : Bool} {l : List Slot} {s : State} {i : Slot} {c : Claim}
    (h : ((freeRecords x e l s).record i).claim = some c) : (s.record i).claim = some c := by
  have key : ∀ (l : List Slot) (u : State), ((forEach l (freeRecord x) u).record i).claim = some c →
      (u.record i).claim = some c := by
    intro l
    induction l with
    | nil => intro u hu; exact hu
    | cons k l ih =>
      intro u hu
      have := ih _ hu
      rw [freeRecord_record] at this
      split_ifs at this
      exact this
  have h' : (freeRecords x e l s).record i = (forEach l (freeRecord x) s).record i := by
    simp [freeRecords, State.record]
  rw [h'] at h
  exact key l s h

theorem freeRecords_ceilings (x : FreeCause) (e : Bool) (l : List Slot) (s : State) (hs : CeilingsHold s) :
    CeilingsHold (freeRecords x e l s) :=
  hs.of_records (freeRecords_kept x e l s).ceiling fun _ d _ hd _ => Or.inl ⟨d, freeRecords_claim hd, rfl, rfl⟩

/-! ### Claim lists -/

/-- A claim list is as R28 and R29 say if it holds the live claims of its channel, and the records are read alike. -/
theorem ListInv.congr {s t : State} {ch : Channel} (hs : ListInv s ch) (h1 : (t.entry ch).list = (s.entry ch).list)
    (h2 : ∀ h, (∃ c, claimAt t h = some c ∧ inSet c.channels ch = true) ↔
      ∃ c, claimAt s h = some c ∧ inSet c.channels ch = true)
    (h3 : ∀ h ∈ (s.entry ch).list, priorityOf t h = priorityOf s h) : ListInv t ch := by
  refine ⟨fun h => ?_, h1 ▸ hs.nodup, ?_, h1 ▸ hs.depth⟩
  · rw [h1, h2]; exact hs.members h
  · rw [h1]
    exact hs.sorted.imp_of_mem fun {a b} ha hb hab => by rw [h3 a ha, h3 b hb]; exact hab

theorem ListsInv.of_eq {s t : State} (hs : ListsInv s) (h1 : ∀ ch, (t.entry ch).list = (s.entry ch).list)
    (h2 : t.pool = s.pool) : ListsInv t := fun ch =>
  (hs ch).congr (h1 ch) (fun h => by rw [claimAt_congr h2]) (fun h _ => by simp only [priorityOf, State.record, h2])

/-- Insertion at the head of a class keeps the order, whatever stood in the class (R29, R30). -/
theorem insertClass_sorted (prio : Handle → Priority) (h : Handle) (l : List Handle)
    (hl : l.Pairwise fun a b => prio b ≤ prio a) :
    (insertClass prio (prio h) h l).Pairwise fun a b => prio b ≤ prio a := by
  induction l with
  | nil => simp [insertClass]
  | cons a l ih =>
    have ha := List.pairwise_cons.mp hl
    by_cases hp : prio h < prio a
    · have : insertClass prio (prio h) h (a :: l) = a :: insertClass prio (prio h) h l := by
        simp [insertClass, hp]
      rw [this]
      refine List.pairwise_cons.mpr ⟨fun x hx => ?_, ih ha.2⟩
      rcases (mem_insertClass _ _ _ _ _).mp hx with rfl | hx
      · exact hp.le
      · exact ha.1 x hx
    · have : insertClass prio (prio h) h (a :: l) = h :: a :: l := by simp [insertClass, hp]
      rw [this]
      refine List.pairwise_cons.mpr ⟨fun x hx => ?_, hl⟩
      rcases List.mem_cons.mp hx with rfl | hx
      · exact not_lt.mp hp
      · exact (ha.1 x hx).trans (not_lt.mp hp)

theorem insertClass_nodup (prio : Handle → Priority) (p : Priority) (h : Handle) (l : List Handle) (hl : l.Nodup)
    (hn : h ∉ l) : (insertClass prio p h l).Nodup := by
  have e := List.takeWhile_append_dropWhile (p := fun x => decide (p < prio x)) (l := l)
  have : (insertClass prio p h l).Perm (h :: l) := by
    unfold insertClass
    refine List.perm_middle.trans ?_
    rw [e]
  rw [this.nodup_iff]
  exact List.nodup_cons.mpr ⟨hn, hl⟩

/-- A record seated in a FREE slot whose channels have room keeps the claim lists (R8, R11, R28 to R30). -/
theorem seat_lists (k : Slot) (c : Claim) (s : State) (hs : ListsInv s) (hk : (s.record k).claim = none)
    (hroom : ∀ ch ∈ members c.channels, (s.entry ch).list.length < listLimit) : ListsInv (seat k c s) := by
  intro ch
  have hnot : ∀ x ∈ (s.entry ch).list, x.slot ≠ k := fun x hx e => by
    obtain ⟨d, hd, -⟩ := ((hs ch).members x).mp hx
    unfold claimAt at hd
    split_ifs at hd
    rw [e, hk] at hd
    cases hd
  have hcl : ∀ x, claimAt (seat k c s) x = if x = handleAt s k then some c else claimAt s x := fun x => by
    unfold claimAt
    rw [seat_record]
    by_cases hx : x.slot = k
    · rw [if_pos hx, hx, hk]
      by_cases hg : (s.record k).gen = x.gen
      · have : x = handleAt s k := by cases x; simp_all [handleAt]
        simp [hg, this]
      · have : x ≠ handleAt s k := fun e => hg (by rw [e]; rfl)
        simp [hg, this]
    · have : x ≠ handleAt s k := fun e => hx (by rw [e]; rfl)
      simp [hx, this]
  have hpr : ∀ x, x.slot ≠ k → priorityOf (seat k c s) x = priorityOf s x := fun x hx => by
    simp only [priorityOf, seat_record, if_neg hx]
  have hpn : priorityOf (seat k c s) (handleAt s k) = c.priority := by
    simp only [priorityOf, seat_record, handleAt, if_true]
  have hfun : priorityOf (s.modRecord k fun r => { r with claim := some c }) = priorityOf (seat k c s) := by
    funext x
    simp only [priorityOf, seat_record, State.record_modRecord]
  by_cases hm : ch ∈ members c.channels
  · have hl : ((seat k c s).entry ch).list =
        insertClass (priorityOf (seat k c s)) (priorityOf (seat k c s) (handleAt s k)) (handleAt s k)
          (s.entry ch).list := by rw [seat_entry, if_pos hm, hfun, hpn]
    refine ⟨fun x => ?_, ?_, ?_, ?_⟩
    · rw [hl, mem_insertClass, hcl, (hs ch).members x]
      constructor
      · rintro (rfl | hx)
        · exact ⟨c, by simp, mem_members.mp hm⟩
        · obtain ⟨d, hd, hd2⟩ := hx
          have : x ≠ handleAt s k := fun e => hnot x (((hs ch).members x).mpr ⟨d, hd, hd2⟩) (by rw [e]; rfl)
          exact ⟨d, by simp [this, hd], hd2⟩
      · rintro ⟨d, hd, hd2⟩
        split_ifs at hd with hx
        · exact Or.inl hx
        · exact Or.inr ⟨d, hd, hd2⟩
    · rw [hl]
      exact insertClass_nodup _ _ _ _ (hs ch).nodup fun h => hnot _ h rfl
    · rw [hl]
      refine insertClass_sorted _ _ _ ((hs ch).sorted.imp_of_mem fun {a b} ha hb hab => ?_)
      rw [hpr a (hnot a ha), hpr b (hnot b hb)]
      exact hab
    · rw [hl, length_insertClass]
      exact hroom ch hm
  · refine (hs ch).congr (by rw [seat_entry, if_neg hm]) (fun x => ?_) fun x hx => hpr x (hnot x hx)
    rw [hcl]
    by_cases hx : x = handleAt s k
    · have h1 : claimAt s x = none := by rw [hx]; simp [claimAt, handleAt, hk]
      have h2 : inSet c.channels ch ≠ true := fun e => hm (mem_members.mpr e)
      rw [h1, if_pos hx]
      simp [h2]
    · simp [hx]

/-- The list of each channel after the freeing of one record (R32). -/
theorem freeRecord_list (x : FreeCause) (k : Slot) (s : State) (c : Claim) (hc : (s.record k).claim = some c)
    (ch : Channel) :
    ((freeRecord x k s).entry ch).list =
      if ch ∈ members c.channels then (s.entry ch).list.filter fun h => decide (h ≠ handleAt s k)
      else (s.entry ch).list := by
  unfold freeRecord
  dsimp only
  rw [hc]
  simp only [State.entry, playerLoss_resolver, removedNotice_resolver, lowerCounts_resolver, State.modRecord_resolver]
  rw [← State.entry, unlist_entry, ← State.entry]
  split_ifs <;> rfl

theorem freeRecord_lists (x : FreeCause) (k : Slot) (s : State) (hs : ListsInv s) : ListsInv (freeRecord x k s) := by
  cases hc : (s.record k).claim with
  | none => rw [freeRecord_free x k s hc]; exact hs
  | some c =>
    intro ch
    have hcl : ∀ h, claimAt (freeRecord x k s) h = if h.slot = k then none else claimAt s h := fun h => by
      unfold claimAt
      rw [freeRecord_record]
      by_cases hh : h.slot = k <;> simp [hh, hc]
    have hat : ∀ h d, claimAt s h = some d → h.slot = k → h = handleAt s k ∧ d = c := fun h d hd hk => by
      unfold claimAt at hd
      split_ifs at hd with hg
      rw [hk, hc] at hd
      refine ⟨?_, (Option.some.inj hd).symm⟩
      cases h
      simp_all [handleAt]
    have hpr : ∀ h, h.slot ≠ k → priorityOf (freeRecord x k s) h = priorityOf s h := fun h hh => by
      simp only [priorityOf, freeRecord_record]
      rw [if_neg fun e => hh e.1]
    by_cases hm : ch ∈ members c.channels
    · have hl := freeRecord_list x k s c hc ch
      rw [if_pos hm] at hl
      have hslot : ∀ h ∈ (s.entry ch).list, h ≠ handleAt s k → h.slot ≠ k := fun h hh hne hk => by
        obtain ⟨d, hd, -⟩ := ((hs ch).members h).mp hh
        exact hne (hat h d hd hk).1
      refine ⟨fun h => ?_, ?_, ?_, ?_⟩
      · rw [hl, List.mem_filter, hcl, (hs ch).members h]
        constructor
        · rintro ⟨⟨d, hd, hd2⟩, hne⟩
          have hk : h.slot ≠ k := hslot h (((hs ch).members h).mpr ⟨d, hd, hd2⟩) (by simpa using hne)
          exact ⟨d, by simp [hk, hd], hd2⟩
        · rintro ⟨d, hd, hd2⟩
          split_ifs at hd with hk
          exact ⟨⟨d, hd, hd2⟩, by simpa using fun e : h = handleAt s k => hk (by rw [e]; rfl)⟩
      · rw [hl]; exact (hs ch).nodup.filter _
      · rw [hl]
        refine ((hs ch).sorted.filter _).imp_of_mem fun {a b} ha hb hab => ?_
        have ha' := List.mem_filter.mp ha
        have hb' := List.mem_filter.mp hb
        rw [hpr a (hslot a ha'.1 (by simpa using ha'.2)), hpr b (hslot b hb'.1 (by simpa using hb'.2))]
        exact hab
      · rw [hl]; exact (List.length_filter_le _ _).trans (hs ch).depth
    · have hslot : ∀ h ∈ (s.entry ch).list, h.slot ≠ k := fun h hh hk => by
        obtain ⟨d, hd, hd2⟩ := ((hs ch).members h).mp hh
        exact hm (mem_members.mpr ((hat h d hd hk).2 ▸ hd2))
      refine (hs ch).congr (by rw [freeRecord_list x k s c hc ch, if_neg hm]) (fun h => ?_)
        fun h hh => hpr h (hslot h hh)
      rw [hcl]
      by_cases hk : h.slot = k
      · constructor
        · rintro ⟨d, hd, -⟩
          simp [hk] at hd
        · rintro ⟨d, hd, hd2⟩
          exact absurd (mem_members.mpr ((hat h d hd hk).2 ▸ hd2)) hm
      · simp [hk]

theorem resolveSet_lists (f : Option Handle) (e : Bool) (cs : ChannelSet) (s : State) (hs : ListsInv s) :
    ListsInv (resolveSet f e cs s) := hs.of_eq (resolveSet_list f e cs s) (by simp)

/-- A placement in a FREE slot whose channels have room keeps the claim lists (R8, R11, R28 to R30). -/
theorem place_lists (k : Slot) (c : Claim) (s : State) (hs : ListsInv s) (hk : (s.record k).claim = none)
    (hroom : ∀ ch ∈ members c.channels, (s.entry ch).list.length < listLimit) : ListsInv (place k c s) :=
  resolveSet_lists _ _ _ _ (seat_lists k c s hs hk hroom)

theorem freeRecords_lists (x : FreeCause) (e : Bool) (l : List Slot) (s : State) (hs : ListsInv s) :
    ListsInv (freeRecords x e l s) :=
  resolveSet_lists _ _ _ _ (forEach_preserves ListsInv _ _ (fun k s h => freeRecord_lists x k s h) s hs)

/-- A record whose fields change but for its channels and its priority keeps the claim lists (R16, R33). -/
theorem modRecord_lists (h : Handle) (c c' : Claim) (s : State) (hs : ListsInv s) (hc : claimAt s h = some c)
    (h1 : c'.channels = c.channels) (h2 : c'.priority = c.priority) :
    ListsInv (s.modRecord h.slot fun r => { r with claim := some c' }) := by
  have hg : (s.record h.slot).gen = h.gen ∧ (s.record h.slot).claim = some c := by
    unfold claimAt at hc
    split_ifs at hc with hg
    exact ⟨hg, hc⟩
  intro ch
  refine (hs ch).congr rfl (fun x => ?_) fun x _ => ?_
  · unfold claimAt
    rw [State.record_modRecord]
    by_cases hx : x.slot = h.slot
    · rw [if_pos hx, hx, hg.2]
      by_cases hxg : (s.record h.slot).gen = x.gen <;> simp [hxg, h1]
    · rw [if_neg hx]
  · simp only [priorityOf, State.record_modRecord]
    by_cases hx : x.slot = h.slot
    · rw [if_pos hx, hx, hg.2]
      exact h2
    · rw [if_neg hx]

/-- A record re-inserted in its lists, with a new priority or the old one, keeps the claim lists (R16, R31). -/
theorem reinsert_lists (h : Handle) (c c' : Claim) (s : State) (hs : ListsInv s) (hc : claimAt s h = some c)
    (h1 : c'.channels = c.channels) :
    ListsInv (reinsert h c' (s.modRecord h.slot fun r => { r with claim := some c' })) := by
  have hg : (s.record h.slot).gen = h.gen ∧ (s.record h.slot).claim = some c := by
    unfold claimAt at hc
    split_ifs at hc with hg
    exact ⟨hg, hc⟩
  intro ch
  generalize ht : (s.modRecord h.slot fun r => { r with claim := some c' }) = t
  have hpool : (reinsert h c' t).pool = t.pool := by simp
  have hrec : ∀ i, t.record i = if i = h.slot then { gen := h.gen, claim := some c' } else s.record i := fun i => by
    rw [← ht, State.record_modRecord]
    split_ifs
    · rw [← hg.1]
    · rfl
  have hentry : ∀ i, t.entry i = s.entry i := fun i => by rw [← ht]; rfl
  have hcl : ∀ x, claimAt (reinsert h c' t) x = if x = h then some c' else claimAt s x := fun x => by
    rw [claimAt_congr hpool]
    unfold claimAt
    rw [hrec]
    by_cases hx : x.slot = h.slot
    · rw [if_pos hx]
      by_cases hxg : h.gen = x.gen
      · have : x = h := by cases x; cases h; simp_all
        simp [this]
      · have hne : x ≠ h := fun e => hxg (by rw [e])
        have h3 : (s.record x.slot).gen ≠ x.gen := by rw [hx, hg.1]; exact hxg
        simp [hne, hxg, h3]
    · have : x ≠ h := fun e => hx (by rw [e])
      simp [hx, this]
  have hlist : ((reinsert h c' t).entry ch).list =
      if ch ∈ members c'.channels then
        insertClass (priorityOf t) c'.priority h ((s.entry ch).list.filter fun x => decide (x ≠ h))
      else (s.entry ch).list := by
    have hp : priorityOf (unlist h c' t) = priorityOf t := by
      funext x
      simp only [priorityOf, State.record, unlist_pool]
    unfold reinsert
    rw [enlist_entry, hp, unlist_entry, hentry]
    split_ifs <;> rfl
  have hfun : priorityOf (reinsert h c' t) = priorityOf t := by
    funext x
    simp only [priorityOf, State.record, hpool]
  have hself : priorityOf t h = c'.priority := by simp only [priorityOf, hrec, if_true]
  have hslot : ∀ x, x ∈ (s.entry ch).list → x ≠ h → x.slot ≠ h.slot := fun x hx hne e => by
    obtain ⟨d, hd, -⟩ := ((hs ch).members x).mp hx
    unfold claimAt at hd
    split_ifs at hd with hxg
    refine hne ?_
    have : h.gen = x.gen := by rw [← hg.1, ← e, hxg]
    cases x
    cases h
    simp_all
  have hpr : ∀ x, x.slot ≠ h.slot → priorityOf t x = priorityOf s x := fun x hx => by
    simp only [priorityOf, hrec, if_neg hx]
  by_cases hm : ch ∈ members c'.channels
  · rw [if_pos hm] at hlist
    have hmem : h ∈ (s.entry ch).list := ((hs ch).members h).mpr ⟨c, hc, h1 ▸ mem_members.mp hm⟩
    have hsorted : ((s.entry ch).list.filter fun x => decide (x ≠ h)).Pairwise
        fun a b => priorityOf t b ≤ priorityOf t a :=
      ((hs ch).sorted.filter _).imp_of_mem fun {a b} ha hb hab => by
        have ha' := List.mem_filter.mp ha
        have hb' := List.mem_filter.mp hb
        rw [hpr a (hslot a ha'.1 (by simpa using ha'.2)), hpr b (hslot b hb'.1 (by simpa using hb'.2))]
        exact hab
    have hlen : ((s.entry ch).list.filter fun x => decide (x ≠ h)).length < (s.entry ch).list.length := by
      refine List.length_filter_lt_length_iff_exists.mpr ⟨h, hmem, by simp⟩
    refine ⟨fun x => ?_, ?_, ?_, ?_⟩
    · rw [hlist, mem_insertClass, hcl, List.mem_filter, (hs ch).members x]
      by_cases hx : x = h
      · subst hx
        simp [mem_members.mp hm]
      · simp [hx]
    · rw [hlist]
      exact insertClass_nodup _ _ _ _ ((hs ch).nodup.filter _) fun e => by simpa using (List.mem_filter.mp e).2
    · rw [hlist, hfun, ← hself]
      exact insertClass_sorted _ _ _ hsorted
    · rw [hlist, length_insertClass]
      exact Nat.lt_of_lt_of_le hlen (hs ch).depth
  · rw [if_neg hm] at hlist
    have hnot : h ∉ (s.entry ch).list := fun e => by
      obtain ⟨d, hd, hd2⟩ := ((hs ch).members h).mp e
      rw [hc] at hd
      cases hd
      exact hm (mem_members.mpr (h1 ▸ hd2))
    refine (hs ch).congr hlist (fun x => ?_) fun x hx => ?_
    · rw [hcl]
      by_cases hx : x = h
      · subst hx
        have h2 : inSet c'.channels ch ≠ true := fun e => hm (mem_members.mpr e)
        rw [if_pos rfl, hc]
        simp only [Option.some.injEq, exists_eq_left', h1]
      · rw [if_neg hx]
    · rw [hfun]
      exact hpr x (hslot x hx fun e => hnot (e ▸ hx))

theorem settle_lists (c : Cause) (s : State) (hs : ListsInv s) : ListsInv (settle c s) :=
  hs.of_eq (fun ch => by simp) (by simp)

end Sys2Proof.Machine
end

