-- ==== Sys2Proof/Laws/Results.lean ====
section
/-! SUPPORT. The result registers under the shared operations, and what taking a command at a port answers. -/

namespace Sys2Proof.Machine

/-- The result registers and counters of every port stay. -/
def SameResults (s t : State) : Prop := ∀ p, ResultsKept (s.port p) (t.port p)

theorem SameResults.refl (s : State) : SameResults s s := fun _ => .refl _

theorem SameResults.trans {s t u : State} (h : SameResults s t) (k : SameResults t u) : SameResults s u :=
  fun p => (h p).trans (k p)

theorem SameResults.of_ports {s t : State} (h : t.ports = s.ports) : SameResults s t := fun p => by
  simp only [State.port, h, ResultsKept.refl]

theorem forEach_results {ι : Type} (l : List ι) (f : ι → State → State) (h : ∀ i s, SameResults s (f i s)) (s : State) :
    SameResults s (forEach l f s) := by
  induction l generalizing s with
  | nil => exact .refl s
  | cons i l ih => exact (h i s).trans (ih (f i s))

theorem offer_results (p : Port) (n : Notice) (s : State) : SameResults s (offer p n s) := fun q => by
  rw [port_offer]
  split_ifs with h
  · subst h; exact offerTo_results _ _
  · exact .refl _

theorem offerAll_results (n : Notice) (s : State) : SameResults s (offerAll n s) :=
  forEach_results _ _ (fun p s => offer_results p n s) s

theorem fireFor_results (k : WatchKind) (i : Nat) (n : Notice) (p : Port) (s : State) :
    SameResults s (fireFor k i n p s) := by
  unfold fireFor
  split_ifs
  · exact (offer_results p n s).trans (.of_ports rfl)
  · exact .refl s

theorem fireWatches_results (k : WatchKind) (i : Nat) (n : Notice) (s : State) : SameResults s (fireWatches k i n s) :=
  forEach_results _ _ (fun p s => fireFor_results k i n p s) s

theorem resolveChannel_results (f : Option Handle) (e : Bool) (ch : Channel) (s : State) :
    SameResults s (resolveChannel f e ch s) := by
  unfold resolveChannel
  dsimp only
  split_ifs
  · exact SameResults.trans (t := storeOutcome ch (chooseWinner s ch) (handOn f ch (s.entry ch) (chooseWinner s ch) s))
      (.of_ports (by simp)) (fireWatches_results _ _ _ _)
  · exact .of_ports (by simp)

theorem resolveSet_results (f : Option Handle) (e : Bool) (cs : ChannelSet) (s : State) :
    SameResults s (resolveSet f e cs s) := forEach_results _ _ (resolveChannel_results f e) s

theorem place_results (k : Slot) (c : Claim) (s : State) : SameResults s (place k c s) := by
  unfold place
  exact SameResults.trans (.of_ports (by simp)) (resolveSet_results _ _ _ _)

theorem winnerEvents_results (cs : ChannelSet) (o s : State) : SameResults s (winnerEvents cs o s) :=
  forEach_results _ _ (fun ch s => by
    split_ifs
    · exact fireWatches_results _ _ _ _
    · exact .refl s) s

theorem freeRecord_results (x : FreeCause) (k : Slot) (s : State) : SameResults s (freeRecord x k s) := by
  unfold freeRecord
  dsimp only
  split
  · exact .refl s
  · next c _ =>
    have h1 : ∀ u, SameResults u (removedNotice x (handleAt s k) c u) := fun u => by
      unfold removedNotice
      split
      · exact offer_results _ _ u
      · exact .refl u
    have h2 : ∀ u, SameResults u (playerLoss x (handleAt s k) c u) := fun u => by
      unfold playerLoss
      dsimp only
      split
      · exact .refl u
      · exact .refl u
      · split
        · exact SameResults.trans (.of_ports rfl) (offer_results _ _ _)
        · exact .of_ports rfl
    exact SameResults.trans (.of_ports (by simp)) ((h1 _).trans (h2 _))

theorem freeRecords_results (x : FreeCause) (e : Bool) (l : List Slot) (s : State) :
    SameResults s (freeRecords x e l s) :=
  (forEach_results _ _ (freeRecord_results x) s).trans (resolveSet_results _ _ _ _)

theorem enterStage_results (st : StageName) (c : Cause) (s : State) : SameResults s (enterStage st c s) :=
  SameResults.trans (.of_ports (changeStage_ports st c s)) (offerAll_results _ _)

theorem modOutput_results (f : OutputStage → OutputStage) (s : State) : SameResults s (s.modOutput f) :=
  .of_ports rfl

theorem settleStage_results (c : Cause) (s : State) : SameResults s (settleStage c s) := by
  unfold settleStage
  dsimp only
  split
  · exact (modOutput_results _ s).trans (enterStage_results _ _ _)
  · exact modOutput_results _ s

theorem cleanChannels_results (s : State) : SameResults s (cleanChannels s) := .of_ports (by simp)

theorem settle_results (c : Cause) (s : State) : SameResults s (settle c s) :=
  (settleStage_results c s).trans (cleanChannels_results _)

/-! ### Taking a command -/

theorem setResult_refused (p : Port) (code : ResultCode) (x : Nat) (s : State) (h : code ≠ .ok) :
    setResult p { code := code, handle := none, extra := x } s = refusedState p code x s := by
  simp only [setResult, refusedState, h, if_false]

theorem setResult_ok (p : Port) (h : Option Handle) (x : Nat) (s : State) :
    setResult p { code := .ok, handle := h, extra := x } s = acceptedState p h x s := rfl

theorem checkedBody_taken {p : Port} {n : Need} {s : State} (h : Taken p n s) (body : State → State × Result) :
    checkedBody p n body s = body s := by
  simp [checkedBody, h.stage, h.right]

/-- A command whose body refuses. -/
theorem takeCommand_refused {p : Port} {n : Need} {s : State} (h : Taken p n s) {body : State → State × Result}
    {code : ResultCode} {x : Nat} (hb : body s = refuse code x s) (hc : code ≠ .ok) :
    takeCommand p n body s = refusedState p code x s := by
  simp only [takeCommand, checkedBody_taken h, hb, refuse, setResult_refused p code x s hc]

/-- A command whose body is carried out. -/
theorem takeCommand_done {p : Port} {n : Need} {s u : State} (h : Taken p n s) {body : State → State × Result}
    {hd : Option Handle} {x : Nat} (hb : body s = done hd x u) : takeCommand p n body s = acceptedState p hd x u := by
  simp only [takeCommand, checkedBody_taken h, hb, done, setResult_ok]

@[simp] theorem acceptedState_port (p q : Port) (h : Option Handle) (x : Nat) (s : State) :
    (acceptedState p h x s).port q =
      if q = p then { s.port p with
        status := .ok, handle := h, extra := BitVec.ofNat 16 x, accepted := stepAccepted (s.port p).accepted }
      else s.port q := State.port_modPort s p q _

/-- A command carried out, whose effect leaves the result registers: the answer it gives. -/
theorem acceptedState_accepted {p : Port} {h : Option Handle} {x : Nat} {s u : State} (k : SameResults s u) :
    Accepted p h x s (acceptedState p h x u) where
  status := by simp
  handle := by simp
  extra := by simp
  accepted := by simp [(k p).accepted]
  refused := by simp [(k p).refused]

theorem acceptedState_others {p : Port} {h : Option Handle} {x : Nat} {s u : State} (k : SameResults s u) :
    OtherResultsKept p s (acceptedState p h x u) := fun q hq => by
  rw [acceptedState_port, if_neg hq]
  exact k q

theorem acceptedState_kept (p : Port) (h : Option Handle) (x : Nat) (s : State) : Kept s (acceptedState p h x s) := by
  rw [← setResult_ok]
  exact setResult_kept p _ s

theorem acceptedState_queue (p q : Port) (h : Option Handle) (x : Nat) (s : State) :
    ((acceptedState p h x s).port q).queue = (s.port q).queue := by
  rw [acceptedState_port]
  split_ifs with k
  · subst k; rfl
  · rfl

/-! ### The rest of the state under an answer -/

@[simp] theorem acceptedState_now (p : Port) (h : Option Handle) (x : Nat) (s : State) :
    (acceptedState p h x s).now = s.now := rfl
@[simp] theorem acceptedState_draws (p : Port) (h : Option Handle) (x : Nat) (s : State) :
    (acceptedState p h x s).draws = s.draws := rfl
@[simp] theorem acceptedState_pending (p : Port) (h : Option Handle) (x : Nat) (s : State) :
    (acceptedState p h x s).pending = s.pending := rfl
@[simp] theorem acceptedState_lts (p : Port) (h : Option Handle) (x : Nat) (s : State) :
    (acceptedState p h x s).lts = s.lts := rfl
@[simp] theorem acceptedState_address0 (p : Port) (h : Option Handle) (x : Nat) (s : State) :
    (acceptedState p h x s).address0 = s.address0 := rfl
@[simp] theorem acceptedState_address1 (p : Port) (h : Option Handle) (x : Nat) (s : State) :
    (acceptedState p h x s).address1 = s.address1 := rfl
@[simp] theorem acceptedState_access (p : Port) (h : Option Handle) (x : Nat) (s : State) :
    (acceptedState p h x s).access = s.access := rfl
@[simp] theorem acceptedState_pool (p : Port) (h : Option Handle) (x : Nat) (s : State) :
    (acceptedState p h x s).pool = s.pool := rfl
@[simp] theorem acceptedState_resolver (p : Port) (h : Option Handle) (x : Nat) (s : State) :
    (acceptedState p h x s).resolver = s.resolver := rfl
@[simp] theorem acceptedState_scenes (p : Port) (h : Option Handle) (x : Nat) (s : State) :
    (acceptedState p h x s).scenes = s.scenes := rfl
@[simp] theorem acceptedState_players (p : Port) (h : Option Handle) (x : Nat) (s : State) :
    (acceptedState p h x s).players = s.players := rfl
@[simp] theorem acceptedState_lines (p : Port) (h : Option Handle) (x : Nat) (s : State) :
    (acceptedState p h x s).lines = s.lines := rfl
@[simp] theorem acceptedState_modulator (p : Port) (h : Option Handle) (x : Nat) (s : State) :
    (acceptedState p h x s).modulator = s.modulator := rfl
@[simp] theorem acceptedState_clocks (p : Port) (h : Option Handle) (x : Nat) (s : State) :
    (acceptedState p h x s).clocks = s.clocks := rfl
@[simp] theorem acceptedState_derateCeiling (p : Port) (h : Option Handle) (x : Nat) (s : State) :
    (acceptedState p h x s).derateCeiling = s.derateCeiling := rfl
@[simp] theorem acceptedState_lampTest (p : Port) (h : Option Handle) (x : Nat) (s : State) :
    (acceptedState p h x s).lampTest = s.lampTest := rfl
@[simp] theorem acceptedState_output (p : Port) (h : Option Handle) (x : Nat) (s : State) :
    (acceptedState p h x s).output = s.output := rfl
@[simp] theorem acceptedState_outs (p : Port) (h : Option Handle) (x : Nat) (s : State) :
    (acceptedState p h x s).outs = s.outs := rfl
@[simp] theorem acceptedState_watches (p : Port) (h : Option Handle) (x : Nat) (s : State) :
    (acceptedState p h x s).watches = s.watches := rfl
@[simp] theorem acceptedState_right (p : Port) (h : Option Handle) (x : Nat) (s : State) (i : Port) :
    (acceptedState p h x s).right i = s.right i := rfl
@[simp] theorem acceptedState_record (p : Port) (h : Option Handle) (x : Nat) (s : State) (i : Slot) :
    (acceptedState p h x s).record i = s.record i := rfl
@[simp] theorem acceptedState_entry (p : Port) (h : Option Handle) (x : Nat) (s : State) (i : Channel) :
    (acceptedState p h x s).entry i = s.entry i := rfl
@[simp] theorem acceptedState_scene (p : Port) (h : Option Handle) (x : Nat) (s : State) (i : SceneNo) :
    (acceptedState p h x s).scene i = s.scene i := rfl
@[simp] theorem acceptedState_player (p : Port) (h : Option Handle) (x : Nat) (s : State) (i : PlayerNo) :
    (acceptedState p h x s).player i = s.player i := rfl
@[simp] theorem acceptedState_line (p : Port) (h : Option Handle) (x : Nat) (s : State) (i : Line) :
    (acceptedState p h x s).line i = s.line i := rfl
@[simp] theorem acceptedState_chan (p : Port) (h : Option Handle) (x : Nat) (s : State) (i : Channel) :
    (acceptedState p h x s).chan i = s.chan i := rfl
@[simp] theorem acceptedState_clock (p : Port) (h : Option Handle) (x : Nat) (s : State) (i : ClockNo) :
    (acceptedState p h x s).clock i = s.clock i := rfl
@[simp] theorem acceptedState_out (p : Port) (h : Option Handle) (x : Nat) (s : State) (i : Channel) :
    (acceptedState p h x s).out i = s.out i := rfl
@[simp] theorem acceptedState_watch (p : Port) (h : Option Handle) (x : Nat) (s : State) (i : WatchNo) :
    (acceptedState p h x s).watch i = s.watch i := rfl

end Sys2Proof.Machine
end

