-- ==== Sys2Proof/Laws/Stage.lean ====
section
/-! SUPPORT. Stage changes and the end of a taking, said once: what they make of the stage, the channels, the lamp test,
the queues and the clean intervals. -/

namespace Sys2Proof.Machine

/-! ### Clean intervals -/

/-- The clean interval of a channel as the five things now hold or not (R172). -/
def cleaned (s : State) (ch : Channel) (o : OutChannel) : OutChannel :=
  { o with
    cleanEnd :=
      if cleanHolds s ch then
        match o.cleanEnd with
        | some e => some e
        | none => some (s.now + cleanTime)
      else none }

/-- Whether the five things hold is read from the channel's fault state, enable and retry count, and the output level. -/
theorem cleanHolds_congr {s t : State} {ch : Channel} (h1 : (t.out ch).fault = (s.out ch).fault)
    (h2 : (t.out ch).enabled = (s.out ch).enabled) (h3 : (t.out ch).retry = (s.out ch).retry)
    (h4 : t.output = s.output) (h5 : t.modulator = s.modulator) (h6 : t.lines = s.lines) (h7 : t.clocks = s.clocks)
    (h8 : t.lampTest = s.lampTest) (h9 : t.derateCeiling = s.derateCeiling) (h10 : t.now = s.now) :
    cleanHolds t ch = cleanHolds s ch := by
  have hc : t.chan ch = s.chan ch := by simp only [State.chan, h5]
  have hg : gateLit t ch = gateLit s ch := by
    simp only [gateLit, hc]
    unfold gateOf
    split <;> simp only [State.line, State.clock, h6, h7]
  have ho : isOpen t ch = isOpen s ch := isOpen_of (by rw [h4]) h2 h1
  have hl : outputLevel t ch = outputLevel s ch := by
    simp only [outputLevel, testedLevel, ho, hg, hc, h4, h8, h9, h10]
  simp only [cleanHolds, h1, h2, h3, h4, hl]

theorem cleanChannel_out_ne {ch i : Channel} (h : i ≠ ch) (s : State) : (cleanChannel ch s).out i = s.out i := by
  simp [cleanChannel, State.out_modOut, h]

theorem cleanChannel_out_self (ch : Channel) (s : State) : (cleanChannel ch s).out ch = cleaned s ch (s.out ch) := by
  simp only [cleanChannel, State.out_modOut_self]
  rfl

/-- Each channel's clean interval follows its own five things. -/
theorem cleanChannels_out (s : State) (ch : Channel) : (cleanChannels s).out ch = cleaned s ch (s.out ch) := by
  unfold cleanChannels
  rw [forEach_at (fun s ch => s.out ch) cleanChannel (fun ch s => cleaned s ch (s.out ch))
    (fun i s => cleanChannel_out_self i s) (fun i j s hj => cleanChannel_out_ne hj s)
    (fun i j s hj => by
      have h := cleanChannel_out_ne hj s
      have hc : cleanHolds (cleanChannel i s) j = cleanHolds s j :=
        cleanHolds_congr (by rw [h]) (by rw [h]) (by rw [h]) rfl rfl rfl rfl rfl rfl rfl
      simp only [cleaned, h, hc]
      rfl) _ (nodup_indexes 16)]
  simp

/-- The clean intervals are all that `cleanChannels` writes. -/
theorem cleanChannels_frame (s : State) : cleanChannels s = { s with outs := (cleanChannels s).outs } := by
  unfold cleanChannels
  generalize indexes 16 = l
  induction l generalizing s with
  | nil => rfl
  | cons i l ih =>
    rw [forEach_cons, ih]
    rfl

/-! ### A stage change -/

/-- The clean intervals read afresh run only where four of the five things hold, the output level apart (R172). -/
theorem cleanChannels_inv (s : State) : CleanInv (cleanChannels s) := by
  intro ch h
  rw [cleanChannels_out] at h ⊢
  have ho : (cleanChannels s).output = s.output := by simp
  have hc : cleanHolds s ch = true := by
    by_contra hc
    simp [cleaned, hc] at h
  simp only [cleanHolds, Bool.and_eq_true, beq_iff_eq, decide_eq_true_eq] at hc
  rw [ho]
  exact ⟨hc.1.1.1.1, hc.1.1.1.2, hc.1.1.2, hc.2⟩

/-- Outside ACTIVE no clean interval runs on a state that keeps to R172. -/
theorem CleanInv.none {s : State} (h : CleanInv s) (hs : s.output.stage ≠ .active) (ch : Channel) :
    (s.out ch).cleanEnd = Option.none := by
  by_contra hc
  exact hs (h ch hc).2.2.1

/-- What the clean intervals are read from stays, and with it R172. -/
theorem CleanInv.congr {s t : State} (h : CleanInv s) (h1 : t.outs = s.outs) (h2 : t.output.stage = s.output.stage) :
    CleanInv t := fun ch hc => by
  have ho : t.out ch = s.out ch := by simp only [State.out, h1]
  rw [ho] at hc ⊢
  rw [h2]
  exact h ch hc

/-- The end of a taking leaves R172 true, whatever the taking did (R172). -/
theorem settle_cleanInv (c : Cause) (s : State) : CleanInv (settle c s) := cleanChannels_inv _

theorem offerAll_port (n : Notice) (s : State) (p : Port) : (offerAll n s).port p = offerTo n (s.port p) := by
  unfold offerAll
  rw [forEach_at (fun s p => s.port p) (fun p s => offer p n s) (fun p s => offerTo n (s.port p))
    (fun p s => by simp [port_offer]) (fun p q s h => by simp [port_offer, h])
    (fun p q s h => by simp [port_offer, h]) _ (nodup_indexes 3)]
  simp

theorem changeStage_output (st : StageName) (c : Cause) (s : State) :
    (changeStage st c s).output = s.output.enter st c s.now := by
  unfold changeStage
  dsimp only
  split_ifs <;> simp

theorem changeStage_lampTest (st : StageName) (c : Cause) (s : State) :
    (changeStage st c s).lampTest = if endsLampTest s.output.stage st then none else s.lampTest := by
  unfold changeStage
  dsimp only
  split_ifs <;> simp

theorem changeStage_out (st : StageName) (c : Cause) (s : State) (ch : Channel) :
    (changeStage st c s).out ch = if st = .latched then pauseRetry s.now (s.out ch) else s.out ch := by
  unfold changeStage
  dsimp only
  split_ifs <;> simp [State.out]

theorem changeStage_chan (st : StageName) (c : Cause) (s : State) (ch : Channel) :
    (changeStage st c s).chan ch = openOrClose (isOpen (changeStage st c s) ch) s.now (s.chan ch) := by
  unfold changeStage
  dsimp only
  rw [syncChannels_chan]
  have h : ∀ u : State, isOpen (syncChannels u) ch = isOpen u ch := fun u => isOpen_congr (by simp) (by simp)
  rw [h]
  split_ifs <;> rfl

theorem enterStage_output (st : StageName) (c : Cause) (s : State) :
    (enterStage st c s).output = s.output.enter st c s.now := by
  unfold enterStage
  rw [offerAll_output, changeStage_output]

theorem enterStage_lampTest (st : StageName) (c : Cause) (s : State) :
    (enterStage st c s).lampTest = if endsLampTest s.output.stage st then none else s.lampTest := by
  unfold enterStage
  rw [offerAll_lampTest, changeStage_lampTest]

theorem enterStage_out (st : StageName) (c : Cause) (s : State) (ch : Channel) :
    (enterStage st c s).out ch = if st = .latched then pauseRetry s.now (s.out ch) else s.out ch := by
  unfold enterStage
  rw [offerAll_out, changeStage_out]

theorem enterStage_isOpen (st : StageName) (c : Cause) (s : State) (ch : Channel) :
    isOpen (enterStage st c s) ch = isOpen (changeStage st c s) ch := by
  unfold enterStage
  exact isOpen_congr (by simp) (by simp)

theorem enterStage_chan (st : StageName) (c : Cause) (s : State) (ch : Channel) :
    (enterStage st c s).chan ch = openOrClose (isOpen (enterStage st c s) ch) s.now (s.chan ch) := by
  rw [enterStage_isOpen, ← changeStage_chan]
  unfold enterStage
  simp

theorem enterStage_port (st : StageName) (c : Cause) (s : State) (p : Port) :
    (enterStage st c s).port p = offerTo (.stage st c) (s.port p) := by
  unfold enterStage
  rw [offerAll_port]
  simp only [State.port, changeStage_ports]

/-- Pausing the retry timers leaves enable, rearm mode and retry count. -/
theorem pauseRetry_keeps (now : Instant) (o : OutChannel) :
    (pauseRetry now o).enabled = o.enabled ∧ (pauseRetry now o).manual = o.manual ∧
    (pauseRetry now o).retry = o.retry ∧ (pauseRetry now o).fault = pausedFault now o.fault ∧
    (pauseRetry now o).cleanEnd = o.cleanEnd := by
  rcases o with ⟨enabled, manual, fault, retry, cleanEnd⟩
  rcases fault with _ | ⟨k, _ | _⟩
  · exact ⟨rfl, rfl, rfl, rfl, rfl⟩
  · next t => cases t <;> exact ⟨rfl, rfl, rfl, rfl, rfl⟩
  · exact ⟨rfl, rfl, rfl, rfl, rfl⟩

/-- A channel that agrees with the stage goes on as it was. -/
theorem openOrClose_agrees {b : Bool} {now : Instant} {m : ModChannel} (h : m.fade = .parked ↔ b = false) :
    openOrClose b now m = m := by
  unfold openOrClose
  cases b
  · have := h.mpr rfl
    cases m
    simp_all
  · cases hm : m.fade <;> simp_all

/-- Opening or closing twice at one instant, closed the first time, is opening or closing once from the fade kept. -/
theorem openOrClose_twice (b : Bool) (now : Instant) (m : ModChannel) :
    openOrClose b now (openOrClose b now m) = openOrClose b now m :=
  openOrClose_agrees (openOrClose_parked b now m)

/-! ### The end of a taking -/

/-- The stage as it reads demand afresh at the end of a taking (R156, R159). -/
def settledOutput (s : State) : OutputStage := standbyDelay s.now { s.output with demand := demandNow s }

/-- A STANDBY stage may go to SOFTSTART (R157). -/
def mayStart (s : State) : Bool :=
  s.output.stage == .standby && (demandNow s && !s.output.hold && !s.output.supply.forcing)

theorem settledOutput_eq (s : State) : settledOutput s = withDemand s.now (demandNow s) s.output := by
  simp only [settledOutput, standbyDelay, withDemand, delayAfter, standbyTime]
  split_ifs <;> simp_all
  cases s.output.standbyEnd <;> rfl

theorem settledOutput_of_standby {s : State} (h : s.output.stage ≠ .active) :
    settledOutput s = { s.output with demand := demandNow s } := by
  simp [settledOutput, standbyDelay, h]

theorem settledOutput_of_active {s : State} (h : s.output.stage = .active) :
    settledOutput s = { s.output with
      demand := demandNow s, standbyEnd := delayAfter s.now s.output.standbyEnd (demandNow s) } := by
  simp only [settledOutput, standbyDelay, h, if_true, delayAfter, standbyTime]
  cases demandNow s <;> simp
  cases s.output.standbyEnd <;> rfl

theorem settleStage_cases (c : Cause) (s : State) :
    settleStage c s =
      if mayStart s then enterStage .softstart c { s with output := settledOutput s }
      else { s with output := settledOutput s } := by
  have k := standbyDelay_keeps s.now s.output (demandNow s)
  have h : ∀ o : OutputStage, o = settledOutput s → (o.stage == .standby && maySoftstart o) = mayStart s := by
    intro o ho
    subst ho
    simp only [settledOutput, maySoftstart, mayStart, k.1, k.2.1, k.2.2.2.1, k.2.2.2.2.1]
  show (if ((settledOutput s).stage == .standby && maySoftstart (settledOutput s)) = true then
      enterStage .softstart c { s with output := settledOutput s } else { s with output := settledOutput s }) = _
  rw [h _ rfl]

/-- Where the stage may not start, a taking ends with demand and the standby delay read afresh, and the clean
intervals. -/
theorem settle_stays {s : State} (c : Cause) (h : mayStart s = false) :
    settle c s = cleanChannels { s with output := settledOutput s } := by
  unfold settle
  rw [settleStage_cases, h]
  rfl

/-- Where the stage may start, a taking ends with SOFTSTART entered. -/
theorem settle_starts {s : State} (c : Cause) (h : mayStart s = true) :
    settle c s = cleanChannels (enterStage .softstart c { s with output := settledOutput s }) := by
  unfold settle
  rw [settleStage_cases, h]
  rfl

theorem demandNow_congr {s t : State} (h1 : refusesCommands t.output.stage = refusesCommands s.output.stage)
    (h2 : t.lampTest = s.lampTest) (h3 : ∀ ch, (t.out ch).enabled = (s.out ch).enabled)
    (h4 : ∀ ch, (t.out ch).fault = (s.out ch).fault) (h5 : ∀ ch, (t.entry ch).target = (s.entry ch).target) :
    demandNow t = demandNow s := by
  have : channelDemands t = channelDemands s := funext fun ch => by simp only [channelDemands, h3, h4, h5]
  simp only [demandNow, h1, h2, this]

/-- Demand past OFF and INIT: a lamp test, or an enabled READY channel with a target above 0 (R156). -/
theorem demandNow_iff (s : State) : demandNow s = true ↔
    s.output.stage ≠ .off ∧ s.output.stage ≠ .init ∧
      (s.lampTest ≠ none ∨
        ∃ ch, (s.out ch).enabled = true ∧ (s.out ch).fault = .ready ∧ 0 < (s.entry ch).target.val) := by
  have h : refusesCommands s.output.stage = false ↔ s.output.stage ≠ .off ∧ s.output.stage ≠ .init := by
    cases s.output.stage <;> simp [refusesCommands]
  simp only [demandNow, Bool.and_eq_true, Bool.not_eq_true', h, Bool.or_eq_true, List.any_eq_true, channelDemands,
    beq_iff_eq, decide_eq_true_eq, and_assoc]
  refine and_congr Iff.rfl (and_congr Iff.rfl (or_congr ?_ ?_))
  · cases s.lampTest <;> simp
  · exact ⟨fun ⟨ch, _, h⟩ => ⟨ch, h⟩, fun ⟨ch, h⟩ => ⟨ch, mem_indexes ch, h⟩⟩

theorem settle_lampTest (c : Cause) (s : State) : (settle c s).lampTest = s.lampTest := (settle_kept c s).lampTest

theorem settle_demand (c : Cause) (s : State) : (settle c s).output.demand = demandNow s := by
  have k := standbyDelay_keeps s.now s.output (demandNow s)
  by_cases h : mayStart s = true
  · rw [settle_starts c h, cleanChannels_output, enterStage_output]
    simpa [OutputStage.enter, settledOutput] using k.2.2.2.2.1
  · rw [settle_stays c (by simpa using h), cleanChannels_output]
    simpa [settledOutput] using k.2.2.2.2.1

theorem demandNow_settle (c : Cause) (s : State) : demandNow (settle c s) = demandNow s := by
  refine demandNow_congr ?_ (settle_lampTest c s) (settle_kept c s).enabled (settle_kept c s).fault (fun ch => by simp)
  rcases (settle_kept c s).stage with h | ⟨h1, h2⟩
  · rw [h]
  · rw [h1, h2]
    rfl

/-- The end of a taking whose operations have left the output stage alone (R156, R157, R159). -/
theorem settle_follows {s u : State} (h : u.output = s.output) (hn : u.now = s.now) :
    StageFollows s (settle .demand u) := by
  unfold StageFollows
  rw [demandNow_settle, ← h, ← hn]
  by_cases hm : mayStart u = true
  · have hs : u.output.stage = .standby ∧ demandNow u = true ∧ u.output.hold = false ∧
        u.output.supply.forcing = false := by
      simpa [mayStart, and_assoc] using hm
    rw [if_pos hs, settle_starts .demand hm, cleanChannels_output, enterStage_output,
      settledOutput_of_standby (by rw [hs.1]; decide), hs.2.1]
    rfl
  · have hs : ¬ (u.output.stage = .standby ∧ demandNow u = true ∧ u.output.hold = false ∧
        u.output.supply.forcing = false) := by
      simpa [mayStart, and_assoc] using hm
    rw [if_neg hs, settle_stays .demand (by simpa using hm), cleanChannels_output]
    exact settledOutput_eq u

/-- What the stage made of a taking is read from the output stage, the lamp test, the channels and the targets. -/
theorem StageFollows.congr {s t u : State} (h : StageFollows s t) (h1 : u.output = t.output)
    (h2 : u.lampTest = t.lampTest) (h3 : u.outs = t.outs) (h4 : u.resolver = t.resolver) : StageFollows s u := by
  have ho : ∀ ch, u.out ch = t.out ch := fun ch => by simp only [State.out, h3]
  have hd : demandNow u = demandNow t :=
    demandNow_congr (by rw [h1]) h2 (fun ch => by rw [ho]) (fun ch => by rw [ho]) fun ch => by
      simp only [State.entry, h4]
  unfold StageFollows
  rw [h1, hd]
  exact h

theorem StageFollows.accepted {s t : State} (h : StageFollows s t) (p : Port) (hd : Option Handle) (x : Nat) :
    StageFollows s (acceptedState p hd x t) := h.congr rfl rfl rfl rfl

/-- What the end of a taking does to a channel of the modulator: nothing, but for the PARKING of a start (R126). -/
theorem settle_chan (c : Cause) (s : State) (ch : Channel) : ChanIs (s.chan ch) s (settle c s) ch := by
  by_cases h : mayStart s = true
  · refine Or.inr ⟨?_, ?_, ?_⟩
    · simp only [mayStart, Bool.and_eq_true, beq_iff_eq] at h
      exact h.1
    · rw [settle_starts c h, cleanChannels_output, enterStage_output]
      rfl
    · rw [settle_starts c h, cleanChannels_chan, enterStage_chan]
      have : isOpen (enterStage .softstart c { s with output := settledOutput s }) ch = false := by
        simp [isOpen, enterStage_output, OutputStage.enter]
      rw [this]
      rfl
  · left
    rw [settle_stays c (by simpa using h), cleanChannels_chan]
    rfl

/-- Under the modulator's invariant, the end of a taking leaves the modulator. -/
theorem settle_chan_of_inv (c : Cause) {s : State} (hs : ModulatorInv s) (ch : Channel) :
    (settle c s).chan ch = s.chan ch := by
  rcases settle_chan c s ch with h | ⟨h1, _, h3⟩
  · exact h
  · have : (s.chan ch).fade = .parked := (hs.parked ch).mpr (by simp [isOpen, h1])
    rw [h3]
    cases hm : s.chan ch
    simp_all

end Sys2Proof.Machine
end

