-- ==== Sys2Proof/Laws/Placing.lean ====
section
/-! SUPPORT. The vocabulary of placements and freings under the shared operations: what a placement, the freeings of one
taking and a resolution leave, up to and with the end of the taking and the answer. -/

namespace Sys2Proof.Machine

/-! ### Resolution redone -/

theorem Resolved.congr {s t : State} {ch : Channel} (hs : Resolved s ch) (h : SameSources s t ch)
    (h1 : (t.entry ch).winner = (s.entry ch).winner) (h2 : (t.entry ch).target = (s.entry ch).target)
    (h3 : (t.entry ch).pattern = (s.entry ch).pattern) : Resolved t ch where
  winner := by rw [h1, chooseWinner_congr h]; exact hs.winner
  target := by rw [h2, chooseWinner_congr h, targetLevelOf_congr h]; exact hs.target
  pattern := by rw [h3, chooseWinner_congr h]; exact hs.pattern

theorem SameSources.of_eq {s t : State} (h1 : t.pool = s.pool) (h2 : t.scenes = s.scenes) (h3 : t.players = s.players)
    (h4 : t.resolver = s.resolver) (ch : Channel) : SameSources s t ch := by
  have : t.entry ch = s.entry ch := by simp only [State.entry, h4]
  exact ⟨h1, h2, h3, by rw [this], by rw [this], by rw [this]⟩

theorem resolveSet_resolved (f : Option Handle) (e : Bool) (cs : ChannelSet) (s : State) {ch : Channel}
    (h : inSet cs ch = true) : Resolved (resolveSet f e cs s) ch := by
  have hs := resolveSet_sources f e cs ch s
  have he : (resolveSet f e cs s).entry ch = resolvedEntry s ch := by rw [resolveSet_entry, if_pos (mem_members.mpr h)]
  exact ⟨by rw [he, chooseWinner_congr hs]; rfl, by rw [he, chooseWinner_congr hs, targetLevelOf_congr hs]; rfl,
    by rw [he, chooseWinner_congr hs]; rfl⟩

/-- What the modulator is handed is read from the channel as it was and from the outcome. -/
theorem handedTo_congr {f : Option Handle} {s t u : State} {ch : Channel} (h : SameSources t u ch)
    (h1 : (u.entry ch).winner = (t.entry ch).winner) (h2 : (u.entry ch).target = (t.entry ch).target)
    (h3 : (u.entry ch).pattern = (t.entry ch).pattern) : handedTo f s u ch = handedTo f s t ch := by
  simp only [handedTo, chooseWinner_congr h, h1, h2, h3]

theorem handedTo_before {f : Option Handle} {s t u : State} {ch : Channel} (h1 : u.now = s.now)
    (h2 : u.chan ch = s.chan ch) (h3 : (u.entry ch).winner = (s.entry ch).winner)
    (h4 : (u.entry ch).target = (s.entry ch).target) : handedTo f u t ch = handedTo f s t ch := by
  simp only [handedTo, h1, h2, h3, h4]

/-- A resolution hands the modulator what R44 to R47 say. -/
theorem resolveSet_handed (f : Option Handle) (e : Bool) (cs : ChannelSet) (s : State) {ch : Channel}
    (h : inSet cs ch = true) : (resolveSet f e cs s).chan ch = handedTo f s (resolveSet f e cs s) ch := by
  have hm := mem_members.mpr h
  have he : (resolveSet f e cs s).entry ch = resolvedEntry s ch := by rw [resolveSet_entry, if_pos hm]
  have hw := chooseWinner_congr (resolveSet_sources f e cs ch s)
  rw [resolveSet_chan, if_pos hm]
  simp only [handedTo, hw, he, handedChan, handOn, resolvedEntry]
  cases hc : chooseWinner s ch with
  | none =>
    simp only [isFaded, winnerFade, levelFade, Bool.false_eq_true, if_false]
    by_cases h1 : handleOfWinner none = (s.entry ch).winner <;>
      by_cases h2 : targetLevelOf s ch none = (s.entry ch).target <;> simp [h1, h2, handLevel, handPattern]
  | some e =>
    obtain ⟨x, c⟩ := e
    have hf : isFaded f (some (x, c)) = true ↔ f = some x := by
      cases f with
      | none => simp [isFaded]
      | some y => simp [isFaded]
    have hx : isFaded (some x) (some (x, c)) = true := by simp [isFaded]
    by_cases h1 : handleOfWinner (some (x, c)) = (s.entry ch).winner <;>
      by_cases h2 : f = some x <;>
      by_cases h3 : targetLevelOf s ch (some (x, c)) = (s.entry ch).target <;>
      cases hs : c.source <;>
      simp [h1, h2, h3, hf, hx, hs, handLevel, handPattern, winnerFade, levelFade]

/-- Resolution redone on a set, before the end of the taking: the stage has not moved. -/
structure Redo (faded : Option Handle) (cs : ChannelSet) (s t : State) : Prop where
  resolved : ∀ ch, inSet cs ch = true → Resolved t ch
  handed : ∀ ch, inSet cs ch = true → t.chan ch = handedTo faded s t ch
  winner : ∀ ch, inSet cs ch = false → (t.entry ch).winner = (s.entry ch).winner
  target : ∀ ch, inSet cs ch = false → (t.entry ch).target = (s.entry ch).target
  pattern : ∀ ch, inSet cs ch = false → (t.entry ch).pattern = (s.entry ch).pattern
  chan : ∀ ch, inSet cs ch = false → t.chan ch = s.chan ch
  stage : t.output.stage = s.output.stage

/-- A resolution of a set, on a state that holds what the resolver and the modulator held before the taking. -/
theorem resolveSet_redo (f : Option Handle) (e : Bool) (cs : ChannelSet) {s u : State}
    (h1 : ∀ ch, (u.entry ch).winner = (s.entry ch).winner) (h2 : ∀ ch, (u.entry ch).target = (s.entry ch).target)
    (h3 : ∀ ch, (u.entry ch).pattern = (s.entry ch).pattern) (h4 : ∀ ch, u.chan ch = s.chan ch)
    (h5 : u.output.stage = s.output.stage) (h6 : u.now = s.now) : Redo f cs s (resolveSet f e cs u) := by
  have hn : ∀ ch, inSet cs ch = false → ¬ ch ∈ members cs := fun ch h k => by
    rw [mem_members] at k; simp [h] at k
  exact
    { resolved := fun ch h => resolveSet_resolved f e cs u h
      handed := fun ch h => (resolveSet_handed f e cs u h).trans (handedTo_before h6 (h4 ch) (h1 ch) (h2 ch))
      winner := fun ch h => by rw [resolveSet_entry, if_neg (hn ch h)]; exact h1 ch
      target := fun ch h => by rw [resolveSet_entry, if_neg (hn ch h)]; exact h2 ch
      pattern := fun ch h => by rw [resolveSet_entry, if_neg (hn ch h)]; exact h3 ch
      chan := fun ch h => by rw [resolveSet_chan, if_neg (hn ch h)]; exact h4 ch
      stage := by simpa using h5 }

theorem Redo.congr {f : Option Handle} {cs : ChannelSet} {s t u : State} (h : Redo f cs s t) (h1 : u.pool = t.pool)
    (h2 : u.scenes = t.scenes) (h3 : u.players = t.players) (h4 : u.resolver = t.resolver)
    (h5 : u.modulator = t.modulator) (h6 : u.output.stage = t.output.stage) : Redo f cs s u := by
  have he : ∀ ch, u.entry ch = t.entry ch := fun ch => by simp only [State.entry, h4]
  have hc : ∀ ch, u.chan ch = t.chan ch := fun ch => by simp only [State.chan, h5]
  exact
    { resolved := fun ch k => (h.resolved ch k).congr (.of_eq h1 h2 h3 h4 ch) (by rw [he]) (by rw [he]) (by rw [he])
      handed := fun ch k => by
        rw [hc, handedTo_congr (.of_eq h1 h2 h3 h4 ch) (by rw [he]) (by rw [he]) (by rw [he])]
        exact h.handed ch k
      winner := fun ch k => by rw [he]; exact h.winner ch k
      target := fun ch k => by rw [he]; exact h.target ch k
      pattern := fun ch k => by rw [he]; exact h.pattern ch k
      chan := fun ch k => by rw [hc]; exact h.chan ch k
      stage := h6.trans h.stage }

/-- A taking that redoes no resolution. -/
theorem Redo.none {f : Option Handle} {s t : State} (h1 : t.resolver = s.resolver) (h2 : t.modulator = s.modulator)
    (h3 : t.output.stage = s.output.stage) : Redo f 0 s t := by
  have he : ∀ ch, t.entry ch = s.entry ch := fun ch => by simp only [State.entry, h1]
  exact
    { resolved := fun ch k => by simp [inSet] at k
      handed := fun ch k => by simp [inSet] at k
      winner := fun ch _ => by rw [he]
      target := fun ch _ => by rw [he]
      pattern := fun ch _ => by rw [he]
      chan := fun ch _ => by simp only [State.chan, h2]
      stage := h3 }

/-- The end of the taking after a channel's modulator has been handed what it is. -/
theorem ChanIs.settle {m : ModChannel} {s t : State} {ch : Channel} (h : t.chan ch = m)
    (hs : t.output.stage = s.output.stage) (c : Cause) : ChanIs m s (settle c t) ch := by
  rcases settle_chan c t ch with e | ⟨e1, e2, e3⟩
  · exact Or.inl (e.trans h)
  · exact Or.inr ⟨hs ▸ e1, e2, by rw [e3, h]⟩

/-- The end of the taking after a resolution. -/
theorem Redo.settle {f : Option Handle} {cs : ChannelSet} {s t : State} (h : Redo f cs s t) (c : Cause) :
    RedoneBy f cs s (settle c t) :=
  have hs : ∀ ch, SameSources t (Machine.settle c t) ch := .of_eq (by simp) (by simp) (by simp) (by simp)
  { resolved := fun ch k => (h.resolved ch k).congr (hs ch) (by simp) (by simp) (by simp)
    handed := fun ch k => by
      rw [handedTo_congr (hs ch) (by simp) (by simp) (by simp)]
      exact ChanIs.settle (h.handed ch k) h.stage c
    winner := fun ch k => by rw [settle_entry]; exact h.winner ch k
    target := fun ch k => by rw [settle_entry]; exact h.target ch k
    pattern := fun ch k => by rw [settle_entry]; exact h.pattern ch k
    modulator := fun ch k => ChanIs.settle (h.chan ch k) h.stage c }

theorem RedoneBy.accepted {f : Option Handle} {cs : ChannelSet} {s t : State} (h : RedoneBy f cs s t) (p : Port)
    (hd : Option Handle) (x : Nat) : RedoneBy f cs s (acceptedState p hd x t) :=
  have hs : ∀ ch, SameSources t (acceptedState p hd x t) ch := .of_eq rfl rfl rfl rfl
  { resolved := fun ch k => (h.resolved ch k).congr (hs ch) rfl rfl rfl
    handed := fun ch k => by
      rw [handedTo_congr (hs ch) rfl rfl rfl]
      exact h.handed ch k
    winner := h.winner
    target := h.target
    pattern := h.pattern
    modulator := h.modulator }

/-! ### Placements -/

/-- The priorities of the lists' order are read from the pool. -/
theorem priorityOf_congr {s t : State} (h : t.pool = s.pool) : priorityOf t = priorityOf s := by
  funext x
  simp only [priorityOf, State.record, h]

theorem seat_pool (k : Slot) (c : Claim) (s : State) :
    (seat k c s).pool = (s.modRecord k fun r => { r with claim := some c }).pool := by simp [seat]

/-- A placement with or without its WINNER events, before the end of the taking. -/
theorem seat_redo (e : Bool) (k : Slot) (c : Claim) (s : State) :
    Redo none c.channels s (resolveSet none e c.channels (seat k c s)) :=
  resolveSet_redo none e c.channels (fun ch => (seat_keeps k c s ch).1) (fun ch => (seat_keeps k c s ch).2.1)
    (fun ch => (seat_keeps k c s ch).2.2) (fun ch => by simp [State.chan]) (by simp) (by simp)

theorem place_redo (k : Slot) (c : Claim) (s : State) : Redo none c.channels s (place k c s) := seat_redo true k c s

/-- A record that is seated, after a taking that leaves the records, the lists, the counts and the frame. -/
theorem seat_entered {k : Slot} {c : Claim} {s t : State} (h1 : t.pool = (seat k c s).pool)
    (h2 : ∀ ch, (t.entry ch).list = ((seat k c s).entry ch).list) (h3 : t.access = (seat k c s).access)
    (h4 : t.scenes = (seat k c s).scenes) (h5 : Kept (seat k c s) t) : Entered k c s t where
  record := by
    have : t.record k = (seat k c s).record k := by simp only [State.record, h1]
    rw [this, seat_record, if_pos rfl]
  others := fun x h => by
    have : t.record x = (seat k c s).record x := by simp only [State.record, h1]
    rw [this, seat_record, if_neg h]
  listed := fun ch h => by
    rw [h2, seat_entry, if_pos (mem_members.mpr h), priorityOf_congr (h1.trans (seat_pool k c s))]
  unlisted := fun ch h => by
    have hn : ¬ ch ∈ members c.channels := fun e => by rw [mem_members] at e; simp [h] at e
    rw [h2, seat_entry, if_neg hn]
  held := fun q => by
    have : t.right q = (seat k c s).right q := by simp only [State.right, h3]
    rw [this, seat_held]
  inUse := fun n => by
    have : t.scene n = (seat k c s).scene n := by simp only [State.scene, h4]
    rw [this, seat_scene]
  levels := fun n => by
    have : t.scene n = (seat k c s).scene n := by simp only [State.scene, h4]
    rw [this, seat_scene]
  kept := (seat_kept k c s).trans h5

/-- A placement up to the end of its taking. -/
theorem place_placed (k : Slot) (c : Claim) (s : State) (cause : Cause) :
    Placed k c s (settle cause (place k c s)) :=
  have h : Entered k c s (settle cause (place k c s)) :=
    seat_entered (by simp [place]) (fun ch => by rw [settle_entry, place, resolveSet_list]) (by simp [place])
      (by simp [place]) ((resolveSet_kept _ _ _ _).trans (settle_kept cause _))
  { h with redone := (place_redo k c s).settle cause }

theorem Entered.accepted {k : Slot} {c : Claim} {s t : State} (h : Entered k c s t) (p : Port) (hd : Option Handle)
    (x : Nat) : Entered k c s (acceptedState p hd x t) where
  record := h.record
  others := h.others
  listed := fun ch k => h.listed ch k
  unlisted := h.unlisted
  held := h.held
  inUse := h.inUse
  levels := h.levels
  kept := h.kept.trans (acceptedState_kept p hd x t)

theorem Placed.accepted {k : Slot} {c : Claim} {s t : State} (h : Placed k c s t) (p : Port) (hd : Option Handle)
    (x : Nat) : Placed k c s (acceptedState p hd x t) :=
  { h.toEntered.accepted p hd x with redone := h.redone.accepted p hd x }

/-! ### Freeings -/

theorem slotPasses_any (s : State) (f : Claim → Bool) (x : Slot) : slotPasses s f x = (s.record x).claim.any f := by
  unfold slotPasses
  cases (s.record x).claim <;> rfl

/-- How many of some slots hold a claim that passes a test. -/
def passing (s : State) (f : Claim → Bool) (slots : List Slot) : Nat := (slots.filter (slotPasses s f)).length

theorem passing_cons (s : State) (f : Claim → Bool) (k : Slot) (l : List Slot) :
    passing s f (k :: l) = (if (s.record k).claim.any f then 1 else 0) + passing s f l := by
  simp only [passing, List.filter_cons, slotPasses_any]
  split_ifs <;> simp [Nat.add_comm]

/-- The freeing of one slot leaves the tests of the others. -/
theorem passing_freeRecord (x : FreeCause) (f : Claim → Bool) (k : Slot) (l : List Slot) (hk : k ∉ l) (s : State) :
    passing (freeRecord x k s) f l = passing s f l := by
  unfold passing
  congr 1
  refine List.filter_congr fun i hi => ?_
  have : i ≠ k := fun e => hk (e ▸ hi)
  simp [slotPasses_any, freeRecord_record, this]

theorem freeAll_held (x : FreeCause) (l : List Slot) (hl : l.Nodup) (s : State) (q : Port) :
    ((forEach l (freeRecord x) s).right q).held = (s.right q).held - passing s (ownedBy q) l := by
  induction l generalizing s with
  | nil => rfl
  | cons k l ih =>
    have h := List.nodup_cons.mp hl
    rw [forEach_cons, ih h.2, freeRecord_held, passing_freeRecord x _ k l h.1, passing_cons]
    omega

theorem freeAll_scene (x : FreeCause) (l : List Slot) (hl : l.Nodup) (s : State) (n : SceneNo) :
    (forEach l (freeRecord x) s).scene n =
      { s.scene n with inUse := (s.scene n).inUse - passing s (drawsFrom n) l } := by
  induction l generalizing s with
  | nil => rfl
  | cons k l ih =>
    have h := List.nodup_cons.mp hl
    rw [forEach_cons, ih h.2, freeRecord_scene, passing_freeRecord x _ k l h.1, passing_cons]
    simp only [Scene.mk.injEq, true_and]
    omega

/-- The handle of a list entry whose slot is given, where the lists hold the live claims. -/
theorem ListsInv.handle {s : State} (hs : ListsInv s) {ch : Channel} {h : Handle} (hm : h ∈ (s.entry ch).list) :
    h = handleAt s h.slot ∧ ∃ c, (s.record h.slot).claim = some c ∧ inSet c.channels ch = true := by
  obtain ⟨c, hc, hi⟩ := ((hs ch).members h).mp hm
  unfold claimAt at hc
  split_ifs at hc with hg
  exact ⟨by cases h; simp_all [handleAt], c, hc, hi⟩

theorem freeRecord_list_of_inv (x : FreeCause) (k : Slot) {s : State} (hs : ListsInv s) (ch : Channel) :
    ((freeRecord x k s).entry ch).list = (s.entry ch).list.filter fun h => decide (h.slot ≠ k) := by
  have hall : (∀ h ∈ (s.entry ch).list, h.slot ≠ k) →
      (s.entry ch).list = (s.entry ch).list.filter fun h => decide (h.slot ≠ k) := fun h =>
    (List.filter_eq_self.mpr fun y hy => by simpa using h y hy).symm
  cases hc : (s.record k).claim with
  | none =>
    rw [freeRecord_free x k s hc]
    refine hall fun h hm e => ?_
    obtain ⟨-, c, h1, -⟩ := hs.handle hm
    rw [e, hc] at h1
    cases h1
  | some c =>
    rw [freeRecord_list x k s c hc]
    split_ifs with hm
    · refine List.filter_congr fun y hy => ?_
      have := (hs.handle hy).1
      by_cases e : y.slot = k
      · have : y = handleAt s k := by rw [this, e]
        simp [this, handleAt]
      · have : y ≠ handleAt s k := fun e' => e (by rw [e']; rfl)
        simp [e, this]
    · refine hall fun h hm' e => ?_
      obtain ⟨-, d, h1, h2⟩ := hs.handle hm'
      rw [e, hc] at h1
      cases h1
      exact hm (mem_members.mpr h2)

theorem freeAll_list (x : FreeCause) (l : List Slot) {s : State} (hs : ListsInv s) (ch : Channel) :
    ((forEach l (freeRecord x) s).entry ch).list = (s.entry ch).list.filter fun h => decide (h.slot ∉ l) := by
  induction l generalizing s with
  | nil => simp
  | cons k l ih =>
    rw [forEach_cons, ih (freeRecord_lists x k s hs), freeRecord_list_of_inv x k hs, List.filter_filter]
    refine List.filter_congr fun y _ => ?_
    by_cases h1 : y.slot = k <;> by_cases h2 : y.slot ∈ l <;> simp [h1, h2]

theorem inSet_foldl {F : ChannelSet → Slot → ChannelSet} {g : Slot → Bool} {ch : Channel}
    (hF : ∀ cs i, inSet (F cs i) ch = (inSet cs ch || g i)) (l : List Slot) (a : ChannelSet) :
    inSet (l.foldl F a) ch = (inSet a ch || l.any g) := by
  induction l generalizing a with
  | nil => simp
  | cons i l ih => rw [List.foldl_cons, ih, hF, List.any_cons, Bool.or_assoc]

/-- The channels that the records of some slots cover. -/
theorem inSet_coveredBy (s : State) (l : List Slot) (ch : Channel) :
    inSet (coveredBy s l) ch = l.any fun i => (s.record i).claim.any fun c => inSet c.channels ch := by
  unfold coveredBy
  rw [inSet_foldl (g := fun i => (s.record i).claim.any fun c => inSet c.channels ch)]
  · simp [inSet]
  · intro cs i
    cases hc : (s.record i).claim <;> simp [inSet]

/-- Outside the channels it covered, the freeing of records leaves what the resolver and the modulator hold. -/
theorem freeRecord_entry_keeps (x : FreeCause) (k : Slot) (s : State) (ch : Channel) :
    ((freeRecord x k s).entry ch).winner = (s.entry ch).winner ∧
    ((freeRecord x k s).entry ch).target = (s.entry ch).target ∧
    ((freeRecord x k s).entry ch).pattern = (s.entry ch).pattern := by
  unfold freeRecord
  dsimp only
  split
  · exact ⟨rfl, rfl, rfl⟩
  · next c h =>
    simp only [State.entry, playerLoss_resolver, removedNotice_resolver, lowerCounts_resolver, State.modRecord_resolver]
    rw [← State.entry, unlist_entry, ← State.entry]
    split_ifs <;> exact ⟨rfl, rfl, rfl⟩

theorem freeAll_entry_keeps (x : FreeCause) (l : List Slot) (s : State) (ch : Channel) :
    ((forEach l (freeRecord x) s).entry ch).winner = (s.entry ch).winner ∧
    ((forEach l (freeRecord x) s).entry ch).target = (s.entry ch).target ∧
    ((forEach l (freeRecord x) s).entry ch).pattern = (s.entry ch).pattern := by
  induction l generalizing s with
  | nil => exact ⟨rfl, rfl, rfl⟩
  | cons k l ih =>
    have h := freeRecord_entry_keeps x k s ch
    have h' := ih (freeRecord x k s)
    rw [forEach_cons]
    exact ⟨h'.1.trans h.1, h'.2.1.trans h.2.1, h'.2.2.trans h.2.2⟩

theorem freeRecords_redo (x : FreeCause) (e : Bool) (l : List Slot) (s : State) :
    Redo none (coveredBy s l) s (freeRecords x e l s) :=
  resolveSet_redo none e _ (fun ch => (freeAll_entry_keeps x l s ch).1) (fun ch => (freeAll_entry_keeps x l s ch).2.1)
    (fun ch => (freeAll_entry_keeps x l s ch).2.2)
    (fun ch => forEach_keeps (fun s => s.chan ch) l (freeRecord x) (fun k s => by simp [State.chan]) s)
    (forEach_keeps (fun s => s.output.stage) l (freeRecord x) (fun k s => by simp) s)
    (forEach_keeps (fun s => s.now) l (freeRecord x) (fun k s => by simp) s)

/-- The freeings of one taking, up to the end of the taking. -/
theorem freeRecords_freed (x : FreeCause) (l : List Slot) (hl : l.Nodup) {s : State} (hs : ListsInv s) (cause : Cause) :
    Freed l s (settle cause (freeRecords x true l s)) where
  record := fun i => by
    rw [settle_record, freeRecords_record x true l hl]
    unfold freed
    by_cases h : i ∈ l <;> cases hc : (s.record i).claim <;> simp [h]
  lists := fun ch => by
    rw [settle_entry]
    unfold freeRecords
    rw [resolveSet_list, freeAll_list x l hs]
  held := fun q => by
    rw [settle_right]
    unfold freeRecords
    rw [resolveSet_right, freeAll_held x l hl]
    rfl
  inUse := fun n => by
    rw [settle_scene]
    unfold freeRecords
    rw [resolveSet_scene, freeAll_scene x l hl]
    rfl
  levels := fun n => by
    rw [settle_scene]
    unfold freeRecords
    rw [resolveSet_scene, freeAll_scene x l hl]
  redone := (freeRecords_redo x true l s).settle cause
  kept := (freeRecords_kept x true l s).trans (settle_kept cause _)

theorem Freed.accepted {l : List Slot} {s t : State} (h : Freed l s t) (p : Port) (hd : Option Handle) (x : Nat) :
    Freed l s (acceptedState p hd x t) where
  record := h.record
  lists := h.lists
  held := h.held
  inUse := h.inUse
  levels := h.levels
  redone := h.redone.accepted p hd x
  kept := h.kept.trans (acceptedState_kept p hd x t)

/-! ### Players under a freeing -/

theorem freeRecord_player (x : FreeCause) (k : Slot) (s : State) (n : PlayerNo) :
    (freeRecord x k s).player n =
      if (s.record k).claim.any (fun c => c.source == .player n) then toLoading x.emptiesQueue (s.player n)
      else s.player n := by
  unfold freeRecord
  dsimp only
  split
  · next h => simp [h]
  · next c h =>
    have hq : ∀ u v : State, u.players = v.players → u.player n = v.player n := fun u v e => by
      simp only [State.player, e]
    generalize hu : removedNotice x (handleAt s k) c
      (lowerCounts c ((unlist (handleAt s k) c s).modRecord k fun r => { gen := r.gen + 1, claim := none })) = u
    have hup : ∀ i, u.player i = s.player i := fun i => by rw [← hu]; simp [State.player]
    rw [h]
    simp only [Option.any_some]
    unfold playerLoss
    dsimp only
    split
    · next v hv => simp [hv, hup]
    · next v hv => simp [hv, hup]
    · next m hm =>
      have : (u.modPlayer m (toLoading x.emptiesQueue)).player n =
          if c.source == .player n then toLoading x.emptiesQueue (s.player n) else s.player n := by
        rw [State.player_modPlayer]
        by_cases hn : n = m
        · subst hn; simp [hm, hup]
        · have : LevelSource.player m ≠ LevelSource.player n := fun e => hn (LevelSource.player.inj e).symm
          simp [hn, hm, hup, this]
      split
      · rw [offer_player]; exact this
      · exact this

/-- A player that goes to LOADING twice has gone once. -/
theorem toLoading_twice (b : Bool) (x : Player) : toLoading b (toLoading b x) = toLoading b x := by
  cases b <;> rfl

theorem freeAll_player (x : FreeCause) (l : List Slot) (hl : l.Nodup) (s : State) (n : PlayerNo) :
    (forEach l (freeRecord x) s).player n =
      if freesPlayer s l n then toLoading x.emptiesQueue (s.player n) else s.player n := by
  induction l generalizing s with
  | nil => rfl
  | cons k l ih =>
    have h := List.nodup_cons.mp hl
    have hp : freesPlayer (freeRecord x k s) l n = freesPlayer s l n := by
      unfold freesPlayer
      refine Bool.eq_iff_iff.mpr ?_
      simp only [List.any_eq_true]
      refine exists_congr fun i => and_congr_right fun hi => ?_
      have : i ≠ k := fun e => h.1 (e ▸ hi)
      simp [slotPasses_any, freeRecord_record, this]
    rw [forEach_cons, ih h.2, hp, freeRecord_player]
    simp only [freesPlayer, List.any_cons, slotPasses_any]
    by_cases h1 : ((s.record k).claim.any fun c => c.source == .player n) = true <;>
      by_cases h2 : (l.any fun x => (s.record x).claim.any fun c => c.source == .player n) = true <;>
      simp [h1, toLoading_twice]

/-- The players after the freeings of one taking (R23, R106). -/
theorem freeRecords_player (x : FreeCause) (e : Bool) (l : List Slot) (hl : l.Nodup) (s : State) (n : PlayerNo) :
    (freeRecords x e l s).player n =
      if freesPlayer s l n then toLoading x.emptiesQueue (s.player n) else s.player n := by
  unfold freeRecords
  rw [resolveSet_player, freeAll_player x l hl]

end Sys2Proof.Machine
end

