-- ==== Sys2Proof/Laws/Notices.lean ====
section
/-! SUPPORT. What a taking queues at each port, said once: offers in order, the events that reach a port through its
watches, and the notices of resolution, of a freeing and of the stage's move (R20, R43, R48, R153, R179, R182, R186). -/

namespace Sys2Proof.Machine

/-! ### Offers in order (R182) -/

theorem offerTo_kindMask (n : Notice) (q : PortState) : (offerTo n q).kindMask = q.kindMask := by
  unfold offerTo
  split_ifs <;> rfl

@[simp] theorem offerEach_nil (q : PortState) : offerEach [] q = q := rfl

@[simp] theorem offerEach_cons (n : Notice) (ns : List Notice) (q : PortState) :
    offerEach (n :: ns) q = offerEach ns (offerTo n q) := rfl

theorem offerEach_append (ns ms : List Notice) (q : PortState) :
    offerEach (ns ++ ms) q = offerEach ms (offerEach ns q) := List.foldl_append

theorem offerEach_kindMask (ns : List Notice) (q : PortState) : (offerEach ns q).kindMask = q.kindMask := by
  induction ns generalizing q with
  | nil => rfl
  | cons n ns ih => rw [offerEach_cons, ih, offerTo_kindMask]

/-- An offer depends on the mask, the queue and the overflow flag alone. -/
theorem offerTo_congr {q r : PortState} (n : Notice) (h1 : r.queue = q.queue) (h2 : r.overflow = q.overflow)
    (h3 : r.kindMask = q.kindMask) :
    (offerTo n r).queue = (offerTo n q).queue ∧ (offerTo n r).overflow = (offerTo n q).overflow := by
  unfold offerTo
  rw [h1, h3]
  split_ifs
  · exact ⟨h1, h2⟩
  · exact ⟨rfl, rfl⟩
  · exact ⟨rfl, h2⟩

theorem offerEach_congr {q r : PortState} (ns : List Notice) (h1 : r.queue = q.queue) (h2 : r.overflow = q.overflow)
    (h3 : r.kindMask = q.kindMask) :
    (offerEach ns r).queue = (offerEach ns q).queue ∧ (offerEach ns r).overflow = (offerEach ns q).overflow := by
  induction ns generalizing q r with
  | nil => exact ⟨h1, h2⟩
  | cons n ns ih =>
    obtain ⟨k1, k2⟩ := offerTo_congr n h1 h2 h3
    exact ih k1 k2 (by rw [offerTo_kindMask, offerTo_kindMask, h3])

theorem Queued.refl (q : PortState) : Queued [] q q := ⟨rfl, rfl⟩

theorem Queued.of_eq {q r : PortState} (h1 : r.queue = q.queue) (h2 : r.overflow = q.overflow) : Queued [] q r :=
  ⟨h1, h2⟩

theorem Queued.offer (n : Notice) (q : PortState) : Queued [n] q (offerTo n q) := ⟨rfl, rfl⟩

/-- Offers after offers. -/
theorem Queued.trans {ns ms : List Notice} {q r u : PortState} (h : Queued ns q r) (k : Queued ms r u)
    (hm : r.kindMask = q.kindMask) : Queued (ns ++ ms) q u := by
  obtain ⟨c1, c2⟩ := offerEach_congr ms h.queue h.overflow (by rw [offerEach_kindMask, hm])
  exact ⟨by rw [offerEach_append, k.queue, c1], by rw [offerEach_append, k.overflow, c2]⟩

/-! ### An event at the watch table (R179) -/

/-- The entries left once those one-shot ones that cover a subject are spent. -/
def unspent (i : Nat) (ws : List Watch) : List Watch := ws.filter fun e => !(e.oneShot && covers i e)

theorem unspent_eq {i : Nat} {ws : List Watch} (h : ws.any (covers i) = false) : unspent i ws = ws := by
  refine List.filter_eq_self.mpr fun e he => ?_
  have : covers i e = false := by
    have := List.any_eq_false.mp h e he
    simpa using this
  simp [this]

/-- An entry of the table, where it is one of a port and of a kind. -/
def ownEntry (p : Port) (k : WatchKind) (w : Option Watch) : Option Watch :=
  w.filter fun e => decide (e.owner = p ∧ e.kind = k)

theorem watchesOf_eq (s : State) (p : Port) (k : WatchKind) :
    watchesOf s p k = s.watches.toList.filterMap (ownEntry p k) := by
  unfold watchesOf
  congr 1
  funext w
  cases w with
  | none => rfl
  | some e => simp [ownEntry, Option.filter]

/-- An entry matches an event at a port where it is one of that port's entries of the kind and covers the subject. -/
theorem watchMatches_eq (p : Port) (k : WatchKind) (i : Nat) (w : Option Watch) :
    watchMatches p k i w = (ownEntry p k w).any (covers i) := by
  cases w with
  | none => rfl
  | some e =>
    by_cases h : e.owner = p ∧ e.kind = k
    · simp [watchMatches, ownEntry, h, covers]
    · rcases not_and_or.mp h with h' | h' <;> simp [watchMatches, ownEntry, h']

theorem any_watchMatches (s : State) (p : Port) (k : WatchKind) (i : Nat) :
    s.watches.toList.any (watchMatches p k i) = (watchesOf s p k).any (covers i) := by
  rw [watchesOf_eq, List.any_filterMap]
  congr 1
  funext w
  rw [watchMatches_eq]
  cases ownEntry p k w <;> rfl

theorem ownEntry_spend (p : Port) (k : WatchKind) (i : Nat) (q : Port) (m : WatchKind) (w : Option Watch) :
    ownEntry q m (spendOneShot p k i w) =
      if q = p ∧ m = k then (ownEntry q m w).filter fun e => !(e.oneShot && covers i e) else ownEntry q m w := by
  cases w with
  | none => simp [spendOneShot, ownEntry]
  | some e =>
    simp only [spendOneShot, watchMatches_eq]
    by_cases ho : e.owner = q ∧ e.kind = m
    · by_cases hqk : q = p ∧ m = k
      · obtain ⟨rfl, rfl⟩ := hqk
        cases hx : e.oneShot <;> cases hc : covers i e <;> simp [ownEntry, Option.filter, ho, hx, hc]
      · have hn : ¬ (e.owner = p ∧ e.kind = k) := fun h => hqk ⟨ho.1.symm.trans h.1, ho.2.symm.trans h.2⟩
        simp only [hqk, if_false]
        have : ownEntry p k (some e) = none := by simp [ownEntry, Option.filter, hn]
        simp [this]
    · have hq : ownEntry q m (some e) = none := by simp [ownEntry, Option.filter, ho]
      split_ifs <;> simp [hq] <;> rfl

theorem watchesOf_spend (s : State) (p : Port) (k : WatchKind) (i : Nat) (q : Port) (m : WatchKind) :
    watchesOf (s.modWatches (spendOneShot p k i)) q m =
      if q = p ∧ m = k then unspent i (watchesOf s q m) else watchesOf s q m := by
  have hl : (s.modWatches (spendOneShot p k i)).watches.toList = s.watches.toList.map (spendOneShot p k i) := rfl
  have hf : ownEntry q m ∘ spendOneShot p k i = fun w =>
      if q = p ∧ m = k then (ownEntry q m w).filter fun e => !(e.oneShot && covers i e) else ownEntry q m w :=
    funext fun w => ownEntry_spend p k i q m w
  rw [watchesOf_eq, watchesOf_eq, hl, List.filterMap_map, hf]
  split_ifs
  · unfold unspent
    rw [List.filter_filterMap]
  · rfl

theorem watchesOf_congr {s t : State} (h : t.watches = s.watches) (p : Port) (k : WatchKind) :
    watchesOf t p k = watchesOf s p k := by
  unfold watchesOf
  rw [h]

theorem fireFor_port (k : WatchKind) (i : Nat) (n : Notice) (p : Port) (s : State) (q : Port) :
    (fireFor k i n p s).port q =
      if q = p ∧ (watchesOf s p k).any (covers i) = true then offerTo n (s.port q) else s.port q := by
  unfold fireFor
  rw [any_watchMatches]
  split_ifs with h1 h2 h2
  · obtain ⟨rfl, _⟩ := h2
    simp [port_offer]
  · have : q ≠ p := fun h => h2 ⟨h, h1⟩
    simp [port_offer, this]
  · exact absurd h2.2 h1
  · rfl

theorem fireFor_watchesOf (k : WatchKind) (i : Nat) (n : Notice) (p : Port) (s : State) (q : Port) (m : WatchKind) :
    watchesOf (fireFor k i n p s) q m =
      if q = p ∧ m = k then unspent i (watchesOf s q m) else watchesOf s q m := by
  unfold fireFor
  rw [any_watchMatches]
  split_ifs with h1 h2 h2
  · rw [watchesOf_spend, if_pos h2, watchesOf_congr (s := s) (by simp)]
  · rw [watchesOf_spend, if_neg h2, watchesOf_congr (s := s) (by simp)]
  · obtain ⟨rfl, rfl⟩ := h2
    exact (unspent_eq (by simpa using h1)).symm
  · rfl

/-- An event offers its notice to each port that an entry of the kind covering the subject belongs to (R179). -/
theorem fireWatches_port (k : WatchKind) (i : Nat) (n : Notice) (s : State) (p : Port) :
    (fireWatches k i n s).port p =
      if (watchesOf s p k).any (covers i) = true then offerTo n (s.port p) else s.port p := by
  have h := forEach_at (fun s p => (s.port p, watchesOf s p k)) (fireFor k i n)
    (fun p s => (if (watchesOf s p k).any (covers i) = true then offerTo n (s.port p) else s.port p,
      unspent i (watchesOf s p k)))
    (fun p s => by simp [fireFor_port, fireFor_watchesOf])
    (fun p q s h => by simp [fireFor_port, fireFor_watchesOf, h])
    (fun p q s h => by simp [fireFor_port, fireFor_watchesOf, h]) (indexes 3) (nodup_indexes 3) s p
  have := congrArg Prod.fst h
  simpa [fireWatches] using this

/-- The entries left after an event: of its kind, without the one-shot ones that cover its subject (R179). -/
theorem fireWatches_watchesOf (k : WatchKind) (i : Nat) (n : Notice) (s : State) (p : Port) (m : WatchKind) :
    watchesOf (fireWatches k i n s) p m = if m = k then unspent i (watchesOf s p m) else watchesOf s p m := by
  by_cases hm : m = k
  · subst hm
    have h := forEach_at (fun s p => watchesOf s p m) (fireFor m i n) (fun p s => unspent i (watchesOf s p m))
      (fun p s => by simp [fireFor_watchesOf])
      (fun p q s h => by simp [fireFor_watchesOf, h])
      (fun p q s h => by simp [fireFor_watchesOf, h]) (indexes 3) (nodup_indexes 3) s p
    simpa [fireWatches] using h
  · rw [if_neg hm]
    exact forEach_keeps (fun s => watchesOf s p m) _ _ (fun q s => by simp [fireFor_watchesOf, hm]) s

/-! ### Events handed one after another (R179, R186) -/

/-- One event of a sequence, at a port: it is offered where it reaches the port. -/
theorem reached_cons {m : Nat} (ws : List Watch) (i : Fin m) (l : List (Fin m)) :
    reached ws (i :: l) =
      if ws.any (covers i.val) = true then i :: reached (unspent i.val ws) l else reached (unspent i.val ws) l := rfl

/-- An event that reaches the holder is one of those handed. -/
theorem mem_of_mem_reached {m : Nat} {ws : List Watch} {l : List (Fin m)} {i : Fin m} (h : i ∈ reached ws l) : i ∈ l := by
  induction l generalizing ws with
  | nil => cases h
  | cons j l ih =>
    rw [reached_cons] at h
    split_ifs at h
    · rcases List.mem_cons.mp h with h | h
      · exact h ▸ List.mem_cons_self
      · exact List.mem_cons_of_mem _ (ih h)
    · exact List.mem_cons_of_mem _ (ih h)

/-- One event, at a port (R179). -/
theorem fireWatches_queued {m : Nat} (k : WatchKind) (i : Fin m) (note : Fin m → Notice) (s : State) (p : Port) :
    Queued ((told s p k [i]).map note) (s.port p) ((fireWatches k i.val (note i) s).port p) := by
  rw [fireWatches_port]
  unfold told
  rw [reached_cons]
  split_ifs
  · exact Queued.offer _ _
  · exact Queued.refl _

/-- A sequence of operations, each of which hands one event or none, leaves at each port the notices of the events that
reach it, in order (R179). `Inv` is what is left to be done, and what stays true while it is. -/
theorem forEach_told {m : Nat} (k : WatchKind) (note : Fin m → Notice) (P : Fin m → Bool) (f : Fin m → State → State)
    (Inv : List (Fin m) → State → Prop)
    (hstep : ∀ i l u, Inv (i :: l) u → Inv l (f i u) ∧
      (∀ p, (f i u).port p = if P i then (fireWatches k i.val (note i) u).port p else u.port p) ∧
      ∀ p x, watchesOf (f i u) p x = if P i then watchesOf (fireWatches k i.val (note i) u) p x else watchesOf u p x)
    (l : List (Fin m)) (u : State) (hu : Inv l u) (p : Port) :
    Queued ((reached (watchesOf u p k) (l.filter P)).map note) (u.port p) ((forEach l f u).port p) ∧
      ((forEach l f u).port p).kindMask = (u.port p).kindMask ∧
      ∀ x, x ≠ k → watchesOf (forEach l f u) p x = watchesOf u p x := by
  induction l generalizing u with
  | nil => exact ⟨Queued.refl _, rfl, fun _ _ => rfl⟩
  | cons i l ih =>
    obtain ⟨hi, hp, hw⟩ := hstep i l u hu
    obtain ⟨h1, h2, h3⟩ := ih (f i u) hi
    rw [forEach_cons]
    cases hP : P i with
    | false =>
      have hp' : (f i u).port p = u.port p := by rw [hp p, hP]; simp
      have hw' : ∀ x, watchesOf (f i u) p x = watchesOf u p x := fun x => by rw [hw p x, hP]; simp
      rw [List.filter_cons, hP]
      rw [hp', hw'] at h1
      exact ⟨by simpa using h1, by rw [h2, hp'], fun x hx => by rw [h3 x hx, hw']⟩
    | true =>
      have hp' := hp p
      have hw' := hw p
      simp only [hP, if_true, fireWatches_port, fireWatches_watchesOf] at hp' hw'
      rw [List.filter_cons, hP, if_pos rfl, reached_cons]
      rw [hw' k, if_pos rfl] at h1
      refine ⟨?_, ?_, fun x hx => by rw [h3 x hx, hw' x, if_neg hx]⟩
      · split_ifs with hc
        · rw [if_pos hc] at hp'
          rw [hp'] at h1
          exact (Queued.offer (note i) (u.port p)).trans h1 (offerTo_kindMask _ _)
        · rw [if_neg hc] at hp'
          rw [hp'] at h1
          exact h1
      · rw [h2, hp']
        split_ifs
        · exact offerTo_kindMask _ _
        · rfl

/-! ### Resolution (R43, R48) -/

/-- What a resolved channel shows as its winner. -/
theorem shownWinner_resolved {s t : State} {ch : Channel} (hp : t.pool = s.pool)
    (hw : (t.entry ch).winner = handleOfWinner (chooseWinner s ch)) :
    shownWinner t ch = winnerInfo (chooseWinner s ch) := by
  unfold shownWinner
  rw [hw]
  cases h : chooseWinner s ch with
  | none => rfl
  | some e =>
    obtain ⟨hd, c⟩ := e
    have hc : claimAt t hd = some c := by rw [claimAt_congr hp]; exact (chooseWinner_active h).2.1
    simp [handleOfWinner, winnerInfo, hc]

theorem storeOutcome_handOn_port (f : Option Handle) (ch : Channel) (o : ResolverEntry)
    (w : Option (Handle × Claim)) (s : State) (p : Port) :
    (storeOutcome ch w (handOn f ch o w s)).port p = s.port p := by simp [State.port]

/-- Resolution of one channel hands a WINNER event where the winner changes. -/
theorem resolveChannel_port (f : Option Handle) (ch : Channel) (s : State) (p : Port) :
    (resolveChannel f true ch s).port p =
      if handleOfWinner (chooseWinner s ch) ≠ (s.entry ch).winner then
        (fireWatches .winner ch.val (.winner ch (winnerInfo (chooseWinner s ch))) s).port p
      else s.port p := by
  unfold resolveChannel
  dsimp only
  by_cases h : handleOfWinner (chooseWinner s ch) = (s.entry ch).winner
  · simp [h, storeOutcome_handOn_port]
  · have hw : ∀ u : State, u.watches = s.watches → ∀ x, watchesOf u p x = watchesOf s p x :=
      fun u hu x => watchesOf_congr hu p x
    simp only [Bool.true_and, decide_eq_true_eq, if_pos h, winnerEvent, fireWatches_port]
    rw [hw _ (by simp), storeOutcome_handOn_port]

theorem resolveChannel_watchesOf (f : Option Handle) (ch : Channel) (s : State) (p : Port) (x : WatchKind) :
    watchesOf (resolveChannel f true ch s) p x =
      if handleOfWinner (chooseWinner s ch) ≠ (s.entry ch).winner then
        watchesOf (fireWatches .winner ch.val (.winner ch (winnerInfo (chooseWinner s ch))) s) p x
      else watchesOf s p x := by
  unfold resolveChannel
  dsimp only
  by_cases h : handleOfWinner (chooseWinner s ch) = (s.entry ch).winner
  · simp only [h, ne_eq, not_true, decide_false, Bool.and_false, if_false]
    exact watchesOf_congr (by simp) p x
  · simp only [Bool.true_and, ne_eq, h, not_false_iff, decide_true, if_true, winnerEvent, fireWatches_watchesOf]
    have : watchesOf (storeOutcome ch (chooseWinner s ch)
        (handOn f ch (s.entry ch) (chooseWinner s ch) s)) p x = watchesOf s p x := watchesOf_congr (by simp) p x
    rw [this]

/-- The WINNER notices of a resolution, at each port (R43, R48, R179). -/
theorem resolveSet_queued (f : Option Handle) (cs : ChannelSet) (s : State) (p : Port) :
    Queued (winnersTold p cs s (resolveSet f true cs s)) (s.port p) ((resolveSet f true cs s).port p) ∧
      ((resolveSet f true cs s).port p).kindMask = (s.port p).kindMask ∧
      ∀ x, x ≠ .winner → watchesOf (resolveSet f true cs s) p x = watchesOf s p x := by
  have h := forEach_told .winner (fun ch => .winner ch (winnerInfo (chooseWinner s ch)))
    (fun ch => decide (handleOfWinner (chooseWinner s ch) ≠ (s.entry ch).winner)) (resolveChannel f true)
    (fun l u => l.Nodup ∧ ∀ ch ∈ l, SameSources s u ch ∧ (u.entry ch) = (s.entry ch))
    (fun ch l u hu => by
      obtain ⟨hn, hl⟩ := hu
      have hc := hl ch List.mem_cons_self
      refine ⟨⟨(List.nodup_cons.mp hn).2, fun i hi => ?_⟩, fun q => ?_, fun q x => ?_⟩
      · have hne : i ≠ ch := fun e => (List.nodup_cons.mp hn).1 (e ▸ hi)
        obtain ⟨k1, k2⟩ := hl i (List.mem_cons_of_mem _ hi)
        have r := resolveChannel_sources f true ch i u
        exact ⟨⟨r.pool.trans k1.pool, r.scenes.trans k1.scenes, r.players.trans k1.players, r.list.trans k1.list,
          r.policy.trans k1.policy, r.idle.trans k1.idle⟩, by rw [resolveChannel_entry_ne f true hne, k2]⟩
      · rw [resolveChannel_port, chooseWinner_congr hc.1, hc.2]
        simp
      · rw [resolveChannel_watchesOf, chooseWinner_congr hc.1, hc.2]
        simp)
    (members cs) s ⟨nodup_members cs, fun ch _ => ⟨SameSources.of_eq rfl rfl rfl rfl ch, rfl⟩⟩ p
  refine ⟨?_, h.2⟩
  have hw : ∀ ch ∈ members cs,
      ((resolveSet f true cs s).entry ch).winner = handleOfWinner (chooseWinner s ch) := fun ch hm => by
    rw [resolveSet_entry, if_pos hm]
    rfl
  have hfil : (members cs).filter
      (fun ch => decide (((resolveSet f true cs s).entry ch).winner ≠ (s.entry ch).winner)) =
      (members cs).filter fun ch => decide (handleOfWinner (chooseWinner s ch) ≠ (s.entry ch).winner) :=
    List.filter_congr fun ch hm => by rw [hw ch hm]
  have hnotes : winnersTold p cs s (resolveSet f true cs s) =
      (reached (watchesOf s p .winner)
        ((members cs).filter fun ch => decide (handleOfWinner (chooseWinner s ch) ≠ (s.entry ch).winner))).map
        fun ch => .winner ch (winnerInfo (chooseWinner s ch)) := by
    unfold winnersTold told changedWinners
    rw [hfil]
    refine List.map_congr_left fun ch hch => ?_
    have hm : ch ∈ members cs := List.mem_of_mem_filter (mem_of_mem_reached hch)
    rw [shownWinner_resolved (s := s) (by simp) (hw ch hm)]
  rw [hnotes]
  exact h.1

/-! ### The stage's move (R153, R157) -/

/-- A taking's end queues the STAGE notice of the stage's move, and nothing else. -/
theorem settle_queued (c : Cause) (s : State) (p : Port) :
    Queued (stageTold s (settle c s)) (s.port p) ((settle c s).port p) := by
  have hk := standbyDelay_keeps s.now s.output (demandNow s)
  by_cases h : mayStart s = true
  · have hs : s.output.stage = .standby := by
      simp only [mayStart, Bool.and_eq_true, beq_iff_eq] at h
      exact h.1
    have ho : (settle c s).output.stage = .softstart ∧ (settle c s).output.lastCause = c := by
      rw [settle_starts c h, cleanChannels_output, enterStage_output]
      exact ⟨rfl, rfl⟩
    have hp : (settle c s).port p = offerTo (.stage .softstart c) (s.port p) := by
      rw [settle_starts c h]
      simp only [State.port, cleanChannels_ports]
      exact enterStage_port _ _ _ p
    unfold stageTold
    rw [ho.1, ho.2, hs, hp]
    exact Queued.offer _ _
  · have h' : mayStart s = false := by simpa using h
    have ho : (settle c s).output.stage = s.output.stage := by
      rw [settle_stays c h', cleanChannels_output]
      exact hk.2.2.2.1
    have hp : (settle c s).port p = s.port p := by
      rw [settle_stays c h']
      simp [State.port]
    unfold stageTold
    rw [ho, if_pos rfl, hp]
    exact Queued.refl _

/-- A taking that queues some notices, then redoes resolution on a set, then lets the stage move (R21, R186). -/
theorem announced_settle {p : Port} {ns : List Notice} {s u : State} (f : Option Handle) (cs : ChannelSet) (c : Cause)
    (hq : Queued ns (s.port p) (u.port p)) (hm : (u.port p).kindMask = (s.port p).kindMask)
    (hw : watchesOf u p .winner = watchesOf s p .winner)
    (he : ∀ ch, (u.entry ch).winner = (s.entry ch).winner) (ho : u.output.stage = s.output.stage) :
    Announced p ns cs s (settle c (resolveSet f true cs u)) := by
  obtain ⟨h1, h2, _⟩ := resolveSet_queued f cs u p
  have h3 := settle_queued c (resolveSet f true cs u) p
  have hwin : winnersTold p cs u (resolveSet f true cs u) =
      winnersTold p cs s (settle c (resolveSet f true cs u)) := by
    have hs : ∀ ch, shownWinner (settle c (resolveSet f true cs u)) ch = shownWinner (resolveSet f true cs u) ch :=
      fun ch => by
        unfold shownWinner
        simp only [State.entry, settle_resolver]
        split
        · rfl
        · rw [claimAt_congr (settle_pool c _)]
    have hfe : ∀ ch, ((settle c (resolveSet f true cs u)).entry ch).winner =
        ((resolveSet f true cs u).entry ch).winner := fun ch => by simp only [State.entry, settle_resolver]
    simp only [winnersTold, changedWinners, told, hw, he, hs, hfe]
  have hst : stageTold (resolveSet f true cs u) (settle c (resolveSet f true cs u)) =
      stageTold s (settle c (resolveSet f true cs u)) := by
    unfold stageTold
    rw [show (resolveSet f true cs u).output.stage = s.output.stage by rw [resolveSet_output, ho]]
  rw [hwin] at h1
  rw [hst] at h3
  exact (hq.trans h1 hm).trans h3 (by rw [h2, hm])

/-- A taking that queues some notices, then hands the WINNER events of the winners it has changed, then lets the stage
move (R43, R48, R186). -/
theorem winnerEvents_announced {p : Port} {ns : List Notice} {s u : State} (cs : ChannelSet) (c : Cause)
    (hq : Queued ns (s.port p) (u.port p)) (hm : (u.port p).kindMask = (s.port p).kindMask)
    (hw : watchesOf u p .winner = watchesOf s p .winner)
    (hr : ∀ ch ∈ members cs, (u.entry ch).winner = handleOfWinner (chooseWinner u ch))
    (ho : u.output.stage = s.output.stage) : Announced p ns cs s (settle c (winnerEvents cs s u)) := by
  obtain ⟨h1, h2, -⟩ := forEach_told .winner (fun ch => .winner ch (winnerInfo (chooseWinner u ch)))
    (fun ch => decide ((u.entry ch).winner ≠ (s.entry ch).winner))
    (fun ch v => if (v.entry ch).winner ≠ (s.entry ch).winner then winnerEvent ch (chooseWinner v ch) v else v)
    (fun _ v => v.pool = u.pool ∧ v.scenes = u.scenes ∧ v.players = u.players ∧ v.resolver = u.resolver)
    (fun ch l v ⟨k1, k2, k3, k4⟩ => by
      have he : v.entry ch = u.entry ch := by simp only [State.entry, k4]
      have hc : chooseWinner v ch = chooseWinner u ch := chooseWinner_congr (.of_eq k1 k2 k3 k4 ch)
      by_cases hd : (u.entry ch).winner = (s.entry ch).winner
      · simp [he, hd, k1, k2, k3, k4]
      · simp [he, hd, hc, k1, k2, k3, k4, winnerEvent])
    (members cs) u ⟨rfl, rfl, rfl, rfl⟩ p
  have h3 := settle_queued c (winnerEvents cs s u) p
  have hs : ∀ ch, shownWinner (settle c (winnerEvents cs s u)) ch = shownWinner u ch := fun ch => by
    unfold shownWinner
    simp only [State.entry, settle_resolver, winnerEvents_resolver]
    split
    · rfl
    · rw [claimAt_congr (s := u) (by simp)]
  have hwin : (reached (watchesOf u p .winner)
      ((members cs).filter fun ch => decide ((u.entry ch).winner ≠ (s.entry ch).winner))).map
        (fun ch => Notice.winner ch (winnerInfo (chooseWinner u ch))) =
      winnersTold p cs s (settle c (winnerEvents cs s u)) := by
    have hfe : ∀ ch, ((settle c (winnerEvents cs s u)).entry ch).winner = (u.entry ch).winner := fun ch => by
      simp only [State.entry, settle_resolver, winnerEvents_resolver]
    simp only [winnersTold, changedWinners, told, hw, hfe]
    refine List.map_congr_left fun ch hch => ?_
    have hmem : ch ∈ members cs := List.mem_of_mem_filter (mem_of_mem_reached hch)
    rw [hs, shownWinner_resolved rfl (hr ch hmem)]
  have hst : stageTold (winnerEvents cs s u) (settle c (winnerEvents cs s u)) =
      stageTold s (settle c (winnerEvents cs s u)) := by
    unfold stageTold
    rw [show (winnerEvents cs s u).output.stage = s.output.stage by rw [winnerEvents_output, ho]]
  rw [hwin] at h1
  rw [hst] at h3
  exact (hq.trans h1 hm).trans h3 (h2.trans hm)

/-! ### Freeings (R20, R21, R23) -/

/-- The notices of one freeing, at a port. -/
theorem freeRecord_queued {x : FreeCause} {r : RemovalReason} {d : PlayerDetail} (hr : x.reason = some r)
    (hd : x.playerDetail = some d) (slot : Slot) (s : State) (p : Port) :
    (freeRecord x slot s).port p = offerEach (removalsTold p r d [slot] s) (s.port p) := by
  unfold freeRecord removalsTold
  cases hc : (s.record slot).claim with
  | none => simp [hc]
  | some c =>
    have hbase : ∀ h, (lowerCounts c ((unlist h c s).modRecord slot fun r => { gen := r.gen + 1, claim := none })).port
        = s.port := fun h => by funext q; simp [State.port]
    have hpl : ∀ h n, (removedNotice x h c (lowerCounts c ((unlist h c s).modRecord slot fun r =>
        { gen := r.gen + 1, claim := none }))).player n = s.player n := fun h n => by simp [State.player]
    simp only [List.flatMap_cons, List.flatMap_nil, List.append_nil, hc, offerEach_append]
    generalize hb : lowerCounts c ((unlist (handleAt s slot) c s).modRecord slot fun r =>
      { gen := r.gen + 1, claim := none }) = b
    have hbp : b.port = s.port := by rw [← hb]; exact hbase _
    have hbn : ∀ n, (removedNotice x (handleAt s slot) c b).player n = s.player n := by rw [← hb]; exact hpl _
    have h1 : (removedNotice x (handleAt s slot) c b).port p = offerEach
        (if c.owner = .port p then [.claimRemoved (lowest c.channels) (handleAt s slot) p c.tag r] else [])
        (s.port p) := by
      unfold removedNotice
      rw [hr]
      cases ho : c.owner with
      | line l => simp [hbp]
      | port q =>
        by_cases hq : q = p
        · subst hq
          simp [port_offer, hbp]
        · have : p ≠ q := fun e => hq e.symm
          simp [port_offer, this, hbp, hq]
    rw [← h1]
    unfold playerLoss
    cases hsrc : c.source with
    | fixed v => rfl
    | scene n => rfl
    | player n =>
      simp only [hbn, hd]
      cases hh : (s.player n).holder with
      | none => simp
      | some q =>
        by_cases hq : q = p
        · subst hq
          simp [port_offer]
        · have : p ≠ q := fun e => hq e.symm
          simp [port_offer, this, hq]

theorem removalsTold_cons (p : Port) (r : RemovalReason) (d : PlayerDetail) (slot : Slot) (l : List Slot) (s : State) :
    removalsTold p r d (slot :: l) s = removalsTold p r d [slot] s ++ removalsTold p r d l s := by
  simp [removalsTold]

/-- The notices of a freeing depend on the records freed and on the players' holders. -/
theorem removalsTold_congr {p : Port} {r : RemovalReason} {d : PlayerDetail} {l : List Slot} {s t : State}
    (h : ∀ x ∈ l, t.record x = s.record x) (k : ∀ n, (t.player n).holder = (s.player n).holder) :
    removalsTold p r d l t = removalsTold p r d l s := by
  unfold removalsTold
  refine List.flatMap_congr fun x hx => ?_
  simp only [h x hx, handleAt, k]

theorem freeRecord_holder (x : FreeCause) (slot : Slot) (s : State) (n : PlayerNo) :
    ((freeRecord x slot s).player n).holder = (s.player n).holder := by
  rw [freeRecord_player]
  split_ifs <;> rfl

/-- The notices of the freeings of one taking, at a port (R20, R21). -/
theorem freeAll_queued {x : FreeCause} {r : RemovalReason} {d : PlayerDetail} (hr : x.reason = some r)
    (hd : x.playerDetail = some d) (l : List Slot) (hl : l.Nodup) (s : State) (p : Port) :
    (forEach l (freeRecord x) s).port p = offerEach (removalsTold p r d l s) (s.port p) := by
  induction l generalizing s with
  | nil => rfl
  | cons i l ih =>
    have hi := List.nodup_cons.mp hl
    rw [forEach_cons, ih hi.2, removalsTold_cons, offerEach_append, freeRecord_queued hr hd]
    congr 1
    exact removalsTold_congr (fun j hj => by
      rw [freeRecord_record]
      have : j ≠ i := fun e => hi.1 (e ▸ hj)
      simp [this]) (freeRecord_holder x i s)

/-- A freeing whose cause has no notice queues none. -/
theorem freeRecord_silent {x : FreeCause} (hr : x.reason = none) (hd : x.playerDetail = none) (slot : Slot) (s : State) :
    (freeRecord x slot s).ports = s.ports := by
  have h1 : ∀ h c u, (removedNotice x h c u).ports = u.ports := fun h c u => by
    unfold removedNotice
    rw [hr]
    split
    · next h => cases h
    · rfl
  have h2 : ∀ h c u, (playerLoss x h c u).ports = u.ports := fun h c u => by
    unfold playerLoss
    rw [hd]
    cases c.source with
    | fixed v => rfl
    | scene n => rfl
    | player n =>
      dsimp only
      split
      · next h => cases h
      · rfl
  unfold freeRecord
  cases (s.record slot).claim with
  | none => rfl
  | some c => simp [h1, h2]

/-- What a freeing queues at a port: the notices of the records, the WINNER notices, the stage's move (R20, R21, R48). -/
theorem freeRecords_announced {x : FreeCause} {r : RemovalReason} {d : PlayerDetail} (hr : x.reason = some r)
    (hd : x.playerDetail = some d) (l : List Slot) (hl : l.Nodup) (s : State) (c : Cause) (p : Port) :
    Announced p (removalsTold p r d l s) (coveredBy s l) s (settle c (freeRecords x true l s)) := by
  have hp := freeAll_queued hr hd l hl s p
  refine announced_settle none _ c ⟨by rw [hp], by rw [hp]⟩ (by rw [hp, offerEach_kindMask]) ?_ ?_ ?_
  · exact watchesOf_congr (forEach_keeps (fun s => s.watches) _ _ (fun i s => by simp) s) p _
  · intro ch
    exact (freeAll_entry_keeps x l s ch).1
  · exact congrArg OutputStage.stage (forEach_keeps (fun s => s.output) _ _ (fun i s => by simp) s)

/-- What a freeing without notices of its own queues at a port (R19, R20, R23). -/
theorem freeRecords_announced_silent {x : FreeCause} (hr : x.reason = none) (hd : x.playerDetail = none) (l : List Slot)
    (s : State) (c : Cause) (p : Port) :
    Announced p [] (coveredBy s l) s (settle c (freeRecords x true l s)) := by
  have hp : (forEach l (freeRecord x) s).port p = s.port p :=
    congrArg (fun v => tget v p) (forEach_keeps (fun s => s.ports) _ _ (fun i s => freeRecord_silent hr hd i s) s)
  refine announced_settle none _ c (by rw [hp]; exact Queued.refl _) (by rw [hp]) ?_ ?_ ?_
  · exact watchesOf_congr (forEach_keeps (fun s => s.watches) _ _ (fun i s => by simp) s) p _
  · intro ch
    exact (freeAll_entry_keeps x l s ch).1
  · exact congrArg OutputStage.stage (forEach_keeps (fun s => s.output) _ _ (fun i s => by simp) s)

end Sys2Proof.Machine
end

