-- ==== Sys2Proof/Laws/Smooth.lean ====
section
/-! SUPPORT. The SMOOTH progress of a fade against the cosine it stands for (R128, log 11): the error of the series, of
its roundings and of the constant, to within 2^-56. -/

namespace Sys2Proof.Machine

/-- The series of (1 - cos x)/2 that the model evaluates, over the reals. -/
noncomputable def realSeries (z : ℝ) : List Nat → ℝ
  | [] => 1
  | d :: ds => 1 - z * realSeries z ds / d

/-- The nested series stays between 0 and 1. -/
theorem realSeries_bounds (z : ℝ) (hz : 0 ≤ z) (h3 : z ≤ 3) :
    ∀ l : List Nat, (∀ d ∈ l, 12 ≤ d) → 0 ≤ realSeries z l ∧ realSeries z l ≤ 1
  | [], _ => by simp [realSeries]
  | d :: ds, h => by
    have hd : (12 : ℝ) ≤ d := by exact_mod_cast h d (by simp)
    obtain ⟨h0, h1⟩ := realSeries_bounds z hz h3 ds fun e he => h e (by simp [he])
    have hp : 0 ≤ z * realSeries z ds := by positivity
    have hq : z * realSeries z ds ≤ 3 := by nlinarith
    have hdiv : z * realSeries z ds / d ≤ 1 := by rw [div_le_one (by linarith)]; linarith
    have hdiv0 : 0 ≤ z * realSeries z ds / d := by positivity
    simp only [realSeries]
    constructor <;> linarith

/-- A quotient of natural numbers is the real one, rounded down. -/
theorem floor_close (a b : Nat) (hb : 0 < b) :
    (a : ℝ) / b - 1 < ((a / b : Nat) : ℝ) ∧ ((a / b : Nat) : ℝ) ≤ (a : ℝ) / b := by
  have := Nat.floor_div_eq_div (K := ℝ) a b
  rw [← this]
  exact ⟨Nat.sub_one_lt_floor _, Nat.floor_le (by positivity)⟩

/-- The rounded series is the real one, to within 4 units of 2^-64. -/
theorem cosSeries_close (z : Nat) (Z : ℝ) (hZ : 0 ≤ Z) (h3 : Z ≤ 3)
    (hz : |(z : ℝ) - 2 ^ 64 * Z| ≤ 8) (hz3 : z ≤ 3 * 2 ^ 64) :
    ∀ l : List Nat, (∀ d ∈ l, 12 ≤ d) →
      cosSeries z l ≤ 2 ^ 64 ∧ |(cosSeries z l : ℝ) - 2 ^ 64 * realSeries Z l| ≤ 4
  | [], _ => by norm_num [cosSeries, realSeries, progressOne]
  | d :: ds, h => by
    have hd : 12 ≤ d := h d (by simp)
    have hdR : (12 : ℝ) ≤ d := by exact_mod_cast hd
    obtain ⟨hle, hclose⟩ := cosSeries_close z Z hZ h3 hz hz3 ds fun e he => h e (by simp [he])
    obtain ⟨hr0, hr1⟩ := realSeries_bounds Z hZ h3 ds fun e he => h e (by simp [he])
    have hq : z * cosSeries z ds / (2 ^ 64 * d) ≤ 2 ^ 64 := by
      apply Nat.div_le_of_le_mul
      calc z * cosSeries z ds ≤ 3 * 2 ^ 64 * 2 ^ 64 := Nat.mul_le_mul hz3 hle
        _ ≤ 2 ^ 64 * 12 * 2 ^ 64 := by norm_num
        _ ≤ 2 ^ 64 * d * 2 ^ 64 := Nat.mul_le_mul_right _ (Nat.mul_le_mul_left _ hd)
    obtain ⟨hf0, hf1⟩ := floor_close (z * cosSeries z ds) (2 ^ 64 * d) (by positivity)
    refine ⟨by simp [cosSeries, progressOne], ?_⟩
    have hcast : (cosSeries z (d :: ds) : ℝ) = 2 ^ 64 - ((z * cosSeries z ds / (2 ^ 64 * d) : Nat) : ℝ) := by
      simp only [cosSeries, progressOne]
      rw [Nat.cast_sub hq]
      norm_num
    have hcle : (cosSeries z ds : ℝ) ≤ 2 ^ 64 := by exact_mod_cast hle
    set c : ℝ := (cosSeries z ds : ℝ) with hc
    set R := realSeries Z ds with hR
    have hc0 : 0 ≤ c := by positivity
    have key : |(z : ℝ) * c / (2 ^ 64 * d) - 2 ^ 64 * (Z * R / d)| ≤ 2 := by
      have hdpos : (0 : ℝ) < d := by linarith
      have : (z : ℝ) * c / (2 ^ 64 * d) - 2 ^ 64 * (Z * R / d)
          = (((z : ℝ) - 2 ^ 64 * Z) * c / 2 ^ 64 + Z * (c - 2 ^ 64 * R)) / d := by
        field_simp
        ring
      rw [this, abs_div, abs_of_pos hdpos, div_le_iff₀ hdpos]
      have h1 : |((z : ℝ) - 2 ^ 64 * Z) * c / 2 ^ 64| ≤ 8 := by
        rw [mul_div_assoc, abs_mul, abs_of_nonneg (show 0 ≤ c / 2 ^ 64 by positivity)]
        have : c / 2 ^ 64 ≤ 1 := by rw [div_le_one (by positivity)]; exact hcle
        calc _ ≤ (8 : ℝ) * 1 := mul_le_mul hz this (by positivity) (by norm_num)
          _ = 8 := by norm_num
      have h2 : |Z * (c - 2 ^ 64 * R)| ≤ 12 := by
        rw [abs_mul, abs_of_nonneg hZ]
        calc _ ≤ (3 : ℝ) * 4 := mul_le_mul h3 hclose (abs_nonneg _) (by norm_num)
          _ = 12 := by norm_num
      calc _ ≤ |((z : ℝ) - 2 ^ 64 * Z) * c / 2 ^ 64| + |Z * (c - 2 ^ 64 * R)| := abs_add_le _ _
        _ ≤ 8 + 12 := add_le_add h1 h2
        _ ≤ 2 * d := by linarith
    push_cast at hf0 hf1
    rw [hcast]
    simp only [realSeries, ← hR]
    rw [abs_le] at key ⊢
    constructor <;> linarith [key.1, key.2]

/-- The model's constant is π² in units of 2^-64, to within 4 of them (log 11). -/
theorem piSquared_close : |(piSquared : ℝ) - 2 ^ 64 * Real.pi ^ 2| ≤ 4 := by
  have h1 := Real.pi_gt_d20
  have h2 := Real.pi_lt_d20
  have hlo : (3.14159265358979323846 : ℝ) ^ 2 ≤ Real.pi ^ 2 := by
    apply pow_le_pow_left₀ (by norm_num) h1.le
  have hhi : Real.pi ^ 2 ≤ (3.14159265358979323847 : ℝ) ^ 2 := by
    apply pow_le_pow_left₀ (by positivity) h2.le
  rw [abs_le]
  simp only [piSquared]
  norm_num at hlo hhi ⊢
  constructor <;> linarith

/-- The real part of the series of exp (x i). -/
theorem expSum_re (x : ℝ) (n : ℕ) :
    (∑ m ∈ Finset.range (2 * n), ((x : ℂ) * Complex.I) ^ m / (m.factorial : ℂ)).re =
      ∑ k ∈ Finset.range n, (-1) ^ k * x ^ (2 * k) / ((2 * k).factorial : ℝ) := by
  induction n with
  | zero => simp
  | succ n ih =>
    have h0 : ((x : ℂ) * Complex.I) ^ (2 * n) / ((2 * n).factorial : ℂ) =
        (((-1) ^ n * x ^ (2 * n) / ((2 * n).factorial : ℝ) : ℝ) : ℂ) := by
      rw [mul_pow, pow_mul Complex.I, Complex.I_sq]
      push_cast
      ring
    have h1 : ((x : ℂ) * Complex.I) ^ (2 * n + 1) / ((2 * n + 1).factorial : ℂ) =
        (((-1) ^ n * x ^ (2 * n + 1) / ((2 * n + 1).factorial : ℝ) : ℝ) : ℂ) * Complex.I := by
      rw [mul_pow, pow_succ Complex.I, pow_mul Complex.I, Complex.I_sq]
      push_cast
      ring
    rw [show 2 * (n + 1) = 2 * n + 1 + 1 by ring, Finset.sum_range_succ, Finset.sum_range_succ, Complex.add_re,
      Complex.add_re, ih, h0, h1, Finset.sum_range_succ, Complex.ofReal_re, Complex.re_ofReal_mul, Complex.I_re]
    ring

/-- The real series cut after thirteen terms, against the cosine. -/
theorem cos_taylor (x : ℝ) (h0 : 0 ≤ x) (h2 : x ≤ 2) :
    |x ^ 2 / 4 * realSeries (x ^ 2) cosDivisors - (1 - Real.cos x) / 2| ≤ 1 / 2 ^ 60 := by
  have hb := Complex.exp_bound' (x := (x : ℂ) * Complex.I) (n := 28) (by
    simp [abs_of_nonneg h0]; norm_num; linarith)
  have hre := (Complex.abs_re_le_norm _).trans hb
  have hsum : (Complex.exp ((x : ℂ) * Complex.I) -
      ∑ m ∈ Finset.range 28, ((x : ℂ) * Complex.I) ^ m / (m.factorial : ℂ)).re
      = Real.cos x - (1 - x ^ 2 / 2 * realSeries (x ^ 2) cosDivisors) := by
    have hc : (Complex.exp ((x : ℂ) * Complex.I)).re = Real.cos x := Complex.exp_ofReal_mul_I_re x
    rw [Complex.sub_re, hc, expSum_re x 14]
    congr 1
    simp only [Finset.sum_range_succ, Finset.sum_range_zero, realSeries, cosDivisors, Nat.factorial]
    push_cast
    ring
  rw [hsum] at hre
  have hn : ‖(x : ℂ) * Complex.I‖ = x := by simp [abs_of_nonneg h0]
  rw [hn] at hre
  have hp : x ^ 28 ≤ 2 ^ 28 := pow_le_pow_left₀ h0 h2 28
  have hfin : x ^ 28 / (Nat.factorial 28 : ℝ) * 2 ≤ 1 / 2 ^ 60 := by
    have : (Nat.factorial 28 : ℝ) = 304888344611713860501504000000 := by norm_num [Nat.factorial]
    rw [this]
    norm_num at hp ⊢
    linarith
  rw [abs_le] at hre ⊢
  constructor <;> linarith [hre.1, hre.2]

theorem cosDivisors_large : ∀ d ∈ cosDivisors, 12 ≤ d := by decide

/-- The rising half of SMOOTH progress, in units of 2^-64, is the exact one to within 32 of them. -/
theorem risingProgress_close (t d : Nat) (hd : 0 < d) (ht : 2 * t ≤ d) :
    |(risingProgress t d : ℝ) - 2 ^ 64 * ((1 - Real.cos (Real.pi * t / d)) / 2)| ≤ 32 := by
  have hdR : (0 : ℝ) < d := by exact_mod_cast hd
  have htR : 2 * (t : ℝ) ≤ d := by exact_mod_cast ht
  set q : ℝ := (t : ℝ) / d with hq
  have hq0 : 0 ≤ q := by positivity
  have hq1 : q ≤ 1 / 2 := by rw [hq, div_le_div_iff₀ hdR (by norm_num)]; linarith
  set x : ℝ := Real.pi * q with hx
  have hxe : Real.pi * t / d = x := by rw [hx, hq]; ring
  have hx0 : 0 ≤ x := by positivity
  have hpi := Real.pi_lt_d2
  have hx2 : x ≤ 1.575 := by
    calc x ≤ 3.15 * (1 / 2) := mul_le_mul hpi.le hq1 hq0 (by norm_num)
      _ = 1.575 := by norm_num
  have hZ0 : 0 ≤ x ^ 2 := by positivity
  have hZ3 : x ^ 2 ≤ 2.5 := by nlinarith
  set z : Nat := piSquared * (t * t) / (d * d) with hz
  obtain ⟨hz0, hz1⟩ := floor_close (piSquared * (t * t)) (d * d) (by positivity)
  rw [← hz] at hz0 hz1
  have hzq : ((piSquared * (t * t) : Nat) : ℝ) / ((d * d : Nat) : ℝ) = piSquared * q ^ 2 := by
    push_cast
    rw [hq]
    field_simp
  rw [hzq] at hz0 hz1
  have hpc := piSquared_close
  have hq2 : q ^ 2 ≤ 1 / 4 := by nlinarith
  have hmul : |(piSquared : ℝ) * q ^ 2 - 2 ^ 64 * x ^ 2| ≤ 1 := by
    have : (piSquared : ℝ) * q ^ 2 - 2 ^ 64 * x ^ 2 = (piSquared - 2 ^ 64 * Real.pi ^ 2) * q ^ 2 := by rw [hx]; ring
    rw [this, abs_mul, abs_of_nonneg (by positivity : 0 ≤ q ^ 2)]
    calc _ ≤ (4 : ℝ) * (1 / 4) := mul_le_mul hpc hq2 (by positivity) (by norm_num)
      _ = 1 := by norm_num
  have hzc : |(z : ℝ) - 2 ^ 64 * x ^ 2| ≤ 2 := by
    rw [abs_le] at hmul ⊢
    constructor <;> linarith [hmul.1, hmul.2]
  have hz3 : z ≤ 3 * 2 ^ 64 := by
    have : (z : ℝ) ≤ 3 * 2 ^ 64 := by
      rw [abs_le] at hzc
      have := hzc.2
      linarith
    exact_mod_cast this
  obtain ⟨hcle, hcc⟩ := cosSeries_close z (x ^ 2) hZ0 (by linarith) (by linarith) hz3 cosDivisors
    cosDivisors_large
  obtain ⟨hr0, hr1⟩ := realSeries_bounds (x ^ 2) hZ0 (by linarith) cosDivisors cosDivisors_large
  have hcR : (cosSeries z cosDivisors : ℝ) ≤ 2 ^ 64 := by exact_mod_cast hcle
  have htay := cos_taylor x hx0 (by linarith)
  have hr : risingProgress t d = z * cosSeries z cosDivisors / (2 ^ 64 * 4) := rfl
  obtain ⟨hf0, hf1⟩ := floor_close (z * cosSeries z cosDivisors) (2 ^ 64 * 4) (by norm_num)
  rw [← hr] at hf0 hf1
  push_cast at hf0 hf1
  set c : ℝ := (cosSeries z cosDivisors : ℝ)
  set R := realSeries (x ^ 2) cosDivisors
  have hc0 : 0 ≤ c := by positivity
  have key : |(z : ℝ) * c / (2 ^ 64 * 4) - 2 ^ 64 * (x ^ 2 / 4 * R)| ≤ 8 := by
    have : (z : ℝ) * c / (2 ^ 64 * 4) - 2 ^ 64 * (x ^ 2 / 4 * R)
        = (((z : ℝ) - 2 ^ 64 * x ^ 2) * (c / 2 ^ 64) + x ^ 2 * (c - 2 ^ 64 * R)) / 4 := by
      field_simp
      ring
    have h1 : |((z : ℝ) - 2 ^ 64 * x ^ 2) * (c / 2 ^ 64)| ≤ 2 * 1 := by
      rw [abs_mul, abs_of_nonneg (show 0 ≤ c / 2 ^ 64 by positivity)]
      exact mul_le_mul hzc (by rw [div_le_one (by positivity)]; exact hcR) (by positivity) (by norm_num)
    have h2 : |x ^ 2 * (c - 2 ^ 64 * R)| ≤ 3 * 4 := by
      rw [abs_mul, abs_of_nonneg hZ0]
      exact mul_le_mul (by linarith) hcc (abs_nonneg _) (by norm_num)
    rw [this, abs_div, abs_of_pos (by norm_num : (0 : ℝ) < 4), div_le_iff₀ (by norm_num)]
    calc _ ≤ _ := abs_add_le _ _
      _ ≤ 2 * 1 + 3 * 4 := add_le_add h1 h2
      _ ≤ 8 * 4 := by norm_num
  have hscale : |2 ^ 64 * (x ^ 2 / 4 * R) - 2 ^ 64 * ((1 - Real.cos x) / 2)| ≤ 16 := by
    rw [← mul_sub, abs_mul, abs_of_pos (by positivity)]
    calc _ ≤ (2 : ℝ) ^ 64 * (1 / 2 ^ 60) := mul_le_mul_of_nonneg_left htay (by positivity)
      _ = 16 := by norm_num
  rw [hxe]
  rw [abs_le] at key hscale ⊢
  constructor <;> linarith [key.1, key.2, hscale.1, hscale.2]

/-- The rising half of SMOOTH progress is at most one. -/
theorem risingProgress_le (t d : Nat) (hd : 0 < d) (ht : 2 * t ≤ d) : risingProgress t d ≤ progressOne := by
  have hc := (abs_le.mp (risingProgress_close t d hd ht)).2
  have hdR : (0 : ℝ) < d := by exact_mod_cast hd
  have h0 : 0 ≤ Real.cos (Real.pi * t / d) := by
    apply Real.cos_nonneg_of_neg_pi_div_two_le_of_le
    · have : 0 ≤ Real.pi * t / d := by positivity
      linarith [Real.pi_pos]
    · rw [mul_div_assoc]
      have : (t : ℝ) / d ≤ 1 / 2 := by
        rw [div_le_div_iff₀ hdR (by norm_num)]
        have : 2 * (t : ℝ) ≤ d := by exact_mod_cast ht
        linarith
      nlinarith [Real.pi_pos]
  have : (risingProgress t d : ℝ) ≤ 2 ^ 64 := by linarith
  exact_mod_cast this

/-- The SMOOTH progress of a fade is at most one. -/
theorem smoothProgress_le (t d : Nat) (ht : t < d) : smoothProgress t d ≤ progressOne := by
  unfold smoothProgress
  split
  · exact risingProgress_le t d (by omega) (by omega)
  · split
    · exact Nat.div_le_self _ _
    · exact Nat.sub_le _ _

/-- The SMOOTH progress at the middle of a fade is one half (R128). -/
theorem smoothProgress_middle (t d : Nat) (h : 2 * t = d) : smoothProgress t d = 2 ^ 63 := by
  simp [smoothProgress, h, progressOne]

/-- The SMOOTH progress of a fade, in units of 2^-64, is (1 - cos (π t / D)) / 2 to within 2^-56 (R128, log 11). -/
theorem smoothProgress_close (t d : Nat) (ht : t < d) :
    |(smoothProgress t d : ℝ) / 2 ^ 64 - (1 - Real.cos (Real.pi * t / d)) / 2| ≤ 1 / 2 ^ 56 := by
  have hd : 0 < d := by omega
  have hdR : (0 : ℝ) < d := by exact_mod_cast hd
  have shift : ∀ a b : ℝ, |a - 2 ^ 64 * b| ≤ 32 → |a / 2 ^ 64 - b| ≤ 1 / 2 ^ 56 := by
    intro a b h
    have : a / 2 ^ 64 - b = (a - 2 ^ 64 * b) / 2 ^ 64 := by field_simp
    rw [this, abs_div, abs_of_pos (by positivity : (0 : ℝ) < 2 ^ 64), div_le_iff₀ (by positivity)]
    norm_num at h ⊢
    linarith
  unfold smoothProgress
  split
  · exact shift _ _ (risingProgress_close t d hd (by omega))
  · split
    · rename_i h
      have : Real.pi * t / d = Real.pi / 2 := by
        have : (d : ℝ) = 2 * t := by exact_mod_cast h.symm
        have ht0 : (t : ℝ) ≠ 0 := by
          intro h0
          rw [this, h0] at hdR
          norm_num at hdR
        rw [this]
        field_simp
      rw [this, Real.cos_pi_div_two]
      norm_num [progressOne]
    · have hc := risingProgress_close (d - t) d hd (by omega)
      have hcos : Real.cos (Real.pi * ((d - t : Nat) : ℝ) / d) = - Real.cos (Real.pi * t / d) := by
        rw [Nat.cast_sub ht.le, ← Real.cos_pi_sub]
        congr 1
        field_simp
      rw [hcos] at hc
      have hle := risingProgress_le (d - t) d hd (by omega)
      apply shift
      rw [Nat.cast_sub hle]
      have hp : (progressOne : ℝ) = 2 ^ 64 := by norm_num [progressOne]
      rw [hp]
      rw [abs_le] at hc ⊢
      constructor <;> linarith [hc.1, hc.2]

end Sys2Proof.Machine
end

