-- ==== Sys2Proof/Laws/Timed.lean ====
section
/-! SUPPORT. Timed events that are not due, the counters of a port, the level of a fade, and the two ways a player's queue
runs on. -/

namespace Sys2Proof.Machine

/-! ### Timed events that are not due (log 4) -/

/-- An event of the output stage, the lamp test or a channel that is not due changes nothing. -/
theorem stageEvent_not_due (s : State) :
    (dueAt s.output.initEnd s.now = false → exec .initIntervalEnd s = .next s) ∧
    (dueAt s.output.softEnd s.now = false → exec .softstartIntervalEnd s = .next s) ∧
    (dueAt s.output.standbyEnd s.now = false → exec .standbyDelayExpiry s = .next s) ∧
    (dueAt s.output.activeEnd s.now = false → exec .activeDurationTimerEnd s = .next s) ∧
    (dueAt s.output.recoveryEnd s.now = false → exec .recoveryIntervalEnd s = .next s) ∧
    (dueAt s.lampTest s.now = false → exec .lampTestExpiry s = .next s) := by
  simp +contextual [exec, execInitIntervalEnd, initEnds, execSoftstartIntervalEnd, softstartEnds,
    execStandbyDelayExpiry, standbyExpires, execActiveDurationTimerEnd, activeTimerEnds, execRecoveryIntervalEnd,
    recoveryEnds, execLampTestExpiry, lampTestExpires]

/-- An event of a channel that is not due changes nothing. -/
theorem channelEvent_not_due (ch : Channel) (s : State) :
    (dueAt (retryEnd? (s.out ch)) s.now = false → exec (.retryTimerEnd ch) s = .next s) ∧
    (dueAt (s.out ch).cleanEnd s.now = false → exec (.cleanIntervalEnd ch) s = .next s) ∧
    (dueAt (fadeEnd? (s.chan ch)) s.now = false → exec (.fadeCompletion ch) s = .next s) := by
  simp +contextual [exec, execRetryTimerEnd, retryEnds, execCleanIntervalEnd, cleanEnds, execFadeCompletion,
    fadeCompletes]

theorem leaseExpiry_not_due (x : Slot) (s : State) (h : dueAt (leaseEnd? s x) s.now = false) :
    exec (.leaseExpiry x) s = .next s := by simp [exec, execLeaseExpiry, leaseExpires, h]

theorem clockHalfEnd_not_due (k : ClockNo) (s : State) (h : dueAt (s.clock k).ends s.now = false) :
    exec (.clockHalfEnd k) s = .next s := by simp [exec, execClockHalfEnd, clockHalfEnds, h]

/-- An event of a player that is not due changes nothing. -/
theorem playerEvent_not_due (n : PlayerNo) (s : State) :
    (dueAt (rampEnd? (s.player n)) s.now = false → exec (.rampUpdate n) s = .next s) ∧
    (dueAt (stepEnd? (s.player n)) s.now = false → exec (.stepCompletion n) s = .next s) := by
  simp +contextual [exec, execRampUpdate, rampUpdates, execStepCompletion, stepCompletes]

/-- An event of a line that is not due changes nothing. -/
theorem lineEvent_not_due (l : Line) (s : State) :
    (dueAt (s.line l).filterEnd s.now = false → exec (.filterIntervalEnd l) s = .next s) ∧
    (dueAt (s.line l).stretchEnd s.now = false → exec (.stretchEnd l) s = .next s) := by
  simp +contextual [exec, execFilterIntervalEnd, filterEnds, execStretchEnd, stretchEnds]

/-! ### Counters (R192) -/

theorem stepAccepted_val (n : Fin 10000) : (stepAccepted n).val = if n.val = 9999 then 0 else n.val + 1 := by
  unfold stepAccepted
  rw [Fin.val_add]
  have := n.isLt
  split <;> simp <;> omega

theorem stepRefused_val (n : Fin 256) : (stepRefused n).val = if n.val = 255 then 255 else n.val + 1 := by
  unfold stepRefused
  have := n.isLt
  by_cases h : n = 255
  · subst h; rfl
  · have h' : n.val ≠ 255 := fun e => h (Fin.ext e)
    rw [if_neg h, if_neg h', Fin.val_add]
    simp; omega

/-! ### Fade levels (R126, R127, R129) -/

/-- The value part-way up, while the fraction is at most one. -/
theorem partWay_up {a b : Level} {n d : Nat} (hab : a ≤ b) (hd : 0 < d) (hn : n ≤ d) :
    (partWay a b n d).val = a.val + (b.val - a.val) * n / d := by
  have hle : (b.val - a.val) * n / d ≤ b.val - a.val := by
    rw [Nat.div_le_iff_le_mul_add_pred hd]
    calc (b.val - a.val) * n ≤ (b.val - a.val) * d := Nat.mul_le_mul_left _ hn
      _ ≤ d * (b.val - a.val) + (d - 1) := by rw [Nat.mul_comm]; omega
  have hv : a.val ≤ b.val := hab
  have hb := b.isLt
  simp only [partWay, hv, if_true, toLevel, Fin.val_ofNat]
  exact Nat.mod_eq_of_lt (by omega)

/-- The value part-way down. -/
theorem partWay_down {a b : Level} {n d : Nat} (hab : b ≤ a) :
    (partWay a b n d).val = a.val - (a.val - b.val) * n / d := by
  have hv : b.val ≤ a.val := hab
  have ha := a.isLt
  unfold partWay toLevel
  split
  · next h =>
    have : a.val - b.val = 0 := by omega
    have h' : b.val - a.val = 0 := by omega
    simp only [this, h', Nat.zero_mul, Nat.zero_div, Nat.add_zero, Nat.sub_zero, Fin.val_ofNat]
    exact Nat.mod_eq_of_lt ha
  · simp only [Fin.val_ofNat]
    exact Nat.mod_eq_of_lt (Nat.lt_of_le_of_lt (Nat.sub_le _ _) ha)

theorem fadeLevel_parked {m : ModChannel} {now : Instant} (h : m.fade = .parked) : fadeLevel m now = 0 := by
  simp [fadeLevel, h]

theorem fadeLevel_settled {m : ModChannel} {now : Instant} (h : m.fade = .settled) : fadeLevel m now = m.target := by
  simp [fadeLevel, h]

theorem fadeLevel_ended {m : ModChannel} {now start : Instant} {origin : Level} {d : Nat} {shape : Shape}
    (h : m.fade = .fading origin d start shape) (hd : start + d ≤ now) : fadeLevel m now = m.target := by
  have hle : d ≤ now - start := Nat.le_sub_of_add_le (Nat.add_comm start d ▸ hd)
  simp [fadeLevel, h, hle]

theorem fadeLevel_running {m : ModChannel} {now start : Instant} {origin : Level} {d : Nat} {shape : Shape}
    (h : m.fade = .fading origin d start shape) (hd : now < start + d) (hs : start ≤ now) :
    fadeLevel m now = fadeAt shape origin m.target (now - start) d := by
  have hlt : ¬ d ≤ now - start := Nat.not_le.mpr (Nat.sub_lt_left_of_lt_add hs hd)
  simp [fadeLevel, h, hlt]

/-! ### A player's queue (R89, R90) -/

/-- A queue whose head takes time begins that step and stops there. -/
theorem runQueue_begins {n : PlayerNo} {s : State} {st : PlayerStep} {rest : List PlayerStep}
    (h : (s.player n).queue = st :: rest) (ht : st.zeroTime = false) : runQueue n s = beginStep n s := by
  simp [runQueue, runSteps, h, ht]

/-- An empty queue finishes or starves the player. -/
theorem runQueue_empty {n : PlayerNo} {s : State} (h : (s.player n).queue = []) :
    runQueue n s = if (s.player n).streamComplete then finishPlayer n s else starve n s := by
  simp [runQueue, runSteps, h]

/-- A level that was handed last is not handed again. -/
theorem handPlayerLevel_same {e : Bool} {n : PlayerNo} {s : State}
    (h : (s.player n).level = (s.player n).lastHanded) : handPlayerLevel e n s = s := by
  simp [handPlayerLevel, h]

end Sys2Proof.Machine
end

