-- ==== Sys2Proof/Laws/Watches.lean ====
section
/-! SUPPORT. What events leave of the watch table: each matching one-shot entry is freed, and nothing else (R179). -/

namespace Sys2Proof.Machine

/-! ### Entries spent by events -/

@[simp] theorem spentBy_nil {m : Nat} (k : WatchKind) (w : Option Watch) : spentBy (m := m) k [] w = w := by
  cases w <;> simp [spentBy, Option.filter]

@[simp] theorem spentBy_none {m : Nat} (k : WatchKind) (l : List (Fin m)) : spentBy k l none = none := rfl

/-- Events one after another spend what each spends. -/
theorem spentBy_append {m : Nat} (k : WatchKind) (l l' : List (Fin m)) (w : Option Watch) :
    spentBy k (l ++ l') w = spentBy k l' (spentBy k l w) := by
  cases w with
  | none => rfl
  | some e =>
    cases hk : decide (e.kind = k) <;> cases ho : e.oneShot <;> cases hl : l.any (fun i => covers i.val e) <;>
      simp [spentBy, Option.filter, hk, ho, hl]

theorem spentBy_cons {m : Nat} (k : WatchKind) (i : Fin m) (l : List (Fin m)) (w : Option Watch) :
    spentBy k (i :: l) w = spentBy k l (spentBy k [i] w) := spentBy_append k [i] l w

/-! ### One event -/

/-- At one port an event spends that port's matching one-shot entries. -/
theorem fireFor_watch (k : WatchKind) (i : Nat) (n : Notice) (p : Port) (s : State) (w : WatchNo) :
    (fireFor k i n p s).watch w = spendOneShot p k i (s.watch w) := by
  unfold fireFor
  split_ifs with h
  · simp [State.watch, State.modWatches]
  · have hn : watchMatches p k i (s.watch w) = false := by
      by_contra hc
      refine h (List.any_eq_true.mpr ⟨s.watch w, ?_, by simpa using hc⟩)
      simp [State.watch, tget]
    cases hw : s.watch w with
    | none => rfl
    | some e => simp [spendOneShot, ← hw, hn]

/-- An event frees the matching one-shot entries of every port, and no other entry (R179). -/
theorem fireWatches_watch {m : Nat} (k : WatchKind) (i : Fin m) (n : Notice) (s : State) (w : WatchNo) :
    (fireWatches k i.val n s).watch w = spentBy k [i] (s.watch w) := by
  have h : (fireWatches k i.val n s).watch w =
      spendOneShot 2 k i.val (spendOneShot 1 k i.val (spendOneShot 0 k i.val (s.watch w))) := by
    show (fireFor k i.val n 2 (fireFor k i.val n 1 (fireFor k i.val n 0 s))).watch w = _
    rw [fireFor_watch, fireFor_watch, fireFor_watch]
  rw [h]
  cases s.watch w with
  | none => rfl
  | some e =>
    rcases e with ⟨owner, kind, lo, hi, oneShot⟩
    fin_cases owner <;> by_cases hk : kind = k <;> cases oneShot <;> by_cases hl : lo.val ≤ i.val <;>
      by_cases hh : i.val ≤ hi.val <;> simp [spendOneShot, watchMatches, spentBy, covers, Option.filter, hk, hl, hh]

/-! ### A sequence of events -/

/-- A sequence of operations, each of which hands one event or none, spends what those events match (R179). `Inv` is what
is left to be done, and what stays true while it is. -/
theorem forEach_spent {m : Nat} (k : WatchKind) (P : Fin m → Bool) (f : Fin m → State → State)
    (Inv : List (Fin m) → State → Prop)
    (hstep : ∀ i l u, Inv (i :: l) u → Inv l (f i u) ∧
      ∀ w, (f i u).watch w = if P i then spentBy k [i] (u.watch w) else u.watch w)
    (l : List (Fin m)) (u : State) (hu : Inv l u) (w : WatchNo) :
    (forEach l f u).watch w = spentBy k (l.filter P) (u.watch w) := by
  induction l generalizing u with
  | nil => exact (spentBy_nil k _).symm
  | cons i l ih =>
    obtain ⟨hi, hw⟩ := hstep i l u hu
    rw [forEach_cons, ih (f i u) hi, hw, List.filter_cons]
    split_ifs
    · exact (spentBy_cons k i _ _).symm
    · rfl

/-- Resolution of one channel spends what its WINNER event matches, where the winner changes (R43, R48). -/
theorem resolveChannel_watch (f : Option Handle) (ch : Channel) (s : State) (w : WatchNo) :
    (resolveChannel f true ch s).watch w =
      if handleOfWinner (chooseWinner s ch) ≠ (s.entry ch).winner then spentBy .winner [ch] (s.watch w)
      else s.watch w := by
  unfold resolveChannel
  dsimp only
  by_cases h : handleOfWinner (chooseWinner s ch) = (s.entry ch).winner
  · simp [h, State.watch]
  · simp only [Bool.true_and, ne_eq, h, not_false_iff, decide_true, if_true, winnerEvent, fireWatches_watch]
    simp [State.watch]

/-- Resolution spends what the WINNER events of the winners it changes match (R43, R48, R179). -/
theorem resolveSet_spends (f : Option Handle) (cs : ChannelSet) (s : State) :
    WinnersSpend cs s (resolveSet f true cs s) := by
  intro w
  have h := forEach_spent .winner (fun ch => decide (handleOfWinner (chooseWinner s ch) ≠ (s.entry ch).winner))
    (resolveChannel f true) (fun l u => l.Nodup ∧ ∀ ch ∈ l, SameSources s u ch ∧ u.entry ch = s.entry ch)
    (fun ch l u hu => by
      obtain ⟨hn, hl⟩ := hu
      have hc := hl ch List.mem_cons_self
      refine ⟨⟨(List.nodup_cons.mp hn).2, fun i hi => ?_⟩, fun w => ?_⟩
      · have hne : i ≠ ch := fun e => (List.nodup_cons.mp hn).1 (e ▸ hi)
        obtain ⟨k1, k2⟩ := hl i (List.mem_cons_of_mem _ hi)
        have r := resolveChannel_sources f true ch i u
        exact ⟨⟨r.pool.trans k1.pool, r.scenes.trans k1.scenes, r.players.trans k1.players, r.list.trans k1.list,
          r.policy.trans k1.policy, r.idle.trans k1.idle⟩, by rw [resolveChannel_entry_ne f true hne, k2]⟩
      · rw [resolveChannel_watch, chooseWinner_congr hc.1, hc.2]
        simp)
    (members cs) s ⟨nodup_members cs, fun ch _ => ⟨SameSources.of_eq rfl rfl rfl rfl ch, rfl⟩⟩ w
  have hfil : changedWinners cs s (resolveSet f true cs s) =
      (members cs).filter fun ch => decide (handleOfWinner (chooseWinner s ch) ≠ (s.entry ch).winner) :=
    List.filter_congr fun ch hm => by
      rw [resolveSet_entry, if_pos hm]
      rfl
  rw [hfil]
  exact h

/-- WINNER events handed at the end of a taking spend what they match (R43, R48, R179). -/
theorem winnerEvents_spends (cs : ChannelSet) (s u : State) (w : WatchNo) :
    (winnerEvents cs s u).watch w = spentBy .winner (changedWinners cs s u) (u.watch w) :=
  forEach_spent .winner (fun ch => decide ((u.entry ch).winner ≠ (s.entry ch).winner))
    (fun ch v => if (v.entry ch).winner ≠ (s.entry ch).winner then winnerEvent ch (chooseWinner v ch) v else v)
    (fun _ v => v.resolver = u.resolver)
    (fun ch l v k => by
      have he : v.entry ch = u.entry ch := by simp only [State.entry, k]
      by_cases hd : (u.entry ch).winner = (s.entry ch).winner
      · simp [he, hd, k]
      · simp [he, hd, k, winnerEvent, fireWatches_watch])
    (members cs) u rfl w

/-! ### A taking -/

theorem changedWinners_congr {s t s' t' : State} (cs : ChannelSet)
    (h : ∀ ch, (s'.entry ch).winner = (s.entry ch).winner) (k : ∀ ch, (t'.entry ch).winner = (t.entry ch).winner) :
    changedWinners cs s' t' = changedWinners cs s t := by
  simp only [changedWinners, h, k]

/-- What a taking spends is read from the watch table and the winners. -/
theorem WinnersSpend.congr {cs : ChannelSet} {s t s' t' : State} (h : WinnersSpend cs s t)
    (h1 : s'.watches = s.watches) (h2 : ∀ ch, (s'.entry ch).winner = (s.entry ch).winner)
    (h3 : t'.watches = t.watches) (h4 : t'.resolver = t.resolver) : WinnersSpend cs s' t' := fun w => by
  have k : ∀ ch, (t'.entry ch).winner = (t.entry ch).winner := fun ch => by simp only [State.entry, h4]
  have := h w
  simp only [State.watch] at this ⊢
  rw [changedWinners_congr cs h2 k, h1, h3, this]

/-- A taking that redoes resolution on a set, then lets the stage move. -/
theorem spends_settle {s u : State} (f : Option Handle) (cs : ChannelSet) (c : Cause) (hw : u.watches = s.watches)
    (he : ∀ ch, (u.entry ch).winner = (s.entry ch).winner) : WinnersSpend cs s (settle c (resolveSet f true cs u)) :=
  (resolveSet_spends f cs u).congr hw.symm (fun ch => (he ch).symm) (by simp) (by simp)

/-- A taking that hands the WINNER events of the winners it has changed, then lets the stage move. -/
theorem winnerEvents_spends_settle {s u : State} (cs : ChannelSet) (c : Cause) (hw : u.watches = s.watches) :
    WinnersSpend cs s (settle c (winnerEvents cs s u)) := fun w => by
  have h := winnerEvents_spends cs s u w
  have k : ∀ ch, ((settle c (winnerEvents cs s u)).entry ch).winner = (u.entry ch).winner := fun ch => by
    simp only [State.entry, settle_resolver, winnerEvents_resolver]
  rw [changedWinners_congr cs (fun _ => rfl) k]
  simpa [State.watch, hw] using h

/-- A taking that changes no winner and fires no watch spends nothing. -/
theorem WinnersSpend.zero {s t : State} (h : t.watches = s.watches) : WinnersSpend 0 s t := fun w => by
  have : changedWinners 0 s t = [] := by simp [changedWinners, members, inSet]
  rw [this, spentBy_nil]
  simp only [State.watch, h]

/-- A freeing spends what the WINNER events of its channels match (R21, R48). -/
theorem freeRecords_spends (x : FreeCause) (l : List Slot) (s : State) (c : Cause) :
    WinnersSpend (coveredBy s l) s (settle c (freeRecords x true l s)) :=
  spends_settle none _ c (forEach_keeps (fun s => s.watches) _ _ (fun i s => by simp) s)
    fun ch => (freeAll_entry_keeps x l s ch).1

end Sys2Proof.Machine
end

