-- ==== Sys2Proof/Tests/Slice0.lean ====
section
/-! SUPPORT. The model's own tests: the smoke test of well-formedness, one small test of each command, and for every
statement with hypotheses a state and operands that meet them together. -/

namespace Sys2Proof.Tests

open Sys2Proof Sys2Proof.Machine

set_option Elab.async false

/-! ### Small states -/

/-- The state a command answers. -/
def after (i : Instr) (s : State) : State :=
  match exec i s with
  | .next t => t
  | .fault _ => s
  | .refused _ => s

/-- The state after reset in another stage; in ACTIVE every channel stands SETTLED. -/
def atStage (st : StageName) : State :=
  { State.reset with
    output := { State.reset.output with stage := st },
    modulator := if st = .active then tmap (fun m => { m with fade := .settled }) State.reset.modulator
      else State.reset.modulator }

/-- The ARG registers of a port. -/
def withArgs (p : Port) (l : List Word) (s : State) : State :=
  s.modPort p fun q => { q with args := (indexes 8).foldl (fun v i => tset v i (l.getD i.val 0)) q.args }

def portClaim (p : Port) (cs : ChannelSet) : Claim :=
  { active := true, owner := .port p, channels := cs, priority := 3, source := .fixed 100, pattern := .steady,
    fade := 2, lease := none, tag := 7 }

/-- A claim of port 0 on channel 0 in slot 0. -/
def claimed (st : StageName) : State := place 0 (portClaim 0 1) (atStage st)

/-- A watch of port 2 on every channel or line. -/
def watching (k : WatchKind) (s : State) : State :=
  s.setWatch 0 (some { owner := 2, kind := k, lo := 0, hi := 15, oneShot := true })

def quick : PlayerStep := { level := 10, ramp := 2, hold := 1 }

/-- Player 0 held by port 0. -/
def heldPlayer (state : PlayerState) (queue : List PlayerStep) (s : State) : State :=
  s.modPlayer 0 fun _ => { Player.reset with state := state, holder := some 0, queue := queue }

/-- Player 0 with its claim in slot 0, the claim covering channel 0. -/
def playing (state : PlayerState) (finish : FinishAction) (current : Option CurrentStep) (st : StageName) : State :=
  (place 0 { portClaim 0 1 with source := .player 0 } (heldPlayer .playing [] (atStage st))).modPlayer 0 fun x =>
    { x with state := state, finish := finish, current := current, claim := some ⟨0, 0⟩ }

def boundTemplate : Template := { channels := 1, priority := 2, level := 50, pattern := .steady, fade := 1 }

/-- Line 0 bound, its record in slot 0. -/
def bound (st : StageName) : State :=
  (place 0 (lineClaim 0 false boundTemplate) (atStage st)).modLine 0 fun x =>
    { x with binding := some boundTemplate, claim := some ⟨0, 0⟩ }

def isNext (i : Instr) (s : State) : Bool :=
  match exec i s with
  | .next _ => true
  | .fault _ => false
  | .refused _ => false

/-! ### Well-formedness and the decoder -/

/-- A good write is no WRITE_FRAME_DISCARDED. -/
theorem test_good_frame_is_ill_formed :
    Instr.wellFormed (.writeFrameDiscarded 0 0 [1, 2, 3, crc8 [1, 2, 3]]) = false := by decide +kernel

/-- A frame in the read direction is no write frame. -/
theorem test_read_frame_is_ill_formed : Instr.wellFormed (.writeFrameDiscarded 2 0 [0x81, 2, 3, 4]) = false := by
  decide +kernel

/-- An SPI frame cannot carry an offset above 0x7F. -/
theorem test_wide_spi_offset_is_ill_formed :
    Instr.wellFormed (.registerWrite 2 0x80 0) = false ∧ Instr.wellFormed (.registerWrite 2 0x7F 0) = true ∧
      Instr.wellFormed (.registerWrite 0 0xFF 0) = true := by decide +kernel

theorem test_bad_check_is_well_formed :
    Instr.wellFormed (.writeFrameDiscarded 0 0 [1, 2, 3, 4]) = true ∧ crc8 [1, 2, 3] ≠ 4 := by decide +kernel

/-- No row of the table gives bits, so no word spells a command, and the queue stays as it is. -/
theorem test_no_word_spells_a_command (s : State) (nbits w : Nat) :
    decodeTableWord nbits w = none ∧ s.withFetchWord nbits w = s := ⟨rfl, rfl⟩

/-- Check bytes computed by hand from R188. -/
theorem test_check_bytes : crc8 [0, 0, 0] = 0x2B ∧ crc8 [0x20, 0, 0] = 0x68 ∧ crc8 [0x31, 0x32, 0x33] = 0xEB := by
  decide +kernel

/-! ### One small test of each command -/

def lowPins : PowerOnPins :=
  { msel := 2, lts := true, address0 := 5, address1 := 6, enable := false, hold := true, lampSupplyLow := true,
    overcurrent := false, overtempWarn := false, overtempShutdown := false, lines := 0x81 }

theorem test_power_on_reset :
    let t := after (.powerOnReset lowPins) (atStage .active)
    t.output.stage = .off ∧ t.access.maintenance = 2 ∧ (t.right 2).ceiling = 7 ∧ (t.line 7).raw = true ∧
      (t.line 6).raw = false ∧ t.output.supply.lampSupplyLow = true ∧
      (after (.powerOnReset { lowPins with enable := true }) (atStage .active)).output.stage = .init := by
  decide +kernel

theorem test_enable_low :
    let t := after .enableLow (claimed .active)
    t.output.stage = .off ∧ (t.record 0).claim = none ∧ (t.record 0).gen = 1 ∧ (t.entry 0).list = [] ∧
      (t.right 0).held = 0 ∧ (t.port 1).queue = [.stage .off .enableLow] := by decide +kernel

theorem test_enable_high :
    let t := after .enableHigh State.reset
    t.output.stage = .init ∧ t.output.initEnd = some 10 ∧ (t.port 2).queue = [.stage .init .enableHigh] := by
  decide +kernel

theorem test_hold_asserted :
    let t := after .holdAsserted (claimed .active)
    t.output.stage = .standby ∧ t.output.lastCause = .hold ∧ (t.chan 0).fade = .parked ∧
      t.output.demand = true := by decide +kernel

theorem test_hold_released :
    let s := (claimed .standby).modOutput fun o => { o with hold := true }
    (after .holdReleased s).output.stage = .softstart ∧ (after .holdReleased s).output.softEnd = some 20 ∧
      (after .holdReleased s).output.lastCause = .holdRelease := by decide +kernel

theorem test_supply_onset :
    let t := after (.supplyOnset .overcurrent) (claimed .active)
    t.output.stage = .recovery ∧ t.output.recovery = 1 ∧ t.output.recoveryEnd = some 250 ∧
      (after (.supplyOnset .overcurrent)
        ((claimed .active).modOutput fun o => { o with recovery := 3 })).output.stage = .latched := by decide +kernel

theorem test_supply_clearing :
    let s := (claimed .standby).modOutput fun o => { o with supply := o.supply.put .overcurrent true }
    (after (.supplyClearing .overcurrent) s).output.stage = .softstart ∧
      (after (.supplyClearing .overcurrent) s).output.lastCause = .supplyClear := by decide +kernel

theorem test_channel_fault_event :
    let t := after (.channelFaultEvent 0 .ground) (claimed .active)
    (t.out 0).fault = .faulted .ground (.pending (.running 1000)) ∧ (t.out 0).retry = 1 ∧
      (t.chan 0).fade = .parked ∧ t.output.demand = false ∧ t.output.standbyEnd = some 500 := by decide +kernel

theorem test_line_input_change :
    let t := after (.lineInputChange 0) (watching .line (bound .active))
    (t.line 0).activity = .asserted ∧ (t.entry 0).winner = some ⟨0, 0⟩ ∧ (t.entry 0).target = 50 ∧
      (t.port 2).queue = [.line 0 .start] ∧ t.watch 0 = none := by decide +kernel

theorem test_filter_interval_end :
    let s := (atStage .active).modLine 3 fun x => { x with raw := true, filter := 5, filterEnd := some 0 }
    let t := after (.filterIntervalEnd 3) s
    (t.line 3).filtered = true ∧ (t.line 3).filterEnd = none ∧ (t.line 3).activity = .asserted := by decide +kernel

theorem test_stretch_end :
    let s := (atStage .active).modLine 3 fun x => { x with activity := .stretch, stretchEnd := some 0 }
    ((after (.stretchEnd 3) s).line 3).activity = .quiet ∧ ((after (.stretchEnd 3) s).line 3).stretchEnd = none := by
  decide +kernel

theorem test_init_interval_end :
    let s := ((atStage .init).modOutput fun o => { o with initEnd := some 0 }).modLine 1 fun x =>
      { x with raw := true, binding := some boundTemplate }
    let t := after .initIntervalEnd s
    t.output.stage = .softstart ∧ (t.line 1).claim = some ⟨0, 0⟩ ∧ (t.entry 0).target = 50 ∧
      (t.port 0).queue = [.stage .standby .initEnd, .stage .softstart .demand] ∧ (t.clock 2).began = some 0 := by
  decide +kernel

theorem test_softstart_interval_end :
    let s := (claimed .softstart).modOutput fun o => { o with softEnd := some 0 }
    let t := after .softstartIntervalEnd s
    t.output.stage = .active ∧ t.output.activeEnd = some 10000 ∧ (t.chan 0).fade = .fading 0 200 0 .linear := by
  decide +kernel

theorem test_standby_delay_expiry :
    let s := (atStage .active).modOutput fun o => { o with standbyEnd := some 0 }
    (after .standbyDelayExpiry s).output.stage = .standby ∧
      (after .standbyDelayExpiry s).output.lastCause = .noDemand := by decide +kernel

theorem test_active_duration_timer_end :
    let s := (atStage .active).modOutput fun o => { o with activeEnd := some 0, recovery := 2 }
    (after .activeDurationTimerEnd s).output.recovery = 0 ∧
      (after .activeDurationTimerEnd s).output.activeEnd = none := by decide +kernel

theorem test_recovery_interval_end :
    let s := (atStage .recovery).modOutput fun o => { o with recoveryEnd := some 0 }
    (after .recoveryIntervalEnd s).output.stage = .standby ∧
      (after .recoveryIntervalEnd
        (s.modOutput fun o => { o with supply := o.supply.put .overcurrent true })).output.recoveryEnd =
        some 250 := by decide +kernel

theorem test_retry_timer_end :
    let s := ((claimed .active).modOut 0 fun o =>
      { o with fault := .faulted .short (.pending (.running 0)), retry := 2 }).modChan 0 fun m =>
        { m with fade := .parked }
    let t := after (.retryTimerEnd 0) s
    (t.out 0).fault = .ready ∧ (t.out 0).retry = 2 ∧ (t.chan 0).fade = .fading 0 200 0 .linear ∧
      (t.out 0).cleanEnd = none := by decide +kernel

theorem test_clean_interval_end :
    let s := (atStage .active).modOut 4 fun o => { o with retry := 2, cleanEnd := some 0 }
    ((after (.cleanIntervalEnd 4) s).out 4).retry = 0 ∧ ((after (.cleanIntervalEnd 4) s).out 4).cleanEnd = none := by
  decide +kernel

theorem test_lease_expiry :
    let s := place 0 { portClaim 0 1 with lease := some { length := 0, start := 0 } } (atStage .active)
    let t := after (.leaseExpiry 0) s
    (t.record 0).claim = none ∧ (t.right 0).held = 0 ∧
      (t.port 0).queue = [.claimRemoved 0 ⟨0, 0⟩ 0 7 .lease] := by decide +kernel

theorem test_clock_half_end :
    let s := (atStage .active).modClock 1 fun c => { c with halfPeriod := 0, began := some 0 }
    ((after (.clockHalfEnd 1) s).clock 1).offHalf = true := by decide +kernel

theorem test_fade_completion :
    let s := (atStage .active).modChan 2 fun m => { m with fade := .fading 9 0 0 .smooth }
    ((after (.fadeCompletion 2) s).chan 2).fade = .settled := by decide +kernel

theorem test_ramp_update :
    let s := playing .playing .hold (some { step := { quick with level := 9 }, origin := 0, began := 0, updates := 0 })
      .active
    let t := after (.rampUpdate 0) { s with now := 10 }
    (t.player 0).level = 4 ∧ (t.entry 0).target = 4 ∧ (t.player 0).lastHanded = 4 := by decide +kernel

theorem test_step_completion :
    let s := playing .playing .hold (some { step := quick, origin := 0, began := 0, updates := 2 }) .active
    let t := after (.stepCompletion 0) { s with now := 30 }
    (t.player 0).state = .starved ∧ (t.player 0).current = none ∧
      (t.port 0).queue = [.player 0 ⟨0, 0⟩ 0 7 .starved] := by decide +kernel

theorem test_lamp_test_expiry :
    let s := (atStage .active).setLampTest (some 0)
    let t := after .lampTestExpiry s
    t.lampTest = none ∧ (t.chan 9).fade = .fading 3072 200 0 .linear ∧ t.output.standbyEnd = some 500 := by
  decide +kernel

theorem test_write_frame_discarded :
    ((after (.writeFrameDiscarded 0 0 [0x20, 0, 0, 0x69]) (atStage .active)).port 0).frameError = true ∧
      ((after (.writeFrameDiscarded 0 0 [0x20]) (atStage .active)).port 0).frameError = false ∧
      ((after (.writeFrameDiscarded 0 9 [0x20, 0]) (atStage .active)).port 0).frameError = false := by decide +kernel

theorem test_register_write :
    arg (after (.registerWrite 1 0x03 0xBEEF) (atStage .active)) 1 3 = 0xBEEF ∧
      ((after (.registerWrite 0 0x24 0) (atStage .active)).port 0).accepted = 1 := by decide +kernel

theorem test_port_status_read :
    let s := (atStage .active).modPort 0 fun q => { q with overflow := true, frameError := true }
    let t := after (.portStatusRead 0) s
    (t.port 0).overflow = false ∧ (t.port 0).frameError = false ∧ ((t.port 0).reply.map (·.data)) = some 0x0300 := by
  decide +kernel

theorem test_accepted_read :
    let t := after (.acceptedRead 1) ((atStage .active).modPort 1 fun q => { q with accepted := 9999 })
    (t.port 1).accepted = 0 ∧ (t.port 1).reply = some { data := 9999, check := crc8 [0x13, 0x27, 0x0F] } := by
  decide +kernel

theorem test_refused_read :
    let t := after (.refusedRead 2) ((atStage .active).modPort 2 fun q => { q with refused := 255 })
    (t.port 2).refused = 0 ∧ (t.port 2).reply = some { data := 255, check := crc8 [0x94, 0, 0xFF] } := by
  decide +kernel

theorem test_mask_set_and_clear :
    let t := after (.maskSet 0 0xFFFF) State.reset
    (t.port 0).kindMask = 0x00FE ∧ ((after (.maskClear 0 0x0006) t).port 0).kindMask = 0x00F8 := by decide +kernel

theorem test_notice_pop :
    let s := State.reset.modPort 0 fun q => { q with queue := [.stage .init .enableHigh, .stage .off .enableLow] }
    ((after (.noticePop 0) s).port 0).queue = [.stage .off .enableLow] := by decide +kernel

theorem test_claim :
    let t := after (.claim 1) (withArgs 1 [0x0003, 4095, 0x0026, 0, 9] (atStage .active))
    (t.port 1).status = .ok ∧ (t.port 1).handle = some ⟨0, 0⟩ ∧ (t.port 1).extra = 2 ∧ (t.entry 1).target = 4095 ∧
      (t.chan 1).fade = .fading 0 100 0 .linear ∧ (t.right 1).held = 1 := by decide +kernel

/-- A claim above level 0 starts the lamps from STANDBY, and cancels a running standby delay in ACTIVE (R157, R159). -/
theorem test_claim_brings_demand :
    let before : StageName → State := fun st => withArgs 1 [3, 4095, 0x0026, 0, 7] (atStage st)
    let t := after (.claim 1) (before .standby)
    let u := after (.claim 1) ((before .active).modOutput fun o => { o with standbyEnd := some 9 })
    t.output.stage = .softstart ∧ t.output.lastCause = .demand ∧ t.output.softEnd = some 20 ∧ t.output.demand = true ∧
      u.output.stage = .active ∧ u.output.standbyEnd = none ∧ u.output.demand = true := by decide +kernel

theorem test_modify :
    let t := after (.modify 0) (withArgs 0 [0, 200, 0, 0, 5, 0x21] (claimed .active))
    (t.port 0).status = .ok ∧ (t.entry 0).target = 200 ∧
      ((t.record 0).claim.map (·.tag)) = some 5 := by decide +kernel

theorem test_withdraw :
    let t := after (.withdraw 0) (withArgs 0 [0] (claimed .active))
    (t.port 0).status = .ok ∧ (t.port 0).extra = 1 ∧ (t.record 0).claim = none ∧ (t.entry 0).winner = none ∧
      t.output.standbyEnd = some 500 := by decide +kernel

theorem test_withdraw_all :
    let t := after (.withdrawAll 0) (withArgs 0 [1] (claimed .active))
    (t.port 0).extra = 1 ∧ (t.record 0).claim = none := by decide +kernel

theorem test_renew :
    let s := place 0 { portClaim 0 1 with lease := some { length := 9, start := 0 } } (atStage .active)
    let t := after (.renew 0) { s with now := 400 }
    (t.port 0).extra = 1 ∧ leaseEnd? t 0 = some 1300 := by decide +kernel

theorem test_channel_policy :
    let t := after (.channelPolicy 0) (withArgs 0 [2, 30, 1] (atStage .active))
    (t.port 0).status = .ok ∧ (t.entry 1).policy = .maximum ∧ (t.entry 1).target = 30 ∧ t.output.demand = true := by
  decide +kernel

theorem test_scene_put_and_drop :
    let t := after (.scenePut 0) (withArgs 0 [5, 2, 77] (atStage .active))
    tget (t.scene 5).levels 2 = some 77 ∧ (t.port 0).extra = 1 ∧
      tget ((after (.sceneDrop 0) t).scene 5).levels 2 = none := by decide +kernel

theorem test_scene_erase :
    let s := (atStage .active).modScene 5 fun x => { x with levels := Vector.replicate 16 (some 1) }
    ((after (.sceneErase 0) (withArgs 0 [5] s)).scene 5).channels = 0 ∧
      ((after (.sceneErase 1) (withArgs 1 [5] s)).port 1).status = .privilege := by decide +kernel

/-- Scene 0 with channel 3 at level 40. -/
def oneScene (s : State) : State :=
  s.modScene 0 fun x => { x with levels := tset (Vector.replicate 16 none) 3 (some 40) }

theorem test_scene_invoke :
    let t := after (.sceneInvoke 0) (withArgs 0 [0, 0, 1, 0, 0] (oneScene (atStage .active)))
    (t.port 0).status = .ok ∧ (t.entry 3).target = 40 ∧ (t.scene 0).inUse = 1 ∧
      ((after (.sceneInvoke 0) (withArgs 0 [1] (oneScene (atStage .active)))).port 0).status = .empty := by
  decide +kernel

theorem test_player_acquire :
    let t := after (.playerAcquire 1) (withArgs 1 [0, 0, 0, 0, 0, 1] (atStage .active))
    (t.player 1).state = .loading ∧ (t.player 1).holder = some 1 ∧
      ((after (.playerAcquire 0) (withArgs 0 [0, 0, 0, 0, 0, 1] t)).port 0).status = .busy := by decide +kernel

theorem test_player_push :
    let t := after (.playerPush 0) (withArgs 0 [0, 10, 2, 1] (heldPlayer .loading [] (atStage .active)))
    (t.player 0).queue = [quick] ∧ (t.port 0).extra = 1 := by decide +kernel

theorem test_player_end :
    let t := after (.playerEnd 0) (withArgs 0 [] (playing .starved .release none .active))
    (t.player 0).state = .loading ∧ (t.record 0).claim = none ∧
      (t.port 0).queue = [.claimRemoved 0 ⟨0, 0⟩ 0 7 .finished, .player 0 ⟨0, 0⟩ 0 7 .finished] := by decide +kernel

theorem test_player_start :
    let t := after (.playerStart 0) (withArgs 0 [1, 0, 4, 0, 7, 0, 0x11] (heldPlayer .loading [quick] (atStage .active)))
    (t.port 0).status = .ok ∧ (t.player 0).state = .playing ∧ (t.player 0).queue = [quick] ∧
      (t.player 0).mode = .loop ∧ (t.player 0).finish = .release ∧ (t.entry 0).winner = some ⟨0, 0⟩ := by
  decide +kernel

theorem test_player_abort_and_release :
    let s := withArgs 0 [] (playing .playing .hold none .active)
    ((after (.playerAbort 0) s).player 0).state = .loading ∧ ((after (.playerAbort 0) s).record 0).claim = none ∧
      (after (.playerRelease 0) s).player 0 = Player.reset := by decide +kernel

theorem test_line_config :
    let t := after (.lineConfig 0) (withArgs 0 [0, 0x0010, 3, 4, 0, 2] (atStage .active))
    (t.line 2).polarity = .second ∧ (t.line 2).activity = .asserted ∧ (t.port 0).extra = 1 := by decide +kernel

theorem test_line_bind_and_unbind :
    let t := after (.lineBind 0) (withArgs 0 [1, 50, 0x12, 0, 0, 0] (atStage .active))
    (t.line 0).binding = some boundTemplate ∧ (t.line 0).claim = some ⟨0, 0⟩ ∧
      ((after (.lineUnbind 0) t).line 0).binding = none ∧ ((after (.lineUnbind 0) t).record 0).gen = 1 := by
  decide +kernel

theorem test_channel_fade :
    let t := after (.channelFade 0) (withArgs 0 [3, 7, 1] (atStage .active))
    (t.chan 1).defaultIndex = 7 ∧ (t.chan 1).defaultShape = .smooth ∧ (t.chan 2).defaultIndex = 3 ∧
      (t.port 0).extra = 2 := by decide +kernel

theorem test_clock_config :
    let t := after (.clockConfig 0) (withArgs 0 [3, 127] (atStage .active))
    t.clock 3 = { halfPeriod := 127, offHalf := false, began := some 0 } := by decide +kernel

theorem test_derate_config :
    let t := after (.derateConfig 0) (withArgs 0 [0, 60] (claimed .active))
    t.derateCeiling = 60 ∧ (t.port 0).extra = 0 := by decide +kernel

theorem test_lamp_test :
    let t := after (.lampTest 0) (withArgs 0 [0, 30] (atStage .standby))
    t.lampTest = some 30000 ∧ t.output.stage = .softstart ∧
      ((after (.lampTest 0) (withArgs 0 [0, 31] (atStage .standby))).port 0).status = .badArgument := by decide +kernel

theorem test_latch_clear :
    let s := (claimed .latched).modOut 0 fun o => { o with fault := .faulted .short .held, retry := 3 }
    let t := after (.latchClear 0) s
    t.output.stage = .softstart ∧ (t.out 0).fault = .ready ∧ (t.port 0).extra = 1 := by decide +kernel

theorem test_channel_enable :
    let t := after (.channelEnable 0) (withArgs 0 [1, 0] (claimed .active))
    (t.out 0).enabled = false ∧ (t.chan 0).fade = .parked ∧ t.output.demand = false ∧ (t.port 0).extra = 1 := by
  decide +kernel

theorem test_channel_rearm_mode :
    let t := after (.channelRearmMode 0) (withArgs 0 [5, 1] (atStage .active))
    (t.out 2).manual = true ∧ (t.out 1).manual = false ∧ (t.port 0).extra = 2 := by decide +kernel

theorem test_fault_rearm :
    let s := (watching .fault (claimed .latched)).modOut 0 fun o => { o with fault := .faulted .short .held, retry := 3 }
    let t := after (.faultRearm 0) (withArgs 0 [3] s)
    (t.out 0).fault = .ready ∧ (t.port 0).extra = 1 ∧ (t.port 2).queue = [.fault 0 .ready] := by decide +kernel

theorem test_watch_set_and_drop :
    let t := after (.watchSet 1) (withArgs 1 [2, 0, 7, 1] (atStage .active))
    t.watch 0 = some { owner := 1, kind := .line, lo := 0, hi := 7, oneShot := true } ∧
      ((after (.watchDrop 0) (withArgs 0 [0] t)).port 0).status = .notOwner ∧
      (after (.watchDrop 1) (withArgs 1 [0] t)).watch 0 = none := by decide +kernel

theorem test_priv_set :
    let t := after (.privSet 0) (withArgs 0 [0, 2, 0, 48] (claimed .active))
    (t.right 0).ceiling = 2 ∧ (t.right 0).quota = 48 ∧ (t.record 0).claim = none ∧ (t.port 0).extra = 1 ∧
      (t.port 0).queue = [.access 0 .ceilingChanged, .claimRemoved 0 ⟨0, 0⟩ 0 7 .ceiling] := by decide +kernel

theorem test_maint_handover :
    let t := after (.maintHandover 0) (withArgs 0 [2] (atStage .active))
    t.access.maintenance = 2 ∧ (t.port 0).queue = [.access 0 .maintLost] ∧
      (t.port 2).queue = [.access 2 .maintGained] ∧ (t.port 0).extra = 2 := by decide +kernel

theorem test_port_reset :
    let t := after (.portReset 0) (withArgs 0 [1, 2, 3] (claimed .active))
    arg t 0 1 = 0 ∧ (t.record 0).claim = none ∧ (t.port 0).extra = 1 ∧ (t.port 0).accepted = 1 := by decide +kernel

/-- The freeing of a dark claim above a lit one starts the lamps, and the port reset hears of it (log 28). -/
theorem test_port_reset_starts :
    let dark := { portClaim 0 1 with priority := 5, source := .fixed 0 }
    let t := after (.portReset 0) (place 1 dark (place 0 (portClaim 1 1) (atStage .standby)))
    t.output.stage = .softstart ∧ t.output.softEnd = some 20 ∧ (t.port 0).queue = [.stage .softstart .demand] ∧
      (t.port 1).queue = [.stage .softstart .demand] := by decide +kernel

theorem test_port_clear :
    let t := after (.portClear 0) (withArgs 0 [1] (place 0 (portClaim 1 1) (atStage .active)))
    (t.record 0).claim = none ∧ (t.port 0).extra = 1 ∧ (t.port 1).queue = [.access 1 .cleared] ∧
      (t.port 1).accepted = 0 := by decide +kernel

theorem test_output_level_rises_above_0 :
    let s := (claimed .active).modOut 0 fun o => { o with retry := 1 }
    outputLevel { s with now := 50 } 0 = 50 ∧
      ((after (.outputLevelRisesAbove0 0) { s with now := 50 }).out 0).cleanEnd = some 10050 := by decide +kernel

theorem test_window :
    let s := (claimed .active).modPort 1 fun q => { q with selPlayer := 1, selScene := 2 }
    readRegister s 1 0x1A = 0x1648 ∧ readRegister s 1 0x22 = 0 ∧ readRegister s 1 0x25 = 100 ∧
      readRegister s 1 0x2A = 1 ∧ readRegister s 1 0x2E = 7 ∧ readRegister s 1 0x53 = 2048 ∧
      readRegister s 1 0x54 = 0x190D ∧ readRegister s 1 0x55 = 0x3205 ∧ readRegister s 1 0x48 = 0xFFFF ∧
      readRegister s 1 0x6D = 0xFFFF ∧ readRegister s 1 0x6E = 0 ∧ readRegister s 1 0x80 = 0 ∧
      readRegister s 1 0x11 = 0xFFFF := by decide +kernel

/-- The supply conditions stand at bits 13 down to 10 (R205), and a lease shows 1 until its expiry is taken (R67). -/
theorem test_supply_bits_and_overdue_lease :
    (([SupplyCondition.lampSupplyLow, .overcurrent, .overtempWarn, .overtempShutdown].map fun x =>
        readRegister ((atStage .active).modOutput fun o => { o with supply := o.supply.put x true }) 0 0x50) =
      [0x2004, 0x1004, 0x0804, 0x0404]) ∧
      ([99, 100, 500].map fun now => ((readRegister { place 0 { portClaim 0 1 with
        lease := some { length := 1, start := 0 } } (atStage .active) with now := now } 0 0x2D).extractLsb' 0 8).toNat) =
        [1, 1, 1] := by decide +kernel

/-- A pulse of an edge line is active for the gates in its start: a channel gated by it goes dark there, and its clean
interval begins again at the end (R114, R115, R172). -/
theorem test_pulse_reaches_the_gates :
    let s := (((claimed .active).modChan 0 fun m => { m with fade := .settled, pattern := .combine 0 0 }).modClock 0
      fun c => { c with offHalf := true, began := some 0 }).modOut 0 fun o => { o with retry := 1, cleanEnd := some 9000 }
    let t := after (.filterIntervalEnd 0) { s.modLine 0 fun x =>
      { x with sense := .edge, raw := true, filterEnd := some 0 } with now := 100 }
    0 < (outputLevel s 0).val ∧ (t.line 0).activity = .quiet ∧ (t.out 0).cleanEnd = some 10100 := by decide +kernel

/-- A one-shot watch is spent by a WINNER, a FAULT or a LINE event that it matches, and stays where the event's kind is
another (R179). -/
theorem test_one_shot_watches_spent :
    let claims := withArgs 0 [1, 5, 0, 0, 0] (atStage .active)
    let stretched := (atStage .active).modLine 2 fun x => { x with activity := .stretch, stretchEnd := some 0 }
    (after (.claim 0) (watching .winner claims)).watch 0 = none ∧
      (after (.channelFaultEvent 0 .ground) (watching .fault (atStage .active))).watch 0 = none ∧
      (after (.stretchEnd 2) (watching .line stretched)).watch 0 = none ∧
      ((after (.stretchEnd 2) (watching .winner stretched)).watch 0).isSome = true := by decide +kernel

/-- A DORMANT entry stands in the list and is none of the entries the winner is chosen from (R33, R38). -/
theorem test_dormant_entry_skipped :
    ((bound .active).entry 0).list = [⟨0, 0⟩] ∧ activeEntries (bound .active) 0 = [] ∧
      activeHandles (bound .active) 0 = [] ∧ activeHandles (claimed .active) 0 = [⟨0, 0⟩] := by decide +kernel

/-- With nothing due, a step on an empty queue lets a millisecond pass; with a command waiting it takes the command. -/
theorem test_steps :
    (match step State.reset with | .next t => decide (t = { State.reset with now := 1 }) | _ => false) = true ∧
      (match step { State.reset with pending := [.enableHigh, .enableLow] } with
        | .next t => decide (t.pending = [.enableLow] ∧ t.output.stage = .init)
        | _ => false) = true := by decide +kernel

/-! ### The hypotheses of every statement are met -/

theorem takenOf {p : Port} {n : Need} {s : State} (h : refusesCommands s.output.stage = false)
    (h' : holdsRight s p n = true) : Taken p n s := ⟨h, h'⟩

theorem modulatorInv_of_check {s : State}
    (h : ∀ ch, (s.chan ch).target = (s.entry ch).target ∧ (s.chan ch).pattern = (s.entry ch).pattern ∧
      ((s.chan ch).fade = .parked ↔ isOpen s ch = false)) : ModulatorInv s :=
  ⟨fun ch => (h ch).1, fun ch => (h ch).2.1, fun ch => (h ch).2.2⟩

theorem countsInv_of_check {s : State}
    (h : ∀ p, (s.right p).held = recordsWhere s (ownedBy p) ∧ (s.right p).held ≤ (s.right p).quota.val)
    (h' : ∀ n, (s.scene n).inUse = recordsWhere s (drawsFrom n)) : CountsInv s :=
  ⟨fun p => (h p).1, fun p => (h p).2, h'⟩

/-- Every slot holds a claim of port 1. -/
def fullPool (s : State) : State := { s with pool := Vector.replicate 48 { gen := 0, claim := some (portClaim 1 2) } }

/-- The list of channel 15 is full. -/
def fullList (s : State) : State := s.modEntry 15 fun e => { e with list := List.replicate 8 ⟨0, 0⟩ }

def dueOne : State := (atStage .init).modOutput fun o => { o with initEnd := some 0 }

theorem witness_EmptyQueueStepTakesDueEvent :
    State.reset.pending = [] ∧ dueEvents State.reset = [] ∧ dueOne.pending = [] ∧
      dueEvents dueOne = [.initIntervalEnd] ∧ (dueOne.setLampTest (some 0)).pending = [] ∧
      2 ≤ (dueEvents (dueOne.setLampTest (some 0))).length := by decide +kernel

theorem witness_PowerOnResetThenEnableHigh :
    lowPins.enable = false ∧ ({ lowPins with enable := true } : PowerOnPins).enable = true ∧
      isNext (.powerOnReset lowPins) State.reset = true ∧ State.reset.output.stage = .off ∧
      (atStage .latched).output.stage ≠ .off := by decide +kernel

theorem witness_EnableLowClearsArbiter :
    let s := heldPlayer .playing [quick] (claimed .active)
    ListsInv s ∧ CountsInv s ∧ State.reset.output.stage = .off ∧ s.output.stage ≠ .off ∧
      inSet (coveredBy s (indexes 48)) 0 = true ∧ (s.player 0).state ≠ .free ∧ (s.player 1).state = .free ∧
      freesPlayer s (indexes 48) 1 = false ∧ ModulatorInv s ∧ Resolved s 15 ∧
      inSet (coveredBy s (indexes 48)) 15 = false :=
  ⟨listsInv_of_check (by decide +kernel), countsInv_of_check (by decide +kernel) (by decide +kernel),
    by decide +kernel, by decide +kernel, by decide +kernel, by decide +kernel, by decide +kernel, by decide +kernel,
    modulatorInv_of_check (by decide +kernel), ⟨by decide +kernel, by decide +kernel, by decide +kernel⟩,
    by decide +kernel⟩

def initBound : State :=
  (dueOne.modLine 0 fun x => { x with binding := some boundTemplate }).modLine 7 fun x =>
    { x with binding := some boundTemplate, raw := true }

theorem witness_InitEnd :
    initBound.output.stage = .init ∧ dueAt initBound.output.initEnd initBound.now = true ∧
      (∀ x, (initBound.record x).claim = none) ∧ (∀ ch, (initBound.entry ch).list = []) ∧
      (initBound.line 0).binding = some boundTemplate ∧ (initBound.line 7).binding = some boundTemplate ∧
      (initBound.line 1).binding = none := by decide +kernel

theorem witness_PortChecksRefuse :
    portCommand (.claim 0) = some (0, .none) ∧ refusesCommands State.reset.output.stage = true ∧
      portCommand (.privSet 1) = some (1, .maintenance) ∧ portCommand (.scenePut 2) = some (2, .sceneEdit) ∧
      refusesCommands (atStage .active).output.stage = false ∧ holdsRight (atStage .active) 1 .maintenance = false ∧
      holdsRight (atStage .active) 2 .sceneEdit = false := by decide +kernel

theorem witness_WriteFrameIsChecked :
    let s := atStage .active
    isAddressed s 0 9 = false ∧ isAddressed s 0 0 = true ∧ isAddressed s 2 7 = true ∧
      ([0x20] : List Byte).length ≤ 1 ∧ (([0x80, 0] : List Byte).headD 0).getLsbD 7 = true ∧
      (0x7F : Byte).getLsbD 7 = false ∧ (0x2B : Byte) = crc8 [0, 0, 0] ∧ (0x2C : Byte) ≠ crc8 [0, 0, 0] ∧
      2 ≤ ([0, 0] : List Byte).length ∧ ([0, 0, 0, 0, 0] : List Byte).length ≠ 4 := by decide +kernel

theorem witness_RegisterWriteActs :
    0x40 < (0x41 : Byte).toNat ∧ 0x40 < (0xFF : Byte).toNat ∧ ¬ 0x40 < (0x40 : Byte).toNat := by decide +kernel

theorem witness_ClearingReadsMasksAndPop :
    let s := State.reset.modPort 0 fun q => { q with queue := List.replicate 16 (.stage .init .enableHigh) }
    (s.port 0).queue.length ≤ 16 ∧ (s.port 1).queue = [] ∧
      (s.port 0).queue = .stage .init .enableHigh :: List.replicate 15 (.stage .init .enableHigh) := by decide +kernel

theorem witness_WindowShowsState :
    let s := claimed .active
    let out := s.modPort 0 fun q =>
      { q with selChannel := 16, selSlot := 48, selList := 1, selScene := 16, selPlayer := 2,
               queue := [.winner 0 none] }
    let timed := (atStage .softstart).modOutput fun o => { o with softEnd := some 20 }
    (s.port 0).queue = [] ∧ 0x1B ≤ (0x1B : Byte).toNat ∧ (0x1F : Byte).toNat ≤ 0x1F ∧ 0x6E ≤ (0xFF : Byte).toNat ∧
      ((s.port 0).selChannel.toNat = (0 : Channel).val ∧ (s.port 0).selSlot.toNat = (0 : Slot).val ∧
        (s.record 0).claim = some (portClaim 0 1) ∧ (s.port 0).selScene.toNat = (0 : SceneNo).val ∧
        (s.port 0).selPlayer.toNat = (0 : PlayerNo).val) ∧
      (15 < (out.port 0).selChannel.toNat ∧ 47 < (out.port 0).selSlot.toNat ∧ 15 < (out.port 0).selScene.toNat ∧
        1 < (out.port 0).selPlayer.toNat ∧ (s.entry 0).list.length ≤ (out.port 0).selList.toNat) ∧
      ((s.entry 0).list = [] ++ ⟨0, 0⟩ :: [] ∧ ([] : List Handle).length = (s.port 0).selList.toNat ∧
        claimAt s ⟨0, 0⟩ = some (portClaim 0 1) ∧ (s.entry 0).winner = some ⟨0, 0⟩) ∧
      ((s.record 47).claim = none ∧ s.output.recovery ≤ 4 ∧ (s.scene 0).inUse ≤ 48 ∧ (s.right 0).held ≤ 48) ∧
      timed.output.initEnd = none ∧ timed.output.softEnd ≠ none ∧ unitsOf 10 timed.output.softEnd timed.now ≤ 50 ∧
      0 < 10 ∧ timed.now ≤ 20 := by decide +kernel

theorem witness_WindowTimers :
    TimersBelong ((atStage .softstart).modOutput fun o => { o with softEnd := some 20 }).output :=
  ⟨by decide +kernel, by decide +kernel, by decide +kernel, by decide +kernel, by decide +kernel⟩

theorem witness_NoticesOfferedAndWatchesFired :
    let masked := State.reset.modPort 0 fun q => { q with kindMask := 0x40 }
    let full := State.reset.modPort 0 fun q => { q with queue := List.replicate 16 (.stage .init .enableHigh) }
    let room := State.reset.modPort 0 fun q => { q with queue := List.replicate 15 (.stage .init .enableHigh) }
    let s := (watching .winner State.reset).setWatch 1 (some ⟨2, .winner, 4, 4, false⟩)
    (masked.port 0).kindMask.getLsbD (Notice.stage .init .enableHigh).kindCode = true ∧
      16 ≤ (full.port 0).queue.length ∧ (room.port 0).queue.length < 16 ∧
      s.watch 0 = some ⟨2, .winner, 0, 15, true⟩ ∧ s.watch 1 = some ⟨2, .winner, 4, 4, false⟩ ∧ s.watch 2 = none := by
  decide +kernel

theorem witness_WatchCommandsSetAndDrop :
    let s := atStage .active
    let ok := withArgs 2 [2, 7, 7, 1] s
    let full := { withArgs 0 [0, 15, 15, 0] s with watches := Vector.replicate 12 (some ⟨1, .fault, 0, 0, false⟩) }
    let last := full.setWatch 11 none
    Taken 2 .none ok ∧ Taken 0 .none full ∧
      (2 < argNat (withArgs 0 [3] s) 0 0 ∧ 15 < argNat (withArgs 0 [0, 16] s) 0 1 ∧
        15 < argNat (withArgs 0 [0, 0, 16] s) 0 2 ∧
        (argNat (withArgs 0 [2, 0, 8] s) 0 0 = 2 ∧ 7 < argNat (withArgs 0 [2, 0, 8] s) 0 2) ∧
        argNat (withArgs 0 [0, 1, 0] s) 0 2 < argNat (withArgs 0 [0, 1, 0] s) 0 1 ∧
        1 < argNat (withArgs 0 [0, 0, 0, 2] s) 0 3) ∧
      (watchKindOf (argNat ok 2 0) = some .line ∧ argNat ok 2 1 = 7 ∧ argNat ok 2 2 = 7 ∧
        flagOf (argNat ok 2 3) = some true ∧ 7 ≤ WatchKind.line.top) ∧
      (∀ w, full.watch w ≠ none) ∧ last.watch 11 = none ∧ (∀ v, v < 11 → last.watch v ≠ none) ∧
      12 ≤ argNat (withArgs 0 [12] s) 0 0 ∧ argNat (withArgs 0 [11] s) 0 0 = 11 ∧ (withArgs 0 [11] s).watch 11 = none ∧
      (withArgs 0 [11] full).watch 11 = some ⟨1, .fault, 0, 0, false⟩ :=
  ⟨takenOf (by decide +kernel) rfl, takenOf (by decide +kernel) rfl, by decide +kernel⟩

theorem witness_PolicyChoosesWinner :
    let s := claimed .active
    (s.entry 0).policy = .priority ∧ activeEntries s 0 = [(⟨0, 0⟩, portClaim 0 1)] ∧
      ((s.modEntry 0 fun e => { e with policy := .maximum }).entry 0).policy = .maximum := by decide +kernel

/-- A claim listed on channel 0 that resolution has not yet seen. -/
def unresolved (c : Claim) : State :=
  enlist ⟨0, 0⟩ c ((atStage .active).modRecord 0 fun r => { r with claim := some c })

theorem witness_TargetFollowsWinner :
    inSet 1 0 = true ∧ activeEntries (atStage .active) 0 = [] ∧
      activeEntries (unresolved (portClaim 0 1)) 0 = [(⟨0, 0⟩, portClaim 0 1)] ∧
      chooseWinner (oneScene (unresolved { portClaim 0 8 with source := .scene 0 })) 3 =
        some (⟨0, 0⟩, { portClaim 0 8 with source := .scene 0 }) ∧
      chooseWinner (unresolved { portClaim 0 1 with source := .player 1 }) 0 =
        some (⟨0, 0⟩, { portClaim 0 1 with source := .player 1 }) := by decide +kernel

theorem witness_ResolutionHandsFade :
    let fresh := unresolved (portClaim 0 1)
    let gone := (atStage .active).modEntry 0 fun e => { e with winner := some ⟨0, 0⟩ }
    let lifted := (claimed .active).modEntry 0 fun e => { e with target := 5 }
    let idle := (atStage .active).modEntry 0 fun e => { e with idle := 5 }
    let changes := fun s : State => ((resolveSet none true 1 s).entry 0).winner ≠ (s.entry 0).winner
    let moves := fun s : State => ((resolveSet none true 1 s).entry 0).target ≠ (s.entry 0).target
    inSet 1 0 = true ∧ changes fresh ∧ changes gone ∧ chooseWinner gone 0 = none ∧
      (¬ changes lifted ∧ moves lifted) ∧ (¬ changes idle ∧ moves idle ∧ chooseWinner idle 0 = none) ∧
      (¬ changes (claimed .active) ∧ ¬ moves (claimed .active)) ∧ (State.reset.chan 0).fade = .parked ∧
      (idle.chan 0).fade ≠ .parked := by decide +kernel

theorem witness_WinnerChangeIsAnnounced :
    let s := watching .winner (unresolved (portClaim 0 1))
    ((resolveChannel none true 0 s).entry 0).winner ≠ (s.entry 0).winner ∧
      s.watches.toList.any (watchMatches 2 .winner 0) = true ∧
      s.watches.toList.any (watchMatches 1 .winner 0) = false ∧
      ((resolveChannel none true 0 (claimed .active)).entry 0).winner = ((claimed .active).entry 0).winner := by
  decide +kernel

/-- Port 0 with the arguments of a CLAIM at every limit: level 4095, priority 7, lease 250. -/
def claimReady : State := withArgs 0 [0x8001, 4095, 0x0007, 250, 9] (atStage .active)

theorem witness_ClaimAndSceneInvokePlaceRecord :
    let s := claimReady
    let t := oneScene (withArgs 1 [0, 0, 0x0006, 1] (atStage .active))
    Taken 0 .none s ∧ Taken 1 .none t ∧
      (arg s 0 0 ≠ 0 ∧ argNat s 0 1 = (4095 : Level).val ∧ argLease s 0 = some (some { length := 250, start := 0 }) ∧
        (argClaimWord s 0).priority ≤ (s.right 0).ceiling ∧ (s.right 0).held < (s.right 0).quota.val ∧
        (s.record 0).claim = none ∧ ∀ ch, inSet (arg s 0 0) ch = true → (s.entry ch).list.length < 8) ∧
      argNat t 1 0 = (0 : SceneNo).val ∧ argLease t 1 = some (some { length := 1, start := 0 }) ∧
      (t.scene 0).entryCount ≠ 0 ∧ (argClaimWord t 1).priority ≤ (t.right 1).ceiling ∧
      (t.right 1).held < (t.right 1).quota.val ∧ (t.record 0).claim = none ∧
      ∀ ch, (tget (t.scene 0).levels ch).isSome = true → (t.entry ch).list.length < 8 :=
  ⟨takenOf rfl rfl, takenOf rfl rfl, by decide +kernel⟩

theorem witness_PlacementChecksInOrder :
    let s := claimReady
    let high := s.modRight 0 fun r => { r with ceiling := 6 }
    let spent := s.modRight 0 fun r => { r with held := 16 }
    Taken 0 .none s ∧ (high.right 0).ceiling < (argClaimWord high 0).priority ∧
      (4095 < argNat (withArgs 0 [1, 4096, 7] s) 0 1 ∧ arg (withArgs 0 [] s) 0 0 = 0 ∧
        250 < ((arg (withArgs 0 [1, 0, 0, 251] s) 0 3).extractLsb' 0 8).toNat ∧
        ¬ 250 < ((arg s 0 3).extractLsb' 0 8).toNat ∧ ¬ 4095 < argNat s 0 1 ∧ arg s 0 0 ≠ 0) ∧
      (15 < argNat (withArgs 0 [16] s) 0 0 ∧ argNat (withArgs 0 [15] s) 0 0 = 15 ∧
        ∀ ch : Channel, tget (s.scene 15).levels ch = none) ∧
      (spent.right 0).quota.val ≤ (spent.right 0).held ∧ (∀ x, ((fullPool s).record x).claim ≠ none) ∧
      ((fullList s).record 47).claim = none ∧ inSet (arg (fullList s) 0 0) 15 = true ∧
      8 ≤ ((fullList s).entry 15).list.length ∧
      ∀ i, i < 15 → inSet (arg s 0 0) i = true → ((fullList s).entry i).list.length < 8 :=
  ⟨takenOf rfl rfl, by decide +kernel⟩

/-- A step with ramp 0 and hold 0. -/
def zeroStep : PlayerStep := { level := 9, ramp := 0, hold := 0 }

/-- The second check of PLAYER_START, case by case (R98). -/
theorem witness_PlacementChecksOfStart :
    let s := withArgs 0 [1, 0, 7, 250, 7, 0, 0x01] (heldPlayer .loading [zeroStep] (atStage .active))
    let other := s.modPlayer 0 fun x => { x with holder := some 1 }
    Taken 0 .none s ∧ arg s 0 0 ≠ 0 ∧ argNat s 0 5 = 0 ∧ field (arg s 0 6) 0 2 = 1 ∧ field (arg s 0 6) 4 2 = 0 ∧
      1 < argNat (withArgs 0 [1, 0, 0, 0, 0, 2] s) 0 5 ∧ 1 < field (arg (withArgs 0 [1, 0, 0, 0, 0, 0, 2] s) 0 6) 0 2 ∧
      1 < field (arg (withArgs 0 [1, 0, 0, 0, 0, 0, 0x20] s) 0 6) 4 2 ∧ (s.player 1).state = .free ∧
      (other.player 0).holder ≠ some 0 ∧ (other.player 0).state ≠ .free ∧
      ((playing .playing .hold none .active).player 0).state ≠ .loading ∧
      ((heldPlayer .loading [] (atStage .active)).player 0).queue = [] ∧ (s.player 0).streamComplete = false ∧
      (∀ st ∈ (s.player 0).queue, st.ramp = 0 ∧ st.hold = 0) ∧ (s.player 0).queue ≠ [] :=
  ⟨takenOf rfl rfl, by decide +kernel⟩

/-- Port 0 modifies its claim: level 200 and a lease of 3. -/
def modifyReady : State := withArgs 0 [0, 200, 0, 3, 5, 0x11] (claimed .active)

theorem witness_ModifyAndWithdrawChecksInOrder :
    let s := modifyReady
    let refill : Word → Word → State := fun lease fields => withArgs 0 [0, 4096, 7, lease, 0, fields] s
    Taken 0 .none s ∧ handleOf 0x0400 = none ∧ handleOf 0x0030 = none ∧ handleOf 0x002F = some ⟨47, 0⟩ ∧
      (s.record 47).claim = none ∧ (s.record 0).gen ≠ 15 ∧ handleOf (arg s 0 0) = some ⟨0, 0⟩ ∧
      claimAt s ⟨0, 0⟩ = some (portClaim 0 1) ∧ (portClaim 0 1).owner ≠ .port 1 ∧
      (fieldSelectOf (arg (refill 0 2) 0 5)).priority = true ∧ (argClaimWord (refill 0 2) 0).priority = 7 ∧
      ((refill 0 2).right 0).ceiling = 7 ∧
      (((refill 0 2).modRight 0 fun r => { r with ceiling := 6 }).right 0).ceiling = 6 ∧
      (arg (refill 0 0) 0 5).extractLsb' 0 6 = 0 ∧ 4095 < argNat (refill 0 1) 0 1 ∧
      (arg (refill 0x300 16) 0 3).extractLsb' 8 2 = 3 ∧ ((arg (refill 251 16) 0 3).extractLsb' 0 8).toNat = 251 ∧
      (arg (refill 0x100 16) 0 3).extractLsb' 8 2 = 1 ∧ (portClaim 0 1).lease = none :=
  ⟨takenOf rfl rfl, by decide +kernel⟩

theorem witness_ModifyChangesChosenFields :
    let s := modifyReady
    let faded := withArgs 0 [0, 0, 0x0061, 0x200, 0, 0x1A] (claimed .active)
    Taken 0 .none s ∧ ListsInv s ∧ Taken 0 .none faded ∧ ListsInv faded ∧ handleOf (arg s 0 0) = some ⟨0, 0⟩ ∧
      claimAt s ⟨0, 0⟩ = some (portClaim 0 1) ∧ (portClaim 0 1).owner = .port 0 ∧
      (fieldSelectOf (arg s 0 5)).priority = false ∧ modifyArguments 0 (portClaim 0 1) s = false ∧
      (fieldSelectOf (arg s 0 5)).lease = true ∧ (arg s 0 3).extractLsb' 8 2 = 0 ∧
      (arg faded 0 3).extractLsb' 8 2 = 2 ∧ (fieldSelectOf (arg faded 0 5)).fade = true ∧
      (fieldSelectOf (arg faded 0 5)).priority = true ∧ ¬ (faded.right 0).ceiling < (argClaimWord faded 0).priority ∧
      modifyArguments 0 (portClaim 0 1) faded = false ∧ (argClaimWord faded 0).priority ≠ (portClaim 0 1).priority :=
  ⟨takenOf rfl rfl, listsInv_of_check (by decide +kernel), takenOf rfl rfl, listsInv_of_check (by decide +kernel),
    by decide +kernel⟩

/-- A MODIFY of the fade alone, and one of lease and tag alone, on a claim that wins. -/
theorem witness_ModifyWithoutResolution :
    let only : Word → State := fun fields => withArgs 0 [0, 0, 0x0060, 1, 0, fields] (claimed .active)
    ([0x08, 0x30] : List Word).map (fun w => modifyArguments 0 (portClaim 0 1) (only w)) = [false, false] ∧
      fieldSelectOf 0x08 = ⟨false, false, false, true, false, false⟩ ∧
      fieldSelectOf 0x30 = ⟨false, false, false, false, true, true⟩ ∧
      ((claimed .active).entry 0).winner = some ⟨0, 0⟩ := by decide +kernel

theorem witness_WithdrawFreesOwnRecords :
    let s := withArgs 0 [0] (claimed .active)
    Taken 0 .none s ∧ ListsInv s ∧ handleOf (arg s 0 0) = some ⟨0, 0⟩ ∧
      claimAt s ⟨0, 0⟩ = some (portClaim 0 1) ∧ (portClaim 0 1).owner = .port 0 ∧ arg s 0 0 = 0 ∧
      arg (withArgs 0 [0xFFFF] s) 0 0 ≠ 0 :=
  ⟨takenOf rfl rfl, listsInv_of_check (by decide +kernel), by decide +kernel⟩

/-- A PLAYER claim of port 0 whose lease is at its end. -/
def leasedPlayer : State :=
  (playing .playing .hold none .active).modRecord 0 fun r =>
    { r with claim := some { portClaim 0 1 with source := .player 0, lease := some { length := 250, start := 0 } } }

theorem witness_LeaseExpiryFreesRecord :
    let s := { leasedPlayer with now := 25000 }
    let f := place 0 { portClaim 0 1 with lease := some { length := 1, start := 0 } } (atStage .active)
    ListsInv s ∧ ListsInv { f with now := 100 } ∧
      (s.record 0).claim = some { portClaim 0 1 with source := .player 0, lease := some { length := 250, start := 0 } } ∧
      0 + 100 * (250 : Fin 251).val ≤ s.now ∧ (s.player 0).holder = some 0 ∧
      ({ f with now := 100 }.record 0).claim =
        some { portClaim 0 1 with lease := some { length := 1, start := 0 } } :=
  ⟨listsInv_of_check (by decide +kernel), listsInv_of_check (by decide +kernel), by decide +kernel⟩

theorem witness_RenewRestartsOwnLeases :
    refusesCommands State.reset.output.stage = true ∧ refusesCommands leasedPlayer.output.stage = false ∧
      slotPasses leasedPlayer (ownedBy 0) 0 = true := by decide +kernel

theorem witness_ChannelPolicySetsAndResolves :
    let s := withArgs 0 [0x8000, 4095, 1] (atStage .active)
    Taken 0 .maintenance s ∧ arg s 0 0 ≠ 0 ∧ argNat s 0 1 = (4095 : Level).val ∧
      policyOf (argNat s 0 2) = some .maximum ∧ 4095 < argNat (withArgs 0 [1, 4096] s) 0 1 ∧
      1 < argNat (withArgs 0 [1, 0, 2] s) 0 2 :=
  ⟨takenOf rfl rfl, by decide +kernel⟩

theorem witness_SceneEditsCheckedAndMade :
    let s := withArgs 0 [15, 15, 4095] (atStage .active)
    let inUse := s.modScene 15 fun x => { x with inUse := 1 }
    Taken 0 .sceneEdit s ∧ Taken 0 .sceneEdit inUse ∧ argNat s 0 0 = (15 : SceneNo).val ∧ 0 < (inUse.scene 15).inUse ∧
      (s.scene 15).inUse = 0 ∧ argNat s 0 1 = (15 : Channel).val ∧ argNat s 0 2 = (4095 : Level).val ∧
      tget (s.scene 15).levels 15 = none ∧ tget ((oneScene s).scene 0).levels 3 ≠ none ∧
      15 < argNat (withArgs 0 [16, 16, 4096] s) 0 0 ∧ 4095 < argNat (withArgs 0 [16, 16, 4096] s) 0 2 :=
  ⟨takenOf rfl (by decide +kernel), takenOf rfl (by decide +kernel), by decide +kernel⟩

theorem witness_PlayerHolderChecksAndAcquire :
    let s := withArgs 0 [0, 0, 0, 0, 0, 1] (atStage .active)
    let h := withArgs 1 [] (withArgs 0 [] (heldPlayer .loading [] (atStage .active)))
    Taken 0 .none s ∧ Taken 1 .none h ∧ argNat s 0 5 = (1 : PlayerNo).val ∧ (s.player 1).state = .free ∧
      1 < argNat (withArgs 0 [0, 0, 0, 0, 0, 2] s) 0 5 ∧ (h.player 0).state ≠ .free ∧ (h.player 0).holder = some 0 ∧
      (h.player 0).holder ≠ some 1 :=
  ⟨takenOf rfl rfl, takenOf rfl rfl, by decide +kernel⟩

/-- Port 0 pushes the longest step. -/
def pushReady (state : PlayerState) (n : Nat) : State :=
  withArgs 0 [0, 4095, 1000, 6000] (heldPlayer state (List.replicate n quick) (atStage .active))

theorem witness_PlayerPushQueuesStep :
    let s := pushReady .loading 31
    let starved := (playing .starved .hold none .active)
    let zero := withArgs 0 [0, 9, 0, 0, 0, 0] starved
    Taken 0 .none s ∧ Taken 0 .none zero ∧ argNat s 0 5 = (0 : PlayerNo).val ∧ (s.player 0).state ≠ .free ∧
      (s.player 0).holder = some 0 ∧
      argNat s 0 1 = (4095 : Level).val ∧ argNat s 0 2 = (1000 : Fin 1001).val ∧ argNat s 0 3 = (6000 : Fin 6001).val ∧
      (s.player 0).streamComplete = false ∧ (s.player 0).queue.length < 32 ∧
      32 ≤ ((pushReady .playing 32).player 0).queue.length ∧ ((pushReady .holding 0).player 0).state = .holding ∧
      (starved.player 0).state = .starved ∧ (starved.player 0).queue = [] ∧
      1000 < argNat (withArgs 0 [0, 0, 1001, 6001] s) 0 2 ∧ 6000 < argNat (withArgs 0 [0, 0, 1001, 6001] s) 0 3 ∧
      (argNat zero 0 1 = (9 : Level).val ∧ argNat zero 0 2 = (0 : Fin 1001).val ∧ argNat zero 0 3 = (0 : Fin 6001).val ∧
        (zero.player 0).mode = .oneShot ∧ (zero.player 0).claim = some ⟨0, 0⟩ ∧
        claimAt zero ⟨0, 0⟩ = some { portClaim 0 1 with source := .player 0 }) :=
  ⟨takenOf rfl rfl, takenOf rfl rfl, by decide +kernel⟩

theorem witness_PlayerEndCompletesStream :
    let s := withArgs 0 [] (playing .starved .release none .active)
    let hold := withArgs 0 [] (playing .starved .hold none .active)
    let complete := s.modPlayer 0 fun x => { x with streamComplete := true }
    Taken 0 .none s ∧ ListsInv s ∧ argNat s 0 5 = (0 : PlayerNo).val ∧ (s.player 0).holder = some 0 ∧
      (s.player 0).state = .starved ∧ (s.player 0).streamComplete = false ∧ (s.player 0).claim = some ⟨0, 0⟩ ∧
      claimAt s ⟨0, 0⟩ = some { portClaim 0 1 with source := .player 0 } ∧ (s.player 0).finish = .release ∧
      (hold.player 0).finish = .hold ∧ claimAt hold ⟨0, 0⟩ = some { portClaim 0 1 with source := .player 0 } ∧
      ((pushReady .holding 0).player 0).state = .holding ∧ ((pushReady .loading 0).player 0).state = .loading ∧
      (complete.player 0).streamComplete = true ∧ (complete.player 0).state ≠ .holding :=
  ⟨takenOf rfl rfl, listsInv_of_check (by decide +kernel), by decide +kernel⟩

theorem witness_PlayerStartPlacesAndBegins :
    let start : List PlayerStep → State := fun queue =>
      withArgs 0 [1, 0, 7, 250, 7, 0, 0x11] (heldPlayer .loading queue (atStage .active))
    let s := start [zeroStep, quick, quick]
    let shot := withArgs 0 [1, 0, 7, 250, 7, 0, 0] (start [zeroStep])
    let ended := (start [zeroStep]).modPlayer 0 fun x => { x with streamComplete := true }
    Taken 0 .none s ∧ ListsInv ended ∧ arg s 0 0 ≠ 0 ∧ argNat s 0 5 = (0 : PlayerNo).val ∧ argMode s 0 = some .loop ∧
      argFinish s 0 = some .release ∧ argLease s 0 = some (some { length := 250, start := 0 }) ∧
      (s.player 0).state = .loading ∧ (s.player 0).holder = some 0 ∧
      (s.player 0).queue = [zeroStep] ++ quick :: [quick] ∧ AllZeroTime [zeroStep] ∧ ¬ AllZeroTime [quick] ∧
      (argClaimWord s 0).priority ≤ (s.right 0).ceiling ∧
      (s.right 0).held < (s.right 0).quota.val ∧ (s.record 0).claim = none ∧
      (∀ ch, inSet (arg s 0 0) ch = true → (s.entry ch).list.length < 8) ∧
      (argMode shot 0 = some .oneShot ∧ argFinish shot 0 = some .hold ∧ (shot.player 0).queue = [zeroStep] ++ [] ∧
        (shot.player 0).streamComplete = false) ∧
      (ended.player 0).streamComplete = true ∧ (ended.player 0).queue = [zeroStep] ++ [] ∧
      argFinish ended 0 = some .release :=
  ⟨takenOf rfl rfl, listsInv_of_check (by decide +kernel), by unfold AllZeroTime; decide +kernel⟩

/-- A start that lowers the queue count from 9 to 8 queues LOW_WATER before the WINNER notice (R48, R93, log 13); one
that finishes with RELEASE announces no winner, spends no one-shot watch and leaves the modulator (R43, log 26). -/
theorem test_player_start_notices :
    let start : List PlayerStep → Word → State := fun queue mode =>
      let s := withArgs 0 [1, 0, 7, 0, 7, 0, mode] (heldPlayer .loading queue (atStage .active))
      { s with watches := tset State.reset.watches 0 (some ⟨0, .winner, 0, 0, true⟩) }
    let low := after (.playerStart 0) (start (zeroStep :: List.replicate 9 quick) 0)
    let done := after (.playerStart 0) ((start [zeroStep] 0x10).modPlayer 0 fun x => { x with streamComplete := true })
    (low.port 0).queue = [.player 0 ⟨0, 0⟩ 0 7 .lowWater, .winner 0 (some ⟨⟨0, 0⟩, .port 0, 7, 7⟩)] ∧
      low.watch 0 = none ∧
      (done.port 0).queue = [.claimRemoved 0 ⟨0, 0⟩ 0 7 .finished, .player 0 ⟨0, 0⟩ 0 7 .finished] ∧
      done.watch 0 = some ⟨0, .winner, 0, 0, true⟩ ∧ done.modulator = (start [] 0).modulator := by decide +kernel

theorem witness_PlayerAbortAndRelease :
    let s := withArgs 0 [] (playing .playing .hold none .active)
    let l := withArgs 0 [] (heldPlayer .loading [quick] (atStage .active))
    Taken 0 .none s ∧ ListsInv s ∧ Taken 0 .none l ∧ argNat s 0 5 = (0 : PlayerNo).val ∧ (s.player 0).state ≠ .free ∧
      (s.player 0).holder = some 0 ∧ (s.player 0).claim = some ⟨0, 0⟩ ∧
      claimAt s ⟨0, 0⟩ = some { portClaim 0 1 with source := .player 0 } ∧ (l.player 0).claim = none ∧
      (l.player 0).holder = some 0 ∧ (l.player 0).state ≠ .free :=
  ⟨takenOf rfl rfl, listsInv_of_check (by decide +kernel), takenOf rfl rfl, by decide +kernel⟩

def ramping (updates : Nat) : CurrentStep := { step := quick, origin := 0, began := 0, updates := updates }

theorem witness_PlayerTimedEvents :
    let ramp := { playing .playing .hold (some (ramping 1)) .active with now := 20 }
    let lastUpdate : CurrentStep := { ramping 1 with step := { quick with hold := 0 } }
    let s := { playing .playing .hold (some (ramping 2)) .active with now := 30 }
    let more := s.modPlayer 0 fun x => { x with queue := [zeroStep, quick] }
    let spent := s.modPlayer 0 fun x => { x with queue := [zeroStep] }
    let release := (playing .playing .release (some (ramping 2)) .active).modPlayer 0 fun x =>
      { x with streamComplete := true }
    ListsInv { release with now := 30 } ∧ (ramp.player 0).current = some (ramping 1) ∧
      (ramping 1).updates < quick.ramp.val ∧ 0 + 10 * (1 + 1) ≤ ramp.now ∧
      (lastUpdate.updates < lastUpdate.step.ramp.val ∧ lastUpdate.updates + 1 = lastUpdate.step.ramp.val ∧
        lastUpdate.step.hold = 0) ∧
      (s.player 0).current = some (ramping 2) ∧ (ramping 2).updates = quick.ramp.val ∧
      0 + 10 * (quick.ramp.val + quick.hold.val) ≤ s.now ∧ (s.player 0).lastHanded = (s.player 0).level ∧
      (more.player 0).queue = [zeroStep] ++ quick :: [] ∧ AllZeroTime [zeroStep] ∧ ¬ AllZeroTime [quick] ∧
      (spent.player 0).queue = [zeroStep] ++ [] ∧ (spent.player 0).recirculating = false ∧
      (s.player 0).queue = [] ∧ (s.player 0).claim = some ⟨0, 0⟩ ∧
      (s.player 0).holder = some 0 ∧ claimAt s ⟨0, 0⟩ = some { portClaim 0 1 with source := .player 0 } ∧
      (s.player 0).streamComplete = false ∧ (release.player 0).streamComplete = true ∧
      (release.player 0).finish = .release ∧ (s.player 0).finish = .hold :=
  ⟨listsInv_of_check (by decide +kernel), by unfold AllZeroTime; decide +kernel⟩

theorem witness_LineInputChangeAndStretchEnd :
    let s := (atStage .active).modLine 1 fun x => { x with filter := 15 }
    let back := (atStage .active).modLine 1 fun x => { x with filter := 15, filterEnd := some 15, raw := true }
    let stretched := (watching .line (atStage .active)).modLine 2 fun x =>
      { x with activity := .stretch, stretchEnd := some 0 }
    refusesCommands State.reset.output.stage = true ∧ refusesCommands s.output.stage = false ∧
      (s.line 1).raw = (s.line 1).filtered ∧ 0 < (s.line 1).filter.val ∧ (s.line 0).filter.val = 0 ∧
      (back.line 1).raw ≠ (back.line 1).filtered ∧ dueAt (stretched.line 2).stretchEnd stretched.now = true ∧
      stretched.watches.toList.any (watchMatches 2 .line 2) = true := by decide +kernel

/-- Line 0 as a qualification finds it. -/
def qualifying (sense : Sense) (activity : Activity) (raw : Bool) (stretch : Fin 256) : State :=
  (atStage .active).modLine 0 fun x =>
    { x with sense := sense, activity := activity, raw := raw, stretch := stretch, filterEnd := some 0 }

theorem witness_LineQualifies :
    (∀ a ∈ [Activity.quiet, .asserted, .stretch], ∀ raw ∈ [true, false], ∀ stretch ∈ [(0 : Fin 256), 255],
      ((qualifying .level a raw stretch).line 0).sense = .level ∧
        ((qualifying .edge a raw stretch).line 0).sense = .edge ∧
        dueAt ((qualifying .level a raw stretch).line 0).filterEnd 0 = true ∧
        dueAt ((qualifying .edge a raw stretch).line 0).filterEnd 0 = true ∧
        ((qualifying .level a raw stretch).line 0).activity = a ∧
        ((qualifying .edge a raw stretch).line 0).raw = raw ∧
        10 * ((qualifying .edge a raw stretch).line 0).stretch.val = 10 * stretch.val) := by decide +kernel

theorem witness_LineConfigTakesActivityAfresh :
    let s := withArgs 0 [0, 0x0011, 15, 255, 0, 7] (atStage .active)
    let stops := withArgs 0 [] ((atStage .active).modLine 0 fun x => { x with activity := .asserted })
    let starts := withArgs 0 [0, 0x0010, 0, 0, 0, 0] (atStage .active)
    Taken 0 .maintenance s ∧ argNat s 0 5 = (7 : Line).val ∧ senseOf (field (arg s 0 1) 0 2) = some .edge ∧
      polarityOf (field (arg s 0 1) 4 2) = some .second ∧ argNat s 0 2 = (15 : Fin 16).val ∧
      argNat s 0 3 = (255 : Fin 256).val ∧ (stops.line 0).isActive = true ∧ (starts.line 0).isActive = false ∧
      senseOf (field (arg starts 0 1) 0 2) = some .level ∧ 7 < argNat (withArgs 0 [0, 0, 0, 0, 0, 8] s) 0 5 ∧
      1 < field (arg (withArgs 0 [0, 2] s) 0 1) 0 2 ∧ 1 < field (arg (withArgs 0 [0, 0x20] s) 0 1) 4 2 ∧
      15 < argNat (withArgs 0 [0, 0, 16, 256] s) 0 2 ∧ 255 < argNat (withArgs 0 [0, 0, 16, 256] s) 0 3 :=
  ⟨takenOf rfl rfl, by decide +kernel⟩

theorem witness_LineBindAndUnbind :
    let s := withArgs 0 [0x8001, 4095, 0, 0, 0, 7] (atStage .active)
    let b := withArgs 0 [] (bound .active)
    Taken 0 .maintenance s ∧ Taken 0 .maintenance b ∧ ListsInv b ∧ argNat s 0 5 = (7 : Line).val ∧
      (s.line 7).binding = none ∧ (b.line 0).binding ≠ none ∧ arg s 0 0 ≠ 0 ∧ argNat s 0 1 = (4095 : Level).val ∧
      4095 < argNat (withArgs 0 [1, 4096] s) 0 1 ∧ (∀ x, ((fullPool s).record x).claim ≠ none) ∧
      ((fullList s).record 0).claim = none ∧ inSet (arg (fullList s) 0 0) 15 = true ∧
      8 ≤ ((fullList s).entry 15).list.length ∧
      (∀ i, i < 15 → inSet (arg s 0 0) i = true → ((fullList s).entry i).list.length < 8) ∧
      (∀ ch, inSet (arg s 0 0) ch = true → (s.entry ch).list.length < 8) ∧ (b.line 0).claim = some ⟨0, 0⟩ ∧
      claimAt b ⟨0, 0⟩ = some (lineClaim 0 false boundTemplate) ∧
      (lineClaim 0 false boundTemplate).source = .fixed 50 :=
  ⟨takenOf rfl rfl, takenOf rfl rfl, listsInv_of_check (by decide +kernel), by decide +kernel⟩

theorem witness_OutputLevelAndGate :
    let s := atStage .active
    let m : ModChannel := { s.chan 0 with target := 100, fade := .fading 9 50 10 .smooth }
    (s.output.stage = .active ∧ (s.out 0).enabled = true ∧ (s.out 0).fault = .ready) ∧
      State.reset.output.stage ≠ .active ∧ m.fade = .fading 9 50 10 .smooth ∧ (9 : Level) ≤ m.target ∧
      2 * 25 = 50 ∧ 10 + 50 ≤ 60 ∧ (fadeLevel m 35).val = 54 ∧ (fadeLevel m 60).val = 100 := by decide +kernel

theorem witness_ModulatorSettingsAndTimedEvents :
    let s := withArgs 0 [0x8000, 7, 1] (atStage .active)
    let c := withArgs 0 [3, 127] (atStage .active)
    let d := withArgs 0 [0, 4095] (atStage .active)
    let half := { (atStage .active).modClock 0 fun x => { x with began := some 0 } with now := 260 }
    let fade := { (atStage .active).modChan 0 fun m => { m with fade := .fading 9 50 0 .smooth } with now := 50 }
    Taken 0 .maintenance s ∧ Taken 0 .maintenance c ∧ Taken 0 .maintenance d ∧ arg s 0 0 ≠ 0 ∧
      argNat s 0 1 = (7 : FadeIndex).val ∧ shapeOf (argNat s 0 2) = some .smooth ∧
      7 < argNat (withArgs 0 [1, 8, 2] s) 0 1 ∧ 1 < argNat (withArgs 0 [1, 8, 2] s) 0 2 ∧
      argNat c 0 0 = (3 : ClockNo).val ∧ argNat c 0 1 = (127 : Fin 128).val ∧
      127 < argNat (withArgs 0 [4, 128] s) 0 1 ∧ argNat d 0 1 = (4095 : Level).val ∧
      4095 < argNat (withArgs 0 [0, 4096] s) 0 1 ∧ (half.clock 0).began = some 0 ∧
      0 + 20 * (half.clock 0).halfPeriod.val ≤ half.now ∧ (fade.chan 0).fade = .fading 9 50 0 .smooth ∧
      0 + 50 ≤ fade.now ∧ (State.reset.chan 0).fade = .parked ∧ (fade.chan 0).fade ≠ .parked :=
  ⟨takenOf rfl rfl, takenOf rfl rfl, takenOf rfl rfl, by decide +kernel⟩

theorem witness_LampTestStartsAndExpires :
    let s := withArgs 0 [0, 30] (atStage .active)
    let e := (atStage .active).setLampTest (some 0)
    let stays := (atStage .standby).setLampTest (some 0)
    let moves := (claimed .standby).setLampTest (some 0)
    Taken 0 .maintenance s ∧ Taken 0 .maintenance (withArgs 0 [0, 1] (atStage .standby)) ∧ ModulatorInv stays ∧
      ModulatorInv moves ∧ 0 < argNat s 0 1 ∧
      argNat s 0 1 ≤ 30 ∧ s.output.hold = false ∧ s.output.stage ≠ .recovery ∧ s.output.stage ≠ .latched ∧
      30 < argNat (withArgs 0 [0, 31] s) 0 1 ∧ (atStage .latched).output.stage = .latched ∧ e.lampTest = some 0 ∧
      0 ≤ e.now ∧ e.output.stage ≠ .standby ∧ isOpen e 0 = true ∧
      isOpen (e.modOut 0 fun o => { o with enabled := false }) 0 = false ∧
      (stays.output.stage = .standby ∧ demandNow { stays with lampTest := none } = false ∧ 0 ≤ stays.now) ∧
      (moves.output.stage = .standby ∧ demandNow { moves with lampTest := none } = true ∧ moves.output.hold = false) :=
  ⟨takenOf rfl rfl, takenOf rfl rfl, modulatorInv_of_check (by decide +kernel),
    modulatorInv_of_check (by decide +kernel), by decide +kernel⟩

theorem witness_HoldLineTaken :
    ModulatorInv (claimed .active) ∧ ModulatorInv (claimed .standby) ∧ ModulatorInv (atStage .recovery) ∧
      (claimed .active).output.stage = .active ∧ (claimed .standby).output.stage = .standby ∧
      demandNow (claimed .standby) = true ∧ (claimed .standby).output.supply.forcing = false ∧
      (atStage .recovery).output.stage ≠ .standby :=
  ⟨modulatorInv_of_check (by decide +kernel), modulatorInv_of_check (by decide +kernel),
    modulatorInv_of_check (by decide +kernel), by decide +kernel⟩

theorem witness_SupplyConditionsTaken :
    let low := (claimed .standby).modOutput fun o => { o with supply := o.supply.put .lampSupplyLow true }
    ModulatorInv (claimed .active) ∧ ModulatorInv low ∧ (claimed .active).output.supply.get .lampSupplyLow = false ∧
      forcingCause .lampSupplyLow = some .lampSupplyLow ∧ (claimed .active).output.recovery + 1 < 4 ∧
      4 ≤ ((claimed .active).modOutput fun o => { o with recovery := 3 }).output.recovery + 1 ∧
      low.output.supply.get .lampSupplyLow = true ∧ low.output.stage = .standby ∧ demandNow low = true ∧
      low.output.hold = false ∧ (low.output.supply.put .lampSupplyLow false).forcing = false ∧
      (low.output.supply.put .overcurrent false).forcing = true :=
  ⟨modulatorInv_of_check (by decide +kernel), modulatorInv_of_check (by decide +kernel), by decide +kernel⟩

theorem witness_StageIntervalsEnd :
    let soft := (claimed .softstart).modOutput fun o => { o with softEnd := some 0 }
    let delay := (atStage .active).modOutput fun o => { o with standbyEnd := some 0, activeEnd := some 0 }
    let rec' := (atStage .recovery).modOutput fun o => { o with recoveryEnd := some 0 }
    ModulatorInv soft ∧ ModulatorInv delay ∧ ModulatorInv rec' ∧ soft.output.stage = .softstart ∧
      dueAt soft.output.softEnd soft.now = true ∧ delay.output.stage = .active ∧ delay.output.demand = false ∧
      demandNow delay = false ∧ dueAt delay.output.standbyEnd delay.now = true ∧
      dueAt delay.output.activeEnd delay.now = true ∧ rec'.output.stage = .recovery ∧
      dueAt rec'.output.recoveryEnd rec'.now = true ∧ rec'.output.supply.forcing = false ∧
      (rec'.output.supply.put .overtempShutdown true).forcing = true :=
  ⟨modulatorInv_of_check (by decide +kernel), modulatorInv_of_check (by decide +kernel),
    modulatorInv_of_check (by decide +kernel), by decide +kernel⟩

theorem witness_LatchClearRearmsAll :
    Taken 0 .maintenance (atStage .latched) ∧ ModulatorInv (atStage .latched) ∧
      (atStage .latched).output.stage = .latched ∧ (atStage .active).output.stage ≠ .latched :=
  ⟨takenOf rfl rfl, modulatorInv_of_check (by decide +kernel), by decide +kernel⟩

theorem witness_FaultEventsIgnoredOrTaken :
    let s := watching .fault (claimed .active)
    let lit := { s with now := 0, modulator := tset s.modulator 0 { s.chan 0 with fade := .settled } }
    ModulatorInv lit ∧ (s.out 0).retry < 3 ∧ (s.out 0).enabled = true ∧ (s.out 0).fault = .ready ∧
      lit.output.stage = .active ∧ 0 < (outputLevel lit 0).val ∧ outputLevel s 5 = 0 ∧
      State.reset.output.stage = .off ∧ s.watches.toList.any (watchMatches 2 .fault 0) = true ∧
      (demandNow (atStage .standby) && !(atStage .standby).output.hold &&
        !(atStage .standby).output.supply.forcing) = false :=
  ⟨modulatorInv_of_check (by decide +kernel), by decide +kernel⟩

/-- Channel 0 is the last enabled channel that is not held-faulted, and its rearm mode is MANUAL. -/
def lastReady : State :=
  (atStage .standby).modOuts (fun o => { o with fault := .faulted .openString .held }) |>.modOut 0 fun o =>
    { o with fault := .ready, manual := true }

theorem witness_FaultEventLatches :
    ModulatorInv lastReady ∧ (lastReady.out 0).retry + 1 = 1 ∧ (lastReady.out 0).manual = true ∧
      (∀ i, i ≠ 0 → (lastReady.out i).fault = .faulted .openString .held) ∧
      (after (.channelFaultEvent 0 .ground) lastReady).output.stage = .latched :=
  ⟨modulatorInv_of_check (by decide +kernel), by decide +kernel⟩

theorem witness_RetryTimerEndReturnsReady :
    let s := ((watching .fault (atStage .active)).modOut 0 fun o =>
      { o with fault := .faulted .short (.pending (.running 0)) }).modChan 0 fun m => { m with fade := .parked }
    ModulatorInv s ∧ (s.out 0).fault = .faulted .short (.pending (.running 0)) ∧ 0 ≤ s.now ∧
      s.watches.toList.any (watchMatches 2 .fault 0) = true :=
  ⟨modulatorInv_of_check (by decide +kernel), by decide +kernel⟩

/-- A channel that has retried once runs its clean interval, due at once. -/
def cleaning : State := (claimed .active).modOut 0 fun o => { o with retry := 1, cleanEnd := some 0 }

theorem witness_CleanIntervalRule :
    dueAt (cleaning.out 0).cleanEnd cleaning.now = true ∧ 0 < (cleaning.out 0).retry ∧
      0 < (outputLevel { cleaning with modulator := tmod cleaning.modulator 0 fun m => { m with fade := .settled } } 0).val ∧
      CleanInv { cleaning with pending := [.holdAsserted] } ∧
      (match step { cleaning with pending := [.holdAsserted] } with
        | .next t => decide (t.output.stage = .standby)
        | _ => false) = true :=
  ⟨by decide +kernel, by decide +kernel, by decide +kernel, by unfold CleanInv; decide +kernel, by decide +kernel⟩

/-- HOLD asserted takes the stage out of ACTIVE and cancels a clean interval that runs (R161, R172). -/
theorem test_hold_cancels_clean_interval :
    ((after .holdAsserted cleaning).out 0).cleanEnd = none ∧ (cleaning.out 0).cleanEnd = some 0 := by decide +kernel

theorem witness_ChannelCommandsSetChannels :
    let s := withArgs 0 [0x8001, 0] (claimed .active)
    let f := s.modOut 0 fun o => { o with enabled := false, fault := .faulted .short (.pending (.running 9)) }
    Taken 0 .maintenance s ∧ ModulatorInv s ∧
      ModulatorInv { f with modulator := tmod f.modulator 0 fun m => { m with fade := .parked } } ∧ arg s 0 0 ≠ 0 ∧
      flagOf (argNat s 0 1) = some false ∧ flagOf (argNat (withArgs 0 [1, 1] s) 0 1) = some true ∧
      1 < argNat (withArgs 0 [1, 2] s) 0 1 ∧ arg (withArgs 0 [] s) 0 0 = 0 ∧
      (f.out 0).fault = .faulted .short (.pending (.running 9)) :=
  ⟨takenOf rfl rfl, modulatorInv_of_check (by decide +kernel), modulatorInv_of_check (by decide +kernel),
    by decide +kernel⟩

theorem witness_PrivSetStoresAndCascades :
    let s := withArgs 0 [0, 2, 1, 1] (claimed .active)
    let two := s.modRight 0 fun r => { r with held := 2 }
    Taken 0 .maintenance s ∧ ListsInv s ∧ CeilingsHold s ∧ argNat s 0 0 = (0 : Port).val ∧
      argNat s 0 1 = (2 : Priority).val ∧ flagOf (argNat s 0 2) = some true ∧ argNat s 0 3 = (1 : Fin 49).val ∧
      (s.right 0).held ≤ 1 ∧ 1 < (two.right 0).held ∧ (2 : Priority) ≠ (s.right 0).ceiling ∧
      2 < argNat (withArgs 0 [3, 8, 2, 49] s) 0 0 ∧ 7 < argNat (withArgs 0 [3, 8, 2, 49] s) 0 1 ∧
      1 < argNat (withArgs 0 [3, 8, 2, 49] s) 0 2 ∧ 48 < argNat (withArgs 0 [3, 8, 2, 49] s) 0 3 :=
  ⟨takenOf rfl rfl, listsInv_of_check (by decide +kernel), ceilingsHold_of_check (by decide +kernel),
    by decide +kernel⟩

/-- The freeings of a cascade in the state above, and none where the ceiling stays at 7. -/
theorem witness_PrivSetCascade :
    (slotsWhere (claimed .active) fun c => ownedBy 0 c && decide ((2 : Priority) < c.priority)) = [0] ∧
      (slotsWhere (claimed .active) fun c => ownedBy 0 c && decide ((7 : Priority) < c.priority)) = [] := by
  decide +kernel

theorem witness_MaintHandoverMovesRight :
    let s := withArgs 0 [2] (atStage .active)
    Taken 0 .maintenance s ∧ argNat s 0 0 = (2 : Port).val ∧ (2 : Port) ≠ 0 ∧
      argNat (withArgs 0 [] s) 0 0 = (0 : Port).val ∧ 2 < argNat (withArgs 0 [3] s) 0 0 :=
  ⟨takenOf rfl rfl, by decide +kernel⟩

theorem witness_PortResetAndPortClear :
    let s := watching .winner (withArgs 0 [2] (claimed .active))
    ListsInv s ∧ CountsInv s ∧ Taken 0 .maintenance s ∧ argNat s 0 0 = (2 : Port).val ∧
      argNat (withArgs 0 [] s) 0 0 = (0 : Port).val ∧ inSet (coveredBy s [0]) 0 = true ∧
      s.watch 0 = some ⟨2, .winner, 0, 15, true⟩ ∧ s.watch 11 = none ∧ (s.player 0).holder ≠ some 0 ∧
      ((heldPlayer .loading [] s).player 0).holder = some 0 ∧ Taken 0 .maintenance (withArgs 0 [3] s) ∧
      2 < argNat (withArgs 0 [3] s) 0 0 :=
  ⟨listsInv_of_check (by decide +kernel), countsInv_of_check (by decide +kernel) (by decide +kernel),
    takenOf rfl rfl, by decide +kernel, by decide +kernel, by decide +kernel, by decide +kernel, by decide +kernel,
    by decide +kernel, by decide +kernel, takenOf rfl rfl, by decide +kernel⟩

/-- Boundary values of the coded fields: each pattern kind with its parameters at their ends, leases 0, 1, 250 and 251, and
a claim word of ones and noughts in turn. -/
theorem witness_HandleAndPatternCodesDecode :
    ([0xFC, 0x1D, 0x01, 0xE2, 0xFF, 0x03] : List Byte).map patternOf =
        [.steady, .blink 3 .inverted, .blink 0 .normal, .flash 7, .combine 7 3, .combine 0 0] ∧
      ([0xFF00, 0x0001, 0x03FA, 0x00FB] : List Word).map (fun w => leaseOf w 9) =
        [some none, some (some ⟨1, 9⟩), some (some ⟨250, 9⟩), none] ∧
      claimWordOf 0xFF8D = { priority := 5, fade := 0, pattern := .combine 7 3 } ∧
      claimWordOf 0x0078 = { priority := 0, fade := 7, pattern := .steady } := by decide +kernel

/-- The invariants of the step statements hold in a state with a claim and a command waiting. -/
theorem witness_StepKeeps :
    let s := { withArgs 0 [0] (claimed .active) with pending := [.withdraw 0] }
    ModulatorInv s ∧ CountsInv s ∧ CeilingsHold s ∧ ListsInv s ∧ QueuesBounded s ∧ RetriesBounded s ∧
      (match step s with | .next t => decide ((t.record 0).claim = none) | _ => false) = true :=
  ⟨modulatorInv_of_check (by decide +kernel), countsInv_of_check (by decide +kernel) (by decide +kernel),
    ceilingsHold_of_check (by decide +kernel), listsInv_of_check (by decide +kernel), by unfold QueuesBounded; decide +kernel,
    by unfold RetriesBounded; decide +kernel, by decide +kernel⟩

theorem witness_StageInvariantMakesSafe : StageInv (claimed .active) :=
  ⟨⟨by decide +kernel, by decide +kernel, by decide +kernel, by decide +kernel, by decide +kernel⟩,
    by unfold NoForcingWhileUp; decide +kernel, by decide +kernel, by decide +kernel⟩

end Sys2Proof.Tests
end

namespace Sys2Proof.Machine

/-! ## What a step does to the claim pool -/

/-! ### The single moves of the pool -/

/-- What a taking that neither places, frees nor alters a claim leaves: the records, the rights with their held-claim
counts, the in-use counts and the claim lists. -/
structure ClaimsKept (s t : State) : Prop where
  pool : t.pool = s.pool
  rights : ∀ p, t.right p = s.right p
  inUse : ∀ n, (t.scene n).inUse = (s.scene n).inUse
  lists : ∀ ch, (t.entry ch).list = (s.entry ch).list

/-- A claim altered in place: whose it is, what it covers and whether it draws from a scene stay (R16, R33). -/
structure SameClaimant (c c' : Claim) : Prop where
  owner : c'.owner = c.owner
  channels : c'.channels = c.channels
  draws : ∀ n, drawsFrom n c' = drawsFrom n c

/-- One move of the claim pool, with the checks that precede it: nothing, a record seated (R8, R11), freed (R20), altered
in its place (R16, R33) or moved to the head of a class (R16, R31), a row of the access table granted with the cascade
that follows (R194), or power-on reset (R25, R193). -/
inductive ClaimMove : State → State → Prop
  | kept {s t : State} (h : ClaimsKept s t) : ClaimMove s t
  | seat {s : State} (slot : Slot) (c : Claim) (free : (s.record slot).claim = none)
      (room : ∀ ch ∈ members c.channels, (s.entry ch).list.length < listLimit)
      (quota : ∀ p, c.owner = .port p → (s.right p).held + 1 ≤ (s.right p).quota.val)
      (ceiling : ∀ p, c.owner = .port p → c.priority ≤ (s.right p).ceiling) : ClaimMove s (seat slot c s)
  | free {s : State} (x : FreeCause) (slot : Slot) : ClaimMove s (freeRecord x slot s)
  | alter {s : State} (h : Handle) (c c' : Claim) (live : claimAt s h = some c) (same : SameClaimant c c')
      (priority : c'.priority = c.priority) : ClaimMove s (s.modRecord h.slot fun r => { r with claim := some c' })
  | reinsert {s : State} (h : Handle) (c c' : Claim) (live : claimAt s h = some c) (same : SameClaimant c c')
      (ceiling : c'.priority = c.priority ∨ ∀ p, c.owner = .port p → c'.priority ≤ (s.right p).ceiling) :
      ClaimMove s (reinsert h c' (s.modRecord h.slot fun r => { r with claim := some c' }))
  | grant {s t : State} (p : Port) (ceiling : Priority) (sceneEdit : Bool) (quota : Fin 49)
      (room : (s.right p).held ≤ quota.val)
      (stored : ClaimsKept
        (s.modRight p fun r => { r with ceiling := ceiling, sceneEdit := sceneEdit, quota := quota }) t) :
      ClaimMove s (forEach (cascadeSlots p ceiling s) (freeRecord .ceilingCascade) t)
  | powerOn {s : State} (pins : PowerOnPins) : ClaimMove s (powerOnState pins s)

/-- A sequence of moves of the claim pool: what every taking amounts to. -/
def ClaimMoves (s t : State) : Prop := Relation.ReflTransGen ClaimMove s t

theorem ClaimMoves.refl {s : State} : ClaimMoves s s := Relation.ReflTransGen.refl

theorem ClaimMoves.trans {s t u : State} (h : ClaimMoves s t) (k : ClaimMoves t u) : ClaimMoves s u :=
  Relation.ReflTransGen.trans h k

/-- What every single move keeps, every sequence of moves keeps. -/
theorem ClaimMoves.keeps {P : State → Prop} (hP : ∀ s t, ClaimMove s t → P s → P t) {s t : State} (h : ClaimMoves s t)
    (hs : P s) : P t := by
  induction h with
  | refl => exact hs
  | tail _ hm ih => exact hP _ _ hm ih

theorem ClaimMove.one {s t : State} (h : ClaimMove s t) : ClaimMoves s t := Relation.ReflTransGen.single h

theorem ClaimsKept.refl (s : State) : ClaimsKept s s := ⟨rfl, fun _ => rfl, fun _ => rfl, fun _ => rfl⟩

theorem ClaimsKept.of_eq {s t : State} (h1 : t.pool = s.pool) (h2 : t.access = s.access) (h3 : t.scenes = s.scenes)
    (h4 : ∀ ch, (t.entry ch).list = (s.entry ch).list) : ClaimsKept s t :=
  ⟨h1, fun p => by simp only [State.right, h2], fun n => by simp only [State.scene, h3], h4⟩

/-- A taking that writes none of the pool's tables. -/
theorem ClaimMoves.of_eq {s t : State} (h1 : t.pool = s.pool) (h2 : t.access = s.access) (h3 : t.scenes = s.scenes)
    (h4 : t.resolver = s.resolver) : ClaimMoves s t :=
  (ClaimMove.kept (.of_eq h1 h2 h3 fun ch => by simp only [State.entry, h4])).one

theorem forEach_claimMoves {ι : Type} (l : List ι) (f : ι → State → State) (h : ∀ i s, ClaimMoves s (f i s)) (s : State) :
    ClaimMoves s (forEach l f s) :=
  forEach_preserves (ClaimMoves s) l f (fun i t ht => ht.trans (h i t)) s .refl

/-! ### The shared operations as moves -/

theorem resolveSet_claimMoves (f : Option Handle) (e : Bool) (cs : ChannelSet) (s : State) :
    ClaimMoves s (resolveSet f e cs s) :=
  (ClaimMove.kept (.of_eq (by simp) (by simp) (by simp) (resolveSet_list f e cs s))).one

theorem settle_claimMoves (c : Cause) (s : State) : ClaimMoves s (settle c s) :=
  .of_eq (by simp) (by simp) (by simp) (by simp)

/-- The end of a taking after its moves. -/
theorem ClaimMoves.settle {s t : State} (h : ClaimMoves s t) (c : Cause) : ClaimMoves s (settle c t) :=
  h.trans (settle_claimMoves c t)

theorem enterStage_claimMoves (st : StageName) (c : Cause) (s : State) : ClaimMoves s (enterStage st c s) :=
  .of_eq (by simp) (by simp) (by simp) (by simp)

theorem fireWatches_claimMoves (k : WatchKind) (i : Nat) (n : Notice) (s : State) : ClaimMoves s (fireWatches k i n s) :=
  .of_eq (by simp) (by simp) (by simp) (by simp)

theorem faultEvent_claimMoves (ch : Channel) (d : FaultDetail) (s : State) : ClaimMoves s (faultEvent ch d s) :=
  .of_eq (by simp) (by simp) (by simp) (by simp)

theorem cleanChannels_claimMoves (s : State) : ClaimMoves s (cleanChannels s) :=
  .of_eq (by simp) (by simp) (by simp) (by simp)

theorem offer_claimMoves (p : Port) (n : Notice) (s : State) : ClaimMoves s (offer p n s) :=
  .of_eq rfl rfl rfl rfl

theorem offerAll_claimMoves (n : Notice) (s : State) : ClaimMoves s (offerAll n s) :=
  .of_eq (by simp) (by simp) (by simp) (by simp)

theorem modPlayer_claimMoves (n : PlayerNo) (f : Player → Player) (s : State) : ClaimMoves s (s.modPlayer n f) :=
  .of_eq rfl rfl rfl rfl

theorem modLine_claimMoves (l : Line) (f : LineState → LineState) (s : State) : ClaimMoves s (s.modLine l f) :=
  .of_eq rfl rfl rfl rfl

theorem modOut_claimMoves (ch : Channel) (f : OutChannel → OutChannel) (s : State) : ClaimMoves s (s.modOut ch f) :=
  .of_eq rfl rfl rfl rfl

theorem syncChannel_claimMoves (ch : Channel) (s : State) : ClaimMoves s (syncChannel ch s) := .of_eq rfl rfl rfl rfl

theorem modChan_claimMoves (ch : Channel) (f : ModChannel → ModChannel) (s : State) : ClaimMoves s (s.modChan ch f) :=
  .of_eq rfl rfl rfl rfl

theorem modClock_claimMoves (k : ClockNo) (f : PatternClock → PatternClock) (s : State) :
    ClaimMoves s (s.modClock k f) := .of_eq rfl rfl rfl rfl

theorem setLampTest_claimMoves (t : Option Instant) (s : State) : ClaimMoves s (s.setLampTest t) :=
  .of_eq rfl rfl rfl rfl

theorem modPort_claimMoves (p : Port) (f : PortState → PortState) (s : State) : ClaimMoves s (s.modPort p f) :=
  .of_eq rfl rfl rfl rfl

theorem modOutput_claimMoves (f : OutputStage → OutputStage) (s : State) : ClaimMoves s (s.modOutput f) :=
  .of_eq rfl rfl rfl rfl

/-- The freeings of one taking are freeings one after another, and a resolution. -/
theorem freeRecords_claimMoves (x : FreeCause) (e : Bool) (l : List Slot) (s : State) :
    ClaimMoves s (freeRecords x e l s) :=
  (forEach_claimMoves l _ (fun k _ => (ClaimMove.free x k).one) s).trans (resolveSet_claimMoves _ _ _ _)

/-- A placement is a seating and a resolution. -/
theorem place_claimMoves {slot : Slot} {c : Claim} {s : State} (free : (s.record slot).claim = none)
    (room : ∀ ch ∈ members c.channels, (s.entry ch).list.length < listLimit)
    (quota : ∀ p, c.owner = .port p → (s.right p).held + 1 ≤ (s.right p).quota.val)
    (ceiling : ∀ p, c.owner = .port p → c.priority ≤ (s.right p).ceiling) : ClaimMoves s (place slot c s) :=
  (ClaimMove.seat slot c free room quota ceiling).one.trans (resolveSet_claimMoves _ _ _ _)

/-- A command moves the pool as its body does. -/
theorem takeCommand_claimMoves (p : Port) (n : Need) {body : State → State × Result} {s : State}
    (h : ClaimMoves s (body s).1) : ClaimMoves s (takeCommand p n body s) := by
  have hb : ClaimMoves s (checkedBody p n body s).1 := by
    unfold checkedBody
    split_ifs
    · exact .refl
    · exact .refl
    · exact h
  exact hb.trans (modPort_claimMoves p _ _)

/-! ### Placements by a port and by a line -/

/-- What the checks of a placement by a port have found where they leave room (R7, R8). -/
theorem placementCheck_room {s : State} {p : Port} {priority : Priority} {bad : Option ResultCode} {cs : ChannelSet}
    {slot : Slot} (h : placementCheck s p priority bad cs = .room slot) :
    priority ≤ (s.right p).ceiling ∧ bad = none ∧ (s.right p).held < (s.right p).quota.val ∧
      roomCheck s cs = .room slot := by
  unfold placementCheck at h
  split at h
  · cases h
  · next hc =>
    split at h
    · cases h
    · split at h
      · cases h
      · next hq => exact ⟨not_lt.mp hc, rfl, by omega, h⟩

/-- A claim of a port that has passed the checks of a placement is seated as they allow. -/
theorem seat_claimMove_of_check {s : State} {p : Port} {bad : Option ResultCode} {c : Claim} {slot : Slot}
    (ho : c.owner = .port p) (h : placementCheck s p c.priority bad c.channels = .room slot) :
    ClaimMove s (seat slot c s) := by
  obtain ⟨hceiling, -, hquota, hroom⟩ := placementCheck_room h
  obtain ⟨hslot, hlists⟩ := roomCheck_room hroom
  refine .seat slot c (freeSlot?_some hslot).1 hlists (fun q hq => ?_) fun q hq => ?_
  · obtain rfl : p = q := Owner.port.inj (ho.symm.trans hq)
    exact hquota
  · obtain rfl : p = q := Owner.port.inj (ho.symm.trans hq)
    exact hceiling

theorem placeForPort_claimMoves {p : Port} {c : Claim} (bad : Option ResultCode) (ho : c.owner = .port p) (s : State) :
    ClaimMoves s (placeForPort p bad c s).1 := by
  unfold placeForPort
  split
  · exact .refl
  · next slot h => exact ((seat_claimMove_of_check ho h).one.trans (resolveSet_claimMoves _ _ _ _)).settle _

/-- A line's claim needs no quota and no ceiling (R119). -/
theorem placeLine_claimMoves {s : State} {t : Template} {slot : Slot} (l : Line) (h : roomCheck s t.channels = .room slot) :
    ClaimMoves s (placeLine l t slot s) := by
  obtain ⟨hslot, hlists⟩ := roomCheck_room h
  exact (place_claimMoves (freeSlot?_some hslot).1 hlists (fun _ hp => by cases hp) (fun _ hp => by cases hp)).trans
    (modLine_claimMoves _ _ _)

/-! ### Commands of the claim pool and the scenes -/

/-- A chosen level replaces a FIXED level, and no other change of a MODIFY touches owner, channels or source (R15, R16). -/
theorem modifiedClaim_sameClaimant {p : Port} {c : Claim} {s : State} (h : modifyArguments p c s = false) :
    SameClaimant c (modifiedClaim p c s) := by
  refine ⟨rfl, rfl, fun n => ?_⟩
  simp only [modifiedClaim, drawsFrom]
  split_ifs with hl
  · simp only [modifyArguments, hl, Bool.true_and, Bool.or_eq_false_iff, Bool.not_eq_false'] at h
    obtain ⟨⟨-, hfixed, -⟩, -⟩ := h
    cases hs : c.source with
    | fixed v => rfl
    | scene m => simp [hs, LevelSource.isFixed] at hfixed
    | player m => simp [hs, LevelSource.isFixed] at hfixed
  · rfl

theorem handFade_claimMoves (h : Handle) (c : Claim) (s : State) : ClaimMoves s (handFade h c s) :=
  forEach_claimMoves _ _ (fun ch t => by
    split
    · exact .of_eq (by simp) (by simp) (by simp) (by simp)
    · exact .refl) s

/-- The record of a MODIFY is altered in its place, or moved where its priority changes. -/
theorem applyModify_claimMoves {p : Port} {h : Handle} {c : Claim} {s : State} (hc : claimAt s h = some c)
    (ho : c.owner = .port p) (ha : modifyArguments p c s = false)
    (hp : (fieldSelectOf (arg s p 5)).priority = true → (argClaimWord s p).priority ≤ (s.right p).ceiling) :
    ClaimMoves s (applyModify p h c s) := by
  have hsame := modifiedClaim_sameClaimant ha
  have hrecord : ClaimMoves s
      (if decide ((modifiedClaim p c s).priority ≠ c.priority) then
        reinsert h (modifiedClaim p c s) (s.modRecord h.slot fun r => { r with claim := some (modifiedClaim p c s) })
      else s.modRecord h.slot fun r => { r with claim := some (modifiedClaim p c s) }) := by
    split
    · next hmoved =>
      refine (ClaimMove.reinsert h c _ hc hsame (.inr fun q hq => ?_)).one
      obtain rfl : p = q := Owner.port.inj (ho.symm.trans hq)
      have hsel : (fieldSelectOf (arg s p 5)).priority = true := by
        by_contra hn
        simp [modifiedClaim, hn] at hmoved
      simpa [modifiedClaim, hsel] using hp hsel
    · next hstays => exact (ClaimMove.alter h c _ hc hsame (by simpa using hstays)).one
  unfold applyModify
  dsimp only
  split
  · exact (hrecord.trans (resolveSet_claimMoves _ _ _ _)).settle _
  · split
    · exact (hrecord.trans (handFade_claimMoves _ _ _)).settle _
    · exact hrecord

theorem modifyBody_claimMoves (p : Port) (s : State) : ClaimMoves s (modifyBody p s).1 := by
  unfold modifyBody
  split
  · exact .refl
  · split
    · exact .refl
    · next c hc =>
      split
      · exact .refl
      · next ho =>
        split
        · exact .refl
        · next hp =>
          split
          · exact .refl
          · next ha =>
            exact applyModify_claimMoves hc (not_not.mp ho) (by simpa using ha) (by simpa using hp)

theorem withdrawBody_claimMoves (p : Port) (s : State) : ClaimMoves s (withdrawBody p s).1 := by
  unfold withdrawBody
  split
  · exact .refl
  · split
    · exact .refl
    · split
      · exact .refl
      · exact (freeRecords_claimMoves _ _ _ _).settle _

theorem withdrawAllBody_claimMoves (p : Port) (s : State) : ClaimMoves s (withdrawAllBody p s).1 := by
  unfold withdrawAllBody
  split
  · exact .refl
  · exact (freeRecords_claimMoves _ _ _ _).settle _

/-- An update that changes no record changes no state. -/
theorem modRecord_eq_self {s : State} {slot : Slot} {f : ClaimRecord → ClaimRecord} (h : f (s.record slot) = s.record slot) :
    s.modRecord slot f = s := by
  have : (s.modRecord slot f).pool = s.pool := by
    rw [State.modRecord_pool, tmod, ← State.record, h]
    exact tset_tget s.pool slot
  exact congrArg (fun v => { s with pool := v }) this

/-- Two updates of a slot that make the same of its record. -/
theorem modRecord_congr {s : State} {slot : Slot} {f g : ClaimRecord → ClaimRecord}
    (h : f (s.record slot) = g (s.record slot)) : s.modRecord slot f = s.modRecord slot g :=
  congrArg (fun r => { s with pool := tset s.pool slot r }) h

/-- A lease restarted is an alteration in place (R59). -/
theorem restartLease_claimMoves (slot : Slot) (now : Instant) (s : State) :
    ClaimMoves s (s.modRecord slot (restartLease now)) := by
  cases hc : (s.record slot).claim with
  | none =>
    have hr : restartLease now (s.record slot) = s.record slot := by
      rw [restartLease, hc, Option.map_none, ← hc]
    rw [modRecord_eq_self hr]
    exact .refl
  | some c =>
    have hr : s.modRecord slot (restartLease now) = s.modRecord (handleAt s slot).slot fun r =>
        { r with claim := some { c with lease := c.lease.map fun l => { l with start := now } } } :=
      modRecord_congr (by rw [restartLease, hc, Option.map_some])
    have hlive : claimAt s (handleAt s slot) = some c := by simp [claimAt, handleAt, hc]
    rw [hr]
    exact (ClaimMove.alter _ c { c with lease := c.lease.map fun l => { l with start := now } } hlive
      ⟨rfl, rfl, fun _ => rfl⟩ rfl).one

theorem renewBody_claimMoves (p : Port) (s : State) : ClaimMoves s (renewBody p s).1 :=
  forEach_claimMoves (ownLeased p s) (fun slot t => t.modRecord slot (restartLease t.now))
    (fun slot t => restartLease_claimMoves slot t.now t) s

/-- Policies and idle levels are written beside the lists (R50). -/
theorem setPolicy_claimMoves (cs : ChannelSet) (policy : Policy) (idle : Level) (s : State) :
    ClaimMoves s (setPolicy cs policy idle s) := by
  have hwrite : ∀ (ch : Channel) (t : State),
      ClaimsKept t (t.modEntry ch fun e => { e with policy := policy, idle := idle }) := fun ch t =>
    .of_eq rfl rfl rfl fun i => by
      rw [State.entry_modEntry]
      split_ifs with h
      · rw [h]
      · rfl
  exact (forEach_claimMoves _ _ (fun ch t => (ClaimMove.kept (hwrite ch t)).one) s).trans (resolveSet_claimMoves _ _ _ _)

theorem channelPolicyBody_claimMoves (p : Port) (s : State) : ClaimMoves s (channelPolicyBody p s).1 := by
  unfold channelPolicyBody
  split
  · split
    · exact .refl
    · exact (setPolicy_claimMoves _ _ _ s).settle _
  · exact .refl

/-- An edit of a scene leaves its in-use count. -/
theorem editScene_claimMoves (n : SceneNo) (levels : Vector (Option Level) 16) (s : State) :
    ClaimMoves s (editScene n levels s).1 := by
  unfold editScene
  split
  · exact .refl
  · have hin : ∀ m, ((s.modScene n fun x => { x with levels := levels }).scene m).inUse = (s.scene m).inUse := fun m => by
      rw [State.scene_modScene]
      split_ifs with h
      · rw [h]
      · rfl
    exact (ClaimMove.kept (s := s) (t := s.modScene n fun x => { x with levels := levels })
      ⟨rfl, fun _ => rfl, hin, fun _ => rfl⟩).one

theorem scenePutBody_claimMoves (p : Port) (s : State) : ClaimMoves s (scenePutBody p s).1 := by
  unfold scenePutBody
  split
  · exact editScene_claimMoves _ _ _
  · exact .refl

theorem sceneDropBody_claimMoves (p : Port) (s : State) : ClaimMoves s (sceneDropBody p s).1 := by
  unfold sceneDropBody
  split
  · split
    · exact .refl
    · split
      · exact .refl
      · exact editScene_claimMoves _ _ _
  · exact .refl

theorem sceneEraseBody_claimMoves (p : Port) (s : State) : ClaimMoves s (sceneEraseBody p s).1 := by
  unfold sceneEraseBody
  split
  · exact editScene_claimMoves _ _ _
  · exact .refl

theorem leaseExpires_claimMoves (slot : Slot) (s : State) : ClaimMoves s (leaseExpires slot s) := by
  unfold leaseExpires
  split
  · exact (freeRecords_claimMoves _ _ _ _).settle _
  · exact .refl

/-! ### Players -/

theorem playerNotice_claimMoves (n : PlayerNo) (d : PlayerDetail) (s : State) : ClaimMoves s (playerNotice n d s) := by
  unfold playerNotice
  split
  · split
    · exact offer_claimMoves _ _ _
    · exact .refl
  · exact .refl

theorem beginStep_claimMoves (n : PlayerNo) (s : State) : ClaimMoves s (beginStep n s) := by
  unfold beginStep
  dsimp only
  split
  · exact (modPlayer_claimMoves _ _ _).trans (playerNotice_claimMoves _ _ _)
  · exact modPlayer_claimMoves _ _ _

theorem starve_claimMoves (n : PlayerNo) (s : State) : ClaimMoves s (starve n s) :=
  (modPlayer_claimMoves _ _ _).trans (playerNotice_claimMoves _ _ _)

theorem finishPlayer_claimMoves (n : PlayerNo) (s : State) : ClaimMoves s (finishPlayer n s) := by
  unfold finishPlayer
  split
  · exact (modPlayer_claimMoves _ _ _).trans (playerNotice_claimMoves _ _ _)
  · split
    · exact freeRecords_claimMoves _ _ _ _
    · exact modPlayer_claimMoves _ _ _

theorem runSteps_claimMoves (fuel : Nat) (n : PlayerNo) (s : State) : ClaimMoves s (runSteps fuel n s) := by
  induction fuel generalizing s with
  | zero => exact .refl
  | succ fuel ih =>
    unfold runSteps
    split
    · split
      · exact finishPlayer_claimMoves _ _
      · exact starve_claimMoves _ _
    · dsimp only
      split
      · exact (beginStep_claimMoves _ _).trans (ih _)
      · exact beginStep_claimMoves _ _

theorem runQueue_claimMoves (n : PlayerNo) (s : State) : ClaimMoves s (runQueue n s) := runSteps_claimMoves _ _ _

theorem handPlayerLevel_claimMoves (e : Bool) (n : PlayerNo) (s : State) : ClaimMoves s (handPlayerLevel e n s) := by
  unfold handPlayerLevel
  split
  · exact .refl
  · exact (modPlayer_claimMoves _ _ _).trans (resolveSet_claimMoves _ _ _ _)

theorem rampUpdates_claimMoves (n : PlayerNo) (s : State) : ClaimMoves s (rampUpdates n s) := by
  unfold rampUpdates
  split
  · exact ((modPlayer_claimMoves _ _ _).trans (handPlayerLevel_claimMoves _ _ _)).settle _
  · exact .refl

theorem stepCompletes_claimMoves (n : PlayerNo) (s : State) : ClaimMoves s (stepCompletes n s) := by
  unfold stepCompletes
  split
  · exact ((runQueue_claimMoves _ _).trans (handPlayerLevel_claimMoves _ _ _)).settle _
  · exact .refl

theorem onHeldPlayer_claimMoves {p : Port} {body : PlayerNo → State → State × Result} {s : State}
    (h : ∀ n, ClaimMoves s (body n s).1) : ClaimMoves s (onHeldPlayer p body s).1 := by
  unfold onHeldPlayer
  split
  · exact .refl
  · split
    · exact .refl
    · split
      · exact .refl
      · exact h _

theorem playerAcquireBody_claimMoves (p : Port) (s : State) : ClaimMoves s (playerAcquireBody p s).1 := by
  unfold playerAcquireBody
  split
  · exact .refl
  · split
    · exact modPlayer_claimMoves _ _ _
    · split <;> exact .refl

theorem pushStep_claimMoves (n : PlayerNo) (st : PlayerStep) (s : State) : ClaimMoves s (pushStep n st s) := by
  unfold pushStep
  dsimp only
  split
  · exact (((modPlayer_claimMoves _ _ _).trans (modPlayer_claimMoves _ _ _)).trans
      ((runQueue_claimMoves _ _).trans (handPlayerLevel_claimMoves _ _ _))).settle _
  · exact modPlayer_claimMoves _ _ _

theorem playerPushBody_claimMoves (p : Port) (s : State) : ClaimMoves s (playerPushBody p s).1 :=
  onHeldPlayer_claimMoves fun n => by
    dsimp only
    split
    · exact .refl
    · split
      · exact .refl
      · split
        · exact .refl
        · exact pushStep_claimMoves _ _ _

theorem endStream_claimMoves (n : PlayerNo) (s : State) : ClaimMoves s (endStream n s) := by
  unfold endStream
  dsimp only
  split
  · exact .refl
  · split
    · exact ((modPlayer_claimMoves _ _ _).trans (finishPlayer_claimMoves _ _)).settle _
    · exact modPlayer_claimMoves _ _ _

theorem playerEndBody_claimMoves (p : Port) (s : State) : ClaimMoves s (playerEndBody p s).1 :=
  onHeldPlayer_claimMoves fun n => by
    dsimp only
    split
    · exact .refl
    · exact endStream_claimMoves _ _

theorem winnerEvents_claimMoves (cs : ChannelSet) (before s : State) : ClaimMoves s (winnerEvents cs before s) :=
  .of_eq (by simp) (by simp) (by simp) (by simp)

theorem runStart_claimMoves {n : PlayerNo} {start : Player → Player} {cs : ChannelSet} {before seated placed s : State}
    (h : ClaimMoves s seated) (k : ClaimMoves s placed) :
    ClaimMoves s (runStart n start cs before seated placed) := by
  unfold runStart
  dsimp only
  split
  · exact h.trans ((modPlayer_claimMoves _ _ _).trans (runQueue_claimMoves _ _))
  · exact k.trans (((modPlayer_claimMoves _ _ _).trans (runQueue_claimMoves _ _)).trans
      ((handPlayerLevel_claimMoves _ _ _).trans (winnerEvents_claimMoves _ _ _)))

theorem playerStartBody_claimMoves (p : Port) (s : State) : ClaimMoves s (playerStartBody p s).1 := by
  unfold playerStartBody
  dsimp only
  split
  · exact .refl
  · next slot h =>
    have hseated := (modPlayer_claimMoves ((argPlayer s p).getD 0) (fun x => { x with level := 0, lastHanded := 0 }) s).trans
      (seat_claimMove_of_check (s := s.modPlayer ((argPlayer s p).getD 0) fun x => { x with level := 0, lastHanded := 0 })
        (p := p) (bad := startArguments p s) rfl h).one
    exact (runStart_claimMoves hseated (hseated.trans (resolveSet_claimMoves _ _ _ _))).settle _

theorem abortPlayer_claimMoves (x : FreeCause) (n : PlayerNo) (s : State) : ClaimMoves s (abortPlayer x n s) := by
  unfold abortPlayer
  dsimp only
  split
  · exact (freeRecords_claimMoves _ _ _ _).trans (modPlayer_claimMoves _ _ _)
  · exact modPlayer_claimMoves _ _ _

theorem playerAbortBody_claimMoves (p : Port) (s : State) : ClaimMoves s (playerAbortBody p s).1 :=
  onHeldPlayer_claimMoves fun _ => (abortPlayer_claimMoves _ _ _).settle _

theorem playerReleaseBody_claimMoves (p : Port) (s : State) : ClaimMoves s (playerReleaseBody p s).1 :=
  onHeldPlayer_claimMoves fun _ => ((abortPlayer_claimMoves _ _ _).trans (modPlayer_claimMoves _ _ _)).settle _

/-! ### Lines -/

/-- The record of a line turns ACTIVE and moves to the head of its class, or turns DORMANT in its place (R31, R33). -/
theorem followActivity_claimMoves (l : Line) (active : Bool) (s : State) : ClaimMoves s (followActivity l active s) := by
  unfold followActivity
  split
  · exact .refl
  · next h _ =>
    split
    · exact .refl
    · next c hc =>
      dsimp only
      refine ClaimMoves.trans ?_ (resolveSet_claimMoves _ _ _ _)
      split
      · exact (ClaimMove.reinsert h c { c with active := active } hc ⟨rfl, rfl, fun _ => rfl⟩ (.inl rfl)).one
      · exact (ClaimMove.alter h c { c with active := active } hc ⟨rfl, rfl, fun _ => rfl⟩ rfl).one

theorem activityStart_claimMoves (l : Line) (s : State) : ClaimMoves s (activityStart l s) :=
  ((fireWatches_claimMoves _ _ _ _).trans (followActivity_claimMoves _ _ _)).settle _

theorem activityEnd_claimMoves (l : Line) (s : State) : ClaimMoves s (activityEnd l s) :=
  ((fireWatches_claimMoves _ _ _ _).trans (followActivity_claimMoves _ _ _)).settle _

theorem activityPulse_claimMoves (l : Line) (s : State) : ClaimMoves s (activityPulse l s) :=
  (((modLine_claimMoves l (fun x => { x with activity := .stretch }) s).trans (activityStart_claimMoves l _)).trans
    (modLine_claimMoves l (fun x => { x with activity := .quiet }) _)).trans (activityEnd_claimMoves l _)

theorem handActivity_claimMoves (l : Line) (e : ActivityEvent) (s : State) : ClaimMoves s (handActivity l e s) := by
  cases e with
  | none => exact .refl
  | start => exact activityStart_claimMoves l s
  | stop => exact activityEnd_claimMoves l s
  | pulse => exact activityPulse_claimMoves l s

theorem qualify_claimMoves (l : Line) (s : State) : ClaimMoves s (qualify l s) :=
  (modLine_claimMoves _ _ _).trans (handActivity_claimMoves _ _ _)

theorem inputChanges_claimMoves (l : Line) (s : State) : ClaimMoves s (inputChanges l s) := by
  unfold inputChanges
  dsimp only
  split
  · exact modLine_claimMoves _ _ _
  · split
    · exact (modLine_claimMoves _ _ _).trans (qualify_claimMoves _ _)
    · exact (modLine_claimMoves _ _ _).trans (modLine_claimMoves _ _ _)

theorem filterEnds_claimMoves (l : Line) (s : State) : ClaimMoves s (filterEnds l s) := by
  unfold filterEnds
  split
  · exact qualify_claimMoves _ _
  · exact .refl

theorem stretchEnds_claimMoves (l : Line) (s : State) : ClaimMoves s (stretchEnds l s) := by
  unfold stretchEnds
  split
  · exact (modLine_claimMoves _ _ _).trans (activityEnd_claimMoves _ _)
  · exact .refl

theorem lineConfigBody_claimMoves (p : Port) (s : State) : ClaimMoves s (lineConfigBody p s).1 := by
  unfold lineConfigBody
  split
  · exact (modLine_claimMoves _ _ _).trans (handActivity_claimMoves _ _ _)
  · exact .refl

theorem lineBindBody_claimMoves (p : Port) (s : State) : ClaimMoves s (lineBindBody p s).1 := by
  unfold lineBindBody
  split
  · exact .refl
  · split
    · exact .refl
    · split
      · exact .refl
      · split
        · exact .refl
        · next h => exact (placeLine_claimMoves _ h).settle _

theorem lineUnbindBody_claimMoves (p : Port) (s : State) : ClaimMoves s (lineUnbindBody p s).1 := by
  unfold lineUnbindBody
  split
  · exact .refl
  · split
    · exact .refl
    · refine ClaimMoves.settle ?_ _
      unfold unbindLine
      dsimp only
      split
      · exact (freeRecords_claimMoves _ _ _ _).trans (modLine_claimMoves _ _ _)
      · exact modLine_claimMoves _ _ _

/-! ### Modulator, output stage and watches -/

theorem channelFadeBody_claimMoves (p : Port) (s : State) : ClaimMoves s (channelFadeBody p s).1 := by
  unfold channelFadeBody
  split
  · split
    · exact .refl
    · exact forEach_claimMoves _ _ (fun ch t => modChan_claimMoves ch _ t) s
  · exact .refl

theorem clockConfigBody_claimMoves (p : Port) (s : State) : ClaimMoves s (clockConfigBody p s).1 := by
  unfold clockConfigBody
  split
  · exact (modClock_claimMoves _ _ s).trans (cleanChannels_claimMoves _)
  · exact .refl

theorem derateConfigBody_claimMoves (p : Port) (s : State) : ClaimMoves s (derateConfigBody p s).1 := by
  unfold derateConfigBody
  split
  · next v _ =>
    have hv : ClaimMoves s (s.setDerateCeiling v) := .of_eq rfl rfl rfl rfl
    exact hv.trans (cleanChannels_claimMoves _)
  · exact .refl

theorem lampTestBody_claimMoves (p : Port) (s : State) : ClaimMoves s (lampTestBody p s).1 := by
  unfold lampTestBody
  split
  · exact .refl
  · split
    · exact .refl
    · exact (setLampTest_claimMoves _ s).settle _

theorem rearmChannel_claimMoves (ch : Channel) (s : State) : ClaimMoves s (rearmChannel ch s) :=
  .of_eq (by simp) (by simp) (by simp) (by simp)

theorem latchClearBody_claimMoves (s : State) : ClaimMoves s (latchClearBody s).1 := by
  unfold latchClearBody
  split
  · exact (((forEach_claimMoves _ _ rearmChannel_claimMoves s).trans (modOutput_claimMoves _ _)).trans
      (enterStage_claimMoves _ _ _)).settle _
  · exact .refl

theorem channelEnableBody_claimMoves (p : Port) (s : State) : ClaimMoves s (channelEnableBody p s).1 := by
  unfold channelEnableBody
  split
  · split
    · exact .refl
    · exact (forEach_claimMoves _ _
        (fun ch t => (modOut_claimMoves _ _ _).trans (syncChannel_claimMoves _ _)) s).settle _
  · exact .refl

theorem channelRearmModeBody_claimMoves (p : Port) (s : State) : ClaimMoves s (channelRearmModeBody p s).1 := by
  unfold channelRearmModeBody
  split
  · split
    · exact .refl
    · exact forEach_claimMoves _ _ (fun ch t => modOut_claimMoves _ _ _) s
  · exact .refl

theorem faultRearmBody_claimMoves (p : Port) (s : State) : ClaimMoves s (faultRearmBody p s).1 := by
  unfold faultRearmBody
  split
  · exact .refl
  · exact (forEach_claimMoves _ _ rearmChannel_claimMoves s).settle _

theorem watchSetBody_claimMoves (p : Port) (s : State) : ClaimMoves s (watchSetBody p s).1 := by
  unfold watchSetBody
  split
  · exact .refl
  · split
    · exact .refl
    · exact .of_eq rfl rfl rfl rfl

theorem watchDropBody_claimMoves (p : Port) (s : State) : ClaimMoves s (watchDropBody p s).1 := by
  unfold watchDropBody
  split
  · exact .refl
  · split
    · exact .refl
    · split
      · exact .refl
      · exact .of_eq rfl rfl rfl rfl

theorem assertHold_claimMoves (s : State) : ClaimMoves s (assertHold s) := by
  unfold assertHold
  dsimp only
  split
  · exact (((modOutput_claimMoves _ s).trans (setLampTest_claimMoves _ _)).trans (enterStage_claimMoves _ _ _)).settle _
  · exact ((modOutput_claimMoves _ s).trans (setLampTest_claimMoves _ _)).settle _

theorem releaseHold_claimMoves (s : State) : ClaimMoves s (releaseHold s) := (modOutput_claimMoves _ _).settle _

theorem forceDown_claimMoves (c : Cause) (s : State) : ClaimMoves s (forceDown c s) := by
  unfold forceDown
  dsimp only
  split <;> exact (modOutput_claimMoves _ _).trans (enterStage_claimMoves _ _ _)

theorem supplyOnset_claimMoves (c : SupplyCondition) (s : State) : ClaimMoves s (supplyOnset c s) := by
  unfold supplyOnset
  dsimp only
  split
  · exact .refl
  · split
    · exact (modOutput_claimMoves _ _).trans (cleanChannels_claimMoves _)
    · split
      · exact ((modOutput_claimMoves _ _).trans (forceDown_claimMoves _ _)).settle _
      · exact modOutput_claimMoves _ _

theorem supplyClearing_claimMoves (c : SupplyCondition) (s : State) : ClaimMoves s (supplyClearing c s) := by
  unfold supplyClearing
  dsimp only
  split
  · split
    · exact (modOutput_claimMoves _ _).trans (cleanChannels_claimMoves _)
    · exact (modOutput_claimMoves _ _).settle _
  · exact .refl

theorem channelFault_claimMoves (ch : Channel) (k : FaultKind) (s : State) : ClaimMoves s (channelFault ch k s) := by
  unfold channelFault faultTaken
  dsimp only
  split
  · have htaken := ((modOut_claimMoves ch (takeFault k s.output.stage s.now) s).trans (syncChannel_claimMoves ch _)).trans
      (faultEvent_claimMoves ch (.kind k) _)
    split
    · exact (htaken.trans (enterStage_claimMoves _ _ _)).settle _
    · exact htaken.settle _
  · exact .refl

theorem softstartEnds_claimMoves (s : State) : ClaimMoves s (softstartEnds s) := by
  unfold softstartEnds
  split
  · exact (enterStage_claimMoves _ _ _).settle _
  · exact .refl

theorem standbyExpires_claimMoves (s : State) : ClaimMoves s (standbyExpires s) := by
  unfold standbyExpires
  split
  · exact (enterStage_claimMoves _ _ _).settle _
  · exact .refl

theorem activeTimerEnds_claimMoves (s : State) : ClaimMoves s (activeTimerEnds s) := by
  unfold activeTimerEnds
  split
  · exact modOutput_claimMoves _ _
  · exact .refl

theorem recoveryEnds_claimMoves (s : State) : ClaimMoves s (recoveryEnds s) := by
  unfold recoveryEnds
  split
  · split
    · exact modOutput_claimMoves _ _
    · exact (enterStage_claimMoves _ _ _).settle _
  · exact .refl

theorem retryEnds_claimMoves (ch : Channel) (s : State) : ClaimMoves s (retryEnds ch s) := by
  unfold retryEnds
  split
  · exact (((modOut_claimMoves _ _ _).trans (syncChannel_claimMoves _ _)).trans (faultEvent_claimMoves _ _ _)).settle _
  · exact .refl

theorem cleanEnds_claimMoves (ch : Channel) (s : State) : ClaimMoves s (cleanEnds ch s) := by
  unfold cleanEnds
  split
  · exact modOut_claimMoves _ _ _
  · exact .refl

theorem fadeCompletes_claimMoves (ch : Channel) (s : State) : ClaimMoves s (fadeCompletes ch s) := by
  unfold fadeCompletes
  split
  · exact (modChan_claimMoves _ _ s).trans (cleanChannels_claimMoves _)
  · exact .refl

theorem clockHalfEnds_claimMoves (k : ClockNo) (s : State) : ClaimMoves s (clockHalfEnds k s) := by
  unfold clockHalfEnds
  split
  · exact (modClock_claimMoves _ _ s).trans (cleanChannels_claimMoves _)
  · exact .refl

theorem lampTestExpires_claimMoves (s : State) : ClaimMoves s (lampTestExpires s) := by
  unfold lampTestExpires
  split
  · exact ((setLampTest_claimMoves none s).trans
      (forEach_claimMoves _ _ (fun ch t => modChan_claimMoves ch (endFade (isOpen t ch) t.now) t) _)).settle _
  · exact .refl

/-! ### Access table, port resets, ENABLE and power-on -/

/-- The rights stored, told and enforced by the cascade (R194). -/
theorem applyPrivSet_claimMoves {p : Port} (ceiling : Priority) (sceneEdit : Bool) {quota : Fin 49} {s : State}
    (hq : (s.right p).held ≤ quota.val) : ClaimMoves s (applyPrivSet p ceiling sceneEdit quota s) := by
  have hgrant : ∀ t, ClaimsKept
      (s.modRight p fun r => { r with ceiling := ceiling, sceneEdit := sceneEdit, quota := quota }) t →
      ClaimMoves s (forEach (cascadeSlots p ceiling s) (freeRecord .ceilingCascade) t) := fun t ht =>
    (ClaimMove.grant p ceiling sceneEdit quota hq ht).one
  have hstored : ClaimsKept (s.modRight p fun r => { r with ceiling := ceiling, sceneEdit := sceneEdit, quota := quota })
      (if ceiling ≠ (s.right p).ceiling then
        offer p (.access p .ceilingChanged)
          (s.modRight p fun r => { r with ceiling := ceiling, sceneEdit := sceneEdit, quota := quota })
      else s.modRight p fun r => { r with ceiling := ceiling, sceneEdit := sceneEdit, quota := quota }) := by
    split
    · exact .of_eq rfl rfl rfl fun _ => rfl
    · exact .refl _
  have hmoves := hgrant _ hstored
  unfold applyPrivSet
  dsimp only
  split
  · next hnone =>
    rw [hnone] at hmoves
    exact hmoves
  · exact (hmoves.trans (resolveSet_claimMoves _ _ _ _)).settle _

theorem privSetBody_claimMoves (p : Port) (s : State) : ClaimMoves s (privSetBody p s).1 := by
  unfold privSetBody
  split
  · split
    · exact .refl
    · next hq => exact applyPrivSet_claimMoves _ _ (not_lt.mp hq)
  · exact .refl

theorem maintHandoverBody_claimMoves (p : Port) (s : State) : ClaimMoves s (maintHandoverBody p s).1 := by
  unfold maintHandoverBody
  split
  · exact .refl
  · split
    · exact .refl
    · next q _ _ =>
      have hq : ClaimsKept s (s.setMaintenance q) := ⟨rfl, fun _ => rfl, fun _ => rfl, fun _ => rfl⟩
      exact ((ClaimMove.kept hq).one.trans (offer_claimMoves _ _ _)).trans (offer_claimMoves _ _ _)

theorem resetPort_claimMoves (p : Port) (s : State) : ClaimMoves s (resetPort p s) := by
  have hnotices : ClaimMoves s (resetNotices p s) := .of_eq rfl rfl rfl rfl
  have hfreed := hnotices.trans (freeRecords_claimMoves .portReset true (ownSlots p (resetNotices p s)) _)
  have hplayers : ∀ t, ClaimMoves t (freePlayers p t) := forEach_claimMoves _ _ (fun n t => modPlayer_claimMoves n _ t)
  exact (hfreed.trans (hplayers _)).trans (modPort_claimMoves p clearRegisters _)

theorem portResetTaken_claimMoves (p : Port) (s : State) : ClaimMoves s (portResetTaken p s) :=
  ((resetPort_claimMoves p s).settle _).trans (modPort_claimMoves _ _ _)

theorem portClearBody_claimMoves (p : Port) (s : State) : ClaimMoves s (portClearBody p s).1 := by
  unfold portClearBody
  split
  · exact .refl
  · exact ((resetPort_claimMoves _ _).trans (offer_claimMoves _ _ _)).settle _

theorem enableHigh_claimMoves (s : State) : ClaimMoves s (enableHigh s) := by
  unfold enableHigh
  split
  · exact enterStage_claimMoves _ _ _
  · exact .refl

theorem enableLow_claimMoves (s : State) : ClaimMoves s (enableLow s) := by
  unfold enableLow
  split
  · exact .refl
  · have hoff : ClaimMoves s (outputOff s) := .of_eq (by simp [outputOff]) (by simp [outputOff]) (by simp [outputOff])
      (by simp [outputOff])
    have hblocks : ∀ t, ClaimMoves t (blocksOff t) := fun t =>
      (freeRecords_claimMoves .enableLow false (indexes 48) t).trans (.of_eq rfl rfl rfl rfl)
    have hports : ∀ t : State, ClaimMoves t { t with ports := tmap portOff t.ports } := fun t => .of_eq rfl rfl rfl rfl
    exact ((hoff.trans (hblocks _)).trans (hports _)).trans (offerAll_claimMoves _ _)

theorem recreateLine_claimMoves (l : Line) (s : State) : ClaimMoves s (recreateLine l s) := by
  unfold recreateLine
  split
  · exact .refl
  · split
    · exact .refl
    · next h => exact placeLine_claimMoves _ h

theorem announceLine_claimMoves (l : Line) (s : State) : ClaimMoves s (announceLine l s) := by
  unfold announceLine
  split
  · exact fireWatches_claimMoves _ _ _ _
  · exact .refl

theorem startupTest_claimMoves (s : State) : ClaimMoves s (startupTest s) := by
  unfold startupTest
  split
  · exact .of_eq rfl rfl rfl rfl
  · exact .refl

theorem initEnds_claimMoves (s : State) : ClaimMoves s (initEnds s) := by
  have hfresh : ∀ t : State, ClaimMoves t (t.modLines lineFresh) := fun t => .of_eq rfl rfl rfl rfl
  have hclocks : ∀ t : State, ClaimMoves t (t.modClocks (clockOn s.now)) := fun t => .of_eq rfl rfl rfl rfl
  have hrecreate : ∀ t, ClaimMoves t (forEach (indexes 8) recreateLine t) :=
    forEach_claimMoves (indexes 8) recreateLine recreateLine_claimMoves
  have hannounce : ∀ t, ClaimMoves t (forEach (indexes 8) announceLine t) :=
    forEach_claimMoves (indexes 8) announceLine announceLine_claimMoves
  unfold initEnds
  dsimp only
  split
  · exact ((((((enterStage_claimMoves .standby .initEnd s).trans (hfresh _)).trans (hrecreate _)).trans
      (hannounce _)).trans (hclocks _)).trans (startupTest_claimMoves _)).settle .demand
  · exact .refl

theorem powerOn_claimMoves (pins : PowerOnPins) (s : State) : ClaimMoves s (powerOn pins s) := by
  unfold powerOn
  split
  · exact (ClaimMove.powerOn pins).one.trans (enableHigh_claimMoves _)
  · exact (ClaimMove.powerOn pins).one

/-! ### Commands, frames and steps -/

theorem claimBody_claimMoves (p : Port) (s : State) : ClaimMoves s (claimBody p s).1 :=
  placeForPort_claimMoves _ rfl s

theorem sceneInvokeBody_claimMoves (p : Port) (s : State) : ClaimMoves s (sceneInvokeBody p s).1 :=
  placeForPort_claimMoves _ rfl s

/-- Every command register, and with it every port command, moves the pool (R203). -/
theorem commandAt_claimMoves (n : Nat) (p : Port) (s : State) : ClaimMoves s (commandAt n p s) := by
  unfold commandAt
  split
  · exact takeCommand_claimMoves p _ (claimBody_claimMoves p s)
  · exact takeCommand_claimMoves p _ (modifyBody_claimMoves p s)
  · exact takeCommand_claimMoves p _ (withdrawBody_claimMoves p s)
  · exact takeCommand_claimMoves p _ (withdrawAllBody_claimMoves p s)
  · exact takeCommand_claimMoves p _ (renewBody_claimMoves p s)
  · exact takeCommand_claimMoves p _ (channelPolicyBody_claimMoves p s)
  · exact takeCommand_claimMoves p _ (scenePutBody_claimMoves p s)
  · exact takeCommand_claimMoves p _ (sceneDropBody_claimMoves p s)
  · exact takeCommand_claimMoves p _ (sceneEraseBody_claimMoves p s)
  · exact takeCommand_claimMoves p _ (sceneInvokeBody_claimMoves p s)
  · exact takeCommand_claimMoves p _ (playerAcquireBody_claimMoves p s)
  · exact takeCommand_claimMoves p _ (playerEndBody_claimMoves p s)
  · exact takeCommand_claimMoves p _ (playerAbortBody_claimMoves p s)
  · exact takeCommand_claimMoves p _ (playerReleaseBody_claimMoves p s)
  · exact takeCommand_claimMoves p _ (playerPushBody_claimMoves p s)
  · exact takeCommand_claimMoves p _ (playerStartBody_claimMoves p s)
  · exact takeCommand_claimMoves p _ (lineConfigBody_claimMoves p s)
  · exact takeCommand_claimMoves p _ (lineBindBody_claimMoves p s)
  · exact takeCommand_claimMoves p _ (lineUnbindBody_claimMoves p s)
  · exact takeCommand_claimMoves p _ (channelFadeBody_claimMoves p s)
  · exact takeCommand_claimMoves p _ (clockConfigBody_claimMoves p s)
  · exact takeCommand_claimMoves p _ (derateConfigBody_claimMoves p s)
  · exact takeCommand_claimMoves p _ (lampTestBody_claimMoves p s)
  · exact takeCommand_claimMoves p _ (latchClearBody_claimMoves s)
  · exact takeCommand_claimMoves p _ (channelEnableBody_claimMoves p s)
  · exact takeCommand_claimMoves p _ (channelRearmModeBody_claimMoves p s)
  · exact takeCommand_claimMoves p _ (faultRearmBody_claimMoves p s)
  · exact takeCommand_claimMoves p _ (watchSetBody_claimMoves p s)
  · exact takeCommand_claimMoves p _ (watchDropBody_claimMoves p s)
  · exact takeCommand_claimMoves p _ (privSetBody_claimMoves p s)
  · exact takeCommand_claimMoves p _ (maintHandoverBody_claimMoves p s)
  · exact portResetTaken_claimMoves p s
  · exact takeCommand_claimMoves p _ (portClearBody_claimMoves p s)
  · exact .refl

theorem goodWrite_claimMoves (p : Port) (offset : Byte) (v : Word) (s : State) : ClaimMoves s (goodWrite p offset v s) := by
  unfold goodWrite
  dsimp only
  split
  · split <;> exact modPort_claimMoves _ _ _
  · exact commandAt_claimMoves _ _ _

theorem writeFrameTaken_claimMoves (p : Port) (address : Nat) (bytes : List Byte) (s : State) :
    ClaimMoves s (writeFrameTaken p address bytes s) := by
  unfold writeFrameTaken
  split
  · split
    · exact modPort_claimMoves _ _ _
    · exact .refl
    · exact .refl
    · exact goodWrite_claimMoves _ _ _ _
  · exact .refl

/-- Every command completes with moves of the claim pool. -/
theorem exec_claimMoves (i : Instr) (s : State) : ∃ t, exec i s = .next t ∧ ClaimMoves s t := by
  cases i with
  | powerOnReset pins => exact ⟨_, rfl, powerOn_claimMoves pins s⟩
  | enableLow => exact ⟨_, rfl, enableLow_claimMoves s⟩
  | enableHigh => exact ⟨_, rfl, enableHigh_claimMoves s⟩
  | holdAsserted => exact ⟨_, rfl, assertHold_claimMoves s⟩
  | holdReleased => exact ⟨_, rfl, releaseHold_claimMoves s⟩
  | supplyOnset c => exact ⟨_, rfl, supplyOnset_claimMoves c s⟩
  | supplyClearing c => exact ⟨_, rfl, supplyClearing_claimMoves c s⟩
  | channelFaultEvent ch k => exact ⟨_, rfl, channelFault_claimMoves ch k s⟩
  | lineInputChange l => exact ⟨_, rfl, inputChanges_claimMoves l s⟩
  | filterIntervalEnd l => exact ⟨_, rfl, filterEnds_claimMoves l s⟩
  | stretchEnd l => exact ⟨_, rfl, stretchEnds_claimMoves l s⟩
  | initIntervalEnd => exact ⟨_, rfl, initEnds_claimMoves s⟩
  | softstartIntervalEnd => exact ⟨_, rfl, softstartEnds_claimMoves s⟩
  | standbyDelayExpiry => exact ⟨_, rfl, standbyExpires_claimMoves s⟩
  | activeDurationTimerEnd => exact ⟨_, rfl, activeTimerEnds_claimMoves s⟩
  | recoveryIntervalEnd => exact ⟨_, rfl, recoveryEnds_claimMoves s⟩
  | retryTimerEnd ch => exact ⟨_, rfl, retryEnds_claimMoves ch s⟩
  | cleanIntervalEnd ch => exact ⟨_, rfl, cleanEnds_claimMoves ch s⟩
  | leaseExpiry slot => exact ⟨_, rfl, leaseExpires_claimMoves slot s⟩
  | clockHalfEnd k => exact ⟨_, rfl, clockHalfEnds_claimMoves k s⟩
  | fadeCompletion ch => exact ⟨_, rfl, fadeCompletes_claimMoves ch s⟩
  | rampUpdate n => exact ⟨_, rfl, rampUpdates_claimMoves n s⟩
  | stepCompletion n => exact ⟨_, rfl, stepCompletes_claimMoves n s⟩
  | lampTestExpiry => exact ⟨_, rfl, lampTestExpires_claimMoves s⟩
  | outputLevelRisesAbove0 ch => exact ⟨_, rfl, modOut_claimMoves ch _ s⟩
  | writeFrameDiscarded p address bytes => exact ⟨_, rfl, writeFrameTaken_claimMoves p address bytes s⟩
  | registerWrite p offset v => exact ⟨_, rfl, goodWrite_claimMoves p offset v s⟩
  | portStatusRead p => exact ⟨_, rfl, modPort_claimMoves p _ s⟩
  | acceptedRead p => exact ⟨_, rfl, modPort_claimMoves p _ s⟩
  | refusedRead p => exact ⟨_, rfl, modPort_claimMoves p _ s⟩
  | maskSet p v => exact ⟨_, rfl, modPort_claimMoves p _ s⟩
  | maskClear p v => exact ⟨_, rfl, modPort_claimMoves p _ s⟩
  | noticePop p => exact ⟨_, rfl, modPort_claimMoves p _ s⟩
  | claim p => exact ⟨_, rfl, commandAt_claimMoves 0x20 p s⟩
  | modify p => exact ⟨_, rfl, commandAt_claimMoves 0x21 p s⟩
  | withdraw p => exact ⟨_, rfl, commandAt_claimMoves 0x22 p s⟩
  | withdrawAll p => exact ⟨_, rfl, commandAt_claimMoves 0x23 p s⟩
  | renew p => exact ⟨_, rfl, commandAt_claimMoves 0x24 p s⟩
  | channelPolicy p => exact ⟨_, rfl, commandAt_claimMoves 0x25 p s⟩
  | scenePut p => exact ⟨_, rfl, commandAt_claimMoves 0x26 p s⟩
  | sceneDrop p => exact ⟨_, rfl, commandAt_claimMoves 0x27 p s⟩
  | sceneErase p => exact ⟨_, rfl, commandAt_claimMoves 0x28 p s⟩
  | sceneInvoke p => exact ⟨_, rfl, commandAt_claimMoves 0x29 p s⟩
  | playerAcquire p => exact ⟨_, rfl, commandAt_claimMoves 0x2A p s⟩
  | playerEnd p => exact ⟨_, rfl, commandAt_claimMoves 0x2B p s⟩
  | playerAbort p => exact ⟨_, rfl, commandAt_claimMoves 0x2C p s⟩
  | playerRelease p => exact ⟨_, rfl, commandAt_claimMoves 0x2D p s⟩
  | playerPush p => exact ⟨_, rfl, commandAt_claimMoves 0x2E p s⟩
  | playerStart p => exact ⟨_, rfl, commandAt_claimMoves 0x2F p s⟩
  | lineConfig p => exact ⟨_, rfl, commandAt_claimMoves 0x30 p s⟩
  | lineBind p => exact ⟨_, rfl, commandAt_claimMoves 0x31 p s⟩
  | lineUnbind p => exact ⟨_, rfl, commandAt_claimMoves 0x32 p s⟩
  | channelFade p => exact ⟨_, rfl, commandAt_claimMoves 0x33 p s⟩
  | clockConfig p => exact ⟨_, rfl, commandAt_claimMoves 0x34 p s⟩
  | derateConfig p => exact ⟨_, rfl, commandAt_claimMoves 0x35 p s⟩
  | lampTest p => exact ⟨_, rfl, commandAt_claimMoves 0x36 p s⟩
  | latchClear p => exact ⟨_, rfl, commandAt_claimMoves 0x37 p s⟩
  | channelEnable p => exact ⟨_, rfl, commandAt_claimMoves 0x38 p s⟩
  | channelRearmMode p => exact ⟨_, rfl, commandAt_claimMoves 0x39 p s⟩
  | faultRearm p => exact ⟨_, rfl, commandAt_claimMoves 0x3A p s⟩
  | watchSet p => exact ⟨_, rfl, commandAt_claimMoves 0x3B p s⟩
  | watchDrop p => exact ⟨_, rfl, commandAt_claimMoves 0x3C p s⟩
  | privSet p => exact ⟨_, rfl, commandAt_claimMoves 0x3D p s⟩
  | maintHandover p => exact ⟨_, rfl, commandAt_claimMoves 0x3E p s⟩
  | portReset p => exact ⟨_, rfl, commandAt_claimMoves 0x3F p s⟩
  | portClear p => exact ⟨_, rfl, commandAt_claimMoves 0x40 p s⟩

theorem exec_next_claimMoves {i : Instr} {s t : State} (h : exec i s = .next t) : ClaimMoves s t := by
  obtain ⟨u, hu, hm⟩ := exec_claimMoves i s
  obtain rfl : u = t := Host.Outcome.next.inj (hu.symm.trans h)
  exact hm

/-- A step moves the claim pool: it is a command, taken from the queue or due, or time passing (logs 2 and 3). -/
theorem step_claimMoves {s t : State} (h : step s = .next t) : ClaimMoves s t := by
  have hdrawn : ClaimMoves s { s with draws := s.draws + 1 } := .of_eq rfl rfl rfl rfl
  unfold step at h
  split at h
  · next c rest _ =>
    have hfront : ClaimMoves s { s with pending := rest } := .of_eq rfl rfl rfl rfl
    exact hfront.trans (exec_next_claimMoves h)
  · unfold tick at h
    split at h
    · obtain rfl := Host.Outcome.next.inj h
      exact .of_eq rfl rfl rfl rfl
    · exact exec_next_claimMoves h
    · exact hdrawn.trans (exec_next_claimMoves h)

/-! ## The counts along a step -/

theorem ClaimsKept.counts {s t : State} (h : ClaimsKept s t) (hs : CountsInv s) : CountsInv t :=
  hs.congr h.rights h.inUse (fun i p => by simp only [State.record, h.pool]) (fun i n => by simp only [State.record, h.pool])

/-- A record altered in place counts as before (R16, R33). -/
theorem alter_counts {h : Handle} {c c' : Claim} {s : State} (hs : CountsInv s) (live : claimAt s h = some c)
    (same : SameClaimant c c') : CountsInv (s.modRecord h.slot fun r => { r with claim := some c' }) := by
  have hc : (s.record h.slot).claim = some c := by
    unfold claimAt at live
    split at live
    · exact live
    · cases live
  have hrecord : ∀ (f : Claim → Bool) (i : Slot), f c' = f c →
      ((s.modRecord h.slot fun r => { r with claim := some c' }).record i).claim.any f = (s.record i).claim.any f :=
    fun f i hf => by
      rw [State.record_modRecord]
      split_ifs with hi
      · rw [hi, hc, Option.any_some, Option.any_some, hf]
      · rfl
  exact hs.congr (fun _ => rfl) (fun _ => rfl) (fun i p => hrecord _ i (by rw [ownedBy, ownedBy, same.owner]))
    fun i n => hrecord _ i (same.draws n)

theorem recordsWhere_eq_zero {s : State} (h : ∀ i, (s.record i).claim = none) (f : Claim → Bool) :
    recordsWhere s f = 0 := by
  rw [recordsWhere_eq, List.length_eq_zero_iff, List.filter_eq_nil_iff]
  intro i _
  simp [passes, h i]

/-- The rows of the access table after power-on (R193). -/
theorem powerOnState_right (pins : PowerOnPins) (s : State) (p : Port) :
    (powerOnState pins s).right p = Rights.reset (pins.msel == p) := by
  fin_cases p <;> rfl

theorem powerOnState_record (pins : PowerOnPins) (s : State) (i : Slot) :
    (powerOnState pins s).record i = { gen := 0, claim := none } := tget_replicate _ i

theorem powerOnState_scene (pins : PowerOnPins) (s : State) (n : SceneNo) :
    (powerOnState pins s).scene n = { levels := Vector.replicate 16 none, inUse := 0 } := tget_replicate _ n

/-- After power-on no record is placed and every count is 0 (R25, R193). -/
theorem powerOnState_counts (pins : PowerOnPins) (s : State) : CountsInv (powerOnState pins s) := by
  have hzero := recordsWhere_eq_zero (s := powerOnState pins s) fun i => by rw [powerOnState_record]
  refine ⟨fun p => ?_, fun p => ?_, fun n => ?_⟩
  · rw [hzero, powerOnState_right, Rights.reset]
  · rw [powerOnState_right, Rights.reset]
    exact Nat.zero_le _
  · rw [hzero, powerOnState_scene]

/-- Every move of the claim pool keeps the counts (R6, R69). -/
theorem ClaimMove.counts {s t : State} (h : ClaimMove s t) (hs : CountsInv s) : CountsInv t := by
  cases h with
  | kept h => exact h.counts hs
  | seat slot c free room quota ceiling => exact seat_counts slot c s hs free quota
  | free x slot => exact freeRecord_counts x slot s hs
  | alter h c c' live same priority => exact alter_counts hs live same
  | reinsert h c c' live same ceiling => exact (alter_counts hs live same).of_eq (by simp) (by simp) (by simp)
  | grant p ceiling sceneEdit quota room stored =>
    have hstored : CountsInv (s.modRight p fun r =>
        { r with ceiling := ceiling, sceneEdit := sceneEdit, quota := quota }) := by
      refine ⟨fun q => ?_, fun q => ?_, hs.inUse⟩
      · rw [State.right_modRight]
        split_ifs with hq
        · exact hq ▸ hs.held p
        · exact hs.held q
      · rw [State.right_modRight]
        split_ifs with hq
        · exact room
        · exact hs.quota q
    exact forEach_preserves CountsInv _ _ (fun k u hu => freeRecord_counts _ k u hu) _ (stored.counts hstored)
  | powerOn pins => exact powerOnState_counts pins s

/-- Settles O56: every step is a sequence of moves of the claim pool, and each move keeps the counts. -/
theorem stepKeepsCounts : Obligations.StepKeepsCounts := fun _ _ hs hstep =>
  (step_claimMoves hstep).keeps (fun _ _ hm hu => hm.counts hu) hs

end Sys2Proof.Machine

namespace Sys2Proof.Machine

/-! ## Results of placements and freeings -/

/-! ### What an answer adds to a taking's notices -/

/-- The notices of a taking are read from the queues, the winners, the records and the stage, which an answer leaves. -/
theorem Announced.accepted {q : Port} {ns : List Notice} {cs : ChannelSet} {s t : State} (h : Announced q ns cs s t)
    (p : Port) (hd : Option Handle) (x : Nat) : Announced q ns cs s (acceptedState p hd x t) := by
  have hoverflow : ((acceptedState p hd x t).port q).overflow = (t.port q).overflow := by
    rw [acceptedState_port]
    split_ifs with k
    · rw [k]
    · rfl
  exact ⟨(acceptedState_queue p q hd x t).trans h.queue, hoverflow.trans h.overflow⟩

theorem WinnersSpend.accepted {cs : ChannelSet} {s t : State} (h : WinnersSpend cs s t) (p : Port) (hd : Option Handle)
    (x : Nat) : WinnersSpend cs s (acceptedState p hd x t) := h.congr rfl (fun _ => rfl) rfl rfl

theorem winsOn_congr {s t : State} (h : t.resolver = s.resolver) (x : Handle) (cs : ChannelSet) :
    winsOn t x cs = winsOn s x cs := by
  simp only [winsOn, State.entry, h]

/-! ### Sets of slots and of channels -/

theorem coveredBy_singleton {s : State} {slot : Slot} {c : Claim} (h : (s.record slot).claim = some c) :
    coveredBy s [slot] = c.channels := by
  simp [coveredBy, h]

theorem pairwise_slotsWhere (s : State) (f : Claim → Bool) : (slotsWhere s f).Pairwise fun x y => x < y :=
  (List.pairwise_lt_finRange 48).filter _

/-- Two channel sets share a channel where their intersection is not empty (R202). -/
theorem and_ne_zero_iff (a b : ChannelSet) : a &&& b ≠ 0 ↔ ∃ ch, inSet a ch = true ∧ inSet b ch = true := by
  constructor
  · intro h
    by_contra hn
    refine h (BitVec.eq_of_getLsbD_eq fun i hi => ?_)
    have hi' : ¬(inSet a ⟨i, hi⟩ = true ∧ inSet b ⟨i, hi⟩ = true) := fun k => hn ⟨_, k⟩
    simpa [inSet] using hi'
  · rintro ⟨ch, ha, hb⟩ h
    have hbit : inSet (a &&& b) ch = true := by simp [inSet] at ha hb ⊢; exact ⟨ha, hb⟩
    rw [h] at hbit
    simp [inSet] at hbit

theorem mem_ownTouching {p : Port} {cs : ChannelSet} {s : State} {x : Slot} :
    x ∈ ownTouching p cs s ↔ ∃ c, (s.record x).claim = some c ∧ c.owner = .port p ∧
      ∃ ch, inSet c.channels ch = true ∧ inSet cs ch = true := by
  simp only [ownTouching, mem_slotsWhere, Bool.and_eq_true, ownedBy, beq_iff_eq, decide_eq_true_eq, and_ne_zero_iff]

/-! ### Freeings answered to a port -/

theorem claimAt_some {s : State} {h : Handle} {c : Claim} :
    claimAt s h = some c ↔ (s.record h.slot).gen = h.gen ∧ (s.record h.slot).claim = some c := by
  by_cases hg : (s.record h.slot).gen = h.gen <;> simp [claimAt, hg]

theorem claimAt_none {s : State} {h : Handle} :
    claimAt s h = none ↔ (s.record h.slot).claim = none ∨ (s.record h.slot).gen ≠ h.gen := by
  by_cases hg : (s.record h.slot).gen = h.gen <;> simp [claimAt, hg]

theorem freeRecords_playersEmptied (x : FreeCause) (hx : x.emptiesQueue = true) (l : List Slot) (hl : l.Nodup)
    (s : State) (cause : Cause) : PlayersEmptied l s (settle cause (freeRecords x true l s)) := fun n => by
  rw [settle_player, freeRecords_player x true l hl, hx]

theorem PlayersEmptied.accepted {l : List Slot} {s t : State} (h : PlayersEmptied l s t) (p : Port) (hd : Option Handle)
    (x : Nat) : PlayersEmptied l s (acceptedState p hd x t) := fun n => h n

theorem freeRecords_follows (x : FreeCause) (l : List Slot) (s : State) :
    StageFollows s (settle .demand (freeRecords x true l s)) := settle_follows (by simp) (by simp)

theorem freeRecords_settle_results (x : FreeCause) (l : List Slot) (s : State) (cause : Cause) :
    SameResults s (settle cause (freeRecords x true l s)) :=
  (freeRecords_results x true l s).trans (settle_results cause _)

/-! ## Obligations -/

/-- A port's claim of player 0, which the port holds, with a lease of 100 ms that has fallen due. -/
def duePlayerClaim : Claim :=
  { active := true, owner := .port 0, channels := 1, priority := 3, source := .player 0, pattern := .steady, fade := 2,
    lease := some { length := 1, start := 0 }, tag := 7 }

/-- `duePlayerClaim` in slot 0, at the instant its lease falls due. -/
def duePlayerState : State :=
  { place 0 duePlayerClaim (State.reset.modPlayer 0 fun x => { x with state := .playing, holder := some 0 }) with
    now := 100 }

/-- Refutes O24: its clause for a claim that is no player's reads `∀ v, c.source ≠ .player v → …`, which the claim of
player 0 meets at `v = 1`; there it says that CLAIM_REMOVED is the only notice, but the holder is told ABORTED after it
(R106). -/
theorem not_leaseExpiryFreesRecord : ¬ Obligations.LeaseExpiryFreesRecord := by
  unfold Obligations.LeaseExpiryFreesRecord
  intro h
  have hlists : ListsInv duePlayerState := listsInv_of_check (by decide +kernel)
  obtain ⟨t, -, -, -, -, -, -, -, -, halone, -⟩ :=
    h duePlayerState 0 duePlayerClaim { length := 1, start := 0 } 0 hlists (by decide +kernel) rfl rfl (by decide +kernel)
  have htold : removalsTold 0 .lease .aborted [0] duePlayerState =
      [.claimRemoved 0 (handleAt duePlayerState 0) 0 7 .lease, .player 0 (handleAt duePlayerState 0) 0 7 .aborted] := by
    decide +kernel
  exact absurd (htold.symm.trans (halone 1 (by decide))) (by simp)

/-- What a port command that frees records without notices of their own leaves, once answered (R18 to R23). -/
theorem freeing_accepted {x : FreeCause} (hr : x.reason = none) (hd : x.playerDetail = none) (he : x.emptiesQueue = true)
    {l : List Slot} (hl : l.Nodup) {s : State} (hs : ListsInv s) (p : Port) (h : Option Handle) (n : Nat) :
    ∃ t, acceptedState p h n (settle .demand (freeRecords x true l s)) = t ∧ Freed l s t ∧ PlayersEmptied l s t ∧
      (∀ q, Announced q [] (coveredBy s l) s t) ∧ WinnersSpend (coveredBy s l) s t ∧ StageFollows s t ∧
      Accepted p h n s t ∧ OtherResultsKept p s t ∧ t.lines = s.lines :=
  by
  have hresults := freeRecords_settle_results x l s .demand
  refine ⟨_, rfl, (freeRecords_freed x l hl hs .demand).accepted p h n, ?_, fun q => ?_, ?_, ?_, ?_, ?_, ?_⟩
  · exact (freeRecords_playersEmptied x he l hl s .demand).accepted p h n
  · exact (freeRecords_announced_silent hr hd l s .demand q).accepted p h n
  · exact (freeRecords_spends x l s .demand).accepted p h n
  · exact (freeRecords_follows x l s).accepted p h n
  · exact acceptedState_accepted hresults
  · exact acceptedState_others hresults
  · simp

theorem withdrawBody_done {p : Port} {s : State} {h : Handle} {c : Claim} (hh : handleOf (arg s p 0) = some h)
    (hc : claimAt s h = some c) (ho : c.owner = .port p) : withdrawBody p s =
      done (some h) (winsOn s h c.channels) (settle .demand (freeRecords .withdraw true [h.slot] s)) := by
  simp only [withdrawBody, hh, hc, ho, ne_eq, not_true_eq_false, if_false]

theorem withdrawAllBody_done {p : Port} {s : State} (h : arg s p 0 ≠ 0) : withdrawAllBody p s =
      done none (ownTouching p (arg s p 0) s).length
        (settle .demand (freeRecords .withdrawAll true (ownTouching p (arg s p 0) s) s)) := by
  simp only [withdrawAllBody, h, if_false]

/-- Settles O23. -/
theorem withdrawFreesOwnRecords : Obligations.WithdrawFreesOwnRecords := by
  intro p s htaken hs
  refine ⟨fun h c hh hc ho => ?_, fun h => ?_, fun h => ?_⟩
  · have hrun := takeCommand_done htaken (withdrawBody_done hh hc ho)
    obtain ⟨t, ht, hfreed, hplayers, htold, hspent, hrest⟩ :=
      freeing_accepted (x := .withdraw) rfl rfl rfl (List.nodup_singleton h.slot) hs p (some h) (winsOn s h c.channels)
    rw [coveredBy_singleton (claimAt_some.mp hc).2] at htold hspent
    exact ⟨t, congrArg Host.Outcome.next (hrun.trans ht), hfreed, hplayers, htold, hspent, hrest⟩
  · have hbody : withdrawAllBody p s = refuse .badArgument 0 s := by simp only [withdrawAllBody, h, if_true]
    exact congrArg Host.Outcome.next (takeCommand_refused htaken hbody (by decide))
  · have hrun := takeCommand_done htaken (withdrawAllBody_done h)
    obtain ⟨t, ht, hrest⟩ := freeing_accepted (x := .withdrawAll) rfl rfl rfl (nodup_slotsWhere s _) hs p none
      (ownTouching p (arg s p 0) s).length
    exact ⟨t, ownTouching p (arg s p 0) s, congrArg Host.Outcome.next (hrun.trans ht), nodup_slotsWhere s _,
      pairwise_slotsWhere s _, fun _ => mem_ownTouching, hrest⟩

end Sys2Proof.Machine

namespace Sys2Proof.Machine

/-! ## Placements by a port -/

/-! ### The checks, by what stands in the state -/

theorem freeSlot?_eq_some {s : State} {slot : Slot} (hfree : (s.record slot).claim = none)
    (hlow : ∀ x, x < slot → (s.record x).claim ≠ none) : freeSlot? s = some slot := by
  cases h : freeSlot? s with
  | none => exact absurd hfree (by simpa using List.find?_eq_none.mp h slot (mem_indexes slot))
  | some k =>
    obtain ⟨hk, hbelow⟩ := freeSlot?_some h
    rcases lt_trichotomy k slot with hlt | heq | hgt
    · exact absurd hk (hlow k hlt)
    · rw [heq]
    · exact absurd hfree (hbelow slot hgt)

theorem freeSlot?_eq_none {s : State} : freeSlot? s = none ↔ ∀ x, (s.record x).claim ≠ none := by
  simp [freeSlot?, List.find?_eq_none]

theorem fullChannel?_eq_none {s : State} {cs : ChannelSet} :
    fullChannel? s cs = none ↔ ∀ ch, inSet cs ch = true → (s.entry ch).list.length < 8 := by
  rw [fullChannel?, List.find?_eq_none]
  refine forall_congr' fun ch => ?_
  rw [mem_members, decide_eq_true_eq, not_le]
  rfl

/-- The lowest covered channel whose list is full (R12). -/
theorem fullChannel?_eq_some {s : State} {cs : ChannelSet} {ch : Channel} (hin : inSet cs ch = true)
    (hfull : 8 ≤ (s.entry ch).list.length)
    (hlow : ∀ i, i < ch → inSet cs i = true → (s.entry i).list.length < 8) : fullChannel? s cs = some ch := by
  have hsorted : (members cs).Pairwise (· < ·) := (List.pairwise_lt_finRange 16).filter _
  cases h : fullChannel? s cs with
  | none => exact absurd hfull (not_le.mpr (fullChannel?_eq_none.mp h ch hin))
  | some k =>
    have hk : 8 ≤ (s.entry k).list.length := 
      of_decide_eq_true (List.find?_some (p := fun i => decide (listLimit ≤ (s.entry i).list.length)) h)
    obtain ⟨-, as, bs, hab, hnot⟩ := List.find?_eq_some_iff_append.mp h
    have hkin : inSet cs k = true := mem_members.mp (List.mem_of_find?_eq_some h)
    rcases lt_trichotomy k ch with hlt | heq | hgt
    · exact absurd hk (not_le.mpr (hlow k hlt hkin))
    · rw [heq]
    · have hmem : ch ∈ as ++ k :: bs := hab ▸ mem_members.mpr hin
      rw [hab] at hsorted
      rcases List.mem_append.mp hmem with hm | hm
      · have hbelow : decide (listLimit ≤ (s.entry ch).list.length) = true := decide_eq_true hfull
        have := hnot ch hm
        simp only [hbelow, Bool.not_true, Bool.false_eq_true] at this
      · rcases List.mem_cons.mp hm with rfl | hm
        · rfl
        · have := (List.pairwise_cons.mp (List.pairwise_append.mp hsorted).2.1).1 ch hm
          exact absurd this (not_lt.mpr hgt.le)

theorem roomCheck_eq_room {s : State} {cs : ChannelSet} {slot : Slot} (hfree : (s.record slot).claim = none)
    (hlow : ∀ x, x < slot → (s.record x).claim ≠ none)
    (hroom : ∀ ch, inSet cs ch = true → (s.entry ch).list.length < 8) : roomCheck s cs = .room slot := by
  simp only [roomCheck, freeSlot?_eq_some hfree hlow, fullChannel?_eq_none.mpr hroom]

theorem placementCheck_eq_room {s : State} {p : Port} {priority : Priority} {cs : ChannelSet} {slot : Slot}
    (hceiling : priority ≤ (s.right p).ceiling) (hquota : (s.right p).held < (s.right p).quota.val)
    (hroom : roomCheck s cs = .room slot) : placementCheck s p priority none cs = .room slot := by
  simp only [placementCheck, if_neg (not_lt.mpr hceiling), if_neg (not_lt.mpr (Nat.succ_le_of_lt hquota)), hroom]

/-! ### What a placement leaves, once answered -/

/-- What CLAIM and SCENE_INVOKE leave where their checks pass (R11, R43 to R48). -/
theorem placeForPort_accepted {p : Port} {n : Need} {s : State} {slot : Slot} {c : Claim} (htaken : Taken p n s)
    {body : State → State × Result} (hbody : body s = placeForPort p none c s)
    (hcheck : placementCheck s p c.priority none c.channels = .room slot) :
    ∃ t, takeCommand p n body s = t ∧ Placed slot c s t ∧ (∀ q, Announced q [] c.channels s t) ∧
      WinnersSpend c.channels s t ∧ StageFollows s t ∧
      Accepted p (some (handleAt s slot)) (winsOn t (handleAt s slot) c.channels) s t ∧ OtherResultsKept p s t ∧
      t.players = s.players ∧ t.lines = s.lines := by
  have hdone : body s = done (some (handleAt s slot)) (winsOn (place slot c s) (handleAt s slot) c.channels)
      (settle .demand (place slot c s)) := by
    simp only [hbody, placeForPort, hcheck]
  have hports : ∀ q, (seat slot c s).port q = s.port q := fun q => by simp only [State.port, seat_ports]
  have hwinners : ∀ ch, ((seat slot c s).entry ch).winner = (s.entry ch).winner := fun ch => (seat_keeps slot c s ch).1
  have hresults : SameResults s (settle .demand (place slot c s)) :=
    (place_results slot c s).trans (settle_results .demand _)
  have hwins : winsOn (place slot c s) (handleAt s slot) c.channels =
      winsOn (settle .demand (place slot c s)) (handleAt s slot) c.channels := (winsOn_congr (by simp) _ _).symm
  have hannounced : ∀ q, Announced q [] c.channels s (settle .demand (place slot c s)) := fun q =>
    announced_settle none _ _ (by rw [hports]; exact .refl _) (by rw [hports]) (watchesOf_congr (by simp) _ _) hwinners
      (by simp)
  have hspent : WinnersSpend c.channels s (settle .demand (place slot c s)) :=
    spends_settle none _ _ (by simp) hwinners
  have hfollows : StageFollows s (settle .demand (place slot c s)) := settle_follows (by simp) (by simp)
  refine ⟨_, takeCommand_done htaken hdone, (place_placed slot c s .demand).accepted _ _ _,
    fun q => (hannounced q).accepted _ _ _, hspent.accepted _ _ _, hfollows.accepted _ _ _, ?_,
    acceptedState_others hresults, by simp, by simp⟩
  rw [hwins, winsOn_congr (acceptedState_resolver _ _ _ _)]
  exact acceptedState_accepted hresults

/-! ### Scenes -/

theorem inSet_or_bit (cs : ChannelSet) (ch i : Channel) :
    inSet (cs ||| (1#16 <<< ch.val)) i = (inSet cs i || decide (i = ch)) := by
  have hbit : (1#16 <<< ch.val).getLsbD i.val = decide (i = ch) := by
    rw [BitVec.getLsbD_shiftLeft, BitVec.getLsbD_one]
    by_cases h : i = ch
    · simp [h]
    · have : i.val ≠ ch.val := fun k => h (Fin.ext k)
      simp only [h, decide_false, Bool.and_eq_false_iff, decide_eq_false_iff_not, Bool.not_eq_false', decide_eq_true_eq]
      omega
  rw [inSet, BitVec.getLsbD_or, hbit, inSet]

/-- The set of the channels a test selects has exactly those members. -/
theorem inSet_setOf (f : Channel → Bool) (ch : Channel) : inSet (setOf f) ch = f ch := by
  have hfold : ∀ (l : List Channel) (cs : ChannelSet),
      inSet (l.foldl (fun cs i => if f i then cs ||| (1#16 <<< i.val) else cs) cs) ch =
        (inSet cs ch || (decide (ch ∈ l) && f ch)) := by
    intro l
    induction l with
    | nil => simp
    | cons i l ih =>
      intro cs
      rw [List.foldl_cons, ih]
      by_cases hi : ch = i
      · subst hi
        cases f ch <;> simp [inSet_or_bit]
      · cases f i <;> simp [inSet_or_bit, hi]
  rw [setOf, hfold]
  simp [inSet]

/-! ## Obligations -/

/-- Settles O19: both commands pass their checks and place their claim. -/
theorem claimAndSceneInvokePlaceRecord : Obligations.ClaimAndSceneInvokePlaceRecord := by
  refine ⟨fun p s slot level lease htaken hset hlevel hlease hceiling hquota hfree hlow hroom => ?_,
    fun p s slot n lease htaken hscene hlease hentries hceiling hquota hfree hlow hroom => ?_⟩
  · have hrequest : claimRequest p ((argLease s p).getD none) s =
        { active := true, owner := .port p, channels := arg s p 0, priority := (argClaimWord s p).priority,
          source := .fixed level, pattern := (argClaimWord s p).pattern, fade := (argClaimWord s p).fade,
          lease := lease, tag := arg s p 4 } := by
      have hl : toLevel (argNat s p 1) = level := by rw [hlevel]; exact Fin.ofNat_val_eq_self level
      simp only [claimRequest, hl, hlease, Option.getD_some]
    have hargs : claimArguments p s = none := by
      have := level.isLt
      simp only [claimArguments, hset, hlease, hlevel]
      simp
    have hbody : claimBody p s = placeForPort p none (claimRequest p ((argLease s p).getD none) s) s := by
      simp only [claimBody, hargs]
    rw [hrequest] at hbody
    obtain ⟨t, ht, hrest⟩ := placeForPort_accepted htaken hbody
      (placementCheck_eq_room hceiling hquota (roomCheck_eq_room hfree hlow hroom))
    exact ⟨t, congrArg Host.Outcome.next ht, hrest⟩
  · have hn : argScene s p = some n := inRange_eq_some.mpr hscene
    have hchannels : ∀ ch, inSet (s.scene n).channels ch = (tget (s.scene n).levels ch).isSome := inSet_setOf _
    have hargs : sceneArguments p s = none := by simp only [sceneArguments, hn, hlease, hentries, if_false]
    have hcheck := placementCheck_eq_room hceiling hquota
      (roomCheck_eq_room hfree hlow fun ch hch => hroom ch ((hchannels ch).symm.trans hch))
    obtain ⟨t, ht, hrest⟩ := placeForPort_accepted htaken
      (show sceneInvokeBody p s = placeForPort p none (sceneRequest p n lease s) s by
        simp only [sceneInvokeBody, hargs, hn, hlease, Option.getD_some]) hcheck
    exact ⟨t, congrArg Host.Outcome.next ht, hchannels, hrest⟩

end Sys2Proof.Machine

namespace Sys2Proof.Machine

/-! ## The checks of placements, MODIFY and WITHDRAW -/

/-! ### Arguments, by their numbers -/

theorem inRange_eq_none {n b : Nat} : inRange n b = none ↔ b ≤ n := by
  simp [inRange]

/-- A number in range is the index that its remainder gives. -/
theorem inRange_ofNat {n b : Nat} [NeZero b] (h : n < b) : inRange n b = some (Fin.ofNat b n) := by
  rw [inRange_some h]
  exact congrArg some (Fin.ext (Nat.mod_eq_of_lt h).symm)

theorem argLease_eq_none {s : State} {p : Port} :
    argLease s p = none ↔ 250 < ((arg s p 3).extractLsb' 0 8).toNat := by
  simp only [argLease, leaseOf]
  generalize ((arg s p 3).extractLsb' 0 8).toNat = n
  split_ifs with h0 h1
  · simp [h0]
  · simp only [false_iff]
    omega
  · simp only [true_iff]
    omega

theorem twoValued_eq_none {α : Type} {n : Nat} {zero one : α} : twoValued n zero one = none ↔ 1 < n := by
  unfold twoValued
  split
  · simp
  · simp
  · next h0 h1 =>
    simp only [true_iff]
    have : n ≠ 0 := h0
    have : n ≠ 1 := h1
    omega

theorem modeOf_eq_some {n : Nat} {mode : PlayerMode} (h : modeOf n = some mode) : mode = .loop ↔ n = 1 := by
  unfold modeOf twoValued at h
  split at h <;> cases h <;> simp

theorem entryCount_eq_zero {x : Scene} : x.entryCount = 0 ↔ ∀ ch : Channel, tget x.levels ch = none := by
  rw [Scene.entryCount, List.length_eq_zero_iff, List.filter_eq_nil_iff]
  constructor
  · intro h ch
    have := h (tget x.levels ch) (by simp [tget])
    simpa using this
  · intro h v hv
    obtain ⟨i, hi, rfl⟩ := Vector.mem_iff_getElem.mp (Vector.mem_toList_iff.mp hv)
    simpa [tget] using h ⟨i, hi⟩

theorem claimArguments_eq (p : Port) (s : State) : claimArguments p s =
    if arg s p 0 = 0 ∨ 4095 < argNat s p 1 ∨ 250 < ((arg s p 3).extractLsb' 0 8).toNat then some .badArgument
    else none := by
  simp only [claimArguments, argLease_eq_none, Nat.lt_iff_add_one_le]
  
theorem sceneArguments_eq (p : Port) (s : State) : sceneArguments p s =
    if 15 < argNat s p 0 ∨ 250 < ((arg s p 3).extractLsb' 0 8).toNat then some .badArgument
    else if ∀ ch : Channel, tget (s.scene (Fin.ofNat 16 (argNat s p 0))).levels ch = none then some .empty else none := by
  by_cases hn : 15 < argNat s p 0
  · have hscene : argScene s p = none := inRange_eq_none.mpr hn
    rw [if_pos (Or.inl hn)]
    simp only [sceneArguments, hscene]
  · have hscene : argScene s p = some (Fin.ofNat 16 (argNat s p 0)) := inRange_ofNat (by omega)
    cases hlease : argLease s p with
    | none =>
      rw [if_pos (Or.inr (argLease_eq_none.mp hlease))]
      simp only [sceneArguments, hscene, hlease]
    | some l =>
      have hl : ¬ 250 < ((arg s p 3).extractLsb' 0 8).toNat := fun h => by
        rw [argLease_eq_none.mpr h] at hlease
        cases hlease
      rw [if_neg (not_or.mpr ⟨hn, hl⟩)]
      simp only [sceneArguments, hscene, hlease, entryCount_eq_zero]

/-- A LOOP of zero-time steps alone, with stream-complete clear, as R98 says it. -/
theorem startPrecondition_eq {p : Port} {x : Player} {mode : PlayerMode} {n : Nat} (h : mode = .loop ↔ n = 1) :
    startPrecondition p x mode =
      if x.state = .free then some .wrongState
      else if x.holder ≠ some p then some .notOwner
      else if x.state ≠ .loading then some .wrongState
      else if x.queue = [] then some .empty
      else if n = 1 ∧ x.streamComplete = false ∧ ∀ st ∈ x.queue, st.ramp = 0 ∧ st.hold = 0 then some .badArgument
      else none := by
  have hzero : (x.queue.all PlayerStep.zeroTime = true) ↔ ∀ st ∈ x.queue, st.ramp = 0 ∧ st.hold = 0 := by
    simp only [List.all_eq_true, PlayerStep.zeroTime, Bool.and_eq_true, beq_iff_eq, Fin.val_eq_zero_iff]
  simp only [startPrecondition, h, hzero, Bool.not_eq_true']

theorem startArguments_eq (p : Port) (s : State) : startArguments p s =
    if arg s p 0 = 0 ∨ 1 < argNat s p 5 ∨ 1 < field (arg s p 6) 0 2 ∨ 1 < field (arg s p 6) 4 2 ∨
        250 < ((arg s p 3).extractLsb' 0 8).toNat then some .badArgument
    else
      let x := s.player (Fin.ofNat 2 (argNat s p 5))
      if x.state = .free then some .wrongState
      else if x.holder ≠ some p then some .notOwner
      else if x.state ≠ .loading then some .wrongState
      else if x.queue = [] then some .empty
      else if field (arg s p 6) 0 2 = 1 ∧ x.streamComplete = false ∧ ∀ st ∈ x.queue, st.ramp = 0 ∧ st.hold = 0 then
        some .badArgument
      else none := by
  have hmode : argMode s p = none ↔ 1 < field (arg s p 6) 0 2 := twoValued_eq_none
  have hfinish : argFinish s p = none ↔ 1 < field (arg s p 6) 4 2 := twoValued_eq_none
  have hplayer : argPlayer s p = none ↔ 1 < argNat s p 5 := inRange_eq_none
  have hlease := argLease_eq_none (s := s) (p := p)
  dsimp only
  by_cases hbad : arg s p 0 = 0 ∨ 1 < argNat s p 5 ∨ 1 < field (arg s p 6) 0 2 ∨ 1 < field (arg s p 6) 4 2 ∨
      250 < ((arg s p 3).extractLsb' 0 8).toNat
  · rw [if_pos hbad]
    unfold startArguments
    split
    · next n mode finish lease hn hm hf hl =>
      simp only [← hplayer, ← hmode, ← hfinish, ← hlease, hn, hm, hf, hl, reduceCtorEq, or_false] at hbad
      rw [if_pos hbad]
    · rfl
  · rw [if_neg hbad]
    simp only [← hplayer, ← hmode, ← hfinish, ← hlease, not_or] at hbad
    obtain ⟨hset, hn, hm, hf, hl⟩ := hbad
    obtain ⟨mode, hm⟩ := Option.ne_none_iff_exists'.mp hm
    obtain ⟨finish, hf⟩ := Option.ne_none_iff_exists'.mp hf
    obtain ⟨lease, hl⟩ := Option.ne_none_iff_exists'.mp hl
    have hn : argPlayer s p = some (Fin.ofNat 2 (argNat s p 5)) :=
      inRange_ofNat (not_le.mp fun h => hn (inRange_eq_none.mpr h))
    simp only [startArguments, hn, hm, hf, hl, if_neg hset]
    exact startPrecondition_eq (modeOf_eq_some hm)

/-! ### The arguments of MODIFY -/

/-- A field select chooses nothing where its six bits are 0 (R15, R203). -/
theorem isEmpty_fieldSelectOf (w : Word) : (fieldSelectOf w).isEmpty = true ↔ w.extractLsb' 0 6 = 0 := by
  have hbits : w.extractLsb' 0 6 = 0 ↔ ∀ i : Fin 6, w.getLsbD i.val = false := by
    constructor
    · intro h i
      have hi := congrArg (fun v => BitVec.getLsbD v i.val) h
      simpa [BitVec.getLsbD_extractLsb', i.isLt] using hi
    · intro h
      refine BitVec.eq_of_getLsbD_eq fun i hi => ?_
      simpa [BitVec.getLsbD_extractLsb', hi] using h ⟨i, hi⟩
  rw [hbits]
  simp [FieldSelect.isEmpty, fieldSelectOf, Fin.forall_fin_succ, and_assoc]

theorem isFixed_eq_false {x : LevelSource} : x.isFixed = false ↔ ∀ v, x ≠ .fixed v := by
  cases x <;> simp [LevelSource.isFixed]

/-- The lease operations by their code: SET, with its length (R58, R203). -/
theorem leaseOpOf_set {w : Word} (now : Instant) (h : w.extractLsb' 8 2 = 0) :
    leaseOpOf w now = if 0 < (w.extractLsb' 0 8).toNat ∧ (w.extractLsb' 0 8).toNat ≤ 250 then
      some (.set { length := Fin.ofNat 251 (w.extractLsb' 0 8).toNat, start := now }) else none := by
  have hcode : (w.extractLsb' 8 2).toNat = 0 := by rw [h]; rfl
  simp only [leaseOpOf, hcode, leaseOf]
  generalize (w.extractLsb' 0 8).toNat = n
  by_cases h0 : n = 0
  · simp [h0]
  · by_cases h1 : n < 251
    · have hn : (⟨n, h1⟩ : Fin 251) = Fin.ofNat 251 n := Fin.ext (Nat.mod_eq_of_lt h1).symm
      rw [if_neg h0, dif_pos h1, if_pos ⟨by omega, by omega⟩, hn]
    · rw [if_neg h0, dif_neg h1, if_neg fun k => by omega]

theorem leaseOpOf_restart {w : Word} (now : Instant) (h : w.extractLsb' 8 2 = 1) : leaseOpOf w now = some .restart := by
  have hcode : (w.extractLsb' 8 2).toNat = 1 := by rw [h]; rfl
  simp only [leaseOpOf, hcode]

theorem leaseOpOf_remove {w : Word} (now : Instant) (h : w.extractLsb' 8 2 = 2) : leaseOpOf w now = some .remove := by
  have hcode : (w.extractLsb' 8 2).toNat = 2 := by rw [h]; rfl
  simp only [leaseOpOf, hcode]

theorem leaseOpOf_unlisted {w : Word} (now : Instant) (h : w.extractLsb' 8 2 = 3) : leaseOpOf w now = none := by
  have hcode : (w.extractLsb' 8 2).toNat = 3 := by rw [h]; rfl
  simp only [leaseOpOf, hcode]

/-- The cases that fail the argument step of MODIFY (R15). -/
theorem modifyArguments_of_bad {p : Port} {c : Claim} {s : State}
    (h : (arg s p 5).extractLsb' 0 6 = 0 ∨
      ((fieldSelectOf (arg s p 5)).level = true ∧ ((∀ v, c.source ≠ .fixed v) ∨ 4095 < argNat s p 1)) ∨
      ((fieldSelectOf (arg s p 5)).lease = true ∧ ((arg s p 3).extractLsb' 8 2 = 3 ∨
        ((arg s p 3).extractLsb' 8 2 = 0 ∧
          (((arg s p 3).extractLsb' 0 8).toNat = 0 ∨ 250 < ((arg s p 3).extractLsb' 0 8).toNat)) ∨
        ((arg s p 3).extractLsb' 8 2 = 1 ∧ c.lease = none)))) : modifyArguments p c s = true := by
  simp only [modifyArguments, Bool.or_eq_true, Bool.and_eq_true, Bool.not_eq_true', isEmpty_fieldSelectOf,
    isFixed_eq_false, decide_eq_true_eq]
  rcases h with hempty | ⟨hlevel, hv⟩ | ⟨hlease, hop | ⟨hop, hlen⟩ | ⟨hop, hnone⟩⟩
  · exact .inl (.inl hempty)
  · exact .inl (.inr ⟨hlevel, hv⟩)
  · exact .inr ⟨hlease, .inl (by rw [leaseOpOf_unlisted _ hop]; rfl)⟩
  · exact .inr ⟨hlease, .inl (by rw [leaseOpOf_set _ hop, if_neg fun k => by omega]; rfl)⟩
  · exact .inr ⟨hlease, .inr ⟨by rw [leaseOpOf_restart _ hop]; rfl, by rw [hnone]; rfl⟩⟩

/-! ### Refusals -/

/-- What the checks of a placement answer, in their order (R8, R12). -/
theorem placementCheck_cases {s : State} {p : Port} {priority : Priority} {cs : ChannelSet} (bad : Option ResultCode) :
    ((s.right p).ceiling < priority → placementCheck s p priority bad cs = .refused .privilege 0) ∧
    (priority ≤ (s.right p).ceiling →
      (∀ code, bad = some code → placementCheck s p priority bad cs = .refused code 0) ∧
      (bad = none →
        ((s.right p).quota.val ≤ (s.right p).held →
          placementCheck s p priority bad cs = .refused .quota (s.right p).held) ∧
        ((s.right p).held < (s.right p).quota.val → placementCheck s p priority bad cs = roomCheck s cs))) := by
  refine ⟨fun h => ?_, fun h => ⟨fun code hb => ?_, fun hb => ⟨fun hq => ?_, fun hq => ?_⟩⟩⟩ <;> unfold placementCheck
  · rw [if_pos h]
  · rw [if_neg (not_lt.mpr h), hb]
  · rw [if_neg (not_lt.mpr h), hb]
    exact if_pos (Nat.lt_succ_of_le hq)
  · rw [if_neg (not_lt.mpr h), hb]
    exact if_neg (by omega)

/-- A command that answers the refusals of the placement checks answers them in their order (R8, R12). -/
theorem placement_refusals {p : Port} {s : State} {c : Instr} {body : State → State × Result} {bad : Option ResultCode}
    {cs : ChannelSet} (htaken : Taken p .none s) (hexec : exec c s = .next (takeCommand p .none body s))
    (hbody : ∀ code extra, placementCheck s p (argClaimWord s p).priority bad cs = .refused code extra →
      body s = refuse code extra s)
    (hbad : bad ≠ some .ok) :
    ((s.right p).ceiling < (argClaimWord s p).priority → exec c s = .next (refusedState p .privilege 0 s)) ∧
    ((argClaimWord s p).priority ≤ (s.right p).ceiling →
      (∀ code, bad = some code → exec c s = .next (refusedState p code 0 s)) ∧
      (bad = none →
        ((s.right p).quota.val ≤ (s.right p).held →
          exec c s = .next (refusedState p .quota (s.right p).held s)) ∧
        ((s.right p).held < (s.right p).quota.val →
          ((∀ x, (s.record x).claim ≠ none) → exec c s = .next (refusedState p .full 0 s)) ∧
          ((∃ x, (s.record x).claim = none) →
            ∀ ch, inSet cs ch = true → 8 ≤ (s.entry ch).list.length →
              (∀ i, i < ch → inSet cs i = true → (s.entry i).list.length < 8) →
              exec c s = .next (refusedState p .listFull ch.val s))))) := by
  have hrefused : ∀ code extra, placementCheck s p (argClaimWord s p).priority bad cs = .refused code extra →
      code ≠ .ok → exec c s = .next (refusedState p code extra s) := fun code extra h hok => by
    rw [hexec, takeCommand_refused htaken (hbody code extra h) hok]
  obtain ⟨hprivilege, hpassed⟩ :=
    placementCheck_cases (s := s) (p := p) (priority := (argClaimWord s p).priority) (cs := cs) bad
  refine ⟨fun h => hrefused _ _ (hprivilege h) (by decide), fun h => ?_⟩
  obtain ⟨hcode, hgood⟩ := hpassed h
  refine ⟨fun code hb => hrefused _ _ (hcode code hb) fun hok => hbad (hok ▸ hb), fun hb => ?_⟩
  obtain ⟨hquota, hroom⟩ := hgood hb
  refine ⟨fun hq => hrefused _ _ (hquota hq) (by decide), fun hq => ⟨fun hfull => ?_, fun hfree ch hin hlen hlow => ?_⟩⟩
  · refine hrefused _ _ ((hroom hq).trans ?_) (by decide)
    simp only [roomCheck, freeSlot?_eq_none.mpr hfull]
  · refine hrefused _ _ ((hroom hq).trans ?_) (by decide)
    cases hslot : freeSlot? s with
    | none =>
      obtain ⟨x, hx⟩ := hfree
      exact absurd hx (freeSlot?_eq_none.mp hslot x)
    | some slot => simp only [roomCheck, hslot, fullChannel?_eq_some hin hlen hlow]

/-- Where the argument step refuses, the channels of the claim do not matter. -/
theorem placementCheck_channels {s : State} {p : Port} {priority : Priority} {bad : Option ResultCode}
    {cs ds : ChannelSet} (h : bad = none → cs = ds) :
    placementCheck s p priority bad cs = placementCheck s p priority bad ds := by
  cases bad with
  | none => rw [h rfl]
  | some code => rfl

theorem placeForPort_refused {p : Port} {bad : Option ResultCode} {c : Claim} {s : State} {code : ResultCode} {extra : Nat}
    (h : placementCheck s p c.priority bad c.channels = .refused code extra) :
    placeForPort p bad c s = refuse code extra s := by
  simp only [placeForPort, h]

theorem claimArguments_ne_ok (p : Port) (s : State) : claimArguments p s ≠ some .ok := by
  rw [claimArguments_eq]
  split_ifs <;> simp

theorem sceneArguments_ne_ok (p : Port) (s : State) : sceneArguments p s ≠ some .ok := by
  rw [sceneArguments_eq]
  split_ifs <;> simp

theorem startArguments_ne_ok (p : Port) (s : State) : startArguments p s ≠ some .ok := by
  rw [startArguments_eq]
  dsimp only
  split_ifs <;> simp

/-- Where the argument step of SCENE_INVOKE passes, the scene is the one its argument names. -/
theorem sceneArguments_none {p : Port} {s : State} (h : sceneArguments p s = none) :
    argScene s p = some (Fin.ofNat 16 (argNat s p 0)) := by
  refine inRange_ofNat (not_le.mp fun hn => ?_)
  have hscene : argScene s p = none := inRange_eq_none.mpr hn
  simp [sceneArguments, hscene] at h

/-! ## Obligations -/

/-- Settles O20: each command answers the refusals of the same checks, with its own argument step. -/
theorem placementChecksInOrder : Obligations.PlacementChecksInOrder := by
  intro p s c bad channels htaken badLease scene player hcase
  rcases hcase with ⟨rfl, rfl, hbad⟩ | ⟨rfl, rfl, hbad⟩ | ⟨rfl, rfl, hbad⟩
  · obtain rfl : bad = claimArguments p s := hbad.trans (claimArguments_eq p s).symm
    exact placement_refusals htaken rfl (fun code extra h => placeForPort_refused h) (claimArguments_ne_ok p s)
  · obtain rfl : bad = sceneArguments p s := hbad.trans (sceneArguments_eq p s).symm
    refine placement_refusals htaken rfl (fun code extra h => placeForPort_refused ?_) (sceneArguments_ne_ok p s)
    rw [← h]
    refine placementCheck_channels fun hnone => ?_
    simp only [sceneRequest, sceneArguments_none hnone, Option.getD_some, scene]
  · obtain rfl : bad = startArguments p s := hbad.trans (startArguments_eq p s).symm
    refine placement_refusals htaken rfl (fun code extra h => ?_) (startArguments_ne_ok p s)
    have hcheck : placementCheck s p (startRequest p ((argPlayer s p).getD 0) ((argLease s p).getD none) s).priority
        (startArguments p s) (startRequest p ((argPlayer s p).getD 0) ((argLease s p).getD none) s).channels =
        .refused code extra := h
    simp only [playerStartBody, hcheck]

/-! ### MODIFY and WITHDRAW -/

/-- Settles O21. -/
theorem modifyAndWithdrawChecksInOrder : Obligations.ModifyAndWithdrawChecksInOrder := by
  refine ⟨fun p s c htaken hc => ?_, fun p s h c htaken hh hlive howner => ?_⟩
  · have hrefused : ∀ code, code ≠ .ok → modifyBody p s = refuse code 0 s → withdrawBody p s = refuse code 0 s →
        exec c s = .next (refusedState p code 0 s) := fun code hok hm hw => by
      rcases hc with rfl | rfl
      · exact congrArg Host.Outcome.next (takeCommand_refused htaken hm hok)
      · exact congrArg Host.Outcome.next (takeCommand_refused htaken hw hok)
    refine ⟨fun hnone => ?_, fun h hh => ⟨fun hstale => ?_, fun x hx hg hforeign => ?_⟩⟩
    · exact hrefused _ (by decide) (by simp only [modifyBody, hnone]) (by simp only [withdrawBody, hnone])
    · have hdead := claimAt_none.mpr hstale
      exact hrefused _ (by decide) (by simp only [modifyBody, hh, hdead]) (by simp only [withdrawBody, hh, hdead])
    · have hlive := claimAt_some.mpr ⟨hg, hx⟩
      exact hrefused _ (by decide) (by simp only [modifyBody, hh, hlive, if_pos hforeign])
        (by simp only [withdrawBody, hh, hlive, if_pos hforeign])
  · intro f op length above
    have hown : ¬ c.owner ≠ .port p := not_not.mpr howner
    have habove : (f.priority && decide ((s.right p).ceiling < (argClaimWord s p).priority)) = true ↔ above := by
      simp only [above, Bool.and_eq_true, decide_eq_true_eq]
    refine ⟨fun ha => ?_, fun ha hbad => ?_⟩
    · have hbody : modifyBody p s = refuse .privilege 0 s := by
        simp only [modifyBody, hh, hlive, if_neg hown]
        exact if_pos (habove.mpr ha)
      exact congrArg Host.Outcome.next (takeCommand_refused htaken hbody (by decide))
    · have hargs : modifyArguments p c s = true := modifyArguments_of_bad hbad
      have hbody : modifyBody p s = refuse .badArgument 0 s := by
        simp only [modifyBody, hh, hlive, if_neg hown]
        rw [if_neg (fun k => ha (habove.mp k)), if_pos hargs]
      exact congrArg Host.Outcome.next (takeCommand_refused htaken hbody (by decide))

end Sys2Proof.Machine

namespace Sys2Proof.Machine

/-! ## The effect of MODIFY -/

/-! ### The record and its place in the lists -/

/-- The state of a MODIFY before resolution: the record with its changes, moved to the head of its new class where its
priority changes (R16). -/
def modified (p : Port) (h : Handle) (c : Claim) (s : State) : State :=
  let c' := modifiedClaim p c s
  let s1 := s.modRecord h.slot fun r => { r with claim := some c' }
  if decide (c'.priority ≠ c.priority) then reinsert h c' s1 else s1

theorem applyModify_eq (p : Port) (h : Handle) (c : Claim) (s : State) :
    applyModify p h c s =
      if (fieldSelectOf (arg s p 5)).level || (fieldSelectOf (arg s p 5)).pattern ||
          decide ((modifiedClaim p c s).priority ≠ c.priority) then
        settle .demand (resolveSet (if (fieldSelectOf (arg s p 5)).fade then some h else none) true c.channels
          (modified p h c s))
      else if (fieldSelectOf (arg s p 5)).fade then settle .demand (handFade h (modifiedClaim p c s) (modified p h c s))
      else modified p h c s := rfl

/-- A MODIFY ends in a resolution, in a new fade time handed on, or in its changes alone (R17). -/
theorem applyModify_cases (p : Port) (h : Handle) (c : Claim) (s : State) :
    (∃ faded, applyModify p h c s = settle .demand (resolveSet faded true c.channels (modified p h c s))) ∨
    applyModify p h c s = settle .demand (handFade h (modifiedClaim p c s) (modified p h c s)) ∨
    applyModify p h c s = modified p h c s := by
  rw [applyModify_eq]
  split
  · exact .inl ⟨_, rfl⟩
  · split
    · exact .inr (.inl rfl)
    · exact .inr (.inr rfl)

/-- What neither an update of a record nor a re-insertion writes, the changes of a MODIFY leave. -/
theorem modified_keeps {β : Type} (g : State → β) (h1 : ∀ k f u, g (State.modRecord u k f) = g u)
    (h2 : ∀ x d u, g (reinsert x d u) = g u) (p : Port) (h : Handle) (c : Claim) (s : State) :
    g (modified p h c s) = g s := by
  unfold modified
  dsimp only
  split_ifs
  · rw [h2, h1]
  · rw [h1]

theorem modified_pool (p : Port) (h : Handle) (c : Claim) (s : State) :
    (modified p h c s).pool = (s.modRecord h.slot fun r => { r with claim := some (modifiedClaim p c s) }).pool := by
  unfold modified
  dsimp only
  split_ifs
  · simp
  · rfl

theorem modified_kept (p : Port) (h : Handle) (c : Claim) (s : State) : Kept s (modified p h c s) := by
  unfold modified
  dsimp only
  split_ifs
  · exact (modRecord_kept _ _ _).trans (reinsert_kept _ _ _)
  · exact modRecord_kept _ _ _

/-- The entry of a channel once a record has been re-inserted in its lists (R31). -/
theorem reinsert_entry (h : Handle) (c : Claim) (s : State) (ch : Channel) :
    (reinsert h c s).entry ch =
      if ch ∈ members c.channels then
        { s.entry ch with
          list := insertClass (priorityOf s) c.priority h ((s.entry ch).list.filter fun x => decide (x ≠ h)) }
      else s.entry ch := by
  rw [reinsert, enlist_entry, unlist_entry, priorityOf_congr (unlist_pool h c s)]
  split_ifs <;> rfl

/-- The entry of a channel after the changes of a MODIFY: its list alone is written, and that where the record moves. -/
theorem modified_entry (p : Port) (h : Handle) (c : Claim) (s : State) (ch : Channel) :
    (modified p h c s).entry ch =
      if (modifiedClaim p c s).priority ≠ c.priority ∧ inSet c.channels ch = true then
        { s.entry ch with
          list := insertClass (priorityOf (modified p h c s)) (modifiedClaim p c s).priority h
            ((s.entry ch).list.filter fun x => decide (x ≠ h)) }
      else s.entry ch := by
  rw [priorityOf_congr (modified_pool p h c s)]
  unfold modified
  dsimp only
  by_cases hp : (modifiedClaim p c s).priority ≠ c.priority
  · have hmem : ch ∈ members (modifiedClaim p c s).channels ↔ inSet c.channels ch = true := mem_members
    simp only [hp, decide_true, if_true, reinsert_entry, hmem, true_and, ne_eq, not_false_eq_true]
    rfl
  · simp only [hp, decide_false, Bool.false_eq_true, if_false, false_and]
    rfl

/-- What the resolver holds for a channel stays until resolution. -/
theorem modified_outcome (p : Port) (h : Handle) (c : Claim) (s : State) (ch : Channel) :
    ((modified p h c s).entry ch).winner = (s.entry ch).winner ∧
    ((modified p h c s).entry ch).target = (s.entry ch).target ∧
    ((modified p h c s).entry ch).pattern = (s.entry ch).pattern := by
  rw [modified_entry]
  split_ifs <;> exact ⟨rfl, rfl, rfl⟩

/-! ### The new fade time alone -/

theorem handFade_keeps {β : Type} (g : State → β) (hg : ∀ ch f u, g (State.modChan u ch f) = g u) (h : Handle) (c : Claim)
    (s : State) : g (handFade h c s) = g s :=
  forEach_keeps g _ _ (fun ch u => by
    split_ifs
    · exact hg _ _ _
    · rfl) s

theorem handFade_kept (h : Handle) (c : Claim) (s : State) : Kept s (handFade h c s) :=
  forEach_kept _ _ (fun ch u => by
    split_ifs
    · exact handLevel_kept _ _ _ _ _
    · exact .refl _) s

/-- A chosen fade is handed toward the unchanged target, on the channels the claim wins and no other (R17, R47). -/
theorem handFade_chan (h : Handle) (c : Claim) (s : State) (ch : Channel) :
    (handFade h c s).chan ch =
      if inSet c.channels ch = true ∧ (s.entry ch).winner = some h then
        redirect (s.entry ch).target (s.entry ch).pattern (fadeTime c.fade) s.now (s.chan ch)
      else s.chan ch := by
  rw [handFade, forEach_at (fun u i => u.chan i) _
    (fun i u => if (u.entry i).winner == some h then
      redirect (u.entry i).target (u.entry i).pattern (fadeTime c.fade) u.now (u.chan i) else u.chan i)
    (fun i u => by split_ifs <;> simp [handLevel]) (fun i j u hj => by split_ifs <;> simp [handLevel, State.chan_modChan, hj])
    (fun i j u hj => by split_ifs <;> simp_all [handLevel, State.chan_modChan]) _ (nodup_members _)]
  simp only [mem_members, beq_iff_eq, ite_and]

/-! ### The whole taking -/

/-- The taking of a MODIFY writes neither rights, scenes, players nor lines, and its records and lists are those of its
changes. -/
theorem applyModify_frame (p : Port) (h : Handle) (c : Claim) (s : State) :
    (applyModify p h c s).access = s.access ∧ (applyModify p h c s).scenes = s.scenes ∧
    (applyModify p h c s).players = s.players ∧ (applyModify p h c s).lines = s.lines ∧
    (applyModify p h c s).pool = (modified p h c s).pool ∧
    ∀ ch, ((applyModify p h c s).entry ch).list = ((modified p h c s).entry ch).list := by
  have haccess := modified_keeps (fun u => u.access) (fun _ _ _ => rfl) (fun _ _ _ => by simp) p h c s
  have hscenes := modified_keeps (fun u => u.scenes) (fun _ _ _ => rfl) (fun _ _ _ => by simp) p h c s
  have hplayers := modified_keeps (fun u => u.players) (fun _ _ _ => rfl) (fun _ _ _ => by simp) p h c s
  have hlines := modified_keeps (fun u => u.lines) (fun _ _ _ => rfl) (fun _ _ _ => by simp) p h c s
  have hfade : ∀ {β : Type} (g : State → β), (∀ ch f u, g (State.modChan u ch f) = g u) → ∀ u,
      g (handFade h (modifiedClaim p c s) u) = g u := fun g hg u => handFade_keeps g hg _ _ _
  obtain ⟨faded, hrun⟩ | hrun | hrun := applyModify_cases p h c s
  · rw [hrun]
    refine ⟨by simpa using haccess, by simpa using hscenes, by simpa using hplayers, by simpa using hlines, by simp,
      fun ch => ?_⟩
    rw [settle_entry, resolveSet_list]
  · rw [hrun]
    refine ⟨by simp only [settle_access, hfade (fun u => u.access) fun _ _ _ => rfl, haccess],
      by simp only [settle_scenes, hfade (fun u => u.scenes) fun _ _ _ => rfl, hscenes],
      by simp only [settle_players, hfade (fun u => u.players) fun _ _ _ => rfl, hplayers],
      by simp only [settle_lines, hfade (fun u => u.lines) fun _ _ _ => rfl, hlines],
      by simp only [settle_pool, hfade (fun u => u.pool) fun _ _ _ => rfl], fun ch => ?_⟩
    rw [settle_entry, hfade (fun u => u.entry ch) fun _ _ _ => rfl]
  · rw [hrun]
    exact ⟨haccess, hscenes, hplayers, hlines, rfl, fun _ => rfl⟩

theorem modified_ports (p : Port) (h : Handle) (c : Claim) (s : State) : (modified p h c s).ports = s.ports :=
  modified_keeps (fun u => u.ports) (fun _ _ _ => rfl) (fun _ _ _ => by simp) p h c s

theorem modified_output (p : Port) (h : Handle) (c : Claim) (s : State) : (modified p h c s).output = s.output :=
  modified_keeps (fun u => u.output) (fun _ _ _ => rfl) (fun _ _ _ => by simp) p h c s

theorem modified_now (p : Port) (h : Handle) (c : Claim) (s : State) : (modified p h c s).now = s.now :=
  modified_keeps (fun u => u.now) (fun _ _ _ => rfl) (fun _ _ _ => by simp) p h c s

theorem modified_watches (p : Port) (h : Handle) (c : Claim) (s : State) : (modified p h c s).watches = s.watches :=
  modified_keeps (fun u => u.watches) (fun _ _ _ => rfl) (fun _ _ _ => by simp) p h c s

theorem modified_modulator (p : Port) (h : Handle) (c : Claim) (s : State) :
    (modified p h c s).modulator = s.modulator :=
  modified_keeps (fun u => u.modulator) (fun _ _ _ => rfl) (fun _ _ _ => by simp) p h c s

/-- A MODIFY that leaves the priority leaves the resolver until resolution. -/
theorem modified_resolver {p : Port} {h : Handle} {c : Claim} {s : State}
    (hp : (modifiedClaim p c s).priority = c.priority) : (modified p h c s).resolver = s.resolver := by
  refine table_ext fun ch => ?_
  have := modified_entry p h c s ch
  rw [if_neg fun k => k.1 hp] at this
  exact this

theorem applyModify_results (p : Port) (h : Handle) (c : Claim) (s : State) : SameResults s (applyModify p h c s) := by
  have hmodified : SameResults s (modified p h c s) := .of_ports (modified_ports p h c s)
  have hports : (handFade h (modifiedClaim p c s) (modified p h c s)).ports = (modified p h c s).ports :=
    handFade_keeps (fun u => u.ports) (fun _ _ _ => rfl) _ _ _
  obtain ⟨faded, hrun⟩ | hrun | hrun := applyModify_cases p h c s
  · rw [hrun]
    exact (hmodified.trans (resolveSet_results _ _ _ _)).trans (settle_results _ _)
  · rw [hrun]
    exact (hmodified.trans (.of_ports hports)).trans (settle_results _ _)
  · rw [hrun]
    exact hmodified

theorem applyModify_kept (p : Port) (h : Handle) (c : Claim) (s : State) : Kept s (applyModify p h c s) := by
  have hmodified := modified_kept p h c s
  obtain ⟨faded, hrun⟩ | hrun | hrun := applyModify_cases p h c s
  · rw [hrun]
    exact (hmodified.trans (resolveSet_kept _ _ _ _)).trans (settle_kept _ _)
  · rw [hrun]
    exact (hmodified.trans (handFade_kept _ _ _)).trans (settle_kept _ _)
  · rw [hrun]
    exact hmodified

/-- A MODIFY of a level, a pattern or a priority redoes resolution once (R17, R47). -/
theorem applyModify_resolves {p : Port} {h : Handle} {c : Claim} {s : State}
    (hsel : (fieldSelectOf (arg s p 5)).level = true ∨ (fieldSelectOf (arg s p 5)).pattern = true ∨
      (modifiedClaim p c s).priority ≠ c.priority) :
    RedoneBy (if (fieldSelectOf (arg s p 5)).fade then some h else none) c.channels s (applyModify p h c s) ∧
    StageFollows s (applyModify p h c s) ∧ WinnersSpend c.channels s (applyModify p h c s) ∧
    ∀ q, Announced q [] c.channels s (applyModify p h c s) := by
  have hrun : applyModify p h c s = settle .demand
      (resolveSet (if (fieldSelectOf (arg s p 5)).fade then some h else none) true c.channels (modified p h c s)) := by
    rw [applyModify_eq, if_pos]
    simpa only [Bool.or_eq_true, decide_eq_true_eq, or_assoc] using hsel
  have houtput := modified_output p h c s
  have houtcome := modified_outcome p h c s
  have hwinner : ∀ ch, ((modified p h c s).entry ch).winner = (s.entry ch).winner := fun ch => (houtcome ch).1
  have hport : ∀ q, (modified p h c s).port q = s.port q := fun q => by simp only [State.port, modified_ports]
  rw [hrun]
  refine ⟨(resolveSet_redo _ _ _ hwinner (fun ch => (houtcome ch).2.1) (fun ch => (houtcome ch).2.2)
    (fun ch => by simp only [State.chan, modified_modulator]) (by rw [houtput]) (modified_now p h c s)).settle _, ?_, ?_,
    fun q => ?_⟩
  · exact settle_follows (by rw [resolveSet_output, houtput]) (by rw [resolveSet_now, modified_now])
  · exact spends_settle _ _ _ (modified_watches p h c s) hwinner
  · exact announced_settle _ _ _ (by rw [hport]; exact .refl _) (by rw [hport])
      (watchesOf_congr (modified_watches p h c s) _ _) hwinner (by rw [houtput])

/-- A taking that queues the stage's move alone. -/
theorem announced_zero {q : Port} {s t : State} (h : Queued (stageTold s t) (s.port q) (t.port q)) :
    Announced q [] 0 s t := by
  have hnone : winnersTold q 0 s t = [] := by
    simp [winnersTold, changedWinners, members, inSet, told, reached]
  rw [Announced, hnone]
  exact h

/-- A MODIFY of the fade alone hands the new fade time on the channels won, and resolves nothing (R17, R47). -/
theorem applyModify_fades {p : Port} {h : Handle} {c : Claim} {s : State}
    (hlevel : (fieldSelectOf (arg s p 5)).level = false) (hpattern : (fieldSelectOf (arg s p 5)).pattern = false)
    (hpriority : (modifiedClaim p c s).priority = c.priority) (hfade : (fieldSelectOf (arg s p 5)).fade = true) :
    (applyModify p h c s).resolver = s.resolver ∧ (∀ q, Announced q [] 0 s (applyModify p h c s)) ∧
    WinnersSpend 0 s (applyModify p h c s) ∧ StageFollows s (applyModify p h c s) ∧
    ∀ ch, ChanIs
      (if inSet c.channels ch = true ∧ (s.entry ch).winner = some h then
        redirect (s.entry ch).target (s.entry ch).pattern (fadeTime (modifiedClaim p c s).fade) s.now (s.chan ch)
      else s.chan ch) s (applyModify p h c s) ch := by
  have hrun : applyModify p h c s = settle .demand (handFade h (modifiedClaim p c s) (modified p h c s)) := by
    rw [applyModify_eq, if_neg (by simp [hlevel, hpattern, hpriority]), if_pos hfade]
  generalize hu : handFade h (modifiedClaim p c s) (modified p h c s) = u at hrun
  have hkeeps : ∀ {β : Type} (g : State → β), (∀ ch f v, g (State.modChan v ch f) = g v) →
      g u = g (modified p h c s) := fun g hg => by rw [← hu]; exact handFade_keeps g hg _ _ _
  have hresolver : u.resolver = s.resolver := (hkeeps (fun v => v.resolver) fun _ _ _ => rfl).trans
    (modified_resolver hpriority)
  have houtput : u.output = s.output := (hkeeps (fun v => v.output) fun _ _ _ => rfl).trans (modified_output p h c s)
  have hports : u.ports = s.ports := (hkeeps (fun v => v.ports) fun _ _ _ => rfl).trans (modified_ports p h c s)
  have hnow : u.now = s.now := (hkeeps (fun v => v.now) fun _ _ _ => rfl).trans (modified_now p h c s)
  have hwatches : u.watches = s.watches := (hkeeps (fun v => v.watches) fun _ _ _ => rfl).trans
    (modified_watches p h c s)
  rw [hrun]
  refine ⟨(settle_resolver _ _).trans hresolver, fun q => announced_zero ?_, .zero (by rw [settle_watches, hwatches]),
    settle_follows houtput hnow, fun ch => ChanIs.settle ?_ (by rw [houtput]) _⟩
  · have := settle_queued .demand u q
    rwa [stageTold, houtput, ← stageTold, State.port, hports, ← State.port] at this
  · have hentry : (modified p h c s).entry ch = s.entry ch := by simp only [State.entry, modified_resolver hpriority]
    have hchan : (modified p h c s).chan ch = s.chan ch := by simp only [State.chan, modified_modulator]
    rw [← hu, handFade_chan, hentry, hchan, modified_now]
    rfl

/-- A MODIFY of neither level, pattern, priority nor fade reaches no channel (R17). -/
theorem applyModify_quiet {p : Port} {h : Handle} {c : Claim} {s : State}
    (hlevel : (fieldSelectOf (arg s p 5)).level = false) (hpattern : (fieldSelectOf (arg s p 5)).pattern = false)
    (hpriority : (modifiedClaim p c s).priority = c.priority) (hfade : (fieldSelectOf (arg s p 5)).fade = false) :
    (applyModify p h c s).resolver = s.resolver ∧ (∀ q, Announced q [] 0 s (applyModify p h c s)) ∧
    WinnersSpend 0 s (applyModify p h c s) ∧ (applyModify p h c s).modulator = s.modulator ∧
    (applyModify p h c s).output = s.output := by
  have hrun : applyModify p h c s = modified p h c s := by
    rw [applyModify_eq, if_neg (by simp [hlevel, hpattern, hpriority]), if_neg (by simp [hfade])]
  rw [hrun]
  refine ⟨modified_resolver hpriority, fun q => announced_zero ?_, .zero (modified_watches p h c s),
    modified_modulator p h c s, modified_output p h c s⟩
  rw [stageTold, modified_output, if_pos rfl]
  exact .of_eq (by simp only [State.port, modified_ports]) (by simp only [State.port, modified_ports])

/-! ### The changed fields -/

/-- The lease of a changed claim, by the lease operation (R58). -/
theorem modifiedClaim_lease {p : Port} {c : Claim} {s : State} (hargs : modifyArguments p c s = false) :
    ((fieldSelectOf (arg s p 5)).lease = false → (modifiedClaim p c s).lease = c.lease) ∧
    ((fieldSelectOf (arg s p 5)).lease = true → (arg s p 3).extractLsb' 8 2 = 0 →
      (modifiedClaim p c s).lease =
        some { length := Fin.ofNat 251 ((arg s p 3).extractLsb' 0 8).toNat, start := s.now }) ∧
    ((fieldSelectOf (arg s p 5)).lease = true → (arg s p 3).extractLsb' 8 2 = 1 →
      (modifiedClaim p c s).lease = c.lease.map fun l => { l with start := s.now }) ∧
    ((fieldSelectOf (arg s p 5)).lease = true → (arg s p 3).extractLsb' 8 2 = 2 → (modifiedClaim p c s).lease = none) := by
  refine ⟨fun hsel => ?_, fun hsel hop => ?_, fun hsel hop => ?_, fun hsel hop => ?_⟩
  · simp [modifiedClaim, hsel]
  · have hlength : 0 < ((arg s p 3).extractLsb' 0 8).toNat ∧ ((arg s p 3).extractLsb' 0 8).toNat ≤ 250 := by
      by_contra hbad
      refine Bool.false_ne_true (hargs.symm.trans (modifyArguments_of_bad (.inr (.inr ⟨hsel, .inr (.inl ⟨hop, ?_⟩)⟩))))
      omega
    simp only [modifiedClaim, hsel, if_true, leaseOpOf_set _ hop, if_pos hlength, applyLeaseOp]
  · simp only [modifiedClaim, hsel, if_true, leaseOpOf_restart _ hop, applyLeaseOp]
  · simp only [modifiedClaim, hsel, if_true, leaseOpOf_remove _ hop, applyLeaseOp]

theorem modifyBody_done {p : Port} {s : State} {h : Handle} {c : Claim} (hh : handleOf (arg s p 0) = some h)
    (hlive : claimAt s h = some c) (howner : c.owner = .port p)
    (hceiling : ¬((fieldSelectOf (arg s p 5)).priority = true ∧ (s.right p).ceiling < (argClaimWord s p).priority))
    (hargs : modifyArguments p c s = false) : modifyBody p s =
      done (some h) (winsOn (applyModify p h c s) h c.channels) (applyModify p h c s) := by
  have hpass : ¬((fieldSelectOf (arg s p 5)).priority && decide ((s.right p).ceiling < (argClaimWord s p).priority)) = true :=
    by simpa only [Bool.and_eq_true, decide_eq_true_eq] using hceiling
  simp only [modifyBody, hh, hlive, if_neg (not_not.mpr howner), if_neg hpass, hargs, Bool.false_eq_true, if_false]

/-! ## Obligation -/

/-- Settles O22. -/
theorem modifyChangesChosenFields : Obligations.ModifyChangesChosenFields := by
  intro p s h c htaken hh hlive howner hlists hceiling hargs f length
  have hrun := takeCommand_done htaken (modifyBody_done hh hlive howner hceiling hargs)
  obtain ⟨haccess, hscenes, hplayers, hlines, hpool, hlist⟩ := applyModify_frame p h c s
  obtain ⟨hkeepLease, hset, hrestart, hremove⟩ := modifiedClaim_lease hargs
  have hresults := applyModify_results p h c s
  have hrecord : ∀ x, (applyModify p h c s).record x =
      if x = h.slot then { s.record h.slot with claim := some (modifiedClaim p c s) } else s.record x := fun x => by
    rw [State.record, hpool, modified_pool, ← State.record, State.record_modRecord]
  have hgen : (s.record h.slot).gen = h.gen := (claimAt_some.mp hlive).1
  refine ⟨_, modifiedClaim p c s, congrArg Host.Outcome.next hrun, ?_, rfl, rfl, rfl, fun hl => ?_, fun hl => ?_, rfl, rfl, rfl,
    rfl, hkeepLease, hset, hrestart, hremove, fun x hx => ?_, ?_, fun ch => ?_, fun hsel => ?_,
    fun hl hp hprio => ?_, ?_, acceptedState_others hresults, ?_, ?_, ?_, ?_, ?_⟩
  · exact claimAt_some.mpr ⟨(congrArg ClaimRecord.gen (hrecord h.slot)).trans (by rw [if_pos rfl]; exact hgen),
      (congrArg ClaimRecord.claim (hrecord h.slot)).trans (by rw [if_pos rfl])⟩
  · simp only [modifiedClaim, f] at hl ⊢
    rw [if_pos hl]
    rfl
  · simp only [modifiedClaim, f] at hl ⊢
    rw [if_neg (by simp [hl])]
  · exact (hrecord x).trans (if_neg hx)
  · exact (congrArg ClaimRecord.gen (hrecord h.slot)).trans (by rw [if_pos rfl])
  · rw [acceptedState_entry, hlist, modified_entry, priorityOf_congr (t := acceptedState p _ _ _)
      (s := modified p h c s) hpool]
    split_ifs <;> rfl
  · obtain ⟨hredone, hfollows, hspent, hannounced⟩ := applyModify_resolves (h := h) hsel
    exact ⟨hredone.accepted _ _ _, hfollows.accepted _ _ _, hspent.accepted _ _ _,
      fun q => (hannounced q).accepted _ _ _⟩
  · cases hf : f.fade with
    | true =>
      obtain ⟨hresolver, hannounced, hspent, hfollows, hhanded⟩ := applyModify_fades (h := h) hl hp hprio hf
      exact ⟨hresolver, fun q => (hannounced q).accepted _ _ _, hspent.accepted _ _ _,
        (fun _ => ⟨hfollows.accepted _ _ _, hhanded⟩), fun hno => by cases hno⟩
    | false =>
      obtain ⟨hresolver, hannounced, hspent, hmodulator, houtput⟩ := applyModify_quiet (h := h) hl hp hprio hf
      exact ⟨hresolver, fun q => (hannounced q).accepted _ _ _, hspent.accepted _ _ _,
        (fun hno => by cases hno), fun _ => ⟨hmodulator, houtput⟩⟩
  · rw [winsOn_congr (acceptedState_resolver _ _ _ _)]
    exact acceptedState_accepted hresults
  · exact (applyModify_kept p h c s).trans (acceptedState_kept _ _ _ _)
  · exact haccess
  · exact hscenes
  · exact hplayers
  · exact hlines

end Sys2Proof.Machine

namespace Sys2Proof.Machine

/-! ## Power-on reset -/

/-- Every port stands at its reset value. -/
theorem reset_port (p : Port) : State.reset.port p = PortState.reset := tget_replicate _ p

/-- At reset no port holds a claim, and every quota is 16 (R25). -/
theorem reset_right (p : Port) : (State.reset.right p).quota = 16 ∧ (State.reset.right p).held = 0 := by
  fin_cases p <;> exact ⟨rfl, rfl⟩

/-- At reset every argument register reads 0. -/
theorem reset_arg (p : Port) (i : Fin 8) : arg State.reset p i = 0 := by
  unfold arg
  rw [reset_port]
  exact tget_replicate _ i

/-- At reset every blink clock stands. -/
theorem reset_clock (k : ClockNo) : (State.reset.clock k).offHalf = false ∧ (State.reset.clock k).began = none := by
  fin_cases k <;> exact ⟨rfl, rfl⟩

/-- Settles O4: every table of the reset state repeats one value, except the rights (which differ by the maintenance
port) and the clocks (which differ by their half-periods). -/
theorem resetHasPowerOnValues : Obligations.ResetHasPowerOnValues := by
  unfold Obligations.ResetHasPowerOnValues
  dsimp only
  have hscene (n : SceneNo) : State.reset.scene n = { levels := Vector.replicate 16 none, inUse := 0 } :=
    tget_replicate _ n
  have hplayer (n : PlayerNo) : State.reset.player n = Player.reset := tget_replicate _ n
  have hline (l : Line) : State.reset.line l = LineState.reset := tget_replicate _ l
  have hchan (ch : Channel) : State.reset.chan ch =
      { fade := .parked, target := 0, pattern := .steady, defaultIndex := 3, defaultShape := .linear } :=
    tget_replicate _ ch
  refine ⟨fun x => tget_replicate _ x, fun ch => tget_replicate _ ch, fun n ch => ?scenes, fun n => ?players,
    fun l => ?lines, fun ch => ?channels, ⟨rfl, rfl, rfl, rfl, reset_clock⟩, rfl, rfl, rfl, rfl, rfl, rfl, rfl, rfl, rfl,
    rfl, rfl, fun ch => tget_replicate _ ch, fun w => tget_replicate _ w, reset_right, fun p => ⟨reset_arg p, ?ports⟩⟩
  case scenes =>
    rw [hscene]
    exact ⟨rfl, tget_replicate _ ch⟩
  case players =>
    rw [hplayer]
    exact ⟨rfl, rfl, rfl, rfl, rfl, rfl⟩
  case lines =>
    rw [hline]
    exact ⟨rfl, rfl, rfl, rfl, rfl, rfl, rfl, rfl, rfl, rfl, rfl⟩
  case channels =>
    rw [hchan]
    exact ⟨rfl, rfl, rfl, rfl, rfl⟩
  case ports =>
    rw [reset_port]
    exact ⟨rfl, rfl, rfl, rfl, rfl, rfl, rfl, rfl, rfl, rfl, rfl, rfl, rfl, rfl⟩

end Sys2Proof.Machine

namespace Sys2Proof.Machine

/-! ## Port resets -/

/-! ### What the stage does not read

The ports and the players stand beside everything that the end of a taking reads. -/

/-- A state with other ports and other players. -/
def withPorts (v : Vector PortState 3) (w : Vector Player 2) (s : State) : State := { s with ports := v, players := w }

@[simp] theorem withPorts_ports (v : Vector PortState 3) (w : Vector Player 2) (s : State) : (withPorts v w s).ports = v :=
  rfl
@[simp] theorem withPorts_players (v : Vector PortState 3) (w : Vector Player 2) (s : State) :
    (withPorts v w s).players = w := rfl
@[simp] theorem withPorts_now (v : Vector PortState 3) (w : Vector Player 2) (s : State) :
    (withPorts v w s).now = s.now := rfl
@[simp] theorem withPorts_access (v : Vector PortState 3) (w : Vector Player 2) (s : State) :
    (withPorts v w s).access = s.access := rfl
@[simp] theorem withPorts_pool (v : Vector PortState 3) (w : Vector Player 2) (s : State) :
    (withPorts v w s).pool = s.pool := rfl
@[simp] theorem withPorts_resolver (v : Vector PortState 3) (w : Vector Player 2) (s : State) :
    (withPorts v w s).resolver = s.resolver := rfl
@[simp] theorem withPorts_scenes (v : Vector PortState 3) (w : Vector Player 2) (s : State) :
    (withPorts v w s).scenes = s.scenes := rfl
@[simp] theorem withPorts_lines (v : Vector PortState 3) (w : Vector Player 2) (s : State) :
    (withPorts v w s).lines = s.lines := rfl
@[simp] theorem withPorts_output (v : Vector PortState 3) (w : Vector Player 2) (s : State) :
    (withPorts v w s).output = s.output := rfl
@[simp] theorem withPorts_watches (v : Vector PortState 3) (w : Vector Player 2) (s : State) :
    (withPorts v w s).watches = s.watches := rfl
@[simp] theorem withPorts_lampTest (v : Vector PortState 3) (w : Vector Player 2) (s : State) :
    (withPorts v w s).lampTest = s.lampTest := rfl
@[simp] theorem withPorts_outs (v : Vector PortState 3) (w : Vector Player 2) (s : State) :
    (withPorts v w s).outs = s.outs := rfl
@[simp] theorem withPorts_record (v : Vector PortState 3) (w : Vector Player 2) (s : State) (i : Slot) :
    (withPorts v w s).record i = s.record i := rfl
@[simp] theorem withPorts_entry (v : Vector PortState 3) (w : Vector Player 2) (s : State) (i : Channel) :
    (withPorts v w s).entry i = s.entry i := rfl
@[simp] theorem withPorts_right (v : Vector PortState 3) (w : Vector Player 2) (s : State) (i : Port) :
    (withPorts v w s).right i = s.right i := rfl
@[simp] theorem withPorts_scene (v : Vector PortState 3) (w : Vector Player 2) (s : State) (i : SceneNo) :
    (withPorts v w s).scene i = s.scene i := rfl
@[simp] theorem withPorts_watch (v : Vector PortState 3) (w : Vector Player 2) (s : State) (i : WatchNo) :
    (withPorts v w s).watch i = s.watch i := rfl

theorem withPorts_self {s : State} {w : Vector Player 2} (h : s.players = w) : s = withPorts s.ports w s := by
  subst h
  rfl

theorem eq_but_ports {s t u : State} {v v' : Vector PortState 3} {w : Vector Player 2} (ht : t = withPorts v w s)
    (hu : u = withPorts v' w s) : t = { u with ports := t.ports } := by
  subst ht hu
  rfl

theorem forEach_withPorts {ι : Type} (l : List ι) (f : ι → State → State) (v : Vector PortState 3) (w : Vector Player 2)
    (h : ∀ i s, f i (withPorts v w s) = withPorts v w (f i s)) (s : State) :
    forEach l f (withPorts v w s) = withPorts v w (forEach l f s) := by
  induction l generalizing s with
  | nil => rfl
  | cons i l ih => rw [forEach_cons, forEach_cons, h, ih]

theorem outputLevel_withPorts (ch : Channel) (v : Vector PortState 3) (w : Vector Player 2) (s : State) :
    outputLevel (withPorts v w s) ch = outputLevel s ch := rfl

theorem cleanHolds_withPorts (ch : Channel) (v : Vector PortState 3) (w : Vector Player 2) (s : State) :
    cleanHolds (withPorts v w s) ch = cleanHolds s ch := by
  unfold cleanHolds
  rw [outputLevel_withPorts]
  rfl

theorem cleanChannel_withPorts (ch : Channel) (v : Vector PortState 3) (w : Vector Player 2) (s : State) :
    cleanChannel ch (withPorts v w s) = withPorts v w (cleanChannel ch s) := by
  unfold cleanChannel
  rw [cleanHolds_withPorts]
  rfl

theorem syncChannel_withPorts (ch : Channel) (v : Vector PortState 3) (w : Vector Player 2) (s : State) :
    syncChannel ch (withPorts v w s) = withPorts v w (syncChannel ch s) := rfl

theorem changeStage_withPorts (st : StageName) (c : Cause) (v : Vector PortState 3) (w : Vector Player 2) (s : State) :
    changeStage st c (withPorts v w s) = withPorts v w (changeStage st c s) := by
  have hsync (u : State) : syncChannels (withPorts v w u) = withPorts v w (syncChannels u) :=
    forEach_withPorts _ _ v w (fun ch u => syncChannel_withPorts ch v w u) u
  have hlamp : (if endsLampTest s.output.stage st then (withPorts v w s).setLampTest none else withPorts v w s) =
      withPorts v w (if endsLampTest s.output.stage st then s.setLampTest none else s) :=
    (apply_ite (withPorts v w) _ (s.setLampTest none) s).symm
  have hpause (u : State) : (if st = .latched then (withPorts v w u).modOuts (pauseRetry s.now) else withPorts v w u) =
      withPorts v w (if st = .latched then u.modOuts (pauseRetry s.now) else u) :=
    (apply_ite (withPorts v w) _ (u.modOuts (pauseRetry s.now)) u).symm
  unfold changeStage
  dsimp only
  rw [show (withPorts v w s).output = s.output from rfl, show (withPorts v w s).now = s.now from rfl, hlamp, ← hsync]
  exact congrArg syncChannels
    (hpause ((if endsLampTest s.output.stage st then s.setLampTest none else s).modOutput fun o => o.enter st c s.now))

theorem offerAll_eq (n : Notice) (s : State) : offerAll n s = withPorts (tmap (offerTo n) s.ports) s.players s := by
  have hports : (offerAll n s).ports = tmap (offerTo n) s.ports := table_ext fun p => by
    rw [tget_tmap]
    exact offerAll_port n s p
  rw [← hports]
  rfl

theorem mayStart_withPorts (v : Vector PortState 3) (w : Vector Player 2) (s : State) :
    mayStart (withPorts v w s) = mayStart s := rfl

/-- The end of a taking, whatever the ports and players: every port is offered the STAGE notice of a start, and nothing
else reads them (R153, R156, R157). -/
theorem settle_withPorts (c : Cause) (v : Vector PortState 3) (w : Vector Player 2) (s : State) :
    settle c (withPorts v w s) =
      withPorts (if mayStart s then tmap (offerTo (.stage .softstart c)) v else v) w (settle c s) := by
  have hclean (x : Vector PortState 3) (u : State) :
      cleanChannels (withPorts x w u) = withPorts x w (cleanChannels u) :=
    forEach_withPorts _ _ x w (fun ch u => cleanChannel_withPorts ch x w u) u
  cases h : mayStart s with
  | false =>
    rw [settle_stays c h, settle_stays c ((mayStart_withPorts v w s).trans h)]
    exact hclean v { s with output := settledOutput s }
  | true =>
    rw [settle_starts c h, settle_starts c ((mayStart_withPorts v w s).trans h)]
    have hstage : enterStage .softstart c (withPorts v w { s with output := settledOutput s }) =
        withPorts (tmap (offerTo (.stage .softstart c)) v) w
          (enterStage .softstart c { s with output := settledOutput s }) := by
      unfold enterStage
      rw [changeStage_withPorts, offerAll_eq, offerAll_eq]
      rfl
    exact (congrArg cleanChannels hstage).trans (hclean _ _)

/-- What the end of a taking queues at a port is read from that port and from the stage. -/
theorem settle_port (c : Cause) (s : State) (q : Port) :
    (settle c s).port q = if mayStart s then offerTo (.stage .softstart c) (s.port q) else s.port q := by
  have h := settle_withPorts c s.ports s.players s
  have hself : withPorts s.ports s.players s = s := rfl
  rw [hself] at h
  rw [h]
  show tget _ q = _
  split
  · exact tget_tmap _ _ _
  · rfl

/-- A taking's frame, for what it leaves beside ports, players and watches. -/
theorem Kept.beside {s t u : State} {v : Vector PortState 3} {w : Vector Player 2} (h : Kept s t)
    (hu : u = Machine.withPorts v w t) : Kept { s with ports := u.ports, watches := u.watches } u := by
  subst hu
  exact { h with
    registers := fun _ => .refl _
    notices := fun _ => List.prefix_rfl
    watches := fun _ => Or.inl rfl }

/-! ### What is read of the watches and the players -/

/-- What is announced to a port is read from its queue, its watches, the winners and the stage. -/
theorem Announced.congr {q : Port} {ns : List Notice} {cs : ChannelSet} {s t s' t' : State} (h : Announced q ns cs s t)
    (hport : s'.port q = s.port q) (hwatches : watchesOf s' q .winner = watchesOf s q .winner)
    (hwinner : ∀ ch, (s'.entry ch).winner = (s.entry ch).winner) (hstage : s'.output.stage = s.output.stage)
    (hport' : t'.port q = t.port q) (hpool : t'.pool = t.pool) (hresolver : t'.resolver = t.resolver)
    (houtput : t'.output = t.output) : Announced q ns cs s' t' := by
  have hchanged : changedWinners cs s' t' = changedWinners cs s t :=
    changedWinners_congr cs hwinner fun ch => by simp only [State.entry, hresolver]
  have hshown (ch : Channel) : shownWinner t' ch = shownWinner t ch := by
    simp only [shownWinner, State.entry, hresolver, claimAt_congr hpool]
  have htold : winnersTold q cs s' t' = winnersTold q cs s t := by
    simp only [winnersTold, told, hwatches, hchanged, hshown]
  have hmove : stageTold s' t' = stageTold s t := by simp only [stageTold, hstage, houtput]
  unfold Announced
  rw [htold, hmove, hport, hport']
  exact h

theorem mem_of_brightest {f : Claim → Level} {l : List (Handle × Claim)} {e : Handle × Claim}
    (h : brightest f l = some e) : e ∈ l := by
  induction l generalizing e with
  | nil => cases h
  | cons x l ih =>
    unfold brightest at h
    cases hb : brightest f l with
    | none => simp_all
    | some y =>
      rw [hb] at h
      dsimp only at h
      split at h <;> cases h
      · exact List.mem_cons_of_mem _ (ih hb)
      · exact List.mem_cons_self

theorem brightest_congr {f g : Claim → Level} {l : List (Handle × Claim)} (h : ∀ e ∈ l, f e.2 = g e.2) :
    brightest f l = brightest g l := by
  induction l with
  | nil => rfl
  | cons e l ih =>
    simp only [brightest, ih fun x hx => h x (List.mem_cons_of_mem _ hx)]
    cases hb : brightest g l with
    | none => rfl
    | some x => simp only [h e List.mem_cons_self, h x (List.mem_cons_of_mem _ (mem_of_brightest hb))]

/-- A channel's winner and target level are read from the records, the lists and the levels of the ACTIVE claims listed. -/
theorem outcome_congr {s t : State} {ch : Channel} (hpool : t.pool = s.pool) (hentry : t.entry ch = s.entry ch)
    (hlevel : ∀ e ∈ activeEntries s ch, effectiveLevel t e.2 ch = effectiveLevel s e.2 ch) :
    chooseWinner t ch = chooseWinner s ch ∧
      targetLevelOf t ch (chooseWinner s ch) = targetLevelOf s ch (chooseWinner s ch) := by
  have hbright : brightest (fun c => effectiveLevel t c ch) (topClass (activeEntries s ch)) =
      brightest (fun c => effectiveLevel s c ch) (topClass (activeEntries s ch)) :=
    brightest_congr fun e he => hlevel e (List.mem_of_mem_filter he)
  constructor
  · simp only [chooseWinner, activeEntries_congr hpool (congrArg (·.list) hentry), hentry, hbright]
  · cases hw : chooseWinner s ch with
    | none => simp only [targetLevelOf, hentry]
    | some e => exact hlevel e (List.mem_of_mem_filter (chooseWinner_mem hw))

/-- A resolution stays redone where the players change under no ACTIVE claim listed on its channels. -/
theorem Redo.withPorts {f : Option Handle} {cs : ChannelSet} {s t : State} (h : Redo f cs s t) (v : Vector PortState 3)
    (w : Vector Player 2) (hlevel : ∀ ch, inSet cs ch = true → ∀ e ∈ activeEntries t ch,
      effectiveLevel (withPorts v w t) e.2 ch = effectiveLevel t e.2 ch) : Redo f cs s (withPorts v w t) := by
  have hout (ch : Channel) (hch : inSet cs ch = true) :=
    outcome_congr (s := t) (t := Machine.withPorts v w t) rfl rfl (hlevel ch hch)
  exact
    { resolved := fun ch hch => by
        obtain ⟨hwin, htarget⟩ := hout ch hch
        have hr := h.resolved ch hch
        exact ⟨by rw [hwin]; exact hr.winner, by rw [hwin, htarget]; exact hr.target, by rw [hwin]; exact hr.pattern⟩
      handed := fun ch hch => by
        have hwin := (hout ch hch).1
        have hhand : handedTo f s (Machine.withPorts v w t) ch = handedTo f s t ch := by
          unfold handedTo
          rw [hwin]
          rfl
        rw [hhand]
        exact h.handed ch hch
      winner := h.winner
      target := h.target
      pattern := h.pattern
      chan := h.chan
      stage := h.stage }

end Sys2Proof.Machine

namespace Sys2Proof.Machine

/-! ### The four steps of a port reset -/

/-- A port reset after its watches, its queue and its records: steps 1 and 2 (R196). -/
def portFreed (p : Port) (s : State) : State := freeRecords .portReset true (ownSlots p s) (resetNotices p s)

theorem mem_ownSlots {p : Port} {s : State} {x : Slot} :
    x ∈ ownSlots p s ↔ ∃ c, (s.record x).claim = some c ∧ c.owner = .port p := by
  simp only [ownSlots, mem_slotsWhere, ownedBy, beq_iff_eq]

theorem nodup_ownSlots (p : Port) (s : State) : (ownSlots p s).Nodup := nodup_slotsWhere s _

theorem freePlayers_player (p : Port) (s : State) (n : PlayerNo) :
    (freePlayers p s).player n = if (s.player n).holder = some p then Player.reset else s.player n := by
  have h := forEach_at (fun s n => s.player n)
    (fun n s => s.modPlayer n fun x => if x.holder = some p then Player.reset else x)
    (fun n s => if (s.player n).holder = some p then Player.reset else s.player n)
    (fun n s => State.player_modPlayer_self s n _) (fun m n s hne => by simp [State.player_modPlayer, hne])
    (fun m n s hne => by simp [State.player_modPlayer, hne]) (indexes 2) (nodup_indexes 2) s n
  exact h.trans (if_pos (mem_indexes n))

theorem freePlayers_eq (p : Port) (s : State) : freePlayers p s = withPorts s.ports (freePlayers p s).players s := rfl

@[simp] theorem freePlayers_port (p q : Port) (s : State) : (freePlayers p s).port q = s.port q := by
  rw [freePlayers_eq]
  rfl

/-- Steps 3 and 4 of a port reset (R196). -/
theorem resetPort_steps (p : Port) (s : State) :
    resetPort p s = (freePlayers p (portFreed p s)).modPort p clearRegisters := by
  unfold resetPort portFreed ownSlots
  rfl

/-- Steps 3 and 4 change ports and players alone. -/
theorem resetPort_eq (p : Port) (s : State) :
    resetPort p s = withPorts (resetPort p s).ports (resetPort p s).players (portFreed p s) := by
  rw [resetPort_steps]
  generalize portFreed p s = u
  rw [freePlayers_eq]
  rfl

theorem resetPort_player (p : Port) (s : State) (n : PlayerNo) :
    (resetPort p s).player n =
      if (s.player n).holder = some p then Player.reset
      else if freesPlayer s (ownSlots p s) n then toLoading true (s.player n) else s.player n := by
  have hfreed : (portFreed p s).player n =
      if freesPlayer s (ownSlots p s) n then toLoading true (s.player n) else s.player n :=
    freeRecords_player .portReset true _ (nodup_ownSlots p s) _ n
  have hholder : ((portFreed p s).player n).holder = (s.player n).holder := by
    rw [hfreed]
    split <;> rfl
  rw [← hfreed, ← hholder, ← freePlayers_player, resetPort_steps, State.modPort_player]

theorem resetPort_port_ne {p q : Port} (h : q ≠ p) (s : State) : (resetPort p s).port q = (portFreed p s).port q := by
  rw [resetPort_steps, State.port_modPort, if_neg h, freePlayers_port]

/-- The watch table without the entries of a port (R187). -/
def dropWatch (p : Port) (w : Option Watch) : Option Watch := w.filter fun e => decide (e.owner ≠ p)

theorem resetNotices_eq (p : Port) (s : State) : resetNotices p s =
    (s.modWatches (dropWatch p)).modPort p fun q => { q with queue := [], overflow := false, kindMask := 0 } := by
  unfold resetNotices
  congr 2
  funext w
  cases w with
  | none => rfl
  | some e => by_cases ho : e.owner = p <;> simp [ho, dropWatch, Option.filter]

theorem resetNotices_watch (p : Port) (s : State) (w : WatchNo) :
    (resetNotices p s).watch w = dropWatch p (s.watch w) := by
  rw [resetNotices_eq]
  exact State.watch_modWatches s w _

/-- The port reset keeps no entry of the watch table, and every other port keeps its own (R187). -/
theorem watchesOf_resetNotices (p q : Port) (s : State) (k : WatchKind) :
    watchesOf (resetNotices p s) q k = if q = p then [] else watchesOf s q k := by
  have hlist : (resetNotices p s).watches.toList = s.watches.toList.map (dropWatch p) := by
    rw [resetNotices_eq]
    rfl
  have hentry (w : Option Watch) : ownEntry q k (dropWatch p w) = if q = p then none else ownEntry q k w := by
    cases w with
    | none => simp [ownEntry, dropWatch]
    | some e =>
      by_cases ho : e.owner = p
      · have hdrop : dropWatch p (some e) = none := by simp [dropWatch, ho]
        rw [hdrop]
        split
        · rfl
        · next hq => simp [ownEntry, Option.filter, ho, Ne.symm hq]
      · have hdrop : dropWatch p (some e) = some e := by simp [dropWatch, ho]
        rw [hdrop]
        split
        · next hq => simp [ownEntry, Option.filter, hq, ho]
        · rfl
  rw [watchesOf_eq, watchesOf_eq, hlist, List.filterMap_map]
  split
  · next hq => exact List.filterMap_eq_nil_iff.mpr fun w _ => (hentry w).trans (if_pos hq)
  · next hq => exact List.filterMap_congr fun w _ => (hentry w).trans (if_neg hq)

theorem reached_no_watch {m : Nat} (l : List (Fin m)) : reached [] l = [] := by
  induction l with
  | nil => rfl
  | cons i l ih => exact ih

/-- The port reset, after steps 1 and 2: its queue is empty, and no notice of its own reset is in it (R187). -/
theorem portFreed_port (p : Port) (s : State) :
    ((portFreed p s).port p).queue = [] ∧ ((portFreed p s).port p).overflow = false ∧
      RegistersKept { s.port p with kindMask := 0 } ((portFreed p s).port p) := by
  have hcleared : (resetNotices p s).port p = { s.port p with queue := [], overflow := false, kindMask := 0 } :=
    State.port_modPort_self _ _ _
  have hregisters : RegistersKept ((resetNotices p s).port p) ((portFreed p s).port p) :=
    (freeRecords_kept .portReset true (ownSlots p s) (resetNotices p s)).registers p
  have hports (l : List Slot) (u : State) : (forEach l (freeRecord .portReset) u).port p = u.port p :=
    congrArg (fun v => tget v p) (forEach_keeps (fun s => s.ports) _ _ (fun i s => freeRecord_silent rfl rfl i s) u)
  have hwatches (l : List Slot) : watchesOf (forEach l (freeRecord .portReset) (resetNotices p s)) p .winner = [] := by
    rw [watchesOf_congr (forEach_keeps (fun s => s.watches) _ _ (fun i s => by simp) _), watchesOf_resetNotices, if_pos rfl]
  have hqueued : Queued [] ((resetNotices p s).port p) ((portFreed p s).port p) := by
    have h := (resolveSet_queued none (coveredBy (resetNotices p s) (ownSlots p s))
      (forEach (ownSlots p s) (freeRecord .portReset) (resetNotices p s)) p).1
    rw [hports, winnersTold, told, hwatches, reached_no_watch] at h
    exact h
  rw [hcleared] at hqueued hregisters
  exact ⟨hqueued.queue, hqueued.overflow, ⟨hregisters.args, hregisters.selChannel, hregisters.selSlot,
    hregisters.selList, hregisters.selScene, hregisters.selPlayer, hregisters.frameError, hregisters.kindMask,
    hregisters.reply⟩⟩

/-- The port reset, after its four steps (R187, R196, R198). -/
theorem resetPort_port_self (p : Port) (s : State) :
    (resetPort p s).port p =
      { PortState.reset with frameError := (s.port p).frameError, reply := (s.port p).reply } := by
  obtain ⟨hqueue, hoverflow, hkept⟩ := portFreed_port p s
  have hclear : (resetPort p s).port p = clearRegisters ((portFreed p s).port p) := by
    rw [resetPort_steps, State.port_modPort_self, freePlayers_port]
  rw [hclear]
  simp only [clearRegisters, PortState.reset, hqueue, hoverflow, hkept.frameError, hkept.kindMask, hkept.reply]

/-! ### The state after a port reset -/

/-- A port reset before its answer is, but for ports and players, the taking that frees the port's records. -/
theorem settle_resetPort (p : Port) (s : State) :
    settle .demand (resetPort p s) =
      withPorts (settle .demand (resetPort p s)).ports (resetPort p s).players (settle .demand (portFreed p s)) := by
  rw [resetPort_eq, settle_withPorts, withPorts_ports, withPorts_players]

theorem settle_resetPort_port_ne {p q : Port} (h : q ≠ p) (s : State) :
    (settle .demand (resetPort p s)).port q = (settle .demand (portFreed p s)).port q := by
  have hstart : mayStart (resetPort p s) = mayStart (portFreed p s) := by
    rw [resetPort_eq, mayStart_withPorts]
  rw [settle_port, settle_port, hstart, resetPort_port_ne h]

theorem portResetTaken_answer (p : Port) (s : State) :
    portResetTaken p s = acceptedState p none (ownSlots p s).length (settle .demand (resetPort p s)) := rfl

theorem acceptedState_withPorts {u b : State} {v : Vector PortState 3} {w : Vector Player 2} (h : u = withPorts v w b)
    (p : Port) (hd : Option Handle) (x : Nat) :
    acceptedState p hd x u = withPorts (acceptedState p hd x u).ports w b := by
  subst h
  rfl

theorem portResetTaken_eq (p : Port) (s : State) :
    portResetTaken p s =
      withPorts (portResetTaken p s).ports (resetPort p s).players (settle .demand (portFreed p s)) :=
  acceptedState_withPorts (settle_resetPort p s) p none (ownSlots p s).length

/-- A port reset frees the records the port owns (R27). -/
theorem portFreed_freed (p : Port) {s : State} (hs : ListsInv s) :
    Freed (ownSlots p s) (resetNotices p s) (settle .demand (portFreed p s)) :=
  freeRecords_freed .portReset (ownSlots p s) (nodup_ownSlots p s) (s := resetNotices p s)
    (fun ch => (hs ch).congr rfl (fun _ => Iff.rfl) fun _ _ => rfl) .demand

/-- Every claim left by a port reset is owned by another (R27). -/
theorem portFreed_claim {p : Port} {s : State} {x : Slot} {c : Claim} (h : ((portFreed p s).record x).claim = some c) :
    (s.record x).claim = some c ∧ c.owner ≠ .port p := by
  have hbefore : (s.record x).claim = some c := freeRecords_claim (s := resetNotices p s) h
  refine ⟨hbefore, fun howner => ?_⟩
  have hrecord : (portFreed p s).record x =
      if x ∈ ownSlots p s ∧ (s.record x).claim ≠ none then { gen := (s.record x).gen + 1, claim := none }
      else s.record x :=
    freeRecords_record .portReset true (ownSlots p s) (nodup_ownSlots p s) (resetNotices p s) x
  rw [if_pos ⟨mem_ownSlots.mpr ⟨c, hbefore, howner⟩, by simp [hbefore]⟩] at hrecord
  rw [hrecord] at h
  cases h

/-- Resolution is redone on the channels of the records freed, where no other owner's claim draws from the port's
players (R27, R196). -/
theorem resetPort_redone (p : Port) (s : State)
    (hplayers : ∀ n x c, (s.player n).holder = some p → (s.record x).claim = some c → c.source = .player n →
      c.owner = .port p) : RedoneBy none (coveredBy s (ownSlots p s)) s (settle .demand (resetPort p s)) := by
  have hredo : Redo none (coveredBy s (ownSlots p s)) (resetNotices p s) (portFreed p s) :=
    freeRecords_redo .portReset true (ownSlots p s) (resetNotices p s)
  have hlevel (ch : Channel) (e : Handle × Claim) (he : e ∈ activeEntries (portFreed p s) ch) :
      effectiveLevel (resetPort p s) e.2 ch = effectiveLevel (portFreed p s) e.2 ch := by
    obtain ⟨_, hclaim, _⟩ := mem_activeEntries.mp he
    obtain ⟨hplaced, howner⟩ := portFreed_claim (claimAt_some.mp hclaim).2
    unfold effectiveLevel
    cases hsource : e.2.source with
    | fixed v => rfl
    | scene n =>
      dsimp only
      rw [resetPort_eq, withPorts_scene]
    | player n =>
      have hheld : (s.player n).holder ≠ some p := fun hh => howner (hplayers n _ _ hh hplaced hsource)
      have hfreed : (portFreed p s).player n =
          if freesPlayer s (ownSlots p s) n then toLoading true (s.player n) else s.player n :=
        freeRecords_player .portReset true _ (nodup_ownSlots p s) _ n
      dsimp only
      rw [resetPort_player, if_neg hheld, hfreed]
  have hplayed : Redo none (coveredBy s (ownSlots p s)) (resetNotices p s) (resetPort p s) := by
    rw [resetPort_eq]
    refine hredo.withPorts _ _ fun ch _ e he => ?_
    rw [← resetPort_eq]
    exact hlevel ch e he
  have hbefore : Redo none (coveredBy s (ownSlots p s)) s (resetPort p s) :=
    { hplayed with handed := hplayed.handed }
  exact hbefore.settle .demand

/-! ### The ports after a port reset -/

theorem offerTo_room {q : PortState} (hq : q.queue.length < queueLimit) (hm : q.kindMask = 0) (n : Notice) :
    offerTo n q = { q with queue := q.queue ++ [n] } := by
  simp [offerTo, hm, hq]

/-- A port with room and no kind disabled holds, after a taking's end, the notice of the stage's move too. -/
theorem settle_port_room {s : State} {q : Port} (hq : (s.port q).queue.length < queueLimit)
    (hm : (s.port q).kindMask = 0) (c : Cause) :
    (settle c s).port q = { s.port q with queue := (s.port q).queue ++ stageTold s (settle c s) } := by
  have htold : (s.port q).queue ++ stageTold s (settle c s) = ((settle c s).port q).queue := by
    rw [(settle_queued c s q).queue]
    unfold stageTold
    split
    · exact List.append_nil _
    · exact (congrArg PortState.queue (offerTo_room hq hm _)).symm
  rw [htold, settle_port]
  split
  · rw [offerTo_room hq hm]
  · rfl

theorem portFreed_output (p : Port) (s : State) : (portFreed p s).output = s.output := freeRecords_output _ _ _ _

theorem portFreed_now (p : Port) (s : State) : (portFreed p s).now = s.now := freeRecords_now _ _ _ _

theorem stageTold_congr {s t s' t' : State} (hs : s'.output = s.output) (ht : t'.output = t.output) :
    stageTold s' t' = stageTold s t := by simp only [stageTold, hs, ht]

theorem resetPort_output (p : Port) (s : State) : (resetPort p s).output = s.output := by
  rw [resetPort_eq, withPorts_output, portFreed_output]

/-- The port reset, after its command: reset values, its answer, and the notice of the stage's move (R187, R196, R198). -/
theorem portResetTaken_port_self (p : Port) (s : State) :
    (portResetTaken p s).port p =
      { PortState.reset with
        frameError := (s.port p).frameError, reply := (s.port p).reply, queue := stageTold s (portResetTaken p s),
        extra := BitVec.ofNat 16 (ownSlots p s).length, accepted := 1 } := by
  have hport := resetPort_port_self p s
  have hsettled := settle_port_room (s := resetPort p s) (q := p) (by rw [hport]; exact Nat.zero_lt_succ _) (by rw [hport]; rfl) .demand
  have htold : stageTold s (portResetTaken p s) = stageTold (resetPort p s) (settle .demand (resetPort p s)) :=
    stageTold_congr (resetPort_output p s).symm (by rw [portResetTaken_answer, acceptedState_output])
  rw [htold, portResetTaken_answer, acceptedState_port, if_pos rfl, hsettled, hport]
  rfl

theorem portResetTaken_port_ne {p q : Port} (h : q ≠ p) (s : State) :
    (portResetTaken p s).port q = (settle .demand (portFreed p s)).port q := by
  rw [portResetTaken_answer, acceptedState_port, if_neg h, settle_resetPort_port_ne h]

theorem settle_resetPort_port {p q : Port} (h : q ≠ p) (s : State) :
    (settle .demand (resetPort p s)).port q = (portResetTaken p s).port q := by
  rw [portResetTaken_port_ne h, settle_resetPort_port_ne h]

theorem resetNotices_port_ne {p q : Port} (h : q ≠ p) (s : State) : (resetNotices p s).port q = s.port q :=
  (State.port_modPort _ _ _ _).trans (if_neg h)

/-- The other ports receive the WINNER notices of the freeings and the stage's move (R6, R196). -/
theorem portResetTaken_announced {p q : Port} (h : q ≠ p) (s : State) :
    Announced q [] (coveredBy s (ownSlots p s)) s (portResetTaken p s) := by
  have hfreed : Announced q [] (coveredBy s (ownSlots p s)) (resetNotices p s) (settle .demand (portFreed p s)) :=
    freeRecords_announced_silent rfl rfl (ownSlots p s) (resetNotices p s) .demand q
  have ht := portResetTaken_eq p s
  refine hfreed.congr (resetNotices_port_ne h s).symm ?_ (fun _ => rfl) rfl (portResetTaken_port_ne h s)
    (by rw [ht, withPorts_pool]) (by rw [ht, withPorts_resolver]) (by rw [ht, withPorts_output])
  rw [watchesOf_resetNotices, if_neg h]

/-- The other ports keep their registers and results. -/
theorem portResetTaken_kept {p q : Port} (h : q ≠ p) (s : State) :
    ResultsKept (s.port q) ((portResetTaken p s).port q) ∧ RegistersKept (s.port q) ((portResetTaken p s).port q) := by
  have hkept := (freeRecords_kept .portReset true (ownSlots p s) (resetNotices p s)).trans (settle_kept .demand _)
  have hresults := freeRecords_settle_results .portReset (ownSlots p s) (resetNotices p s) .demand
  rw [portResetTaken_port_ne h, ← resetNotices_port_ne h s]
  exact ⟨hresults q, hkept.registers q⟩

/-- The watches after a port reset: its own gone, and of the others those that match the WINNER events (R179, R187). -/
theorem portResetTaken_watch (p : Port) (s : State) (w : WatchNo) :
    (portResetTaken p s).watch w =
      spentBy .winner (changedWinners (coveredBy s (ownSlots p s)) s (portResetTaken p s)) (dropWatch p (s.watch w)) := by
  have hspent : WinnersSpend (coveredBy s (ownSlots p s)) (resetNotices p s) (settle .demand (portFreed p s)) :=
    freeRecords_spends .portReset (ownSlots p s) (resetNotices p s) .demand
  have ht := portResetTaken_eq p s
  have hentry (ch : Channel) : (portResetTaken p s).entry ch = (settle .demand (portFreed p s)).entry ch := by
    rw [ht, withPorts_entry]
  have hchanged : changedWinners (coveredBy s (ownSlots p s)) s (portResetTaken p s) =
      changedWinners (coveredBy s (ownSlots p s)) (resetNotices p s) (settle .demand (portFreed p s)) :=
    changedWinners_congr _ (fun _ => rfl) fun ch => by rw [hentry]
  rw [hchanged, ← resetNotices_watch, ← hspent w, ht, withPorts_watch]

/-- What a port reset leaves beside ports, players and watches. -/
theorem portResetTaken_frame (p : Port) (s : State) :
    Kept { s with ports := (portResetTaken p s).ports, watches := (portResetTaken p s).watches } (portResetTaken p s) := by
  have h := (freeRecords_kept .portReset true (ownSlots p s) (resetNotices p s)).trans (settle_kept .demand _)
  exact h.beside (portResetTaken_eq p s)

theorem portResetTaken_player (p : Port) (s : State) (n : PlayerNo) :
    (portResetTaken p s).player n =
      if (s.player n).holder = some p then Player.reset
      else if freesPlayer s (ownSlots p s) n then toLoading true (s.player n) else s.player n := by
  rw [portResetTaken_answer, acceptedState_player, settle_player, resetPort_player]

theorem portResetTaken_lines (p : Port) (s : State) : (portResetTaken p s).lines = s.lines := by
  rw [portResetTaken_eq, withPorts_lines, settle_lines, portFreed, freeRecords_lines, resetNotices_lines]

theorem portResetTaken_follows (p : Port) (s : State) : StageFollows s (portResetTaken p s) := by
  have hnow : (resetPort p s).now = s.now := by rw [resetPort_eq, withPorts_now, portFreed_now]
  rw [portResetTaken_answer]
  exact (settle_follows (resetPort_output p s) hnow).accepted p none _

/-! ### Counts after a port reset -/

theorem own_length (p : Port) (s : State) : (ownSlots p s).length = recordsWhere s (ownedBy p) := rfl

/-- Every record freed was held by the port reset. -/
theorem ownSlots_filter_self (p : Port) (s : State) : (ownSlots p s).filter (slotPasses s (ownedBy p)) = ownSlots p s :=
  List.filter_eq_self.mpr fun x hx => by
    obtain ⟨c, hc, ho⟩ := mem_ownSlots.mp hx
    simp [slotPasses, hc, ownedBy, ho]

/-- No record freed was held by another port. -/
theorem ownSlots_filter_ne {p q : Port} (h : q ≠ p) (s : State) :
    (ownSlots p s).filter (slotPasses s (ownedBy q)) = [] :=
  List.filter_eq_nil_iff.mpr fun x hx => by
    obtain ⟨c, hc, ho⟩ := mem_ownSlots.mp hx
    simp [slotPasses, hc, ownedBy, ho, Ne.symm h]

/-- The rights after a port reset: its held count falls by the records freed (R6, R196). -/
theorem portResetTaken_held (p q : Port) {s : State} (hs : ListsInv s) :
    ((portResetTaken p s).right q).held = (s.right q).held - if q = p then (ownSlots p s).length else 0 := by
  have hheld : ((settle .demand (portFreed p s)).right q).held =
      (s.right q).held - ((ownSlots p s).filter (slotPasses s (ownedBy q))).length := (portFreed_freed p hs).held q
  rw [portResetTaken_eq, withPorts_right, hheld]
  split
  · next h =>
    subst h
    rw [ownSlots_filter_self]
  · next h =>
    rw [ownSlots_filter_ne h]
    rfl

end Sys2Proof.Machine

namespace Sys2Proof.Machine

/-! ### PORT_CLEAR -/

/-- The target of a PORT_CLEAR before the end of the taking: the four steps of a port reset, and CLEARED (R197). -/
def portCleared (q : Port) (s : State) : State := offer q (.access q .cleared) (resetPort q s)

theorem portCleared_eq (q : Port) (s : State) :
    portCleared q s = withPorts (portCleared q s).ports (resetPort q s).players (resetPort q s) := rfl

theorem settle_portCleared (q : Port) (s : State) :
    settle .demand (portCleared q s) =
      withPorts (settle .demand (portCleared q s)).ports (resetPort q s).players (settle .demand (resetPort q s)) := by
  rw [portCleared_eq, settle_withPorts, withPorts_ports]

theorem settle_portCleared_port_ne {q r : Port} (h : r ≠ q) (s : State) :
    (settle .demand (portCleared q s)).port r = (settle .demand (resetPort q s)).port r := by
  have hstart : mayStart (portCleared q s) = mayStart (resetPort q s) := rfl
  have hport : (portCleared q s).port r = (resetPort q s).port r := (port_offer _ _ _ _).trans (if_neg h)
  rw [settle_port, settle_port, hstart, hport]

/-- The target of a PORT_CLEAR before the issuer's answer (R197). -/
theorem settle_portCleared_port_self (q : Port) (s : State) :
    (settle .demand (portCleared q s)).port q =
      { PortState.reset with
        frameError := (s.port q).frameError, reply := (s.port q).reply,
        queue := .access q .cleared :: stageTold s (portResetTaken q s) } := by
  have hport : (portCleared q s).port q =
      { PortState.reset with
        frameError := (s.port q).frameError, reply := (s.port q).reply, queue := [.access q .cleared] } := by
    unfold portCleared
    rw [port_offer, if_pos rfl, resetPort_port_self]
    refine offerTo_room ?_ rfl _
    exact Nat.zero_lt_succ _
  have hsettled := settle_port_room (s := portCleared q s) (q := q) (by rw [hport]; exact Nat.lt_of_sub_eq_succ rfl)
    (by rw [hport]; rfl) .demand
  have htold : stageTold s (portResetTaken q s) = stageTold (portCleared q s) (settle .demand (portCleared q s)) := by
    refine stageTold_congr (resetPort_output q s).symm ?_
    rw [portResetTaken_answer, acceptedState_output, settle_portCleared, withPorts_output]
  rw [hsettled, ← htold, hport]
  rfl

/-- PORT_CLEAR, carried out (R197). -/
theorem portClearTaken_done {p q : Port} {s : State} (h : Taken p .maintenance s) (hq : argNat s p 0 = q.val) :
    portClearTaken p s = acceptedState p none (ownSlots q s).length (settle .demand (portCleared q s)) := by
  have harg : argPort s p = some q := inRange_eq_some.mpr hq
  refine takeCommand_done h ?_
  simp only [portClearBody, harg, portCleared]

/-- The target after a PORT_CLEAR, with the answer where it is the issuer too (R197). -/
theorem portClearTaken_port_self {p q : Port} {s : State} (h : Taken p .maintenance s) (hq : argNat s p 0 = q.val) :
    (portClearTaken p s).port q =
      { PortState.reset with
        frameError := (s.port q).frameError, reply := (s.port q).reply,
        queue := .access q .cleared :: ((portResetTaken q s).port q).queue,
        extra := if q = p then BitVec.ofNat 16 (ownSlots q s).length else 0,
        accepted := if q = p then 1 else 0 } := by
  rw [portClearTaken_done h hq, acceptedState_port, portResetTaken_port_self]
  split
  · next hp =>
    subst hp
    rw [settle_portCleared_port_self]
    rfl
  · rw [settle_portCleared_port_self]
    rfl

/-- The other ports after a PORT_CLEAR, but for the issuer's answer (R197). -/
theorem portClearTaken_port_ne {p q r : Port} {s : State} (h : Taken p .maintenance s) (hq : argNat s p 0 = q.val)
    (hr : r ≠ q) :
    (portClearTaken p s).port r =
      if r = p then { (portResetTaken q s).port p with
        status := .ok, handle := none, extra := BitVec.ofNat 16 (ownSlots q s).length,
        accepted := stepAccepted (s.port p).accepted }
      else (portResetTaken q s).port r := by
  rw [portClearTaken_done h hq, acceptedState_port]
  split
  · next hp =>
    subst hp
    have hkept := (portResetTaken_kept hr s).1.accepted
    rw [settle_portCleared_port_ne hr, settle_resetPort_port hr, hkept]
  · rw [settle_portCleared_port_ne hr, settle_resetPort_port hr]

/-- A PORT_CLEAR is, but for the ports, a port reset of its target (R197). -/
theorem portClearTaken_eq {p q : Port} {s : State} (h : Taken p .maintenance s) (hq : argNat s p 0 = q.val) :
    portClearTaken p s = { portResetTaken q s with ports := (portClearTaken p s).ports } := by
  have hclear : portClearTaken p s =
      withPorts (portClearTaken p s).ports (resetPort q s).players (settle .demand (resetPort q s)) := by
    rw [portClearTaken_done h hq]
    exact acceptedState_withPorts (settle_portCleared q s) p none _
  have hreset : portResetTaken q s =
      withPorts (portResetTaken q s).ports (resetPort q s).players (settle .demand (resetPort q s)) :=
    acceptedState_withPorts (withPorts_self (settle_players .demand (resetPort q s))) q none (ownSlots q s).length
  exact eq_but_ports hclear hreset

/-! ### PORT_RESET and PORT_CLEAR -/

/-- Settles O51: a port reset is the freeing of the port's records but for ports and players, which the end of the taking
does not read; PORT_CLEAR differs from it in ports alone. -/
theorem portResetAndPortClear : Obligations.PortResetAndPortClear := by
  unfold Obligations.PortResetAndPortClear
  refine ⟨fun p s hs => ?_, fun p s htaken => ⟨fun hq => ?_, fun q hq => ?_⟩⟩
  · have hport := portResetTaken_port_self p s
    have hfreed := portFreed_freed p hs
    have hkept := portResetTaken_frame p s
    have hcleared (i : Fin 8) : arg (portResetTaken p s) p i = 0 := by
      unfold arg
      rw [hport]
      exact tget_replicate _ i
    have hheld := portResetTaken_held p p hs
    rw [if_pos rfl] at hheld
    refine ⟨portResetTaken p s, ownSlots p s, rfl, pairwise_slotsWhere s _, fun x => mem_ownSlots, fun x => ?record,
      fun ch => ?list, fun hplayers => (resetPort_redone p s hplayers).accepted p none _, hkept,
      fun n hn => (portResetTaken_player p s n).trans (if_pos hn),
      fun n hn => (portResetTaken_player p s n).trans (if_neg hn), fun w hw => ?noWatch, fun w e hw ho => ?ownWatch,
      fun w e hw ho => ?otherWatch, fun q hq => portResetTaken_kept hq s, fun q hq => portResetTaken_announced hq s,
      hcleared, by rw [hport]; rfl, by rw [hport]; rfl, by rw [hport]; rfl, by rw [hport]; rfl, by rw [hport]; rfl,
      by rw [hport]; rfl, by rw [hport], by rw [hport]; rfl, by rw [hport]; rfl, by rw [hport], by rw [hport]; rfl,
      by rw [hport]; rfl, by rw [hport], by rw [hport], by rw [hport],
      fun q => ⟨hkept.ceiling q, hkept.sceneEdit q, hkept.quota q⟩, hkept.maintenance, fun q hq => ?held, hheld,
      fun hcounts => ?none, fun n => ?scene, portResetTaken_lines p s, portResetTaken_follows p s⟩
    case record =>
      rw [portResetTaken_eq, withPorts_record]
      exact hfreed.record x
    case list =>
      rw [portResetTaken_eq, withPorts_entry]
      exact hfreed.lists ch
    case noWatch =>
      rw [portResetTaken_watch, hw]
      rfl
    case ownWatch =>
      have hdrop : dropWatch p (some e) = none := by simp [dropWatch, ho]
      rw [portResetTaken_watch, hw, hdrop]
      rfl
    case otherWatch =>
      have hdrop : dropWatch p (some e) = some e := by simp [dropWatch, ho]
      rw [portResetTaken_watch, hw, hdrop]
    case held =>
      rw [portResetTaken_held p q hs, if_neg hq]
      rfl
    case none =>
      rw [hheld, hcounts.held, own_length]
      exact Nat.sub_self _
    case scene =>
      rw [portResetTaken_eq, withPorts_scene]
      exact ⟨hfreed.levels n, hfreed.inUse n⟩
  · have hnone : argPort s p = none := inRange_eq_none.mpr (by omega)
    have hbody : portClearBody p s = refuse .badArgument 0 s := by simp only [portClearBody, hnone]
    exact congrArg Host.Outcome.next (takeCommand_refused htaken hbody (by decide))

  · have hport := portClearTaken_port_self htaken hq
    have hcleared (i : Fin 8) : arg (portClearTaken p s) q i = 0 := by
      unfold arg
      rw [hport]
      exact tget_replicate _ i
    refine ⟨portClearTaken p s, portResetTaken q s, ownSlots q s, rfl, rfl, fun x => mem_ownSlots, nodup_ownSlots q s,
      portClearTaken_eq htaken hq, fun r hp hr => (portClearTaken_port_ne htaken hq hr).trans (if_neg hp), fun hne => ?issuer,
      hcleared, by rw [hport]; rfl, by rw [hport]; rfl, by rw [hport]; rfl, by rw [hport]; rfl, by rw [hport]; rfl,
      by rw [hport], by rw [hport]; rfl, by rw [hport]; rfl, by rw [hport]; rfl, by rw [hport], by rw [hport]; rfl,
      by rw [hport]; rfl, by rw [hport], fun hne => ?target, fun he => ?both⟩
    case issuer =>
      have hissuer := (portClearTaken_port_ne htaken hq (Ne.symm hne)).trans (if_pos rfl)
      rw [hissuer]
      exact ⟨rfl, rfl, ⟨rfl, rfl, rfl, rfl, rfl, rfl, rfl, rfl, rfl⟩⟩
    case target =>
      have hissuer := (portClearTaken_port_ne htaken hq (Ne.symm hne)).trans (if_pos rfl)
      have hrefused := (portResetTaken_kept (Ne.symm hne) s).1.refused
      rw [hport]
      exact ⟨if_neg hne, if_neg hne, ⟨by rw [hissuer], by rw [hissuer], by rw [hissuer], by rw [hissuer],
        by rw [hissuer]; exact hrefused⟩⟩
    case both =>
      subst he
      rw [hport]
      exact ⟨if_pos rfl, if_pos rfl⟩

end Sys2Proof.Machine

namespace Sys2Proof.Machine

/-! ## ENABLE going low -/

/-! ### Freeings without events (R26) -/

/-- A resolution without events leaves queues and watches (R26). -/
theorem resolveSet_quiet (f : Option Handle) (cs : ChannelSet) (s : State) :
    (resolveSet f false cs s).ports = s.ports ∧ (resolveSet f false cs s).watches = s.watches :=
  ⟨forEach_keeps (fun s => s.ports) _ _ (fun ch s => by simp [resolveChannel]) s,
    forEach_keeps (fun s => s.watches) _ _ (fun ch s => by simp [resolveChannel]) s⟩

/-- The freeings of ENABLE low queue no notice and spend no watch (R26). -/
theorem freeRecords_quiet {x : FreeCause} (hr : x.reason = none) (hd : x.playerDetail = none) (l : List Slot) (s : State) :
    (freeRecords x false l s).ports = s.ports ∧ (freeRecords x false l s).watches = s.watches := by
  obtain ⟨hports, hwatches⟩ := resolveSet_quiet none (coveredBy s l) (forEach l (freeRecord x) s)
  exact ⟨hports.trans (forEach_keeps (fun s => s.ports) _ _ (fun i s => freeRecord_silent hr hd i s) s),
    hwatches.trans (forEach_keeps (fun s => s.watches) _ _ (fun i s => by simp) s)⟩

/-! ### The output stage at ENABLE low (R154) -/

/-- The stage change in the entry of OFF, on a state whose lamp test has ended. -/
def stageOff (s : State) : State := changeStage .off .enableLow (s.setLampTest none)

theorem outputOff_eq (s : State) :
    outputOff s = ((stageOff s).modOutput fun o => { o with recovery := 0, demand := false }).modOuts outOff := rfl

/-- Equality of states is equality of their fields. -/
theorem state_eq {s t : State} (now : s.now = t.now) (draws : s.draws = t.draws) (pending : s.pending = t.pending)
    (lts : s.lts = t.lts) (address0 : s.address0 = t.address0) (address1 : s.address1 = t.address1)
    (ports : s.ports = t.ports) (access : s.access = t.access) (pool : s.pool = t.pool)
    (resolver : s.resolver = t.resolver) (scenes : s.scenes = t.scenes) (players : s.players = t.players)
    (lines : s.lines = t.lines) (modulator : s.modulator = t.modulator) (clocks : s.clocks = t.clocks)
    (derateCeiling : s.derateCeiling = t.derateCeiling) (lampTest : s.lampTest = t.lampTest)
    (output : s.output = t.output) (outs : s.outs = t.outs) (watches : s.watches = t.watches) : s = t := by
  cases s
  cases t
  simp_all

theorem outputOff_output (s : State) : (outputOff s).output =
    { s.output.idle with stage := .off, lastCause := .enableLow, recovery := 0, demand := false } := by
  have h : (stageOff s).output = (s.setLampTest none).output.enter .off .enableLow s.now := changeStage_output _ _ _
  have ho : (outputOff s).output = { (stageOff s).output with recovery := 0, demand := false } := by
    rw [outputOff_eq]
    rfl
  rw [ho, h]
  rfl

theorem outputOff_lampTest (s : State) : (outputOff s).lampTest = none := by
  have h : (stageOff s).lampTest = if endsLampTest s.output.stage .off then none else none := changeStage_lampTest _ _ _
  rw [outputOff_eq, State.modOuts_lampTest, State.modOutput_lampTest, h, ite_self]

theorem outputOff_out (s : State) (ch : Channel) : (outputOff s).out ch = outOff (s.out ch) := by
  have h : (stageOff s).out ch = s.out ch := changeStage_out .off .enableLow (s.setLampTest none) ch
  rw [outputOff_eq, State.out_modOuts, State.modOutput_out, h]

/-- Every channel is closed (R131, R134). -/
theorem outputOff_chan (s : State) (ch : Channel) : (outputOff s).chan ch = { s.chan ch with fade := .parked } := by
  have hclosed : isOpen (stageOff s) ch = false := by
    unfold stageOff
    simp [isOpen, changeStage_output, OutputStage.enter]
  have h : (stageOff s).chan ch = openOrClose (isOpen (stageOff s) ch) s.now (s.chan ch) := changeStage_chan _ _ _ ch
  rw [outputOff_eq, State.modOuts_chan, State.modOutput_chan, h, hclosed]
  rfl

@[simp] theorem outputOff_now (s : State) : (outputOff s).now = s.now := by
  rw [outputOff_eq, State.modOuts_now, State.modOutput_now, stageOff, changeStage_now, State.setLampTest_now]
@[simp] theorem outputOff_draws (s : State) : (outputOff s).draws = s.draws := by
  rw [outputOff_eq, State.modOuts_draws, State.modOutput_draws, stageOff, changeStage_draws, State.setLampTest_draws]
@[simp] theorem outputOff_pending (s : State) : (outputOff s).pending = s.pending := by
  rw [outputOff_eq, State.modOuts_pending, State.modOutput_pending, stageOff, changeStage_pending, State.setLampTest_pending]
@[simp] theorem outputOff_lts (s : State) : (outputOff s).lts = s.lts := by
  rw [outputOff_eq, State.modOuts_lts, State.modOutput_lts, stageOff, changeStage_lts, State.setLampTest_lts]
@[simp] theorem outputOff_address0 (s : State) : (outputOff s).address0 = s.address0 := by
  rw [outputOff_eq, State.modOuts_address0, State.modOutput_address0, stageOff, changeStage_address0, State.setLampTest_address0]
@[simp] theorem outputOff_address1 (s : State) : (outputOff s).address1 = s.address1 := by
  rw [outputOff_eq, State.modOuts_address1, State.modOutput_address1, stageOff, changeStage_address1, State.setLampTest_address1]
@[simp] theorem outputOff_ports (s : State) : (outputOff s).ports = s.ports := by
  rw [outputOff_eq, State.modOuts_ports, State.modOutput_ports, stageOff, changeStage_ports, State.setLampTest_ports]
@[simp] theorem outputOff_access (s : State) : (outputOff s).access = s.access := by
  rw [outputOff_eq, State.modOuts_access, State.modOutput_access, stageOff, changeStage_access, State.setLampTest_access]
@[simp] theorem outputOff_pool (s : State) : (outputOff s).pool = s.pool := by
  rw [outputOff_eq, State.modOuts_pool, State.modOutput_pool, stageOff, changeStage_pool, State.setLampTest_pool]
@[simp] theorem outputOff_resolver (s : State) : (outputOff s).resolver = s.resolver := by
  rw [outputOff_eq, State.modOuts_resolver, State.modOutput_resolver, stageOff, changeStage_resolver, State.setLampTest_resolver]
@[simp] theorem outputOff_scenes (s : State) : (outputOff s).scenes = s.scenes := by
  rw [outputOff_eq, State.modOuts_scenes, State.modOutput_scenes, stageOff, changeStage_scenes, State.setLampTest_scenes]
@[simp] theorem outputOff_players (s : State) : (outputOff s).players = s.players := by
  rw [outputOff_eq, State.modOuts_players, State.modOutput_players, stageOff, changeStage_players, State.setLampTest_players]
@[simp] theorem outputOff_lines (s : State) : (outputOff s).lines = s.lines := by
  rw [outputOff_eq, State.modOuts_lines, State.modOutput_lines, stageOff, changeStage_lines, State.setLampTest_lines]
@[simp] theorem outputOff_clocks (s : State) : (outputOff s).clocks = s.clocks := by
  rw [outputOff_eq, State.modOuts_clocks, State.modOutput_clocks, stageOff, changeStage_clocks, State.setLampTest_clocks]
@[simp] theorem outputOff_derateCeiling (s : State) : (outputOff s).derateCeiling = s.derateCeiling := by
  rw [outputOff_eq, State.modOuts_derateCeiling, State.modOutput_derateCeiling, stageOff, changeStage_derateCeiling, State.setLampTest_derateCeiling]
@[simp] theorem outputOff_watches (s : State) : (outputOff s).watches = s.watches := by
  rw [outputOff_eq, State.modOuts_watches, State.modOutput_watches, stageOff, changeStage_watches, State.setLampTest_watches]

@[simp] theorem outputOff_record (s : State) (x : Slot) : (outputOff s).record x = s.record x := by
  simp only [State.record, outputOff_pool]

@[simp] theorem outputOff_entry (s : State) (ch : Channel) : (outputOff s).entry ch = s.entry ch := by
  simp only [State.entry, outputOff_resolver]

/-! ### The blocks at ENABLE low -/

/-- What ENABLE low makes of the players, the lines, the clocks and the ports once the records are free (R108, R123,
R137, R187). -/
def heldOff (s : State) : State :=
  { s with
    players := tmap playerOff s.players, lines := tmap lineOff s.lines, clocks := tmap clockOff s.clocks,
    ports := tmap (fun q => offerTo (.stage .off .enableLow) (portOff q)) s.ports }

theorem heldOff_player (s : State) (n : PlayerNo) : (heldOff s).player n = playerOff (s.player n) := tget_tmap _ _ n

theorem heldOff_line (s : State) (l : Line) : (heldOff s).line l = lineOff (s.line l) := tget_tmap _ _ l

theorem heldOff_clock (s : State) (k : ClockNo) : (heldOff s).clock k = clockOff (s.clock k) := tget_tmap _ _ k

theorem heldOff_port (s : State) (p : Port) :
    (heldOff s).port p = offerTo (.stage .off .enableLow) (portOff (s.port p)) := tget_tmap _ _ p

theorem tmap_tmap {α : Type} {n : Nat} (f g : α → α) (v : Vector α n) : tmap f (tmap g v) = tmap (fun x => f (g x)) v :=
  table_ext fun i => by simp only [tget_tmap]

/-- The records freed at ENABLE low. -/
def freedOff (s : State) : State := freeRecords .enableLow false (indexes 48) (outputOff s)

theorem blocksOff_offered (u : State) :
    offerAll (.stage .off .enableLow) { blocksOff u with ports := tmap portOff (blocksOff u).ports } =
      heldOff (freeRecords .enableLow false (indexes 48) u) := by
  rw [offerAll_eq]
  unfold blocksOff
  generalize freeRecords .enableLow false (indexes 48) u = v
  unfold heldOff
  rw [← tmap_tmap (offerTo (.stage .off .enableLow)) portOff]
  rfl

theorem enableLow_eq {s : State} (h : s.output.stage ≠ .off) : enableLow s = heldOff (freedOff s) := by
  unfold enableLow
  rw [if_neg h]
  exact blocksOff_offered (outputOff s)

/-! ### The records and lists at ENABLE low -/

theorem freedOff_ports (s : State) : (freedOff s).ports = s.ports := by
  rw [freedOff, (freeRecords_quiet rfl rfl _ _).1, outputOff_ports]

theorem freedOff_watches (s : State) : (freedOff s).watches = s.watches := by
  rw [freedOff, (freeRecords_quiet rfl rfl _ _).2, outputOff_watches]

theorem freedOff_record (s : State) (x : Slot) : (freedOff s).record x = freed (s.record x) := by
  rw [freedOff, freeRecords_record _ _ _ (nodup_indexes 48), outputOff_record]
  unfold freed
  cases (s.record x).claim <;> simp

theorem coveredBy_outputOff (s : State) (l : List Slot) : coveredBy (outputOff s) l = coveredBy s l := by
  simp only [coveredBy, outputOff_record]

theorem listsInv_outputOff {s : State} (hs : ListsInv s) : ListsInv (outputOff s) := fun ch =>
  (hs ch).congr (by rw [outputOff_entry]) (fun h => by simp only [claimAt_congr (outputOff_pool s)]) fun h _ => by
    rw [priorityOf_congr (outputOff_pool s)]

theorem freedOff_list {s : State} (hs : ListsInv s) (ch : Channel) : ((freedOff s).entry ch).list = [] := by
  unfold freedOff freeRecords
  rw [resolveSet_list, freeAll_list _ _ (listsInv_outputOff hs)]
  simp

theorem freedOff_settings (s : State) (ch : Channel) :
    ((freedOff s).entry ch).policy = (s.entry ch).policy ∧ ((freedOff s).entry ch).idle = (s.entry ch).idle := by
  have hkept := freeRecords_kept .enableLow false (indexes 48) (outputOff s)
  exact ⟨(hkept.policy ch).trans (by rw [outputOff_entry]), (hkept.idle ch).trans (by rw [outputOff_entry])⟩

theorem freedOff_redo (s : State) : Redo none (coveredBy s (indexes 48)) (outputOff s) (freedOff s) := by
  rw [← coveredBy_outputOff]
  exact freeRecords_redo .enableLow false (indexes 48) (outputOff s)

/-- A channel with an empty list has no winner: it stands at the idle level, STEADY (R41). -/
theorem chooseWinner_empty {s : State} {ch : Channel} (h : (s.entry ch).list = []) : chooseWinner s ch = none := by
  cases hw : chooseWinner s ch with
  | none => rfl
  | some e =>
    have hmem := (chooseWinner_active hw).1
    rw [h] at hmem
    cases hmem

theorem Resolved.of_empty {s : State} {ch : Channel} (hs : Resolved s ch) (h : (s.entry ch).list = []) :
    (s.entry ch).winner = none ∧ (s.entry ch).target = (s.entry ch).idle ∧ (s.entry ch).pattern = .steady := by
  have hwin := hs.winner
  have htarget := hs.target
  have hpattern := hs.pattern
  rw [chooseWinner_empty h] at hwin htarget hpattern
  exact ⟨hwin, htarget, hpattern⟩

/-- The list of a channel that no record covers is empty (R28). -/
theorem list_empty_of_uncovered {s : State} (hs : ListsInv s) {ch : Channel}
    (h : inSet (coveredBy s (indexes 48)) ch = false) : (s.entry ch).list = [] := by
  refine List.eq_nil_iff_forall_not_mem.mpr fun x hx => ?_
  obtain ⟨c, hc, hch⟩ := ((hs ch).members x).mp hx
  have hcovered : inSet (coveredBy s (indexes 48)) ch = true := by
    rw [inSet_coveredBy, List.any_eq_true]
    exact ⟨x.slot, mem_indexes _, by simp [(claimAt_some.mp hc).2, hch]⟩
  rw [h] at hcovered
  cases hcovered

/-- Where its outcome is redone, or was the one its list gives, a channel ends without a winner (R41, R52). -/
theorem freedOff_outcome {s : State} (hs : ListsInv s) {ch : Channel}
    (h : inSet (coveredBy s (indexes 48)) ch = true ∨ Resolved s ch) :
    ((freedOff s).entry ch).winner = none ∧ ((freedOff s).entry ch).target = (s.entry ch).idle ∧
      ((freedOff s).entry ch).pattern = .steady := by
  have hredo := freedOff_redo s
  cases hc : inSet (coveredBy s (indexes 48)) ch with
  | true =>
    obtain ⟨hwin, htarget, hpattern⟩ := (hredo.resolved ch hc).of_empty (freedOff_list hs ch)
    exact ⟨hwin, htarget.trans (freedOff_settings s ch).2, hpattern⟩
  | false =>
    have hresolved : Resolved s ch := h.resolve_left (by simp [hc])
    obtain ⟨hwin, htarget, hpattern⟩ := hresolved.of_empty (list_empty_of_uncovered hs hc)
    rw [hredo.winner ch hc, hredo.target ch hc, hredo.pattern ch hc, outputOff_entry]
    exact ⟨hwin, htarget, hpattern⟩

/-! ### The modulator, the counts and the players at ENABLE low -/

theorem freedOff_modulator_inv {s : State} (hs : ModulatorInv s) : ModulatorInv (freedOff s) := by
  have htested : ModulatorInv (s.setLampTest none) := hs.congr rfl rfl rfl (fun _ => rfl) fun _ => rfl
  have hoff : ModulatorInv (outputOff s) :=
    { target := fun ch => by
        rw [outputOff_chan, outputOff_entry]
        exact hs.target ch
      pattern := fun ch => by
        rw [outputOff_chan, outputOff_entry]
        exact hs.pattern ch
      parked := fun ch => by
        rw [outputOff_chan]
        simp [isOpen, outputOff_output] }
  exact freeRecords_modulator_inv _ _ _ _ hoff

theorem freedOff_chan (s : State) (ch : Channel) :
    ((freedOff s).chan ch).fade = .parked ∧ ((freedOff s).chan ch).defaultIndex = (s.chan ch).defaultIndex ∧
      ((freedOff s).chan ch).defaultShape = (s.chan ch).defaultShape := by
  have hkept := freeRecords_kept .enableLow false (indexes 48) (outputOff s)
  have hbefore : ((outputOff s).chan ch).fade = .parked := by rw [outputOff_chan]
  refine ⟨?_, (hkept.defaultIndex ch).trans (by rw [outputOff_chan]), (hkept.defaultShape ch).trans (by rw [outputOff_chan])⟩
  have hfreed : (forEach (indexes 48) (freeRecord .enableLow) (outputOff s)).chan ch = (outputOff s).chan ch :=
    forEach_keeps (fun s => s.chan ch) _ _ (fun k s => by simp [State.chan]) _
  unfold freedOff freeRecords
  rw [resolveSet_chan]
  split
  · rw [handedChan_parked, hfreed, hbefore]
  · rw [hfreed, hbefore]

theorem slotPasses_outputOff (s : State) (f : Claim → Bool) : slotPasses (outputOff s) f = slotPasses s f :=
  funext fun x => by simp only [slotPasses, outputOff_record]

/-- How many records a freeing of every record frees, of those that pass a test. -/
theorem passing_outputOff (s : State) (f : Claim → Bool) : passing (outputOff s) f (indexes 48) = recordsWhere s f := by
  unfold passing
  rw [slotPasses_outputOff]
  rfl

theorem rights_eq {r u : Rights} (ceiling : r.ceiling = u.ceiling) (sceneEdit : r.sceneEdit = u.sceneEdit)
    (quota : r.quota = u.quota) (held : r.held = u.held) : r = u := by
  cases r
  cases u
  simp_all

/-- Every held-claim count falls to 0 (R6, R26). -/
theorem freedOff_right {s : State} (hs : CountsInv s) (p : Port) : (freedOff s).right p = { s.right p with held := 0 } := by
  have hkept := freeRecords_kept .enableLow false (indexes 48) (outputOff s)
  have hbefore : (outputOff s).right p = s.right p := by simp only [State.right, outputOff_access]
  refine rights_eq ((hkept.ceiling p).trans (by rw [hbefore])) ((hkept.sceneEdit p).trans (by rw [hbefore]))
    ((hkept.quota p).trans (by rw [hbefore])) ?_
  unfold freedOff freeRecords
  rw [resolveSet_right, freeAll_held _ _ (nodup_indexes 48), passing_outputOff, hbefore, hs.held]
  exact Nat.sub_self _

/-- Every in-use count falls to 0 (R26, R69). -/
theorem freedOff_scene {s : State} (hs : CountsInv s) (n : SceneNo) : (freedOff s).scene n = { s.scene n with inUse := 0 } := by
  have hbefore : (outputOff s).scene n = s.scene n := by simp only [State.scene, outputOff_scenes]
  unfold freedOff freeRecords
  rw [resolveSet_scene, freeAll_scene _ _ (nodup_indexes 48), passing_outputOff, hbefore, hs.inUse, Nat.sub_self]

theorem freedOff_player (s : State) (n : PlayerNo) : (freedOff s).player n =
    if freesPlayer s (indexes 48) n then toLoading true (s.player n) else s.player n := by
  have hbefore : (outputOff s).player n = s.player n := by simp only [State.player, outputOff_players]
  have hfrees : freesPlayer (outputOff s) (indexes 48) n = freesPlayer s (indexes 48) n := by
    simp only [freesPlayer, slotPasses_outputOff]
  rw [freedOff, freeRecords_player _ _ _ (nodup_indexes 48), hfrees, hbefore]
  rfl

/-- A FREE player of which no claim is freed stays as it is (R108). -/
theorem playerOff_free {x : Player} (h : x.state = .free) : playerOff x = x := if_pos h

/-- A held player goes to LOADING, whether a claim of it was freed or not (R23, R108). -/
theorem playerOff_held {x : Player} (h : x.state ≠ .free) (b : Bool) :
    playerOff (if b then toLoading true x else x) = toLoading true x := by
  cases b with
  | false => exact if_neg h
  | true => exact toLoading_twice true x

/-! ### The obligation -/

/-- Settles O6: the stage is entered first, then every record is freed without events, so that queues and watches stay
until the ports are emptied. -/
theorem enableLowClearsArbiter : Obligations.EnableLowClearsArbiter := by
  unfold Obligations.EnableLowClearsArbiter
  intro s
  refine ⟨fun h => congrArg Host.Outcome.next (if_pos h), fun h hlists hcounts => ?_⟩
  have hkept := freeRecords_kept .enableLow false (indexes 48) (outputOff s)
  refine ⟨heldOff (freedOff s), congrArg Host.Outcome.next (enableLow_eq h), ?frame, freedOff_record s,
    fun ch => ⟨freedOff_list hlists ch, freedOff_settings s ch⟩, fun ch hch => freedOff_outcome hlists hch,
    fun ch hch => ?uncovered,
    fun hmod ch => ⟨(freedOff_modulator_inv hmod).target ch, (freedOff_modulator_inv hmod).pattern ch⟩, freedOff_chan s,
    ?maintenance, freedOff_right hcounts, freedOff_scene hcounts, fun n hfree hnone => ?freePlayer,
    fun n hheld => ?heldPlayer, fun l => ?line, fun k => ?clock, fun ch => ?out, fun p => ?port⟩
  case frame =>
    refine state_eq ?now ?draws ?pending ?lts ?address0 ?address1 rfl rfl rfl rfl rfl rfl rfl rfl rfl
      ?derateCeiling ?lampTest ?output rfl ?watches
    case now => exact hkept.now.trans (outputOff_now s)
    case draws => exact hkept.draws.trans (outputOff_draws s)
    case pending => exact hkept.pending.trans (outputOff_pending s)
    case lts => exact hkept.lts.trans (outputOff_lts s)
    case address0 => exact hkept.address0.trans (outputOff_address0 s)
    case address1 => exact hkept.address1.trans (outputOff_address1 s)
    case derateCeiling => exact hkept.derateCeiling.trans (outputOff_derateCeiling s)
    case lampTest => exact hkept.lampTest.trans (outputOff_lampTest s)
    case output => exact (freeRecords_output _ _ _ _).trans (outputOff_output s)
    case watches => exact freedOff_watches s
  case uncovered =>
    have hredo := freedOff_redo s
    exact ⟨(hredo.winner ch hch).trans (by rw [outputOff_entry]), (hredo.target ch hch).trans (by rw [outputOff_entry]),
      (hredo.pattern ch hch).trans (by rw [outputOff_entry])⟩
  case maintenance => exact hkept.maintenance.trans (by rw [outputOff_access])
  case freePlayer =>
    have hplayer := freedOff_player s n
    rw [hnone] at hplayer
    rw [heldOff_player, hplayer]
    exact playerOff_free hfree
  case heldPlayer =>
    rw [heldOff_player, freedOff_player]
    exact playerOff_held hheld _
  case line =>
    have hline : (freedOff s).line l = s.line l := by
      rw [freedOff, freeRecords_line, State.line, outputOff_lines]
      rfl
    rw [heldOff_line, hline]
    rfl
  case clock =>
    have hclock : (freedOff s).clock k = s.clock k := by
      rw [freedOff, freeRecords_clock, State.clock, outputOff_clocks]
      rfl
    rw [heldOff_clock, hclock]
    rfl
  case out => exact (freeRecords_out _ _ _ _ ch).trans (outputOff_out s ch)
  case port =>
    have hport : (freedOff s).port p = s.port p := by
      rw [State.port, freedOff_ports]
      rfl
    rw [heldOff_port, hport]
    rfl

end Sys2Proof.Machine

namespace Sys2Proof.Machine

/-! ## The end of INIT -/

/-! ### What taking up the lines leaves -/

/-- What the re-creations and the LINE START events leave: the lines but for their records, and every block that no line
reaches (R124). -/
structure LinesTaken (s t : State) : Prop where
  access : t.access = s.access
  scenes : t.scenes = s.scenes
  players : t.players = s.players
  output : t.output = s.output
  line : ∀ l, t.line l = { s.line l with claim := (t.line l).claim }
  unbound : ∀ l, (s.line l).binding = none → (t.line l).claim = (s.line l).claim
  kept : Kept s t
  results : SameResults s t

theorem LinesTaken.refl (s : State) : LinesTaken s s :=
  ⟨rfl, rfl, rfl, rfl, fun _ => rfl, fun _ _ => rfl, .refl s, .refl s⟩

theorem LinesTaken.trans {s t u : State} (h : LinesTaken s t) (k : LinesTaken t u) : LinesTaken s u where
  access := k.access.trans h.access
  scenes := k.scenes.trans h.scenes
  players := k.players.trans h.players
  output := k.output.trans h.output
  line := fun l => by
    rw [k.line l, h.line l]
  unbound := fun l hl => by
    have hbinding : (t.line l).binding = none := by
      rw [h.line l]
      exact hl
    rw [k.unbound l hbinding, h.unbound l hl]
  kept := h.kept.trans k.kept
  results := h.results.trans k.results

theorem forEach_linesTaken {ι : Type} (l : List ι) (f : ι → State → State) (h : ∀ i s, LinesTaken s (f i s)) (s : State) :
    LinesTaken s (forEach l f s) := by
  induction l generalizing s with
  | nil => exact .refl s
  | cons i l ih => exact (h i s).trans (ih (f i s))

/-- The placement of a line's claim raises no count (R6, R69). -/
theorem place_lineClaim (slot : Slot) (l : Line) (active : Bool) (t : Template) (s : State) :
    (place slot (lineClaim l active t) s).access = s.access ∧ (place slot (lineClaim l active t) s).scenes = s.scenes := by
  have hseat : seat slot (lineClaim l active t) s = enlist (handleAt s slot) (lineClaim l active t)
      (s.modRecord slot fun r => { r with claim := some (lineClaim l active t) }) := rfl
  simp [place, hseat]

theorem placeLine_linesTaken {l : Line} {t : Template} {s : State} (hl : (s.line l).binding = some t) (slot : Slot) :
    LinesTaken s (placeLine l t slot s) := by
  obtain ⟨haccess, hscenes⟩ := place_lineClaim slot l (s.line l).isActive t s
  have hline (i : Line) : (placeLine l t slot s).line i =
      if i = l then { s.line l with binding := some t, claim := some (handleAt s slot) } else s.line i := by
    unfold placeLine
    rw [State.line_modLine, place_line, place_line]
  exact
    { access := haccess
      scenes := hscenes
      players := place_players _ _ _
      output := place_output _ _ _
      line := fun i => by
        rw [hline]
        split
        · next h =>
          subst h
          rw [← hl]
        · rfl
      unbound := fun i hi => by
        have hne : i ≠ l := fun h => by
          rw [h, hl] at hi
          cases hi
        rw [hline, if_neg hne]
      kept := (place_kept _ _ _).trans (.of_lines _ _)
      results := (place_results _ _ _).trans (.of_ports rfl) }

theorem recreateLine_linesTaken (l : Line) (s : State) : LinesTaken s (recreateLine l s) := by
  unfold recreateLine
  cases hl : (s.line l).binding with
  | none => exact .refl s
  | some t =>
    dsimp only
    cases roomCheck s t.channels with
    | refused code extra => exact .refl s
    | room slot => exact placeLine_linesTaken hl slot

theorem announceLine_linesTaken (l : Line) (s : State) : LinesTaken s (announceLine l s) := by
  unfold announceLine
  split
  · exact
      { access := fireWatches_access _ _ _ _
        scenes := fireWatches_scenes _ _ _ _
        players := fireWatches_players _ _ _ _
        output := fireWatches_output _ _ _ _
        line := fun i => by rw [fireWatches_line]
        unbound := fun i _ => by rw [fireWatches_line]
        kept := fireWatches_kept _ _ _ _
        results := fireWatches_results _ _ _ _ }
  · exact .refl s

/-! ### The steps of the end of INIT -/

/-- STANDBY entered, and each line taken up afresh. -/
def standbyLines (s : State) : State := (enterStage .standby .initEnd s).modLines lineFresh

/-- The bound lines' records re-created, and the LINE START events handed. -/
def linesUp (s : State) : State :=
  forEach (indexes 8) announceLine (forEach (indexes 8) recreateLine (standbyLines s))

/-- The clocks in an ON-half and the start-up test, before the stage moves on. -/
def initDone (s : State) : State := startupTest ((linesUp s).modClocks (clockOn s.now))

theorem initEnds_eq {s : State} (h : dueAt s.output.initEnd s.now = true) :
    initEnds s = settle .demand (initDone s) := if_pos h

theorem linesUp_taken (s : State) : LinesTaken (standbyLines s) (linesUp s) :=
  (forEach_linesTaken _ _ recreateLine_linesTaken _).trans (forEach_linesTaken _ _ announceLine_linesTaken _)

theorem startupTest_eq (s : State) : startupTest s =
    { s with lampTest := if s.lts && !s.output.hold then some (s.now + 1000) else s.lampTest } := by
  unfold startupTest
  split <;> rfl

/-- The start-up test and the clocks apart, the end of INIT is what taking up the lines left. -/
theorem initDone_frame (s : State) : (initDone s).access = (linesUp s).access ∧ (initDone s).scenes = (linesUp s).scenes ∧
    (initDone s).players = (linesUp s).players ∧ (initDone s).output = (linesUp s).output ∧
    (initDone s).lines = (linesUp s).lines ∧ (initDone s).ports = (linesUp s).ports ∧
    (initDone s).pool = (linesUp s).pool ∧ (initDone s).resolver = (linesUp s).resolver ∧
    (initDone s).watches = (linesUp s).watches ∧ (initDone s).now = (linesUp s).now := by
  rw [initDone, startupTest_eq]
  generalize linesUp s = u
  exact ⟨rfl, rfl, rfl, rfl, rfl, rfl, rfl, rfl, rfl, rfl⟩

theorem initDone_clock (s : State) (k : ClockNo) :
    (initDone s).clock k = clockOn s.now ((linesUp s).clock k) := by
  rw [initDone, startupTest_eq]
  generalize linesUp s = u
  exact tget_tmap _ _ k

theorem initDone_lampTest (s : State) : (initDone s).lampTest =
    if (linesUp s).lts && !(linesUp s).output.hold then some ((linesUp s).now + 1000) else (linesUp s).lampTest := by
  rw [initDone, startupTest_eq]
  generalize linesUp s = u
  rw [State.modClocks_lts, State.modClocks_output, State.modClocks_now, State.modClocks_lampTest]

/-- STANDBY entered before the end of the taking, then left at once where it may be (R157). -/
theorem settle_standbyEntered {cause : Cause} {o : OutputStage} {now : Instant} {u : State}
    (h : u.output = o.enter .standby cause now) : StandbyEntered cause o (settle .demand u) := by
  unfold StandbyEntered
  dsimp only
  rw [demandNow_settle, settle_now]
  have hstart : mayStart u = (demandNow u && !o.hold && !o.supply.forcing) := by
    simp [mayStart, h, OutputStage.enter]
  have hstandby : settledOutput u = { u.output with demand := demandNow u } :=
    settledOutput_of_standby (by rw [h]; exact fun k => by cases k)
  rw [← hstart]
  cases hm : mayStart u with
  | true =>
    rw [settle_starts .demand hm, cleanChannels_output, enterStage_output, hstandby, h]
    rfl
  | false =>
    rw [settle_stays .demand hm, cleanChannels_output, hstandby, h]
    rfl

/-! ### What the end of INIT leaves -/

theorem standbyLines_line (s : State) (l : Line) : (standbyLines s).line l = lineFresh (s.line l) := by
  rw [standbyLines, State.line_modLines, enterStage_line]

theorem standbyLines_port (s : State) (p : Port) :
    (standbyLines s).port p = offerTo (.stage .standby .initEnd) (s.port p) := by
  rw [standbyLines, State.modLines_port, enterStage_port]

theorem standbyLines_output (s : State) : (standbyLines s).output = s.output.enter .standby .initEnd s.now := by
  rw [standbyLines, State.modLines_output, enterStage_output]

@[simp] theorem standbyLines_lts (s : State) : (standbyLines s).lts = s.lts := by
  rw [standbyLines, State.modLines_lts, enterStage_lts]

@[simp] theorem standbyLines_now (s : State) : (standbyLines s).now = s.now := by
  rw [standbyLines, State.modLines_now, enterStage_now]

@[simp] theorem standbyLines_clocks (s : State) : (standbyLines s).clocks = s.clocks := by
  rw [standbyLines, State.modLines_clocks, enterStage_clocks]

@[simp] theorem standbyLines_access (s : State) : (standbyLines s).access = s.access := by
  rw [standbyLines, State.modLines_access, enterStage_access]

@[simp] theorem standbyLines_scenes (s : State) : (standbyLines s).scenes = s.scenes := by
  rw [standbyLines, State.modLines_scenes, enterStage_scenes]

@[simp] theorem standbyLines_players (s : State) : (standbyLines s).players = s.players := by
  rw [standbyLines, State.modLines_players, enterStage_players]

@[simp] theorem standbyLines_pool (s : State) : (standbyLines s).pool = s.pool := by
  rw [standbyLines, State.modLines_pool, enterStage_pool]

@[simp] theorem standbyLines_resolver (s : State) : (standbyLines s).resolver = s.resolver := by
  rw [standbyLines, State.modLines_resolver, enterStage_resolver]

@[simp] theorem standbyLines_watches (s : State) : (standbyLines s).watches = s.watches := by
  rw [standbyLines, State.modLines_watches, enterStage_watches]

/-- No lamp test runs in INIT that its end could end. -/
theorem standbyLines_lampTest {s : State} (h : s.output.stage = .init) : (standbyLines s).lampTest = s.lampTest := by
  have hends : endsLampTest s.output.stage .standby = false := by
    rw [h]
    rfl
  rw [standbyLines, State.modLines_lampTest, enterStage_lampTest, hends]
  rfl

theorem initEnd_standby (s : State) : StandbyEntered .initEnd s.output (settle .demand (initDone s)) := by
  obtain ⟨-, -, -, houtput, -⟩ := initDone_frame s
  have h : (initDone s).output = s.output.enter .standby .initEnd s.now := by
    rw [houtput, (linesUp_taken s).output, standbyLines_output]
  exact settle_standbyEntered h

theorem linesUp_hold (s : State) : (linesUp s).output.hold = s.output.hold := by
  rw [(linesUp_taken s).output, standbyLines_output]
  rfl

theorem initEnd_lampTest {s : State} (h : s.output.stage = .init) : (settle .demand (initDone s)).lampTest =
    if s.lts && !s.output.hold then some (s.now + 1000) else s.lampTest := by
  have hkept := (linesUp_taken s).kept
  rw [settle_lampTest, initDone_lampTest, hkept.lts, linesUp_hold, hkept.now, hkept.lampTest, standbyLines_lampTest h,
    standbyLines_lts, standbyLines_now]

theorem initEnd_clock (s : State) (k : ClockNo) : (settle .demand (initDone s)).clock k =
    { s.clock k with offHalf := false, began := some s.now } := by
  have hclock : (linesUp s).clock k = s.clock k := by
    simp only [State.clock, (linesUp_taken s).kept.clocks, standbyLines_clocks]
  rw [settle_clock, initDone_clock, hclock]
  rfl

theorem initEnd_line (s : State) (l : Line) : (settle .demand (initDone s)).line l = (linesUp s).line l := by
  obtain ⟨-, -, -, -, hlines, -⟩ := initDone_frame s
  simp only [State.line, settle_lines, hlines]

theorem initDone_port (s : State) (p : Port) : (initDone s).port p = (linesUp s).port p := by
  obtain ⟨-, -, -, -, -, hports, -⟩ := initDone_frame s
  simp only [State.port, hports]

theorem initEnd_port_kept (s : State) (p : Port) :
    RegistersKept (s.port p) ((settle .demand (initDone s)).port p) ∧
      ResultsKept (s.port p) ((settle .demand (initDone s)).port p) ∧
      (offerTo (.stage .standby .initEnd) (s.port p)).queue <+: ((settle .demand (initDone s)).port p).queue := by
  have htaken := linesUp_taken s
  have hsettle := settle_kept .demand (initDone s)
  have hregisters := hsettle.registers p
  have hresults := settle_results .demand (initDone s) p
  have hnotices := hsettle.notices p
  rw [initDone_port] at hregisters hresults hnotices
  have hregisters' := (htaken.kept.registers p).trans hregisters
  have hresults' := (htaken.results p).trans hresults
  have hnotices' := (htaken.kept.notices p).trans hnotices
  rw [standbyLines_port] at hregisters' hresults' hnotices'
  exact ⟨(offerTo_registers _ _).trans hregisters', (offerTo_results _ _).trans hresults', hnotices'⟩

/-- A line at the end of INIT: taken up afresh, its record re-created where it is bound (R124). -/
theorem linesUp_line (s : State) (l : Line) : (linesUp s).line l = { s.line l with
    filtered := (s.line l).raw, filterEnd := none, stretchEnd := none,
    activity := freshActivity (s.line l).sense (s.line l).polarity (s.line l).raw,
    claim := ((linesUp s).line l).claim } := by
  have h := (linesUp_taken s).line l
  rw [standbyLines_line] at h
  exact h

end Sys2Proof.Machine

namespace Sys2Proof.Machine

/-! ### The placement of a line's record (R118, R124) -/

theorem Redo.redone {f : Option Handle} {cs : ChannelSet} {s t : State} (h : Redo f cs s t) : RedoneBy f cs s t where
  resolved := h.resolved
  handed := fun ch hch => Or.inl (h.handed ch hch)
  winner := h.winner
  target := h.target
  pattern := h.pattern
  modulator := fun ch hch => Or.inl (h.chan ch hch)

/-- A placement announces the winner changes and spends what they match (R43, R48). -/
theorem place_announced (slot : Slot) (c : Claim) (s : State) (p : Port) : Announced p [] c.channels s (place slot c s) := by
  have hqueued := (resolveSet_queued none c.channels (seat slot c s) p).1
  have hstage : stageTold (seat slot c s) (place slot c s) = [] := by
    unfold stageTold
    rw [place_output, seat_output, if_pos rfl]
  have hseated : Announced p [] c.channels (seat slot c s) (place slot c s) := by
    unfold Announced
    rw [hstage, List.nil_append, List.append_nil]
    exact hqueued
  exact hseated.congr (by simp only [State.port, seat_ports]) (watchesOf_congr (seat_watches slot c s).symm p _)
    (fun ch => (seat_keeps slot c s ch).1.symm) (by rw [seat_output]) rfl rfl rfl rfl

theorem place_spends (slot : Slot) (c : Claim) (s : State) : WinnersSpend c.channels s (place slot c s) :=
  (resolveSet_spends none c.channels (seat slot c s)).congr (seat_watches slot c s).symm
    (fun ch => (seat_keeps slot c s ch).1.symm) rfl rfl

/-- A placement spends WINNER watches alone. -/
theorem place_watchesOf (slot : Slot) (c : Claim) (s : State) (p : Port) {k : WatchKind} (hk : k ≠ .winner) :
    watchesOf (place slot c s) p k = watchesOf s p k :=
  ((resolveSet_queued none c.channels (seat slot c s) p).2.2 k hk).trans (watchesOf_congr (seat_watches slot c s) p k)

/-- The placement of a line's record, in a slot. -/
theorem placeLine_placed (l : Line) (t : Template) (slot : Slot) (s : State) :
    Placed slot (lineClaim l (s.line l).isActive t) s (placeLine l t slot s) := by
  have hredo := place_redo slot (lineClaim l (s.line l).isActive t) s
  have hentered : Entered slot (lineClaim l (s.line l).isActive t) s (placeLine l t slot s) :=
    seat_entered (resolveSet_pool _ _ _ _) (fun ch => resolveSet_list _ _ _ _ ch) (resolveSet_access _ _ _ _)
      (resolveSet_scenes _ _ _ _) ((resolveSet_kept _ _ _ _).trans (.of_lines _ _))
  exact { hentered with redone := (hredo.congr (u := placeLine l t slot s) rfl rfl rfl rfl rfl rfl).redone }

theorem placeLine_announced (l : Line) (t : Template) (slot : Slot) (s : State) (p : Port) :
    Announced p [] t.channels s (placeLine l t slot s) :=
  (place_announced slot (lineClaim l (s.line l).isActive t) s p).congr rfl rfl (fun _ => rfl) rfl rfl rfl rfl rfl

theorem placeLine_spends (l : Line) (t : Template) (slot : Slot) (s : State) :
    WinnersSpend t.channels s (placeLine l t slot s) :=
  (place_spends slot (lineClaim l (s.line l).isActive t) s).congr rfl (fun _ => rfl) rfl rfl

theorem placeLine_record (l : Line) (t : Template) (slot x : Slot) (s : State) :
    (placeLine l t slot s).record x =
      if x = slot then { gen := (s.record slot).gen, claim := some (lineClaim l (s.line l).isActive t) } else s.record x :=
  place_record slot _ s x

theorem placeLine_list_length (l : Line) (t : Template) (slot : Slot) (s : State) (ch : Channel) :
    ((placeLine l t slot s).entry ch).list.length ≤ (s.entry ch).list.length + 1 := by
  have h : ((placeLine l t slot s).entry ch).list =
      ((place slot (lineClaim l (s.line l).isActive t) s).entry ch).list := rfl
  rw [h, place_list]
  split
  · rw [length_insertClass]
  · exact Nat.le_succ _

theorem placeLine_line (l i : Line) (t : Template) (slot : Slot) (s : State) : (placeLine l t slot s).line i =
    if i = l then { s.line l with binding := some t, claim := some (handleAt s slot) } else s.line i := by
  rw [placeLine, State.line_modLine, place_line, place_line]

/-! ### The re-creations, one line at a time -/

/-- The state after the re-creations of the first lines. -/
def recreated (s : State) (k : Nat) : State := forEach ((indexes 8).take k) recreateLine (standbyLines s)

theorem recreated_zero (s : State) : recreated s 0 = standbyLines s := rfl

theorem recreated_succ (s : State) (l : Line) : recreated s (l.val + 1) = recreateLine l (recreated s l.val) := by
  have htake : (indexes 8).take (l.val + 1) = (indexes 8).take l.val ++ [l] := by
    rw [List.take_add_one]
    simp [indexes]
  rw [recreated, htake, forEach, List.foldl_append]
  rfl

theorem recreated_all (s : State) : recreated s 8 = forEach (indexes 8) recreateLine (standbyLines s) := rfl

theorem recreated_taken (s : State) (k : Nat) : LinesTaken (standbyLines s) (recreated s k) :=
  forEach_linesTaken _ _ recreateLine_linesTaken _

/-- How many of the first lines are bound. -/
def boundBelow (s : State) (k : Nat) : Nat :=
  ((indexes 8).filter fun i => decide (i.val < k) && (s.line i).binding.isSome).length

theorem boundBelow_zero (s : State) : boundBelow s 0 = 0 := by simp [boundBelow]

theorem boundBelow_succ (s : State) (l : Line) :
    boundBelow s (l.val + 1) = boundBelow s l.val + if (s.line l).binding.isSome then 1 else 0 := by
  have h := length_filter_update (fun i : Line => decide (i.val < l.val) && (s.line i).binding.isSome)
    (fun i : Line => decide (i.val < l.val + 1) && (s.line i).binding.isSome) l fun i hi => by
      have hne : i.val ≠ l.val := fun hv => hi (Fin.ext hv)
      have hlt : i.val < l.val + 1 ↔ i.val < l.val := by omega
      simp only [hlt]
  simpa [boundBelow] using h

theorem boundBelow_le (s : State) (k : Nat) : boundBelow s k ≤ 8 :=
  (List.length_filter_le _ _).trans (by simp [indexes])

theorem boundBelow_of_bound {s : State} {l : Line} (h : (s.line l).binding.isSome) :
    boundBelow s (l.val + 1) = boundBelow s l.val + 1 := by
  rw [boundBelow_succ, if_pos h]

/-- The slot of a bound line's record: the lowest that the lines before it leave (R124). -/
def lineSlot (s : State) (l : Line) : Slot :=
  ⟨boundBelow s l.val, (boundBelow_le s l.val).trans_lt (by decide)⟩

/-- The records and the lists after the re-creations of the first lines: the lowest slots hold the bound lines' records
(R124). -/
structure Recreating (s : State) (k : Nat) : Prop where
  placed : ∀ x, ((recreated s k).record x).claim ≠ none ↔ x.val < boundBelow s k
  gen : ∀ x, ((recreated s k).record x).gen = (s.record x).gen
  length : ∀ ch, ((recreated s k).entry ch).list.length ≤ boundBelow s k

theorem recreating_zero {s : State} (hfree : ∀ x, (s.record x).claim = none) (hlists : ∀ ch, (s.entry ch).list = []) :
    Recreating s 0 := by
  have hrecord (x : Slot) : (recreated s 0).record x = s.record x := by
    rw [recreated_zero]
    simp only [State.record, standbyLines_pool]
  have hentry (ch : Channel) : (recreated s 0).entry ch = s.entry ch := by
    rw [recreated_zero]
    simp only [State.entry, standbyLines_resolver]
  exact
    { placed := fun x => by simp [hrecord, hfree, boundBelow_zero]
      gen := fun x => by rw [hrecord]
      length := fun ch => by simp [hentry, hlists] }

theorem recreated_binding (s : State) (k : Nat) (l : Line) :
    ((recreated s k).line l).binding = (s.line l).binding := by
  rw [(recreated_taken s k).line l, standbyLines_line]
  rfl

/-- A line without a binding is passed over. -/
theorem recreated_unbound {s : State} {l : Line} (h : (s.line l).binding = none) :
    recreated s (l.val + 1) = recreated s l.val := by
  rw [recreated_succ, recreateLine, recreated_binding, h]

/-- A bound line's record is placed in its slot. -/
theorem recreated_bound {s : State} {l : Line} {t : Template} (h : (s.line l).binding = some t)
    (hinv : Recreating s l.val) : recreated s (l.val + 1) = placeLine l t (lineSlot s l) (recreated s l.val) := by
  have hbound := boundBelow_of_bound (s := s) (l := l) (by rw [h]; rfl)
  have hle := boundBelow_le s (l.val + 1)
  have hroom : roomCheck (recreated s l.val) t.channels = .room (lineSlot s l) := by
    refine roomCheck_eq_room ?_ (fun x hx => (hinv.placed x).mpr hx) fun ch _ => (hinv.length ch).trans_lt (by omega)
    by_contra hplaced
    exact lt_irrefl _ ((hinv.placed (lineSlot s l)).mp hplaced)
  rw [recreated_succ, recreateLine, recreated_binding, h]
  dsimp only
  rw [hroom]

theorem recreating_succ {s : State} {l : Line} (hinv : Recreating s l.val) : Recreating s (l.val + 1) := by
  cases hb : (s.line l).binding with
  | none =>
    have hcount : boundBelow s (l.val + 1) = boundBelow s l.val := by
      rw [boundBelow_succ, hb]
      rfl
    constructor
    · rw [recreated_unbound hb, hcount]
      exact hinv.placed
    · rw [recreated_unbound hb]
      exact hinv.gen
    · rw [recreated_unbound hb, hcount]
      exact hinv.length
  | some t =>
    have hcount := boundBelow_of_bound (s := s) (l := l) (by rw [hb]; rfl)
    have hslot : (lineSlot s l).val = boundBelow s l.val := rfl
    constructor
    · intro x
      rw [recreated_bound hb hinv, placeLine_record, hcount]
      by_cases hx : x = lineSlot s l
      · rw [if_pos hx, hx, hslot]
        simp
      · have hne : x.val ≠ boundBelow s l.val := fun hv => hx (Fin.ext hv)
        rw [if_neg hx, hinv.placed x]
        omega
    · intro x
      rw [recreated_bound hb hinv, placeLine_record]
      split
      · next hx => rw [hx, hinv.gen]
      · exact hinv.gen x
    · intro ch
      rw [recreated_bound hb hinv, hcount]
      exact (placeLine_list_length _ _ _ _ ch).trans (Nat.succ_le_succ (hinv.length ch))

/-- The re-creations find room for every bound line (R124). -/
theorem recreating {s : State} (hfree : ∀ x, (s.record x).claim = none) (hlists : ∀ ch, (s.entry ch).list = [])
    {k : Nat} (hk : k ≤ 8) : Recreating s k := by
  induction k with
  | zero => exact recreating_zero hfree hlists
  | succ k ih => exact recreating_succ (l := ⟨k, hk⟩) (ih (Nat.le_of_succ_le hk))

/-- A re-creation leaves the records placed before it and the other lines. -/
theorem recreateLine_leaves {s : State} (l : Line) :
    (∀ x, (s.record x).claim ≠ none → (recreateLine l s).record x = s.record x) ∧
      ∀ i, i ≠ l → (recreateLine l s).line i = s.line i := by
  unfold recreateLine
  cases hb : (s.line l).binding with
  | none => exact ⟨fun _ _ => rfl, fun _ _ => rfl⟩
  | some t =>
    dsimp only
    cases hroom : roomCheck s t.channels with
    | refused code extra => exact ⟨fun _ _ => rfl, fun _ _ => rfl⟩
    | room slot =>
      have hempty := (freeSlot?_some (roomCheck_room hroom).1).1
      refine ⟨fun x hx => ?_, fun i hi => ?_⟩
      · have hne : x ≠ slot := fun he => hx (he ▸ hempty)
        rw [placeLine_record, if_neg hne]
      · rw [placeLine_line, if_neg hi]

/-- What a line's re-creation has written stays to the end (R124). -/
theorem recreated_stays {s : State} {l : Line} {x : Slot} (hx : ((recreated s (l.val + 1)).record x).claim ≠ none)
    {k : Nat} (hl : l.val + 1 ≤ k) (hk : k ≤ 8) :
    (recreated s k).record x = (recreated s (l.val + 1)).record x ∧
      (recreated s k).line l = (recreated s (l.val + 1)).line l := by
  induction k, hl using Nat.le_induction with
  | base => exact ⟨rfl, rfl⟩
  | succ k hlk ih =>
    obtain ⟨hrecord, hline⟩ := ih (Nat.le_of_succ_le hk)
    obtain ⟨hleaves, hothers⟩ := recreateLine_leaves (s := recreated s k) ⟨k, hk⟩
    have hne : l ≠ ⟨k, hk⟩ := fun he => by
      have : l.val = k := congrArg Fin.val he
      omega
    have hsucc : recreated s (k + 1) = recreateLine ⟨k, hk⟩ (recreated s k) := recreated_succ s ⟨k, hk⟩
    rw [hsucc]
    exact ⟨(hleaves x (by rw [hrecord]; exact hx)).trans hrecord, (hothers l hne).trans hline⟩

end Sys2Proof.Machine

namespace Sys2Proof.Machine

/-! ### The LINE START events (R124, R179) -/

/-- The lines found active. -/
def activeLines (s : State) : List Line := (indexes 8).filter fun l => (s.line l).isActive

/-- Handing the LINE START events leaves the pool, the resolver and the lines. -/
theorem announceLines_frame (s : State) :
    (forEach (indexes 8) announceLine s).pool = s.pool ∧ (forEach (indexes 8) announceLine s).resolver = s.resolver ∧
      (forEach (indexes 8) announceLine s).lines = s.lines :=
  ⟨forEach_keeps (fun s => s.pool) _ _ (fun l s => by unfold announceLine; split <;> simp) s,
    forEach_keeps (fun s => s.resolver) _ _ (fun l s => by unfold announceLine; split <;> simp) s,
    forEach_keeps (fun s => s.lines) _ _ (fun l s => by unfold announceLine; split <;> simp) s⟩

theorem announceLines_watch (s : State) (w : WatchNo) :
    (forEach (indexes 8) announceLine s).watch w = spentBy .line (activeLines s) (s.watch w) :=
  forEach_spent .line (fun l => (s.line l).isActive) announceLine (fun _ u => u.lines = s.lines)
    (fun l _ u hu => by
      have hline : u.line l = s.line l := by simp only [State.line, hu]
      unfold announceLine
      rw [hline]
      split
      · exact ⟨(fireWatches_lines _ _ _ u).trans hu, fireWatches_watch _ _ _ u⟩
      · exact ⟨hu, fun _ => rfl⟩)
    (indexes 8) s rfl w

theorem announceLines_queued (s : State) (p : Port) :
    Queued ((told s p .line (activeLines s)).map fun l => .line l .start) (s.port p)
        ((forEach (indexes 8) announceLine s).port p) ∧
      ((forEach (indexes 8) announceLine s).port p).kindMask = (s.port p).kindMask := by
  have h := forEach_told .line (fun l => .line l .start) (fun l => (s.line l).isActive) announceLine
    (fun _ u => u.lines = s.lines)
    (fun l _ u hu => by
      have hline : u.line l = s.line l := by simp only [State.line, hu]
      unfold announceLine
      rw [hline]
      split
      · exact ⟨(fireWatches_lines _ _ _ u).trans hu, fun _ => rfl, fun _ _ => rfl⟩
      · exact ⟨hu, fun _ => rfl, fun _ _ => rfl⟩)
    (indexes 8) s rfl p
  exact ⟨h.1, h.2.1⟩

/-- The re-creations spend WINNER watches alone. -/
theorem recreated_watchesOf (s : State) (p : Port) {k : WatchKind} (hk : k ≠ .winner) :
    watchesOf (recreated s 8) p k = watchesOf s p k := by
  have hstep (l : Line) (u : State) : watchesOf (recreateLine l u) p k = watchesOf u p k := by
    unfold recreateLine
    cases (u.line l).binding with
    | none => rfl
    | some t =>
      dsimp only
      cases roomCheck u t.channels with
      | refused code extra => rfl
      | room slot => exact place_watchesOf slot _ u p hk
  exact (forEach_keeps (fun u => watchesOf u p k) _ _ hstep _).trans (watchesOf_congr (standbyLines_watches s) p k)

theorem linesUp_eq (s : State) : linesUp s = forEach (indexes 8) announceLine (recreated s 8) := rfl

theorem initEnd_line_eq (s : State) (l : Line) : (settle .demand (initDone s)).line l = (recreated s 8).line l := by
  have hlines : (linesUp s).lines = (recreated s 8).lines := (announceLines_frame _).2.2
  rw [initEnd_line, State.line, hlines]
  rfl

theorem initEnd_active (s : State) : activeLines (settle .demand (initDone s)) = activeLines (recreated s 8) := by
  unfold activeLines
  exact List.filter_congr fun l _ => by rw [initEnd_line_eq]

/-- The move of the stage at the end of INIT is announced as a start (R153, R157). -/
theorem initEnd_stageTold (s : State) : stageTold (initDone s) (settle .demand (initDone s)) =
    if (settle .demand (initDone s)).output.stage = .softstart then [.stage .softstart .demand] else [] := by
  have hstandby := initEnd_standby s
  have hbefore : (initDone s).output.stage = .standby := by
    obtain ⟨-, -, -, houtput, -⟩ := initDone_frame s
    rw [houtput, (linesUp_taken s).output, standbyLines_output]
    rfl
  unfold StandbyEntered at hstandby
  dsimp only at hstandby
  unfold stageTold
  rw [hbefore]
  generalize settle .demand (initDone s) = t at hstandby ⊢
  rw [hstandby]
  cases demandNow t && !s.output.hold && !s.output.supply.forcing <;> rfl

/-- The notices of the LINE START events and of the stage's move, after the re-creations (R124, R153, R186). -/
theorem initEnd_queued (s : State) (p : Port) :
    Queued ((told s p .line (activeLines (settle .demand (initDone s)))).map (fun l => .line l .start) ++
        if (settle .demand (initDone s)).output.stage = .softstart then [.stage .softstart .demand] else [])
      ((recreated s 8).port p) ((settle .demand (initDone s)).port p) := by
  obtain ⟨hlines, hmask⟩ := announceLines_queued (recreated s 8) p
  have hmove := settle_queued .demand (initDone s) p
  rw [initEnd_stageTold, initDone_port, linesUp_eq] at hmove
  have htold : told (recreated s 8) p .line (activeLines (recreated s 8)) =
      told s p .line (activeLines (settle .demand (initDone s))) := by
    rw [initEnd_active]
    unfold told
    rw [recreated_watchesOf s p (by decide)]
  rw [htold] at hlines
  exact hlines.trans hmove hmask

/-! ### The obligation -/

/-- A line is found active as it is taken up afresh, whatever is re-created. -/
theorem recreated_isActive (s : State) (k : Nat) (l : Line) :
    ((recreated s k).line l).isActive = ((standbyLines s).line l).isActive := by
  rw [(recreated_taken s k).line l]
  rfl

theorem initEnd_record_eq (s : State) (x : Slot) : (settle .demand (initDone s)).record x = (recreated s 8).record x := by
  obtain ⟨-, -, -, -, -, -, hpool, -⟩ := initDone_frame s
  have hpool' : (linesUp s).pool = (recreated s 8).pool := (announceLines_frame _).1
  rw [settle_record, State.record, hpool, hpool']
  rfl

/-- The record of a bound line, at the end of INIT (R26, R124). -/
theorem initEnd_record {s : State} (hfree : ∀ x, (s.record x).claim = none) (hlists : ∀ ch, (s.entry ch).list = [])
    {l : Line} {t : Template} (hl : (s.line l).binding = some t) :
    ∃ h : Handle, ((settle .demand (initDone s)).line l).claim = some h ∧
      claimAt (settle .demand (initDone s)) h =
        some (lineClaim l ((settle .demand (initDone s)).line l).isActive t) ∧
      h.gen = (s.record h.slot).gen ∧ h.slot = lineSlot s l ∧
      Placed h.slot (lineClaim l ((settle .demand (initDone s)).line l).isActive t) (recreated s l.val)
        (recreated s (l.val + 1)) := by
  have hinv : Recreating s l.val := recreating hfree hlists l.isLt.le
  have hbound := recreated_bound hl hinv
  have hrecord : (recreated s (l.val + 1)).record (lineSlot s l) =
      { gen := ((recreated s l.val).record (lineSlot s l)).gen,
        claim := some (lineClaim l ((recreated s l.val).line l).isActive t) } := by
    rw [hbound, placeLine_record, if_pos rfl]
  have hline : ((recreated s (l.val + 1)).line l).claim = some (handleAt (recreated s l.val) (lineSlot s l)) := by
    rw [hbound, placeLine_line, if_pos rfl]
  obtain ⟨hrecord8, hline8⟩ := recreated_stays (x := lineSlot s l) (by rw [hrecord]; exact Option.some_ne_none _)
    (Nat.succ_le_of_lt l.isLt) le_rfl
  have hactive : ((settle .demand (initDone s)).line l).isActive = ((recreated s l.val).line l).isActive := by
    rw [initEnd_line_eq, recreated_isActive, recreated_isActive]
  rw [hactive]
  refine ⟨handleAt (recreated s l.val) (lineSlot s l), ?_, ?_, hinv.gen _, rfl, ?_⟩
  · rw [initEnd_line_eq, hline8, hline]
  · refine claimAt_some.mpr ?_
    rw [initEnd_record_eq]
    show ((recreated s 8).record (lineSlot s l)).gen = _ ∧ ((recreated s 8).record (lineSlot s l)).claim = _
    rw [hrecord8, hrecord]
    exact ⟨rfl, rfl⟩
  · rw [hbound]
    exact placeLine_placed l t (lineSlot s l) (recreated s l.val)

/-- Settles O7: the re-creations are placements one after another, each in the lowest slot its predecessors leave; the
LINE START events and the stage's move follow. -/
theorem initEndTakesUpLinesAndClaims : Obligations.InitEndTakesUpLinesAndClaims := by
  unfold Obligations.InitEndTakesUpLinesAndClaims
  refine ⟨fun s hinit hdue => ?_, fun s hinit hdue hfree hlists => ?_⟩
  · have htaken := linesUp_taken s
    obtain ⟨haccess, hscenes, hplayers, -⟩ := initDone_frame s
    refine ⟨settle .demand (initDone s), congrArg Host.Outcome.next (initEnds_eq hdue), initEnd_standby s,
      fun p => (initEnd_port_kept s p).2.2, initEnd_lampTest hinit, initEnd_clock s, fun l => ?_, fun l hl => ?_, ?_, ?_, ?_,
      fun p => ⟨(initEnd_port_kept s p).1, (initEnd_port_kept s p).2.1⟩⟩
    · rw [initEnd_line]
      exact linesUp_line s l
    · rw [initEnd_line, htaken.unbound l (by rw [standbyLines_line]; exact hl), standbyLines_line]
      rfl
    · rw [settle_access, haccess, htaken.access, standbyLines_access]
    · rw [settle_scenes, hscenes, htaken.scenes, standbyLines_scenes]
    · rw [settle_players, hplayers, htaken.players, standbyLines_players]
  · have hinv (k : Nat) (hk : k ≤ 8) : Recreating s k := recreating hfree hlists hk
    obtain ⟨-, -, -, -, -, -, hpool, hresolver, hwatches, -⟩ := initDone_frame s
    obtain ⟨hpool', hresolver', -⟩ := announceLines_frame (recreated s 8)
    refine ⟨settle .demand (initDone s), recreated s, congrArg Host.Outcome.next (initEnds_eq hdue),
      standbyLines_pool s, standbyLines_resolver s, standbyLines_watches s, fun p => ?_,
      fun l hl => recreated_unbound hl, fun l t hl => ?_, ?_, ?_, fun w => ?_, initEnd_queued s⟩
    · rw [recreated_zero, standbyLines_port]
      exact Queued.offer _ _
    · have hbound := recreated_bound hl (hinv l.val l.isLt.le)
      obtain ⟨h, hclaim, hat, hgen, hslot, hplaced⟩ := initEnd_record hfree hlists hl
      refine ⟨fun p => ?_, ?_, h, hclaim, hat, hgen, congrArg Fin.val hslot, hplaced⟩
      · rw [hbound]
        exact placeLine_announced _ _ _ _ p
      · rw [hbound]
        exact placeLine_spends _ _ _ _
    · rw [settle_pool, hpool, linesUp_eq, hpool']
    · rw [settle_resolver, hresolver, linesUp_eq, hresolver']
    · have hwatch : (settle .demand (initDone s)).watch w = (linesUp s).watch w := by
        rw [settle_watch]
        simp only [State.watch, hwatches]
      rw [hwatch, linesUp_eq, announceLines_watch, ← initEnd_active]
      rfl

end Sys2Proof.Machine

namespace Sys2Proof.Machine

/-! ## The register window -/

/-! ### Fields of a register (R201) -/

/-- Fields of a register, each its value, the place of its lowest bit and its width, that stand one above the other. -/
def Laid : Nat → List (Nat × Nat × Nat) → Prop
  | low, [] => low ≤ 16
  | low, (v, lo, len) :: rest => low ≤ lo ∧ v < 2 ^ len ∧ Laid (lo + len) rest

/-- The sum that a register's fields make. -/
def packed : List (Nat × Nat × Nat) → Nat
  | [] => 0
  | (v, lo, _) :: rest => v * 2 ^ lo + packed rest

/-- A register of the fields given. -/
def word (fs : List (Nat × Nat × Nat)) : Word := pack (fs.map fun f => (f.1, f.2.1))

theorem word_eq (fs : List (Nat × Nat × Nat)) : word fs = BitVec.ofNat 16 (packed fs) := by
  have h (l : List (Nat × Nat × Nat)) (n : Nat) :
      (l.map fun f => (f.1, f.2.1)).foldl (fun n f => n + f.1 * 2 ^ f.2) n = n + packed l := by
    induction l generalizing n with
    | nil => rfl
    | cons f l ih =>
      rw [List.map_cons, List.foldl_cons, ih, packed, Nat.add_assoc]
  rw [word, pack, h, Nat.zero_add]

theorem Laid.le {low : Nat} {fs : List (Nat × Nat × Nat)} (h : Laid low fs) : low ≤ 16 := by
  induction fs generalizing low with
  | nil => exact h
  | cons f fs ih =>
    obtain ⟨hlo, -, hrest⟩ := h
    have := ih hrest
    omega

/-- Fields above a place sum to a multiple of that place. -/
theorem Laid.dvd {low : Nat} {fs : List (Nat × Nat × Nat)} (h : Laid low fs) : 2 ^ low ∣ packed fs := by
  induction fs generalizing low with
  | nil => exact Dvd.intro 0 rfl
  | cons f fs ih =>
    obtain ⟨hlo, -, hrest⟩ := h
    have hbelow : 2 ^ low ∣ f.1 * 2 ^ f.2.1 := Dvd.dvd.mul_left (Nat.pow_dvd_pow 2 hlo) _
    have habove : 2 ^ low ∣ packed fs := (Nat.pow_dvd_pow 2 (hlo.trans (Nat.le_add_right _ _))).trans (ih hrest)
    exact Nat.dvd_add hbelow habove

/-- A field's value is read back from the sum. -/
theorem Laid.read {low : Nat} {fs : List (Nat × Nat × Nat)} (h : Laid low fs) {v lo len : Nat} (hm : (v, lo, len) ∈ fs) :
    low ≤ lo ∧ lo + len ≤ 16 ∧ packed fs / 2 ^ lo % 2 ^ len = v := by
  induction fs generalizing low with
  | nil => cases hm
  | cons f fs ih =>
    obtain ⟨w, wlo, wlen⟩ := f
    obtain ⟨hlo, hlt, hrest⟩ := h
    obtain ⟨k, hk⟩ := hrest.dvd
    rcases List.mem_cons.mp hm with he | hm
    · cases he
      refine ⟨hlo, hrest.le, ?_⟩
      rw [packed, hk, Nat.pow_add, Nat.mul_assoc, Nat.mul_comm v, ← Nat.mul_add,
        Nat.mul_div_cancel_left _ (Nat.two_pow_pos _), Nat.add_mul_mod_self_left, Nat.mod_eq_of_lt hlt]
    · obtain ⟨hplace, hfit, hread⟩ := ih hrest hm
      refine ⟨by omega, hfit, ?_⟩
      obtain ⟨d, rfl⟩ := Nat.exists_eq_add_of_le hplace
      have hdrop : packed ((w, wlo, wlen) :: fs) / 2 ^ (wlo + wlen) = packed fs / 2 ^ (wlo + wlen) := by
        have hsmall : w * 2 ^ wlo < 2 ^ (wlo + wlen) := by
          rw [Nat.pow_add, Nat.mul_comm]
          exact Nat.mul_lt_mul_of_pos_left hlt (Nat.two_pow_pos _)
        rw [packed, hk, Nat.add_mul_div_left _ _ (Nat.two_pow_pos _), Nat.div_eq_of_lt hsmall, Nat.zero_add,
          Nat.mul_div_cancel_left _ (Nat.two_pow_pos _)]
      rw [Nat.pow_add, ← Nat.div_div_eq_div_mul, hdrop, Nat.div_div_eq_div_mul, ← Nat.pow_add]
      exact hread

theorem field_ofNat {lo len : Nat} (h : lo + len ≤ 16) (n : Nat) :
    field (BitVec.ofNat 16 n) lo len = n / 2 ^ lo % 2 ^ len := by
  have hmod : n % 2 ^ 16 / 2 ^ lo % 2 ^ len = n / 2 ^ lo % 2 ^ len := by
    obtain ⟨k, hk⟩ := Nat.exists_eq_add_of_le h
    rw [hk, Nat.pow_add, Nat.pow_add, Nat.mul_assoc, Nat.mod_mul_right_div_self, Nat.mod_mod_of_dvd]
    exact Dvd.intro _ rfl
  simp only [field, BitVec.extractLsb'_toNat, BitVec.toNat_ofNat, Nat.shiftRight_eq_div_pow, hmod]

/-- Each field of a register reads as its value (R201). -/
theorem field_word {fs : List (Nat × Nat × Nat)} (h : Laid 0 fs) {v lo len : Nat} (hm : (v, lo, len) ∈ fs) :
    field (word fs) lo len = v := by
  obtain ⟨-, hfit, hread⟩ := h.read hm
  rw [word_eq, field_ofNat hfit, hread]

theorem getLsbD_eq_true_iff (w : Word) (i : Nat) : w.getLsbD i = true ↔ field w i 1 = 1 := by
  have hbit : field w i 1 = (w.getLsbD i).toNat := by
    simp only [field, BitVec.extractLsb'_toNat, BitVec.getLsbD, Nat.testBit_eq_decide_div_mod_eq, Nat.shiftRight_eq_div_pow,
      Nat.pow_one]
    rcases Nat.mod_two_eq_zero_or_one (w.toNat / 2 ^ i) with h | h <;> simp [h]
  rw [hbit]
  cases w.getLsbD i <;> simp

theorem bit_lt (b : Bool) : bit b < 2 ^ 1 := by cases b <;> decide

/-- A flag of a register reads as its value (R201). -/
theorem getLsbD_word {fs : List (Nat × Nat × Nat)} (h : Laid 0 fs) {b : Bool} {i : Nat} (hm : (bit b, i, 1) ∈ fs) :
    (word fs).getLsbD i = b := by
  have hiff := getLsbD_eq_true_iff (word fs) i
  rw [field_word h hm] at hiff
  cases hb : (word fs).getLsbD i <;> cases b <;> simp_all [bit]

/-- A one-bit field of a register is set where its value is 1. -/
theorem getLsbD_word_iff {fs : List (Nat × Nat × Nat)} (h : Laid 0 fs) {v i : Nat} (hm : (v, i, 1) ∈ fs) :
    (word fs).getLsbD i = true ↔ v = 1 := by
  rw [getLsbD_eq_true_iff, field_word h hm]

/-- A register of one field. -/
theorem word_single (v len : Nat) : word [(v, 0, len)] = BitVec.ofNat 16 v := by simp [word, pack]

/-! ### Where each window stands (R200, R205) -/

/-- The channel window as a port selects it. -/
def channelWords (s : State) (p : Port) : List Word :=
  match inRange (s.port p).selChannel.toNat 16 with
  | some ch => channelRegisters s ch
  | none => noChannelRegisters

def slotWords (s : State) (p : Port) : List Word := slotRegisters s (selectedRecord s (s.port p).selSlot.toNat)

def listWords (s : State) (p : Port) : List Word :=
  listRegisters s (s.port p).selChannel.toNat (s.port p).selList.toNat

def sceneWords (s : State) (p : Port) : List Word := sceneRegisters s (s.port p).selScene.toNat

def playerWords (s : State) (p : Port) : List Word := playerRegisters s (s.port p).selPlayer.toNat

theorem windowRegisters_eq (s : State) (p : Port) : windowRegisters s p =
    channelWords s p ++ (slotWords s p ++ (listWords s p ++ (sceneWords s p ++ (playerWords s p ++
      (stageRegisters s ++ lineRegisters s))))) := by
  simp only [← List.append_assoc]
  rfl

theorem channelWords_length (s : State) (p : Port) : (channelWords s p).length = 9 := by
  unfold channelWords
  split <;> rfl

theorem slotWords_length (s : State) (p : Port) : (slotWords s p).length = 8 := by
  unfold slotWords slotRegisters
  dsimp only
  split <;> rfl

theorem listWords_length (s : State) (p : Port) : (listWords s p).length = 3 := by
  unfold listWords listRegisters
  dsimp only
  split
  · rfl
  · split
    · rfl
    · split <;> rfl

theorem sceneWords_length (s : State) (p : Port) : (sceneWords s p).length = 18 := by
  unfold sceneWords sceneRegisters
  split
  · rfl
  · simp

theorem stepWords_length (st : Option PlayerStep) : (stepWords st).length = 3 := by cases st <;> rfl

theorem playerWords_length (s : State) (p : Port) : (playerWords s p).length = 10 := by
  unfold playerWords playerRegisters
  split
  · rfl
  · simp [stepWords_length]

theorem stageRegisters_length (s : State) : (stageRegisters s).length = 6 := rfl

theorem lineRegisters_length (s : State) : (lineRegisters s).length = 24 := rfl

theorem getD_append_skip {l r : List Word} {n : Nat} (h : l.length = n) (i : Nat) :
    (l ++ r).getD (n + i) 0 = r.getD i 0 := by
  rw [List.getD_append_right _ _ _ _ (by omega)]
  congr 1
  omega

/-- A register of the windows, by its place from 0x20. -/
theorem readRegister_window (s : State) (p : Port) {i : Nat} (h : i < 0xE0) :
    readRegister s p (BitVec.ofNat 8 (0x20 + i)) = (windowRegisters s p).getD i 0 := by
  have hn : (BitVec.ofNat 8 (0x20 + i)).toNat = 0x20 + i := by
    rw [BitVec.toNat_ofNat]
    omega
  unfold readRegister
  dsimp only
  rw [hn, if_neg (by omega), Nat.add_sub_cancel_left]

theorem read_channel (s : State) (p : Port) {i : Nat} (h : i < 9) :
    readRegister s p (BitVec.ofNat 8 (0x20 + i)) = (channelWords s p).getD i 0 := by
  rw [readRegister_window s p (by omega), windowRegisters_eq,
    List.getD_append _ _ _ _ (by rw [channelWords_length]; exact h)]

theorem read_slot (s : State) (p : Port) {i : Nat} (h : i < 8) :
    readRegister s p (BitVec.ofNat 8 (0x29 + i)) = (slotWords s p).getD i 0 := by
  rw [show 0x29 + i = 0x20 + (9 + i) by omega, readRegister_window s p (by omega), windowRegisters_eq,
    getD_append_skip (channelWords_length s p), List.getD_append _ _ _ _ (by rw [slotWords_length]; exact h)]

theorem read_list (s : State) (p : Port) {i : Nat} (h : i < 3) :
    readRegister s p (BitVec.ofNat 8 (0x31 + i)) = (listWords s p).getD i 0 := by
  rw [show 0x31 + i = 0x20 + (9 + (8 + i)) by omega, readRegister_window s p (by omega), windowRegisters_eq,
    getD_append_skip (channelWords_length s p), getD_append_skip (slotWords_length s p),
    List.getD_append _ _ _ _ (by rw [listWords_length]; exact h)]

theorem read_scene (s : State) (p : Port) {i : Nat} (h : i < 18) :
    readRegister s p (BitVec.ofNat 8 (0x34 + i)) = (sceneWords s p).getD i 0 := by
  rw [show 0x34 + i = 0x20 + (9 + (8 + (3 + i))) by omega, readRegister_window s p (by omega), windowRegisters_eq,
    getD_append_skip (channelWords_length s p), getD_append_skip (slotWords_length s p),
    getD_append_skip (listWords_length s p), List.getD_append _ _ _ _ (by rw [sceneWords_length]; exact h)]

theorem read_player (s : State) (p : Port) {i : Nat} (h : i < 10) :
    readRegister s p (BitVec.ofNat 8 (0x46 + i)) = (playerWords s p).getD i 0 := by
  rw [show 0x46 + i = 0x20 + (9 + (8 + (3 + (18 + i)))) by omega, readRegister_window s p (by omega),
    windowRegisters_eq, getD_append_skip (channelWords_length s p), getD_append_skip (slotWords_length s p),
    getD_append_skip (listWords_length s p), getD_append_skip (sceneWords_length s p),
    List.getD_append _ _ _ _ (by rw [playerWords_length]; exact h)]

theorem read_stage (s : State) (p : Port) {i : Nat} (h : i < 6) :
    readRegister s p (BitVec.ofNat 8 (0x50 + i)) = (stageRegisters s).getD i 0 := by
  rw [show 0x50 + i = 0x20 + (9 + (8 + (3 + (18 + (10 + i))))) by omega, readRegister_window s p (by omega),
    windowRegisters_eq, getD_append_skip (channelWords_length s p), getD_append_skip (slotWords_length s p),
    getD_append_skip (listWords_length s p), getD_append_skip (sceneWords_length s p),
    getD_append_skip (playerWords_length s p), List.getD_append _ _ _ _ (by rw [stageRegisters_length]; exact h)]

/-- Past the stage window stand the lines window and the reserved offsets, which read 0 (R201). -/
theorem read_lines (s : State) (p : Port) {i : Nat} (h : i < 0xAA) :
    readRegister s p (BitVec.ofNat 8 (0x56 + i)) = (lineRegisters s).getD i 0 := by
  rw [show 0x56 + i = 0x20 + (9 + (8 + (3 + (18 + (10 + (6 + i)))))) by omega, readRegister_window s p (by omega),
    windowRegisters_eq, getD_append_skip (channelWords_length s p), getD_append_skip (slotWords_length s p),
    getD_append_skip (listWords_length s p), getD_append_skip (sceneWords_length s p),
    getD_append_skip (playerWords_length s p), getD_append_skip (stageRegisters_length s)]

/-- A register of the port's own (R200). -/
theorem read_port (s : State) (p : Port) {i : Nat} (h : i < 0x20) :
    readRegister s p (BitVec.ofNat 8 i) = (portRegisters (s.port p)).getD i 0 := by
  have hn : (BitVec.ofNat 8 i).toNat = i := by
    rw [BitVec.toNat_ofNat]
    omega
  unfold readRegister
  dsimp only
  rw [hn, if_pos h]

end Sys2Proof.Machine

namespace Sys2Proof.Machine

/-! ### The port's own registers (R185, R200) -/

/-- A register of the port's own, past the ARG registers. -/
theorem read_own (s : State) (p : Port) {i : Nat} (h : i < 0x18) {w : Word}
    (hw : ((portRegisters (s.port p)).drop 8).getD i 0 = w) : readRegister s p (BitVec.ofNat 8 (8 + i)) = w := by
  rw [read_port s p (by omega), ← hw, List.getD_eq_getElem?_getD, List.getD_eq_getElem?_getD, List.getElem?_drop]

theorem portRegisters_drop (q : PortState) : (portRegisters q).drop 8 =
    [BitVec.ofNat 16 q.status.code, BitVec.ofNat 16 (handleCode q.handle), q.extra, portStatus q, q.kindMask, 0, 0, 0,
      headWord q, headHandle q, headTag q, BitVec.ofNat 16 q.accepted.val, BitVec.ofNat 16 q.refused.val,
      q.selChannel, q.selSlot, q.selList, q.selScene, q.selPlayer, 0x1648] := by
  unfold portRegisters
  exact List.drop_left' (Vector.length_toList)

/-- PORT_STATUS, with its unused bits (R185, R201). -/
theorem portStatus_eq (q : PortState) : portStatus q =
    word [(q.queue.length, 0, 5), (0, 5, 3), (bit q.overflow, 8, 1), (bit q.frameError, 9, 1), (0, 10, 6)] := by
  simp [portStatus, word, pack]

theorem portRegistersShown (p : Port) (s : State) : PortRegistersShown p s := by
  unfold PortRegistersShown
  dsimp only
  have hown {i : Nat} (h : i < 0x18) {w : Word} (hw : ((portRegisters (s.port p)).drop 8).getD i 0 = w) :
      readRegister s p (BitVec.ofNat 8 (8 + i)) = w := read_own s p h hw
  rw [portRegisters_drop] at hown
  have hstatus : readRegister s p (BitVec.ofNat 8 0x0B) = _ := (hown (i := 3) (by decide) rfl).trans (portStatus_eq _)
  refine ⟨fun i => ?args, hown (i := 0) (by decide) rfl, hown (i := 1) (by decide) rfl, hown (i := 2) (by decide) rfl,
    fun hq => ?status, hown (i := 4) (by decide) rfl, hown (i := 5) (by decide) rfl, hown (i := 6) (by decide) rfl,
    hown (i := 7) (by decide) rfl, hown (i := 11) (by decide) rfl, hown (i := 12) (by decide) rfl,
    hown (i := 13) (by decide) rfl, hown (i := 14) (by decide) rfl, hown (i := 15) (by decide) rfl,
    hown (i := 16) (by decide) rfl, hown (i := 17) (by decide) rfl, hown (i := 18) (by decide) rfl⟩
  case args =>
    rw [read_port s p (by omega), portRegisters, List.getD_append _ _ _ _ (by simp)]
    simp [arg, tget]
  case status =>
    have hlaid : Laid 0 [((s.port p).queue.length, 0, 5), (0, 5, 3), (bit (s.port p).overflow, 8, 1),
        (bit (s.port p).frameError, 9, 1), (0, 10, 6)] := by
      simp only [Laid, bit_lt, true_and]
      omega
    rw [hstatus]
    exact ⟨field_word hlaid (by simp), getLsbD_word hlaid (by simp), getLsbD_word hlaid (by simp),
      field_word hlaid (by simp), field_word hlaid (by simp)⟩

/-! ### The notice head (R181, R184, R202) -/

theorem headWord_nil {q : PortState} (h : q.queue = []) : headWord q =
    word [(0, 0, 3), (0, 3, 4), (15, 7, 4), (15, 11, 4), (bit false, 15, 1)] := by
  unfold headWord
  rw [h]
  rfl

theorem headWord_cons {q : PortState} {n : Notice} {l : List Notice} (h : q.queue = n :: l) : headWord q =
    word [(n.kindCode, 0, 3), (n.subject, 3, 4), (n.ownerField, 7, 4), (n.detail, 11, 4), (bit false, 15, 1)] := by
  unfold headWord
  rw [h]
  simp [word, pack, bit]

theorem Owner.code_lt (o : Owner) : o.code < 2 ^ 4 := by
  cases o <;> simp only [Owner.code] <;> omega

theorem StageName.code_lt (st : StageName) : st.code < 2 ^ 3 := by cases st <;> decide

theorem Cause.code_lt (c : Cause) : c.code < 2 ^ 4 := by cases c <;> decide

theorem removalCode_lt (r : RemovalReason) : removalCode r < 2 ^ 4 := by cases r <;> decide

theorem faultKindCode_lt (k : FaultKind) : faultKindCode k < 2 ^ 2 := by cases k <;> decide

theorem faultDetailCode_lt (d : FaultDetail) : faultDetailCode d < 2 ^ 4 := by
  cases d with
  | kind k => exact (faultKindCode_lt k).trans (by decide)
  | ready => decide

theorem lineDetailCode_lt (d : LineDetail) : lineDetailCode d < 2 ^ 4 := by cases d <;> decide

theorem playerDetailCode_lt (d : PlayerDetail) : playerDetailCode d < 2 ^ 4 := by cases d <;> decide

theorem accessDetailCode_lt (d : AccessDetail) : accessDetailCode d < 2 ^ 4 := by cases d <;> decide

theorem Notice.kindCode_lt (n : Notice) : n.kindCode < 2 ^ 3 := by
  cases n <;> simp only [Notice.kindCode] <;> decide

theorem Notice.subject_lt (n : Notice) : n.subject < 2 ^ 4 := by
  cases n with
  | stage st c => exact (StageName.code_lt st).trans (by decide)
  | claimRemoved ch h q t r => exact ch.isLt
  | winner ch i => exact ch.isLt
  | fault ch d => exact ch.isLt
  | line l d => exact l.isLt.trans (by decide)
  | player n h q t d => exact n.isLt.trans (by decide)
  | access q d => exact q.isLt.trans (by decide)

/-- Where the owner or the detail does not apply, it reads 15 (R202). -/
theorem fifteen_lt : 15 < 2 ^ 4 := by decide

theorem Notice.ownerField_lt (n : Notice) : n.ownerField < 2 ^ 4 := by
  cases n with
  | claimRemoved ch h q t r => exact q.isLt.trans (by decide)
  | winner ch i =>
    cases i with
    | none => exact fifteen_lt
    | some i => exact Owner.code_lt _
  | fault => exact fifteen_lt
  | line => exact fifteen_lt
  | player n h q t d => exact q.isLt.trans (by decide)
  | stage => exact fifteen_lt
  | access => exact fifteen_lt

theorem Notice.detail_lt (n : Notice) : n.detail < 2 ^ 4 := by
  cases n with
  | claimRemoved ch h q t r => exact removalCode_lt r
  | winner ch i =>
    cases i with
    | none => exact fifteen_lt
    | some i => exact i.priority.isLt.trans (by decide)
  | fault ch d => exact faultDetailCode_lt d
  | line l d => exact lineDetailCode_lt d
  | player n h q t d => exact playerDetailCode_lt d
  | stage st c => exact Cause.code_lt c
  | access q d => exact accessDetailCode_lt d

/-- The notice head of a queue, by the fields of its oldest notice. -/
theorem head_read {p : Port} {s : State} {n : Notice} {l : List Notice} (h : (s.port p).queue = n :: l) :
    let w := readRegister s p (BitVec.ofNat 8 0x10)
    field w 0 3 = n.kindCode ∧ field w 3 4 = n.subject ∧ field w 7 4 = n.ownerField ∧ field w 11 4 = n.detail ∧
      w.getLsbD 15 = false ∧ readRegister s p (BitVec.ofNat 8 0x11) = BitVec.ofNat 16 (handleCode n.handleField) ∧
      readRegister s p (BitVec.ofNat 8 0x12) = n.tagField := by
  have hown {i : Nat} (hi : i < 0x18) {w : Word} (hw : ((portRegisters (s.port p)).drop 8).getD i 0 = w) :
      readRegister s p (BitVec.ofNat 8 (8 + i)) = w := read_own s p hi hw
  rw [portRegisters_drop] at hown
  have hhead : readRegister s p (BitVec.ofNat 8 0x10) = _ := (hown (i := 8) (by decide) rfl).trans (headWord_cons h)
  have hlaid : Laid 0 [(n.kindCode, 0, 3), (n.subject, 3, 4), (n.ownerField, 7, 4), (n.detail, 11, 4),
      (bit false, 15, 1)] := by
    simp only [Laid, n.kindCode_lt, n.subject_lt, n.ownerField_lt, n.detail_lt, bit_lt, true_and]
    decide
  have hhandle : headHandle (s.port p) = BitVec.ofNat 16 (handleCode n.handleField) := by
    unfold headHandle
    rw [h]
    rfl
  have htag : headTag (s.port p) = n.tagField := by
    unfold headTag
    rw [h]
    rfl
  dsimp only
  rw [hhead]
  exact ⟨field_word hlaid (by simp), field_word hlaid (by simp), field_word hlaid (by simp), field_word hlaid (by simp),
    getLsbD_word hlaid (by simp), (hown (i := 9) (by decide) rfl).trans hhandle,
    (hown (i := 10) (by decide) rfl).trans htag⟩

/-- The notice head of an empty queue: kind NONE, and every field as one that does not apply. -/
theorem head_read_nil {p : Port} {s : State} (h : (s.port p).queue = []) :
    let w := readRegister s p (BitVec.ofNat 8 0x10)
    field w 0 3 = 0 ∧ field w 3 4 = 0 ∧ field w 7 4 = 15 ∧ field w 11 4 = 15 ∧ w.getLsbD 15 = false ∧
      readRegister s p (BitVec.ofNat 8 0x11) = 0xFFFF ∧ readRegister s p (BitVec.ofNat 8 0x12) = 0 := by
  have hown {i : Nat} (hi : i < 0x18) {w : Word} (hw : ((portRegisters (s.port p)).drop 8).getD i 0 = w) :
      readRegister s p (BitVec.ofNat 8 (8 + i)) = w := read_own s p hi hw
  rw [portRegisters_drop] at hown
  have hhead : readRegister s p (BitVec.ofNat 8 0x10) = _ := (hown (i := 8) (by decide) rfl).trans (headWord_nil h)
  have hlaid : Laid 0 [(0, 0, 3), (0, 3, 4), (15, 7, 4), (15, 11, 4), (bit false, 15, 1)] := by
    simp only [Laid, bit_lt, true_and]
    decide
  have hhandle : headHandle (s.port p) = 0xFFFF := by
    unfold headHandle
    rw [h]
    rfl
  have htag : headTag (s.port p) = 0 := by
    unfold headTag
    rw [h]
    rfl
  dsimp only
  rw [hhead]
  exact ⟨field_word hlaid (by simp), field_word hlaid (by simp), field_word hlaid (by simp), field_word hlaid (by simp),
    getLsbD_word hlaid (by simp), (hown (i := 9) (by decide) rfl).trans hhandle,
    (hown (i := 10) (by decide) rfl).trans htag⟩

theorem headShown (p : Port) (s : State) : HeadShown p s := by
  unfold HeadShown
  dsimp only
  split
  · next h => exact head_read_nil h
  all_goals next h => exact head_read h

end Sys2Proof.Machine

namespace Sys2Proof.Machine

/-! ### The claim slot window (R24, R67, R205) -/

theorem Pattern.code_lt (x : Pattern) : x.code < 2 ^ 8 := by
  cases x with
  | steady => decide
  | blink k ph => cases ph <;> simp only [Pattern.code, Phase.code] <;> omega
  | flash l => simp only [Pattern.code]; omega
  | combine l k => simp only [Pattern.code]; omega

theorem LevelSource.code_lt (x : LevelSource) : x.code < 2 ^ 2 := by cases x <;> simp only [LevelSource.code] <;> decide

theorem sourceNumber_lt (x : LevelSource) : sourceNumber x < 2 ^ 12 := by
  cases x with
  | fixed v => exact v.isLt
  | scene n => exact n.isLt.trans (by decide)
  | player n => exact n.isLt.trans (by decide)

/-- The entries of a table, in the order of its places. -/
theorem toList_eq_map {α : Type} {n : Nat} (v : Vector α n) : v.toList = (indexes n).map (tget v) :=
  List.ext_getElem (by simp [indexes]) fun i h1 h2 => by simp [indexes, tget]

theorem freeCount_eq (s : State) :
    freeCount s = ((indexes 48).filter fun x => (s.record x).claim.isNone).length := by
  rw [freeCount, toList_eq_map, List.filter_map, List.length_map]
  rfl

theorem freeCount_lt (s : State) : freeCount s < 2 ^ 6 := by
  rw [freeCount_eq]
  exact (List.length_filter_le _ _).trans_lt (by simp [indexes])

/-- A lease that began no later than now shows at most its length (R67). -/
theorem leaseLeft_lt {l : Option Lease} {now : Instant} (h : ∀ x, l = some x → x.start ≤ now) :
    leaseLeft l now < 2 ^ 8 := by
  cases l with
  | none => exact Nat.two_pow_pos 8
  | some x =>
    have hstart : @LE.le Nat _ x.start now := h x rfl
    have hlen := x.length.isLt
    have hleft : unitsLeft 100 x.ends now ≤ x.length.val := by
      simp only [unitsLeft, Lease.ends]
      omega
    exact max_lt (by decide) (hleft.trans_lt (by omega))

/-- What a claim slot's registers show. -/
theorem slotWords_of (s : State) (p : Port) {slot : Slot} (h : (s.port p).selSlot.toNat = slot.val) :
    slotWords s p = slotRegisters s (s.record slot) := by
  have hselected : inRange (s.port p).selSlot.toNat 48 = some slot := inRange_eq_some.mpr h
  simp only [slotWords, selectedRecord, hselected]

theorem slotWords_outside (s : State) (p : Port) (h : 47 < (s.port p).selSlot.toNat) :
    slotWords s p = slotRegisters s { gen := 0, claim := none } := by
  have hselected : inRange (s.port p).selSlot.toNat 48 = none := inRange_eq_none.mpr h
  simp only [slotWords, selectedRecord, hselected]

/-- The claim slot window of a FREE record (R24, R205). -/
theorem slotRegisters_free (s : State) (g : Gen) : slotRegisters s { gen := g, claim := none } =
    [word [(0, 0, 2), (g.val, 2, 4), (15, 6, 4), (0, 10, 6)], 0, 0, 0, word [(0, 0, 8), (freeCount s, 8, 6)], 0,
      word [((s.right 0).held, 0, 6), ((s.right 1).held, 8, 6)], word [((s.right 2).held, 0, 6)]] := by
  simp [slotRegisters, word, pack]

/-- The claim slot window of a placed record (R24, R67, R205). -/
theorem slotRegisters_placed (s : State) (g : Gen) (c : Claim) : slotRegisters s { gen := g, claim := some c } =
    [word [(if c.active then 2 else 1, 0, 2), (g.val, 2, 4), (c.owner.code, 6, 4), (c.source.code, 10, 2),
      (c.priority.val, 12, 3)], c.channels, word [(sourceNumber c.source, 0, 12), (c.fade.val, 12, 3)],
      word [(c.pattern.code, 0, 8), ((c.lease.map fun l => l.length.val).getD 0, 8, 8)],
      word [(leaseLeft c.lease s.now, 0, 8), (freeCount s, 8, 6)], c.tag,
      word [((s.right 0).held, 0, 6), ((s.right 1).held, 8, 6)], word [((s.right 2).held, 0, 6)]] := by
  cases hl : c.lease <;> simp [slotRegisters, word, hl]

/-- The pool summary is the same for every record selected. -/
theorem slotRegisters_held (s : State) (r : ClaimRecord) :
    (slotRegisters s r).getD 6 0 = word [((s.right 0).held, 0, 6), ((s.right 1).held, 8, 6)] ∧
      (slotRegisters s r).getD 7 0 = word [((s.right 2).held, 0, 6)] := by
  obtain ⟨g, claim⟩ := r
  cases claim with
  | none => exact ⟨rfl, rfl⟩
  | some c => exact ⟨rfl, rfl⟩

/-- How long a lease shows before its expiry is taken, in units of 100 ms, and 1 at the least (R67). -/
theorem leaseLeft_some (l : Lease) (now : Instant) :
    leaseLeft (some l) now = max 1 (unitsOf 100 (some (l.start + 100 * l.length.val)) now) := rfl

theorem slotWindow_free {p : Port} {s : State} {g : Gen} (h : slotWords s p = slotRegisters s { gen := g, claim := none }) :
    field (readRegister s p (BitVec.ofNat 8 0x29)) 0 2 = 0 ∧
    field (readRegister s p (BitVec.ofNat 8 0x29)) 2 4 = g.val ∧
    field (readRegister s p (BitVec.ofNat 8 0x29)) 6 4 = 15 ∧ field (readRegister s p (BitVec.ofNat 8 0x29)) 10 6 = 0 ∧
    readRegister s p (BitVec.ofNat 8 0x2A) = 0 ∧ readRegister s p (BitVec.ofNat 8 0x2B) = 0 ∧
    readRegister s p (BitVec.ofNat 8 0x2C) = 0 ∧ field (readRegister s p (BitVec.ofNat 8 0x2D)) 0 8 = 0 ∧
    readRegister s p (BitVec.ofNat 8 0x2E) = 0 := by
  have hread {i : Nat} (hi : i < 8) : readRegister s p (BitVec.ofNat 8 (0x29 + i)) =
      (slotRegisters s { gen := g, claim := none }).getD i 0 := (read_slot s p hi).trans (by rw [h])
  rw [slotRegisters_free] at hread
  have hstatus : readRegister s p (BitVec.ofNat 8 0x29) = _ := hread (i := 0) (by decide)
  have hlease : readRegister s p (BitVec.ofNat 8 0x2D) = _ := hread (i := 4) (by decide)
  have hlaid : Laid 0 [(0, 0, 2), (g.val, 2, 4), (15, 6, 4), (0, 10, 6)] := by
    simp only [Laid]
    omega
  have hleaseLaid : Laid 0 [(0, 0, 8), (freeCount s, 8, 6)] := by
    simp only [Laid, freeCount_lt, true_and]
    omega
  rw [hstatus, hlease]
  exact ⟨field_word hlaid (by simp), field_word hlaid (by simp), field_word hlaid (by simp), field_word hlaid (by simp),
    hread (i := 1) (by decide), hread (i := 2) (by decide), hread (i := 3) (by decide), field_word hleaseLaid (by simp),
    hread (i := 5) (by decide)⟩

theorem slotWindow_placed {p : Port} {s : State} {slot : Slot} {c : Claim} (h : (s.port p).selSlot.toNat = slot.val)
    (hc : (s.record slot).claim = some c) {i : Nat} (hi : i < 8) : readRegister s p (BitVec.ofNat 8 (0x29 + i)) =
      (slotRegisters s { gen := (s.record slot).gen, claim := some c }).getD i 0 := by
  rw [read_slot s p hi, slotWords_of s p h, ← hc]

/-- The status, the level and the pattern of a placed record (R67). -/
theorem slotWindow_claim {p : Port} {s : State} {slot : Slot} {c : Claim} (h : (s.port p).selSlot.toNat = slot.val)
    (hc : (s.record slot).claim = some c) :
    let read : Nat → Word := fun offset => readRegister s p (BitVec.ofNat 8 offset)
    field (read 0x29) 0 2 = (if c.active then 2 else 1) ∧ field (read 0x29) 2 4 = (s.record slot).gen.val ∧
      field (read 0x29) 6 4 = c.owner.code ∧ field (read 0x29) 10 2 = c.source.code ∧
      field (read 0x29) 12 3 = c.priority.val ∧ read 0x2A = c.channels ∧ field (read 0x2B) 0 12 = sourceNumber c.source ∧
      field (read 0x2B) 12 3 = c.fade.val ∧ field (read 0x2C) 0 8 = c.pattern.code ∧ read 0x2E = c.tag ∧
      field (read 0x2C) 8 8 = (c.lease.map fun l => l.length.val).getD 0 := by
  have hread {i : Nat} (hi : i < 8) := slotWindow_placed h hc hi
  rw [slotRegisters_placed] at hread
  have hstatus : readRegister s p (BitVec.ofNat 8 0x29) = _ := hread (i := 0) (by decide)
  have hlevel : readRegister s p (BitVec.ofNat 8 0x2B) = _ := hread (i := 2) (by decide)
  have hpattern : readRegister s p (BitVec.ofNat 8 0x2C) = _ := hread (i := 3) (by decide)
  have hactive : (if c.active then 2 else 1) < 2 ^ 2 := by cases c.active <;> decide
  have hlength : (c.lease.map fun l => l.length.val).getD 0 < 2 ^ 8 := by
    cases c.lease with
    | none => exact Nat.two_pow_pos 8
    | some l => exact l.length.isLt.trans (by decide)
  have hstatusLaid : Laid 0 [(if c.active then 2 else 1, 0, 2), ((s.record slot).gen.val, 2, 4), (c.owner.code, 6, 4),
      (c.source.code, 10, 2), (c.priority.val, 12, 3)] := by
    simp only [Laid, hactive, Owner.code_lt, LevelSource.code_lt, true_and]
    omega
  have hlevelLaid : Laid 0 [(sourceNumber c.source, 0, 12), (c.fade.val, 12, 3)] := by
    simp only [Laid, sourceNumber_lt, true_and]
    omega
  have hpatternLaid : Laid 0 [(c.pattern.code, 0, 8), ((c.lease.map fun l => l.length.val).getD 0, 8, 8)] := by
    simp only [Laid, hlength, Pattern.code_lt, true_and]
    omega
  dsimp only
  rw [hstatus, hlevel, hpattern]
  exact ⟨field_word hstatusLaid (by simp), field_word hstatusLaid (by simp), field_word hstatusLaid (by simp),
    field_word hstatusLaid (by simp), field_word hstatusLaid (by simp), hread (i := 1) (by decide),
    field_word hlevelLaid (by simp), field_word hlevelLaid (by simp), field_word hpatternLaid (by simp),
    hread (i := 5) (by decide), field_word hpatternLaid (by simp)⟩

/-- The remaining lease of a placed record, with the count of FREE records, where no lease begins after now. -/
theorem slotWindow_lease {p : Port} {s : State} {slot : Slot} {c : Claim} (h : (s.port p).selSlot.toNat = slot.val)
    (hc : (s.record slot).claim = some c) (hl : ∀ l, c.lease = some l → l.start ≤ s.now) :
    field (readRegister s p (BitVec.ofNat 8 0x2D)) 0 8 = leaseLeft c.lease s.now ∧
      field (readRegister s p (BitVec.ofNat 8 0x2D)) 8 6 = freeCount s := by
  have hread {i : Nat} (hi : i < 8) := slotWindow_placed h hc hi
  rw [slotRegisters_placed] at hread
  have hlease : readRegister s p (BitVec.ofNat 8 0x2D) = _ := hread (i := 4) (by decide)
  have hlaid : Laid 0 [(leaseLeft c.lease s.now, 0, 8), (freeCount s, 8, 6)] := by
    simp only [Laid, leaseLeft_lt hl, freeCount_lt, true_and]
    omega
  rw [hlease]
  exact ⟨field_word hlaid (by simp), field_word hlaid (by simp)⟩

/-- The count of FREE records shows whatever record is selected (R24). -/
theorem slotWindow_freeCount {p : Port} {s : State}
    (hl : ∀ (slot : Slot) c l, (s.record slot).claim = some c → c.lease = some l → l.start ≤ s.now) :
    field (readRegister s p (BitVec.ofNat 8 0x2D)) 8 6 = freeCount s := by
  have hfree {g : Gen} (h : slotWords s p = slotRegisters s { gen := g, claim := none }) :
      field (readRegister s p (BitVec.ofNat 8 0x2D)) 8 6 = freeCount s := by
    have hread : readRegister s p (BitVec.ofNat 8 0x2D) = (slotWords s p).getD 4 0 := read_slot s p (i := 4) (by decide)
    rw [h, slotRegisters_free] at hread
    have hlaid : Laid 0 [(0, 0, 8), (freeCount s, 8, 6)] := by
      simp only [Laid, freeCount_lt, true_and]
      omega
    rw [hread]
    exact field_word hlaid (by simp)
  by_cases hsel : (s.port p).selSlot.toNat < 48
  · have hslot : (s.port p).selSlot.toNat = (⟨_, hsel⟩ : Slot).val := rfl
    cases hc : (s.record ⟨_, hsel⟩).claim with
    | none => exact hfree ((slotWords_of s p hslot).trans (by rw [← hc]))
    | some c => exact (slotWindow_lease hslot hc fun l hlease => hl _ c l hc hlease).2
  · exact hfree (slotWords_outside s p (by omega))

theorem slotWindowShown (p : Port) (s : State) : SlotWindowShown p s := by
  unfold SlotWindowShown
  dsimp only
  have hheld {i : Nat} (hi : i < 8) : readRegister s p (BitVec.ofNat 8 (0x29 + i)) = (slotWords s p).getD i 0 :=
    read_slot s p hi
  obtain ⟨hlow, hhigh⟩ := slotRegisters_held s (selectedRecord s (s.port p).selSlot.toNat)
  have hlow' : readRegister s p (BitVec.ofNat 8 0x2F) = _ := (hheld (i := 6) (by decide)).trans hlow
  have hhigh' : readRegister s p (BitVec.ofNat 8 0x30) = _ := (hheld (i := 7) (by decide)).trans hhigh
  refine ⟨fun slot c h hc => ?placed, fun slot h hc => ?free, fun h => slotWindow_free (slotWords_outside s p h),
    fun hleases => (slotWindow_freeCount hleases).trans (freeCount_eq s), fun h0 h1 => ?held, fun h2 => ?heldTwo⟩
  case free =>
    refine slotWindow_free ((slotWords_of s p h).trans ?_)
    rw [← hc]
  case held =>
    have hlaid : Laid 0 [((s.right 0).held, 0, 6), ((s.right 1).held, 8, 6)] := by
      simp only [Laid]
      omega
    rw [hlow']
    exact ⟨field_word hlaid (by simp), field_word hlaid (by simp)⟩
  case heldTwo =>
    have hlaid : Laid 0 [((s.right 2).held, 0, 6)] := by
      simp only [Laid]
      omega
    rw [hhigh']
    exact field_word hlaid (by simp)
  case placed =>
    obtain ⟨hactive, hgen, howner, hsource, hpriority, hchannels, hnumber, hfade, hpattern, htag, hlength⟩ :=
      slotWindow_claim h hc
    have hshown := slotWindow_lease h hc
    refine ⟨hactive, hgen, howner, hsource, hpriority, hchannels, hnumber, hfade, hpattern, htag, fun hl => ?_,
      fun l hl => ⟨?_, fun hnow hstart => ?_, fun hdue => ?_, fun hstart => ?_⟩⟩
    · rw [hl] at hlength hshown
      exact ⟨hlength, (hshown fun l hn => by cases hn).1⟩
    · rw [hl] at hlength
      exact hlength
    · rw [hl] at hshown
      rw [(hshown fun l' he => by cases he; exact hstart).1, leaseLeft_some]
      have hunits : 1 ≤ unitsOf 100 (some (l.start + 100 * l.length.val)) s.now := by
        have hnow' : @LT.lt Nat _ s.now (l.start + 100 * l.length.val) := hnow
        simp only [unitsOf, unitsLeft]
        omega
      exact max_eq_right hunits
    · have hstart : l.start ≤ s.now := (Nat.le_add_right _ _).trans hdue
      rw [hl] at hshown
      rw [(hshown fun l' he => by cases he; exact hstart).1, leaseLeft_some]
      have hunits : unitsOf 100 (some (l.start + 100 * l.length.val)) s.now ≤ 1 := by
        have hdue' : @LE.le Nat _ (l.start + 100 * l.length.val) s.now := hdue
        simp only [unitsOf, unitsLeft]
        omega
      exact max_eq_left hunits
    · rw [hl] at hshown
      rw [(hshown fun l' he => by cases he; exact hstart).1, leaseLeft_some]
      exact le_max_left _ _

end Sys2Proof.Machine

namespace Sys2Proof.Machine

/-! ### The list entry window (R54, R205) -/

/-- The registers of a list position that holds no entry. -/
def noListRegisters : List Word := [BitVec.ofNat 16 (handleCode none), pack [(15, 1)], 0]

theorem listRegisters_outside (s : State) {channel : Nat} (h : 15 < channel) (position : Nat) :
    listRegisters s channel position = noListRegisters := by
  have hnone : inRange channel 16 = none := inRange_eq_none.mpr h
  simp only [listRegisters, hnone, noListRegisters]

theorem listRegisters_short (s : State) {channel : Nat} {ch : Channel} (h : channel = ch.val) {position : Nat}
    (hp : (s.entry ch).list.length ≤ position) : listRegisters s channel position = noListRegisters := by
  have hsome : inRange channel 16 = some ch := inRange_eq_some.mpr h
  simp only [listRegisters, hsome, List.getElem?_eq_none hp, noListRegisters]

/-- The registers of a list entry (R54). -/
theorem listRegisters_entry (s : State) {channel : Nat} {ch : Channel} (h : channel = ch.val) {position : Nat} {x : Handle}
    {c : Claim} (hx : (s.entry ch).list[position]? = some x) (hc : claimAt s x = some c) :
    listRegisters s channel position =
      [BitVec.ofNat 16 x.code,
       word [(bit c.active, 0, 1), (c.owner.code, 1, 4), (c.priority.val, 5, 3), (c.source.code, 8, 2),
        (bit ((s.entry ch).winner == some x), 10, 1)],
       word [((effectiveLevel s c ch).val, 0, 12)]] := by
  have hsome : inRange channel 16 = some ch := inRange_eq_some.mpr h
  simp only [listRegisters, hsome, hx, hc]
  rfl

theorem listWindow_nothing {p : Port} {s : State} (h : listWords s p = noListRegisters) :
    readRegister s p (BitVec.ofNat 8 0x31) = 0xFFFF ∧ field (readRegister s p (BitVec.ofNat 8 0x32)) 0 1 = 0 ∧
      field (readRegister s p (BitVec.ofNat 8 0x32)) 1 4 = 15 ∧ field (readRegister s p (BitVec.ofNat 8 0x32)) 5 11 = 0 ∧
      readRegister s p (BitVec.ofNat 8 0x33) = 0 := by
  have hread {i : Nat} (hi : i < 3) : readRegister s p (BitVec.ofNat 8 (0x31 + i)) = noListRegisters.getD i 0 :=
    (read_list s p hi).trans (by rw [h])
  have hhandle : readRegister s p (BitVec.ofNat 8 0x31) = _ := hread (i := 0) (by decide)
  have hfields : readRegister s p (BitVec.ofNat 8 0x32) = _ := hread (i := 1) (by decide)
  have hlevel : readRegister s p (BitVec.ofNat 8 0x33) = _ := hread (i := 2) (by decide)
  rw [hhandle, hfields, hlevel]
  decide

theorem listWindowShown (p : Port) (s : State) : ListWindowShown p s := by
  unfold ListWindowShown
  dsimp only
  refine ⟨fun h => listWindow_nothing (listRegisters_outside s h _), fun ch h =>
    ⟨fun hshort => listWindow_nothing (listRegisters_short s h hshort), fun above x below c hlist hposition hc => ?_⟩⟩
  have hx : (s.entry ch).list[(s.port p).selList.toNat]? = some x := by
    rw [hlist, ← hposition]
    simp
  have hread {i : Nat} (hi : i < 3) := (read_list s p hi).trans
    (congrArg (fun l : List Word => l.getD i 0) (listRegisters_entry s h hx hc))
  have hfields : readRegister s p (BitVec.ofNat 8 0x32) = _ := hread (i := 1) (by decide)
  have hlevel : readRegister s p (BitVec.ofNat 8 0x33) = _ := hread (i := 2) (by decide)
  have hlaid : Laid 0 [(bit c.active, 0, 1), (c.owner.code, 1, 4), (c.priority.val, 5, 3), (c.source.code, 8, 2),
      (bit ((s.entry ch).winner == some x), 10, 1)] := by
    simp only [Laid, bit_lt, Owner.code_lt, LevelSource.code_lt, true_and]
    omega
  refine ⟨hread (i := 0) (by decide), ?_, ?_, ?_, ?_, ?_, ?_⟩
  · rw [hfields]
    exact getLsbD_word hlaid (by simp)
  · rw [hfields]
    exact field_word hlaid (by simp)
  · rw [hfields]
    exact field_word hlaid (by simp)
  · rw [hfields]
    exact field_word hlaid (by simp)
  · have hwins : (word _).getLsbD 10 = ((s.entry ch).winner == some x) := getLsbD_word hlaid (by simp)
    rw [hfields]
    exact (Eq.congr_left hwins).trans beq_iff_eq
  · rw [hlevel]
    exact word_single _ _

/-! ### The scene window (R83, R205) -/

theorem sceneWords_of {p : Port} {s : State} {n : SceneNo} (h : (s.port p).selScene.toNat = n.val) : sceneWords s p =
    [word [((s.scene n).entryCount, 0, 5), ((s.scene n).inUse, 8, 6)], (s.scene n).channels] ++
      (indexes 16).map fun ch => word [(((tget (s.scene n).levels ch).getD 0).val, 0, 12)] := by
  have hsome : inRange (s.port p).selScene.toNat 16 = some n := inRange_eq_some.mpr h
  simp only [sceneWords, sceneRegisters, hsome, toList_eq_map, List.map_map]
  rfl

theorem entryCount_eq (x : Scene) :
    x.entryCount = ((indexes 16).filter fun ch => (tget x.levels ch).isSome).length := by
  rw [Scene.entryCount, toList_eq_map, List.filter_map, List.length_map]
  rfl

theorem sceneWindowShown (p : Port) (s : State) : SceneWindowShown p s := by
  unfold SceneWindowShown
  dsimp only
  refine ⟨fun n h => ⟨fun huse => ?counts, fun ch => ?channels, fun ch => ?level⟩, fun h m hlow hhigh => ?outside⟩
  case counts =>
    have hread : readRegister s p (BitVec.ofNat 8 0x34) =
        word [((s.scene n).entryCount, 0, 5), ((s.scene n).inUse, 8, 6)] :=
      (read_scene s p (i := 0) (by decide)).trans (by rw [sceneWords_of h]; rfl)
    have hentries : (s.scene n).entryCount < 2 ^ 5 := by
      rw [entryCount_eq]
      exact (List.length_filter_le _ _).trans_lt (by simp [indexes])
    have hlaid : Laid 0 [((s.scene n).entryCount, 0, 5), ((s.scene n).inUse, 8, 6)] := by
      simp only [Laid, hentries, true_and]
      omega
    rw [hread, ← entryCount_eq]
    exact ⟨field_word hlaid (by simp), field_word hlaid (by simp)⟩
  case channels =>
    have hread : readRegister s p (BitVec.ofNat 8 0x35) = (s.scene n).channels :=
      (read_scene s p (i := 1) (by decide)).trans (by rw [sceneWords_of h]; rfl)
    rw [hread, Scene.channels, inSet_setOf]
  case level =>
    have hplace : 0x36 + ch.val = 0x34 + (2 + ch.val) := by omega
    rw [hplace, read_scene s p (by omega), sceneWords_of h, getD_append_skip (n := 2) rfl, ← word_single _ 12]
    simp [indexes]
  case outside =>
    have hnone : inRange (s.port p).selScene.toNat 16 = none := inRange_eq_none.mpr h
    obtain ⟨i, rfl⟩ := Nat.exists_eq_add_of_le hlow
    have hwords : sceneWords s p = List.replicate 18 0 := by simp only [sceneWords, sceneRegisters, hnone]
    rw [read_scene s p (by omega), hwords]
    exact List.getD_replicate _ (by omega)

/-! ### The player window (R109, R205) -/

theorem playerWords_of {p : Port} {s : State} {n : PlayerNo} (h : (s.port p).selPlayer.toNat = n.val) : playerWords s p =
    [word [(playerStateCode (s.player n).state, 0, 3), (((s.player n).holder.map fun q => q.val).getD 3, 3, 2),
        ((s.player n).queue.length, 5, 6), (bit (s.player n).streamComplete, 11, 1),
        (bit ((s.player n).mode == .loop), 12, 1), (bit ((s.player n).finish == .release), 13, 1)],
      word [((s.player n).level.val, 0, 12)], BitVec.ofNat 16 (handleCode (s.player n).claim)] ++
    (stepWords ((s.player n).current.map (·.step)) ++
    ([word [(((s.player n).current.map fun c => stepLeft c s.now).getD 0, 0, 16)]] ++
    stepWords (s.player n).queue.head?)) := by
  have hsome : inRange (s.port p).selPlayer.toNat 2 = some n := inRange_eq_some.mpr h
  simp only [playerWords, playerRegisters, hsome]
  cases (s.player n).holder <;> cases (s.player n).current <;> rfl

theorem stepWords_some (x : PlayerStep) : stepWords (some x) =
    [BitVec.ofNat 16 x.level.val, BitVec.ofNat 16 x.ramp.val, BitVec.ofNat 16 x.hold.val] := by
  simp [stepWords, pack]

/-- The registers of the step in progress. -/
theorem read_current {p : Port} {s : State} {n : PlayerNo} (h : (s.port p).selPlayer.toNat = n.val) {i : Nat} (hi : i < 3) :
    readRegister s p (BitVec.ofNat 8 (0x49 + i)) = (stepWords ((s.player n).current.map (·.step))).getD i 0 := by
  rw [show 0x49 + i = 0x46 + (3 + i) by omega, read_player s p (by omega), playerWords_of h,
    getD_append_skip (n := 3) rfl, List.getD_append _ _ _ _ (by rw [stepWords_length]; exact hi)]

theorem read_stepLeft {p : Port} {s : State} {n : PlayerNo} (h : (s.port p).selPlayer.toNat = n.val) :
    readRegister s p (BitVec.ofNat 8 0x4C) =
      BitVec.ofNat 16 (((s.player n).current.map fun c => stepLeft c s.now).getD 0) := by
  have hread : readRegister s p (BitVec.ofNat 8 0x4C) = (playerWords s p).getD (3 + (3 + 0)) 0 :=
    read_player s p (i := 6) (by decide)
  rw [hread, playerWords_of h, getD_append_skip (n := 3) rfl, getD_append_skip (stepWords_length _), ← word_single _ 16]
  rfl

/-- The registers of the oldest queued step. -/
theorem read_queued {p : Port} {s : State} {n : PlayerNo} (h : (s.port p).selPlayer.toNat = n.val) {i : Nat} (hi : i < 3) :
    readRegister s p (BitVec.ofNat 8 (0x4D + i)) = (stepWords (s.player n).queue.head?).getD i 0 := by
  rw [show 0x4D + i = 0x46 + (3 + (3 + (1 + i))) by omega, read_player s p (by omega), playerWords_of h,
    getD_append_skip (n := 3) rfl, getD_append_skip (stepWords_length _), getD_append_skip (n := 1) rfl]

theorem stepWords_none {i : Nat} (hi : i < 3) : (stepWords none).getD i 0 = 0 := List.getD_replicate (n := 3) _ hi

/-- Three registers that show a step (R205). -/
theorem stepWindow {p : Port} {s : State} {n : Nat} {st : PlayerStep}
    (h : ∀ i, i < 3 → readRegister s p (BitVec.ofNat 8 (n + i)) = (stepWords (some st)).getD i 0) :
    readRegister s p (BitVec.ofNat 8 n) = BitVec.ofNat 16 st.level.val ∧
      readRegister s p (BitVec.ofNat 8 (n + 1)) = BitVec.ofNat 16 st.ramp.val ∧
      readRegister s p (BitVec.ofNat 8 (n + 2)) = BitVec.ofNat 16 st.hold.val := by
  rw [stepWords_some] at h
  exact ⟨h 0 (by decide), h 1 (by decide), h 2 (by decide)⟩

theorem playerStateCode_lt (x : PlayerState) : playerStateCode x < 2 ^ 3 := by cases x <;> decide

/-- The first register of a player. -/
theorem read_playerStatus {p : Port} {s : State} {n : PlayerNo} (h : (s.port p).selPlayer.toNat = n.val) :
    readRegister s p (BitVec.ofNat 8 0x46) =
      word [(playerStateCode (s.player n).state, 0, 3), (((s.player n).holder.map fun q => q.val).getD 3, 3, 2),
        ((s.player n).queue.length, 5, 6), (bit (s.player n).streamComplete, 11, 1),
        (bit ((s.player n).mode == .loop), 12, 1), (bit ((s.player n).finish == .release), 13, 1)] :=
  (read_player s p (i := 0) (by decide)).trans (by rw [playerWords_of h]; rfl)

theorem playerWindow_status {p : Port} {s : State} {n : PlayerNo} (h : (s.port p).selPlayer.toNat = n.val)
    (hqueue : (s.player n).queue.length ≤ 32) :
    let w := readRegister s p (BitVec.ofNat 8 0x46)
    field w 0 3 = playerStateCode (s.player n).state ∧
      field w 3 2 = ((s.player n).holder.map fun q => q.val).getD 3 ∧ field w 5 6 = (s.player n).queue.length ∧
      w.getLsbD 11 = (s.player n).streamComplete ∧ (w.getLsbD 12 = true ↔ (s.player n).mode = .loop) ∧
      (w.getLsbD 13 = true ↔ (s.player n).finish = .release) := by
  have hholder : ((s.player n).holder.map fun q => q.val).getD 3 < 2 ^ 2 := by
    cases (s.player n).holder with
    | none => exact (by decide : 3 < 2 ^ 2)
    | some q => exact q.isLt.trans (by decide)
  have hlaid : Laid 0 [(playerStateCode (s.player n).state, 0, 3), (((s.player n).holder.map fun q => q.val).getD 3, 3, 2),
      ((s.player n).queue.length, 5, 6), (bit (s.player n).streamComplete, 11, 1),
      (bit ((s.player n).mode == .loop), 12, 1), (bit ((s.player n).finish == .release), 13, 1)] := by
    simp only [Laid, playerStateCode_lt, hholder, bit_lt, true_and]
    omega
  dsimp only
  rw [read_playerStatus h]
  exact ⟨field_word hlaid (by simp), field_word hlaid (by simp), field_word hlaid (by simp), getLsbD_word hlaid (by simp),
    (Eq.congr_left (getLsbD_word hlaid (b := (s.player n).mode == .loop) (by simp))).trans beq_iff_eq,
    (Eq.congr_left (getLsbD_word hlaid (b := (s.player n).finish == .release) (by simp))).trans beq_iff_eq⟩

/-- The player window under a select value outside 0..1 (R205). -/
theorem playerWords_outside {p : Port} {s : State} (h : 1 < (s.port p).selPlayer.toNat) : playerWords s p =
    [word [(0, 0, 3), (3, 3, 2), (0, 5, 11)], 0, 0xFFFF, 0, 0, 0, 0, 0, 0, 0] := by
  have hnone : inRange (s.port p).selPlayer.toNat 2 = none := inRange_eq_none.mpr h
  simp only [playerWords, playerRegisters, hnone]
  rfl

theorem playerWindowShown (p : Port) (s : State) : PlayerWindowShown p s := by
  unfold PlayerWindowShown
  dsimp only
  refine ⟨fun n h => ⟨fun hqueue => ?status, ?level, ?claim, fun c hc => ⟨?step, ?left⟩,
    fun hc m hlow hhigh => ?noStep, fun st rest hq => ?queued, fun hq m hlow hhigh => ?noQueue⟩, fun h => ?outside⟩
  case status =>
    obtain ⟨hstate, hholder, hrest⟩ := playerWindow_status h hqueue
    refine ⟨hstate.trans ?_, hholder.trans ?_, hrest⟩
    · cases (s.player n).state <;> rfl
    · cases (s.player n).holder <;> rfl
  case level =>
    have hread : readRegister s p (BitVec.ofNat 8 0x47) = word [((s.player n).level.val, 0, 12)] :=
      (read_player s p (i := 1) (by decide)).trans (by rw [playerWords_of h]; rfl)
    rw [hread, word_single]
  case claim => exact (read_player s p (i := 2) (by decide)).trans (by rw [playerWords_of h]; rfl)
  case step => exact stepWindow fun i hi => (read_current h hi).trans (by rw [hc]; rfl)
  case queued => exact stepWindow fun i hi => (read_queued h hi).trans (by rw [hq]; rfl)
  case left =>
    rw [read_stepLeft h, hc]
    rfl
  case noStep =>
    obtain ⟨i, rfl⟩ := Nat.exists_eq_add_of_le hlow
    by_cases hi : i < 3
    · rw [read_current h hi, hc]
      exact stepWords_none hi
    · obtain rfl : i = 3 := by omega
      rw [read_stepLeft h, hc]
      rfl
  case noQueue =>
    obtain ⟨i, rfl⟩ := Nat.exists_eq_add_of_le hlow
    rw [read_queued h (by omega), hq]
    exact stepWords_none (by omega)
  case outside =>
    have hread {i : Nat} (hi : i < 10) := (read_player s p hi).trans
      (congrArg (fun l : List Word => l.getD i 0) (playerWords_outside h))
    have hlaid : Laid 0 [(0, 0, 3), (3, 3, 2), (0, 5, 11)] := by
      simp only [Laid]
      omega
    have hstatus : readRegister s p (BitVec.ofNat 8 0x46) = _ := hread (i := 0) (by decide)
    refine ⟨?_, ?_, ?_, hread (i := 1) (by decide), hread (i := 2) (by decide), fun m hlow hhigh => ?_⟩
    · rw [hstatus]
      exact field_word hlaid (by simp)
    · rw [hstatus]
      exact field_word hlaid (by simp)
    · rw [hstatus]
      exact field_word hlaid (by simp)
    · obtain ⟨i, rfl⟩ := Nat.exists_eq_add_of_le hlow
      have hi : i < 7 := by omega
      rw [show 0x49 + i = 0x46 + (3 + i) by omega, hread (i := 3 + i) (by omega)]
      exact (getD_append_skip (l := [word [(0, 0, 3), (3, 3, 2), (0, 5, 11)], 0, 0xFFFF]) (n := 3) rfl i).trans
        (List.getD_replicate (n := 7) _ hi)

end Sys2Proof.Machine

namespace Sys2Proof.Machine

/-! ### The stage window (R150, R175, R205) -/

/-- The stage window, its clock registers taken apart (R205). -/
theorem stageRegisters_eq (s : State) : stageRegisters s =
    [word [(s.output.stage.code, 0, 3), (s.output.lastCause.code, 3, 4), (s.output.recovery, 7, 3),
        (bit s.output.supply.overtempShutdown, 10, 1), (bit s.output.supply.overtempWarn, 11, 1),
        (bit s.output.supply.overcurrent, 12, 1), (bit s.output.supply.lampSupplyLow, 13, 1), (bit s.output.hold, 14, 1),
        (bit s.output.demand, 15, 1)],
      word [((runningInterval s.output).1, 0, 3), (unitsOf 10 (runningInterval s.output).2 s.now, 3, 8),
        (bit s.lampTest.isSome, 11, 1)],
      word [(unitsOf 100 s.output.activeEnd s.now, 0, 7), (unitsOf 100 s.lampTest s.now, 7, 9)],
      word [(s.derateCeiling.val, 0, 12)],
      word [((s.clock 0).halfPeriod.val, 0, 7), (bit (s.clock 0).offHalf, 7, 1), ((s.clock 1).halfPeriod.val, 8, 7),
        (bit (s.clock 1).offHalf, 15, 1)],
      word [((s.clock 2).halfPeriod.val, 0, 7), (bit (s.clock 2).offHalf, 7, 1), ((s.clock 3).halfPeriod.val, 8, 7),
        (bit (s.clock 3).offHalf, 15, 1)]] := by
  have hclocks (a b : PatternClock) : pack [(clockByte a, 0), (clockByte b, 8)] =
      word [(a.halfPeriod.val, 0, 7), (bit a.offHalf, 7, 1), (b.halfPeriod.val, 8, 7), (bit b.offHalf, 15, 1)] := by
    rw [word_eq, pack]
    congr 1
    simp only [List.foldl, packed, clockByte]
    omega
  unfold stageRegisters
  dsimp only
  rw [hclocks, hclocks]
  rfl

theorem read_stageWord (s : State) (p : Port) {i : Nat} (hi : i < 6) {w : Word} (hw : (stageRegisters s).getD i 0 = w) :
    readRegister s p (BitVec.ofNat 8 (0x50 + i)) = w := (read_stage s p hi).trans hw

/-- The running interval of the stage, where its register has room for it (R175). -/
theorem stageWindow_runs (p : Port) {s : State} {number : Nat} {ends : Option Instant} (hn : number < 2 ^ 3)
    (h : runningInterval s.output = (number, ends)) (hunits : unitsOf 10 ends s.now ≤ 50) :
    let w := readRegister s p (BitVec.ofNat 8 0x51)
    field w 0 3 = number ∧ field w 3 8 = unitsOf 10 ends s.now ∧ w.getLsbD 11 = s.lampTest.isSome := by
  have hread : readRegister s p (BitVec.ofNat 8 0x51) =
      word [(number, 0, 3), (unitsOf 10 ends s.now, 3, 8), (bit s.lampTest.isSome, 11, 1)] :=
    read_stageWord s p (i := 1) (by decide) (by rw [stageRegisters_eq, h]; rfl)
  have hlaid : Laid 0 [(number, 0, 3), (unitsOf 10 ends s.now, 3, 8), (bit s.lampTest.isSome, 11, 1)] := by
    simp only [Laid, hn, bit_lt, true_and]
    omega
  dsimp only
  rw [hread]
  exact ⟨field_word hlaid (by simp), field_word hlaid (by simp), getLsbD_word hlaid (by simp)⟩

/-- One timer runs at a time, so that the one that runs is the one shown (R151, R175). -/
theorem runningInterval_of_timers {o : OutputStage} (h : TimersBelong o) :
    (o.initEnd ≠ none → runningInterval o = (1, o.initEnd)) ∧ (o.softEnd ≠ none → runningInterval o = (2, o.softEnd)) ∧
      (o.recoveryEnd ≠ none → runningInterval o = (3, o.recoveryEnd)) ∧
      (o.standbyEnd ≠ none → runningInterval o = (4, o.standbyEnd)) := by
  have hnone {a : Option Instant} {st : StageName} (hst : a ≠ none → o.stage = st) (hne : o.stage ≠ st) : a = none :=
    by_contra fun ha => hne (hst ha)
  refine ⟨fun hi => ?_, fun hs => ?_, fun hr => ?_, fun hd => ?_⟩
  · obtain ⟨e, he⟩ := Option.ne_none_iff_exists'.mp hi
    simp only [runningInterval, he]
  · obtain ⟨e, he⟩ := Option.ne_none_iff_exists'.mp hs
    have hinit := hnone h.initEnd (by rw [h.softEnd hs]; decide)
    simp only [runningInterval, he, hinit]
  · obtain ⟨e, he⟩ := Option.ne_none_iff_exists'.mp hr
    have hinit := hnone h.initEnd (by rw [h.recoveryEnd hr]; decide)
    have hsoft := hnone h.softEnd (by rw [h.recoveryEnd hr]; decide)
    simp only [runningInterval, he, hinit, hsoft]
  · obtain ⟨e, he⟩ := Option.ne_none_iff_exists'.mp hd
    have hinit := hnone h.initEnd (by rw [h.standbyEnd hd]; decide)
    have hsoft := hnone h.softEnd (by rw [h.standbyEnd hd]; decide)
    have hrecovery := hnone h.recoveryEnd (by rw [h.standbyEnd hd]; decide)
    simp only [runningInterval, he, hinit, hsoft, hrecovery]

/-- A pair of clocks in one register, the lower one in its low byte. -/
theorem clockWord_fields (a b : PatternClock) :
    let w := word [(a.halfPeriod.val, 0, 7), (bit a.offHalf, 7, 1), (b.halfPeriod.val, 8, 7), (bit b.offHalf, 15, 1)]
    (field w 0 7 = a.halfPeriod.val ∧ w.getLsbD 7 = a.offHalf) ∧
      field w 8 7 = b.halfPeriod.val ∧ w.getLsbD 15 = b.offHalf := by
  have hlaid : Laid 0 [(a.halfPeriod.val, 0, 7), (bit a.offHalf, 7, 1), (b.halfPeriod.val, 8, 7),
      (bit b.offHalf, 15, 1)] := by
    simp only [Laid, bit_lt, true_and]
    omega
  exact ⟨⟨field_word hlaid (by simp), getLsbD_word hlaid (by simp)⟩, field_word hlaid (by simp),
    getLsbD_word hlaid (by simp)⟩

theorem stageWindowShown (p : Port) (s : State) : StageWindowShown p s := by
  unfold StageWindowShown
  dsimp only
  have hread {i : Nat} (hi : i < 6) {w : Word} (hw : (stageRegisters s).getD i 0 = w) :
      readRegister s p (BitVec.ofNat 8 (0x50 + i)) = w := read_stageWord s p hi hw
  rw [stageRegisters_eq] at hread
  refine ⟨fun hrecovery => ?stage, fun htimers => ?timers, fun hi hs hr hd => ?idle, fun hactive hlamp => ?lamp, ?ceiling,
    fun k => ?clock⟩
  case stage =>
    have hstage : readRegister s p (BitVec.ofNat 8 0x50) = _ := hread (i := 0) (by decide) rfl
    have hlaid : Laid 0 [(s.output.stage.code, 0, 3), (s.output.lastCause.code, 3, 4), (s.output.recovery, 7, 3),
        (bit s.output.supply.overtempShutdown, 10, 1), (bit s.output.supply.overtempWarn, 11, 1),
        (bit s.output.supply.overcurrent, 12, 1), (bit s.output.supply.lampSupplyLow, 13, 1), (bit s.output.hold, 14, 1),
        (bit s.output.demand, 15, 1)] := by
      simp only [Laid, StageName.code_lt, Cause.code_lt, bit_lt, true_and]
      omega
    rw [hstage]
    exact ⟨field_word hlaid (by simp), field_word hlaid (by simp), field_word hlaid (by simp),
      getLsbD_word hlaid (by simp), getLsbD_word hlaid (by simp), getLsbD_word hlaid (by simp),
      getLsbD_word hlaid (by simp), getLsbD_word hlaid (by simp), getLsbD_word hlaid (by simp)⟩
  case timers =>
    obtain ⟨hinit, hsoft, hrecovery, hstandby⟩ := runningInterval_of_timers htimers
    exact ⟨fun h hu => stageWindow_runs p (by decide) (hinit h) hu, fun h hu => stageWindow_runs p (by decide) (hsoft h) hu,
      fun h hu => stageWindow_runs p (by decide) (hrecovery h) hu,
      fun h hu => stageWindow_runs p (by decide) (hstandby h) hu⟩
  case idle =>
    have hnone : runningInterval s.output = (0, none) := by simp only [runningInterval, hi, hs, hr, hd]
    exact fun hu => stageWindow_runs p (by decide) hnone hu
  case lamp =>
    have hwait : readRegister s p (BitVec.ofNat 8 0x52) = _ := hread (i := 2) (by decide) rfl
    have hlaid : Laid 0 [(unitsOf 100 s.output.activeEnd s.now, 0, 7), (unitsOf 100 s.lampTest s.now, 7, 9)] := by
      simp only [Laid]
      omega
    rw [hwait]
    exact ⟨field_word hlaid (by simp), field_word hlaid (by simp)⟩
  case ceiling => exact (hread (i := 3) (by decide) rfl).trans (word_single _ _)
  case clock =>
    have hlow : readRegister s p (BitVec.ofNat 8 0x54) =
        word [((s.clock 0).halfPeriod.val, 0, 7), (bit (s.clock 0).offHalf, 7, 1), ((s.clock 1).halfPeriod.val, 8, 7),
          (bit (s.clock 1).offHalf, 15, 1)] := hread (i := 4) (by decide) rfl
    have hhigh : readRegister s p (BitVec.ofNat 8 0x55) =
        word [((s.clock 2).halfPeriod.val, 0, 7), (bit (s.clock 2).offHalf, 7, 1), ((s.clock 3).halfPeriod.val, 8, 7),
          (bit (s.clock 3).offHalf, 15, 1)] := hread (i := 5) (by decide) rfl
    obtain ⟨h0, h1⟩ := clockWord_fields (s.clock 0) (s.clock 1)
    obtain ⟨h2, h3⟩ := clockWord_fields (s.clock 2) (s.clock 3)
    rw [← hlow] at h0 h1
    rw [← hhigh] at h2 h3
    fin_cases k
    · exact h0
    · exact h1
    · exact h2
    · exact h3

/-! ### The lines window (R125, R205) -/

/-- A register of a list of equal pieces. -/
theorem getD_flatten {ls : List (List Word)} (h : ∀ l ∈ ls, l.length = 3) (k : Nat) {j : Nat} (hj : j < 3) :
    ls.flatten.getD (3 * k + j) 0 = (ls.getD k []).getD j 0 := by
  induction ls generalizing k with
  | nil => rfl
  | cons l ls ih =>
    have hl : l.length = 3 := h l List.mem_cons_self
    rw [List.flatten_cons]
    cases k with
    | zero =>
      rw [Nat.mul_zero, Nat.zero_add, List.getD_append _ _ _ _ (by omega)]
      rfl
    | succ k =>
      rw [show 3 * (k + 1) + j = 3 + (3 * k + j) by omega, getD_append_skip hl]
      exact ih (fun l hm => h l (List.mem_cons_of_mem _ hm)) k

theorem activityCode_lt (a : Activity) : activityCode a < 2 ^ 2 := by cases a <;> decide

/-- The registers of a line (R125). -/
theorem lineWords_eq (s : State) (l : Line) : lineWords s l =
    [word [(bit ((s.line l).sense == .edge), 0, 1), (bit ((s.line l).polarity == .second), 1, 1),
        (bit (s.line l).anyEdge, 2, 1), (bit false, 3, 1), ((s.line l).filter.val, 4, 4), ((s.line l).stretch.val, 8, 8)],
      word [(activityCode (s.line l).activity, 0, 2), (bit (s.line l).raw, 2, 1), (bit (s.line l).filtered, 3, 1),
        (bit (s.line l).filterEnd.isSome, 4, 1), (bit (s.line l).binding.isSome, 5, 1), (0, 6, 2),
        (unitsOf 10 (s.line l).stretchEnd s.now, 8, 8)],
      BitVec.ofNat 16 (handleCode (s.line l).claim)] := by
  unfold lineWords
  generalize s.line l = x
  cases hsense : x.sense <;> cases hpolarity : x.polarity <;> simp [word, pack, bit, hsense, hpolarity]

theorem read_line (s : State) (p : Port) (l : Line) {j : Nat} (hj : j < 3) :
    readRegister s p (BitVec.ofNat 8 (0x56 + j + 3 * l.val)) = (lineWords s l).getD j 0 := by
  rw [show 0x56 + j + 3 * l.val = 0x56 + (3 * l.val + j) by omega, read_lines s p (by omega), lineRegisters,
    getD_flatten (by simp [lineWords]) l.val hj]
  congr 1
  simp [indexes]

theorem linesWindowShown (p : Port) (s : State) : LinesWindowShown p s := by
  unfold LinesWindowShown
  intro read l
  have hread {j : Nat} (hj : j < 3) := read_line s p l hj
  rw [lineWords_eq] at hread
  have hconfig : read (0x56 + 3 * l.val) = _ := hread (j := 0) (by decide)
  have hstate : read (0x57 + 3 * l.val) = _ := hread (j := 1) (by decide)
  have hclaim : read (0x58 + 3 * l.val) = _ := hread (j := 2) (by decide)
  have hconfigLaid : Laid 0 [(bit ((s.line l).sense == .edge), 0, 1), (bit ((s.line l).polarity == .second), 1, 1),
      (bit (s.line l).anyEdge, 2, 1), (bit false, 3, 1), ((s.line l).filter.val, 4, 4), ((s.line l).stretch.val, 8, 8)] := by
    simp only [Laid, bit_lt, true_and]
    omega
  dsimp only
  rw [hconfig, hstate]
  refine ⟨?sense, ?polarity, getLsbD_word hconfigLaid (by simp), getLsbD_word hconfigLaid (by simp),
    field_word hconfigLaid (by simp), field_word hconfigLaid (by simp), fun hstretch => ?state, hclaim⟩
  case sense => exact (Bool.eq_iff_iff.mp (getLsbD_word hconfigLaid (b := (s.line l).sense == .edge) (by simp))).trans beq_iff_eq
  case polarity => exact (Bool.eq_iff_iff.mp (getLsbD_word hconfigLaid (b := (s.line l).polarity == .second) (by simp))).trans beq_iff_eq
  case state =>
    have hlaid : Laid 0 [(activityCode (s.line l).activity, 0, 2), (bit (s.line l).raw, 2, 1),
        (bit (s.line l).filtered, 3, 1), (bit (s.line l).filterEnd.isSome, 4, 1), (bit (s.line l).binding.isSome, 5, 1),
        (0, 6, 2), (unitsOf 10 (s.line l).stretchEnd s.now, 8, 8)] := by
      simp only [Laid, activityCode_lt, bit_lt, true_and]
      omega
    exact ⟨field_word hlaid (v := activityCode (s.line l).activity) (by simp), getLsbD_word hlaid (by simp),
      getLsbD_word hlaid (by simp), getLsbD_word hlaid (by simp), getLsbD_word hlaid (by simp), field_word hlaid (by simp), field_word hlaid (by simp)⟩

end Sys2Proof.Machine

namespace Sys2Proof.Machine

/-! ### The channel window (R53, R150, R175, R205) -/

theorem policyCode_lt (x : Policy) : policyCode x < 2 ^ 1 := by cases x <;> decide

theorem policyCode_eq_one {x : Policy} : policyCode x = 1 ↔ x = .maximum := by cases x <;> decide

theorem shapeCode_lt (x : Shape) : shapeCode x < 2 ^ 1 := by cases x <;> decide

theorem shapeCode_eq_one {x : Shape} : shapeCode x = 1 ↔ x = .smooth := by cases x <;> decide

theorem fadeStateCode_lt (x : Fade) : fadeStateCode x < 2 ^ 2 := by cases x <;> simp [fadeStateCode]

theorem faultKindOf_lt (x : FaultState) : faultKindOf x < 2 ^ 2 := by
  cases x with
  | ready => decide
  | faulted k status => exact faultKindCode_lt k

/-- The shape in use shows SMOOTH in a running fade only (R150). -/
theorem shapeInUse_eq_smooth {x : Fade} :
    shapeInUse x = .smooth ↔ ∃ origin d start, x = .fading origin d start .smooth := by
  cases x <;> simp [shapeInUse]

theorem retryPaused_iff {x : FaultState} :
    retryPaused x = true ↔ ∃ k left, x = .faulted k (.pending (.paused left)) := by
  cases x with
  | ready => simp [retryPaused]
  | faulted k status =>
    cases status with
    | held => simp [retryPaused]
    | pending timer => cases timer <;> simp [retryPaused]

theorem isFaulted_iff {o : OutChannel} : isFaulted o = true ↔ o.fault ≠ .ready := bne_iff_ne

theorem isHeld_iff {o : OutChannel} : isHeld o = true ↔ ∃ k, o.fault = .faulted k .held := by
  unfold isHeld
  cases o.fault with
  | ready => simp
  | faulted k status => cases status <;> simp

/-- The owner that the winner's registers show, 15 where there is none (R53). -/
theorem ownerCode_lt (x : Option Owner) : ownerCode x < 2 ^ 4 := by
  cases x with
  | none => exact fifteen_lt
  | some x => exact x.code_lt

/-- The priority that the winner's registers show, 15 where there is none (R53). -/
def priorityShown : Option Claim → Nat
  | none => 15
  | some c => c.priority.val

theorem priorityShown_lt (x : Option Claim) : priorityShown x < 2 ^ 4 := by
  cases x with
  | none => exact fifteen_lt
  | some c => exact c.priority.isLt.trans (by decide)

/-- The retry timer's remaining time, in units of 10 ms (R175). -/
def retryUnits (x : FaultState) (now : Instant) : Nat :=
  match x with
  | .ready => 0
  | .faulted _ .held => 0
  | .faulted _ (.pending (.running ends)) => unitsOf 10 (some ends) now
  | .faulted _ (.pending (.paused left)) => unitsOf 10 (some left) 0

theorem retryUnits_eq (x : FaultState) (now : Instant) : unitsLeft 10 (retryLeft x now) 0 = retryUnits x now := by
  have hzero : unitsLeft 10 0 0 = 0 := by decide
  cases x with
  | ready => exact hzero
  | faulted k status =>
    cases status with
    | held => exact hzero
    | pending timer => cases timer <;> rfl

/-- The end of a running fade (R150). -/
def fadeEnds : Fade → Option Instant
  | .parked => none
  | .settled => none
  | .fading _ d start _ => some (start + d)

theorem fadeEnd?_eq (m : ModChannel) : fadeEnd? m = fadeEnds m.fade := by
  unfold fadeEnd?
  cases m.fade <;> rfl

/-- The fields of the channel window's first register (R205). -/
def statusFields (s : State) (ch : Channel) : List (Nat × Nat × Nat) :=
  [(policyCode (s.entry ch).policy, 0, 1), (fadeStateCode (s.chan ch).fade, 1, 2),
   (shapeCode (shapeInUse (s.chan ch).fade), 3, 1), ((s.chan ch).defaultIndex.val, 4, 3),
   (shapeCode (s.chan ch).defaultShape, 7, 1), (bit (gateLit s ch), 8, 1), (bit (s.out ch).enabled, 9, 1),
   (bit (s.out ch).manual, 10, 1), (bit (isFaulted (s.out ch)), 11, 1), (faultKindOf (s.out ch).fault, 12, 2),
   (bit (isHeld (s.out ch)), 14, 1), (bit (retryPaused (s.out ch).fault), 15, 1)]

theorem statusFields_laid (s : State) (ch : Channel) : Laid 0 (statusFields s ch) := by
  simp only [statusFields, Laid, policyCode_lt, fadeStateCode_lt, shapeCode_lt, bit_lt, faultKindOf_lt, true_and]
  omega

/-- The fields of the winner's register (R53). -/
def winnerFields (s : State) (ch : Channel) : List (Nat × Nat × Nat) :=
  [(ownerCode ((winnerClaim s ch).map (·.owner)), 0, 4), (priorityShown (winnerClaim s ch), 4, 4),
   ((activeHandles s ch).length, 8, 4), ((s.out ch).retry, 12, 2)]

theorem activeEntries_length (s : State) (ch : Channel) : (activeEntries s ch).length = (activeHandles s ch).length := by
  rw [← (activeEntries_areActive s ch).1, List.length_map]

/-- The channel window of a channel, its fields named (R205). -/
theorem channelRegisters_eq (s : State) (ch : Channel) : channelRegisters s ch =
    [word (statusFields s ch), word [((s.entry ch).idle.val, 0, 12), ((s.entry ch).list.length, 12, 4)],
      BitVec.ofNat 16 (handleCode (s.entry ch).winner), word (winnerFields s ch),
      word [((s.entry ch).pattern.code, 0, 8), (retryUnits (s.out ch).fault s.now, 8, 7)],
      word [((s.entry ch).target.val, 0, 12)], word [((fadeLevel (s.chan ch) s.now).val, 0, 12)],
      word [(unitsOf 10 (fadeEnds (s.chan ch).fade) s.now, 0, 9), (unitsOf 100 (s.out ch).cleanEnd s.now, 9, 7)],
      word [((outputLevel s ch).val, 0, 12)]] := by
  unfold channelRegisters
  dsimp only
  rw [activeEntries_length, retryUnits_eq, fadeEnd?_eq]
  cases hw : winnerClaim s ch <;> simp only [winnerFields, hw] <;> rfl

/-- A register of the channel window, under a channel selected. -/
theorem read_channelWord {p : Port} {s : State} {ch : Channel} (h : (s.port p).selChannel.toNat = ch.val) {i : Nat}
    (hi : i < 9) : readRegister s p (BitVec.ofNat 8 (0x20 + i)) = (channelRegisters s ch).getD i 0 := by
  have hselected : inRange (s.port p).selChannel.toNat 16 = some ch := inRange_eq_some.mpr h
  rw [read_channel s p hi, channelWords, hselected]

/-- The policy, the fade and the modulator's defaults (R53, R150). -/
theorem channelWindow_modulator {p : Port} {s : State} {ch : Channel} (h : (s.port p).selChannel.toNat = ch.val) :
    let w := readRegister s p (BitVec.ofNat 8 0x20)
    (w.getLsbD 0 = true ↔ (s.entry ch).policy = .maximum) ∧ field w 1 2 = fadeStateCode (s.chan ch).fade ∧
      (w.getLsbD 3 = true ↔ ∃ origin d start, (s.chan ch).fade = .fading origin d start .smooth) ∧
      field w 4 3 = (s.chan ch).defaultIndex.val ∧ (w.getLsbD 7 = true ↔ (s.chan ch).defaultShape = .smooth) ∧
      w.getLsbD 8 = gateLit s ch := by
  have hread : readRegister s p (BitVec.ofNat 8 0x20) = word (statusFields s ch) :=
    (read_channelWord h (i := 0) (by decide)).trans (by rw [channelRegisters_eq]; rfl)
  have hlaid := statusFields_laid s ch
  dsimp only
  rw [hread]
  exact ⟨(getLsbD_word_iff hlaid (by simp [statusFields])).trans policyCode_eq_one,
    field_word hlaid (by simp [statusFields]),
    (getLsbD_word_iff hlaid (v := shapeCode (shapeInUse (s.chan ch).fade)) (by simp [statusFields])).trans
      (shapeCode_eq_one.trans shapeInUse_eq_smooth),
    field_word hlaid (by simp [statusFields]),
    (getLsbD_word_iff hlaid (v := shapeCode (s.chan ch).defaultShape) (by simp [statusFields])).trans shapeCode_eq_one,
    getLsbD_word hlaid (by simp [statusFields])⟩

/-- The flags and the fault of the output stage (R175). -/
theorem channelWindow_output {p : Port} {s : State} {ch : Channel} (h : (s.port p).selChannel.toNat = ch.val) :
    let w := readRegister s p (BitVec.ofNat 8 0x20)
    w.getLsbD 9 = (s.out ch).enabled ∧ w.getLsbD 10 = (s.out ch).manual ∧
      (w.getLsbD 11 = true ↔ (s.out ch).fault ≠ .ready) ∧ field w 12 2 = faultKindOf (s.out ch).fault ∧
      (w.getLsbD 14 = true ↔ ∃ k, (s.out ch).fault = .faulted k .held) ∧
      (w.getLsbD 15 = true ↔ ∃ k left, (s.out ch).fault = .faulted k (.pending (.paused left))) := by
  have hread : readRegister s p (BitVec.ofNat 8 0x20) = word (statusFields s ch) :=
    (read_channelWord h (i := 0) (by decide)).trans (by rw [channelRegisters_eq]; rfl)
  have hlaid := statusFields_laid s ch
  dsimp only
  rw [hread]
  exact ⟨getLsbD_word hlaid (by simp [statusFields]), getLsbD_word hlaid (by simp [statusFields]),
    (Bool.eq_iff_iff.mp (getLsbD_word hlaid (b := isFaulted (s.out ch)) (by simp [statusFields]))).trans isFaulted_iff,
    field_word hlaid (by simp [statusFields]),
    (Bool.eq_iff_iff.mp (getLsbD_word hlaid (b := isHeld (s.out ch)) (by simp [statusFields]))).trans isHeld_iff,
    (Bool.eq_iff_iff.mp (getLsbD_word hlaid (b := retryPaused (s.out ch).fault) (by simp [statusFields]))).trans
      retryPaused_iff⟩

/-- The idle level and the length of the list, where the list is no longer than a list may be (R53). -/
theorem channelWindow_list {p : Port} {s : State} {ch : Channel} (h : (s.port p).selChannel.toNat = ch.val)
    (hlist : (s.entry ch).list.length ≤ 8) :
    let w := readRegister s p (BitVec.ofNat 8 0x21)
    field w 0 12 = (s.entry ch).idle.val ∧ field w 12 4 = (s.entry ch).list.length := by
  have hread : readRegister s p (BitVec.ofNat 8 0x21) =
      word [((s.entry ch).idle.val, 0, 12), ((s.entry ch).list.length, 12, 4)] :=
    (read_channelWord h (i := 1) (by decide)).trans (by rw [channelRegisters_eq]; rfl)
  have hlaid : Laid 0 [((s.entry ch).idle.val, 0, 12), ((s.entry ch).list.length, 12, 4)] := by
    simp only [Laid]
    omega
  dsimp only
  rw [hread]
  exact ⟨field_word hlaid (by simp), field_word hlaid (by simp)⟩

/-- The winner's owner and priority, the count of ACTIVE entries and the retry count (R53, R175). -/
theorem channelWindow_winner {p : Port} {s : State} {ch : Channel} (h : (s.port p).selChannel.toNat = ch.val)
    (hactive : (activeHandles s ch).length ≤ 8) (hretry : (s.out ch).retry ≤ 3) :
    let w := readRegister s p (BitVec.ofNat 8 0x23)
    field w 8 4 = (activeHandles s ch).length ∧ field w 12 2 = (s.out ch).retry ∧
      field w 0 4 = ownerCode ((winnerClaim s ch).map (·.owner)) ∧ field w 4 4 = priorityShown (winnerClaim s ch) := by
  have hread : readRegister s p (BitVec.ofNat 8 0x23) = word (winnerFields s ch) :=
    (read_channelWord h (i := 3) (by decide)).trans (by rw [channelRegisters_eq]; rfl)
  have hlaid : Laid 0 (winnerFields s ch) := by
    simp only [winnerFields, Laid, ownerCode_lt, priorityShown_lt, true_and]
    omega
  dsimp only
  rw [hread]
  exact ⟨field_word hlaid (by simp [winnerFields]), field_word hlaid (by simp [winnerFields]),
    field_word hlaid (by simp [winnerFields]), field_word hlaid (by simp [winnerFields])⟩

/-- The pattern and the retry timer, where its register has room for it (R53, R175). -/
theorem channelWindow_retry {p : Port} {s : State} {ch : Channel} (h : (s.port p).selChannel.toNat = ch.val)
    (hunits : retryUnits (s.out ch).fault s.now ≤ 100) :
    let w := readRegister s p (BitVec.ofNat 8 0x24)
    field w 0 8 = (s.entry ch).pattern.code ∧ field w 8 7 = retryUnits (s.out ch).fault s.now := by
  have hread : readRegister s p (BitVec.ofNat 8 0x24) =
      word [((s.entry ch).pattern.code, 0, 8), (retryUnits (s.out ch).fault s.now, 8, 7)] :=
    (read_channelWord h (i := 4) (by decide)).trans (by rw [channelRegisters_eq]; rfl)
  have hlaid : Laid 0 [((s.entry ch).pattern.code, 0, 8), (retryUnits (s.out ch).fault s.now, 8, 7)] := by
    simp only [Laid, Pattern.code_lt, true_and]
    omega
  dsimp only
  rw [hread]
  exact ⟨field_word hlaid (by simp), field_word hlaid (by simp)⟩

/-- The remaining fade and the clean interval, where their register has room for them (R150, R175). -/
theorem channelWindow_intervals {p : Port} {s : State} {ch : Channel} (h : (s.port p).selChannel.toNat = ch.val)
    (hfade : unitsOf 10 (fadeEnds (s.chan ch).fade) s.now ≤ 320) (hclean : unitsOf 100 (s.out ch).cleanEnd s.now ≤ 100) :
    let w := readRegister s p (BitVec.ofNat 8 0x27)
    field w 0 9 = unitsOf 10 (fadeEnds (s.chan ch).fade) s.now ∧ field w 9 7 = unitsOf 100 (s.out ch).cleanEnd s.now := by
  have hread : readRegister s p (BitVec.ofNat 8 0x27) =
      word [(unitsOf 10 (fadeEnds (s.chan ch).fade) s.now, 0, 9), (unitsOf 100 (s.out ch).cleanEnd s.now, 9, 7)] :=
    (read_channelWord h (i := 7) (by decide)).trans (by rw [channelRegisters_eq]; rfl)
  have hlaid : Laid 0 [(unitsOf 10 (fadeEnds (s.chan ch).fade) s.now, 0, 9), (unitsOf 100 (s.out ch).cleanEnd s.now, 9, 7)] := by
    simp only [Laid]
    omega
  dsimp only
  rw [hread]
  exact ⟨field_word hlaid (by simp), field_word hlaid (by simp)⟩

/-- The winner and the levels, each in a register of its own (R53, R150). -/
theorem channelWindow_levels {p : Port} {s : State} {ch : Channel} (h : (s.port p).selChannel.toNat = ch.val) :
    readRegister s p (BitVec.ofNat 8 0x22) = BitVec.ofNat 16 (handleCode (s.entry ch).winner) ∧
      readRegister s p (BitVec.ofNat 8 0x25) = BitVec.ofNat 16 (s.entry ch).target.val ∧
      readRegister s p (BitVec.ofNat 8 0x26) = BitVec.ofNat 16 (fadeLevel (s.chan ch) s.now).val ∧
      readRegister s p (BitVec.ofNat 8 0x28) = BitVec.ofNat 16 (outputLevel s ch).val := by
  have hread {i : Nat} (hi : i < 9) := read_channelWord h hi
  rw [channelRegisters_eq] at hread
  exact ⟨hread (i := 2) (by decide), (hread (i := 5) (by decide)).trans (word_single _ _),
    (hread (i := 6) (by decide)).trans (word_single _ _), (hread (i := 8) (by decide)).trans (word_single _ _)⟩

theorem channelWindow_outside {p : Port} {s : State} (h : 15 < (s.port p).selChannel.toNat) {i : Nat} (hi : i < 9) :
    readRegister s p (BitVec.ofNat 8 (0x20 + i)) = noChannelRegisters.getD i 0 := by
  have hselected : inRange (s.port p).selChannel.toNat 16 = none := inRange_eq_none.mpr h
  rw [read_channel s p hi, channelWords, hselected]

theorem channelWindowShown (p : Port) (s : State) : ChannelWindowShown p s := by
  unfold ChannelWindowShown
  dsimp only
  refine ⟨fun ch h => ?selected, fun h => ?outside⟩
  case selected =>
    obtain ⟨hpolicy, hfade, hshape, hindex, hdefault, hgate⟩ := channelWindow_modulator h
    obtain ⟨henabled, hmanual, hfaulted, hkind, hheld, hpaused⟩ := channelWindow_output h
    obtain ⟨hwinner, htarget, hlevel, houtput⟩ := channelWindow_levels h
    refine ⟨hpolicy, hfade, hshape, hindex, hdefault, hgate, henabled, hmanual, hfaulted, fun k status hf => ?_,
      fun hf => ?_, hheld, hpaused, channelWindow_list h, hwinner, fun hactive hretry => ?winner, channelWindow_retry h,
      htarget, hlevel, channelWindow_intervals h, houtput⟩
    · rw [hkind, hf]
      rfl
    · rw [hkind, hf]
      rfl
    case winner =>
      obtain ⟨hcount, hretries, howner, hpriority⟩ := channelWindow_winner h hactive hretry
      refine ⟨hcount, hretries, fun hnone => ?_, fun x c hx hc => ?_⟩
      · rw [howner, hpriority, winnerClaim, hnone]
        exact ⟨rfl, rfl⟩
      · rw [howner, hpriority, winnerClaim, hx]
        dsimp only
        rw [hc]
        exact ⟨rfl, rfl⟩
  case outside =>
    have hread {i : Nat} (hi : i < 9) := channelWindow_outside h hi
    refine ⟨hread (i := 2) (by decide), hread (i := 3) (by decide), fun n hn => ?_⟩
    have hzero : ∀ i ∈ [0, 1, 4, 5, 6, 7, 8], i < 9 ∧ noChannelRegisters.getD i 0 = 0 := by decide
    obtain ⟨i, hi, rfl⟩ := List.mem_map.mp (show n ∈ [0, 1, 4, 5, 6, 7, 8].map (0x20 + ·) from hn)
    obtain ⟨hlt, hword⟩ := hzero i hi
    exact (hread hlt).trans hword

/-! ### The whole window (R200, R201) -/

theorem reserved_reads_zero {s : State} {p : Port} {offset : Byte}
    (h : 0x1B ≤ offset.toNat ∧ offset.toNat ≤ 0x1F ∨ 0x6E ≤ offset.toNat) : readRegister s p offset = 0 := by
  have hoffset : BitVec.ofNat 8 offset.toNat = offset := BitVec.eq_of_toNat_eq (by simp)
  rcases h with ⟨hlow, hhigh⟩ | hpast
  · rw [← hoffset, read_port s p (by omega), List.getD_eq_default]
    simp [portRegisters, hlow]
  · obtain ⟨i, hi⟩ := Nat.exists_eq_add_of_le (show 0x56 ≤ offset.toNat by omega)
    rw [← hoffset, hi, read_lines s p (by omega), List.getD_eq_default]
    rw [lineRegisters_length]
    omega

/-- A remaining time shows rounded up to whole units. -/
theorem unitsOf_rounds_up {unit : Nat} (ends now : Instant) (h : 0 < unit) :
    @LE.le Nat _ (ends - now) (unit * unitsOf unit (some ends) now) ∧
      @LT.lt Nat _ (unit * unitsOf unit (some ends) now) (ends - now + unit) := by
  have hdown := Nat.mul_div_le (ends - now + (unit - 1)) unit
  have hup := Nat.lt_mul_div_succ (ends - now + (unit - 1)) h
  simp only [unitsOf, unitsLeft]
  rw [Nat.mul_add, Nat.mul_one] at hup
  omega

/-- Settles O12, window by window: a window is its registers in the order of R200, a register is its fields one above
the other, and such a field reads back the value put in it. -/
theorem windowShowsState : Obligations.WindowShowsState := by
  unfold Obligations.WindowShowsState
  refine ⟨fun p s => ⟨portRegistersShown p s, headShown p s, channelWindowShown p s, slotWindowShown p s,
    listWindowShown p s, sceneWindowShown p s, playerWindowShown p s, stageWindowShown p s, linesWindowShown p s,
    fun offset h => reserved_reads_zero h⟩, fun unit ends now hunit _ => ⟨rfl, ?_⟩⟩
  exact unitsOf_rounds_up ends now hunit

end Sys2Proof.Machine

namespace Sys2Proof.Machine

/-! ## The claim lists along a step -/

theorem powerOnState_entry (pins : PowerOnPins) (s : State) (ch : Channel) :
    (powerOnState pins s).entry ch =
      { list := [], policy := .priority, idle := 0, winner := none, target := 0, pattern := .steady } :=
  tget_replicate _ ch

/-- After power-on no record is placed and every list is empty (R25). -/
theorem powerOnState_lists (pins : PowerOnPins) (s : State) : ListsInv (powerOnState pins s) := fun ch => by
  have hlist : ((powerOnState pins s).entry ch).list = [] := by rw [powerOnState_entry]
  have hdead : ∀ h, claimAt (powerOnState pins s) h = none := fun h =>
    claimAt_none.mpr (.inl (by rw [powerOnState_record]))
  exact ⟨fun h => by simp [hlist, hdead], by simp [hlist], by simp [hlist], by simp [hlist]⟩

/-- Every move of the claim pool keeps the claim lists (R28, R29). -/
theorem ClaimMove.lists {s t : State} (h : ClaimMove s t) (hs : ListsInv s) : ListsInv t := by
  cases h with
  | kept h => exact hs.of_eq h.lists h.pool
  | seat slot c free room quota ceiling => exact seat_lists slot c s hs free room
  | free x slot => exact freeRecord_lists x slot s hs
  | alter h c c' live same priority => exact modRecord_lists h c c' s hs live same.channels priority
  | reinsert h c c' live same ceiling => exact reinsert_lists h c c' s hs live same.channels
  | grant p ceiling sceneEdit quota room stored =>
    have hstored := hs.of_eq stored.lists stored.pool
    exact forEach_preserves ListsInv _ _ (fun k u hu => freeRecord_lists _ k u hu) _ hstored
  | powerOn pins => exact powerOnState_lists pins s

/-- Settles O58: every step is a sequence of moves of the claim pool, and each move keeps the claim lists. -/
theorem stepKeepsClaimLists : Obligations.StepKeepsClaimLists := fun _ _ hs hstep =>
  (step_claimMoves hstep).keeps (fun _ _ hm hu => hm.lists hu) hs

end Sys2Proof.Machine

namespace Sys2Proof.Machine

/-! ## Resolution -/

/-! ### The winner among the ACTIVE entries (R38 to R40) -/

theorem foldl_max_le {l : List (Handle × Claim)} {a b : Priority} :
    l.foldl (fun m e => max m e.2.priority) a ≤ b ↔ a ≤ b ∧ ∀ e ∈ l, e.2.priority ≤ b := by
  induction l generalizing a with
  | nil => simp
  | cons e l ih => rw [List.foldl_cons, ih, max_le_iff, List.forall_mem_cons, and_assoc]

theorem topPriority_le {l : List (Handle × Claim)} {b : Priority} :
    topPriority l ≤ b ↔ ∀ e ∈ l, e.2.priority ≤ b := by
  rw [topPriority, foldl_max_le]
  exact and_iff_right (Fin.zero_le b)

theorem le_topPriority {l : List (Handle × Claim)} {e : Handle × Claim} (h : e ∈ l) :
    e.2.priority ≤ topPriority l := topPriority_le.mp le_rfl e h

/-- An entry is of the highest priority present where no entry is of a higher one (R38). -/
theorem priority_eq_top_iff {l : List (Handle × Claim)} {e : Handle × Claim} (h : e ∈ l) :
    e.2.priority = topPriority l ↔ ∀ a ∈ l, a.2.priority ≤ e.2.priority := by
  rw [← topPriority_le]
  exact ⟨fun k => k.ge, fun k => le_antisymm (le_topPriority h) k⟩

/-- Where an entry stands among those that pass a test, and where it stands in the whole list. -/
theorem filter_split_iff {α : Type} {p : α → Bool} {l : List α} {e : α} {P Q : α → Prop} :
    (∃ above below, l.filter p = above ++ e :: below ∧ (∀ a ∈ above, P a) ∧ ∀ b ∈ below, Q b) ↔
      ∃ above below, l = above ++ e :: below ∧ p e = true ∧ (∀ a ∈ above, p a = true → P a) ∧
        ∀ b ∈ below, p b = true → Q b := by
  constructor
  · rintro ⟨above, below, hl, ha, hb⟩
    obtain ⟨l₁, l₂, rfl, rfl, h₂⟩ := List.filter_eq_append_iff.mp hl
    obtain ⟨l₃, l₄, rfl, h₃, he, rfl⟩ := List.filter_eq_cons_iff.mp h₂
    refine ⟨l₁ ++ l₃, l₄, by simp, he, fun a hm hp => ?_, fun b hm hp => hb b (List.mem_filter.mpr ⟨hm, hp⟩)⟩
    rcases List.mem_append.mp hm with hm | hm
    · exact ha a (List.mem_filter.mpr ⟨hm, hp⟩)
    · exact absurd hp (h₃ a hm)
  · rintro ⟨above, below, rfl, he, ha, hb⟩
    refine ⟨above.filter p, below.filter p, by simp [he], fun a hm => ?_, fun b hm => ?_⟩
    · exact ha a (List.mem_filter.mp hm).1 (List.mem_filter.mp hm).2
    · exact hb b (List.mem_filter.mp hm).1 (List.mem_filter.mp hm).2

theorem mem_topClass {l : List (Handle × Claim)} {e : Handle × Claim} :
    e ∈ topClass l ↔ e ∈ l ∧ ∀ a ∈ l, a.2.priority ≤ e.2.priority := by
  rw [topClass, List.mem_filter, beq_iff_eq]
  exact and_congr_right fun h => priority_eq_top_iff h

/-- The head of the highest class, by what stands above and below it (R39). -/
theorem head?_topClass_iff {l : List (Handle × Claim)} {e : Handle × Claim} :
    (topClass l).head? = some e ↔ ∃ above below, l = above ++ e :: below ∧
      (∀ a ∈ above, a.2.priority < e.2.priority) ∧ ∀ b ∈ below, b.2.priority ≤ e.2.priority := by
  rw [topClass, List.head?_filter, List.find?_eq_some_iff_append, beq_iff_eq]
  constructor
  · rintro ⟨htop, above, below, hl, hnot⟩
    have hmem : e ∈ l := hl ▸ by simp
    refine ⟨above, below, hl, fun a ha => ?_, fun b hb => ?_⟩
    · have hne : a.2.priority ≠ topPriority l := by simpa using hnot a ha
      exact htop ▸ lt_of_le_of_ne (le_topPriority (hl ▸ List.mem_append_left _ ha)) hne
    · exact htop ▸ le_topPriority (hl ▸ List.mem_append_right _ (List.mem_cons_of_mem _ hb))
  · rintro ⟨above, below, rfl, ha, hb⟩
    have htop : e.2.priority = topPriority (above ++ e :: below) := by
      refine (priority_eq_top_iff (by simp)).mpr fun x hx => ?_
      rcases List.mem_append.mp hx with hx | hx
      · exact (ha x hx).le
      · rcases List.mem_cons.mp hx with rfl | hx
        · exact le_rfl
        · exact hb x hx
    exact ⟨htop, above, below, rfl, fun a hm => by simpa [← htop] using (ha a hm).ne⟩

theorem brightest_eq_none {level : Claim → Level} {l : List (Handle × Claim)} : brightest level l = none ↔ l = [] := by
  cases l with
  | nil => simp [brightest]
  | cons e l =>
    simp only [brightest, reduceCtorEq, iff_false]
    split
    · simp
    · split_ifs <;> simp

/-- The brightest entry, by what stands above and below it (R40). -/
theorem brightest_eq_some {level : Claim → Level} {l : List (Handle × Claim)} {e : Handle × Claim} :
    brightest level l = some e ↔ ∃ above below, l = above ++ e :: below ∧
      (∀ a ∈ above, level a.2 < level e.2) ∧ ∀ b ∈ below, level b.2 ≤ level e.2 := by
  induction l generalizing e with
  | nil => simp [brightest]
  | cons x l ih =>
    constructor
    · intro h
      simp only [brightest] at h
      split at h
      · next hnone =>
        obtain rfl := Option.some.inj h
        obtain rfl := brightest_eq_none.mp hnone
        exact ⟨[], [], rfl, by simp, by simp⟩
      · next f hf =>
        obtain ⟨above, below, rfl, ha, hb⟩ := ih.mp hf
        split_ifs at h with hlt
        · obtain rfl := Option.some.inj h
          exact ⟨x :: above, below, rfl, List.forall_mem_cons.mpr ⟨hlt, ha⟩, hb⟩
        · obtain rfl := Option.some.inj h
          have hle : level f.2 ≤ level x.2 := not_lt.mp hlt
          refine ⟨[], _, rfl, by simp, List.forall_mem_append.mpr ⟨fun a hm => ((ha a hm).le).trans hle, ?_⟩⟩
          exact List.forall_mem_cons.mpr ⟨hle, fun b hm => (hb b hm).trans hle⟩
    · rintro ⟨above, below, hl, ha, hb⟩
      cases above with
      | nil =>
        obtain ⟨rfl, rfl⟩ := List.cons.inj hl
        simp only [brightest]
        split
        · rfl
        · next f hf =>
          obtain ⟨as, bs, rfl, -, -⟩ := ih.mp hf
          rw [if_neg (not_lt.mpr (hb f (by simp)))]
      | cons a above =>
        obtain ⟨rfl, rfl⟩ := List.cons.inj hl
        obtain ⟨hx, habove⟩ := List.forall_mem_cons.mp ha
        simp only [brightest, ih.mpr ⟨above, below, rfl, habove, hb⟩, hx, if_true]

/-- The brightest entry of the highest class, by what stands above and below it in the whole list (R38, R40). -/
theorem brightest_topClass_iff {level : Claim → Level} {l : List (Handle × Claim)} {e : Handle × Claim} :
    brightest level (topClass l) = some e ↔ ∃ above below, l = above ++ e :: below ∧
      (∀ a ∈ above ++ below, a.2.priority ≤ e.2.priority) ∧
      (∀ a ∈ above, a.2.priority = e.2.priority → level a.2 < level e.2) ∧
      ∀ b ∈ below, b.2.priority = e.2.priority → level b.2 ≤ level e.2 := by
  rw [brightest_eq_some, topClass, filter_split_iff]
  refine exists_congr fun above => exists_congr fun below => and_congr_right fun hl => ?_
  have hmem : e ∈ l := hl ▸ by simp
  have htop : (e.2.priority == topPriority l) = true ↔ ∀ a ∈ above ++ below, a.2.priority ≤ e.2.priority := by
    rw [beq_iff_eq, priority_eq_top_iff hmem, hl]
    simp only [List.forall_mem_append, List.forall_mem_cons, le_refl, true_and]
  rw [← htop]
  refine and_congr_right fun he => ?_
  simp only [beq_iff_eq] at he ⊢
  rw [← he]

/-- A channel has no winner where it has no ACTIVE entry (R41). -/
theorem chooseWinner_eq_none {s : State} {ch : Channel} : chooseWinner s ch = none ↔ activeEntries s ch = [] := by
  have htop : topClass (activeEntries s ch) = [] ↔ activeEntries s ch = [] := by
    refine ⟨fun h => ?_, fun h => by rw [h]; rfl⟩
    by_contra hne
    obtain ⟨e, he, hmax⟩ := Multiset.exists_max_image (fun e : Handle × Claim => e.2.priority)
      (s := Multiset.ofList (activeEntries s ch)) (by simpa using hne)
    exact absurd (mem_topClass.mpr ⟨by simpa using he, by simpa using hmax⟩) (by simp [h])
  rw [← htop, chooseWinner]
  split
  · exact List.head?_eq_none_iff
  · exact brightest_eq_none

/-- Settles O15. -/
theorem policyChoosesWinner : Obligations.PolicyChoosesWinner := by
  refine ⟨activeEntries_areActive, fun s ch hpolicy e => ?_, fun s ch hpolicy e => ?_⟩
  · simp only [chooseWinner, hpolicy]
    exact head?_topClass_iff
  · simp only [chooseWinner, hpolicy]
    exact brightest_topClass_iff

/-! ### What the resolver stores (R41, R42) -/

theorem resolveSet_entry_of_inSet (f : Option Handle) (e : Bool) {cs : ChannelSet} (s : State) {ch : Channel}
    (h : inSet cs ch = true) : (resolveSet f e cs s).entry ch = resolvedEntry s ch := by
  rw [resolveSet_entry, if_pos (mem_members.mpr h)]

/-- Settles O16. -/
theorem targetFollowsWinner : Obligations.TargetFollowsWinner := by
  intro s cs ch hin
  dsimp only
  rw [resolveSet_entry_of_inSet none true s hin]
  refine ⟨activeEntries_areActive s ch, fun hnone => ?_, fun hsome => ?_⟩
  · have hwinner := chooseWinner_eq_none.mpr hnone
    simp [resolvedEntry, hwinner, handleOfWinner, targetLevelOf, targetPatternOf]
  · obtain ⟨⟨h, c⟩, hwinner⟩ := Option.ne_none_iff_exists'.mp (mt chooseWinner_eq_none.mp hsome)
    refine ⟨h, c, List.mem_of_mem_filter (chooseWinner_mem hwinner), hwinner, ?_, ?_, fun v hv => ?_,
      fun n v hn hv => ?_, fun n hn => ?_⟩
    · simp [resolvedEntry, hwinner, handleOfWinner]
    · simp [resolvedEntry, hwinner, targetPatternOf]
    · simp [resolvedEntry, hwinner, targetLevelOf, effectiveLevel, hv]
    · simp [resolvedEntry, hwinner, targetLevelOf, effectiveLevel, hn, hv]
    · simp [resolvedEntry, hwinner, targetLevelOf, effectiveLevel, hn]

/-! ### What the modulator is handed (R44 to R47, R129, R132) -/

/-- A level handed to the modulator, by the fade state of the channel (R129, R132). -/
theorem redirect_cases (level : Level) (pattern : Pattern) (d : Nat) (now : Instant) (m : ModChannel) :
    (m.fade = .parked → redirect level pattern d now m = { m with target := level, pattern := pattern }) ∧
    (m.fade ≠ .parked → redirect level pattern d now m = { m with
      target := level, pattern := pattern,
      fade := if d = 0 ∨ fadeLevel m now = level then .settled
        else .fading (fadeLevel m now) d now m.defaultShape }) := by
  refine ⟨fun h => ?_, fun h => ?_⟩
  · simp only [redirect, h]
  · unfold redirect
    split
    · next hparked => exact absurd hparked h
    · rfl

/-- Settles O17. -/
theorem resolutionHandsFade : Obligations.ResolutionHandsFade := by
  refine ⟨fun s cs ch hin => ?_, redirect_cases, by decide⟩
  dsimp only
  have hhanded := resolveSet_handed none true cs s hin
  have hchoice := chooseWinner_congr (resolveSet_sources none true cs ch s)
  generalize resolveSet none true cs s = t at hhanded hchoice ⊢
  rw [hhanded]
  refine ⟨fun hw => ⟨fun h c hwin => ?_, fun hwin => ?_⟩,
    fun hw hv => ⟨fun h c hwin => ⟨fun hsource => ?_, fun hsource => ?_⟩, fun hwin => ?_⟩, fun hw hv => ?_⟩
  · simp [handedTo, hchoice, hwin, hw]
  · simp [handedTo, hchoice, hwin, hw]
  · cases hs : c.source with
    | fixed v => simp [handedTo, hchoice, hwin, hw, hv, hs]
    | scene n => simp [handedTo, hchoice, hwin, hw, hv, hs]
    | player n => exact absurd hs (hsource n)
  · obtain ⟨n, hs⟩ := hsource
    simp [handedTo, hchoice, hwin, hw, hv, hs]
  · simp [handedTo, hchoice, hwin, hv]
  · cases hwin : chooseWinner s ch with
    | none => simp [handedTo, hchoice, hwin, hw, hv]
    | some e => simp [handedTo, hchoice, hwin, hw, hv]

/-! ### The WINNER event (R43, R48) -/

/-- Settles O18. -/
theorem winnerChangeIsAnnounced : Obligations.WinnerChangeIsAnnounced := by
  intro s ch p
  dsimp only
  have hentry : ((resolveChannel none true ch s).entry ch).winner = handleOfWinner (chooseWinner s ch) := by
    rw [resolveChannel_entry_self]
    rfl
  rw [hentry, resolveChannel_port, fireWatches_port, any_watchMatches]
  refine ⟨fun hsame => if_neg (not_not.mpr hsame), fun hchanged hwatch => ⟨fun hwin => ?_, fun h c hwin => ?_⟩,
    fun hwatch => ?_⟩
  · rw [if_pos hchanged, if_pos hwatch, hwin]
    rfl
  · rw [if_pos hchanged, if_pos hwatch, hwin]
    rfl
  · rw [hwatch]
    simp

end Sys2Proof.Machine

namespace Sys2Proof.Machine

/-! ## A taking, up to its resolution, its end and its answer -/

/-- What a taking has done before it redoes resolution: some notices are queued at each port and the watch table stands
as given, and nothing that resolution compares with the past has moved. -/
structure Readied (ns : Port → List Notice) (ws : WatchNo → Option Watch) (s u : State) : Prop where
  winner : ∀ ch, (u.entry ch).winner = (s.entry ch).winner
  target : ∀ ch, (u.entry ch).target = (s.entry ch).target
  pattern : ∀ ch, (u.entry ch).pattern = (s.entry ch).pattern
  chan : ∀ ch, u.chan ch = s.chan ch
  output : u.output = s.output
  now : u.now = s.now
  queued : ∀ q, Queued (ns q) (s.port q) (u.port q)
  mask : ∀ q, (u.port q).kindMask = (s.port q).kindMask
  watchers : ∀ q, watchesOf u q .winner = watchesOf s q .winner
  watch : u.watch = ws
  results : SameResults s u

/-- A taking that has redone resolution on a set, before the stage moves: after its own notices each port has the WINNER
notices, and the watches they match are spent (R43 to R48). -/
structure Reresolved (ns : Port → List Notice) (ws : WatchNo → Option Watch) (cs : ChannelSet) (s v : State) : Prop where
  redo : Redo none cs s v
  queued : ∀ q, Queued (ns q ++ winnersTold q cs s v) (s.port q) (v.port q)
  mask : ∀ q, (v.port q).kindMask = (s.port q).kindMask
  spent : ∀ w, v.watch w = spentBy .winner (changedWinners cs s v) (ws w)
  output : v.output = s.output
  now : v.now = s.now
  results : SameResults s v

/-- A taking that has redone resolution on a set and come to its end, but for the stage (R43 to R48). -/
structure Closed (ns : Port → List Notice) (ws : WatchNo → Option Watch) (cs : ChannelSet) (s t : State) : Prop where
  redone : Redone cs s t
  announced : ∀ q, Announced q (ns q) cs s t
  spent : ∀ w, t.watch w = spentBy .winner (changedWinners cs s t) (ws w)
  results : SameResults s t

/-- Such a taking at whose end the stage follows (R156, R157, R159). -/
structure Settled (ns : Port → List Notice) (ws : WatchNo → Option Watch) (cs : ChannelSet) (s t : State) : Prop
    extends Closed ns ws cs s t where
  follows : StageFollows s t

/-- Such a taking with the answer of its command (R191, R192). -/
structure Answered (p : Port) (hd : Option Handle) (x : Nat) (ns : Port → List Notice) (ws : WatchNo → Option Watch)
    (cs : ChannelSet) (s t : State) : Prop where
  redone : Redone cs s t
  announced : ∀ q, Announced q (ns q) cs s t
  spent : ∀ w, t.watch w = spentBy .winner (changedWinners cs s t) (ws w)
  follows : StageFollows s t
  accepted : Accepted p hd x s t
  others : OtherResultsKept p s t

/-! ### Up to resolution -/

/-- An update of what neither the resolver's outcomes, the modulator, the stage, the ports nor the watches hold. -/
theorem Readied.of_eq {s u : State} (winner : ∀ ch, (u.entry ch).winner = (s.entry ch).winner)
    (target : ∀ ch, (u.entry ch).target = (s.entry ch).target)
    (pattern : ∀ ch, (u.entry ch).pattern = (s.entry ch).pattern) (modulator : u.modulator = s.modulator)
    (output : u.output = s.output) (now : u.now = s.now) (ports : u.ports = s.ports) (watches : u.watches = s.watches) :
    Readied (fun _ => []) s.watch s u where
  winner := winner
  target := target
  pattern := pattern
  chan := fun ch => by simp only [State.chan, modulator]
  output := output
  now := now
  queued := fun q => .of_eq (by simp only [State.port, ports]) (by simp only [State.port, ports])
  mask := fun q => by simp only [State.port, ports]
  watchers := fun q => watchesOf_congr watches q _
  watch := funext fun w => by simp only [State.watch, watches]
  results := .of_ports ports

theorem Readied.trans {ns ms os : Port → List Notice} {ws ws' : WatchNo → Option Watch} {s b u : State}
    (h : Readied ns ws s b) (k : Readied ms ws' b u) (hos : ∀ q, ns q ++ ms q = os q) : Readied os ws' s u where
  winner := fun ch => (k.winner ch).trans (h.winner ch)
  target := fun ch => (k.target ch).trans (h.target ch)
  pattern := fun ch => (k.pattern ch).trans (h.pattern ch)
  chan := fun ch => (k.chan ch).trans (h.chan ch)
  output := k.output.trans h.output
  now := k.now.trans h.now
  queued := fun q => hos q ▸ (h.queued q).trans (k.queued q) (h.mask q)
  mask := fun q => (k.mask q).trans (h.mask q)
  watchers := fun q => (k.watchers q).trans (h.watchers q)
  watch := k.watch
  results := h.results.trans k.results

theorem modPlayer_readied (n : PlayerNo) (f : Player → Player) (s : State) :
    Readied (fun _ => []) s.watch s (s.modPlayer n f) :=
  .of_eq (fun _ => rfl) (fun _ => rfl) (fun _ => rfl) rfl rfl rfl rfl rfl

theorem modLine_readied (l : Line) (f : LineState → LineState) (s : State) :
    Readied (fun _ => []) s.watch s (s.modLine l f) :=
  .of_eq (fun _ => rfl) (fun _ => rfl) (fun _ => rfl) rfl rfl rfl rfl rfl

theorem offer_readied (p : Port) (n : Notice) (s : State) :
    Readied (fun q => if q = p then [n] else []) s.watch s (offer p n s) where
  winner := fun _ => rfl
  target := fun _ => rfl
  pattern := fun _ => rfl
  chan := fun _ => rfl
  output := rfl
  now := rfl
  queued := fun q => by
    rw [port_offer]
    split
    · next h => exact h ▸ Queued.offer n _
    · exact Queued.refl _
  mask := fun q => by
    rw [port_offer]
    split
    · next h => exact h ▸ offerTo_kindMask n _
    · rfl
  watchers := fun _ => rfl
  watch := rfl
  results := offer_results p n s

theorem seat_readied (slot : Slot) (c : Claim) (s : State) : Readied (fun _ => []) s.watch s (seat slot c s) :=
  .of_eq (fun ch => (seat_keeps slot c s ch).1) (fun ch => (seat_keeps slot c s ch).2.1)
    (fun ch => (seat_keeps slot c s ch).2.2) (by simp) (by simp) (by simp) (by simp) (by simp)

/-- The freeings of one taking, whose cause has notices (R20, R21, R23). -/
theorem freeAll_readied {x : FreeCause} {r : RemovalReason} {d : PlayerDetail} (hr : x.reason = some r)
    (hd : x.playerDetail = some d) {l : List Slot} (hl : l.Nodup) (s : State) :
    Readied (fun q => removalsTold q r d l s) s.watch s (forEach l (freeRecord x) s) where
  winner := fun ch => (freeAll_entry_keeps x l s ch).1
  target := fun ch => (freeAll_entry_keeps x l s ch).2.1
  pattern := fun ch => (freeAll_entry_keeps x l s ch).2.2
  chan := fun ch => forEach_keeps (fun s => s.chan ch) l _ (fun k s => by simp [State.chan]) s
  output := forEach_keeps (fun s => s.output) l _ (fun k s => by simp) s
  now := forEach_keeps (fun s => s.now) l _ (fun k s => by simp) s
  queued := fun q => by
    rw [freeAll_queued hr hd l hl]
    exact ⟨rfl, rfl⟩
  mask := fun q => by rw [freeAll_queued hr hd l hl, offerEach_kindMask]
  watchers := fun q => watchesOf_congr (forEach_keeps (fun s => s.watches) l _ (fun k s => by simp) s) q _
  watch := forEach_keeps (fun s => s.watch) l _ (fun k s => funext fun w => by simp [State.watch]) s
  results := forEach_results _ _ (freeRecord_results x) s

/-- The freeings of one taking, whose cause has no notice (R19, R100, R101, R121). -/
theorem freeAll_readied_silent {x : FreeCause} (hr : x.reason = none) (hd : x.playerDetail = none) (l : List Slot)
    (s : State) : Readied (fun _ => []) s.watch s (forEach l (freeRecord x) s) :=
  .of_eq (fun ch => (freeAll_entry_keeps x l s ch).1) (fun ch => (freeAll_entry_keeps x l s ch).2.1)
    (fun ch => (freeAll_entry_keeps x l s ch).2.2) (forEach_keeps (fun s => s.modulator) l _ (fun k s => by simp) s)
    (forEach_keeps (fun s => s.output) l _ (fun k s => by simp) s)
    (forEach_keeps (fun s => s.now) l _ (fun k s => by simp) s)
    (forEach_keeps (fun s => s.ports) l _ (fun k s => freeRecord_silent hr hd k s) s)
    (forEach_keeps (fun s => s.watches) l _ (fun k s => by simp) s)

/-! ### Resolution, and what may follow it -/

theorem Readied.resolve {ns : Port → List Notice} {ws : WatchNo → Option Watch} {s u : State} (h : Readied ns ws s u)
    (cs : ChannelSet) : Reresolved ns ws cs s (resolveSet none true cs u) where
  redo := resolveSet_redo none true cs h.winner h.target h.pattern h.chan (congrArg OutputStage.stage h.output) h.now
  queued := fun q => by
    have hqueued := (h.queued q).trans (resolveSet_queued none cs u q).1 (h.mask q)
    have htold : winnersTold q cs u (resolveSet none true cs u) = winnersTold q cs s (resolveSet none true cs u) := by
      simp only [winnersTold, changedWinners, told, h.watchers, h.winner]
    exact htold ▸ hqueued
  mask := fun q => (resolveSet_queued none cs u q).2.1.trans (h.mask q)
  spent := fun w => by
    rw [resolveSet_spends none cs u w, h.watch]
    simp only [changedWinners, h.winner]
  output := (resolveSet_output none true cs u).trans h.output
  now := (resolveSet_now none true cs u).trans h.now
  results := h.results.trans (resolveSet_results none true cs u)

theorem resolveSet_zero (f : Option Handle) (e : Bool) (s : State) : resolveSet f e 0 s = s := rfl

/-- A taking that redoes no resolution. -/
theorem Readied.unresolved {ns : Port → List Notice} {ws : WatchNo → Option Watch} {s u : State} (h : Readied ns ws s u) :
    Reresolved ns ws 0 s u := h.resolve 0

/-- What the notices and the watches of a resolution are read from. -/
theorem Reresolved.beside {ns : Port → List Notice} {ws : WatchNo → Option Watch} {cs : ChannelSet} {s v w : State}
    (h : Reresolved ns ws cs s v) (redo : Redo none cs s w) (hpool : w.pool = v.pool) (hresolver : w.resolver = v.resolver)
    (hports : w.ports = v.ports) (hwatches : w.watches = v.watches) (houtput : w.output = v.output)
    (hnow : w.now = v.now) : Reresolved ns ws cs s w := by
  have hport : w.port = v.port := by funext q; simp only [State.port, hports]
  have hwatch : w.watch = v.watch := by funext i; simp only [State.watch, hwatches]
  have hentry : w.entry = v.entry := by funext ch; simp only [State.entry, hresolver]
  have hchanged : changedWinners cs s w = changedWinners cs s v := by simp only [changedWinners, hentry]
  have htold : ∀ q, winnersTold q cs s w = winnersTold q cs s v := fun q => by
    simp only [winnersTold, hchanged, shownWinner, hentry, claimAt_congr hpool]
  exact
    { redo := redo
      queued := fun q => by rw [htold, hport]; exact h.queued q
      mask := fun q => by rw [hport]; exact h.mask q
      spent := fun i => by rw [hchanged, hwatch]; exact h.spent i
      output := houtput.trans h.output
      now := hnow.trans h.now
      results := h.results.trans (.of_ports hports) }

/-- A line's own fields are no source of resolution. -/
theorem Reresolved.modLine {ns : Port → List Notice} {ws : WatchNo → Option Watch} {cs : ChannelSet} {s v : State}
    (h : Reresolved ns ws cs s v) (l : Line) (f : LineState → LineState) : Reresolved ns ws cs s (v.modLine l f) :=
  h.beside (h.redo.congr rfl rfl rfl rfl rfl rfl) rfl rfl rfl rfl rfl rfl

/-- A player is read by resolution for its level alone. -/
theorem Reresolved.modPlayer {ns : Port → List Notice} {ws : WatchNo → Option Watch} {cs : ChannelSet} {s v : State}
    (h : Reresolved ns ws cs s v) (n : PlayerNo) (f : Player → Player) (hf : (f (v.player n)).level = (v.player n).level) :
    Reresolved ns ws cs s (v.modPlayer n f) := by
  have hlevel (m : PlayerNo) : ((v.modPlayer n f).player m).level = (v.player m).level := by
    rw [State.player_modPlayer]
    split
    · next hm => rw [hm, hf]
    · rfl
  refine h.beside (h.redo.withPorts v.ports (v.modPlayer n f).players fun ch _ e _ => ?_) rfl rfl rfl rfl rfl rfl
  unfold effectiveLevel
  cases e.2.source with
  | fixed x => rfl
  | scene x => rfl
  | player m => exact hlevel m

/-! ### The end of the taking -/

/-- A taking that ends with its resolution. -/
theorem Reresolved.closed {ns : Port → List Notice} {ws : WatchNo → Option Watch} {cs : ChannelSet} {s v : State}
    (h : Reresolved ns ws cs s v) : Closed ns ws cs s v where
  redone := h.redo.redone
  announced := fun q => by
    have hstage : stageTold s v = [] := by rw [stageTold, if_pos (congrArg OutputStage.stage h.output)]
    rw [Announced, hstage, List.append_nil]
    exact h.queued q
  spent := h.spent
  results := h.results

theorem Reresolved.settle {ns : Port → List Notice} {ws : WatchNo → Option Watch} {cs : ChannelSet} {s v : State}
    (h : Reresolved ns ws cs s v) : Settled ns ws cs s (settle .demand v) where
  redone := h.redo.settle .demand
  announced := fun q => by
    have hqueued := (h.queued q).trans (settle_queued .demand v q) (h.mask q)
    have htold : winnersTold q cs s (Machine.settle .demand v) = winnersTold q cs s v := by
      simp only [winnersTold, changedWinners, shownWinner, settle_entry, claimAt_congr (settle_pool .demand v)]
    have hstage : stageTold s (Machine.settle .demand v) = stageTold v (Machine.settle .demand v) := by
      simp only [stageTold, h.output]
    rw [Announced, htold, hstage]
    exact hqueued
  spent := fun w => by
    rw [settle_watch, h.spent w]
    simp only [changedWinners, settle_entry]
  follows := settle_follows h.output h.now
  results := h.results.trans (settle_results .demand v)

theorem Settled.answered {ns : Port → List Notice} {ws : WatchNo → Option Watch} {cs : ChannelSet} {s t : State}
    (h : Settled ns ws cs s t) (p : Port) (hd : Option Handle) (x : Nat) :
    Answered p hd x ns ws cs s (acceptedState p hd x t) where
  redone := h.redone.accepted p hd x
  announced := fun q => (h.announced q).accepted p hd x
  spent := h.spent
  follows := h.follows.accepted p hd x
  accepted := acceptedState_accepted h.results
  others := acceptedState_others h.results

/-! ### Freeings from a state that stands beside -/

/-- The freeings of one taking, from and to states that differ from the given ones in nothing that a freeing names. -/
theorem freed_of_frees {x : FreeCause} {l : List Slot} (hl : l.Nodup) {s b t : State} (hs : ListsInv s)
    (hpool : b.pool = s.pool) (hresolver : b.resolver = s.resolver) (haccess : b.access = s.access)
    (hscenes : b.scenes = s.scenes) (tpool : t.pool = (freeRecords x true l b).pool)
    (tresolver : t.resolver = (freeRecords x true l b).resolver) (taccess : t.access = (freeRecords x true l b).access)
    (tscenes : t.scenes = (freeRecords x true l b).scenes) (redone : Redone (coveredBy s l) s t) (kept : Kept s t) :
    Freed l s t := by
  have hrecord : b.record = s.record := by funext i; simp only [State.record, hpool]
  have hentry : b.entry = s.entry := by funext ch; simp only [State.entry, hresolver]
  have hright : b.right = s.right := by funext q; simp only [State.right, haccess]
  have hscene : b.scene = s.scene := by funext n; simp only [State.scene, hscenes]
  have trecord : t.record = (freeRecords x true l b).record := by funext i; simp only [State.record, tpool]
  have tentry : t.entry = (freeRecords x true l b).entry := by funext ch; simp only [State.entry, tresolver]
  have tright : t.right = (freeRecords x true l b).right := by funext q; simp only [State.right, taccess]
  have tscene : t.scene = (freeRecords x true l b).scene := by funext n; simp only [State.scene, tscenes]
  have hpasses (f : Claim → Bool) : slotPasses b f = slotPasses s f := by funext i; simp only [slotPasses, hrecord]
  have h := freeRecords_freed x l hl (hs.of_eq (fun ch => congrFun hentry ch ▸ rfl) hpool) .demand
  refine ⟨fun i => ?_, fun ch => ?_, fun q => ?_, fun n => ?_, fun n => ?_, redone, kept⟩
  · have := h.record i
    rwa [settle_record, ← trecord, hrecord] at this
  · have := h.lists ch
    rwa [settle_entry, ← tentry, hentry] at this
  · have := h.held q
    rwa [settle_right, ← tright, hright, hpasses] at this
  · have := h.inUse n
    rwa [settle_scene, ← tscene, hscene, hpasses] at this
  · have := h.levels n
    rwa [settle_scene, ← tscene, hscene] at this

theorem coveredBy_congr {s b : State} (h : b.pool = s.pool) (l : List Slot) : coveredBy b l = coveredBy s l := by
  simp only [coveredBy, State.record, h]

end Sys2Proof.Machine

namespace Sys2Proof.Machine

/-! ## CHANNEL_POLICY (R50, R51) -/

/-- Policy and idle level of every channel of a set, before resolution. -/
def policyStored (cs : ChannelSet) (policy : Policy) (idle : Level) (s : State) : State :=
  forEach (members cs) (fun ch s => s.modEntry ch fun e => { e with policy := policy, idle := idle }) s

theorem setPolicy_eq (cs : ChannelSet) (policy : Policy) (idle : Level) (s : State) :
    setPolicy cs policy idle s = resolveSet none true cs (policyStored cs policy idle s) := rfl

theorem policyStored_frame (cs : ChannelSet) (policy : Policy) (idle : Level) (s : State) :
    policyStored cs policy idle s = { s with resolver := (policyStored cs policy idle s).resolver } :=
  forEach_preserves (fun u => u = { s with resolver := u.resolver }) _ _ (fun _ _ h => by rw [h]; rfl) s rfl

theorem policyStored_entry (cs : ChannelSet) (policy : Policy) (idle : Level) (s : State) (ch : Channel) :
    (policyStored cs policy idle s).entry ch =
      if inSet cs ch = true then { s.entry ch with policy := policy, idle := idle } else s.entry ch := by
  rw [policyStored, forEach_at State.entry _ (fun ch s => { s.entry ch with policy := policy, idle := idle })
    (fun i s => by rw [State.entry_modEntry, if_pos rfl]) (fun i j s hj => by rw [State.entry_modEntry, if_neg hj])
    (fun i j s hj => by simp only [State.entry_modEntry, if_neg hj]) _ (nodup_members cs)]
  simp only [mem_members]

theorem policyStored_readied (cs : ChannelSet) (policy : Policy) (idle : Level) (s : State) :
    Readied (fun _ => []) s.watch s (policyStored cs policy idle s) := by
  have hframe := policyStored_frame cs policy idle s
  refine .of_eq (fun ch => ?_) (fun ch => ?_) (fun ch => ?_) (by rw [hframe]) (by rw [hframe])
    (by rw [hframe]) (by rw [hframe]) (by rw [hframe]) <;>
  · rw [policyStored_entry]
    split <;> rfl

/-- A taking that has stored the policies keeps what no field of the resolver is. -/
theorem policyStored_kept {cs : ChannelSet} {policy : Policy} {idle : Level} {s t : State}
    (h : Kept (policyStored cs policy idle s) t) : Kept { s with resolver := t.resolver } t := by
  rw [policyStored_frame] at h
  exact { h with policy := fun _ => rfl, idle := fun _ => rfl }

theorem winnerChanges_congr {s u t : State} {cs : ChannelSet} (h : ∀ ch, u.entry ch = t.entry ch) :
    winnerChanges s u cs = winnerChanges s t cs := by
  simp only [winnerChanges, h]

theorem channelPolicyBody_refused {s : State} {p : Port} (h : arg s p 0 = 0 ∨ 4095 < argNat s p 1 ∨ 1 < argNat s p 2) :
    channelPolicyBody p s = refuse .badArgument 0 s := by
  unfold channelPolicyBody
  split
  · next policy idle hpolicy hidle =>
    rcases h with hzero | hlevel | hcode
    · rw [if_pos hzero]
    · rw [inRange_eq_none.mpr hlevel] at hidle
      cases hidle
    · rw [policyOf, twoValued_eq_none.mpr hcode] at hpolicy
      cases hpolicy
  · rfl

theorem channelPolicyBody_done {s : State} {p : Port} {policy : Policy} {idle : Level} (hset : arg s p 0 ≠ 0)
    (hidle : argNat s p 1 = idle.val) (hpolicy : policyOf (argNat s p 2) = some policy) :
    channelPolicyBody p s = done none (winnerChanges s (setPolicy (arg s p 0) policy idle s) (arg s p 0))
      (settle .demand (setPolicy (arg s p 0) policy idle s)) := by
  unfold channelPolicyBody
  simp only [hpolicy, inRange_eq_some.mpr hidle, if_neg hset]

/-- Settles O26: the policies stored, then one taking of resolution on the set. -/
theorem channelPolicySetsAndResolves : Obligations.ChannelPolicySetsAndResolves := by
  intro p s htaken
  refine ⟨fun h => congrArg Host.Outcome.next (takeCommand_refused htaken (channelPolicyBody_refused h) (by decide)),
    fun policy idle hset hidle hpolicy => ?_⟩
  set b := policyStored (arg s p 0) policy idle s
  have hanswer := ((policyStored_readied (arg s p 0) policy idle s).resolve (arg s p 0)).settle.answered p none
    (winnerChanges s (setPolicy (arg s p 0) policy idle s) (arg s p 0))
  have hkept := ((resolveSet_kept none true (arg s p 0) b).trans (settle_kept .demand _)).trans
    (acceptedState_kept p none (winnerChanges s (setPolicy (arg s p 0) policy idle s) (arg s p 0)) _)
  have hframe := policyStored_frame (arg s p 0) policy idle s
  refine ⟨_, congrArg Host.Outcome.next (takeCommand_done htaken (channelPolicyBody_done hset hidle hpolicy)),
    fun ch hin => ?_, fun ch hout => ?_, fun ch => ?_, hanswer.redone, hanswer.announced, hanswer.spent, hanswer.follows,
    ?_, hanswer.others, policyStored_kept hkept, ?_, ?_, ?_, ?_, ?_⟩
  · exact ⟨(hkept.policy ch).trans (by rw [policyStored_entry, if_pos hin]),
      (hkept.idle ch).trans (by rw [policyStored_entry, if_pos hin])⟩
  · have hentry : b.entry ch = s.entry ch := (policyStored_entry (arg s p 0) policy idle s ch).trans (if_neg (by simp [hout]))
    exact ⟨(hkept.policy ch).trans (by rw [hentry]), (hkept.idle ch).trans (by rw [hentry])⟩
  · rw [acceptedState_entry, settle_entry, setPolicy_eq, resolveSet_list, policyStored_entry]
    split <;> rfl
  · rw [winnerChanges_congr (t := setPolicy (arg s p 0) policy idle s) fun ch => by simp]
    exact hanswer.accepted
  all_goals simp only [acceptedState_pool, acceptedState_access, acceptedState_scenes, acceptedState_players,
    acceptedState_lines, settle_pool, settle_access, settle_scenes, settle_players, settle_lines, setPolicy_eq,
    resolveSet_pool, resolveSet_access, resolveSet_scenes, resolveSet_players, resolveSet_lines]; rw [hframe]

end Sys2Proof.Machine

namespace Sys2Proof.Machine

/-! ## PRIV_SET (R194) -/

/-- The access table with a port's new values. -/
def rightsStored (p : Port) (ceiling : Priority) (sceneEdit : Bool) (quota : Fin 49) (s : State) : State :=
  s.modRight p fun r => { r with ceiling := ceiling, sceneEdit := sceneEdit, quota := quota }

/-- The new values, and the ACCESS notice where the ceiling changes. -/
def rightsTold (p : Port) (ceiling : Priority) (sceneEdit : Bool) (quota : Fin 49) (s : State) : State :=
  if ceiling ≠ (s.right p).ceiling then offer p (.access p .ceilingChanged) (rightsStored p ceiling sceneEdit quota s)
  else rightsStored p ceiling sceneEdit quota s

theorem applyPrivSet_eq (p : Port) (ceiling : Priority) (sceneEdit : Bool) (quota : Fin 49) (s : State) :
    applyPrivSet p ceiling sceneEdit quota s =
      if cascadeSlots p ceiling s = [] then rightsTold p ceiling sceneEdit quota s
      else settle .demand
        (freeRecords .ceilingCascade true (cascadeSlots p ceiling s) (rightsTold p ceiling sceneEdit quota s)) := rfl

/-- The cascade frees the port's records above the new ceiling: where the ceiling does not fall there are none. -/
theorem mem_cascadeSlots {p : Port} {ceiling : Priority} {s : State} (hs : CeilingsHold s) {x : Slot} :
    x ∈ cascadeSlots p ceiling s ↔ ∃ c, (s.record x).claim = some c ∧ c.owner = .port p ∧ ceiling < c.priority := by
  unfold cascadeSlots
  split_ifs with hfalls
  · simp only [aboveCeiling, mem_slotsWhere, Bool.and_eq_true, ownedBy, beq_iff_eq, decide_eq_true_eq]
  · simp only [List.not_mem_nil, false_iff]
    rintro ⟨c, hc, howner, habove⟩
    exact hfalls (habove.trans_le (hs x c p hc howner))

theorem pairwise_cascadeSlots (p : Port) (ceiling : Priority) (s : State) :
    (cascadeSlots p ceiling s).Pairwise fun x y => x < y := by
  unfold cascadeSlots
  split_ifs
  · exact pairwise_slotsWhere s _
  · exact .nil

/-- The notices of a PRIV_SET: the ACCESS notice where the ceiling changes, then those of the cascade (R194). -/
def privSetTold (p : Port) (ceiling : Priority) (l : List Slot) (s : State) (q : Port) : List Notice :=
  (if q = p ∧ ceiling ≠ (s.right p).ceiling then [.access p .ceilingChanged] else []) ++
    removalsTold q .ceiling .aborted l s

/-- What the storing leaves for the cascade. -/
theorem rightsTold_frame (p : Port) (ceiling : Priority) (sceneEdit : Bool) (quota : Fin 49) (s : State) :
    rightsTold p ceiling sceneEdit quota s =
      { rightsStored p ceiling sceneEdit quota s with ports := (rightsTold p ceiling sceneEdit quota s).ports } := by
  unfold rightsTold
  split_ifs <;> rfl

theorem rightsTold_readied (p : Port) (ceiling : Priority) (sceneEdit : Bool) (quota : Fin 49) (s : State) :
    Readied (fun q => if q = p ∧ ceiling ≠ (s.right p).ceiling then [.access p .ceilingChanged] else []) s.watch s
      (rightsTold p ceiling sceneEdit quota s) := by
  have hstored : Readied (fun _ => []) s.watch s (rightsStored p ceiling sceneEdit quota s) :=
    .of_eq (fun _ => rfl) (fun _ => rfl) (fun _ => rfl) rfl rfl rfl rfl rfl
  unfold rightsTold
  split_ifs with hchanged
  · have hoffer : Readied (fun q => if q = p then [.access p .ceilingChanged] else []) s.watch
        (rightsStored p ceiling sceneEdit quota s)
        (offer p (.access p .ceilingChanged) (rightsStored p ceiling sceneEdit quota s)) :=
      offer_readied p _ (rightsStored p ceiling sceneEdit quota s)
    exact hstored.trans hoffer fun q => by simp only [List.nil_append, hchanged, ne_eq, not_false_eq_true, and_true]
  · simpa only [hchanged, and_false, if_false] using hstored

/-- PRIV_SET up to the resolution of its cascade: the ACCESS notice, then the notices of the freeings (R194). -/
theorem cascade_readied {p : Port} {ceiling : Priority} {sceneEdit : Bool} {quota : Fin 49} {l : List Slot}
    (hl : l.Nodup) (s : State) :
    Readied (privSetTold p ceiling l s) s.watch s
      (forEach l (freeRecord .ceilingCascade) (rightsTold p ceiling sceneEdit quota s)) := by
  have hstored := rightsTold_readied p ceiling sceneEdit quota s
  have hframe := rightsTold_frame p ceiling sceneEdit quota s
  have hfrees := freeAll_readied (x := .ceilingCascade) rfl rfl hl (rightsTold p ceiling sceneEdit quota s)
  have htold (q : Port) : removalsTold q .ceiling .aborted l (rightsTold p ceiling sceneEdit quota s) =
      removalsTold q .ceiling .aborted l s :=
    removalsTold_congr (fun x _ => by rw [hframe]; rfl) (fun n => by rw [hframe]; rfl)
  exact hstored.watch ▸ hstored.trans hfrees fun q => by rw [htold, privSetTold]

/-- PRIV_SET up to its end: the stage follows where the cascade frees a record (R194). -/
theorem applyPrivSet_cases (p : Port) (ceiling : Priority) (sceneEdit : Bool) (quota : Fin 49) (s : State) :
    let freedAll := freeRecords .ceilingCascade true (cascadeSlots p ceiling s) (rightsTold p ceiling sceneEdit quota s)
    (cascadeSlots p ceiling s = [] ∧ applyPrivSet p ceiling sceneEdit quota s = freedAll) ∨
      (cascadeSlots p ceiling s ≠ [] ∧ applyPrivSet p ceiling sceneEdit quota s = settle .demand freedAll) := by
  dsimp only
  rw [applyPrivSet_eq]
  split_ifs with hnone
  · exact .inl ⟨hnone, by rw [hnone]; exact (resolveSet_zero none true _).symm⟩
  · exact .inr ⟨hnone, rfl⟩

theorem privSetBody_refused {s : State} {p : Port}
    (h : 2 < argNat s p 0 ∨ 7 < argNat s p 1 ∨ 1 < argNat s p 2 ∨ 48 < argNat s p 3) :
    privSetBody p s = refuse .badArgument 0 s := by
  unfold privSetBody
  split
  · next q ceiling sceneEdit quota hq hceiling hedit hquota =>
    rw [argPort, inRange_eq_some] at hq
    rw [inRange_eq_some] at hceiling hquota
    have hflag : ¬ 1 < argNat s p 2 := fun hlt => by
      rw [flagOf, twoValued_eq_none.mpr hlt] at hedit
      cases hedit
    omega
  · rfl

theorem privSetBody_inUse {s : State} {p q : Port} {ceiling : Priority} {sceneEdit : Bool} {quota : Fin 49}
    (hq : argNat s p 0 = q.val) (hceiling : argNat s p 1 = ceiling.val) (hedit : flagOf (argNat s p 2) = some sceneEdit)
    (hquota : argNat s p 3 = quota.val) (hheld : quota.val < (s.right q).held) :
    privSetBody p s = refuse .inUse (s.right q).held s := by
  simp only [privSetBody, argPort, inRange_eq_some.mpr hq, inRange_eq_some.mpr hceiling, hedit,
    inRange_eq_some.mpr hquota, if_pos hheld]

theorem privSetBody_done {s : State} {p q : Port} {ceiling : Priority} {sceneEdit : Bool} {quota : Fin 49}
    (hq : argNat s p 0 = q.val) (hceiling : argNat s p 1 = ceiling.val) (hedit : flagOf (argNat s p 2) = some sceneEdit)
    (hquota : argNat s p 3 = quota.val) (hheld : (s.right q).held ≤ quota.val) :
    privSetBody p s = done none (cascadeSlots q ceiling s).length (applyPrivSet q ceiling sceneEdit quota s) := by
  simp only [privSetBody, argPort, inRange_eq_some.mpr hq, inRange_eq_some.mpr hceiling, hedit,
    inRange_eq_some.mpr hquota, if_neg hheld.not_gt]

/-- What a PRIV_SET that has passed its checks leaves, before its answer (R194). -/
structure Cascaded (q : Port) (ceiling : Priority) (sceneEdit : Bool) (quota : Fin 49) (l : List Slot) (s t : State) :
    Prop extends
    Closed (privSetTold q ceiling l s) s.watch (coveredBy s l) s t where
  freed : Freed l (rightsStored q ceiling sceneEdit quota s) t
  players : PlayersEmptied l (rightsStored q ceiling sceneEdit quota s) t
  still : l = [] → t.output = s.output
  follows : l ≠ [] → StageFollows s t
  lines : t.lines = s.lines

theorem applyPrivSet_cascaded (q : Port) (ceiling : Priority) (sceneEdit : Bool) (quota : Fin 49) {s : State}
    (hs : ListsInv s) :
    Cascaded q ceiling sceneEdit quota (cascadeSlots q ceiling s) s (applyPrivSet q ceiling sceneEdit quota s) := by
  have hend := applyPrivSet_cases q ceiling sceneEdit quota s
  have hl : (cascadeSlots q ceiling s).Nodup := (pairwise_cascadeSlots q ceiling s).imp ne_of_lt
  generalize cascadeSlots q ceiling s = l at hl hend ⊢
  have hframe := rightsTold_frame q ceiling sceneEdit quota s
  set stored := rightsStored q ceiling sceneEdit quota s
  set b := rightsTold q ceiling sceneEdit quota s
  set v := freeRecords .ceilingCascade true l b
  set t := applyPrivSet q ceiling sceneEdit quota s
  have hpool : b.pool = s.pool := by rw [hframe]; rfl
  have hresolved : Reresolved (privSetTold q ceiling l s) s.watch (coveredBy s l) s v :=
    coveredBy_congr hpool l ▸ (cascade_readied hl s).resolve (coveredBy b l)
  have hclosed : Closed (privSetTold q ceiling l s) s.watch (coveredBy s l) s t := by
    rcases hend with ⟨-, h⟩ | ⟨-, h⟩
    · exact h ▸ hresolved.closed
    · exact h ▸ hresolved.settle.toClosed
  obtain ⟨hpools, hresolvers, haccess, hscenes, hplayers, hlines⟩ : t.pool = v.pool ∧ t.resolver = v.resolver ∧
      t.access = v.access ∧ t.scenes = v.scenes ∧ t.players = v.players ∧ t.lines = v.lines := by
    rcases hend with ⟨-, h⟩ | ⟨-, h⟩ <;> simp only [h, v, settle_pool, settle_resolver, settle_access, settle_scenes,
      settle_players, settle_lines, and_self]
  have hkept : Kept stored t := by
    have htold : Kept stored b := by
      show Kept stored (rightsTold q ceiling sceneEdit quota s)
      unfold rightsTold
      split_ifs
      · exact offer_kept q _ stored
      · exact Kept.refl stored
    rcases hend with ⟨-, h⟩ | ⟨-, h⟩
    · exact h ▸ htold.trans (freeRecords_kept _ true l b)
    · exact h ▸ (htold.trans (freeRecords_kept _ true l b)).trans (settle_kept .demand v)
  exact
    { hclosed with
      freed := freed_of_frees hl (hs.of_eq (fun _ => rfl) rfl) (by rw [hframe]) (by rw [hframe]) (by rw [hframe])
        (by rw [hframe]) hpools hresolvers haccess hscenes { hclosed.redone with } hkept
      players := fun n => by
        have hplayer : t.player n = v.player n := by simp only [State.player, hplayers]
        rw [hplayer, freeRecords_player .ceilingCascade true l hl, hframe]
        rfl
      still := fun hnone => by
        rcases hend with ⟨-, h⟩ | ⟨hsome, -⟩
        · exact h ▸ hresolved.output
        · exact absurd hnone hsome
      follows := fun hsome => by
        rcases hend with ⟨hnone, -⟩ | ⟨-, h⟩
        · exact absurd hnone hsome
        · exact h ▸ hresolved.settle.follows
      lines := by rw [hlines, freeRecords_lines, hframe]; rfl }

/-- Settles O49: the values stored, then the cascade, whose records are those above the new ceiling. -/
theorem privSetStoresAndCascades : Obligations.PrivSetStoresAndCascades := by
  intro p s htaken
  refine ⟨fun h => congrArg Host.Outcome.next (takeCommand_refused htaken (privSetBody_refused h) (by decide)),
    fun q ceiling sceneEdit quota hq hceiling hedit hquota => ⟨fun hheld => ?_, fun hheld hs hceilings => ?_⟩⟩
  · exact congrArg Host.Outcome.next
      (takeCommand_refused htaken (privSetBody_inUse hq hceiling hedit hquota hheld) (by decide))
  · have h := applyPrivSet_cascaded q ceiling sceneEdit quota hs
    refine ⟨_, cascadeSlots q ceiling s,
      congrArg Host.Outcome.next (takeCommand_done htaken (privSetBody_done hq hceiling hedit hquota hheld)),
      pairwise_cascadeSlots q ceiling s, fun x => mem_cascadeSlots hceilings, h.freed.accepted p _ _,
      h.players.accepted p _ _, h.still, fun hl => (h.follows hl).accepted p _ _, fun r => ?_, h.spent, fun heq => ?_,
      acceptedState_accepted h.results, acceptedState_others h.results, h.lines⟩
    · have hannounced := (h.announced r).accepted p none (cascadeSlots q ceiling s).length
      by_cases hr : r = q <;> simpa only [privSetTold, hr] using hannounced
    · have hnone : cascadeSlots q ceiling s = [] := if_neg (by rw [heq]; exact lt_irrefl _)
      rw [applyPrivSet_eq, if_pos hnone, rightsTold, if_neg (not_not.mpr heq), hnone]
      rfl

end Sys2Proof.Machine

namespace Sys2Proof.Machine

/-! ## LINE_BIND and LINE_UNBIND (R118, R119, R121) -/

theorem Entered.settle {k : Slot} {c : Claim} {s t : State} (h : Entered k c s t) (cause : Cause) :
    Entered k c s (settle cause t) where
  record := by rw [settle_record, h.record]
  others := fun x hx => by rw [settle_record, h.others x hx]
  listed := fun ch hch => by rw [settle_entry, priorityOf_congr (settle_pool cause t), h.listed ch hch]
  unlisted := fun ch hch => by rw [settle_entry, h.unlisted ch hch]
  held := fun q => by rw [settle_right, h.held q]
  inUse := fun n => by rw [settle_scene, h.inUse n]
  levels := fun n => by rw [settle_scene, h.levels n]
  kept := h.kept.trans (settle_kept cause t)

theorem argLine_eq_none {s : State} {p : Port} : argLine s p = none ↔ 7 < argNat s p 5 := inRange_eq_none

theorem argTemplate_eq_none {s : State} {p : Port} (h : arg s p 0 = 0 ∨ 4095 < argNat s p 1) : argTemplate s p = none := by
  unfold argTemplate
  dsimp only
  split
  · next level hlevel =>
    rw [inRange_eq_some] at hlevel
    rw [if_pos (h.resolve_right (by omega))]
  · rfl

theorem argTemplate_eq_some {s : State} {p : Port} {level : Level} (hset : arg s p 0 ≠ 0)
    (hlevel : argNat s p 1 = level.val) :
    argTemplate s p = some
      { channels := arg s p 0, priority := (argClaimWord s p).priority, level := level,
        pattern := (argClaimWord s p).pattern, fade := (argClaimWord s p).fade } := by
  simp only [argTemplate, inRange_eq_some.mpr hlevel, if_neg hset]

section Bind

variable {s : State} {p : Port} {l : Line}

theorem lineBindBody_noLine (h : 7 < argNat s p 5) : lineBindBody p s = refuse .badArgument 0 s := by
  simp only [lineBindBody, argLine_eq_none.mpr h]

theorem lineBindBody_bound (hl : argNat s p 5 = l.val) (h : (s.line l).binding ≠ none) :
    lineBindBody p s = refuse .inUse 0 s := by
  simp only [lineBindBody, argLine, inRange_eq_some.mpr hl, if_pos (Option.isSome_iff_ne_none.mpr h)]

theorem lineBindBody_badTemplate (hl : argNat s p 5 = l.val) (h : (s.line l).binding = none)
    (hbad : argTemplate s p = none) : lineBindBody p s = refuse .badArgument 0 s := by
  simp [lineBindBody, argLine, inRange_eq_some.mpr hl, h, hbad]

theorem lineBindBody_noRoom {t : Template} {code : ResultCode} {extra : Nat} (hl : argNat s p 5 = l.val)
    (h : (s.line l).binding = none) (ht : argTemplate s p = some t)
    (hroom : roomCheck s t.channels = .refused code extra) : lineBindBody p s = refuse code extra s := by
  simp [lineBindBody, argLine, inRange_eq_some.mpr hl, h, ht, hroom]

theorem lineBindBody_done {t : Template} {slot : Slot} (hl : argNat s p 5 = l.val) (h : (s.line l).binding = none)
    (ht : argTemplate s p = some t) (hroom : roomCheck s t.channels = .room slot) :
    lineBindBody p s = done (some (handleAt s slot)) (winsOn (placeLine l t slot s) (handleAt s slot) t.channels)
      (settle .demand (placeLine l t slot s)) := by
  simp [lineBindBody, argLine, inRange_eq_some.mpr hl, h, ht, hroom]

theorem lineUnbindBody_noLine (h : 7 < argNat s p 5) : lineUnbindBody p s = refuse .badArgument 0 s := by
  simp only [lineUnbindBody, argLine_eq_none.mpr h]

theorem lineUnbindBody_unbound (hl : argNat s p 5 = l.val) (h : (s.line l).binding = none) :
    lineUnbindBody p s = refuse .wrongState 0 s := by
  simp [lineUnbindBody, argLine, inRange_eq_some.mpr hl, h]

theorem lineUnbindBody_done {h : Handle} {c : Claim} (hl : argNat s p 5 = l.val) (hbound : (s.line l).binding ≠ none)
    (hclaim : (s.line l).claim = some h) (hlive : claimAt s h = some c) :
    lineUnbindBody p s = done (some h) (winsOn s h c.channels) (settle .demand (unbindLine l s)) := by
  simp [lineUnbindBody, argLine, inRange_eq_some.mpr hl, hbound, lineWins, hclaim, hlive]

end Bind

/-- The checks of a line's placement that find no room (R8, R12). -/
theorem roomCheck_full {s : State} (cs : ChannelSet) (h : ∀ x, (s.record x).claim ≠ none) :
    roomCheck s cs = .refused .full 0 := by
  simp only [roomCheck, freeSlot?_eq_none.mpr h]

theorem roomCheck_listFull {s : State} {cs : ChannelSet} {ch : Channel} (hfree : ∃ x, (s.record x).claim = none)
    (hin : inSet cs ch = true) (hfull : 8 ≤ (s.entry ch).list.length)
    (hlow : ∀ i, i < ch → inSet cs i = true → (s.entry i).list.length < 8) :
    roomCheck s cs = .refused .listFull ch.val := by
  obtain ⟨x, hx⟩ := hfree
  obtain ⟨slot, hslot⟩ := Option.ne_none_iff_exists'.mp fun hnone : freeSlot? s = none => freeSlot?_eq_none.mp hnone x hx
  simp only [roomCheck, hslot, fullChannel?_eq_some hin hfull hlow]

/-- A line's record placed, up to its answer (R118, R119). -/
theorem placeLine_answered (p : Port) (l : Line) (t : Template) (slot : Slot) (s : State) (x : Nat) :
    Answered p (some (handleAt s slot)) x (fun _ => []) s.watch t.channels s
      (acceptedState p (some (handleAt s slot)) x (settle .demand (placeLine l t slot s))) :=
  (((seat_readied slot (lineClaim l (s.line l).isActive t) s).resolve t.channels).modLine l _).settle.answered p _ x

theorem unbindLine_of_claim {l : Line} {s : State} {h : Handle} (hclaim : (s.line l).claim = some h) :
    unbindLine l s =
      (freeRecords .lineUnbind true [h.slot] s).modLine l fun x => { x with binding := none, claim := none } := by
  simp only [unbindLine, hclaim]

/-- A line's record freed with the binding, up to its answer (R121). -/
theorem unbindLine_answered (p : Port) {l : Line} {s : State} {h : Handle} {c : Claim}
    (hclaim : (s.line l).claim = some h) (hlive : claimAt s h = some c) (x : Nat) :
    Answered p (some h) x (fun _ => []) s.watch c.channels s
      (acceptedState p (some h) x (settle .demand (unbindLine l s))) := by
  rw [unbindLine_of_claim hclaim, ← coveredBy_singleton (claimAt_some.mp hlive).2]
  exact (((freeAll_readied_silent (x := .lineUnbind) rfl rfl [h.slot] s).resolve _).modLine l _).settle.answered p _ x

theorem freesPlayer_singleton {s : State} {slot : Slot} {c : Claim} (h : (s.record slot).claim = some c) (n : PlayerNo) :
    freesPlayer s [slot] n = (c.source == .player n) := by
  simp [freesPlayer, slotPasses, h]

/-- The freeing of a claim of no player leaves the players (R23). -/
theorem freeRecords_players_of_source {x : FreeCause} {e : Bool} {slot : Slot} {s : State} {c : Claim}
    (h : (s.record slot).claim = some c) (hsource : ∀ n, c.source ≠ .player n) :
    (freeRecords x e [slot] s).players = s.players := table_ext fun n => by
  have hplayer := freeRecords_player x e [slot] (List.nodup_singleton slot) s n
  rwa [freesPlayer_singleton h, if_neg (by simpa using hsource n)] at hplayer

/-- Settles O37. -/
theorem lineBindAndUnbind : Obligations.LineBindAndUnbind := by
  refine ⟨fun p s htaken => ⟨fun hl => ?_, fun l hl => ⟨fun hbound => ?_, fun hfree => ⟨fun hbad => ?_,
    fun level hset hlevel => ⟨fun hfull => ?_, fun hslot ch hin hfull hlow => ?_, fun slot hslot hlow hroom => ?_⟩⟩⟩⟩,
    fun p s htaken => ⟨fun hl => ?_, fun l hl => ⟨fun hfree => ?_,
      fun h c hbound hclaim hlive howner hsource hs => ?_⟩⟩⟩
  · exact congrArg Host.Outcome.next (takeCommand_refused htaken (lineBindBody_noLine hl) (by decide))
  · exact congrArg Host.Outcome.next (takeCommand_refused htaken (lineBindBody_bound hl hbound) (by decide))
  · exact congrArg Host.Outcome.next (takeCommand_refused htaken
      (lineBindBody_badTemplate hl hfree (argTemplate_eq_none hbad)) (by decide))
  · exact congrArg Host.Outcome.next (takeCommand_refused htaken
      (lineBindBody_noRoom hl hfree (argTemplate_eq_some hset hlevel) (roomCheck_full _ hfull)) (by decide))
  · exact congrArg Host.Outcome.next (takeCommand_refused htaken
      (lineBindBody_noRoom hl hfree (argTemplate_eq_some hset hlevel) (roomCheck_listFull hslot hin hfull hlow))
      (by decide))
  · intro template
    have hdone := lineBindBody_done (slot := slot) hl hfree (argTemplate_eq_some hset hlevel)
      (roomCheck_eq_room hslot hlow hroom)
    have hanswer := placeLine_answered p l template slot s
      (winsOn (placeLine l template slot s) (handleAt s slot) (arg s p 0))
    have hentered := ((placeLine_placed l template slot s).toEntered.settle .demand).accepted p (some (handleAt s slot))
      (winsOn (placeLine l template slot s) (handleAt s slot) (arg s p 0))
    refine ⟨_, congrArg Host.Outcome.next (takeCommand_done htaken hdone), { hentered with redone := hanswer.redone }, ?_,
      fun k hk => ?_, hanswer.announced, hanswer.spent, hanswer.follows, ?_, hanswer.others, ?_⟩
    · rw [acceptedState_line, settle_line, placeLine_line, if_pos rfl]
    · rw [acceptedState_line, settle_line, placeLine_line, if_neg hk]
    · rw [winsOn_congr (s := placeLine l template slot s) (by rw [acceptedState_resolver, settle_resolver])]
      exact hanswer.accepted
    · rw [acceptedState_players, settle_players]
      exact place_players _ _ _
  · exact congrArg Host.Outcome.next (takeCommand_refused htaken (lineUnbindBody_noLine hl) (by decide))
  · exact congrArg Host.Outcome.next (takeCommand_refused htaken (lineUnbindBody_unbound hl hfree) (by decide))
  · have hrecord := (claimAt_some.mp hlive).2
    have hanswer := unbindLine_answered p hclaim hlive (winsOn s h c.channels)
    have hunbound := unbindLine_of_claim hclaim
    have hkept : Kept s (unbindLine l s) :=
      hunbound ▸ (freeRecords_kept .lineUnbind true [h.slot] s).trans (modLine_kept _ l _)
    refine ⟨_, congrArg Host.Outcome.next (takeCommand_done htaken (lineUnbindBody_done hl hbound hclaim hlive)),
      freed_of_frees (x := .lineUnbind) (List.nodup_singleton _) hs rfl rfl rfl rfl ?_ ?_ ?_ ?_
        (coveredBy_singleton hrecord ▸ hanswer.redone)
        ((hkept.trans (settle_kept .demand _)).trans (acceptedState_kept p (some h) (winsOn s h c.channels) _)), ?_,
      fun k hk => ?_, hanswer.announced, hanswer.spent, hanswer.follows, hanswer.accepted, hanswer.others, ?_⟩
    · rw [acceptedState_pool, settle_pool, hunbound]; rfl
    · rw [acceptedState_resolver, settle_resolver, hunbound]; rfl
    · rw [acceptedState_access, settle_access, hunbound]; rfl
    · rw [acceptedState_scenes, settle_scenes, hunbound]; rfl
    · rw [acceptedState_line, settle_line, hunbound, State.line_modLine, if_pos rfl, freeRecords_line]
    · rw [acceptedState_line, settle_line, hunbound, State.line_modLine, if_neg hk, freeRecords_line]
    · rw [acceptedState_players, settle_players, hunbound]
      exact freeRecords_players_of_source hrecord hsource

end Sys2Proof.Machine

namespace Sys2Proof.Machine

/-! ## Activity events of a line (R115, R120) -/

/-! ### The clean intervals at the end of a taking (R172) -/

theorem settleStage_out (c : Cause) (s : State) (ch : Channel) : (settleStage c s).out ch = s.out ch := by
  rw [settleStage_cases]
  split_ifs
  · rw [enterStage_out, if_neg (by decide)]
    rfl
  · rfl

theorem cleanHolds_cleanChannels (s : State) (ch : Channel) : cleanHolds (cleanChannels s) ch = cleanHolds s ch := by
  have hout := cleanChannels_out s ch
  exact cleanHolds_congr (by rw [hout]; rfl) (by rw [hout]; rfl) (by rw [hout]; rfl) (by simp) (by simp) (by simp)
    (by simp) (by simp) (by simp) (by simp)

/-- A clean interval at the end of a taking: it starts, goes on or is cancelled (R172). -/
theorem settle_cleanEnd (c : Cause) (s : State) (ch : Channel) : ((settle c s).out ch).cleanEnd =
    if cleanHolds (settle c s) ch then some (((s.out ch).cleanEnd).getD (s.now + 10000)) else none := by
  rw [settle, cleanChannels_out, settleStage_out, cleanHolds_cleanChannels, cleaned, settleStage_now]
  cases (s.out ch).cleanEnd <;> rfl

/-! ### The record of the line's claim -/

/-- The record of a line's claim turned ACTIVE at the head of its class, or DORMANT in its place (R31, R33). -/
def turned (h : Handle) (c : Claim) (active : Bool) (s : State) : State :=
  if active then reinsert h c (s.modRecord h.slot fun r => { r with claim := some { c with active := active } })
  else s.modRecord h.slot fun r => { r with claim := some { c with active := active } }

theorem followActivity_bound {l : Line} {active : Bool} {s : State} {h : Handle} {c : Claim}
    (hclaim : (s.line l).claim = some h) (hlive : claimAt s h = some c) :
    followActivity l active s = resolveSet none true c.channels (turned h c active s) := by
  simp only [followActivity, hclaim, hlive, turned]

theorem followActivity_unbound {l : Line} {active : Bool} {s : State}
    (hnone : ∀ h c, (s.line l).claim = some h → claimAt s h ≠ some c) : followActivity l active s = s := by
  unfold followActivity
  split
  · rfl
  · next h hclaim =>
    split
    · rfl
    · next c hlive => exact absurd hlive (hnone h c hclaim)

section Turned

variable (h : Handle) (c : Claim) (active : Bool) (s : State)

/-- What neither the pool nor the lists hold stays. -/
theorem turned_keeps {β : Type} (g : State → β) (hrecord : ∀ k f u, g (State.modRecord u k f) = g u)
    (hreinsert : ∀ u, g (reinsert h c u) = g u) : g (turned h c active s) = g s := by
  unfold turned
  split_ifs
  · rw [hreinsert, hrecord]
  · rw [hrecord]

theorem turned_pool : (turned h c active s).pool =
    (s.modRecord h.slot fun r => { r with claim := some { c with active := active } }).pool := by
  unfold turned
  split_ifs
  · rw [reinsert_pool]
  · rfl

theorem turned_record (x : Slot) : (turned h c active s).record x =
    if x = h.slot then { s.record h.slot with claim := some { c with active := active } } else s.record x := by
  rw [State.record, turned_pool, ← State.record, State.record_modRecord]

theorem turned_entry (ch : Channel) : (turned h c active s).entry ch =
    if active && inSet c.channels ch then
      { s.entry ch with
        list := insertClass (priorityOf (turned h c active s)) c.priority h
          ((s.entry ch).list.filter fun x => decide (x ≠ h)) }
    else s.entry ch := by
  rw [priorityOf_congr (turned_pool h c active s)]
  unfold turned
  cases active
  · rfl
  · simp only [if_true, Bool.true_and, reinsert_entry, mem_members]
    rfl

theorem turned_kept : Kept s (turned h c active s) := by
  unfold turned
  split_ifs
  · exact (modRecord_kept s _ _).trans (reinsert_kept h c _)
  · exact modRecord_kept s _ _

theorem turned_readied : Readied (fun _ => []) s.watch s (turned h c active s) := by
  refine .of_eq (fun ch => ?_) (fun ch => ?_) (fun ch => ?_)
    (turned_keeps h c active s State.modulator (fun _ _ _ => rfl) (reinsert_modulator h c))
    (turned_keeps h c active s State.output (fun _ _ _ => rfl) (reinsert_output h c))
    (turned_keeps h c active s State.now (fun _ _ _ => rfl) (reinsert_now h c))
    (turned_keeps h c active s State.ports (fun _ _ _ => rfl) (reinsert_ports h c))
    (turned_keeps h c active s State.watches (fun _ _ _ => rfl) (reinsert_watches h c)) <;>
  · rw [turned_entry]
    split_ifs <;> rfl

end Turned

/-! ### The taking of an activity event -/

/-- The detail of an activity event (R115). -/
def activityDetail (active : Bool) : LineDetail := if active then .start else .stop

/-- The LINE event handed to the watches (R115). -/
def lineTaken (l : Line) (active : Bool) (s : State) : State :=
  fireWatches .line l.val (.line l (activityDetail active)) s

/-- The taking of an activity event, a start or an end (R115). -/
def activityTaken (l : Line) (active : Bool) (s : State) : State :=
  settle .demand (followActivity l active (lineTaken l active s))

theorem activityStart_eq (l : Line) (s : State) : activityStart l s = activityTaken l true s := rfl

theorem activityEnd_eq (l : Line) (s : State) : activityEnd l s = activityTaken l false s := rfl

theorem lineTaken_readied (l : Line) (active : Bool) (s : State) :
    Readied (fun q => lineTold q l (activityDetail active) s) (fun w => spentBy .line [l] (s.watch w)) s
      (lineTaken l active s) where
  winner := fun ch => by rw [lineTaken, fireWatches_entry]
  target := fun ch => by rw [lineTaken, fireWatches_entry]
  pattern := fun ch => by rw [lineTaken, fireWatches_entry]
  chan := fun ch => by rw [lineTaken, fireWatches_chan]
  output := fireWatches_output _ _ _ s
  now := fireWatches_now _ _ _ s
  queued := fun q => fireWatches_queued .line l (fun i => .line i (activityDetail active)) s q
  mask := fun q => by
    rw [lineTaken, fireWatches_port]
    split_ifs
    · exact offerTo_kindMask _ _
    · rfl
  watchers := fun q => by rw [lineTaken, fireWatches_watchesOf, if_neg (by decide)]
  watch := funext fun w => fireWatches_watch .line l _ s w
  results := fireWatches_results _ _ _ s

/-- What the taking of an activity event leaves. -/
structure ActivityTaken (l : Line) (active : Bool) (s t : State) : Prop where
  follows : Follows l active s t
  announced : LineAnnounced l (activityDetail active) s t
  cleanEnd : ∀ ch, (t.out ch).cleanEnd =
    if cleanHolds t ch then some (((s.out ch).cleanEnd).getD (s.now + 10000)) else none
  lines : t.lines = s.lines
  players : t.players = s.players
  scenes : t.scenes = s.scenes
  access : t.access = s.access
  results : SameResults s t
  kept : Kept s t

/-- What an activity event reaches of the pool, past the LINE event and before the end of the taking. -/
structure PoolFollows (l : Line) (active : Bool) (s v : State) : Prop where
  claim : ∀ h c, (s.line l).claim = some h → claimAt s h = some c → claimAt v h = some { c with active := active }
  others : ∀ x, (∀ h, (s.line l).claim = some h → x ≠ h.slot) → v.record x = s.record x
  lists : ∀ h c, (s.line l).claim = some h → claimAt s h = some c → ∀ ch,
    (v.entry ch).list =
      if active && inSet c.channels ch then
        insertClass (priorityOf v) c.priority h ((s.entry ch).list.filter fun x => decide (x ≠ h))
      else (s.entry ch).list
  unbound : (s.line l).claim = none → v.pool = s.pool ∧ v.resolver = s.resolver
  outs : v.outs = s.outs
  lines : v.lines = s.lines
  players : v.players = s.players
  scenes : v.scenes = s.scenes
  access : v.access = s.access
  kept : Kept s v

theorem followActivity_follows (l : Line) (active : Bool) (s : State) :
    PoolFollows l active s (followActivity l active s) := by
  by_cases hbound : ∃ h c, (s.line l).claim = some h ∧ claimAt s h = some c
  · obtain ⟨h, c, hclaim, hlive⟩ := hbound
    obtain ⟨hgen, hrecord⟩ := claimAt_some.mp hlive
    have hrun := followActivity_bound (active := active) hclaim hlive
    have hpool : (followActivity l active s).pool = (turned h c active s).pool := by rw [hrun, resolveSet_pool]
    have hrecords (x : Slot) : (followActivity l active s).record x = (turned h c active s).record x := by
      rw [hrun, resolveSet_record]
    exact
      { claim := fun h' c' hclaim' hlive' => by
          obtain rfl : h = h' := Option.some.inj (hclaim.symm.trans hclaim')
          obtain rfl : c = c' := Option.some.inj (hlive.symm.trans hlive')
          refine claimAt_some.mpr ?_
          rw [hrecords, turned_record, if_pos rfl]
          exact ⟨hgen, rfl⟩
        others := fun x hx => by rw [hrecords, turned_record, if_neg (hx h hclaim)]
        lists := fun h' c' hclaim' hlive' ch => by
          obtain rfl : h = h' := Option.some.inj (hclaim.symm.trans hclaim')
          obtain rfl : c = c' := Option.some.inj (hlive.symm.trans hlive')
          rw [priorityOf_congr hpool, hrun, resolveSet_list, turned_entry]
          split_ifs <;> rfl
        unbound := fun hnone => by simp [hclaim] at hnone
        outs := by
          rw [hrun, resolveSet_outs, turned_keeps h c active s State.outs (fun _ _ _ => rfl) (reinsert_outs h c)]
        lines := by
          rw [hrun, resolveSet_lines, turned_keeps h c active s State.lines (fun _ _ _ => rfl) (reinsert_lines h c)]
        players := by
          rw [hrun, resolveSet_players, turned_keeps h c active s State.players (fun _ _ _ => rfl) (reinsert_players h c)]
        scenes := by
          rw [hrun, resolveSet_scenes, turned_keeps h c active s State.scenes (fun _ _ _ => rfl) (reinsert_scenes h c)]
        access := by
          rw [hrun, resolveSet_access, turned_keeps h c active s State.access (fun _ _ _ => rfl) (reinsert_access h c)]
        kept := hrun ▸ (turned_kept h c active s).trans (resolveSet_kept none true c.channels _) }
  · have hdead (h : Handle) (c : Claim) (hclaim : (s.line l).claim = some h) : claimAt s h ≠ some c :=
      fun hlive => hbound ⟨h, c, hclaim, hlive⟩
    rw [followActivity_unbound hdead]
    exact
      { claim := fun h c hclaim hlive => absurd hlive (hdead h c hclaim)
        others := fun _ _ => rfl
        lists := fun h c hclaim hlive => absurd hlive (hdead h c hclaim)
        unbound := fun _ => ⟨rfl, rfl⟩
        outs := rfl
        lines := rfl
        players := rfl
        scenes := rfl
        access := rfl
        kept := .refl s }

/-- The LINE event writes queues and watches alone. -/
theorem lineTaken_frame (l : Line) (active : Bool) (s : State) : lineTaken l active s =
    { s with ports := (lineTaken l active s).ports, watches := (lineTaken l active s).watches } :=
  forEach_preserves (fun u => u = { s with ports := u.ports, watches := u.watches }) _ _ (fun q u hu => by
    rw [hu]
    unfold fireFor
    split_ifs <;> rfl) s rfl

theorem lineTaken_follows (l : Line) (active : Bool) (s : State) :
    PoolFollows l active s (followActivity l active (lineTaken l active s)) := by
  have h := followActivity_follows l active (lineTaken l active s)
  have hkept := (fireWatches_kept .line l.val (.line l (activityDetail active)) s).trans h.kept
  generalize followActivity l active (lineTaken l active s) = v at h hkept ⊢
  rw [lineTaken_frame] at h
  exact { h with kept := hkept }

/-- The channels on which an activity event of a line redoes resolution. -/
def lineChannels (l : Line) (s : State) : ChannelSet :=
  match (s.line l).claim with
  | none => 0
  | some h => match claimAt s h with | none => 0 | some c => c.channels

theorem activityTaken_settled (l : Line) (active : Bool) (s : State) :
    Settled (fun q => lineTold q l (activityDetail active) s) (fun w => spentBy .line [l] (s.watch w)) (lineChannels l s) s
      (activityTaken l active s) := by
  have htold := lineTaken_readied l active s
  have hline : (lineTaken l active s).line l = s.line l := fireWatches_line _ _ _ s l
  have hlive (h : Handle) : claimAt (lineTaken l active s) h = claimAt s h := claimAt_congr (fireWatches_pool _ _ _ s) h
  unfold activityTaken lineChannels
  cases hclaim : (s.line l).claim with
  | none =>
    rw [followActivity_unbound fun h c hbound => absurd (hclaim.symm.trans (hline ▸ hbound)) (by simp)]
    exact htold.unresolved.settle
  | some h =>
    dsimp only
    cases hat : claimAt s h with
    | none =>
      rw [followActivity_unbound fun h' c hbound hc => ?_]
      · exact htold.unresolved.settle
      · obtain rfl : h = h' := Option.some.inj (hclaim.symm.trans (hline ▸ hbound))
        rw [hlive, hat] at hc
        cases hc
    | some c =>
      rw [followActivity_bound (hline.symm ▸ hclaim) ((hlive h).trans hat)]
      have hturned := turned_readied h c active (lineTaken l active s)
      rw [htold.watch] at hturned
      exact ((htold.trans hturned fun q => List.append_nil _).resolve c.channels).settle

theorem lineChannels_bound {l : Line} {s : State} {h : Handle} {c : Claim} (hclaim : (s.line l).claim = some h)
    (hlive : claimAt s h = some c) : lineChannels l s = c.channels := by
  simp only [lineChannels, hclaim, hlive]

theorem lineChannels_unbound {l : Line} {s : State} (hclaim : (s.line l).claim = none) : lineChannels l s = 0 := by
  simp only [lineChannels, hclaim]

theorem activityTaken_taken (l : Line) (active : Bool) (s : State) :
    ActivityTaken l active s (activityTaken l active s) := by
  have hpool := lineTaken_follows l active s
  have hsettled := activityTaken_settled l active s
  have hzero (t : State) : changedWinners 0 s t = [] := by simp [changedWinners, members, inSet]
  exact
    { follows :=
        { claim := fun h c hclaim hlive => (claimAt_congr (settle_pool _ _) h).trans (hpool.claim h c hclaim hlive)
          others := fun x hx => (settle_record _ _ x).trans (hpool.others x hx)
          lists := fun h c hclaim hlive ch => by
            rw [activityTaken, settle_entry, priorityOf_congr (settle_pool _ _), hpool.lists h c hclaim hlive ch]
          redone := fun h c hclaim hlive => lineChannels_bound hclaim hlive ▸ hsettled.redone
          unbound := fun hclaim => by
            obtain ⟨hpools, hresolver⟩ := hpool.unbound hclaim
            refine ⟨(settle_pool _ _).trans hpools, (settle_resolver _ _).trans hresolver, fun ch => ?_⟩
            exact hsettled.redone.modulator ch (by simp [lineChannels_unbound hclaim, inSet])
          stage := hsettled.follows }
      announced :=
        { bound := fun h c hclaim hlive q => lineChannels_bound hclaim hlive ▸ hsettled.announced q
          unbound := fun hclaim q => lineChannels_unbound hclaim ▸ hsettled.announced q
          spent := fun h c hclaim hlive w => lineChannels_bound hclaim hlive ▸ hsettled.spent w
          spentUnbound := fun hclaim w => by
            have hspent := hsettled.spent w
            rwa [lineChannels_unbound hclaim, hzero, spentBy_nil] at hspent }
      cleanEnd := fun ch => by
        have hout : (followActivity l active (lineTaken l active s)).out ch = s.out ch := by
          simp only [State.out, hpool.outs]
        rw [activityTaken, settle_cleanEnd, hout, hpool.kept.now]
      lines := (settle_lines _ _).trans hpool.lines
      players := (settle_players _ _).trans hpool.players
      scenes := (settle_scenes _ _).trans hpool.scenes
      access := (settle_access _ _).trans hpool.access
      results := hsettled.results
      kept := hpool.kept.trans (settle_kept .demand _) }

end Sys2Proof.Machine

namespace Sys2Proof.Machine

/-! ## Input changes, qualifications and LINE_CONFIG (R111 to R117) -/

/-! ### A line's own fields written -/

/-- What no qualification of a line moves: its settings, its raw input and its binding. -/
structure LineKept (x y : LineState) : Prop where
  settings : y.sense = x.sense ∧ y.polarity = x.polarity ∧ y.anyEdge = x.anyEdge ∧ y.filter = x.filter ∧
    y.stretch = x.stretch ∧ y.raw = x.raw
  binding : y.binding = x.binding ∧ y.claim = x.claim

theorem modLine_lineFrame {l : Line} {s : State} {f : LineState → LineState} (h : LineKept (s.line l) (f (s.line l))) :
    LineFrame l s (s.modLine l f) where
  lines := fun k hk => by rw [State.line_modLine, if_neg hk]
  settings := by rw [State.line_modLine, if_pos rfl]; exact h.settings
  binding := by rw [State.line_modLine, if_pos rfl]; exact h.binding
  players := rfl
  scenes := rfl
  access := rfl
  results := fun _ => ⟨rfl, rfl, rfl, rfl, rfl⟩
  kept := modLine_kept s l f

theorem LineFrame.trans {l : Line} {s t u : State} (h : LineFrame l s t) (k : LineFrame l t u) : LineFrame l s u where
  lines := fun i hi => (k.lines i hi).trans (h.lines i hi)
  settings := by
    obtain ⟨hsense, hpolarity, hedge, hfilter, hstretch, hraw⟩ := h.settings
    rw [← hsense, ← hpolarity, ← hedge, ← hfilter, ← hstretch, ← hraw]
    exact k.settings
  binding := ⟨k.binding.1.trans h.binding.1, k.binding.2.trans h.binding.2⟩
  players := k.players.trans h.players
  scenes := k.scenes.trans h.scenes
  access := k.access.trans h.access
  results := fun p => (h.results p).trans (k.results p)
  kept := h.kept.trans k.kept

theorem ActivityTaken.lineFrame {l : Line} {active : Bool} {s t : State} (h : ActivityTaken l active s t) :
    LineFrame l s t := by
  have hline : t.line = s.line := by funext i; simp only [State.line, h.lines]
  exact
    { lines := fun k _ => by rw [hline]
      settings := by rw [hline]; exact ⟨rfl, rfl, rfl, rfl, rfl, rfl⟩
      binding := by rw [hline]; exact ⟨rfl, rfl⟩
      players := h.players
      scenes := h.scenes
      access := h.access
      results := h.results
      kept := h.kept }

/-- The claim of a line is all that its activity event reads of the line unit. -/
theorem Follows.of_modLine {l : Line} {active : Bool} {s t : State} {f : LineState → LineState}
    (h : Follows l active (s.modLine l f) t) (hclaim : (f (s.line l)).claim = (s.line l).claim) : Follows l active s t := by
  have hline : ((s.modLine l f).line l).claim = (s.line l).claim := by rw [State.line_modLine, if_pos rfl, hclaim]
  obtain ⟨claim, others, lists, redone, unbound, stage⟩ := h
  rw [hline] at claim others lists redone unbound
  exact
    { claim := claim
      others := others
      lists := lists
      redone := fun h c k hc => { redone h c k hc with }
      unbound := unbound
      stage := stage }

theorem LineAnnounced.of_modLine {l : Line} {d : LineDetail} {s t : State} {f : LineState → LineState}
    (h : LineAnnounced l d (s.modLine l f) t) (hclaim : (f (s.line l)).claim = (s.line l).claim) :
    LineAnnounced l d s t := by
  have hline : ((s.modLine l f).line l).claim = (s.line l).claim := by rw [State.line_modLine, if_pos rfl, hclaim]
  obtain ⟨bound, unbound, spent, spentUnbound⟩ := h
  rw [hline] at bound unbound spent spentUnbound
  exact ⟨bound, unbound, spent, spentUnbound⟩

/-- An activity event after a write of the line's own fields. -/
structure LineEvent (l : Line) (active : Bool) (x : LineState) (s t : State) : Prop where
  frame : LineFrame l s t
  line : t.line l = x
  follows : Follows l active s t
  announced : LineAnnounced l (activityDetail active) s t
  cleanEnd : ∀ ch, (t.out ch).cleanEnd =
    if cleanHolds t ch then some (((s.out ch).cleanEnd).getD (s.now + 10000)) else none

theorem activityTaken_modLine {l : Line} (active : Bool) {s : State} {f : LineState → LineState}
    (hkept : LineKept (s.line l) (f (s.line l))) :
    LineEvent l active (f (s.line l)) s (activityTaken l active (s.modLine l f)) := by
  have h := activityTaken_taken l active (s.modLine l f)
  exact
    { frame := (modLine_lineFrame hkept).trans h.lineFrame
      line := by rw [State.line, h.lines, ← State.line, State.line_modLine, if_pos rfl]
      follows := h.follows.of_modLine hkept.binding.2
      announced := h.announced.of_modLine hkept.binding.2
      cleanEnd := h.cleanEnd }

/-! ### Input changes and the end of a stretch -/

theorem modLine_modLine (s : State) (l : Line) (f g : LineState → LineState) :
    (s.modLine l f).modLine l g = s.modLine l fun x => g (f x) := by
  have hlines : tmod (tmod s.lines l f) l g = tmod s.lines l fun x => g (f x) := table_ext fun i => by
    simp only [tget_tmod]
    split_ifs <;> rfl
  simp only [State.modLine, hlines]

theorem stretchEnds_event {s : State} {l : Line} (hdue : dueAt (s.line l).stretchEnd s.now = true) :
    LineEvent l false { s.line l with activity := .quiet, stretchEnd := none } s (stretchEnds l s) := by
  rw [stretchEnds, if_pos hdue, activityEnd_eq]
  exact activityTaken_modLine (f := fun x => { x with activity := .quiet, stretchEnd := none }) false
    ⟨⟨rfl, rfl, rfl, rfl, rfl, rfl⟩, rfl, rfl⟩

/-- A qualification reads the line and no filter interval of it. -/
theorem qualify_modLine (l : Line) (s : State) (f : LineState → LineState) :
    qualify l (s.modLine l f) =
      handActivity l ((f (s.line l)).qualified s.now).2 (s.modLine l fun _ => ((f (s.line l)).qualified s.now).1) := by
  simp only [qualify, State.line_modLine, if_pos, modLine_modLine]
  rfl

/-- A filter interval that is due, in a line just written. -/
theorem filterEnds_modLine {l : Line} {s : State} {f : LineState → LineState}
    (hdue : dueAt (f (s.line l)).filterEnd s.now = true) :
    filterEnds l (s.modLine l f) = qualify l (s.modLine l f) :=
  if_pos (by rw [State.line_modLine_self]; exact hdue)

theorem modLine_congr {s : State} {l : Line} {f g : LineState → LineState} (h : f (s.line l) = g (s.line l)) :
    s.modLine l f = s.modLine l g := by
  simp only [State.line] at h
  simp only [State.modLine, tmod, h]

section InputChange

variable {s : State} {l : Line}

theorem inputChanges_refusing (h : refusesCommands s.output.stage = true) :
    inputChanges l s = s.modLine l fun x => { x with raw := !x.raw } := if_pos h

/-- A change away from the filtered value of a line with filter 0 qualifies at once (R111). -/
theorem inputChanges_qualifies (h : refusesCommands s.output.stage = false) (haway : (s.line l).raw = (s.line l).filtered)
    (hfilter : (s.line l).filter.val = 0) :
    inputChanges l s = qualify l (s.modLine l fun x => { x with raw := !x.raw }) := by
  have hzero : (s.line l).filter = 0 := Fin.ext hfilter
  simp [inputChanges, h, haway, hzero]

/-- Every other change sets the filter interval (R111). -/
theorem inputChanges_refilters (h : refusesCommands s.output.stage = false)
    (hk : (s.line l).raw = (s.line l).filtered → 0 < (s.line l).filter.val) :
    inputChanges l s = s.modLine l fun x => LineState.refilter s.now { x with raw := !x.raw } := by
  have hnot : ¬ ((!(s.line l).raw) ≠ (s.line l).filtered ∧ (s.line l).filter = 0) := by
    rintro ⟨haway, hzero⟩
    have hpos := hk (by simpa using haway)
    rw [hzero] at hpos
    exact absurd hpos (lt_irrefl _)
  simp only [inputChanges, h, Bool.false_eq_true, if_false, State.line_modLine_self, if_neg hnot, modLine_modLine]

end InputChange

/-- Settles O34. -/
theorem lineInputChangeAndStretchEnd : Obligations.LineInputChangeAndStretchEnd := by
  refine ⟨fun s l => ?_, fun s l hdue => ?_⟩
  · intro flipped
    refine ⟨fun hstage => congrArg Host.Outcome.next (inputChanges_refusing hstage), fun hstage =>
      ⟨fun hback => ?_, fun haway hfilter => ?_, fun haway hfilter => ?_⟩⟩
    · refine congrArg Host.Outcome.next ((inputChanges_refilters hstage fun h => absurd h hback).trans ?_)
      exact modLine_congr (by simp [LineState.refilter, flipped, Bool.not_eq.mpr hback])
    · refine congrArg Host.Outcome.next ((inputChanges_refilters hstage fun _ => hfilter).trans ?_)
      exact modLine_congr (by simp [LineState.refilter, flipped, haway])
    · refine congrArg Host.Outcome.next ((inputChanges_qualifies hstage haway hfilter).trans ?_)
      show _ = filterEnds l _
      rw [filterEnds_modLine (by simp [dueAt]), qualify_modLine, qualify_modLine]
      rfl
  · have h := stretchEnds_event hdue
    exact ⟨_, rfl, h.frame, h.follows, h.line, h.announced⟩

end Sys2Proof.Machine

namespace Sys2Proof.Machine

/-! ### What a qualification makes of a line (R111 to R114) -/

/-- The filtered value taken from the raw input. -/
def LineState.refiltered (x : LineState) : LineState := { x with filtered := x.raw, filterEnd := none }

theorem qualified_level {x : LineState} (h : x.sense = .level) (now : Instant) :
    x.qualified now = levelQualified now x.refiltered := by
  simp only [LineState.qualified, h, LineState.refiltered]

theorem qualified_edge {x : LineState} (h : x.sense = .edge) (now : Instant) :
    x.qualified now = edgeQualified now x.refiltered := by
  simp only [LineState.qualified, h, LineState.refiltered]

theorem matchesPolarity_eq (p : Polarity) (b : Bool) : matchesPolarity p b = if p = .first then b else !b := by
  cases p <;> rfl

/-- What a qualification writes of a line beside its activity and its stretch. -/
structure Refiltered (x y : LineState) : Prop extends LineKept x y where
  filtered : y.filtered = x.raw
  filterEnd : y.filterEnd = none

theorem lineKept_refiltered (x : LineState) : LineKept x x.refiltered := ⟨⟨rfl, rfl, rfl, rfl, rfl, rfl⟩, rfl, rfl⟩

theorem refiltered_with_activity {x : LineState} (a : Activity) (e : Option Instant) :
    Refiltered x { x.refiltered with activity := a, stretchEnd := e } :=
  ⟨⟨⟨rfl, rfl, rfl, rfl, rfl, rfl⟩, rfl, rfl⟩, rfl, rfl⟩

/-- A qualification moves a line's activity and its stretch, beside the filtered value. -/
theorem qualified_shape (now : Instant) (x : LineState) :
    ∃ a e, (x.qualified now).1 = { x.refiltered with activity := a, stretchEnd := e } := by
  cases hsense : x.sense with
  | level =>
    rw [qualified_level hsense]
    unfold levelQualified
    split
    · exact ⟨_, _, rfl⟩
    · split <;> exact ⟨_, _, rfl⟩
    all_goals exact ⟨_, _, rfl⟩
  | edge =>
    rw [qualified_edge hsense]
    unfold edgeQualified
    split
    · split
      · split <;> exact ⟨_, _, rfl⟩
      all_goals exact ⟨_, _, rfl⟩
    · exact ⟨_, _, rfl⟩

theorem qualified_refiltered (now : Instant) (x : LineState) : Refiltered x (x.qualified now).1 := by
  obtain ⟨a, e, hshape⟩ := qualified_shape now x
  rw [hshape]
  exact refiltered_with_activity a e

theorem lineKept_activity (x : LineState) (a : Activity) : LineKept x { x with activity := a } :=
  ⟨⟨rfl, rfl, rfl, rfl, rfl, rfl⟩, rfl, rfl⟩

/-! ### A qualification, by its event -/

section Qualify

variable {l : Line} {s : State} {x : LineState}

theorem qualify_none (h : (s.line l).qualified s.now = (x, .none)) : qualify l s = s.modLine l fun _ => x := by
  simp only [qualify, h, handActivity]

/-- A qualification that brings no event leaves all but the line. -/
theorem qualify_still (h : (s.line l).qualified s.now = (x, .none)) :
    (qualify l s).line l = x ∧ (qualify l s).pool = s.pool ∧ (qualify l s).resolver = s.resolver ∧
      (qualify l s).ports = s.ports ∧ (qualify l s).watches = s.watches ∧ (qualify l s).modulator = s.modulator ∧
      (qualify l s).output = s.output := by
  rw [qualify_none h]
  exact ⟨State.line_modLine_self s l _, rfl, rfl, rfl, rfl, rfl, rfl⟩

theorem qualify_start (h : (s.line l).qualified s.now = (x, .start)) : LineEvent l true x s (qualify l s) := by
  have hkept : Refiltered (s.line l) x := by simpa only [h] using qualified_refiltered s.now (s.line l)
  simp only [qualify, h, handActivity, activityStart_eq]
  exact activityTaken_modLine (f := fun _ => x) true hkept.toLineKept

theorem qualify_stop (h : (s.line l).qualified s.now = (x, .stop)) : LineEvent l false x s (qualify l s) := by
  have hkept : Refiltered (s.line l) x := by simpa only [h] using qualified_refiltered s.now (s.line l)
  simp only [qualify, h, handActivity, activityEnd_eq]
  exact activityTaken_modLine (f := fun _ => x) false hkept.toLineKept

/-- The first taking of a pulse: the line is active in it (R49, R114). -/
def pulseStart (l : Line) (x : LineState) (s : State) : State :=
  activityTaken l true (s.modLine l fun _ => { x with activity := .stretch })

theorem pulseStart_event (hkept : LineKept (s.line l) x) :
    LineEvent l true { x with activity := .stretch } s (pulseStart l x s) :=
  activityTaken_modLine (f := fun _ => { x with activity := .stretch }) true ⟨hkept.settings, hkept.binding⟩

/-- The second taking of a pulse, from the first. -/
theorem qualify_pulse (h : (s.line l).qualified s.now = (x, .pulse)) :
    LineEvent l false { x with activity := .quiet } (pulseStart l x s) (qualify l s) := by
  have hkept : Refiltered (s.line l) x := by simpa only [h] using qualified_refiltered s.now (s.line l)
  have hstart := pulseStart_event hkept.toLineKept
  have hinner : (s.modLine l fun _ => x).modLine l (fun y => { y with activity := .stretch }) =
      s.modLine l fun _ => { x with activity := .stretch } := modLine_modLine s l _ _
  have hrun : qualify l s =
      activityTaken l false ((pulseStart l x s).modLine l fun y => { y with activity := .quiet }) := by
    rw [qualify, h, pulseStart, ← hinner]
    rfl
  have hend := activityTaken_modLine (l := l) (f := fun y => { y with activity := .quiet }) false
    (lineKept_activity ((pulseStart l x s).line l) .quiet)
  rw [hrun]
  rw [hstart.line] at hend
  exact hend

end Qualify

/-- Every qualification writes the line alone of the line unit, and takes the filtered value from the raw input. -/
theorem qualify_frame (l : Line) (s : State) : LineFrame l s (qualify l s) ∧
    ((qualify l s).line l).filtered = (s.line l).raw ∧ ((qualify l s).line l).filterEnd = none := by
  have hkept := qualified_refiltered s.now (s.line l)
  rcases hq : (s.line l).qualified s.now with ⟨x, e⟩
  rw [hq] at hkept
  cases e with
  | none =>
    rw [qualify_none hq, State.line_modLine_self]
    exact ⟨modLine_lineFrame hkept.toLineKept, hkept.filtered, hkept.filterEnd⟩
  | start =>
    have h := qualify_start hq
    rw [h.line]
    exact ⟨h.frame, hkept.filtered, hkept.filterEnd⟩
  | stop =>
    have h := qualify_stop hq
    rw [h.line]
    exact ⟨h.frame, hkept.filtered, hkept.filterEnd⟩
  | pulse =>
    have h := qualify_pulse hq
    rw [h.line]
    exact ⟨(pulseStart_event hkept.toLineKept).frame.trans h.frame, hkept.filtered, hkept.filterEnd⟩

/-! ### The table of a LEVEL line (R113) -/

section Level

variable {x : LineState} (hsense : x.sense = .level) (now : Instant)

include hsense

theorem level_rises (hact : x.activity = .quiet) (hmatch : matchesPolarity x.polarity x.raw = true) :
    x.qualified now = ({ x.refiltered with activity := .asserted }, .start) := by
  rw [qualified_level hsense]
  simp only [levelQualified, LineState.refiltered, hact, hmatch]

theorem level_stretches (hact : x.activity = .asserted) (hmatch : matchesPolarity x.polarity x.raw = false)
    (hstretch : 0 < x.stretch.val) : x.qualified now = (x.refiltered.startStretch now, .none) := by
  rw [qualified_level hsense]
  simp only [levelQualified, LineState.refiltered, hact, hmatch, hstretch, if_true]

theorem level_falls (hact : x.activity = .asserted) (hmatch : matchesPolarity x.polarity x.raw = false)
    (hstretch : x.stretch.val = 0) : x.qualified now = ({ x.refiltered with activity := .quiet }, .stop) := by
  rw [qualified_level hsense]
  simp only [levelQualified, LineState.refiltered, hact, hmatch, hstretch, lt_irrefl, if_false]

theorem level_reasserts (hact : x.activity = .stretch) (hmatch : matchesPolarity x.polarity x.raw = true) :
    x.qualified now = ({ x.refiltered with activity := .asserted, stretchEnd := none }, .none) := by
  rw [qualified_level hsense]
  simp only [levelQualified, LineState.refiltered, hact, hmatch]

/-- The three cells that cannot arise (log 20). -/
theorem level_stays {m : Bool} (hmatch : matchesPolarity x.polarity x.raw = m)
    (hcell : x.activity = .quiet ∧ m = false ∨ x.activity = .asserted ∧ m = true ∨ x.activity = .stretch ∧ m = false) :
    x.qualified now = (x.refiltered, .none) := by
  rw [qualified_level hsense]
  rcases hcell with ⟨hact, rfl⟩ | ⟨hact, rfl⟩ | ⟨hact, rfl⟩ <;>
    simp only [levelQualified, LineState.refiltered, hact, hmatch]

end Level

/-! ### The table of an EDGE line (R114) -/

section Edge

variable {x : LineState} (hsense : x.sense = .edge) (now : Instant)

include hsense

theorem edge_passes (hedge : qualifyingEdge x x.raw = false) : x.qualified now = (x.refiltered, .none) := by
  have hnot : qualifyingEdge x.refiltered x.refiltered.filtered = false := hedge
  rw [qualified_edge hsense, edgeQualified, if_neg (by simp [hnot])]

theorem edge_qualifies (hedge : qualifyingEdge x x.raw = true) : x.qualified now =
    match x.activity with
    | .quiet => if 0 < x.stretch.val then (x.refiltered.startStretch now, .start) else (x.refiltered, .pulse)
    | .stretch => (x.refiltered.startStretch now, .none)
    | .asserted => (x.refiltered, .none) := by
  have hqualifies : qualifyingEdge x.refiltered x.refiltered.filtered = true := hedge
  rw [qualified_edge hsense, edgeQualified, if_pos hqualifies]
  rfl

end Edge

/-- Settles O35: each cell of the two tables gives the line and the event, and each event is a taking. -/
theorem lineQualifies : Obligations.LineQualifies := by
  refine ⟨fun s l hsense hdue => ?_, fun s l hsense hdue => ?_⟩
  · obtain ⟨hframe, hfiltered, hfilterEnd⟩ := qualify_frame l s
    refine ⟨qualify l s, congrArg Host.Outcome.next (if_pos hdue), hframe, hfiltered, hfilterEnd, ?_⟩
    intro isMatch length same
    have hmatches : matchesPolarity (s.line l).polarity (s.line l).raw = isMatch := matchesPolarity_eq _ _
    refine ⟨fun hact hmatch => ?_, fun hact hmatch => ⟨fun hlength => ?_, fun hlength => ?_⟩, fun hact hmatch => ?_,
      fun hcell => ?_⟩
    · have h := qualify_start (level_rises hsense s.now hact (hmatches.trans hmatch))
      rw [h.line]
      exact ⟨rfl, rfl, h.follows, h.announced⟩
    · obtain ⟨hline, hsame⟩ := qualify_still (level_stretches hsense s.now hact (hmatches.trans hmatch) (by omega))
      rw [hline]
      exact ⟨rfl, rfl, hsame⟩
    · have h := qualify_stop (level_falls hsense s.now hact (hmatches.trans hmatch) (by omega))
      rw [h.line]
      exact ⟨rfl, rfl, h.follows, h.announced⟩
    · obtain ⟨hline, hsame⟩ := qualify_still (level_reasserts hsense s.now hact (hmatches.trans hmatch))
      rw [hline]
      exact ⟨rfl, rfl, hsame⟩
    · obtain ⟨hline, hsame⟩ := qualify_still (level_stays hsense s.now hmatches hcell)
      rw [hline]
      exact ⟨rfl, rfl, hsame⟩
  · obtain ⟨hframe, hfiltered, hfilterEnd⟩ := qualify_frame l s
    refine ⟨qualify l s, congrArg Host.Outcome.next (if_pos hdue), hframe, hfiltered, hfilterEnd, ?_⟩
    intro qualifies length same
    have hedge : qualifyingEdge (s.line l) (s.line l).raw = qualifies :=
      congrArg ((s.line l).anyEdge || ·) (matchesPolarity_eq _ _)
    refine ⟨fun hother => ?_, fun hqualifies hact => ?_, fun hqualifies hact hlength => ?_,
      fun hqualifies hact hlength => ?_⟩
    · obtain ⟨hline, hsame⟩ := qualify_still (edge_passes hsense s.now (hedge.trans hother))
      rw [hline]
      exact ⟨rfl, rfl, hsame⟩
    · have hq := edge_qualifies hsense s.now (hedge.trans hqualifies)
      rw [hact] at hq
      obtain ⟨hline, hsame⟩ := qualify_still hq
      rw [hline]
      exact ⟨rfl, rfl, hsame⟩
    · have hq := edge_qualifies hsense s.now (hedge.trans hqualifies)
      rw [hact] at hq
      have h := qualify_start (hq.trans (if_pos (by omega)))
      rw [h.line]
      exact ⟨rfl, rfl, h.follows, h.announced⟩
    · have hq := edge_qualifies hsense s.now (hedge.trans hqualifies)
      rw [hact] at hq
      have hpulse := hq.trans (if_neg (by omega))
      have hstart := pulseStart_event (lineKept_refiltered (s.line l))
      have h := qualify_pulse hpulse
      rw [h.line]
      refine ⟨rfl, rfl, pulseStart l (s.line l).refiltered s, ?_, hstart.follows, hstart.announced, hstart.cleanEnd,
        h.follows, h.announced, h.frame, hstart.frame.kept.now ▸ h.cleanEnd⟩
      rw [hstart.line]
      rfl

end Sys2Proof.Machine

namespace Sys2Proof.Machine

/-! ### LINE_CONFIG (R117) -/

theorem Follows.accepted {l : Line} {active : Bool} {s t : State} (h : Follows l active s t) (p : Port)
    (hd : Option Handle) (x : Nat) : Follows l active s (acceptedState p hd x t) where
  claim := h.claim
  others := h.others
  lists := h.lists
  redone := fun k c hk hc => (h.redone k c hk hc).accepted p hd x
  unbound := h.unbound
  stage := h.stage.accepted p hd x

theorem LineAnnounced.accepted {l : Line} {d : LineDetail} {s t : State} (h : LineAnnounced l d s t) (p : Port)
    (hd : Option Handle) (x : Nat) : LineAnnounced l d s (acceptedState p hd x t) where
  bound := fun k c hk hc q => (h.bound k c hk hc q).accepted p hd x
  unbound := fun hk q => (h.unbound hk q).accepted p hd x
  spent := h.spent
  spentUnbound := h.spentUnbound

/-- An answer queues no notice. -/
theorem acceptedState_queued (p q : Port) (hd : Option Handle) (x : Nat) (s : State) :
    Queued [] (s.port q) ((acceptedState p hd x s).port q) := by
  rw [acceptedState_port]
  split_ifs with hq
  · exact hq ▸ .of_eq rfl rfl
  · exact .refl _

theorem freshActivity_eq (sense : Sense) (polarity : Polarity) (raw : Bool) :
    freshActivity sense polarity raw =
      if decide (sense = .level) && matchesPolarity polarity raw then .asserted else .quiet := by
  cases sense <;> rfl

theorem isActive_configure (x : LineState) (c : LineSettings) :
    (x.configure c).isActive = (decide (c.sense = .level) && matchesPolarity c.polarity x.raw) := by
  simp only [LineState.isActive, LineState.configure, freshActivity_eq]
  split_ifs with h
  · rw [h]; rfl
  · rw [eq_false_of_ne_true h]; rfl

theorem argLineSettings_eq_some {s : State} {p : Port} {sense : Sense} {polarity : Polarity} {filter : Fin 16}
    {stretch : Fin 256} (hsense : senseOf (field (arg s p 1) 0 2) = some sense)
    (hpolarity : polarityOf (field (arg s p 1) 4 2) = some polarity) (hfilter : argNat s p 2 = filter.val)
    (hstretch : argNat s p 3 = stretch.val) : argLineSettings s p = some
      { sense := sense, polarity := polarity, anyEdge := (arg s p 1).getLsbD 8, filter := filter,
        stretch := stretch } := by
  simp only [argLineSettings, hsense, hpolarity, inRange_eq_some.mpr hfilter, inRange_eq_some.mpr hstretch]

theorem argLineSettings_eq_none {s : State} {p : Port} (h : 1 < field (arg s p 1) 0 2 ∨ 1 < field (arg s p 1) 4 2 ∨
    15 < argNat s p 2 ∨ 255 < argNat s p 3) : argLineSettings s p = none := by
  unfold argLineSettings
  split
  · next sense polarity filter stretch hsense hpolarity hfilter hstretch =>
    rw [inRange_eq_some] at hfilter hstretch
    rcases h with hcode | hcode | hlong | hlong
    · rw [senseOf, twoValued_eq_none.mpr hcode] at hsense
      cases hsense
    · rw [polarityOf, twoValued_eq_none.mpr hcode] at hpolarity
      cases hpolarity
    · omega
    · omega
  · rfl

theorem lineConfigBody_refused {s : State} {p : Port} (h : argLine s p = none ∨ argLineSettings s p = none) :
    lineConfigBody p s = refuse .badArgument 0 s := by
  unfold lineConfigBody
  split
  · next l c hl hc =>
    rw [hl, hc] at h
    simp at h
  · rfl

/-- The activity event of a LINE_CONFIG handed on, with the settings stored (R117). -/
def configureLine (l : Line) (c : LineSettings) (s : State) : State :=
  handActivity l (activityDifference (s.line l).isActive ((s.line l).configure c).isActive)
    (s.modLine l fun _ => (s.line l).configure c)

theorem lineConfigBody_done {s : State} {p : Port} {l : Line} {c : LineSettings} (hl : argNat s p 5 = l.val)
    (hc : argLineSettings s p = some c) : lineConfigBody p s =
      done none (if ((s.line l).configure c).isActive then 1 else 0) (configureLine l c s) := by
  simp only [lineConfigBody, argLine, inRange_eq_some.mpr hl, hc, configureLine]

/-- What LINE_CONFIG leaves of the rest of the state, before its answer. -/
structure Configured (l : Line) (c : LineSettings) (s t : State) : Prop where
  lines : t.lines = tmod s.lines l fun _ => (s.line l).configure c
  players : t.players = s.players
  scenes : t.scenes = s.scenes
  access : t.access = s.access
  results : SameResults s t
  kept : Kept s t

theorem ActivityTaken.configured {l : Line} {active : Bool} {c : LineSettings} {s t : State}
    (h : ActivityTaken l active (s.modLine l fun _ => (s.line l).configure c) t) : Configured l c s t where
  lines := h.lines
  players := h.players
  scenes := h.scenes
  access := h.access
  results := h.results
  kept := (modLine_kept s l _).trans h.kept

section Configure

variable {l : Line} {c : LineSettings} {s : State}

theorem configureLine_same (h : (s.line l).isActive = ((s.line l).configure c).isActive) :
    configureLine l c s = s.modLine l fun _ => (s.line l).configure c := by
  rw [configureLine, h]
  cases ((s.line l).configure c).isActive <;> rfl

theorem configureLine_stops (hwas : (s.line l).isActive = true) (hnow : ((s.line l).configure c).isActive = false) :
    configureLine l c s = activityTaken l false (s.modLine l fun _ => (s.line l).configure c) := by
  rw [configureLine, hwas, hnow]
  rfl

theorem configureLine_starts (hwas : (s.line l).isActive = false) (hnow : ((s.line l).configure c).isActive = true) :
    configureLine l c s = activityTaken l true (s.modLine l fun _ => (s.line l).configure c) := by
  rw [configureLine, hwas, hnow]
  rfl

theorem configureLine_configured (l : Line) (c : LineSettings) (s : State) : Configured l c s (configureLine l c s) := by
  cases hwas : (s.line l).isActive <;> cases hnow : ((s.line l).configure c).isActive
  case true.false => exact configureLine_stops hwas hnow ▸ (activityTaken_taken l false _).configured
  case false.true => exact configureLine_starts hwas hnow ▸ (activityTaken_taken l true _).configured
  all_goals
    rw [configureLine_same (hwas.trans hnow.symm)]
    exact ⟨rfl, rfl, rfl, rfl, .of_ports rfl, modLine_kept s l _⟩

end Configure

/-- Settles O36. -/
theorem lineConfigTakesActivityAfresh : Obligations.LineConfigTakesActivityAfresh := by
  intro p s htaken
  refine ⟨fun h => congrArg Host.Outcome.next (takeCommand_refused htaken (lineConfigBody_refused ?_) (by decide)),
    fun l sense polarity filter stretch hl hsense hpolarity hfilter hstretch => ?_⟩
  · rcases h with hline | hsettings
    · exact .inl (argLine_eq_none.mpr hline)
    · exact .inr (argLineSettings_eq_none hsettings)
  · intro isMatch active
    have hc := argLineSettings_eq_some hsense hpolarity hfilter hstretch
    set c : LineSettings :=
      { sense := sense, polarity := polarity, anyEdge := (arg s p 1).getLsbD 8, filter := filter, stretch := stretch }
    have hmatches : matchesPolarity polarity (s.line l).raw = isMatch := matchesPolarity_eq _ _
    have hactive : ((s.line l).configure c).isActive = active := by rw [isActive_configure, hmatches]
    have hdone := lineConfigBody_done hl hc
    rw [hactive] at hdone
    have hconfigured := configureLine_configured l c s
    have hlines (k : Line) : (configureLine l c s).line k = if k = l then (s.line l).configure c else s.line k := by
      rw [State.line, hconfigured.lines]
      exact tget_tmod _ _ _ _
    refine ⟨_, congrArg Host.Outcome.next (takeCommand_done htaken hdone), ?_, fun k hk => ?_, fun hsame => ?_,
      fun hwas hnow => ?_, fun hwas hnow => ?_, acceptedState_accepted hconfigured.results,
      acceptedState_others hconfigured.results, hconfigured.kept.trans (acceptedState_kept p none _ _),
      hconfigured.access, hconfigured.scenes, hconfigured.players⟩
    · rw [acceptedState_line, hlines, if_pos rfl, LineState.configure, freshActivity_eq, hmatches]
    · rw [acceptedState_line, hlines, if_neg hk]
    · rw [configureLine_same (hsame.trans hactive.symm)]
      exact ⟨rfl, rfl, rfl, rfl, fun q => acceptedState_queued p q none _ _⟩
    · rw [configureLine_stops hwas (hactive.trans hnow)]
      have h := activityTaken_taken l false (s.modLine l fun _ => (s.line l).configure c)
      exact ⟨(h.follows.of_modLine rfl).accepted p none _, (h.announced.of_modLine rfl).accepted p none _⟩
    · rw [configureLine_starts hwas (hactive.trans hnow)]
      have h := activityTaken_taken l true (s.modLine l fun _ => (s.line l).configure c)
      exact ⟨(h.follows.of_modLine rfl).accepted p none _, (h.announced.of_modLine rfl).accepted p none _⟩

end Sys2Proof.Machine

namespace Sys2Proof.Machine

/-! ## The steps of a player in one taking (R89 to R93) -/

/-! ### The notices of a player, one after another -/

/-- A write of a player's fields that keeps the holder and the claim, which its notices name. -/
def KeepsClaim (f : Player → Player) : Prop := ∀ x, (f x).holder = x.holder ∧ (f x).claim = x.claim

/-- PLAYER notices to the holder, one after another (R181). -/
def tellPlayer (n : PlayerNo) (ds : List PlayerDetail) (s : State) : State :=
  ds.foldl (fun s d => playerNotice n d s) s

theorem tellPlayer_append (n : PlayerNo) (ds es : List PlayerDetail) (s : State) :
    tellPlayer n (ds ++ es) s = tellPlayer n es (tellPlayer n ds s) := List.foldl_append

theorem playerNotice_frame (n : PlayerNo) (d : PlayerDetail) (s : State) :
    playerNotice n d s = { s with ports := (playerNotice n d s).ports } := by
  unfold playerNotice
  split
  · split <;> rfl
  · rfl

theorem ports_frame_trans {s u v : State} (h : u = { s with ports := u.ports }) (k : v = { u with ports := v.ports }) :
    v = { s with ports := v.ports } := by
  rw [h] at k
  exact k

theorem tellPlayer_frame (n : PlayerNo) (ds : List PlayerDetail) (s : State) :
    tellPlayer n ds s = { s with ports := (tellPlayer n ds s).ports } := by
  induction ds generalizing s with
  | nil => rfl
  | cons d ds ih => exact ports_frame_trans (playerNotice_frame n d s) (ih (playerNotice n d s))

theorem tellPlayer_player (n m : PlayerNo) (ds : List PlayerDetail) (s : State) :
    (tellPlayer n ds s).player m = s.player m := by
  rw [tellPlayer_frame]
  rfl

/-- A notice names a player's holder and claim, and a write that keeps both may come after it. -/
theorem modPlayer_playerNotice {n : PlayerNo} {f : Player → Player} (hf : KeepsClaim f) (d : PlayerDetail) (s : State) :
    (playerNotice n d s).modPlayer n f = playerNotice n d (s.modPlayer n f) := by
  have hclaimAt (h : Handle) : claimAt (s.modPlayer n f) h = claimAt s h := rfl
  obtain ⟨hholder, hclaim⟩ := hf (s.player n)
  simp only [playerNotice, State.player_modPlayer_self, hholder, hclaim, hclaimAt]
  cases (s.player n).holder with
  | none => rfl
  | some p =>
    cases (s.player n).claim with
    | none => rfl
    | some h => cases hc : claimAt s h with
      | none => simp only [hc]
      | some c => simp only [hc]; rfl

theorem modPlayer_tellPlayer {n : PlayerNo} {f : Player → Player} (hf : KeepsClaim f) (ds : List PlayerDetail) (s : State) :
    (tellPlayer n ds s).modPlayer n f = tellPlayer n ds (s.modPlayer n f) := by
  induction ds generalizing s with
  | nil => rfl
  | cons d ds ih =>
    show (tellPlayer n ds (playerNotice n d s)).modPlayer n f = tellPlayer n ds (playerNotice n d (s.modPlayer n f))
    rw [ih, modPlayer_playerNotice hf]

theorem modPlayer_modPlayer (s : State) (n : PlayerNo) (f g : Player → Player) :
    (s.modPlayer n f).modPlayer n g = s.modPlayer n fun x => g (f x) := by
  have hplayers : tmod (tmod s.players n f) n g = tmod s.players n fun x => g (f x) := table_ext fun i => by
    simp only [tget_tmod]
    split_ifs <;> rfl
  simp only [State.modPlayer, hplayers]

theorem modPlayer_congr {s : State} {n : PlayerNo} {f g : Player → Player} (h : f (s.player n) = g (s.player n)) :
    s.modPlayer n f = s.modPlayer n g := by
  simp only [State.player] at h
  simp only [State.modPlayer, tmod, h]

theorem modPlayer_self {s : State} {n : PlayerNo} {f : Player → Player} (h : f (s.player n) = s.player n) :
    s.modPlayer n f = s := by
  simp only [State.player] at h
  simp only [State.modPlayer, tmod, h, tset_tget]

/-- The notices of a player to a port (R181). -/
def playerTold (q : Port) (n : PlayerNo) (ds : List PlayerDetail) (s : State) : List Notice :=
  match (s.player n).holder, (s.player n).claim with
  | some p, some h =>
    match claimAt s h with
    | some c => if q = p then ds.map (.player n h p c.tag) else []
    | none => []
  | _, _ => []

theorem playerTold_nil (q : Port) (n : PlayerNo) (s : State) : playerTold q n [] s = [] := by
  unfold playerTold
  split
  · split
    · split_ifs <;> rfl
    · rfl
  · rfl

theorem playerTold_of_claim {q p : Port} {n : PlayerNo} {s : State} {h : Handle} {c : Claim} (ds : List PlayerDetail)
    (hholder : (s.player n).holder = some p) (hclaim : (s.player n).claim = some h) (hlive : claimAt s h = some c) :
    playerTold q n ds s = if q = p then ds.map (.player n h p c.tag) else [] := by
  simp only [playerTold, hholder, hclaim, hlive]

theorem playerTold_cons (q : Port) (n : PlayerNo) (d : PlayerDetail) (ds : List PlayerDetail) (s : State) :
    playerTold q n (d :: ds) s = playerTold q n [d] s ++ playerTold q n ds s := by
  unfold playerTold
  split
  · split
    · split_ifs <;> rfl
    · rfl
  · rfl

theorem playerTold_modPlayer {f : Player → Player} (hf : KeepsClaim f) (q : Port) (n : PlayerNo) (ds : List PlayerDetail)
    (s : State) : playerTold q n ds (s.modPlayer n f) = playerTold q n ds s := by
  have hclaimAt (h : Handle) : claimAt (s.modPlayer n f) h = claimAt s h := rfl
  obtain ⟨hholder, hclaim⟩ := hf (s.player n)
  simp only [playerTold, State.player_modPlayer_self, hholder, hclaim, hclaimAt]

theorem playerNotice_readied (n : PlayerNo) (d : PlayerDetail) (s : State) :
    Readied (fun q => playerTold q n [d] s) s.watch s (playerNotice n d s) := by
  have hsilent : Readied (fun _ => []) s.watch s s :=
    .of_eq (fun _ => rfl) (fun _ => rfl) (fun _ => rfl) rfl rfl rfl rfl rfl
  cases hholder : (s.player n).holder with
  | none => simpa only [playerTold, playerNotice, hholder] using hsilent
  | some p =>
    cases hclaim : (s.player n).claim with
    | none => simpa only [playerTold, playerNotice, hholder, hclaim] using hsilent
    | some h =>
      cases hlive : claimAt s h with
      | none => simpa only [playerTold, playerNotice, hholder, hclaim, hlive] using hsilent
      | some c =>
        simpa only [playerTold, playerNotice, hholder, hclaim, hlive, List.map_cons, List.map_nil] using
          offer_readied p (.player n h p c.tag d) s

theorem tellPlayer_readied (n : PlayerNo) (ds : List PlayerDetail) (s : State) :
    Readied (fun q => playerTold q n ds s) s.watch s (tellPlayer n ds s) := by
  induction ds generalizing s with
  | nil =>
    simp only [playerTold_nil]
    exact .of_eq (fun _ => rfl) (fun _ => rfl) (fun _ => rfl) rfl rfl rfl rfl rfl
  | cons d ds ih =>
    have hfirst := playerNotice_readied n d s
    have hrest := ih (playerNotice n d s)
    rw [hfirst.watch] at hrest
    refine hfirst.trans hrest fun q => ?_
    rw [playerTold_cons q n d ds s, playerNotice_frame n d s]
    rfl

/-! ### The beginnings of a run -/

theorem begin_keepsClaim (now : Instant) : KeepsClaim (Player.begin now) := fun x => by
  unfold Player.begin
  split <;> exact ⟨rfl, rfl⟩

theorem beginStep_eq (n : PlayerNo) (s : State) : beginStep n s =
    tellPlayer n (if (s.player n).lowWater then [.lowWater] else []) (s.modPlayer n (Player.begin s.now)) := by
  unfold beginStep
  dsimp only
  split_ifs <;> rfl

/-- The notice of some beginnings that leave a number of steps in the queue (R93). -/
def lowWaterTold (x : Player) (left : Nat) : List PlayerDetail :=
  if x.state == .playing && !x.recirculating && !x.streamComplete && fallsToEight x.queue.length left then [.lowWater]
  else []

/-- What a number of beginnings leaves of a player beside its queue, its current step and its level. -/
structure Begun (m : Nat) (x y : Player) : Prop where
  state : y.state = x.state
  streamComplete : y.streamComplete = x.streamComplete
  mode : y.mode = x.mode
  left : y.queue.length = if x.recirculating then x.queue.length else x.queue.length - m

theorem Begun.recirculating {m : Nat} {x y : Player} (h : Begun m x y) : y.recirculating = x.recirculating := by
  simp only [Player.recirculating, h.state, h.streamComplete, h.mode]

theorem begin_begun (now : Instant) (x : Player) : Begun 1 x (Player.begin now x) := by
  unfold Player.begin
  split
  · next hq => exact ⟨rfl, rfl, rfl, by simp [hq]⟩
  · next st rest hq =>
    refine ⟨rfl, rfl, rfl, ?_⟩
    dsimp only
    split_ifs <;> simp [hq]

theorem Begun.trans {m k : Nat} {x y z : Player} (h : Begun m x y) (g : Begun k y z) : Begun (m + k) x z where
  state := g.state.trans h.state
  streamComplete := g.streamComplete.trans h.streamComplete
  mode := g.mode.trans h.mode
  left := by
    rw [g.left, h.recirculating, h.left]
    split_ifs
    · rfl
    · omega

theorem begins_begun (now : Instant) (x : Player) (m : Nat) : Begun m x ((Player.begin now)^[m] x) := by
  induction m with
  | zero => exact ⟨rfl, rfl, rfl, by simp⟩
  | succ m ih =>
    rw [Function.iterate_succ_apply']
    exact ih.trans (begin_begun now _)

theorem begins_keepsClaim (now : Instant) (m : Nat) : KeepsClaim (Player.begin now)^[m] := by
  induction m with
  | zero => exact fun _ => ⟨rfl, rfl⟩
  | succ m ih =>
    intro x
    rw [Function.iterate_succ_apply']
    obtain ⟨hholder, hclaim⟩ := begin_keepsClaim now ((Player.begin now)^[m] x)
    exact ⟨hholder.trans (ih x).1, hclaim.trans (ih x).2⟩

/-- A run gives LOW_WATER once, at the beginning that takes the count from 9 to 8 (R93). -/
theorem lowWaterTold_succ {m : Nat} {x y : Player} (h : Begun m x y) (hm : m < x.queue.length) :
    lowWaterTold x (x.queue.length - m) ++ (if y.lowWater then [.lowWater] else []) =
      lowWaterTold x (x.queue.length - (m + 1)) := by
  unfold lowWaterTold Player.lowWater
  rw [h.recirculating, h.state, h.streamComplete, h.left]
  cases hplaying : (x.state == .playing && !x.recirculating && !x.streamComplete) with
  | false => simp
  | true =>
    have hline : x.recirculating = false := by
      simp only [Bool.and_eq_true, Bool.not_eq_true'] at hplaying
      exact hplaying.1.2
    simp only [hline, Bool.false_eq_true, if_false, Bool.true_and, fallsToEight, Bool.and_eq_true, decide_eq_true_eq,
      beq_iff_eq]
    by_cases hnine : x.queue.length - m = 9
    · rw [if_neg (by omega), if_pos hnine, if_pos (by omega)]
      rfl
    · rw [if_neg hnine, List.append_nil]
      exact if_congr (by omega) rfl rfl

theorem lowWaterTold_start (x : Player) : lowWaterTold x x.queue.length = [] := by
  have hnot : fallsToEight x.queue.length x.queue.length = false := by
    simp only [fallsToEight, Bool.and_eq_false_iff, decide_eq_false_iff_not]
    omega
  simp [lowWaterTold, hnot]

/-- The beginnings of some steps, one after another: the player's fields, then LOW_WATER where the count falls to 8. -/
theorem beginSteps_eq (n : PlayerNo) (s : State) {m : Nat} (hm : m ≤ (s.player n).queue.length) :
    (beginStep n)^[m] s = tellPlayer n (lowWaterTold (s.player n) ((s.player n).queue.length - m))
      (s.modPlayer n (Player.begin s.now)^[m]) := by
  induction m with
  | zero =>
    rw [Nat.sub_zero, lowWaterTold_start]
    exact (modPlayer_self rfl).symm
  | succ m ih =>
    have hbegun := begins_begun s.now (s.player n) m
    have hnow : (tellPlayer n (lowWaterTold (s.player n) ((s.player n).queue.length - m))
        (s.modPlayer n (Player.begin s.now)^[m])).now = s.now := by
      rw [tellPlayer_frame]
      rfl
    rw [Function.iterate_succ_apply', ih (by omega), beginStep_eq, tellPlayer_player, State.player_modPlayer_self, hnow,
      modPlayer_tellPlayer (begin_keepsClaim s.now), ← tellPlayer_append, lowWaterTold_succ hbegun (by omega),
      modPlayer_modPlayer]
    exact congrArg _ (modPlayer_congr (Function.iterate_succ_apply' _ _ _).symm)

end Sys2Proof.Machine

namespace Sys2Proof.Machine

/-! ### Runs of zero-time steps (R91) -/

theorem zeroTime_iff (st : PlayerStep) : st.zeroTime = true ↔ st.ramp = 0 ∧ st.hold = 0 := by
  simp only [PlayerStep.zeroTime, Bool.and_eq_true, beq_iff_eq, Fin.val_eq_zero_iff]

theorem zeroTime_of_not {st : PlayerStep} (h : ¬ AllZeroTime [st]) : st.zeroTime = false :=
  eq_false_of_ne_true fun hzero => h (by simpa [AllZeroTime] using (zeroTime_iff st).mp hzero)

theorem begin_cons {x : Player} {st : PlayerStep} {rest : List PlayerStep} (hq : x.queue = st :: rest) (now : Instant) :
    Player.begin now x = { x with
      queue := if x.recirculating then rest ++ [st] else rest,
      current := some { step := st, origin := x.level, began := now, updates := 0 },
      level := if st.ramp.val = 0 then st.level else x.level } := by
  simp only [Player.begin, hq]

/-- A player past its zero-time steps, up to its current step: each has taken it to its own level (R89, R91). -/
theorem begins_zeros (now : Instant) {zeros : List PlayerStep} (hz : AllZeroTime zeros) (rest : List PlayerStep)
    {x : Player} (hq : x.queue = zeros ++ rest) : ∃ cur, (Player.begin now)^[zeros.length] x = { x with
      queue := if x.recirculating then rest ++ zeros else rest, level := levelAfter zeros x.level, current := cur } := by
  induction zeros generalizing x rest with
  | nil =>
    refine ⟨x.current, ?_⟩
    have hrest : x.queue = rest := hq
    simp only [List.append_nil, ite_self, ← hrest]
    rfl
  | cons z zs ih =>
    obtain ⟨hz0, hzs⟩ := List.forall_mem_cons.mp hz
    have hramp : z.ramp.val = 0 := by rw [hz0.1]; rfl
    have hbegin := begin_cons hq now
    rw [if_pos hramp] at hbegin
    obtain ⟨cur, hcur⟩ := ih hzs (if x.recirculating then rest ++ [z] else rest) (x := Player.begin now x)
      (by rw [hbegin]; dsimp only; split_ifs <;> simp)
    refine ⟨cur, ?_⟩
    have hrec := (begin_begun now x).recirculating
    rw [List.length_cons, Function.iterate_succ_apply, hcur, hrec, hbegin]
    cases x.recirculating <;> simp [levelAfter]

theorem beginStep_player (n : PlayerNo) (s : State) : (beginStep n s).player n = Player.begin s.now (s.player n) := by
  rw [beginStep_eq, tellPlayer_player, State.player_modPlayer_self]

theorem runSteps_zeros (n : PlayerNo) {zeros : List PlayerStep} (hz : AllZeroTime zeros) (rest : List PlayerStep) (k : Nat)
    {s : State} (hq : (s.player n).queue = zeros ++ rest) :
    runSteps (zeros.length + k) n s = runSteps k n ((beginStep n)^[zeros.length] s) := by
  induction zeros generalizing s rest with
  | nil => simp
  | cons z zs ih =>
    obtain ⟨hz0, hzs⟩ := List.forall_mem_cons.mp hz
    have hzero : z.zeroTime = true := (zeroTime_iff z).mpr hz0
    have hfuel : (z :: zs).length + k = zs.length + k + 1 := by rw [List.length_cons]; omega
    have hcons : (s.player n).queue = z :: (zs ++ rest) := hq
    have hstep : runSteps (zs.length + k + 1) n s = runSteps (zs.length + k) n (beginStep n s) := by
      simp only [runSteps, hcons, hzero, if_true]
    have hleft : ((beginStep n s).player n).queue =
        zs ++ (if (s.player n).recirculating then rest ++ [z] else rest) := by
      rw [beginStep_player, begin_cons hcons]
      dsimp only
      split_ifs <;> simp
    rw [hfuel, hstep, ih hzs _ hleft, List.length_cons, Function.iterate_succ_apply]

theorem beginSteps_player (n : PlayerNo) (s : State) {m : Nat} (hm : m ≤ (s.player n).queue.length) :
    ((beginStep n)^[m] s).player n = (Player.begin s.now)^[m] (s.player n) := by
  rw [beginSteps_eq n s hm, tellPlayer_player, State.player_modPlayer_self]

/-- A run that ends with a step that takes time (R89, R91). -/
theorem runQueue_toStep {n : PlayerNo} {s : State} {zeros more : List PlayerStep} {st : PlayerStep}
    (hq : (s.player n).queue = zeros ++ st :: more) (hz : AllZeroTime zeros) (hst : st.zeroTime = false) :
    runQueue n s = (beginStep n)^[zeros.length + 1] s := by
  have hlength : (s.player n).queue.length + 1 = zeros.length + (more.length + 2) := by
    rw [hq, List.length_append, List.length_cons]
    omega
  obtain ⟨cur, hpassed⟩ := begins_zeros s.now hz (st :: more) hq
  have hhead : ∃ tail, (((beginStep n)^[zeros.length] s).player n).queue = st :: tail := by
    rw [beginSteps_player n s (by rw [hq, List.length_append]; omega), hpassed]
    dsimp only
    split_ifs
    · exact ⟨_, rfl⟩
    · exact ⟨_, rfl⟩
  obtain ⟨tail, htail⟩ := hhead
  rw [runQueue, hlength, runSteps_zeros n hz _ _ hq, Function.iterate_succ_apply']
  simp only [runSteps, htail, hst, Bool.false_eq_true, if_false]

/-- A run that empties the queue (R90, R91). -/
theorem runQueue_toEnd {n : PlayerNo} {s : State} {zeros : List PlayerStep} (hq : (s.player n).queue = zeros)
    (hz : AllZeroTime zeros) (hline : zeros = [] ∨ (s.player n).recirculating = false) :
    runQueue n s = if (s.player n).streamComplete then finishPlayer n ((beginStep n)^[zeros.length] s)
      else starve n ((beginStep n)^[zeros.length] s) := by
  have hq' : (s.player n).queue = zeros ++ [] := by rw [hq, List.append_nil]
  obtain ⟨cur, hpassed⟩ := begins_zeros s.now hz [] hq'
  have hplayer := beginSteps_player n s (m := zeros.length) (by rw [hq])
  have hempty : (((beginStep n)^[zeros.length] s).player n).queue = [] := by
    rw [hplayer, hpassed]
    rcases hline with hnil | hline
    · simp [hnil]
    · simp [hline]
  have hstream : (((beginStep n)^[zeros.length] s).player n).streamComplete = (s.player n).streamComplete := by
    rw [hplayer, hpassed]
  rw [runQueue, hq, runSteps_zeros n hz _ _ hq']
  simp only [runSteps, hempty, hstream]

/-! ### How a run leaves the player -/

/-- The player STARVED or HOLDING past the zero-time steps. -/
def Player.ended (now : Instant) (m : Nat) (state : PlayerState) (x : Player) : Player :=
  { (Player.begin now)^[m] x with current := none, state := state }

theorem ended_keepsClaim (now : Instant) (m : Nat) (state : PlayerState) : KeepsClaim (Player.ended now m state) :=
  fun x => begins_keepsClaim now m x

section Run

variable {n : PlayerNo} {s : State} {zeros : List PlayerStep}

/-- A run to a step, as one write of the player and its notices. -/
theorem runQueue_steps {more : List PlayerStep} {st : PlayerStep} (hq : (s.player n).queue = zeros ++ st :: more)
    (hz : AllZeroTime zeros) (hst : st.zeroTime = false) : runQueue n s =
      tellPlayer n (lowWaterTold (s.player n) more.length) (s.modPlayer n (Player.begin s.now)^[zeros.length + 1]) := by
  have hlength : (s.player n).queue.length = zeros.length + 1 + more.length := by
    rw [hq, List.length_append, List.length_cons]
    omega
  have hleft : (s.player n).queue.length - (zeros.length + 1) = more.length := by omega
  rw [runQueue_toStep hq hz hst, beginSteps_eq n s (by omega), hleft]

theorem runQueue_end (hq : (s.player n).queue = zeros) (hz : AllZeroTime zeros)
    (hline : zeros = [] ∨ (s.player n).recirculating = false) :
    runQueue n s =
      let u := tellPlayer n (lowWaterTold (s.player n) 0) (s.modPlayer n (Player.begin s.now)^[zeros.length])
      if (s.player n).streamComplete then finishPlayer n u else starve n u := by
  have hleft : (s.player n).queue.length - zeros.length = 0 := by rw [hq, Nat.sub_self]
  rw [runQueue_toEnd hq hz hline, beginSteps_eq n s (by rw [hq]), hleft]

theorem lowWaterTold_complete {x : Player} (h : x.streamComplete = true) (left : Nat) : lowWaterTold x left = [] := by
  simp [lowWaterTold, h]

theorem current_keepsClaim (state : PlayerState) : KeepsClaim fun x => { x with current := none, state := state } :=
  fun _ => ⟨rfl, rfl⟩

/-- A run that empties the queue, stream-complete clear: STARVED (R90). -/
theorem runQueue_starves (hq : (s.player n).queue = zeros) (hz : AllZeroTime zeros)
    (hline : zeros = [] ∨ (s.player n).recirculating = false) (hstream : (s.player n).streamComplete = false) :
    runQueue n s = tellPlayer n (lowWaterTold (s.player n) 0 ++ [.starved])
      (s.modPlayer n (Player.ended s.now zeros.length .starved)) := by
  rw [runQueue_end hq hz hline]
  dsimp only
  rw [hstream, if_neg (by decide), starve, modPlayer_tellPlayer (current_keepsClaim .starved), modPlayer_modPlayer,
    tellPlayer_append]
  rfl

/-- A finish with HOLD (R102). -/
theorem finishPlayer_hold (h : (s.player n).finish = .hold) : finishPlayer n s =
    tellPlayer n [.finished] (s.modPlayer n fun x => { x with current := none, state := .holding }) := by
  simp only [finishPlayer, h]
  rfl

/-- A finish with RELEASE (R103). -/
theorem finishPlayer_release {h : Handle} (hfinish : (s.player n).finish = .release)
    (hclaim : (s.player n).claim = some h) : finishPlayer n s = freeRecords .playerFinish true [h.slot] s := by
  simp only [finishPlayer, hfinish, hclaim]

/-- What a run of zero-time steps leaves of the finish action. -/
theorem begins_finish (now : Instant) (m : Nat) (x : Player) : ((Player.begin now)^[m] x).finish = x.finish := by
  induction m with
  | zero => rfl
  | succ m ih =>
    rw [Function.iterate_succ_apply', ← ih, Player.begin]
    split <;> rfl

theorem runQueue_holds (hq : (s.player n).queue = zeros) (hz : AllZeroTime zeros)
    (hline : zeros = [] ∨ (s.player n).recirculating = false) (hstream : (s.player n).streamComplete = true)
    (hfinish : (s.player n).finish = .hold) :
    runQueue n s = tellPlayer n [.finished] (s.modPlayer n (Player.ended s.now zeros.length .holding)) := by
  rw [runQueue_end hq hz hline, lowWaterTold_complete hstream]
  dsimp only
  rw [hstream, if_pos rfl, finishPlayer_hold (by
    rw [tellPlayer_player, State.player_modPlayer_self, begins_finish, hfinish]),
    modPlayer_tellPlayer (current_keepsClaim .holding), modPlayer_modPlayer]
  rfl

theorem runQueue_releases {h : Handle} (hq : (s.player n).queue = zeros) (hz : AllZeroTime zeros)
    (hline : zeros = [] ∨ (s.player n).recirculating = false) (hstream : (s.player n).streamComplete = true)
    (hfinish : (s.player n).finish = .release) (hclaim : (s.player n).claim = some h) : runQueue n s =
      freeRecords .playerFinish true [h.slot] (s.modPlayer n (Player.begin s.now)^[zeros.length]) := by
  have hkeeps := begins_keepsClaim s.now zeros.length (s.player n)
  rw [runQueue_end hq hz hline, lowWaterTold_complete hstream]
  dsimp only
  rw [hstream, if_pos rfl, finishPlayer_release (h := h)]
  · rfl
  · rw [tellPlayer_player, State.player_modPlayer_self, begins_finish, hfinish]
  · rw [tellPlayer_player, State.player_modPlayer_self, hkeeps.2, hclaim]

end Run

end Sys2Proof.Machine

namespace Sys2Proof.Machine

/-! ## The takings of a player (R88 to R103) -/

/-- What a taking of a player leaves that writes the player, tells its holder, and redoes resolution on a set. -/
structure PlayerTaken (n : PlayerNo) (ds : List PlayerDetail) (y : Player) (cs : ChannelSet) (s t : State) : Prop
    extends Settled (fun q => playerTold q n ds s) s.watch cs s t where
  player : t.player n = y
  others : ∀ m, m ≠ n → t.player m = s.player m
  resolver : cs = 0 → t.resolver = s.resolver
  kept : Kept s t
  pool : t.pool = s.pool
  access : t.access = s.access
  scenes : t.scenes = s.scenes
  lines : t.lines = s.lines

theorem playerNotice_kept (n : PlayerNo) (d : PlayerDetail) (s : State) : Kept s (playerNotice n d s) := by
  unfold playerNotice
  split
  · split
    · exact offer_kept _ _ s
    · exact .refl s
  · exact .refl s

theorem tellPlayer_kept (n : PlayerNo) (ds : List PlayerDetail) (s : State) : Kept s (tellPlayer n ds s) :=
  forEach_kept ds (playerNotice n) (playerNotice_kept n) s

theorem player_readied {f : Player → Player} (hf : KeepsClaim f) (n : PlayerNo) (ds : List PlayerDetail) (s : State) :
    Readied (fun q => playerTold q n ds s) s.watch s (tellPlayer n ds (s.modPlayer n f)) := by
  have htold : Readied (fun q => playerTold q n ds (s.modPlayer n f)) s.watch (s.modPlayer n f) _ :=
    tellPlayer_readied n ds (s.modPlayer n f)
  exact (modPlayer_readied n f s).trans htold fun q => playerTold_modPlayer hf q n ds s

theorem player_taken {f : Player → Player} (hf : KeepsClaim f) (n : PlayerNo) (ds : List PlayerDetail) (cs : ChannelSet)
    (s : State) : PlayerTaken n ds (f (s.player n)) cs s
      (settle .demand (resolveSet none true cs (tellPlayer n ds (s.modPlayer n f)))) := by
  have hframe := tellPlayer_frame n ds (s.modPlayer n f)
  have hkept : Kept s (tellPlayer n ds (s.modPlayer n f)) :=
    (modPlayer_kept s n f).trans (tellPlayer_kept n ds (s.modPlayer n f))
  exact
    { ((player_readied hf n ds s).resolve cs).settle with
      player := by rw [settle_player, resolveSet_player, tellPlayer_player, State.player_modPlayer_self]
      others := fun m hm => by
        rw [settle_player, resolveSet_player, tellPlayer_player, State.player_modPlayer, if_neg hm]
      resolver := fun hzero => by rw [settle_resolver, hzero, resolveSet_zero, hframe]; rfl
      kept := (hkept.trans (resolveSet_kept none true cs _)).trans (settle_kept .demand _)
      pool := by rw [settle_pool, resolveSet_pool, hframe]; rfl
      access := by rw [settle_access, resolveSet_access, hframe]; rfl
      scenes := by rw [settle_scenes, resolveSet_scenes, hframe]; rfl
      lines := by rw [settle_lines, resolveSet_lines, hframe]; rfl }

/-- The set on which a player's level is handed, of a level last handed and the level now (R92). -/
def handedOn (n : PlayerNo) (s : State) (last level : Level) : ChannelSet :=
  if level = last then 0 else playerChannels n s

/-- A player with its level handed (R92). -/
def Player.handed (x : Player) : Player := { x with lastHanded := x.level }

theorem handed_of_same {x : Player} (h : x.level = x.lastHanded) : x.handed = x := by
  rcases x with ⟨_, _, _, _, _, _, _, _, _, _⟩
  cases h
  rfl

theorem handed_keepsClaim {f : Player → Player} (hf : KeepsClaim f) : KeepsClaim fun x => (f x).handed := hf

theorem handPlayerLevel_eq {f : Player → Player} (hf : KeepsClaim f) (e : Bool) (n : PlayerNo) (ds : List PlayerDetail)
    (s : State) : handPlayerLevel e n (tellPlayer n ds (s.modPlayer n f)) =
      resolveSet none e (handedOn n s (f (s.player n)).lastHanded (f (s.player n)).level)
        (tellPlayer n ds (s.modPlayer n fun x => (f x).handed)) := by
  have hplayer : (tellPlayer n ds (s.modPlayer n f)).player n = f (s.player n) := by
    rw [tellPlayer_player, State.player_modPlayer_self]
  have hkeeps : KeepsClaim Player.handed := fun _ => ⟨rfl, rfl⟩
  have hchannels : playerChannels n (tellPlayer n ds (s.modPlayer n f)) = playerChannels n s := by
    have hclaimAt (h : Handle) : claimAt (tellPlayer n ds (s.modPlayer n f)) h = claimAt s h :=
      claimAt_congr (by rw [tellPlayer_frame]; rfl) h
    simp only [playerChannels, hplayer, (hf (s.player n)).2, hclaimAt]
  have hwrite : (tellPlayer n ds (s.modPlayer n f)).modPlayer n Player.handed =
      tellPlayer n ds (s.modPlayer n fun x => (f x).handed) := by
    rw [modPlayer_tellPlayer hkeeps, modPlayer_modPlayer]
  by_cases hsame : (f (s.player n)).level = (f (s.player n)).lastHanded
  · rw [handPlayerLevel_same (by rw [hplayer, hsame]), handedOn, if_pos hsame, resolveSet_zero]
    exact congrArg _ (modPlayer_congr (handed_of_same hsame).symm)
  · rw [handedOn, if_neg hsame, ← hwrite, ← hchannels]
    unfold handPlayerLevel
    rw [if_neg (by rw [hplayer]; exact hsame)]
    rfl

/-- A taking of a player whose level is handed at its end (R92). -/
theorem handPlayerLevel_taken {f : Player → Player} (hf : KeepsClaim f) (n : PlayerNo) (ds : List PlayerDetail)
    (s : State) : PlayerTaken n ds (f (s.player n)).handed
      (handedOn n s (f (s.player n)).lastHanded (f (s.player n)).level) s
      (settle .demand (handPlayerLevel true n (tellPlayer n ds (s.modPlayer n f)))) := by
  rw [handPlayerLevel_eq hf]
  exact player_taken (handed_keepsClaim hf) n ds _ s

/-! ### PLAYER_PUSH (R96) -/

theorem onHeldPlayer_held {p : Port} {n : PlayerNo} {s : State} (hn : argNat s p 5 = n.val)
    (hstate : (s.player n).state ≠ .free) (hholder : (s.player n).holder = some p)
    (body : PlayerNo → State → State × Result) : onHeldPlayer p body s = body n s := by
  simp only [onHeldPlayer, argPlayer, inRange_eq_some.mpr hn, if_neg hstate, hholder, ne_eq, not_true_eq_false, if_false]

theorem argStep_eq_some {s : State} {p : Port} {v : Level} {ramp : Fin 1001} {hold : Fin 6001}
    (hv : argNat s p 1 = v.val) (hramp : argNat s p 2 = ramp.val) (hhold : argNat s p 3 = hold.val) :
    argStep s p = some { level := v, ramp := ramp, hold := hold } := by
  simp only [argStep, inRange_eq_some.mpr hv, inRange_eq_some.mpr hramp, inRange_eq_some.mpr hhold]

theorem argStep_eq_none {s : State} {p : Port} (h : 4095 < argNat s p 1 ∨ 1000 < argNat s p 2 ∨ 6000 < argNat s p 3) :
    argStep s p = none := by
  unfold argStep
  split
  · next v ramp hold hv hramp hhold =>
    rw [inRange_eq_some] at hv hramp hhold
    omega
  · rfl

/-- A STARVED player with a step pushed, as its run finds it (R96). -/
def Player.pushed (st : PlayerStep) (x : Player) : Player := { x with queue := x.queue ++ [st], state := .playing }

theorem pushed_keepsClaim (st : PlayerStep) : KeepsClaim (Player.pushed st) := fun _ => ⟨rfl, rfl⟩

theorem KeepsClaim.comp {f g : Player → Player} (hg : KeepsClaim g) (hf : KeepsClaim f) : KeepsClaim fun x => g (f x) :=
  fun x => ⟨(hg (f x)).1.trans (hf x).1, (hg (f x)).2.trans (hf x).2⟩

section Push

variable {n : PlayerNo} {s : State} {st : PlayerStep}

theorem pushStep_waits (h : (s.player n).state ≠ .starved) :
    pushStep n st s = s.modPlayer n fun x => { x with queue := x.queue ++ [st] } := by
  simp only [pushStep, if_neg h]

theorem pushStep_runs (h : (s.player n).state = .starved) : pushStep n st s =
    settle .demand (handPlayerLevel true n (runQueue n (s.modPlayer n (Player.pushed st)))) := by
  simp only [pushStep, if_pos h, modPlayer_modPlayer]
  rfl

theorem pushed_queue (hq : (s.player n).queue = []) : ((s.modPlayer n (Player.pushed st)).player n).queue = [st] := by
  rw [State.player_modPlayer_self, Player.pushed, hq]
  rfl

theorem lowWaterTold_pushed (hq : (s.player n).queue = []) (left : Nat) :
    lowWaterTold ((s.modPlayer n (Player.pushed st)).player n) left = [] := by
  rw [lowWaterTold, pushed_queue hq]
  simp [fallsToEight]

/-- A step that takes time, pushed in STARVED, begins at once (R89, R96). -/
theorem pushStep_begins (hstate : (s.player n).state = .starved) (hq : (s.player n).queue = [])
    (hst : st.zeroTime = false) :
    PlayerTaken n [] (Player.begin s.now ((s.player n).pushed st)).handed
      (handedOn n s (s.player n).lastHanded (if st.ramp.val = 0 then st.level else (s.player n).level)) s
      (pushStep n st s) := by
  have hbegin := begin_cons (x := (s.player n).pushed st) (st := st) (rest := []) (by rw [Player.pushed, hq]; rfl) s.now
  have hrun : runQueue n (s.modPlayer n (Player.pushed st)) =
      tellPlayer n [] (s.modPlayer n fun x => Player.begin s.now (x.pushed st)) := by
    rw [runQueue_steps (zeros := []) (pushed_queue hq) (by simp [AllZeroTime]) hst, lowWaterTold_pushed hq,
      modPlayer_modPlayer]
    rfl
  have h := handPlayerLevel_taken ((begin_keepsClaim s.now).comp (pushed_keepsClaim st)) n [] s
  rw [pushStep_runs hstate, hrun]
  rw [hbegin] at h ⊢
  exact h

/-- A zero-time step pushed in STARVED completes in the same taking (R91, R96). -/
theorem pushStep_starves (hstate : (s.player n).state = .starved) (hq : (s.player n).queue = [])
    (hmode : (s.player n).mode = .oneShot) (hstream : (s.player n).streamComplete = false) (hst : AllZeroTime [st]) :
    PlayerTaken n [.starved]
      { s.player n with state := .starved, current := none, level := st.level, lastHanded := st.level }
      (handedOn n s (s.player n).lastHanded st.level) s (pushStep n st s) := by
  have hbegin := begin_cons (x := (s.player n).pushed st) (st := st) (rest := []) (by rw [Player.pushed, hq]; rfl) s.now
  have hline : ((s.player n).pushed st).recirculating = false := by simp [Player.recirculating, Player.pushed, hmode]
  have hramp : st.ramp.val = 0 := by rw [(hst st (by simp)).1]; rfl
  rw [hline, if_neg (by decide), if_pos hramp] at hbegin
  have hrun : runQueue n (s.modPlayer n (Player.pushed st)) =
      tellPlayer n [.starved] (s.modPlayer n fun x => Player.ended s.now 1 .starved (x.pushed st)) := by
    rw [runQueue_starves (zeros := [st]) (pushed_queue hq) hst (.inr (by rw [State.player_modPlayer_self, hline]))
      (by rw [State.player_modPlayer_self]; exact hstream), lowWaterTold_pushed hq, modPlayer_modPlayer]
    rfl
  have h := handPlayerLevel_taken ((ended_keepsClaim s.now 1 .starved).comp (pushed_keepsClaim st)) n [.starved] s
  have hended : Player.ended s.now 1 .starved ((s.player n).pushed st) =
      { s.player n with state := .starved, current := none, level := st.level } := by
    rw [Player.ended, Function.iterate_one, hbegin]
    simp only [Player.pushed, ← hq]
  rw [pushStep_runs hstate, hrun]
  rw [hended] at h
  exact h

end Push

theorem playerPushBody_eq {p : Port} {n : PlayerNo} {s : State} {st : PlayerStep} (hn : argNat s p 5 = n.val)
    (hfree : (s.player n).state ≠ .free) (hholder : (s.player n).holder = some p) (hst : argStep s p = some st) :
    playerPushBody p s =
      if (s.player n).streamComplete ∨ (s.player n).state = .holding then refuse .wrongState 0 s
      else if 32 ≤ (s.player n).queue.length then refuse .full 32 s
      else done none ((pushStep n st s).player n).queue.length (pushStep n st s) := by
  simp only [playerPushBody, onHeldPlayer_held hn hfree hholder, hst]
  rfl

theorem playerChannels_of_claim {n : PlayerNo} {s : State} {h : Handle} {c : Claim}
    (hclaim : (s.player n).claim = some h) (hlive : claimAt s h = some c) : playerChannels n s = c.channels := by
  simp only [playerChannels, hclaim, hlive]

/-- The player that a step pushed in STARVED leaves, with its level handed (R89, R96). -/
theorem begin_pushed {x : Player} (st : PlayerStep) (hq : x.queue = []) (hstream : x.streamComplete = false)
    (now : Instant) : (Player.begin now (x.pushed st)).handed = { x with
      state := .playing, queue := if x.mode = .loop then [st] else [],
      current := some { step := st, origin := x.level, began := now, updates := 0 },
      level := if st.ramp.val = 0 then st.level else x.level,
      lastHanded := if st.ramp.val = 0 then st.level else x.level } := by
  rw [begin_cons (x := x.pushed st) (st := st) (rest := []) (by rw [Player.pushed, hq]; rfl) now]
  have hloop : (x.pushed st).recirculating = decide (x.mode = .loop) := by
    cases hmode : x.mode <;> simp [Player.recirculating, Player.pushed, hmode, hstream]
  simp only [hloop, decide_eq_true_eq, List.nil_append]
  rfl

/-- Settles O29. -/
theorem playerPushQueuesStep : Obligations.PlayerPushQueuesStep := by
  intro p s n htaken hn hfree hholder
  refine ⟨fun hbad => ?_, fun v ramp hold hv hramp hhold => ?_⟩
  · refine congrArg Host.Outcome.next (takeCommand_refused htaken (code := .badArgument) (x := 0) ?_ (by decide))
    simp only [playerPushBody, onHeldPlayer_held hn hfree hholder, argStep_eq_none hbad]
  · intro st
    have hbody : playerPushBody p s = _ := playerPushBody_eq hn hfree hholder (argStep_eq_some hv hramp hhold)
    refine ⟨fun hclosed => ?_, fun hstream hholding => ?_⟩
    · exact congrArg Host.Outcome.next (takeCommand_refused htaken (hbody.trans (if_pos hclosed)) (by decide))
    · have hopen : ¬ ((s.player n).streamComplete = true ∨ (s.player n).state = .holding) := by simp [hstream, hholding]
      have hbody' := hbody.trans (if_neg hopen)
      refine ⟨fun hfull => ?_, fun hroom hstate => ?_, fun hstate hq htime => ?_, fun hstate hq hmode hr hh => ?_⟩
      · exact congrArg Host.Outcome.next (takeCommand_refused htaken (hbody'.trans (if_pos hfull)) (by decide))
      · refine congrArg Host.Outcome.next ((takeCommand_done htaken (hbody'.trans (if_neg (by omega)))).trans ?_)
        rw [pushStep_waits hstate, State.player_modPlayer_self, List.length_append]
        rfl
      · have hst : st.zeroTime = false := by
          have hnot : ¬ (ramp.val = 0 ∧ hold.val = 0) := by omega
          simpa [PlayerStep.zeroTime, st] using hnot
        have hdone := takeCommand_done htaken (hbody'.trans (if_neg (by rw [hq]; decide)))
        have h : PlayerTaken n [] _ _ s (pushStep n st s) := pushStep_begins hstate hq hst
        rw [begin_pushed st hq hstream] at h
        have hchannels : handedOn n s (s.player n).lastHanded ((pushStep n st s).player n).level =
            handedOn n s (s.player n).lastHanded (if st.ramp.val = 0 then st.level else (s.player n).level) := by
          rw [h.player]
        rw [← hchannels] at h
        refine ⟨_, congrArg Host.Outcome.next hdone, h.player, h.others, h.redone.accepted p none _, fun q => ?_, h.spent,
          h.follows.accepted p none _, acceptedState_accepted h.results, acceptedState_others h.results,
          h.kept.trans (acceptedState_kept p none _ _), h.pool, h.access, h.scenes, h.lines⟩
        exact (playerTold_nil q n s ▸ h.announced q).accepted p none _
      · have hdone := takeCommand_done htaken (hbody'.trans (if_neg (by rw [hq]; decide)))
        have h := pushStep_starves hstate hq hmode hstream (st := st) (by simp [AllZeroTime, st, hr, hh])
        have hqueue : ((pushStep n st s).player n).queue.length = 0 := by
          rw [h.player]
          exact congrArg List.length hq
        rw [hqueue] at hdone
        refine ⟨_, congrArg Host.Outcome.next hdone, h.player, h.others, h.redone.accepted p none 0,
          h.follows.accepted p none 0, h.spent, fun k x hclaim hlive q => ?_, acceptedState_accepted h.results,
          acceptedState_others h.results, h.kept.trans (acceptedState_kept p none 0 _), h.pool, h.access, h.scenes,
          h.lines⟩
        have hannounced := (h.announced q).accepted p none 0
        rw [playerTold_of_claim [.starved] hholder hclaim hlive, handedOn, playerChannels_of_claim hclaim hlive]
          at hannounced
        exact hannounced

end Sys2Proof.Machine

namespace Sys2Proof.Machine

/-! ### A finish with RELEASE (R103) -/

/-- The two notices of a finish with RELEASE, to the port that owns the claim and holds the player (R20, R23). -/
def releaseTold (q p : Port) (n : PlayerNo) (h : Handle) (c : Claim) : List Notice :=
  if q = p then [.claimRemoved (lowest c.channels) h p c.tag .finished, .player n h p c.tag .finished] else []

/-- What a taking leaves that frees a player's claim. -/
structure PlayerFreed (ns : Port → List Notice) (n : PlayerNo) (h : Handle) (c : Claim) (y : Player) (s t : State) : Prop
    extends Settled ns s.watch c.channels s t where
  freed : Freed [h.slot] s t
  player : t.player n = y
  others : ∀ m, m ≠ n → t.player m = s.player m
  lines : t.lines = s.lines

/-- Such a taking with cause player finish. -/
abbrev Released (p : Port) (n : PlayerNo) (h : Handle) (c : Claim) (y : Player) (s t : State) : Prop :=
  PlayerFreed (fun q => releaseTold q p n h c) n h c y s t

theorem handleAt_of_live {s : State} {h : Handle} {c : Claim} (hlive : claimAt s h = some c) : handleAt s h.slot = h := by
  rw [handleAt, (claimAt_some.mp hlive).1]

section Release

variable {p : Port} {n : PlayerNo} {s : State} {h : Handle} {c : Claim}

theorem removalsTold_player (hlive : claimAt s h = some c) (howner : c.owner = .port p) (hsource : c.source = .player n)
    (hholder : (s.player n).holder = some p) (q : Port) :
    removalsTold q .finished .finished [h.slot] s = releaseTold q p n h c := by
  have hrecord := (claimAt_some.mp hlive).2
  simp only [removalsTold, List.flatMap_cons, List.flatMap_nil, List.append_nil, hrecord, howner, hsource,
    handleAt_of_live hlive, hholder, releaseTold]
  by_cases hq : q = p
  · simp [hq]
  · have hne : p ≠ q := Ne.symm hq
    simp [hq, hne]

/-- The player whose claim is freed goes to LOADING, and no other player moves (R23, R86). -/
theorem freeRecords_player_of_source {x : FreeCause} {u : State} (hrecord : (u.record h.slot).claim = some c)
    (hsource : c.source = .player n) (m : PlayerNo) : (freeRecords x true [h.slot] u).player m =
      if m = n then toLoading x.emptiesQueue (u.player n) else u.player m := by
  rw [freeRecords_player x true _ (List.nodup_singleton _), freesPlayer_singleton hrecord, hsource]
  by_cases hm : m = n
  · simp [hm]
  · have hne : LevelSource.player n ≠ .player m := fun heq => hm (LevelSource.player.inj heq).symm
    simp [hm, hne]

theorem release_taken {f : Player → Player} (hf : KeepsClaim f) (hs : ListsInv s) (hlive : claimAt s h = some c)
    (howner : c.owner = .port p) (hsource : c.source = .player n) (hholder : (s.player n).holder = some p) :
    Released p n h c (toLoading false (f (s.player n))) s
      (settle .demand (freeRecords .playerFinish true [h.slot] (s.modPlayer n f))) := by
  have hrecord := (claimAt_some.mp hlive).2
  have hlive' : claimAt (s.modPlayer n f) h = some c := hlive
  have hfrees : Readied (fun q => removalsTold q .finished .finished [h.slot] (s.modPlayer n f)) s.watch (s.modPlayer n f)
      _ := freeAll_readied (x := .playerFinish) rfl rfl (List.nodup_singleton h.slot) (s.modPlayer n f)
  have htold (q : Port) : removalsTold q .finished .finished [h.slot] (s.modPlayer n f) = releaseTold q p n h c :=
    removalsTold_player hlive' howner hsource (by rw [State.player_modPlayer_self, (hf _).1, hholder]) q
  have hsettled : Settled (fun q => releaseTold q p n h c) s.watch c.channels s
      (settle .demand (freeRecords .playerFinish true [h.slot] (s.modPlayer n f))) := by
    rw [← coveredBy_singleton hrecord]
    exact (((modPlayer_readied n f s).trans hfrees htold).resolve _).settle
  have hplayer (m : PlayerNo) := freeRecords_player_of_source (x := .playerFinish) (h := h)
    (u := s.modPlayer n f) hrecord hsource m
  exact
    { hsettled with
      freed := freed_of_frees (x := .playerFinish) (b := s.modPlayer n f) (List.nodup_singleton _) hs rfl rfl rfl rfl
        (settle_pool _ _) (settle_resolver _ _) (settle_access _ _) (settle_scenes _ _)
        (coveredBy_singleton hrecord ▸ hsettled.redone)
        (((modPlayer_kept s n f).trans (freeRecords_kept _ _ _ _)).trans (settle_kept .demand _))
      player := by rw [settle_player, hplayer, if_pos rfl, State.player_modPlayer_self]; rfl
      others := fun m hm => by rw [settle_player, hplayer, if_neg hm, State.player_modPlayer, if_neg hm]
      lines := by rw [settle_lines, freeRecords_lines]; rfl }

end Release

/-! ### PLAYER_END (R97) -/

section End

variable {p : Port} {n : PlayerNo} {s : State}

/-- Stream-complete set. -/
def Player.complete (x : Player) : Player := { x with streamComplete := true }

theorem complete_keepsClaim : KeepsClaim Player.complete := fun _ => ⟨rfl, rfl⟩

theorem endStream_complete (h : (s.player n).streamComplete = true) : endStream n s = s := if_pos h

theorem endStream_sets (h : (s.player n).streamComplete = false) (hstate : (s.player n).state ≠ .starved) :
    endStream n s = s.modPlayer n Player.complete := by
  rw [endStream, if_neg (by simp [h]), if_neg hstate]
  rfl

theorem endStream_finishes (h : (s.player n).streamComplete = false) (hstate : (s.player n).state = .starved) :
    endStream n s = settle .demand (finishPlayer n (s.modPlayer n Player.complete)) := by
  rw [endStream, if_neg (by simp [h]), if_pos hstate]
  rfl

theorem endStream_holds (h : (s.player n).streamComplete = false) (hstate : (s.player n).state = .starved)
    (hfinish : (s.player n).finish = .hold) :
    PlayerTaken n [.finished] { s.player n with state := .holding, current := none, streamComplete := true } 0 s
      (endStream n s) := by
  have hrun := finishPlayer_hold (n := n) (s := s.modPlayer n Player.complete)
    (by rw [State.player_modPlayer_self]; exact hfinish)
  rw [modPlayer_modPlayer] at hrun
  rw [endStream_finishes h hstate, hrun, ← resolveSet_zero none true (tellPlayer _ _ _)]
  exact player_taken (f := fun x => { x.complete with current := none, state := .holding }) (fun _ => ⟨rfl, rfl⟩) n _ 0 s

theorem endStream_releases {h : Handle} {c : Claim} (hopen : (s.player n).streamComplete = false)
    (hstate : (s.player n).state = .starved) (hfinish : (s.player n).finish = .release) (hs : ListsInv s)
    (hclaim : (s.player n).claim = some h) (hlive : claimAt s h = some c) (howner : c.owner = .port p)
    (hsource : c.source = .player n) (hholder : (s.player n).holder = some p) :
    Released p n h c (toLoading false (s.player n)) s (endStream n s) := by
  rw [endStream_finishes hopen hstate, finishPlayer_release (h := h) (by rw [State.player_modPlayer_self]; exact hfinish)
    (by rw [State.player_modPlayer_self]; exact hclaim)]
  exact release_taken complete_keepsClaim hs hlive howner hsource hholder

theorem playerEndBody_eq (hn : argNat s p 5 = n.val) (hfree : (s.player n).state ≠ .free)
    (hholder : (s.player n).holder = some p) : playerEndBody p s =
      if (s.player n).state = .holding then refuse .wrongState 0 s
      else done none ((endStream n s).player n).queue.length (endStream n s) := by
  simp only [playerEndBody, onHeldPlayer_held hn hfree hholder]

end End

/-- Settles O30. -/
theorem playerEndCompletesStream : Obligations.PlayerEndCompletesStream := by
  intro p s n htaken hn hfree hholder
  have hbody := playerEndBody_eq hn hfree hholder
  have hrun (hstate : (s.player n).state ≠ .holding) := takeCommand_done htaken (hbody.trans (if_neg hstate))
  refine ⟨fun hstate => ?_, fun hstate hcomplete => ?_, fun hstate hopen => ?_,
    fun h c hstate hopen hclaim hlive howner hsource => ⟨fun hfinish => ?_, fun hfinish hs => ?_⟩⟩
  · exact congrArg Host.Outcome.next (takeCommand_refused htaken (hbody.trans (if_pos hstate)) (by decide))
  · refine congrArg Host.Outcome.next ((hrun hstate).trans ?_)
    rw [endStream_complete hcomplete]
  · have hnot : (s.player n).state ≠ .holding ∧ (s.player n).state ≠ .starved := by
      rcases hstate with hstate | hstate <;> simp [hstate]
    refine congrArg Host.Outcome.next ((hrun hnot.1).trans ?_)
    rw [endStream_sets hopen hnot.2, State.player_modPlayer_self]
    rfl
  · have hend := endStream_holds hopen hstate hfinish
    have hqueue : ((endStream n s).player n).queue.length = (s.player n).queue.length := by rw [hend.player]
    have hdone := hrun (by simp [hstate])
    rw [hqueue] at hdone
    refine ⟨_, congrArg Host.Outcome.next hdone, hend.player, hend.others, fun q => ?_, hend.spent,
      hend.follows.accepted p none _, hend.redone.accepted p none _, acceptedState_accepted hend.results,
      acceptedState_others hend.results, hend.kept.trans (acceptedState_kept p none _ _), hend.pool, hend.resolver rfl,
      hend.access, hend.scenes, hend.lines⟩
    have hannounced := (hend.announced q).accepted p none (s.player n).queue.length
    rwa [playerTold_of_claim [.finished] hholder hclaim hlive] at hannounced
  · have hend := endStream_releases hopen hstate hfinish hs hclaim hlive howner hsource hholder
    have hqueue : ((endStream n s).player n).queue.length = (s.player n).queue.length := by rw [hend.player]; rfl
    have hdone := hrun (by simp [hstate])
    rw [hqueue] at hdone
    exact ⟨_, congrArg Host.Outcome.next hdone, hend.freed.accepted p none _, hend.player, hend.others,
      fun q => (hend.announced q).accepted p none _, hend.spent, hend.follows.accepted p none _,
      acceptedState_accepted hend.results, acceptedState_others hend.results, hend.lines⟩

end Sys2Proof.Machine

namespace Sys2Proof.Machine

/-! ### PLAYER_ABORT and PLAYER_RELEASE (R100, R101) -/

theorem modPlayer_taken (n : PlayerNo) (f : Player → Player) (s : State) :
    PlayerTaken n [] (f (s.player n)) 0 s (settle .demand (s.modPlayer n f)) where
  toSettled := by
    simp only [playerTold_nil]
    exact (modPlayer_readied n f s).unresolved.settle
  player := by rw [settle_player, State.player_modPlayer_self]
  others := fun m hm => by rw [settle_player, State.player_modPlayer, if_neg hm]
  resolver := fun _ => settle_resolver _ _
  kept := (modPlayer_kept s n f).trans (settle_kept .demand _)
  pool := settle_pool _ _
  access := settle_access _ _
  scenes := settle_scenes _ _
  lines := settle_lines _ _

/-- A player's claim freed without notice, and the player written over at level 0. -/
theorem abort_taken {x : FreeCause} (hr : x.reason = none) (hd : x.playerDetail = none) (he : x.emptiesQueue = true)
    {n : PlayerNo} {s : State} {h : Handle} {c : Claim} (hs : ListsInv s) (hlive : claimAt s h = some c)
    (hsource : c.source = .player n) {f : Player → Player} (hf : ∀ y, (f y).level = 0) :
    PlayerFreed (fun _ => []) n h c (f (toLoading true (s.player n))) s
      (settle .demand ((freeRecords x true [h.slot] s).modPlayer n f)) := by
  have hrecord := (claimAt_some.mp hlive).2
  have hplayer (m : PlayerNo) := freeRecords_player_of_source (x := x) (h := h) hrecord hsource m
  have hlevel : ((freeRecords x true [h.slot] s).player n).level = 0 := by
    rw [hplayer, if_pos rfl]
    rfl
  have hsettled : Settled (fun _ => []) s.watch c.channels s
      (settle .demand ((freeRecords x true [h.slot] s).modPlayer n f)) := by
    rw [← coveredBy_singleton hrecord]
    exact (((freeAll_readied_silent hr hd [h.slot] s).resolve _).modPlayer n f ((hf _).trans hlevel.symm)).settle
  exact
    { hsettled with
      freed := freed_of_frees (x := x) (b := s) (List.nodup_singleton _) hs rfl rfl rfl rfl
        (settle_pool _ _) (settle_resolver _ _) (settle_access _ _) (settle_scenes _ _)
        (coveredBy_singleton hrecord ▸ hsettled.redone)
        (((freeRecords_kept _ _ _ _).trans (modPlayer_kept _ n f)).trans (settle_kept .demand _))
      player := by rw [settle_player, State.player_modPlayer_self, hplayer, if_pos rfl, he]
      others := fun m hm => by rw [settle_player, State.player_modPlayer, if_neg hm, hplayer, if_neg hm]
      lines := by rw [settle_lines, State.modPlayer_lines, freeRecords_lines] }

/-- The state before the answer of PLAYER_ABORT and PLAYER_RELEASE: the freeing with a cause, then the player. -/
def leavePlayer (x : FreeCause) (f : Player → Player) (n : PlayerNo) (s : State) : State :=
  (match (s.player n).claim with
    | some h => freeRecords x true [h.slot] s
    | none => s).modPlayer n f

theorem abortPlayer_eq (x : FreeCause) (n : PlayerNo) (s : State) :
    abortPlayer x n s = leavePlayer x (toLoading true) n s := rfl

theorem abortPlayer_reset (x : FreeCause) (n : PlayerNo) (s : State) :
    ((abortPlayer x n s).modPlayer n fun _ => Player.reset) = leavePlayer x (fun _ => Player.reset) n s := by
  rw [abortPlayer_eq, leavePlayer, modPlayer_modPlayer]
  rfl

/-- PLAYER_ABORT and PLAYER_RELEASE are one taking, with a cause and a player of their own. -/
theorem playerLeaves {p : Port} {n : PlayerNo} {s : State} {x : Instr} {after : Player} (htaken : Taken p .none s)
    (hn : argNat s p 5 = n.val) (hfree : (s.player n).state ≠ .free) (hholder : (s.player n).holder = some p)
    (hx : x = .playerAbort p ∧ after = { Player.reset with state := .loading, holder := some p } ∨
      x = .playerRelease p ∧ after = Player.reset) :
    ∃ cause f, exec x s = .next (acceptedState p (s.player n).claim (s.player n).queue.length
        (settle .demand (leavePlayer cause f n s))) ∧
      FreeCause.reason cause = none ∧ FreeCause.playerDetail cause = none ∧ FreeCause.emptiesQueue cause = true ∧
      (∀ y, (f y).level = 0) ∧ f (s.player n) = after ∧ f (toLoading true (s.player n)) = after := by
  rcases hx with ⟨rfl, rfl⟩ | ⟨rfl, rfl⟩
  · have hbody : playerAbortBody p s = done (s.player n).claim (s.player n).queue.length
        (settle .demand (leavePlayer .playerAbort (toLoading true) n s)) := by
      rw [playerAbortBody, onHeldPlayer_held hn hfree hholder, abortPlayer_eq]
    refine ⟨.playerAbort, toLoading true, congrArg Host.Outcome.next (takeCommand_done htaken hbody), rfl, rfl, rfl,
      fun _ => rfl, ?_, ?_⟩
    · rw [toLoading, hholder]; rfl
    · rw [toLoading_twice, toLoading, hholder]; rfl
  · have hbody : playerReleaseBody p s = done (s.player n).claim (s.player n).queue.length
        (settle .demand (leavePlayer .playerRelease (fun _ => Player.reset) n s)) := by
      rw [playerReleaseBody, onHeldPlayer_held hn hfree hholder, abortPlayer_reset]
    exact ⟨.playerRelease, fun _ => Player.reset, congrArg Host.Outcome.next (takeCommand_done htaken hbody), rfl, rfl,
      rfl, fun _ => rfl, rfl, rfl⟩

/-- Settles O32. -/
theorem playerAbortAndRelease : Obligations.PlayerAbortAndRelease := by
  intro p s n x after htaken hn hfree hholder hx
  obtain ⟨cause, f, hrun, hreason, hdetail, hempties, hlevel, hafter, hafter'⟩ := playerLeaves htaken hn hfree hholder hx
  refine ⟨fun hclaim => ?_, fun h c hs hclaim hlive hsource => ?_⟩
  · have hleave : leavePlayer cause f n s = s.modPlayer n f := by rw [leavePlayer, hclaim]
    have h := modPlayer_taken n f s
    rw [hclaim, hleave] at hrun
    rw [hafter] at h
    generalize settle .demand (s.modPlayer n f) = u at h hrun
    refine ⟨_, hrun, h.player, h.others, acceptedState_accepted h.results, fun q => ?_, h.spent, h.follows.accepted p none _,
      h.redone.accepted p none _, acceptedState_others h.results, h.kept.trans (acceptedState_kept p none _ _), h.pool,
      h.resolver rfl, h.access, h.scenes, h.lines⟩
    exact (playerTold_nil q n s ▸ h.announced q).accepted p none _
  · have hleave : leavePlayer cause f n s = (freeRecords cause true [h.slot] s).modPlayer n f := by
      rw [leavePlayer, hclaim]
    have hfreed := abort_taken hreason hdetail hempties hs hlive hsource hlevel
    rw [hclaim, hleave] at hrun
    rw [hafter'] at hfreed
    generalize settle .demand ((freeRecords cause true [h.slot] s).modPlayer n f) = u at hfreed hrun
    exact ⟨_, hrun, hfreed.player, hfreed.others, hfreed.freed.accepted p _ _,
      fun q => (hfreed.announced q).accepted p _ _, hfreed.spent, hfreed.follows.accepted p _ _,
      acceptedState_accepted hfreed.results, acceptedState_others hfreed.results, hfreed.lines⟩

end Sys2Proof.Machine

namespace Sys2Proof.Machine

/-! ### Ramp updates (R36, R89, R92) -/

theorem rampOnce_keepsClaim : KeepsClaim Player.rampOnce := fun x => by
  unfold Player.rampOnce
  split <;> exact ⟨rfl, rfl⟩

theorem rampOnce_some {x : Player} {c : CurrentStep} (h : x.current = some c) : x.rampOnce = { x with
    level := partWay c.origin c.step.level (c.updates + 1) c.step.ramp.val,
    current := some { c with updates := c.updates + 1 } } := by
  simp only [Player.rampOnce, h]

theorem rampEnd_due {x : Player} {c : CurrentStep} {now : Instant} (h : x.current = some c)
    (hleft : c.updates < c.step.ramp.val) (hdue : c.began + 10 * (c.updates + 1) ≤ now) : dueAt (rampEnd? x) now = true := by
  simp only [rampEnd?, h, CurrentStep.nextUpdate, if_pos hleft, dueAt, decide_eq_true_eq, hdue]

theorem stepEnd_due {x : Player} {c : CurrentStep} {now : Instant} (h : x.current = some c)
    (hleft : c.updates = c.step.ramp.val) (hdue : c.began + 10 * (c.step.ramp.val + c.step.hold.val) ≤ now) :
    dueAt (stepEnd? x) now = true := by
  simp only [stepEnd?, h, CurrentStep.completes, hleft, lt_irrefl, if_false, dueAt, decide_eq_true_eq, hdue]

theorem rampUpdates_taken {n : PlayerNo} {s : State} {c : CurrentStep} (h : (s.player n).current = some c)
    (hleft : c.updates < c.step.ramp.val) (hdue : c.began + 10 * (c.updates + 1) ≤ s.now) :
    let level := partWay c.origin c.step.level (c.updates + 1) c.step.ramp.val
    PlayerTaken n [] { s.player n with
        level := level, lastHanded := level, current := some { c with updates := c.updates + 1 } }
      (handedOn n s (s.player n).lastHanded level) s (rampUpdates n s) := by
  have htaken := handPlayerLevel_taken rampOnce_keepsClaim n [] s
  rw [rampOnce_some h] at htaken
  rw [rampUpdates, if_pos (rampEnd_due h hleft hdue)]
  exact htaken

/-! ### The completion of a step (R89 to R93, R102, R103) -/

/-- A player past its zero-time steps, with the next step begun (R89, R91). -/
theorem begins_step (now : Instant) {zeros more : List PlayerStep} {st : PlayerStep} (hz : AllZeroTime zeros) {x : Player}
    (hq : x.queue = zeros ++ st :: more) : (Player.begin now)^[zeros.length + 1] x = { x with
      queue := if x.recirculating then more ++ zeros ++ [st] else more,
      current := some { step := st, origin := levelAfter zeros x.level, began := now, updates := 0 },
      level := if st.ramp.val = 0 then st.level else levelAfter zeros x.level } := by
  obtain ⟨cur, hcur⟩ := begins_zeros now hz (st :: more) hq
  have hrec := (begins_begun now x zeros.length).recirculating
  have hhead : ((Player.begin now)^[zeros.length] x).queue =
      st :: (if x.recirculating then more ++ zeros else more) := by
    rw [hcur]
    dsimp only
    split_ifs <;> rfl
  rw [Function.iterate_succ_apply', begin_cons hhead, hrec, hcur]
  split_ifs <;> rfl

/-- A player past its last zero-time step, STARVED or HOLDING (R90, R102). -/
theorem ended_eq (now : Instant) (state : PlayerState) {zeros : List PlayerStep} (hz : AllZeroTime zeros) {x : Player}
    (hq : x.queue = zeros) (hline : zeros = [] ∨ x.recirculating = false) : Player.ended now zeros.length state x =
      { x with state := state, current := none, queue := [], level := levelAfter zeros x.level } := by
  obtain ⟨cur, hcur⟩ := begins_zeros now hz [] (hq.trans (List.append_nil zeros).symm)
  have hqueue : (if x.recirculating then [] ++ zeros else []) = [] := by
    rcases hline with hnil | hline
    · simp [hnil]
    · simp [hline]
  rw [hqueue] at hcur
  rw [Player.ended, hcur]

theorem lowWaterTold_eq (x : Player) (left : Nat) : lowWaterTold x left =
    if x.state == .playing && x.mode == .oneShot && !x.streamComplete && fallsToEight x.queue.length left then [.lowWater]
    else [] := by
  unfold lowWaterTold Player.recirculating
  congr 2
  cases x.state <;> cases x.mode <;> cases x.streamComplete <;> rfl

section Completion

variable {n : PlayerNo} {s : State} {c : CurrentStep} {zeros : List PlayerStep}

theorem stepCompletes_runs (h : (s.player n).current = some c) (hleft : c.updates = c.step.ramp.val)
    (hdue : c.began + 10 * (c.step.ramp.val + c.step.hold.val) ≤ s.now) :
    stepCompletes n s = settle .demand (handPlayerLevel true n (runQueue n s)) := if_pos (stepEnd_due h hleft hdue)

/-- A run to a step that takes time, with the level handed (R89, R91, R92). -/
theorem run_toStep_taken {more : List PlayerStep} {st : PlayerStep} (hq : (s.player n).queue = zeros ++ st :: more)
    (hz : AllZeroTime zeros) (hst : st.zeroTime = false) :
    PlayerTaken n (lowWaterTold (s.player n) more.length)
      ((Player.begin s.now)^[zeros.length + 1] (s.player n)).handed
      (handedOn n s (s.player n).lastHanded ((Player.begin s.now)^[zeros.length + 1] (s.player n)).level) s
      (settle .demand (handPlayerLevel true n (runQueue n s))) := by
  have htaken := handPlayerLevel_taken (begins_keepsClaim s.now (zeros.length + 1)) n
    (lowWaterTold (s.player n) more.length) s
  have hlast : ((Player.begin s.now)^[zeros.length + 1] (s.player n)).lastHanded = (s.player n).lastHanded := by
    rw [begins_step s.now hz hq]
  rw [hlast] at htaken
  rw [runQueue_steps hq hz hst]
  exact htaken

/-- A run that ends STARVED or HOLDING, with the level handed (R90, R92, R102). -/
theorem run_toEnd_taken {ds : List PlayerDetail} {state : PlayerState} (hq : (s.player n).queue = zeros)
    (hz : AllZeroTime zeros) (hline : zeros = [] ∨ (s.player n).recirculating = false)
    (hrun : runQueue n s = tellPlayer n ds (s.modPlayer n (Player.ended s.now zeros.length state))) :
    let last := levelAfter zeros (s.player n).level
    PlayerTaken n ds
      { s.player n with state := state, current := none, queue := [], level := last, lastHanded := last }
      (handedOn n s (s.player n).lastHanded last) s (settle .demand (handPlayerLevel true n (runQueue n s))) := by
  have htaken := handPlayerLevel_taken (ended_keepsClaim s.now zeros.length state) n ds s
  rw [ended_eq s.now state hz hq hline] at htaken
  rw [hrun]
  exact htaken

/-- A run that ends with a finish with RELEASE (R103). -/
theorem run_toRelease_taken {p : Port} {h : Handle} {x : Claim} (hq : (s.player n).queue = zeros) (hz : AllZeroTime zeros)
    (hline : zeros = [] ∨ (s.player n).recirculating = false) (hstream : (s.player n).streamComplete = true)
    (hfinish : (s.player n).finish = .release) (hs : ListsInv s) (hclaim : (s.player n).claim = some h)
    (hlive : claimAt s h = some x) (howner : x.owner = .port p) (hsource : x.source = .player n)
    (hholder : (s.player n).holder = some p) :
    Released p n h x { Player.reset with state := .loading, holder := some p } s
      (settle .demand (handPlayerLevel true n (runQueue n s))) := by
  have hfreed := release_taken (begins_keepsClaim s.now zeros.length) hs hlive howner hsource hholder
  have hplayer : toLoading false ((Player.begin s.now)^[zeros.length] (s.player n)) =
      { Player.reset with state := .loading, holder := some p } := by
    have hended := ended_eq s.now .starved hz hq hline
    have hqueue : ((Player.begin s.now)^[zeros.length] (s.player n)).queue = [] := congrArg Player.queue hended
    rw [toLoading, hqueue, (begins_keepsClaim s.now zeros.length _).1, hholder]
    rfl
  have hrun := runQueue_releases hq hz hline hstream hfinish hclaim
  have hsame : ((runQueue n s).player n).level = ((runQueue n s).player n).lastHanded := by
    have hloading := freeRecords_player_of_source (x := .playerFinish) (h := h)
      (u := s.modPlayer n (Player.begin s.now)^[zeros.length]) (claimAt_some.mp hlive).2 hsource n
    rw [hrun, hloading, if_pos rfl]
    rfl
  rw [handPlayerLevel_same hsame, hrun, ← hplayer]
  exact hfreed

end Completion

/-- Settles O33. -/
theorem playerTimedEvents : Obligations.PlayerTimedEvents := by
  refine ⟨fun s n c hcurrent hleft hdue => ?_, fun s n c zeros rest hcurrent hupdates hdue hlast hq hz => ?_⟩
  · have h := rampUpdates_taken hcurrent hleft hdue
    dsimp only at h
    have hlevel : ((rampUpdates n s).player n).level = partWay c.origin c.step.level (c.updates + 1) c.step.ramp.val := by
      rw [h.player]
    rw [← hlevel] at h
    refine ⟨rampUpdates n s, rfl, h.player, fun hup => ?_, fun hdown => ?_, h.others, h.redone,
      fun q => playerTold_nil q n s ▸ h.announced q, h.spent, h.follows, h.kept, h.results, h.pool, h.access, h.scenes,
      h.lines⟩
    · rw [hlevel, partWay_up hup (by omega) (by omega)]
    · rw [hlevel, partWay_down hdown]
  · intro last falls changed
    have hrun : exec (.stepCompletion n) s = .next (settle .demand (handPlayerLevel true n (runQueue n s))) :=
      congrArg Host.Outcome.next (stepCompletes_runs hcurrent hupdates hdue)
    have hlow (left : Nat) : lowWaterTold (s.player n) left = if falls left = true then [.lowWater] else [] := by
      rw [lowWaterTold_eq, hq, List.length_append]
    have hchanged (v : Level) : handedOn n s (s.player n).lastHanded v = changed v := by rw [handedOn, hlast]
    refine ⟨fun st more hrest htime => ?_, fun h p x hrest hline hclaim hholder hlive howner hsource => ?_⟩
    · have h := run_toStep_taken (hq.trans (congrArg (zeros ++ ·) hrest)) hz (zeroTime_of_not htime)
      rw [begins_step s.now hz (hq.trans (congrArg (zeros ++ ·) hrest))] at h
      generalize settle .demand (handPlayerLevel true n (runQueue n s)) = t at h hrun
      have hlevel := congrArg Player.level h.player
      have htaken : PlayerTaken n (lowWaterTold (s.player n) more.length) _
        (handedOn n s (s.player n).lastHanded (if st.ramp.val = 0 then st.level else last)) s t := h
      rw [hchanged, show (if st.ramp.val = 0 then st.level else last) = (t.player n).level from hlevel.symm] at htaken
      refine ⟨t, hrun, h.player, h.others, htaken.redone, htaken.spent, fun k p x hclaim hholder hlive q => ?_, h.follows,
        h.kept, h.results, h.pool, h.access, h.scenes, h.lines⟩
      have hannounced := htaken.announced q
      rw [playerTold_of_claim _ hholder hclaim hlive, hlow, apply_ite (List.map _), List.map_nil,
        ← ite_and] at hannounced
      exact hannounced
    · intro ended
      subst hrest
      rw [List.append_nil] at hq
      refine ⟨fun hstream => ?_, fun hstream hfinish => ?_, fun hstream hfinish hs => ?_⟩
      · have h := run_toEnd_taken hq hz hline (runQueue_starves hq hz hline hstream)
        dsimp only at h
        rw [hchanged] at h
        generalize settle .demand (handPlayerLevel true n (runQueue n s)) = t at h hrun
        refine ⟨t, hrun, h.player, fun q => ?_, h.spent, h.others, h.follows, h.kept, h.results, h.redone, fun hsame => ?_,
          h.pool, h.access, h.scenes, h.lines⟩
        · have hannounced := h.announced q
          rw [playerTold_of_claim _ hholder hclaim hlive, hlow, List.map_append, apply_ite (List.map _)]
            at hannounced
          exact hannounced
        · exact h.resolver (if_pos hsame)
      · have h := run_toEnd_taken hq hz hline (runQueue_holds hq hz hline hstream hfinish)
        dsimp only at h
        rw [hchanged] at h
        generalize settle .demand (handPlayerLevel true n (runQueue n s)) = t at h hrun
        refine ⟨t, hrun, h.player, fun q => ?_, h.spent, h.others, h.follows, h.kept, h.results, h.redone,
          fun hsame => h.resolver (if_pos hsame), h.pool, h.access, h.scenes, h.lines⟩
        exact playerTold_of_claim [.finished] hholder hclaim hlive ▸ h.announced q
      · have h := run_toRelease_taken hq hz hline hstream hfinish hs hclaim hlive howner hsource hholder
        generalize settle .demand (handPlayerLevel true n (runQueue n s)) = t at h hrun
        exact ⟨t, hrun, h.freed, h.player, h.announced, h.spent, h.others, h.follows, h.results, h.lines⟩

end Sys2Proof.Machine

namespace Sys2Proof.Machine

/-! ## PLAYER_START (R98, R99) -/

/-! ### The placement at level 0 -/

/-- The player's level and level last handed at 0, before the placement (R99). -/
def levelZeroed (n : PlayerNo) (s : State) : State := s.modPlayer n fun x => { x with level := 0, lastHanded := 0 }

/-- The claim seated at level 0 (R99). -/
def startSeated (n : PlayerNo) (slot : Slot) (c : Claim) (s : State) : State := seat slot c (levelZeroed n s)

/-- The claim resolved at level 0, its WINNER events left to the end of the taking (R43, R99). -/
def startPlaced (n : PlayerNo) (slot : Slot) (c : Claim) (s : State) : State :=
  resolveSet none false c.channels (startSeated n slot c s)

section Placement

variable (n : PlayerNo) (slot : Slot) (c : Claim) (s : State)

theorem startSeated_readied : Readied (fun _ => []) s.watch s (startSeated n slot c s) :=
  (modPlayer_readied n _ s).trans (seat_readied slot c (levelZeroed n s)) fun _ => rfl

theorem startPlaced_redo : Redo none c.channels (levelZeroed n s) (startPlaced n slot c s) := seat_redo false slot c _

theorem startPlaced_placed : Placed slot c (levelZeroed n s) (startPlaced n slot c s) :=
  { seat_entered (resolveSet_pool _ _ _ _) (fun ch => resolveSet_list _ _ _ _ ch) (resolveSet_access _ _ _ _)
      (resolveSet_scenes _ _ _ _) (resolveSet_kept _ _ _ _) with
    redone := (startPlaced_redo n slot c s).redone }

theorem startPlaced_players : (startPlaced n slot c s).players = (levelZeroed n s).players := by
  rw [startPlaced, resolveSet_players, startSeated, seat_players]

theorem startPlaced_output : (startPlaced n slot c s).output = s.output := by
  rw [startPlaced, resolveSet_output, startSeated, seat_output]
  rfl

theorem startPlaced_now : (startPlaced n slot c s).now = s.now := by
  rw [startPlaced, resolveSet_now, startSeated, seat_now]
  rfl

theorem startPlaced_lines : (startPlaced n slot c s).lines = s.lines := by
  rw [startPlaced, resolveSet_lines, startSeated, seat_lines]
  rfl

theorem startPlaced_ports : (startPlaced n slot c s).ports = s.ports := by
  rw [startPlaced, (resolveSet_quiet none c.channels _).1, startSeated, seat_ports]
  rfl

theorem startPlaced_watches : (startPlaced n slot c s).watches = s.watches := by
  rw [startPlaced, (resolveSet_quiet none c.channels _).2, startSeated, seat_watches]
  rfl

theorem startPlaced_kept : Kept s (startPlaced n slot c s) :=
  ((modPlayer_kept s n _).trans (seat_kept slot c _)).trans (resolveSet_kept none false c.channels _)

theorem startPlaced_player (m : PlayerNo) : (startPlaced n slot c s).player m = (levelZeroed n s).player m := by
  simp only [State.player, startPlaced_players]

theorem claimAt_startPlaced : claimAt (startPlaced n slot c s) (handleAt s slot) = some c := by
  refine claimAt_some.mpr ?_
  have hrecord := (startPlaced_placed n slot c s).record
  exact ⟨by rw [show (handleAt s slot).slot = slot from rfl, hrecord]; rfl,
    by rw [show (handleAt s slot).slot = slot from rfl, hrecord]⟩

end Placement

/-! ### The run from the placement -/

/-- What a PLAYER_START leaves, before its answer. -/
structure Started (n : PlayerNo) (ns : Port → List Notice) (cs : ChannelSet) (y : Player) (s t : State) : Prop where
  announced : ∀ q, Announced q (ns q) cs s t
  spent : WinnersSpend cs s t
  follows : StageFollows s t
  results : SameResults s t
  player : t.player n = y
  others : ∀ m, m ≠ n → t.player m = s.player m
  kept : Kept s t
  lines : t.lines = s.lines

section Start

variable {n : PlayerNo} {slot : Slot} {c : Claim} {s : State} {mode : PlayerMode} {finish : FinishAction}

/-- The player as it begins its run (R99). -/
theorem started_player : ((startPlaced n slot c s).modPlayer n (startPlayer (handleAt s slot) mode finish)).player n =
    startPlayer (handleAt s slot) mode finish (s.player n) := by
  rw [State.player_modPlayer_self, startPlaced_player, levelZeroed, State.player_modPlayer_self]
  rfl

theorem startedSeated_player :
    ((startSeated n slot c s).modPlayer n (startPlayer (handleAt s slot) mode finish)).player n =
      startPlayer (handleAt s slot) mode finish (s.player n) := by
  rw [State.player_modPlayer_self, startSeated, State.player, seat_players, ← State.player, levelZeroed,
    State.player_modPlayer_self]
  rfl

/-- How the run of a player's steps acts, on every state that holds the player at the instant: a write of the player and
its notices. -/
def RunsAs (n : PlayerNo) (y : Player) (now : Instant) (ds : List PlayerDetail) (g : Player → Player) : Prop :=
  KeepsClaim g ∧ ∀ u : State, u.player n = y → u.now = now → runQueue n u = tellPlayer n ds (u.modPlayer n g)

/-- The set on which the level of a start is handed (R92). -/
def startHanded (c : Claim) (level : Level) : ChannelSet := if level = 0 then 0 else c.channels

/-- The state before the WINNER events of a start. -/
def startRun (n : PlayerNo) (ds : List PlayerDetail) (cs : ChannelSet) (f : Player → Player) (u : State) : State :=
  resolveSet none false cs (tellPlayer n ds (u.modPlayer n f))

/-- A start that does not free its claim: the run from the placement, then the WINNER events (R43, R99). -/
theorem runStart_eq {ds : List PlayerDetail} {g : Player → Player}
    (hruns : RunsAs n (startPlayer (handleAt s slot) mode finish (s.player n)) s.now ds g)
    (hlast : (g (startPlayer (handleAt s slot) mode finish (s.player n))).lastHanded = 0) :
    runStart n (startPlayer (handleAt s slot) mode finish) c.channels s (startSeated n slot c s) (startPlaced n slot c s) =
      winnerEvents c.channels s
        (startRun n ds (startHanded c (g (startPlayer (handleAt s slot) mode finish (s.player n))).level)
          (fun x => (g (startPlayer (handleAt s slot) mode finish x)).handed) (startPlaced n slot c s)) := by
  set start := startPlayer (handleAt s slot) mode finish
  set y := start (s.player n)
  obtain ⟨hg, hrun⟩ := hruns
  have hseatedNow : ((startSeated n slot c s).modPlayer n start).now = s.now := (startSeated_readied n slot c s).now
  have hclaim : ((runQueue n ((startSeated n slot c s).modPlayer n start)).player n).claim = some (handleAt s slot) := by
    rw [hrun _ startedSeated_player hseatedNow, tellPlayer_player, State.player_modPlayer_self, startedSeated_player,
      (hg y).2]
    rfl
  have hplaced : ((startPlaced n slot c s).modPlayer n start).player n = y := started_player
  have hchannels : playerChannels n ((startPlaced n slot c s).modPlayer n start) = c.channels := by
    refine playerChannels_of_claim (h := handleAt s slot) ?_ (claimAt_startPlaced n slot c s)
    rw [hplaced]
    rfl
  have hset (level : Level) : handedOn n ((startPlaced n slot c s).modPlayer n start) 0 level = startHanded c level := by
    rw [handedOn, hchannels, startHanded]
  unfold runStart
  dsimp only
  rw [if_neg (by rw [hclaim]; simp), hrun _ hplaced (startPlaced_now n slot c s), handPlayerLevel_eq hg, hplaced, hlast,
    hset, modPlayer_modPlayer]
  rfl

/-- A write of a player at an unchanged level leaves every effective level (R35). -/
theorem effectiveLevel_modPlayer {u : State} {f : Player → Player} (hf : (f (u.player n)).level = (u.player n).level)
    (ds : List PlayerDetail) (e : Claim) (ch : Channel) :
    effectiveLevel (tellPlayer n ds (u.modPlayer n f)) e ch = effectiveLevel u e ch := by
  rw [tellPlayer_frame]
  unfold effectiveLevel
  cases e.source with
  | fixed v => rfl
  | scene m => rfl
  | player m =>
    show ((u.modPlayer n f).player m).level = (u.player m).level
    rw [State.player_modPlayer]
    split_ifs with hm
    · rw [hm, hf]
    · rfl

/-- A start leaves stored the winner that is chosen: at level 0 by the placement, else by the resolution of its level
(R41, R43). -/
theorem startRun_winner (ds : List PlayerDetail) (f : Player → Player) {ch : Channel} (hch : inSet c.channels ch = true) :
    let u := startPlaced n slot c s
    let w := startRun n ds (startHanded c (f (u.player n)).level) f u
    (w.entry ch).winner = handleOfWinner (chooseWinner w ch) := by
  intro u w
  by_cases hlevel : (f (u.player n)).level = 0
  · have hw : w = tellPlayer n ds (u.modPlayer n f) := by
      show startRun n ds (startHanded c (f (u.player n)).level) f u = _
      rw [startRun, startHanded, if_pos hlevel, resolveSet_zero]
    have hzero : (u.player n).level = 0 := by
      rw [startPlaced_player, levelZeroed, State.player_modPlayer_self]
    have hframe := tellPlayer_frame n ds (u.modPlayer n f)
    have hentry : w.entry ch = u.entry ch := by rw [hw, hframe]; rfl
    have hpool : w.pool = u.pool := by rw [hw, hframe]; rfl
    obtain ⟨hchosen, -⟩ := outcome_congr hpool hentry fun e _ => by
      rw [hw]
      exact effectiveLevel_modPlayer (hlevel.trans hzero.symm) ds e.2 ch
    rw [hentry, hchosen]
    exact ((startPlaced_redo n slot c s).resolved ch hch).winner
  · have hset : startHanded c (f (u.player n)).level = c.channels := if_neg hlevel
    have hresolved := resolveSet_resolved none false c.channels (tellPlayer n ds (u.modPlayer n f)) hch
    show ((startRun n ds (startHanded c (f (u.player n)).level) f u).entry ch).winner =
      handleOfWinner (chooseWinner (startRun n ds (startHanded c (f (u.player n)).level) f u) ch)
    rw [hset]
    exact hresolved.winner

/-- The notices of a start, to the port (R93). -/
def startTold (n : PlayerNo) (h : Handle) (p : Port) (c : Claim) (ds : List PlayerDetail) (q : Port) : List Notice :=
  if q = p then ds.map (.player n h p c.tag) else []

/-- What a start that keeps its claim leaves beside the player: the record entered, and the level handed (R99). -/
structure StartEntered (n : PlayerNo) (slot : Slot) (c : Claim) (level : Level) (s t : State) : Prop where
  entered : Entered slot c s t
  redone : Redone (startHanded c level) (startPlaced n slot c s) t

/-- What the run of a start leaves, before its WINNER events (R89, R99). -/
structure StartRan (n : PlayerNo) (slot : Slot) (c : Claim) (ns : Port → List Notice) (cs : ChannelSet) (y : Player)
    (s w : State) : Prop where
  queued : ∀ q, Queued (ns q) (s.port q) (w.port q)
  mask : ∀ q, (w.port q).kindMask = (s.port q).kindMask
  watches : w.watches = s.watches
  output : w.output = s.output
  now : w.now = s.now
  results : SameResults s w
  kept : Kept (startPlaced n slot c s) w
  player : w.player n = y
  others : ∀ m, m ≠ n → w.player m = s.player m
  lines : w.lines = s.lines
  pool : w.pool = (startSeated n slot c s).pool
  lists : ∀ ch, (w.entry ch).list = ((startSeated n slot c s).entry ch).list
  access : w.access = (startSeated n slot c s).access
  scenes : w.scenes = (startSeated n slot c s).scenes
  redo : Redo none cs (startPlaced n slot c s) w

theorem startRun_ran {p : Port} {f : Player → Player} (ds : List PlayerDetail) (cs : ChannelSet)
    (hholder : (f ((startPlaced n slot c s).player n)).holder = some p)
    (hclaim : (f ((startPlaced n slot c s).player n)).claim = some (handleAt s slot)) :
    StartRan n slot c (startTold n (handleAt s slot) p c ds) cs (f ((startPlaced n slot c s).player n)) s
      (startRun n ds cs f (startPlaced n slot c s)) := by
  set u := startPlaced n slot c s with hu
  have hframe := tellPlayer_frame n ds (u.modPlayer n f)
  have htold := tellPlayer_readied n ds (u.modPlayer n f)
  obtain ⟨hquiet, hwatches⟩ := resolveSet_quiet none cs (tellPlayer n ds (u.modPlayer n f))
  have hports (q : Port) : (u.modPlayer n f).port q = s.port q := by
    show tget u.ports q = tget s.ports q
    rw [startPlaced_ports]
  have hport (q : Port) : (startRun n ds cs f u).port q = (tellPlayer n ds (u.modPlayer n f)).port q := by
    simp only [State.port, startRun, hquiet]
  have hnames (q : Port) : playerTold q n ds (u.modPlayer n f) = startTold n (handleAt s slot) p c ds q :=
    playerTold_of_claim ds (by rw [State.player_modPlayer_self, hholder]) (by rw [State.player_modPlayer_self, hclaim])
      (claimAt_startPlaced n slot c s)
  exact
    { queued := fun q => by rw [hport, ← hports, ← hnames]; exact htold.queued q
      mask := fun q => by rw [hport, htold.mask, hports]
      watches := by rw [startRun, hwatches, hframe]; exact startPlaced_watches n slot c s
      output := by rw [startRun, resolveSet_output, hframe]; exact startPlaced_output n slot c s
      now := by rw [startRun, resolveSet_now, hframe]; exact startPlaced_now n slot c s
      results := (SameResults.of_ports (s := s) (t := u.modPlayer n f) (startPlaced_ports n slot c s)).trans
        (htold.results.trans (.of_ports hquiet))
      kept := ((modPlayer_kept u n f).trans (tellPlayer_kept n ds _)).trans (resolveSet_kept none false cs _)
      player := by rw [startRun, resolveSet_player, tellPlayer_player, State.player_modPlayer_self]
      others := fun m hm => by
        rw [startRun, resolveSet_player, tellPlayer_player, State.player_modPlayer, if_neg hm, hu, startPlaced_player,
          levelZeroed, State.player_modPlayer, if_neg hm]
      lines := by rw [startRun, resolveSet_lines, hframe]; exact startPlaced_lines n slot c s
      pool := by rw [startRun, resolveSet_pool, hframe]; exact resolveSet_pool _ _ _ _
      lists := fun ch => by rw [startRun, resolveSet_list, hframe]; exact resolveSet_list _ _ _ _ ch
      access := by rw [startRun, resolveSet_access, hframe]; exact resolveSet_access _ _ _ _
      scenes := by rw [startRun, resolveSet_scenes, hframe]; exact resolveSet_scenes _ _ _ _
      redo := resolveSet_redo none false cs (fun ch => by rw [hframe]; rfl) (fun ch => by rw [hframe]; rfl)
        (fun ch => by rw [hframe]; rfl) (fun ch => by rw [hframe]; rfl) (by rw [hframe]; rfl) (by rw [hframe]; rfl) }

theorem Entered.of_zeroed {t : State} (h : Entered slot c (levelZeroed n s) t) (hkept : Kept s t) : Entered slot c s t :=
  { h with kept := hkept }

/-- A start that keeps its claim, up to its answer (R43, R48, R99). -/
theorem startRun_started {p : Port} {f : Player → Player} (ds : List PlayerDetail)
    (hholder : (f ((startPlaced n slot c s).player n)).holder = some p)
    (hclaim : (f ((startPlaced n slot c s).player n)).claim = some (handleAt s slot)) :
    let y := f ((startPlaced n slot c s).player n)
    let t := settle .demand (winnerEvents c.channels s (startRun n ds (startHanded c y.level) f (startPlaced n slot c s)))
    Started n (startTold n (handleAt s slot) p c ds) c.channels y s t ∧ StartEntered n slot c y.level s t := by
  intro y
  have hran := startRun_ran ds (startHanded c y.level) hholder hclaim
  have hwinner (ch : Channel) (hch : ch ∈ members c.channels) := startRun_winner (s := s) (n := n) (slot := slot) ds f
    (mem_members.mp hch)
  dsimp only at hwinner
  generalize startRun n ds (startHanded c y.level) f (startPlaced n slot c s) = w at hran hwinner ⊢
  intro t
  have hkept : Kept (startPlaced n slot c s) t :=
    (hran.kept.trans (winnerEvents_kept c.channels s w)).trans (settle_kept .demand _)
  have hkeptAll : Kept s t := (startPlaced_kept n slot c s).trans hkept
  have hplayer (m : PlayerNo) : t.player m = w.player m := by
    rw [settle_player, State.player, winnerEvents_players, ← State.player]
  refine ⟨?_, ?_, ?_⟩
  · exact
      { announced := fun q => winnerEvents_announced c.channels .demand (hran.queued q) (hran.mask q)
          (watchesOf_congr hran.watches q _) hwinner (congrArg OutputStage.stage hran.output)
        spent := winnerEvents_spends_settle c.channels .demand hran.watches
        follows := settle_follows ((winnerEvents_output _ _ _).trans hran.output) ((winnerEvents_now _ _ _).trans hran.now)
        results := (hran.results.trans (winnerEvents_results _ _ _)).trans (settle_results .demand _)
        player := (hplayer n).trans hran.player
        others := fun m hm => (hplayer m).trans (hran.others m hm)
        kept := hkeptAll
        lines := (settle_lines _ _).trans ((winnerEvents_lines _ _ _).trans hran.lines) }
  · refine Entered.of_zeroed (seat_entered (s := levelZeroed n s) ?_ (fun ch => ?_) ?_ ?_ ?_) hkeptAll
    · exact (settle_pool _ _).trans ((winnerEvents_pool _ _ _).trans hran.pool)
    · rw [settle_entry, State.entry, winnerEvents_resolver, ← State.entry]
      exact hran.lists ch
    · exact (settle_access _ _).trans ((winnerEvents_access _ _ _).trans hran.access)
    · exact (settle_scenes _ _).trans ((winnerEvents_scenes _ _ _).trans hran.scenes)
    · exact (resolveSet_kept none false c.channels _).trans hkept
  · refine (hran.redo.congr ?_ ?_ ?_ ?_ ?_ ?_).settle .demand
    · exact winnerEvents_pool _ _ _
    · exact winnerEvents_scenes _ _ _
    · exact winnerEvents_players _ _ _
    · exact winnerEvents_resolver _ _ _
    · exact winnerEvents_modulator _ _ _
    · rw [winnerEvents_output]

end Start

end Sys2Proof.Machine

namespace Sys2Proof.Machine

/-! ### A start that keeps its claim -/

/-- The state before the answer of a PLAYER_START that has passed its checks (R99). -/
def startTaken (n : PlayerNo) (slot : Slot) (c : Claim) (mode : PlayerMode) (finish : FinishAction) (s : State) : State :=
  settle .demand (runStart n (startPlayer (handleAt s slot) mode finish) c.channels s (startSeated n slot c s)
    (startPlaced n slot c s))

section Keeps

variable {n : PlayerNo} {slot : Slot} {c : Claim} {s : State} {mode : PlayerMode} {finish : FinishAction} {p : Port}

theorem start_keeps {ds : List PlayerDetail} {g : Player → Player} (hholder : (s.player n).holder = some p)
    (hruns : RunsAs n (startPlayer (handleAt s slot) mode finish (s.player n)) s.now ds g)
    (hlast : (g (startPlayer (handleAt s slot) mode finish (s.player n))).lastHanded = 0) :
    let y := (g (startPlayer (handleAt s slot) mode finish (s.player n))).handed
    Started n (startTold n (handleAt s slot) p c ds) c.channels y s (startTaken n slot c mode finish s) ∧
      StartEntered n slot c y.level s (startTaken n slot c mode finish s) := by
  intro y
  have hplayer : (g (startPlayer (handleAt s slot) mode finish ((startPlaced n slot c s).player n))).handed = y := by
    rw [startPlaced_player, levelZeroed, State.player_modPlayer_self]
    rfl
  obtain ⟨hsame, hclaim⟩ := hruns.1 (startPlayer (handleAt s slot) mode finish (s.player n))
  have h := startRun_started (slot := slot) (c := c) (p := p)
    (f := fun x => (g (startPlayer (handleAt s slot) mode finish x)).handed) ds
    (by rw [hplayer]; exact hsame.trans hholder) (by rw [hplayer]; exact hclaim)
  dsimp only at h
  rw [hplayer] at h
  rw [startTaken, runStart_eq hruns hlast]
  exact h

variable {y : Player} {now : Instant} {zeros : List PlayerStep}

theorem runsAs_toStep {more : List PlayerStep} {st : PlayerStep} (hq : y.queue = zeros ++ st :: more)
    (hz : AllZeroTime zeros) (hst : st.zeroTime = false) :
    RunsAs n y now (lowWaterTold y more.length) (Player.begin now)^[zeros.length + 1] := by
  refine ⟨begins_keepsClaim now _, fun u hu hnow => ?_⟩
  subst hu hnow
  exact runQueue_steps hq hz hst

theorem runsAs_starves (hq : y.queue = zeros) (hz : AllZeroTime zeros) (hline : y.recirculating = false)
    (hstream : y.streamComplete = false) :
    RunsAs n y now (lowWaterTold y 0 ++ [.starved]) (Player.ended now zeros.length .starved) := by
  refine ⟨ended_keepsClaim now _ _, fun u hu hnow => ?_⟩
  subst hu hnow
  exact runQueue_starves hq hz (.inr hline) hstream

theorem runsAs_holds (hq : y.queue = zeros) (hz : AllZeroTime zeros) (hline : y.recirculating = false)
    (hstream : y.streamComplete = true) (hfinish : y.finish = .hold) :
    RunsAs n y now [.finished] (Player.ended now zeros.length .holding) := by
  refine ⟨ended_keepsClaim now _ _, fun u hu hnow => ?_⟩
  subst hu hnow
  exact runQueue_holds hq hz (.inr hline) hstream hfinish

end Keeps

/-! ### A start that finishes with RELEASE -/

/-- A handle that no entry of a list is stands in the list alone where it enters (R30, R32). -/
theorem filter_insertClass {prio : Handle → Priority} {b : Priority} {h : Handle} {l : List Handle} {k : Handle → Bool}
    (hh : k h = false) (hl : ∀ e ∈ l, k e = true) : (insertClass prio b h l).filter k = l := by
  have htake : (l.takeWhile fun e => decide (b < prio e)).filter k = l.takeWhile fun e => decide (b < prio e) :=
    List.filter_eq_self.mpr fun e he => hl e (List.takeWhile_subset _ he)
  have hdrop : (l.dropWhile fun e => decide (b < prio e)).filter k = l.dropWhile fun e => decide (b < prio e) :=
    List.filter_eq_self.mpr fun e he => hl e (List.dropWhile_subset _ he)
  rw [insertClass, List.filter_append, List.filter_cons, if_neg (by simp [hh]), htake, hdrop, List.takeWhile_append_dropWhile]

section Release

variable {n : PlayerNo} {slot : Slot} {c : Claim} {s : State} {mode : PlayerMode} {finish : FinishAction} {p : Port}

theorem startSeated_record (x : Slot) : (startSeated n slot c s).record x =
    if x = slot then { gen := (s.record slot).gen, claim := some c } else s.record x := seat_record slot c _ x

theorem claimAt_startSeated : claimAt (startSeated n slot c s) (handleAt s slot) = some c := by
  refine claimAt_some.mpr ?_
  have hrecord := startSeated_record (n := n) (slot := slot) (c := c) (s := s) slot
  rw [if_pos rfl] at hrecord
  exact ⟨by rw [show (handleAt s slot).slot = slot from rfl, hrecord]; rfl,
    by rw [show (handleAt s slot).slot = slot from rfl, hrecord]⟩

/-- The taking of a start that finishes with RELEASE: the record seated and freed, and resolution redone once (R37, R43,
log 26). -/
def startReleased (n : PlayerNo) (slot : Slot) (c : Claim) (f : Player → Player) (s : State) : State :=
  settle .demand (freeRecords .playerFinish true [slot] ((startSeated n slot c s).modPlayer n f))

variable {f : Player → Player}

theorem startReleased_settled (howner : c.owner = .port p) (hsource : c.source = .player n)
    (hholder : (f ((startSeated n slot c s).player n)).holder = some p) :
    Settled (fun q => releaseTold q p n (handleAt s slot) c) s.watch c.channels s (startReleased n slot c f s) := by
  set b := (startSeated n slot c s).modPlayer n f
  have hlive : claimAt b (handleAt s slot) = some c := claimAt_startSeated
  have hready : Readied (fun _ => []) s.watch s b :=
    (startSeated_readied n slot c s).trans (ws' := s.watch) ((startSeated_readied n slot c s).watch ▸
      modPlayer_readied n f (startSeated n slot c s)) fun _ => rfl
  have hfrees := freeAll_readied (x := .playerFinish) rfl rfl (List.nodup_singleton slot) b
  rw [hready.watch] at hfrees
  have htold (q : Port) : removalsTold q .finished .finished [slot] b = releaseTold q p n (handleAt s slot) c :=
    removalsTold_player hlive howner hsource (by rw [State.player_modPlayer_self, hholder]) q
  have hcovered : coveredBy b [slot] = c.channels := coveredBy_singleton (claimAt_some.mp hlive).2
  rw [← hcovered]
  exact ((hready.trans hfrees htold).resolve _).settle

theorem startReleased_started (howner : c.owner = .port p) (hsource : c.source = .player n)
    (hholder : (f ((startSeated n slot c s).player n)).holder = some p) :
    Started n (fun q => releaseTold q p n (handleAt s slot) c) c.channels
      (toLoading false (f ((startSeated n slot c s).player n))) s (startReleased n slot c f s) := by
  have hsettled := startReleased_settled (s := s) (slot := slot) howner hsource hholder
  have hplayer (m : PlayerNo) := freeRecords_player_of_source (x := .playerFinish) (h := handleAt s slot)
    (u := (startSeated n slot c s).modPlayer n f) (claimAt_some.mp claimAt_startSeated).2 hsource m
  exact
    { announced := hsettled.announced
      spent := hsettled.spent
      follows := hsettled.follows
      results := hsettled.results
      player := (settle_player _ _ n).trans ((hplayer n).trans (by rw [if_pos rfl, State.player_modPlayer_self]; rfl))
      others := fun m hm => by
        refine (settle_player _ _ m).trans ((hplayer m).trans ?_)
        rw [if_neg hm, State.player_modPlayer, if_neg hm, startSeated, State.player, seat_players, ← State.player,
          levelZeroed, State.player_modPlayer, if_neg hm]
      kept := (((((modPlayer_kept s n _).trans (seat_kept slot c _)).trans (modPlayer_kept _ n f)).trans
        (freeRecords_kept _ _ _ _)).trans (settle_kept .demand _))
      lines := by
        rw [startReleased, settle_lines, freeRecords_lines, State.modPlayer_lines, startSeated, seat_lines]
        rfl }

/-- Of the access table, a taking that keeps the frame moves the held counts alone (R6, R193). -/
theorem Kept.access_eq {s t : State} (h : Kept s t) (hheld : ∀ q, (t.right q).held = (s.right q).held) :
    t.access = s.access := by
  have hrights : t.access.rights = s.access.rights := table_ext fun q =>
    rights_eq (h.ceiling q) (h.sceneEdit q) (h.quota q) (hheld q)
  have hmaintenance := h.maintenance
  rcases ht : t.access with ⟨_, _⟩
  rcases hs : s.access with ⟨_, _⟩
  rw [ht, hs] at hrights hmaintenance
  cases hrights; cases hmaintenance
  rfl

theorem scenes_eq {s t : State} (hinUse : ∀ m, (t.scene m).inUse = (s.scene m).inUse)
    (hlevels : ∀ m, (t.scene m).levels = (s.scene m).levels) : t.scenes = s.scenes := table_ext fun m => by
  have huse := hinUse m
  have hlev := hlevels m
  simp only [State.scene] at huse hlev
  rcases ht : tget t.scenes m with ⟨_, _⟩
  rcases hs : tget s.scenes m with ⟨_, _⟩
  rw [ht, hs] at huse hlev
  cases huse; cases hlev
  rfl

/-- The claim that has come and gone leaves every record but its slot, every list and every count (log 26). -/
structure Restored (slot : Slot) (s t : State) : Prop where
  record : ∀ x, t.record x = if x = slot then { gen := (s.record slot).gen + 1, claim := none } else s.record x
  lists : ∀ ch, (t.entry ch).list = (s.entry ch).list
  access : t.access = s.access
  scenes : t.scenes = s.scenes

theorem startSeated_lists (hs : ListsInv s) (hfree : (s.record slot).claim = none)
    (hroom : ∀ ch, inSet c.channels ch = true → (s.entry ch).list.length < 8) : ListsInv (startSeated n slot c s) :=
  seat_lists slot c (levelZeroed n s) (hs.of_eq (fun _ => rfl) rfl) hfree fun ch hch => hroom ch (mem_members.mp hch)

theorem listed_slot_ne (hs : ListsInv s) (hfree : (s.record slot).claim = none) {ch : Channel} {h : Handle}
    (hlisted : h ∈ (s.entry ch).list) : h.slot ≠ slot := by
  intro hslot
  obtain ⟨d, hlive, -⟩ := ((hs ch).members h).mp hlisted
  have hrecord := (claimAt_some.mp hlive).2
  rw [hslot, hfree] at hrecord
  cases hrecord

theorem startSeated_list_filter (hs : ListsInv s) (hfree : (s.record slot).claim = none) (ch : Channel) :
    (((startSeated n slot c s).entry ch).list.filter fun h => decide (h.slot ∉ [slot])) = (s.entry ch).list := by
  have hothers : ∀ h ∈ (s.entry ch).list, decide (h.slot ∉ [slot]) = true := fun h hlisted => by
    simpa using listed_slot_ne hs hfree hlisted
  have hentry : (levelZeroed n s).entry ch = s.entry ch := rfl
  rw [startSeated, seat_entry, hentry]
  split_ifs
  · exact filter_insertClass (by simp [handleAt]) hothers
  · exact List.filter_eq_self.mpr hothers

theorem startReleased_restored (hs : ListsInv s) (hfree : (s.record slot).claim = none)
    (hroom : ∀ ch, inSet c.channels ch = true → (s.entry ch).list.length < 8) (hsource : c.source = .player n)
    (hkept : Kept s (startReleased n slot c f s)) : Restored slot s (startReleased n slot c f s) := by
  set b := (startSeated n slot c s).modPlayer n f
  have hb : ListsInv b := (startSeated_lists hs hfree hroom).of_eq (fun _ => rfl) rfl
  have hfreed : Freed [slot] b (startReleased n slot c f s) :=
    freeRecords_freed .playerFinish [slot] (List.nodup_singleton slot) hb .demand
  have hrecord (x : Slot) : b.record x = if x = slot then { gen := (s.record slot).gen, claim := some c } else s.record x :=
    startSeated_record x
  have hpasses (k : Claim → Bool) : ([slot].filter (slotPasses b k)).length = if k c then 1 else 0 := by
    have hone : slotPasses b k slot = k c := by rw [slotPasses_any, hrecord, if_pos rfl]; rfl
    cases hk : k c <;> simp [hone, hk]
  refine ⟨fun x => ?_, fun ch => ?_, ?_, ?_⟩
  · rw [hfreed.record, hrecord]
    by_cases hx : x = slot
    · simp [hx, freed]
    · simp [hx]
  · rw [hfreed.lists]
    exact startSeated_list_filter hs hfree ch
  · refine hkept.access_eq fun q => ?_
    have hheld : (b.right q).held = (s.right q).held + if c.owner = .port q then 1 else 0 := seat_held slot c _ q
    rw [hfreed.held, hpasses, hheld]
    simp only [ownedBy, beq_iff_eq, Nat.add_sub_cancel]
  · have hscene (m : SceneNo) : b.scene m = s.scene m := by
      have hseated : b.scene m = { s.scene m with inUse := (s.scene m).inUse + if c.source = .scene m then 1 else 0 } :=
        seat_scene slot c _ m
      rw [hseated, hsource]
      rfl
    refine scenes_eq (fun m => ?_) fun m => (hfreed.levels m).trans (congrArg Scene.levels (hscene m))
    have hnot : drawsFrom m c = false := by rw [drawsFrom, hsource]; rfl
    rw [hfreed.inUse, hpasses, hnot, hscene]
    rfl

end Release

end Sys2Proof.Machine

namespace Sys2Proof.Machine

/-! ### PLAYER_START, by the end of its run -/

section Start

variable {n : PlayerNo} {slot : Slot} {c : Claim} {s : State} {mode : PlayerMode} {finish : FinishAction} {p : Port}
  {zeros rest : List PlayerStep}

/-- The player as a start's run finds it, its level aside (R99). -/
theorem startPlayer_queue (h : Handle) (x : Player) : (startPlayer h mode finish x).queue = x.queue := rfl

theorem startPlayer_recirculating (h : Handle) (x : Player) :
    (startPlayer h mode finish x).recirculating = (decide (mode = .loop) && !x.streamComplete) := by
  cases mode <;> rfl

/-- LOW_WATER of a start, by its mode and stream-complete (R93). -/
theorem lowWaterTold_startPlayer (h : Handle) (x : Player) (left : Nat) :
    lowWaterTold (startPlayer h mode finish x) left =
      if mode = .oneShot ∧ x.streamComplete = false ∧ fallsToEight x.queue.length left = true then [.lowWater] else [] := by
  rw [lowWaterTold_eq]
  refine if_congr ?_ rfl rfl
  simp [startPlayer, and_assoc]

/-- The player of a start whose run has come to a step that takes time (R89, R99). -/
def Player.onStep (x : Player) (h : Handle) (mode : PlayerMode) (finish : FinishAction) (now : Instant)
    (zeros more : List PlayerStep) (st : PlayerStep) : Player :=
  { x with
    state := .playing, mode := mode, finish := finish, claim := some h,
    queue := if mode = .loop ∧ x.streamComplete = false then more ++ zeros ++ [st] else more,
    current := some { step := st, origin := levelAfter zeros 0, began := now, updates := 0 },
    level := if st.ramp.val = 0 then st.level else levelAfter zeros 0,
    lastHanded := if st.ramp.val = 0 then st.level else levelAfter zeros 0 }

/-- The player of a start whose run has emptied the queue (R90, R102). -/
def Player.pastSteps (x : Player) (h : Handle) (mode : PlayerMode) (finish : FinishAction) (state : PlayerState)
    (zeros : List PlayerStep) : Player :=
  { x with
    state := state, mode := mode, finish := finish, claim := some h, queue := [], current := none,
    level := levelAfter zeros 0, lastHanded := levelAfter zeros 0 }

theorem begins_startPlayer {more : List PlayerStep} {st : PlayerStep} (h : Handle) {x : Player}
    (hq : x.queue = zeros ++ st :: more) (hz : AllZeroTime zeros) (now : Instant) :
    ((Player.begin now)^[zeros.length + 1] (startPlayer h mode finish x)).handed =
      x.onStep h mode finish now zeros more st := by
  rw [begins_step now hz (x := startPlayer h mode finish x) hq]
  simp only [startPlayer_recirculating, Bool.and_eq_true, decide_eq_true_eq, Bool.not_eq_true']
  rfl

theorem ended_startPlayer (h : Handle) {x : Player} (hq : x.queue = zeros) (hz : AllZeroTime zeros)
    (hline : (startPlayer h mode finish x).recirculating = false) (now : Instant) (state : PlayerState) :
    (Player.ended now zeros.length state (startPlayer h mode finish x)).handed =
      x.pastSteps h mode finish state zeros := by
  rw [ended_eq now state hz (x := startPlayer h mode finish x) hq (.inr hline)]
  rfl

/-- What a start leaves that keeps its claim, with its player and its notices. -/
structure StartKept (p : Port) (n : PlayerNo) (slot : Slot) (c : Claim) (ds : List PlayerDetail) (y : Player) (s t : State) :
    Prop extends Started n (startTold n (handleAt s slot) p c ds) c.channels y s t where
  entered : Entered slot c s t
  redone : Redone (startHanded c (t.player n).level) (startPlaced n slot c s) t

theorem start_kept {ds : List PlayerDetail} {g : Player → Player} {y : Player} (hholder : (s.player n).holder = some p)
    (hruns : RunsAs n (startPlayer (handleAt s slot) mode finish (s.player n)) s.now ds g)
    (hlast : (g (startPlayer (handleAt s slot) mode finish (s.player n))).lastHanded = 0)
    (hy : (g (startPlayer (handleAt s slot) mode finish (s.player n))).handed = y) :
    StartKept p n slot c ds y s (startTaken n slot c mode finish s) := by
  obtain ⟨hstarted, hentered⟩ := start_keeps (c := c) hholder hruns hlast
  rw [hy] at hstarted hentered
  exact ⟨hstarted, hentered.entered, hstarted.player ▸ hentered.redone⟩

theorem start_toStep {more : List PlayerStep} {st : PlayerStep} (hholder : (s.player n).holder = some p)
    (hq : (s.player n).queue = zeros ++ st :: more) (hz : AllZeroTime zeros) (hst : st.zeroTime = false) :
    StartKept p n slot c (lowWaterTold (startPlayer (handleAt s slot) mode finish (s.player n)) more.length)
      ((s.player n).onStep (handleAt s slot) mode finish s.now zeros more st) s (startTaken n slot c mode finish s) :=
  start_kept hholder (runsAs_toStep (y := startPlayer (handleAt s slot) mode finish (s.player n)) hq hz hst)
    (by rw [begins_step s.now hz (x := startPlayer (handleAt s slot) mode finish (s.player n)) hq]; rfl)
    (begins_startPlayer (handleAt s slot) hq hz s.now)

theorem start_starves (hholder : (s.player n).holder = some p) (hq : (s.player n).queue = zeros) (hz : AllZeroTime zeros)
    (hline : (startPlayer (handleAt s slot) mode finish (s.player n)).recirculating = false)
    (hstream : (s.player n).streamComplete = false) :
    StartKept p n slot c (lowWaterTold (startPlayer (handleAt s slot) mode finish (s.player n)) 0 ++ [.starved])
      ((s.player n).pastSteps (handleAt s slot) mode finish .starved zeros) s (startTaken n slot c mode finish s) :=
  start_kept hholder (runsAs_starves (y := startPlayer (handleAt s slot) mode finish (s.player n)) hq hz hline hstream)
    (by rw [ended_eq s.now _ hz (x := startPlayer (handleAt s slot) mode finish (s.player n)) hq (.inr hline)]; rfl)
    (ended_startPlayer (handleAt s slot) hq hz hline s.now .starved)

theorem start_holds (hholder : (s.player n).holder = some p) (hq : (s.player n).queue = zeros) (hz : AllZeroTime zeros)
    (hline : (startPlayer (handleAt s slot) mode .hold (s.player n)).recirculating = false)
    (hstream : (s.player n).streamComplete = true) :
    StartKept p n slot c [.finished]
      ((s.player n).pastSteps (handleAt s slot) mode .hold .holding zeros) s (startTaken n slot c mode .hold s) :=
  start_kept hholder (runsAs_holds (y := startPlayer (handleAt s slot) mode .hold (s.player n)) hq hz hline hstream rfl)
    (by rw [ended_eq s.now _ hz (x := startPlayer (handleAt s slot) mode .hold (s.player n)) hq (.inr hline)]; rfl)
    (ended_startPlayer (handleAt s slot) hq hz hline s.now .holding)

/-- A start that finishes with RELEASE is the taking that seats the record and frees it (R37, R103). -/
theorem startTaken_releases (hq : (s.player n).queue = zeros) (hz : AllZeroTime zeros)
    (hstream : (s.player n).streamComplete = true) (hsource : c.source = .player n) :
    startTaken n slot c mode .release s = startReleased n slot c
      (fun x => (Player.begin s.now)^[zeros.length] (startPlayer (handleAt s slot) mode .release x)) s := by
  set start := startPlayer (handleAt s slot) mode .release
  set b := (startSeated n slot c s).modPlayer n start
  have hplayer : b.player n = start (s.player n) := startedSeated_player
  have hnow : b.now = s.now := (startSeated_readied n slot c s).now
  have hline : (b.player n).recirculating = false := by
    rw [hplayer, startPlayer_recirculating, hstream]
    simp
  have hrun := runQueue_releases (n := n) (s := b) (zeros := zeros) (h := handleAt s slot) (by rw [hplayer]; exact hq) hz
    (.inr hline) (by rw [hplayer]; exact hstream) (by rw [hplayer]; rfl) (by rw [hplayer]; rfl)
  have hgone : ((runQueue n b).player n).claim = none := by
    have hloading := freeRecords_player_of_source (x := .playerFinish) (h := handleAt s slot)
      (u := b.modPlayer n (Player.begin b.now)^[zeros.length]) (claimAt_some.mp claimAt_startSeated).2 hsource n
    rw [hrun, hloading, if_pos rfl]
    rfl
  rw [startTaken, startReleased, runStart, if_pos hgone, hrun, hnow, modPlayer_modPlayer]
  rfl

theorem start_releases (hq : (s.player n).queue = zeros) (hz : AllZeroTime zeros)
    (hstream : (s.player n).streamComplete = true) (howner : c.owner = .port p) (hsource : c.source = .player n)
    (hholder : (s.player n).holder = some p) :
    Started n (fun q => releaseTold q p n (handleAt s slot) c) c.channels
        { Player.reset with state := .loading, holder := some p } s (startTaken n slot c mode .release s) ∧
      Redone c.channels s (startTaken n slot c mode .release s) ∧
      (ListsInv s → (s.record slot).claim = none → (∀ ch, inSet c.channels ch = true → (s.entry ch).list.length < 8) →
        Restored slot s (startTaken n slot c mode .release s)) := by
  set f : Player → Player :=
    fun x => (Player.begin s.now)^[zeros.length] (startPlayer (handleAt s slot) mode .release x)
  have hplayer : f ((startSeated n slot c s).player n) =
      (Player.begin s.now)^[zeros.length] (startPlayer (handleAt s slot) mode .release (s.player n)) := by
    rw [startSeated, State.player, seat_players, ← State.player, levelZeroed, State.player_modPlayer_self]
    rfl
  obtain ⟨hkeeps, -⟩ := begins_keepsClaim s.now zeros.length (startPlayer (handleAt s slot) mode .release (s.player n))
  have hfholder : (f ((startSeated n slot c s).player n)).holder = some p := by
    rw [hplayer, hkeeps]
    exact hholder
  have hline : (startPlayer (handleAt s slot) mode .release (s.player n)).recirculating = false := by
    rw [startPlayer_recirculating, hstream]
    simp
  have hqueue : (f ((startSeated n slot c s).player n)).queue = [] := by
    rw [hplayer]
    exact congrArg Player.queue (ended_eq s.now .starved hz (x := startPlayer _ _ _ _) hq (.inr hline))
  have hloading : toLoading false (f ((startSeated n slot c s).player n)) =
      { Player.reset with state := .loading, holder := some p } := by
    rw [toLoading, hqueue, hfholder]
    rfl
  have hstarted := startReleased_started (s := s) (slot := slot) howner hsource hfholder
  rw [hloading] at hstarted
  rw [startTaken_releases hq hz hstream hsource]
  exact ⟨hstarted, (startReleased_settled howner hsource hfholder).redone,
    fun hs hfree hroom => startReleased_restored hs hfree hroom hsource hstarted.kept⟩

end Start

/-! ### The checks of PLAYER_START (R98) -/

section Checks

variable {p : Port} {s : State} {n : PlayerNo} {slot : Slot} {mode : PlayerMode} {finish : FinishAction}
  {lease : Option Lease}

theorem startPrecondition_none {x : Player} {zeros rest : List PlayerStep} (hstate : x.state = .loading)
    (hholder : x.holder = some p) (hq : x.queue = zeros ++ rest)
    (hstep : ∀ st more, rest = st :: more → ¬ AllZeroTime [st])
    (hend : rest = [] → zeros ≠ [] ∧ (mode = .oneShot ∨ x.streamComplete = true)) : startPrecondition p x mode = none := by
  have hqueue : x.queue ≠ [] := by
    rw [hq]
    cases rest with
    | nil => simpa using (hend rfl).1
    | cons st more => simp
  have hloop : ¬ (mode = .loop ∧ !x.streamComplete ∧ x.queue.all PlayerStep.zeroTime) := by
    rintro ⟨hmode, hopen, hall⟩
    cases rest with
    | nil =>
      rcases (hend rfl).2 with hshot | hstream
      · rw [hshot] at hmode
        cases hmode
      · simp [hstream] at hopen
    | cons st more =>
      have hzero := zeroTime_of_not (hstep st more rfl)
      simp [hq, hzero] at hall
  simp only [startPrecondition, hstate, hholder, hqueue, if_neg hloop, reduceCtorEq, if_false, ne_eq, not_true_eq_false]

theorem playerStartBody_done (hset : arg s p 0 ≠ 0) (hn : argNat s p 5 = n.val) (hmode : argMode s p = some mode)
    (hfinish : argFinish s p = some finish) (hlease : argLease s p = some lease)
    (hplayer : startPrecondition p (s.player n) mode = none)
    (hceiling : (argClaimWord s p).priority ≤ (s.right p).ceiling) (hquota : (s.right p).held < (s.right p).quota.val)
    (hroom : roomCheck s (arg s p 0) = .room slot) :
    playerStartBody p s = done (some (handleAt s slot))
      (winsOn (startPlaced n slot (startRequest p n lease s) s) (handleAt s slot) (arg s p 0))
      (startTaken n slot (startRequest p n lease s) mode finish s) := by
  have hargument : argPlayer s p = some n := inRange_eq_some.mpr hn
  have harguments : startArguments p s = none := by
    simp only [startArguments, hargument, hmode, hfinish, hlease, if_neg hset, hplayer]
  have hcheck := placementCheck_eq_room hceiling hquota hroom
  simp only [playerStartBody, hargument, hmode, hfinish, hlease, Option.getD_some, harguments]
  rw [show placementCheck s p (startRequest p n lease s).priority none (startRequest p n lease s).channels = .room slot from
    hcheck]
  rfl

end Checks

/-- Settles O31: the four ends of a start's run. -/
theorem playerStartPlacesAndBegins : Obligations.PlayerStartPlacesAndBegins := by
  intro p s n slot mode finish lease zeros rest htaken hset hn hmode hfinish hlease hstate hholder hq hz hstep hend hceiling
    hquota hfree hlow hroom c h atZero last started lowWater told
  have hdone := playerStartBody_done hset hn hmode hfinish hlease (startPrecondition_none hstate hholder hq hstep hend)
    hceiling hquota (roomCheck_eq_room hfree hlow hroom)
  have hdone' : playerStartBody p s = done (some h) (winsOn (startPlaced n slot c s) h (arg s p 0))
    (startTaken n slot c mode finish s) := hdone
  have hrun := takeCommand_done htaken hdone'
  have hline : rest = [] → (startPlayer h mode finish (s.player n)).recirculating = false := fun hnil => by
    rw [startPlayer_recirculating]
    rcases (hend hnil).2 with hshot | hstream
    · simp [hshot]
    · simp [hstream]
  have hzeros : rest = [] → (s.player n).queue = zeros := fun hnil => by rw [hq, hnil, List.append_nil]
  have hwater (left : Nat) : (lowWaterTold (startPlayer (handleAt s slot) mode finish (s.player n)) left).map
      (.player n (handleAt s slot) p c.tag) = lowWater left := by
    rw [lowWaterTold_startPlayer, apply_ite (List.map _), hq, List.length_append]
    rfl
  have htoStep (st more) (hrest : rest = st :: more) := start_toStep (slot := slot) (c := c) (mode := mode)
    (finish := finish) hholder (hrest ▸ hq) hz (zeroTime_of_not (hstep st more hrest))
  have hstarves (hnil : rest = []) (hstream : (s.player n).streamComplete = false) := start_starves (c := c) hholder
    (hzeros hnil) hz (hline hnil) hstream
  have hholds (hnil : rest = []) (hstream : (s.player n).streamComplete = true) (hhold : finish = .hold) :
      StartKept p n slot c [.finished] ((s.player n).pastSteps h mode finish .holding zeros) s
        (startTaken n slot c mode finish s) := by
    subst hhold
    exact start_holds hholder (hzeros hnil) hz (hline hnil) hstream
  have hreleases (hnil : rest = []) (hstream : (s.player n).streamComplete = true) (hrelease : finish = .release) :
      Started n (fun q => releaseTold q p n h c) c.channels { Player.reset with state := .loading, holder := some p } s
          (startTaken n slot c mode finish s) ∧
        Redone c.channels s (startTaken n slot c mode finish s) ∧
        (ListsInv s → (s.record slot).claim = none → (∀ ch, inSet c.channels ch = true → (s.entry ch).list.length < 8) →
          Restored slot s (startTaken n slot c mode finish s)) := by
    subst hrelease
    exact start_releases (hzeros hnil) hz hstream rfl rfl hholder
  generalize startTaken n slot c mode finish s = t at hrun htoStep hstarves hholds hreleases
  have hkept (hnot : ¬ (rest = [] ∧ (s.player n).streamComplete = true ∧ finish = .release)) :
      ∃ ds y, StartKept p n slot c ds y s t := by
    cases hrest : rest with
    | cons st more => exact ⟨_, _, htoStep st more hrest⟩
    | nil =>
      cases hstream : (s.player n).streamComplete with
      | false => exact ⟨_, _, hstarves hrest hstream⟩
      | true =>
        cases hfin : finish with
        | hold => exact ⟨_, _, hholds hrest hstream hfin⟩
        | release => exact absurd ⟨hrest, hstream, hfin⟩ hnot
  have hstarted : ∃ ns y, Started n ns c.channels y s t := by
    by_cases hrelease : rest = [] ∧ (s.player n).streamComplete = true ∧ finish = .release
    · exact ⟨_, _, (hreleases hrelease.1 hrelease.2.1 hrelease.2.2).1⟩
    · obtain ⟨ds, y, hk⟩ := hkept hrelease
      exact ⟨_, _, hk.toStarted⟩
  have htold {ns : List Notice} {fs : Port → List Notice} {y : Player} (hs : Started n fs c.channels y s t)
      (hns : ∀ q, fs q = if q = p then ns else []) :
      told (acceptedState p (some h) (winsOn (startPlaced n slot c s) h (arg s p 0)) t) ns :=
    ⟨fun q => (hns q ▸ hs.announced q).accepted p (some h) _, hs.spent⟩
  obtain ⟨ns, y, hall⟩ := hstarted
  refine ⟨_, startPlaced n slot c s, congrArg Host.Outcome.next hrun, startPlaced_placed n slot c s,
    startPlaced_players n slot c s, startPlaced_output n slot c s, acceptedState_accepted hall.results,
    acceptedState_others hall.results, hall.lines, hall.kept.trans (acceptedState_kept p (some h) _ t), hall.others,
    hall.follows.accepted p (some h) _, fun hnot => ?_, fun st more hrest => ?_, fun hnil hstream => ?_,
    fun hnil hstream hhold => ?_, fun hnil hstream hrelease hs => ?_⟩
  · obtain ⟨ds, y, hk⟩ := hkept hnot
    exact ⟨hk.entered.accepted p (some h) _, hk.redone.accepted p (some h) _⟩
  · have hk := htoStep st more hrest
    exact ⟨hk.player, htold hk.toStarted fun q => by rw [startTold, hwater]⟩
  · have hk := hstarves hnil hstream
    exact ⟨hk.player, htold hk.toStarted fun q => by rw [startTold, List.map_append, hwater]; rfl⟩
  · exact ⟨(hholds hnil hstream hhold).player, htold (hholds hnil hstream hhold).toStarted fun q => rfl⟩
  · obtain ⟨hs', hredone, hrestored⟩ := hreleases hnil hstream hrelease
    have hr := hrestored hs hfree hroom
    exact ⟨hs'.player, hr.record, hr.lists, hr.access, hr.scenes, hredone.accepted p (some h) _,
      htold hs' fun q => rfl⟩

end Sys2Proof.Machine

namespace Sys2Proof.Machine

/-! ## RENEW (R59) -/

/-- The port's first check refuses every command in OFF and INIT (R191 step 1). -/
theorem takeCommand_wrongState {s : State} (h : refusesCommands s.output.stage = true) (p : Port) (n : Need)
    (body : State → State × Result) : takeCommand p n body s = refusedState p .wrongState 0 s := by
  simp only [takeCommand, checkedBody, if_pos h, refuse, setResult_refused p .wrongState 0 s (by decide)]

/-- A claim without a lease stays without one (R59). -/
theorem restartLease_eq_self {now : Instant} {r : ClaimRecord} (h : r.claim.any (fun c => c.lease.isSome) = false) :
    restartLease now r = r := by
  rcases r with ⟨gen, _ | c⟩
  · rfl
  · have hlease : c.lease = none := by simpa using h
    rcases c with ⟨⟩
    cases hlease
    rfl

/-- The state after a RENEW but for the port's answer: every lease of the port restarted. -/
def leasesRestarted (p : Port) (s : State) : State :=
  forEach (ownLeased p s) (fun slot t => t.modRecord slot (restartLease t.now)) s

theorem renewBody_eq (p : Port) (s : State) : renewBody p s =
    done none (recordsWhere s fun c => ownedBy p c && c.lease.isSome) (leasesRestarted p s) := rfl

theorem leasesRestarted_frame (p : Port) (s : State) :
    leasesRestarted p s = { s with pool := (leasesRestarted p s).pool } :=
  forEach_preserves (fun t => t = { s with pool := t.pool }) _ _ (fun _ _ h => by rw [h]; rfl) s rfl

theorem leasesRestarted_record_of_leased (p : Port) (s : State) (x : Slot) :
    (leasesRestarted p s).record x = if x ∈ ownLeased p s then restartLease s.now (s.record x) else s.record x :=
  forEach_at State.record (fun slot t => t.modRecord slot (restartLease t.now))
    (fun slot t => restartLease t.now (t.record slot)) (fun i t => State.record_modRecord_self t i _)
    (fun i j t hj => by rw [State.record_modRecord, if_neg hj])
    (fun i j t hj => by rw [State.record_modRecord, if_neg hj, State.modRecord_now])
    (ownLeased p s) (nodup_slotsWhere s _) s x

theorem mem_ownLeased {p : Port} {s : State} {x : Slot} :
    x ∈ ownLeased p s ↔ ∃ c, (s.record x).claim = some c ∧ ownedBy p c = true ∧ c.lease.isSome = true := by
  simp only [ownLeased, mem_slotsWhere, Bool.and_eq_true]

/-- The restart may be written for every record of the port, as it leaves those without a lease. -/
theorem leasesRestarted_record (p : Port) (s : State) (x : Slot) : (leasesRestarted p s).record x =
    if slotPasses s (ownedBy p) x then restartLease s.now (s.record x) else s.record x := by
  rw [leasesRestarted_record_of_leased, slotPasses_any]
  by_cases hleased : x ∈ ownLeased p s
  · obtain ⟨c, hclaim, howned, -⟩ := mem_ownLeased.mp hleased
    rw [if_pos hleased, hclaim, Option.any_some, if_pos howned]
  · rw [if_neg hleased]
    split_ifs with howned
    · refine (restartLease_eq_self (Bool.eq_false_iff.mpr fun hlease => hleased ?_)).symm
      obtain ⟨c, hclaim, hsome⟩ := (Option.any_eq_true _ _).mp hlease
      rw [hclaim, Option.any_some] at howned
      exact mem_ownLeased.mpr ⟨c, hclaim, howned, hsome⟩
    · rfl

/-- Settles O25: the effect is on the pool alone, record by record. -/
theorem renewRestartsOwnLeases : Obligations.RenewRestartsOwnLeases := by
  intro p s
  refine ⟨fun hstage => congrArg Host.Outcome.next (takeCommand_wrongState hstage p .none _), fun hstage => ?_⟩
  have hrun : renewTaken p s = acceptedState p none (recordsWhere s fun c => ownedBy p c && c.lease.isSome)
      (leasesRestarted p s) := takeCommand_done ⟨hstage, rfl⟩ (renewBody_eq p s)
  rw [leasesRestarted_frame] at hrun
  exact ⟨(leasesRestarted p s).pool, congrArg Host.Outcome.next hrun, leasesRestarted_record p s⟩

end Sys2Proof.Machine

namespace Sys2Proof.Machine

/-! ## A step on an empty queue (logs 2 and 3) -/

theorem step_of_pending_nil {s : State} (h : s.pending = []) : step s = tick s := by
  simp only [step, h]

theorem tick_of_none_due {s : State} (h : dueEvents s = []) : tick s = .next { s with now := s.now + 1 } := by
  simp only [tick, h]

theorem tick_of_one_due {s : State} {i : Instr} (h : dueEvents s = [i]) : tick s = exec i s := by
  simp only [tick, h]

/-- The free value, reduced by the number of events due, is an index of one of them. -/
theorem tick_of_several_due {s : State} (h : 2 ≤ (dueEvents s).length) :
    ∃ i ∈ dueEvents s, tick s = exec i { s with draws := s.draws + 1 } := by
  match hdue : dueEvents s with
  | [] => simp [hdue] at h
  | [_] => simp [hdue] at h
  | e :: f :: es =>
    have hlt : Config.dueChoice s.draws % (e :: f :: es).length < (e :: f :: es).length := Nat.mod_lt _ (Nat.succ_pos _)
    refine ⟨(e :: f :: es)[Config.dueChoice s.draws % (e :: f :: es).length], List.getElem_mem hlt, ?_⟩
    simp only [tick, hdue, List.getD_eq_getElem _ _ hlt]

/-- Settles O2, by the number of events due. -/
theorem emptyQueueStepTakesDueEvent : Obligations.EmptyQueueStepTakesDueEvent := by
  intro s hempty
  rw [step_of_pending_nil hempty]
  exact ⟨tick_of_none_due, fun _ => tick_of_one_due, tick_of_several_due⟩

end Sys2Proof.Machine

namespace Sys2Proof.Machine

/-! ## The edits of a scene (R70 to R74) -/

/-- The state with the entries of one scene replaced. -/
def sceneLevelsSet (n : SceneNo) (levels : Vector (Option Level) 16) (s : State) : State :=
  s.modScene n fun x => { x with levels := levels }

theorem sceneLevelsSet_entryCount (n : SceneNo) (levels : Vector (Option Level) 16) (s : State) :
    ((sceneLevelsSet n levels s).scene n).entryCount =
      ((indexes 16).filter fun ch => (tget levels ch).isSome).length := by
  rw [entryCount_eq, sceneLevelsSet, State.scene_modScene, if_pos rfl]

/-! ### The shared end of the edit commands (R70) -/

theorem editScene_inUse {n : SceneNo} {s : State} (huse : 0 < (s.scene n).inUse) (levels : Vector (Option Level) 16) :
    editScene n levels s = refuse .inUse (s.scene n).inUse s := if_pos huse

theorem editScene_done {n : SceneNo} {s : State} (huse : (s.scene n).inUse = 0) (levels : Vector (Option Level) 16) :
    editScene n levels s =
      done none ((indexes 16).filter fun ch => (tget levels ch).isSome).length (sceneLevelsSet n levels s) := by
  rw [← sceneLevelsSet_entryCount n levels s]
  exact if_neg huse.le.not_gt

/-! ### The argument checks of each command, and the edit they lead to -/

theorem argScene_eq_none {s : State} {p : Port} : argScene s p = none ↔ 15 < argNat s p 0 := inRange_eq_none

theorem argSceneChannel_eq_none {s : State} {p : Port} : argSceneChannel s p = none ↔ 15 < argNat s p 1 :=
  inRange_eq_none

theorem argSceneLevel_eq_none {s : State} {p : Port} : argSceneLevel s p = none ↔ 4095 < argNat s p 2 :=
  inRange_eq_none

section Edits

variable {s : State} {p : Port} {n : SceneNo} {ch : Channel} {v : Level}

theorem scenePutBody_badArgument (h : 15 < argNat s p 0 ∨ 15 < argNat s p 1 ∨ 4095 < argNat s p 2) :
    scenePutBody p s = refuse .badArgument 0 s := by
  unfold scenePutBody
  split
  · next hn hch hv =>
    rcases h with h | h | h
    · exact absurd (argScene_eq_none.mpr h) (by simp [hn])
    · exact absurd (argSceneChannel_eq_none.mpr h) (by simp [hch])
    · exact absurd (argSceneLevel_eq_none.mpr h) (by simp [hv])
  · rfl

theorem scenePutBody_eq (hn : argNat s p 0 = n.val) (hch : argNat s p 1 = ch.val) (hv : argNat s p 2 = v.val) :
    scenePutBody p s = editScene n (tset (s.scene n).levels ch (some v)) s := by
  simp only [scenePutBody, argScene, argSceneChannel, argSceneLevel, inRange_eq_some.mpr hn, inRange_eq_some.mpr hch,
    inRange_eq_some.mpr hv]

theorem sceneDropBody_badArgument (h : 15 < argNat s p 0 ∨ 15 < argNat s p 1) :
    sceneDropBody p s = refuse .badArgument 0 s := by
  unfold sceneDropBody
  split
  · next hn hch =>
    rcases h with h | h
    · exact absurd (argScene_eq_none.mpr h) (by simp [hn])
    · exact absurd (argSceneChannel_eq_none.mpr h) (by simp [hch])
  · rfl

theorem sceneDropBody_inUse (hn : argNat s p 0 = n.val) (hch : argNat s p 1 = ch.val) (huse : 0 < (s.scene n).inUse) :
    sceneDropBody p s = refuse .inUse (s.scene n).inUse s := by
  simp only [sceneDropBody, argScene, argSceneChannel, inRange_eq_some.mpr hn, inRange_eq_some.mpr hch, if_pos huse]

/-- The entry is looked for only where the scene is not in use (R70 step 5). -/
theorem sceneDropBody_noEntry (hn : argNat s p 0 = n.val) (hch : argNat s p 1 = ch.val) (huse : (s.scene n).inUse = 0)
    (hnone : tget (s.scene n).levels ch = none) : sceneDropBody p s = refuse .badArgument 0 s := by
  simp [sceneDropBody, argScene, argSceneChannel, inRange_eq_some.mpr hn, inRange_eq_some.mpr hch, huse, hnone]

theorem sceneDropBody_eq (hn : argNat s p 0 = n.val) (hch : argNat s p 1 = ch.val) (huse : (s.scene n).inUse = 0)
    (hsome : tget (s.scene n).levels ch ≠ none) :
    sceneDropBody p s = editScene n (tset (s.scene n).levels ch none) s := by
  simp [sceneDropBody, argScene, argSceneChannel, inRange_eq_some.mpr hn, inRange_eq_some.mpr hch, huse, hsome]

theorem sceneEraseBody_badArgument (h : 15 < argNat s p 0) : sceneEraseBody p s = refuse .badArgument 0 s := by
  simp only [sceneEraseBody, argScene_eq_none.mpr h]

theorem sceneEraseBody_eq (hn : argNat s p 0 = n.val) :
    sceneEraseBody p s = editScene n (Vector.replicate 16 none) s := by
  simp only [sceneEraseBody, argScene, inRange_eq_some.mpr hn]

/-! ### The three refusals and the three edits of a taken command -/

variable (htaken : Taken p .sceneEdit s)
include htaken

theorem sceneEdit_badArgument :
    ((15 < argNat s p 0 ∨ 15 < argNat s p 1 ∨ 4095 < argNat s p 2) →
      exec (.scenePut p) s = .next (refusedState p .badArgument 0 s)) ∧
    ((15 < argNat s p 0 ∨ 15 < argNat s p 1) → exec (.sceneDrop p) s = .next (refusedState p .badArgument 0 s)) ∧
    (15 < argNat s p 0 → exec (.sceneErase p) s = .next (refusedState p .badArgument 0 s)) :=
  ⟨fun h => congrArg Host.Outcome.next (takeCommand_refused htaken (scenePutBody_badArgument h) (by decide)),
    fun h => congrArg Host.Outcome.next (takeCommand_refused htaken (sceneDropBody_badArgument h) (by decide)),
    fun h => congrArg Host.Outcome.next (takeCommand_refused htaken (sceneEraseBody_badArgument h) (by decide))⟩

theorem sceneEdit_inUse (hn : argNat s p 0 = n.val) (huse : 0 < (s.scene n).inUse) :
    (argNat s p 1 ≤ 15 → argNat s p 2 ≤ 4095 →
      exec (.scenePut p) s = .next (refusedState p .inUse (s.scene n).inUse s)) ∧
    (argNat s p 1 ≤ 15 → exec (.sceneDrop p) s = .next (refusedState p .inUse (s.scene n).inUse s)) ∧
    exec (.sceneErase p) s = .next (refusedState p .inUse (s.scene n).inUse s) := by
  refine ⟨fun hch hv => ?put, fun hch => ?drop, ?erase⟩
  case put =>
    have hbody := scenePutBody_eq (ch := ⟨argNat s p 1, by omega⟩) (v := ⟨argNat s p 2, by omega⟩) hn rfl rfl
    exact congrArg Host.Outcome.next (takeCommand_refused htaken (hbody.trans (editScene_inUse huse _)) (by decide))
  case drop =>
    have hbody := sceneDropBody_inUse (ch := ⟨argNat s p 1, by omega⟩) hn rfl huse
    exact congrArg Host.Outcome.next (takeCommand_refused htaken hbody (by decide))
  case erase =>
    have hbody := (sceneEraseBody_eq hn).trans (editScene_inUse huse _)
    exact congrArg Host.Outcome.next (takeCommand_refused htaken hbody (by decide))

/-- An edit whose body comes to `editScene` on a scene not in use is carried out. -/
theorem takeCommand_editScene {body : State → State × Result} {levels : Vector (Option Level) 16}
    (hbody : body s = editScene n levels s) (huse : (s.scene n).inUse = 0) :
    takeCommand p .sceneEdit body s = acceptedState p none
      ((indexes 16).filter fun ch => (tget levels ch).isSome).length (sceneLevelsSet n levels s) :=
  takeCommand_done htaken (hbody.trans (editScene_done huse levels))

theorem sceneErase_done (hn : argNat s p 0 = n.val) (huse : (s.scene n).inUse = 0) :
    exec (.sceneErase p) s = .next (acceptedState p none 0 (sceneLevelsSet n (Vector.replicate 16 none) s)) := by
  have hcount : ((indexes 16).filter fun ch =>
      (tget (Vector.replicate 16 (none : Option Level)) ch).isSome).length = 0 := by simp
  have hrun := takeCommand_editScene htaken (sceneEraseBody_eq hn) huse
  rw [hcount] at hrun
  exact congrArg Host.Outcome.next hrun

end Edits

/-- Settles O27: each check leads to its refusal, and past them the command is `editScene` with the entries named. -/
theorem sceneEditsCheckedAndMade : Obligations.SceneEditsCheckedAndMade := by
  refine ⟨fun p s htaken => ?checks, fun p s n htaken hn huse => ?edits⟩
  case checks =>
    obtain ⟨hput, hdrop, herase⟩ := sceneEdit_badArgument htaken
    refine ⟨hput, hdrop, herase, fun n hn => ⟨sceneEdit_inUse htaken hn, fun huse ch hch hnone => ?_⟩⟩
    exact congrArg Host.Outcome.next
      (takeCommand_refused htaken (sceneDropBody_noEntry hn hch huse hnone) (by decide))
  case edits =>
    refine ⟨fun ch v hch hv => ⟨_, congrArg Host.Outcome.next
        (takeCommand_editScene htaken (scenePutBody_eq hn hch hv) huse), fun i => tget_tset _ ch i _⟩,
      fun ch hch hsome => ⟨_, congrArg Host.Outcome.next
        (takeCommand_editScene htaken (sceneDropBody_eq hn hch huse hsome) huse), fun i => tget_tset _ ch i _⟩,
      sceneErase_done htaken hn huse⟩

end Sys2Proof.Machine

namespace Sys2Proof.Machine

/-! ## The checks on a held player, and PLAYER_ACQUIRE (R94, R95) -/

theorem argPlayer_eq_none {s : State} {p : Port} : argPlayer s p = none ↔ 1 < argNat s p 5 := inRange_eq_none

theorem argPlayer_eq_some {s : State} {p : Port} {n : PlayerNo} : argPlayer s p = some n ↔ argNat s p 5 = n.val :=
  inRange_eq_some

section HolderChecks

variable {p q : Port} {n : PlayerNo} {s : State}

/-! ### The shared checks: the case where they pass is `onHeldPlayer_held` -/

theorem onHeldPlayer_badArgument (h : 1 < argNat s p 5) (body : PlayerNo → State → State × Result) :
    onHeldPlayer p body s = refuse .badArgument 0 s := by
  simp only [onHeldPlayer, argPlayer_eq_none.mpr h]

theorem onHeldPlayer_free (hn : argNat s p 5 = n.val) (hfree : (s.player n).state = .free)
    (body : PlayerNo → State → State × Result) : onHeldPlayer p body s = refuse .wrongState 0 s := by
  simp only [onHeldPlayer, argPlayer_eq_some.mpr hn, if_pos hfree]

theorem onHeldPlayer_notOwner (hn : argNat s p 5 = n.val) (hstate : (s.player n).state ≠ .free)
    (hholder : (s.player n).holder ≠ some p) (body : PlayerNo → State → State × Result) :
    onHeldPlayer p body s = refuse .notOwner 0 s := by
  simp only [onHeldPlayer, argPlayer_eq_some.mpr hn, if_neg hstate, if_pos hholder]

/-- The four commands that share the checks of R94 each do something of their own behind them. -/
theorem exec_onHeldPlayer {c : Instr} (hc : c ∈ [Instr.playerPush p, .playerEnd p, .playerAbort p, .playerRelease p])
    (s : State) : ∃ body, exec c s = .next (takeCommand p .none (onHeldPlayer p body) s) := by
  simp only [List.mem_cons, List.not_mem_nil, or_false] at hc
  obtain rfl | rfl | rfl | rfl := hc
  case inl => exact ⟨_, rfl⟩
  case inr.inl => exact ⟨_, rfl⟩
  case inr.inr.inl => exact ⟨_, rfl⟩
  case inr.inr.inr => exact ⟨_, rfl⟩

/-! ### The four answers of PLAYER_ACQUIRE -/

theorem playerAcquireBody_badArgument (h : 1 < argNat s p 5) : playerAcquireBody p s = refuse .badArgument 0 s := by
  simp only [playerAcquireBody, argPlayer_eq_none.mpr h]

theorem playerAcquireBody_free (hn : argNat s p 5 = n.val) (hfree : (s.player n).state = .free) :
    playerAcquireBody p s =
      done none 0 (s.modPlayer n fun _ => { Player.reset with state := .loading, holder := some p }) := by
  simp only [playerAcquireBody, argPlayer_eq_some.mpr hn, if_pos hfree]

theorem playerAcquireBody_held (hn : argNat s p 5 = n.val) (hstate : (s.player n).state ≠ .free)
    (hholder : (s.player n).holder = some p) :
    playerAcquireBody p s = done none (s.player n).queue.length s := by
  simp only [playerAcquireBody, argPlayer_eq_some.mpr hn, if_neg hstate, if_pos hholder]

theorem playerAcquireBody_busy (hn : argNat s p 5 = n.val) (hstate : (s.player n).state ≠ .free)
    (hholder : (s.player n).holder = some q) (hne : q ≠ p) : playerAcquireBody p s = refuse .busy q.val s := by
  simp only [playerAcquireBody, argPlayer_eq_some.mpr hn, if_neg hstate, hholder, Option.some.injEq, if_neg hne,
    Option.getD_some]

end HolderChecks

/-- Settles O28: PLAYER_ACQUIRE by its four answers, the other commands by the checks they share. -/
theorem playerHolderChecksAndAcquire : Obligations.PlayerHolderChecksAndAcquire := by
  refine ⟨fun p s htaken => ?acquire, fun p s c htaken hc => ?shared⟩
  case acquire =>
    refine ⟨fun h => ?bad, fun n hn =>
      ⟨fun hfree => ?free, fun hstate hholder => ?held, fun q hstate hholder hne => ?busy⟩⟩ <;>
      apply congrArg Host.Outcome.next
    case bad => exact takeCommand_refused htaken (playerAcquireBody_badArgument h) (by decide)
    case free => exact takeCommand_done htaken (playerAcquireBody_free hn hfree)
    case held => exact takeCommand_done htaken (playerAcquireBody_held hn hstate hholder)
    case busy => exact takeCommand_refused htaken (playerAcquireBody_busy hn hstate hholder hne) (by decide)
  case shared =>
    obtain ⟨body, hrun⟩ := exec_onHeldPlayer hc s
    simp only [hrun]
    refine ⟨fun h => ?bad, fun n hn => ⟨fun hfree => ?free, fun hstate hholder => ?notOwner⟩⟩ <;>
      apply congrArg Host.Outcome.next
    case bad => exact takeCommand_refused htaken (onHeldPlayer_badArgument h body) (by decide)
    case free => exact takeCommand_refused htaken (onHeldPlayer_free hn hfree body) (by decide)
    case notOwner => exact takeCommand_refused htaken (onHeldPlayer_notOwner hn hstate hholder body) (by decide)

end Sys2Proof.Machine

namespace Sys2Proof.Machine

/-! ## Power-on reset and ENABLE going high (R110, R155, R193) -/

/-! ### ENABLE going high in OFF -/

/-- Entering INIT from OFF ends no lamp test (R147, R155). -/
theorem enterInit_lampTest {s : State} (c : Cause) (h : s.output.stage = .off) :
    (enterStage .init c s).lampTest = s.lampTest := by
  have hruns : endsLampTest s.output.stage .init = false := by
    rw [h]
    rfl
  rw [enterStage_lampTest, hruns]
  rfl

/-- In a stage other than ACTIVE every channel is closed (R126, R131). -/
theorem enterStage_modulator {st : StageName} (c : Cause) (hst : st ≠ .active) (s : State) :
    (enterStage st c s).modulator = tmap (fun m => { m with fade := .parked }) s.modulator := by
  refine table_ext fun ch => ?_
  have hclosed : isOpen (enterStage st c s) ch = false := by
    simp [isOpen, enterStage_output, OutputStage.enter, hst]
  have hchan := enterStage_chan st c s ch
  rw [hclosed] at hchan
  rw [tget_tmap]
  exact hchan

/-- Only the entry of LATCHED, which pauses the retry timers, writes the channels of the output stage (R171). -/
theorem enterStage_outs {st : StageName} (c : Cause) (hst : st ≠ .latched) (s : State) :
    (enterStage st c s).outs = s.outs :=
  table_ext fun ch => (enterStage_out st c s ch).trans (if_neg hst)

theorem enterStage_ports (st : StageName) (c : Cause) (s : State) :
    (enterStage st c s).ports = tmap (offerTo (.stage st c)) s.ports :=
  table_ext fun p => by
    rw [tget_tmap]
    exact enterStage_port st c s p

/-- In OFF, ENABLE going high runs the INIT interval alone, closes every channel and tells every port (R153, R155). -/
theorem enableHigh_off {s : State} (h : s.output.stage = .off) :
    enableHigh s = { s with
      output := { s.output.idle with
        stage := .init, lastCause := .enableHigh, initEnd := some (s.now + 10) },
      modulator := tmap (fun m => { m with fade := .parked }) s.modulator,
      ports := tmap (offerTo (.stage .init .enableHigh)) s.ports } := by
  have henters : enableHigh s = enterStage .init .enableHigh s := if_pos h
  rw [henters]
  refine state_eq (enterStage_now ..) (enterStage_draws ..) (enterStage_pending ..) (enterStage_lts ..)
    (enterStage_address0 ..) (enterStage_address1 ..) (enterStage_ports ..) (enterStage_access ..) (enterStage_pool ..)
    (enterStage_resolver ..) (enterStage_scenes ..) (enterStage_players ..) (enterStage_lines ..)
    (enterStage_modulator _ (by decide) s) (enterStage_clocks ..) (enterStage_derateCeiling ..)
    (enterInit_lampTest _ h) ?output (enterStage_outs _ (by decide) s) (enterStage_watches ..)
  case output =>
    rw [enterStage_output]
    rfl

/-- ENABLE stands high already (log 24). -/
theorem enableHigh_on {s : State} (h : s.output.stage ≠ .off) : enableHigh s = s := if_neg h

/-! ### Power-on reset -/

/-- A line keeps nothing but its raw input, as sampled (R110). -/
theorem powerOnState_line (pins : PowerOnPins) (s : State) (l : Line) :
    (powerOnState pins s).line l = { LineState.reset with raw := pins.lines.getLsbD l.val } := by
  fin_cases l <;> rfl

/-- MSEL selects the maintenance port, the one with ceiling 7 and the right to edit scenes (R193). -/
theorem powerOnState_right_msel (pins : PowerOnPins) (s : State) (p : Port) :
    (powerOnState pins s).right p =
      { ceiling := if p = pins.msel then 7 else 6, sceneEdit := decide (p = pins.msel), quota := 16, held := 0 } := by
  have hselects : (pins.msel == p) = decide (p = pins.msel) := by
    rw [beq_eq_decide, decide_eq_decide]
    exact eq_comm
  rw [powerOnState_right, hselects]
  simp only [Rights.reset, decide_eq_true_eq]

/-- Where ENABLE stands high, the reset is the one with ENABLE low, and ENABLE going high after it (R155). -/
theorem powerOn_high {pins : PowerOnPins} (h : pins.enable = true) (s : State) :
    powerOn pins s = enableHigh (powerOn { pins with enable := false } s) := if_pos h

theorem powerOn_low {pins : PowerOnPins} (h : pins.enable = false) (s : State) :
    powerOn pins s = powerOnState pins s := if_neg (by simp [h])

/-! ### The obligation -/

/-- Settles O5: the reset by its two rows for ENABLE, ENABLE going high by the stage it finds. -/
theorem powerOnResetThenEnableHigh : Obligations.PowerOnResetThenEnableHigh := by
  refine ⟨fun pins s => ⟨fun hlow => ?low, fun hhigh t ht => ?high⟩, fun s => ⟨fun hoff => ?off, fun hon => ?on⟩⟩
  case low =>
    exact ⟨powerOnState pins s, congrArg Host.Outcome.next (powerOn_low hlow s), rfl, rfl, powerOnState_right_msel pins s,
      powerOnState_line pins s⟩
  case high =>
    obtain rfl : powerOn { pins with enable := false } s = t := Host.Outcome.next.inj ht
    exact congrArg Host.Outcome.next (powerOn_high hhigh s)
  case off => exact congrArg Host.Outcome.next (enableHigh_off hoff)
  case on => exact congrArg Host.Outcome.next (enableHigh_on hon)

end Sys2Proof.Machine

namespace Sys2Proof.Machine

/-! ## What every taking keeps, every step keeps -/

/-- A property that no taking ends: neither the board's events and the timed events, nor the bodies of the port commands,
nor what an answer, a frame or a read writes at a port, which lengthens no queue, nor the model's own instant, draws and
commands waiting (logs 2, 3 and 6). -/
structure KeptByTakings (P : State → Prop) : Prop where
  powerOn : ∀ pins s, P s → P (powerOn pins s)
  enableLow : ∀ s, P s → P (enableLow s)
  enableHigh : ∀ s, P s → P (enableHigh s)
  assertHold : ∀ s, P s → P (assertHold s)
  releaseHold : ∀ s, P s → P (releaseHold s)
  supplyOnset : ∀ c s, P s → P (supplyOnset c s)
  supplyClearing : ∀ c s, P s → P (supplyClearing c s)
  channelFault : ∀ ch k s, P s → P (channelFault ch k s)
  inputChanges : ∀ l s, P s → P (inputChanges l s)
  filterEnds : ∀ l s, P s → P (filterEnds l s)
  stretchEnds : ∀ l s, P s → P (stretchEnds l s)
  initEnds : ∀ s, P s → P (initEnds s)
  softstartEnds : ∀ s, P s → P (softstartEnds s)
  standbyExpires : ∀ s, P s → P (standbyExpires s)
  activeTimerEnds : ∀ s, P s → P (activeTimerEnds s)
  recoveryEnds : ∀ s, P s → P (recoveryEnds s)
  retryEnds : ∀ ch s, P s → P (retryEnds ch s)
  cleanEnds : ∀ ch s, P s → P (cleanEnds ch s)
  leaseExpires : ∀ slot s, P s → P (leaseExpires slot s)
  clockHalfEnds : ∀ k s, P s → P (clockHalfEnds k s)
  fadeCompletes : ∀ ch s, P s → P (fadeCompletes ch s)
  rampUpdates : ∀ n s, P s → P (rampUpdates n s)
  stepCompletes : ∀ n s, P s → P (stepCompletes n s)
  lampTestExpires : ∀ s, P s → P (lampTestExpires s)
  outputRises : ∀ ch s, P s → P (outputRises ch s)
  claimBody : ∀ p s, P s → P (claimBody p s).1
  modifyBody : ∀ p s, P s → P (modifyBody p s).1
  withdrawBody : ∀ p s, P s → P (withdrawBody p s).1
  withdrawAllBody : ∀ p s, P s → P (withdrawAllBody p s).1
  renewBody : ∀ p s, P s → P (renewBody p s).1
  channelPolicyBody : ∀ p s, P s → P (channelPolicyBody p s).1
  scenePutBody : ∀ p s, P s → P (scenePutBody p s).1
  sceneDropBody : ∀ p s, P s → P (sceneDropBody p s).1
  sceneEraseBody : ∀ p s, P s → P (sceneEraseBody p s).1
  sceneInvokeBody : ∀ p s, P s → P (sceneInvokeBody p s).1
  playerAcquireBody : ∀ p s, P s → P (playerAcquireBody p s).1
  playerEndBody : ∀ p s, P s → P (playerEndBody p s).1
  playerAbortBody : ∀ p s, P s → P (playerAbortBody p s).1
  playerReleaseBody : ∀ p s, P s → P (playerReleaseBody p s).1
  playerPushBody : ∀ p s, P s → P (playerPushBody p s).1
  playerStartBody : ∀ p s, P s → P (playerStartBody p s).1
  lineConfigBody : ∀ p s, P s → P (lineConfigBody p s).1
  lineBindBody : ∀ p s, P s → P (lineBindBody p s).1
  lineUnbindBody : ∀ p s, P s → P (lineUnbindBody p s).1
  channelFadeBody : ∀ p s, P s → P (channelFadeBody p s).1
  clockConfigBody : ∀ p s, P s → P (clockConfigBody p s).1
  derateConfigBody : ∀ p s, P s → P (derateConfigBody p s).1
  lampTestBody : ∀ p s, P s → P (lampTestBody p s).1
  latchClearBody : ∀ s, P s → P (latchClearBody s).1
  channelEnableBody : ∀ p s, P s → P (channelEnableBody p s).1
  channelRearmModeBody : ∀ p s, P s → P (channelRearmModeBody p s).1
  faultRearmBody : ∀ p s, P s → P (faultRearmBody p s).1
  watchSetBody : ∀ p s, P s → P (watchSetBody p s).1
  watchDropBody : ∀ p s, P s → P (watchDropBody p s).1
  privSetBody : ∀ p s, P s → P (privSetBody p s).1
  maintHandoverBody : ∀ p s, P s → P (maintHandoverBody p s).1
  portResets : ∀ p s, P s → P (settle .demand (resetPort p s))
  portClearBody : ∀ p s, P s → P (portClearBody p s).1
  portWrite : ∀ p f s, (∀ q : PortState, (f q).queue <:+ q.queue) → P s → P (s.modPort p f)
  drawn : ∀ n s, P s → P { s with draws := n }
  waits : ∀ l s, P s → P { s with pending := l }
  passes : ∀ s, P s → P { s with now := s.now + 1 }

theorem storeRegister_queue (n : Nat) (v : Word) (q : PortState) : (storeRegister n v q).queue = q.queue := by
  unfold storeRegister
  split
  · rfl
  · split <;> rfl

namespace KeptByTakings

variable {P : State → Prop}

/-- A command whose body keeps the property: a refusal leaves the state, and its answer writes its port alone (R191). -/
theorem takeCommand (h : KeptByTakings P) (p : Port) (n : Need) {body : State → State × Result} {s : State}
    (hbody : P (body s).1) (hs : P s) : P (takeCommand p n body s) := by
  refine h.portWrite p _ _ (fun _ => List.suffix_refl _) ?_
  unfold checkedBody
  split_ifs
  · exact hs
  · exact hs
  · exact hbody

/-- Every command register, and with it every port command, keeps the property (R203). -/
theorem commandAt (h : KeptByTakings P) (n : Nat) (p : Port) (s : State) (hs : P s) : P (commandAt n p s) := by
  unfold Machine.commandAt
  split
  · exact h.takeCommand p _ (h.claimBody p s hs) hs
  · exact h.takeCommand p _ (h.modifyBody p s hs) hs
  · exact h.takeCommand p _ (h.withdrawBody p s hs) hs
  · exact h.takeCommand p _ (h.withdrawAllBody p s hs) hs
  · exact h.takeCommand p _ (h.renewBody p s hs) hs
  · exact h.takeCommand p _ (h.channelPolicyBody p s hs) hs
  · exact h.takeCommand p _ (h.scenePutBody p s hs) hs
  · exact h.takeCommand p _ (h.sceneDropBody p s hs) hs
  · exact h.takeCommand p _ (h.sceneEraseBody p s hs) hs
  · exact h.takeCommand p _ (h.sceneInvokeBody p s hs) hs
  · exact h.takeCommand p _ (h.playerAcquireBody p s hs) hs
  · exact h.takeCommand p _ (h.playerEndBody p s hs) hs
  · exact h.takeCommand p _ (h.playerAbortBody p s hs) hs
  · exact h.takeCommand p _ (h.playerReleaseBody p s hs) hs
  · exact h.takeCommand p _ (h.playerPushBody p s hs) hs
  · exact h.takeCommand p _ (h.playerStartBody p s hs) hs
  · exact h.takeCommand p _ (h.lineConfigBody p s hs) hs
  · exact h.takeCommand p _ (h.lineBindBody p s hs) hs
  · exact h.takeCommand p _ (h.lineUnbindBody p s hs) hs
  · exact h.takeCommand p _ (h.channelFadeBody p s hs) hs
  · exact h.takeCommand p _ (h.clockConfigBody p s hs) hs
  · exact h.takeCommand p _ (h.derateConfigBody p s hs) hs
  · exact h.takeCommand p _ (h.lampTestBody p s hs) hs
  · exact h.takeCommand p _ (h.latchClearBody s hs) hs
  · exact h.takeCommand p _ (h.channelEnableBody p s hs) hs
  · exact h.takeCommand p _ (h.channelRearmModeBody p s hs) hs
  · exact h.takeCommand p _ (h.faultRearmBody p s hs) hs
  · exact h.takeCommand p _ (h.watchSetBody p s hs) hs
  · exact h.takeCommand p _ (h.watchDropBody p s hs) hs
  · exact h.takeCommand p _ (h.privSetBody p s hs) hs
  · exact h.takeCommand p _ (h.maintHandoverBody p s hs) hs
  · exact h.portWrite p _ _ (fun _ => List.suffix_refl _) (h.portResets p s hs)
  · exact h.takeCommand p _ (h.portClearBody p s hs) hs
  · exact hs

theorem goodWrite (h : KeptByTakings P) (p : Port) (offset : Byte) (v : Word) (s : State) (hs : P s) :
    P (goodWrite p offset v s) := by
  unfold Machine.goodWrite
  dsimp only
  split
  · split
    · exact h.portWrite p _ s (fun _ => List.suffix_refl _) hs
    · exact h.portWrite p _ s (fun _ => List.suffix_refl _) hs
    · exact h.portWrite p _ s (fun _ => List.tail_suffix _) hs
    · exact h.portWrite p _ s (fun q => storeRegister_queue _ v q ▸ List.suffix_refl _) hs
  · exact h.commandAt _ p s hs

theorem writeFrameTaken (h : KeptByTakings P) (p : Port) (address : Nat) (bytes : List Byte) (s : State) (hs : P s) :
    P (writeFrameTaken p address bytes s) := by
  unfold Machine.writeFrameTaken
  split
  · split
    · exact h.portWrite p _ s (fun _ => List.suffix_refl _) hs
    · exact hs
    · exact hs
    · exact h.goodWrite p _ _ s hs
  · exact hs

theorem readFrame (h : KeptByTakings P) (p : Port) (offset : Byte) (s : State) (hs : P s) : P (readFrame p offset s) :=
  h.portWrite p _ s (fun q => by
    have hq : (clearByRead offset.toNat q).queue = q.queue := by
      unfold clearByRead
      split <;> rfl
    exact hq ▸ List.suffix_refl _) hs

/-- Every row of the table keeps the property. -/
theorem exec (h : KeptByTakings P) (i : Instr) (s : State) (hs : P s) : ∃ t, exec i s = .next t ∧ P t := by
  cases i with
  | powerOnReset pins => exact ⟨_, rfl, h.powerOn pins s hs⟩
  | enableLow => exact ⟨_, rfl, h.enableLow s hs⟩
  | enableHigh => exact ⟨_, rfl, h.enableHigh s hs⟩
  | holdAsserted => exact ⟨_, rfl, h.assertHold s hs⟩
  | holdReleased => exact ⟨_, rfl, h.releaseHold s hs⟩
  | supplyOnset c => exact ⟨_, rfl, h.supplyOnset c s hs⟩
  | supplyClearing c => exact ⟨_, rfl, h.supplyClearing c s hs⟩
  | channelFaultEvent ch k => exact ⟨_, rfl, h.channelFault ch k s hs⟩
  | lineInputChange l => exact ⟨_, rfl, h.inputChanges l s hs⟩
  | filterIntervalEnd l => exact ⟨_, rfl, h.filterEnds l s hs⟩
  | stretchEnd l => exact ⟨_, rfl, h.stretchEnds l s hs⟩
  | initIntervalEnd => exact ⟨_, rfl, h.initEnds s hs⟩
  | softstartIntervalEnd => exact ⟨_, rfl, h.softstartEnds s hs⟩
  | standbyDelayExpiry => exact ⟨_, rfl, h.standbyExpires s hs⟩
  | activeDurationTimerEnd => exact ⟨_, rfl, h.activeTimerEnds s hs⟩
  | recoveryIntervalEnd => exact ⟨_, rfl, h.recoveryEnds s hs⟩
  | retryTimerEnd ch => exact ⟨_, rfl, h.retryEnds ch s hs⟩
  | cleanIntervalEnd ch => exact ⟨_, rfl, h.cleanEnds ch s hs⟩
  | leaseExpiry slot => exact ⟨_, rfl, h.leaseExpires slot s hs⟩
  | clockHalfEnd k => exact ⟨_, rfl, h.clockHalfEnds k s hs⟩
  | fadeCompletion ch => exact ⟨_, rfl, h.fadeCompletes ch s hs⟩
  | rampUpdate n => exact ⟨_, rfl, h.rampUpdates n s hs⟩
  | stepCompletion n => exact ⟨_, rfl, h.stepCompletes n s hs⟩
  | lampTestExpiry => exact ⟨_, rfl, h.lampTestExpires s hs⟩
  | outputLevelRisesAbove0 ch => exact ⟨_, rfl, h.outputRises ch s hs⟩
  | writeFrameDiscarded p address bytes => exact ⟨_, rfl, h.writeFrameTaken p address bytes s hs⟩
  | registerWrite p offset v => exact ⟨_, rfl, h.goodWrite p offset v s hs⟩
  | portStatusRead p => exact ⟨_, rfl, h.readFrame p 0x0B s hs⟩
  | acceptedRead p => exact ⟨_, rfl, h.readFrame p 0x13 s hs⟩
  | refusedRead p => exact ⟨_, rfl, h.readFrame p 0x14 s hs⟩
  | maskSet p v => exact ⟨_, rfl, h.portWrite p _ s (fun _ => List.suffix_refl _) hs⟩
  | maskClear p v => exact ⟨_, rfl, h.portWrite p _ s (fun _ => List.suffix_refl _) hs⟩
  | noticePop p => exact ⟨_, rfl, h.portWrite p _ s (fun _ => List.tail_suffix _) hs⟩
  | claim p => exact ⟨_, rfl, h.commandAt 0x20 p s hs⟩
  | modify p => exact ⟨_, rfl, h.commandAt 0x21 p s hs⟩
  | withdraw p => exact ⟨_, rfl, h.commandAt 0x22 p s hs⟩
  | withdrawAll p => exact ⟨_, rfl, h.commandAt 0x23 p s hs⟩
  | renew p => exact ⟨_, rfl, h.commandAt 0x24 p s hs⟩
  | channelPolicy p => exact ⟨_, rfl, h.commandAt 0x25 p s hs⟩
  | scenePut p => exact ⟨_, rfl, h.commandAt 0x26 p s hs⟩
  | sceneDrop p => exact ⟨_, rfl, h.commandAt 0x27 p s hs⟩
  | sceneErase p => exact ⟨_, rfl, h.commandAt 0x28 p s hs⟩
  | sceneInvoke p => exact ⟨_, rfl, h.commandAt 0x29 p s hs⟩
  | playerAcquire p => exact ⟨_, rfl, h.commandAt 0x2A p s hs⟩
  | playerEnd p => exact ⟨_, rfl, h.commandAt 0x2B p s hs⟩
  | playerAbort p => exact ⟨_, rfl, h.commandAt 0x2C p s hs⟩
  | playerRelease p => exact ⟨_, rfl, h.commandAt 0x2D p s hs⟩
  | playerPush p => exact ⟨_, rfl, h.commandAt 0x2E p s hs⟩
  | playerStart p => exact ⟨_, rfl, h.commandAt 0x2F p s hs⟩
  | lineConfig p => exact ⟨_, rfl, h.commandAt 0x30 p s hs⟩
  | lineBind p => exact ⟨_, rfl, h.commandAt 0x31 p s hs⟩
  | lineUnbind p => exact ⟨_, rfl, h.commandAt 0x32 p s hs⟩
  | channelFade p => exact ⟨_, rfl, h.commandAt 0x33 p s hs⟩
  | clockConfig p => exact ⟨_, rfl, h.commandAt 0x34 p s hs⟩
  | derateConfig p => exact ⟨_, rfl, h.commandAt 0x35 p s hs⟩
  | lampTest p => exact ⟨_, rfl, h.commandAt 0x36 p s hs⟩
  | latchClear p => exact ⟨_, rfl, h.commandAt 0x37 p s hs⟩
  | channelEnable p => exact ⟨_, rfl, h.commandAt 0x38 p s hs⟩
  | channelRearmMode p => exact ⟨_, rfl, h.commandAt 0x39 p s hs⟩
  | faultRearm p => exact ⟨_, rfl, h.commandAt 0x3A p s hs⟩
  | watchSet p => exact ⟨_, rfl, h.commandAt 0x3B p s hs⟩
  | watchDrop p => exact ⟨_, rfl, h.commandAt 0x3C p s hs⟩
  | privSet p => exact ⟨_, rfl, h.commandAt 0x3D p s hs⟩
  | maintHandover p => exact ⟨_, rfl, h.commandAt 0x3E p s hs⟩
  | portReset p => exact ⟨_, rfl, h.commandAt 0x3F p s hs⟩
  | portClear p => exact ⟨_, rfl, h.commandAt 0x40 p s hs⟩

theorem exec_next (h : KeptByTakings P) {i : Instr} {s t : State} (hrun : Machine.exec i s = .next t) (hs : P s) : P t := by
  obtain ⟨u, hu, hp⟩ := h.exec i s hs
  obtain rfl : u = t := Host.Outcome.next.inj (hu.symm.trans hrun)
  exact hp

/-- A step is a command, taken from the queue or due, or time passing (logs 2 and 3). -/
theorem step (h : KeptByTakings P) {s t : State} (hs : P s) (hstep : step s = .next t) : P t := by
  unfold Machine.step at hstep
  split at hstep
  · exact h.exec_next hstep (h.waits _ s hs)
  · unfold tick at hstep
    split at hstep
    · obtain rfl := Host.Outcome.next.inj hstep
      exact h.passes s hs
    · exact h.exec_next hstep hs
    · exact h.exec_next hstep (h.drawn _ s hs)

end KeptByTakings

end Sys2Proof.Machine

namespace Sys2Proof.Machine

/-! ## The modulator along a step (R126, R131) -/

/-! ### Writes beside the modulator and within it -/

/-- A taking that writes neither the resolver, the modulator nor the output stage. -/
theorem ModulatorInv.beside {s t : State} (hs : ModulatorInv s) (h1 : t.resolver = s.resolver)
    (h2 : t.modulator = s.modulator) (h3 : t.output = s.output) (h4 : t.outs = s.outs) : ModulatorInv t :=
  hs.congr h1 h2 (congrArg OutputStage.stage h3) (fun ch => by simp only [State.out, h4])
    fun ch => by simp only [State.out, h4]

/-- An update of the output stage that stays in its stage. -/
theorem modOutput_modulator_inv {f : OutputStage → OutputStage} {s : State} (hf : (f s.output).stage = s.output.stage)
    (hs : ModulatorInv s) : ModulatorInv (s.modOutput f) := hs.congr rfl rfl hf (fun _ => rfl) fun _ => rfl

/-- An update of a channel of the output stage that leaves its enable and its fault state. -/
theorem modOut_modulator_inv {ch : Channel} {f : OutChannel → OutChannel} {s : State}
    (henabled : (f (s.out ch)).enabled = (s.out ch).enabled) (hfault : (f (s.out ch)).fault = (s.out ch).fault)
    (hs : ModulatorInv s) : ModulatorInv (s.modOut ch f) := by
  refine hs.congr rfl rfl rfl (fun i => ?_) fun i => ?_ <;> rw [State.out_modOut] <;> split
  case refine_1.isTrue h => rw [h, henabled]
  case refine_2.isTrue h => rw [h, hfault]
  case refine_1.isFalse => rfl
  case refine_2.isFalse => rfl

/-- An update of a channel of the modulator that keeps target and pattern, and is PARKED as before. -/
theorem modChan_modulator_inv {ch : Channel} {f : ModChannel → ModChannel} {s : State}
    (htarget : (f (s.chan ch)).target = (s.chan ch).target) (hpattern : (f (s.chan ch)).pattern = (s.chan ch).pattern)
    (hparked : (f (s.chan ch)).fade = .parked ↔ (s.chan ch).fade = .parked) (hs : ModulatorInv s) :
    ModulatorInv (s.modChan ch f) := by
  refine ⟨fun i => ?_, fun i => ?_, fun i => ?_⟩ <;> rw [State.chan_modChan] <;> split
  case refine_1.isTrue h => rw [htarget, h]; exact hs.target ch
  case refine_2.isTrue h => rw [hpattern, h]; exact hs.pattern ch
  case refine_3.isTrue h => rw [hparked, h]; exact hs.parked ch
  case refine_1.isFalse => exact hs.target i
  case refine_2.isFalse => exact hs.pattern i
  case refine_3.isFalse => exact hs.parked i

/-- A taking that writes the claim lists and the settings of the resolver, and no outcome. -/
theorem ModulatorInv.of_outcomes {s t : State} (hs : ModulatorInv s)
    (h1 : ∀ ch, (t.entry ch).target = (s.entry ch).target) (h2 : ∀ ch, (t.entry ch).pattern = (s.entry ch).pattern)
    (h3 : t.modulator = s.modulator) (h4 : t.output = s.output) (h5 : t.outs = s.outs) : ModulatorInv t := by
  have hm : ModulatorInv { t with resolver := s.resolver } := hs.beside rfl h3 h4 h5
  exact ⟨fun ch => (hm.target ch).trans (h1 ch).symm, fun ch => (hm.pattern ch).trans (h2 ch).symm, hm.parked⟩

theorem fireWatches_modulator_inv (k : WatchKind) (i : Nat) (n : Notice) (s : State) (hs : ModulatorInv s) :
    ModulatorInv (fireWatches k i n s) := hs.beside (by simp) (by simp) (by simp) (by simp)

theorem faultEvent_modulator_inv (ch : Channel) (d : FaultDetail) (s : State) (hs : ModulatorInv s) :
    ModulatorInv (faultEvent ch d s) := fireWatches_modulator_inv _ _ _ s hs

/-! ### Commands of the claim pool -/

theorem placeForPort_modulator_inv (p : Port) (bad : Option ResultCode) (c : Claim) (s : State) (hs : ModulatorInv s) :
    ModulatorInv (placeForPort p bad c s).1 := by
  unfold placeForPort
  split
  · exact hs
  · exact settle_modulator_inv _ _ (place_modulator_inv _ _ _ hs)

/-- A fade handed toward the present target keeps the modulator with the resolver (R47). -/
theorem handFade_modulator_inv (h : Handle) (c : Claim) (s : State) (hs : ModulatorInv s) :
    ModulatorInv (handFade h c s) :=
  forEach_preserves ModulatorInv _ _ (fun ch u hu => by
    split
    · have hr := redirect_target (u.entry ch).target (u.entry ch).pattern (fadeTime c.fade) u.now (u.chan ch)
      exact modChan_modulator_inv (hr.1.trans (hu.target ch).symm) (hr.2.trans (hu.pattern ch).symm)
        (redirect_parked ..) hu
    · exact hu) s hs

theorem modified_modulator_inv (p : Port) (h : Handle) (c : Claim) (s : State) (hs : ModulatorInv s) :
    ModulatorInv (modified p h c s) :=
  hs.of_outcomes (fun ch => (modified_outcome p h c s ch).2.1) (fun ch => (modified_outcome p h c s ch).2.2)
    (modified_modulator p h c s) (modified_output p h c s)
    (modified_keeps (fun u => u.outs) (fun _ _ _ => rfl) (fun _ _ _ => by simp) p h c s)

theorem modifyBody_modulator_inv (p : Port) (s : State) (hs : ModulatorInv s) : ModulatorInv (modifyBody p s).1 := by
  have happlied : ∀ h c, ModulatorInv (applyModify p h c s) := fun h c => by
    have hm := modified_modulator_inv p h c s hs
    obtain ⟨faded, hrun⟩ | hrun | hrun := applyModify_cases p h c s
    · rw [hrun]; exact settle_modulator_inv _ _ (resolveSet_modulator_inv _ _ _ _ hm)
    · rw [hrun]; exact settle_modulator_inv _ _ (handFade_modulator_inv _ _ _ hm)
    · rw [hrun]; exact hm
  unfold modifyBody
  split
  · exact hs
  · split
    · exact hs
    · split_ifs
      · exact hs
      · exact hs
      · exact hs
      · exact happlied _ _

/-- The freeings of a taking, to its end. -/
theorem freed_modulator_inv (x : FreeCause) (l : List Slot) (c : Cause) (s : State) (hs : ModulatorInv s) :
    ModulatorInv (settle c (freeRecords x true l s)) :=
  settle_modulator_inv _ _ (freeRecords_modulator_inv _ _ _ _ hs)

theorem withdrawBody_modulator_inv (p : Port) (s : State) (hs : ModulatorInv s) : ModulatorInv (withdrawBody p s).1 := by
  unfold withdrawBody
  split
  · exact hs
  · split
    · exact hs
    · split
      · exact hs
      · exact freed_modulator_inv _ _ _ _ hs

theorem withdrawAllBody_modulator_inv (p : Port) (s : State) (hs : ModulatorInv s) :
    ModulatorInv (withdrawAllBody p s).1 := by
  unfold withdrawAllBody
  split
  · exact hs
  · exact freed_modulator_inv _ _ _ _ hs

theorem leaseExpires_modulator_inv (slot : Slot) (s : State) (hs : ModulatorInv s) : ModulatorInv (leaseExpires slot s) := by
  unfold leaseExpires
  split
  · exact freed_modulator_inv _ _ _ _ hs
  · exact hs

theorem renewBody_modulator_inv (p : Port) (s : State) (hs : ModulatorInv s) : ModulatorInv (renewBody p s).1 :=
  forEach_preserves ModulatorInv (ownLeased p s) (fun slot u => u.modRecord slot (restartLease u.now))
    (fun _ _ hu => hu.beside rfl rfl rfl rfl) s hs

theorem channelPolicyBody_modulator_inv (p : Port) (s : State) (hs : ModulatorInv s) :
    ModulatorInv (channelPolicyBody p s).1 := by
  have hstored : ∀ cs policy idle, ModulatorInv (policyStored cs policy idle s) := fun cs policy idle => by
    have hframe := policyStored_frame cs policy idle s
    refine hs.of_outcomes (fun ch => ?_) (fun ch => ?_) (by rw [hframe]) (by rw [hframe]) (by rw [hframe])
    · rw [policyStored_entry]; split <;> rfl
    · rw [policyStored_entry]; split <;> rfl
  unfold channelPolicyBody
  split
  · split
    · exact hs
    · exact settle_modulator_inv _ _ (resolveSet_modulator_inv _ _ _ _ (hstored _ _ _))
  · exact hs

theorem editScene_modulator_inv (n : SceneNo) (levels : Vector (Option Level) 16) (s : State) (hs : ModulatorInv s) :
    ModulatorInv (editScene n levels s).1 := by
  unfold editScene
  split
  · exact hs
  · exact hs.beside rfl rfl rfl rfl

theorem scenePutBody_modulator_inv (p : Port) (s : State) (hs : ModulatorInv s) : ModulatorInv (scenePutBody p s).1 := by
  unfold scenePutBody
  split
  · exact editScene_modulator_inv _ _ _ hs
  · exact hs

theorem sceneDropBody_modulator_inv (p : Port) (s : State) (hs : ModulatorInv s) : ModulatorInv (sceneDropBody p s).1 := by
  unfold sceneDropBody
  split
  · split_ifs
    · exact hs
    · exact hs
    · exact editScene_modulator_inv _ _ _ hs
  · exact hs

theorem sceneEraseBody_modulator_inv (p : Port) (s : State) (hs : ModulatorInv s) :
    ModulatorInv (sceneEraseBody p s).1 := by
  unfold sceneEraseBody
  split
  · exact editScene_modulator_inv _ _ _ hs
  · exact hs

/-! ### Players -/

theorem modPlayer_modulator_inv (n : PlayerNo) (f : Player → Player) (s : State) (hs : ModulatorInv s) :
    ModulatorInv (s.modPlayer n f) := hs.beside rfl rfl rfl rfl

theorem playerNotice_modulator_inv (n : PlayerNo) (d : PlayerDetail) (s : State) (hs : ModulatorInv s) :
    ModulatorInv (playerNotice n d s) := by
  rw [playerNotice_frame]
  exact hs.beside rfl rfl rfl rfl

theorem beginStep_modulator_inv (n : PlayerNo) (s : State) (hs : ModulatorInv s) : ModulatorInv (beginStep n s) := by
  have hbegun := modPlayer_modulator_inv n (Player.begin s.now) s hs
  unfold beginStep
  dsimp only
  split
  · exact playerNotice_modulator_inv _ _ _ hbegun
  · exact hbegun

theorem finishPlayer_modulator_inv (n : PlayerNo) (s : State) (hs : ModulatorInv s) : ModulatorInv (finishPlayer n s) := by
  unfold finishPlayer
  split
  · exact playerNotice_modulator_inv _ _ _ (modPlayer_modulator_inv _ _ _ hs)
  · split
    · exact freeRecords_modulator_inv _ _ _ _ hs
    · exact modPlayer_modulator_inv _ _ _ hs

theorem runSteps_modulator_inv (fuel : Nat) (n : PlayerNo) (s : State) (hs : ModulatorInv s) :
    ModulatorInv (runSteps fuel n s) := by
  induction fuel generalizing s with
  | zero => exact hs
  | succ fuel ih =>
    have hbegun := beginStep_modulator_inv n s hs
    unfold runSteps
    split
    · split
      · exact finishPlayer_modulator_inv _ _ hs
      · exact playerNotice_modulator_inv _ _ _ (modPlayer_modulator_inv _ _ _ hs)
    · dsimp only
      split
      · exact ih _ hbegun
      · exact hbegun

theorem runQueue_modulator_inv (n : PlayerNo) (s : State) (hs : ModulatorInv s) : ModulatorInv (runQueue n s) :=
  runSteps_modulator_inv _ _ _ hs

theorem handPlayerLevel_modulator_inv (e : Bool) (n : PlayerNo) (s : State) (hs : ModulatorInv s) :
    ModulatorInv (handPlayerLevel e n s) := by
  unfold handPlayerLevel
  split
  · exact hs
  · exact resolveSet_modulator_inv _ _ _ _ (modPlayer_modulator_inv _ _ _ hs)

theorem rampUpdates_modulator_inv (n : PlayerNo) (s : State) (hs : ModulatorInv s) : ModulatorInv (rampUpdates n s) := by
  unfold rampUpdates
  split
  · exact settle_modulator_inv _ _ (handPlayerLevel_modulator_inv _ _ _ (modPlayer_modulator_inv _ _ _ hs))
  · exact hs

theorem stepCompletes_modulator_inv (n : PlayerNo) (s : State) (hs : ModulatorInv s) :
    ModulatorInv (stepCompletes n s) := by
  unfold stepCompletes
  split
  · exact settle_modulator_inv _ _ (handPlayerLevel_modulator_inv _ _ _ (runQueue_modulator_inv _ _ hs))
  · exact hs

theorem onHeldPlayer_modulator_inv {p : Port} {body : PlayerNo → State → State × Result} {s : State}
    (hbody : ∀ n, ModulatorInv (body n s).1) (hs : ModulatorInv s) : ModulatorInv (onHeldPlayer p body s).1 := by
  unfold onHeldPlayer
  split
  · exact hs
  · split_ifs
    · exact hs
    · exact hs
    · exact hbody _

theorem playerAcquireBody_modulator_inv (p : Port) (s : State) (hs : ModulatorInv s) :
    ModulatorInv (playerAcquireBody p s).1 := by
  unfold playerAcquireBody
  split
  · exact hs
  · split_ifs
    · exact modPlayer_modulator_inv _ _ _ hs
    · exact hs
    · exact hs

theorem pushStep_modulator_inv (n : PlayerNo) (st : PlayerStep) (s : State) (hs : ModulatorInv s) :
    ModulatorInv (pushStep n st s) := by
  have hqueued := modPlayer_modulator_inv n (fun x => { x with queue := x.queue ++ [st] }) s hs
  unfold pushStep
  dsimp only
  split
  · exact settle_modulator_inv _ _ (handPlayerLevel_modulator_inv _ _ _
      (runQueue_modulator_inv _ _ (modPlayer_modulator_inv _ _ _ hqueued)))
  · exact hqueued

theorem playerPushBody_modulator_inv (p : Port) (s : State) (hs : ModulatorInv s) :
    ModulatorInv (playerPushBody p s).1 :=
  onHeldPlayer_modulator_inv (fun n => by
    dsimp only
    split
    · exact hs
    · split_ifs
      · exact hs
      · exact hs
      · exact pushStep_modulator_inv _ _ _ hs) hs

theorem endStream_modulator_inv (n : PlayerNo) (s : State) (hs : ModulatorInv s) : ModulatorInv (endStream n s) := by
  have hcomplete := modPlayer_modulator_inv n (fun x => { x with streamComplete := true }) s hs
  unfold endStream
  dsimp only
  split_ifs
  · exact hs
  · exact settle_modulator_inv _ _ (finishPlayer_modulator_inv _ _ hcomplete)
  · exact hcomplete

theorem playerEndBody_modulator_inv (p : Port) (s : State) (hs : ModulatorInv s) : ModulatorInv (playerEndBody p s).1 :=
  onHeldPlayer_modulator_inv (fun n => by
    dsimp only
    split
    · exact hs
    · exact endStream_modulator_inv _ _ hs) hs

theorem winnerEvents_modulator_inv (cs : ChannelSet) (before s : State) (hs : ModulatorInv s) :
    ModulatorInv (winnerEvents cs before s) := hs.beside (by simp) (by simp) (by simp) (by simp)

theorem playerStartBody_modulator_inv (p : Port) (s : State) (hs : ModulatorInv s) :
    ModulatorInv (playerStartBody p s).1 := by
  have hrun : ∀ n start cs before seated placed, ModulatorInv seated → ModulatorInv placed →
      ModulatorInv (runStart n start cs before seated placed) := fun n start cs before seated placed h1 h2 => by
    unfold runStart
    dsimp only
    split
    · exact runQueue_modulator_inv _ _ (modPlayer_modulator_inv _ _ _ h1)
    · exact winnerEvents_modulator_inv _ _ _ (handPlayerLevel_modulator_inv _ _ _
        (runQueue_modulator_inv _ _ (modPlayer_modulator_inv _ _ _ h2)))
  unfold playerStartBody
  dsimp only
  split
  · exact hs
  · have hseated := fun n slot c => seat_modulator_inv slot c _
      (modPlayer_modulator_inv n (fun x => { x with level := 0, lastHanded := 0 }) s hs)
    exact settle_modulator_inv _ _ (hrun _ _ _ _ _ _ (hseated _ _ _) (resolveSet_modulator_inv _ _ _ _ (hseated _ _ _)))

theorem abortPlayer_modulator_inv (x : FreeCause) (n : PlayerNo) (s : State) (hs : ModulatorInv s) :
    ModulatorInv (abortPlayer x n s) := by
  unfold abortPlayer
  dsimp only
  split
  · exact modPlayer_modulator_inv _ _ _ (freeRecords_modulator_inv _ _ _ _ hs)
  · exact modPlayer_modulator_inv _ _ _ hs

theorem playerAbortBody_modulator_inv (p : Port) (s : State) (hs : ModulatorInv s) :
    ModulatorInv (playerAbortBody p s).1 :=
  onHeldPlayer_modulator_inv (fun _ => settle_modulator_inv _ _ (abortPlayer_modulator_inv _ _ _ hs)) hs

theorem playerReleaseBody_modulator_inv (p : Port) (s : State) (hs : ModulatorInv s) :
    ModulatorInv (playerReleaseBody p s).1 :=
  onHeldPlayer_modulator_inv
    (fun _ => settle_modulator_inv _ _ (modPlayer_modulator_inv _ _ _ (abortPlayer_modulator_inv _ _ _ hs))) hs

/-! ### Lines -/

theorem modLine_modulator_inv (l : Line) (f : LineState → LineState) (s : State) (hs : ModulatorInv s) :
    ModulatorInv (s.modLine l f) := hs.beside rfl rfl rfl rfl

/-- The record of a line follows its activity in the pool and the lists, and resolution follows (R31, R33, R120). -/
theorem followActivity_modulator_inv (l : Line) (active : Bool) (s : State) (hs : ModulatorInv s) :
    ModulatorInv (followActivity l active s) := by
  have hturned : ∀ h c, ModulatorInv (turned h c active s) := fun h c => by
    refine hs.of_outcomes (fun ch => ?_) (fun ch => ?_)
      (turned_keeps h c active s State.modulator (fun _ _ _ => rfl) (reinsert_modulator h c))
      (turned_keeps h c active s State.output (fun _ _ _ => rfl) (reinsert_output h c))
      (turned_keeps h c active s State.outs (fun _ _ _ => rfl) (reinsert_outs h c))
    · rw [turned_entry]; split <;> rfl
    · rw [turned_entry]; split <;> rfl
  cases hclaim : (s.line l).claim with
  | none => rw [followActivity_unbound (by simp [hclaim])]; exact hs
  | some h =>
    cases hc : claimAt s h with
    | none => simpa [followActivity, hclaim, hc] using hs
    | some c =>
      rw [followActivity_bound hclaim hc]
      exact resolveSet_modulator_inv _ _ _ _ (hturned h c)

theorem activityTaken_modulator_inv (l : Line) (active : Bool) (s : State) (hs : ModulatorInv s) :
    ModulatorInv (activityTaken l active s) :=
  settle_modulator_inv _ _ (followActivity_modulator_inv _ _ _ (fireWatches_modulator_inv _ _ _ _ hs))

theorem activityPulse_modulator_inv (l : Line) (s : State) (hs : ModulatorInv s) : ModulatorInv (activityPulse l s) := by
  have hstretched := modLine_modulator_inv l (fun x => { x with activity := .stretch }) s hs
  have hstarted := activityTaken_modulator_inv l true _ hstretched
  unfold activityPulse
  simp only [activityStart_eq, activityEnd_eq]
  exact activityTaken_modulator_inv l false _ (modLine_modulator_inv l _ _ hstarted)

theorem handActivity_modulator_inv (l : Line) (e : ActivityEvent) (s : State) (hs : ModulatorInv s) :
    ModulatorInv (handActivity l e s) := by
  cases e with
  | none => exact hs
  | start => exact activityTaken_modulator_inv l true s hs
  | stop => exact activityTaken_modulator_inv l false s hs
  | pulse => exact activityPulse_modulator_inv l s hs

theorem qualify_modulator_inv (l : Line) (s : State) (hs : ModulatorInv s) : ModulatorInv (qualify l s) :=
  handActivity_modulator_inv _ _ _ (modLine_modulator_inv _ _ _ hs)

theorem inputChanges_modulator_inv (l : Line) (s : State) (hs : ModulatorInv s) : ModulatorInv (inputChanges l s) := by
  have hraw := modLine_modulator_inv l (fun x => { x with raw := !x.raw }) s hs
  unfold inputChanges
  dsimp only
  split_ifs
  · exact hraw
  · exact qualify_modulator_inv _ _ hraw
  · exact modLine_modulator_inv _ _ _ hraw

theorem filterEnds_modulator_inv (l : Line) (s : State) (hs : ModulatorInv s) : ModulatorInv (filterEnds l s) := by
  unfold filterEnds
  split
  · exact qualify_modulator_inv _ _ hs
  · exact hs

theorem stretchEnds_modulator_inv (l : Line) (s : State) (hs : ModulatorInv s) : ModulatorInv (stretchEnds l s) := by
  unfold stretchEnds
  split
  · exact activityTaken_modulator_inv l false _ (modLine_modulator_inv _ _ _ hs)
  · exact hs

theorem lineConfigBody_modulator_inv (p : Port) (s : State) (hs : ModulatorInv s) :
    ModulatorInv (lineConfigBody p s).1 := by
  unfold lineConfigBody
  split
  · exact handActivity_modulator_inv _ _ _ (modLine_modulator_inv _ _ _ hs)
  · exact hs

theorem placeLine_modulator_inv (l : Line) (t : Template) (slot : Slot) (s : State) (hs : ModulatorInv s) :
    ModulatorInv (placeLine l t slot s) := modLine_modulator_inv _ _ _ (place_modulator_inv _ _ _ hs)

theorem lineBindBody_modulator_inv (p : Port) (s : State) (hs : ModulatorInv s) : ModulatorInv (lineBindBody p s).1 := by
  unfold lineBindBody
  split
  · exact hs
  · split
    · exact hs
    · split
      · exact hs
      · split
        · exact hs
        · exact settle_modulator_inv _ _ (placeLine_modulator_inv _ _ _ _ hs)

theorem lineUnbindBody_modulator_inv (p : Port) (s : State) (hs : ModulatorInv s) :
    ModulatorInv (lineUnbindBody p s).1 := by
  have hunbound : ∀ l, ModulatorInv (unbindLine l s) := fun l => by
    unfold unbindLine
    dsimp only
    split
    · exact modLine_modulator_inv _ _ _ (freeRecords_modulator_inv _ _ _ _ hs)
    · exact modLine_modulator_inv _ _ _ hs
  unfold lineUnbindBody
  split
  · exact hs
  · split
    · exact hs
    · exact settle_modulator_inv _ _ (hunbound _)

/-! ### The modulator's settings and timed events -/

theorem channelFadeBody_modulator_inv (p : Port) (s : State) (hs : ModulatorInv s) :
    ModulatorInv (channelFadeBody p s).1 := by
  unfold channelFadeBody
  split
  · split
    · exact hs
    · exact forEach_preserves ModulatorInv _ _ (fun _ _ hu => modChan_modulator_inv rfl rfl Iff.rfl hu) s hs
  · exact hs

theorem clockConfigBody_modulator_inv (p : Port) (s : State) (hs : ModulatorInv s) :
    ModulatorInv (clockConfigBody p s).1 := by
  unfold clockConfigBody
  split
  · exact cleanChannels_modulator_inv _ (hs.beside rfl rfl rfl rfl)
  · exact hs

theorem derateConfigBody_modulator_inv (p : Port) (s : State) (hs : ModulatorInv s) :
    ModulatorInv (derateConfigBody p s).1 := by
  unfold derateConfigBody
  split
  · exact cleanChannels_modulator_inv _ (hs.beside rfl rfl rfl rfl)
  · exact hs

/-- A fade that ends was a fade: its channel was not PARKED (R127). -/
theorem fadeCompletes_modulator_inv (ch : Channel) (s : State) (hs : ModulatorInv s) :
    ModulatorInv (fadeCompletes ch s) := by
  unfold fadeCompletes
  split
  · next hdue =>
    have hopen : (s.chan ch).fade ≠ .parked := fun h => by simp [fadeEnd?, h, dueAt] at hdue
    exact cleanChannels_modulator_inv _ (modChan_modulator_inv rfl rfl (iff_of_false (by simp) hopen) hs)
  · exact hs

theorem clockHalfEnds_modulator_inv (k : ClockNo) (s : State) (hs : ModulatorInv s) : ModulatorInv (clockHalfEnds k s) := by
  unfold clockHalfEnds
  split
  · exact cleanChannels_modulator_inv _ (hs.beside rfl rfl rfl rfl)
  · exact hs

theorem beginFade_ne_parked (origin target : Level) (d : Nat) (shape : Shape) (now : Instant) :
    beginFade origin target d shape now ≠ .parked := by
  unfold beginFade
  split_ifs <;> simp

/-- An end fade begins on open channels alone, which are not PARKED (R146). -/
theorem endFade_modulator_inv (ch : Channel) (s : State) (hs : ModulatorInv s) :
    ModulatorInv (s.modChan ch (endFade (isOpen s ch) s.now)) := by
  cases hopen : isOpen s ch with
  | false => exact modChan_modulator_inv rfl rfl Iff.rfl hs
  | true =>
    have hlit : (s.chan ch).fade ≠ .parked := fun h => by simp [(hs.parked ch).mp h] at hopen
    have hbegun := beginFade_ne_parked testLevel (s.chan ch).target (fadeTime (s.chan ch).defaultIndex)
      (s.chan ch).defaultShape s.now
    exact modChan_modulator_inv rfl rfl (iff_of_false hbegun hlit) hs

theorem lampTestExpires_modulator_inv (s : State) (hs : ModulatorInv s) : ModulatorInv (lampTestExpires s) := by
  unfold lampTestExpires
  split
  · exact settle_modulator_inv _ _
      (forEach_preserves ModulatorInv _ _ endFade_modulator_inv _ (hs.beside rfl rfl rfl rfl))
  · exact hs

theorem lampTestBody_modulator_inv (p : Port) (s : State) (hs : ModulatorInv s) : ModulatorInv (lampTestBody p s).1 := by
  unfold lampTestBody
  split
  · exact hs
  · split
    · exact hs
    · exact settle_modulator_inv _ _ (hs.beside rfl rfl rfl rfl)

/-! ### The output stage -/

/-- A stage entered, and the end of the taking. -/
theorem entered_modulator_inv (st : StageName) (c d : Cause) (s : State) (hs : ModulatorInv s) :
    ModulatorInv (settle d (enterStage st c s)) :=
  settle_modulator_inv _ _ (enterStage_modulator_inv _ _ _ hs)

theorem rearmChannel_modulator_inv (ch : Channel) (s : State) (hs : ModulatorInv s) : ModulatorInv (rearmChannel ch s) := by
  have hready := syncChannel_modulator_inv ch rearm s hs
  unfold rearmChannel
  dsimp only
  split
  · exact faultEvent_modulator_inv _ _ _ hready
  · exact hready

theorem latchClearBody_modulator_inv (s : State) (hs : ModulatorInv s) : ModulatorInv (latchClearBody s).1 := by
  have hrearmed := forEach_preserves ModulatorInv (indexes 16) rearmChannel rearmChannel_modulator_inv s hs
  have hcounted := modOutput_modulator_inv (f := fun o => { o with recovery := 0 }) rfl hrearmed
  unfold latchClearBody
  split
  · exact entered_modulator_inv .standby .latchClear .demand _ hcounted
  · exact hs

theorem channelEnableBody_modulator_inv (p : Port) (s : State) (hs : ModulatorInv s) :
    ModulatorInv (channelEnableBody p s).1 := by
  unfold channelEnableBody
  split
  · split
    · exact hs
    · exact settle_modulator_inv _ _
        (forEach_preserves ModulatorInv _ _ (fun ch u hu => syncChannel_modulator_inv ch _ u hu) s hs)
  · exact hs

theorem channelRearmModeBody_modulator_inv (p : Port) (s : State) (hs : ModulatorInv s) :
    ModulatorInv (channelRearmModeBody p s).1 := by
  unfold channelRearmModeBody
  split
  · split
    · exact hs
    · exact forEach_preserves ModulatorInv _ _ (fun _ _ hu => modOut_modulator_inv rfl rfl hu) s hs
  · exact hs

theorem faultRearmBody_modulator_inv (p : Port) (s : State) (hs : ModulatorInv s) :
    ModulatorInv (faultRearmBody p s).1 := by
  unfold faultRearmBody
  split
  · exact hs
  · exact settle_modulator_inv _ _ (forEach_preserves ModulatorInv _ _ rearmChannel_modulator_inv s hs)

theorem assertHold_modulator_inv (s : State) (hs : ModulatorInv s) : ModulatorInv (assertHold s) := by
  have hheld : ModulatorInv ((s.modOutput fun o => { o with hold := true }).setLampTest none) :=
    hs.congr rfl rfl rfl (fun _ => rfl) fun _ => rfl
  unfold assertHold
  dsimp only
  split
  · exact entered_modulator_inv _ _ _ _ hheld
  · exact settle_modulator_inv _ _ hheld

theorem releaseHold_modulator_inv (s : State) (hs : ModulatorInv s) : ModulatorInv (releaseHold s) :=
  settle_modulator_inv _ _ (modOutput_modulator_inv rfl hs)

theorem supplyOnset_modulator_inv (c : SupplyCondition) (s : State) (hs : ModulatorInv s) :
    ModulatorInv (supplyOnset c s) := by
  have hpresent : ModulatorInv (s.modOutput fun o => { o with supply := o.supply.put c true }) :=
    modOutput_modulator_inv rfl hs
  have hforced : ∀ cause u, ModulatorInv u → ModulatorInv (forceDown cause u) := fun cause u hu => by
    unfold forceDown
    dsimp only
    split <;> exact enterStage_modulator_inv _ _ _ (modOutput_modulator_inv rfl hu)
  unfold supplyOnset
  dsimp only
  split
  · exact hs
  · split
    · exact cleanChannels_modulator_inv _ hpresent
    · split
      · exact settle_modulator_inv _ _ (hforced _ _ hpresent)
      · exact hpresent

theorem supplyClearing_modulator_inv (c : SupplyCondition) (s : State) (hs : ModulatorInv s) :
    ModulatorInv (supplyClearing c s) := by
  have habsent : ModulatorInv (s.modOutput fun o => { o with supply := o.supply.put c false }) :=
    modOutput_modulator_inv rfl hs
  unfold supplyClearing
  dsimp only
  split
  · split
    · exact cleanChannels_modulator_inv _ habsent
    · exact settle_modulator_inv _ _ habsent
  · exact hs

theorem channelFault_modulator_inv (ch : Channel) (k : FaultKind) (s : State) (hs : ModulatorInv s) :
    ModulatorInv (channelFault ch k s) := by
  unfold channelFault faultTaken
  dsimp only
  split
  · have hfaulted := faultEvent_modulator_inv ch (.kind k) _
      (syncChannel_modulator_inv ch (takeFault k s.output.stage s.now) s hs)
    split
    · exact entered_modulator_inv _ _ _ _ hfaulted
    · exact settle_modulator_inv _ _ hfaulted
  · exact hs

theorem softstartEnds_modulator_inv (s : State) (hs : ModulatorInv s) : ModulatorInv (softstartEnds s) := by
  unfold softstartEnds
  split
  · exact entered_modulator_inv _ _ _ _ hs
  · exact hs

theorem standbyExpires_modulator_inv (s : State) (hs : ModulatorInv s) : ModulatorInv (standbyExpires s) := by
  unfold standbyExpires
  split
  · exact entered_modulator_inv _ _ _ _ hs
  · exact hs

theorem activeTimerEnds_modulator_inv (s : State) (hs : ModulatorInv s) : ModulatorInv (activeTimerEnds s) := by
  unfold activeTimerEnds
  split
  · exact modOutput_modulator_inv rfl hs
  · exact hs

theorem recoveryEnds_modulator_inv (s : State) (hs : ModulatorInv s) : ModulatorInv (recoveryEnds s) := by
  unfold recoveryEnds
  split_ifs
  · exact modOutput_modulator_inv rfl hs
  · exact entered_modulator_inv _ _ _ _ hs
  · exact hs

theorem retryEnds_modulator_inv (ch : Channel) (s : State) (hs : ModulatorInv s) : ModulatorInv (retryEnds ch s) := by
  unfold retryEnds
  split
  · exact settle_modulator_inv _ _ (faultEvent_modulator_inv _ _ _ (syncChannel_modulator_inv _ _ _ hs))
  · exact hs

theorem cleanEnds_modulator_inv (ch : Channel) (s : State) (hs : ModulatorInv s) : ModulatorInv (cleanEnds ch s) := by
  unfold cleanEnds
  split
  · exact modOut_modulator_inv rfl rfl hs
  · exact hs

/-! ### Watches, rights, port resets, ENABLE and power-on -/

theorem watchSetBody_modulator_inv (p : Port) (s : State) (hs : ModulatorInv s) : ModulatorInv (watchSetBody p s).1 := by
  unfold watchSetBody
  split
  · exact hs
  · split
    · exact hs
    · exact hs.beside rfl rfl rfl rfl

theorem watchDropBody_modulator_inv (p : Port) (s : State) (hs : ModulatorInv s) : ModulatorInv (watchDropBody p s).1 := by
  unfold watchDropBody
  split
  · exact hs
  · split
    · exact hs
    · split
      · exact hs
      · exact hs.beside rfl rfl rfl rfl

theorem privSetBody_modulator_inv (p : Port) (s : State) (hs : ModulatorInv s) : ModulatorInv (privSetBody p s).1 := by
  have happlied : ∀ q ceiling sceneEdit quota, ModulatorInv (applyPrivSet q ceiling sceneEdit quota s) :=
    fun q ceiling sceneEdit quota => by
      have htold : ModulatorInv (rightsTold q ceiling sceneEdit quota s) := by
        rw [rightsTold_frame]
        exact hs.beside rfl rfl rfl rfl
      rw [applyPrivSet_eq]
      split
      · exact htold
      · exact freed_modulator_inv _ _ _ _ htold
  unfold privSetBody
  split
  · split
    · exact hs
    · exact happlied _ _ _ _
  · exact hs

theorem maintHandoverBody_modulator_inv (p : Port) (s : State) (hs : ModulatorInv s) :
    ModulatorInv (maintHandoverBody p s).1 := by
  unfold maintHandoverBody
  split
  · exact hs
  · split
    · exact hs
    · exact hs.beside rfl rfl rfl rfl

theorem resetPort_modulator_inv (p : Port) (s : State) (hs : ModulatorInv s) : ModulatorInv (resetPort p s) := by
  have hnotices : ModulatorInv (resetNotices p s) := hs.beside rfl rfl rfl rfl
  have hfreed : ModulatorInv (portFreed p s) := freeRecords_modulator_inv _ _ _ _ hnotices
  rw [resetPort_steps, freePlayers_eq]
  generalize portFreed p s = u at hfreed ⊢
  exact hfreed.beside rfl rfl rfl rfl

theorem portClearBody_modulator_inv (p : Port) (s : State) (hs : ModulatorInv s) : ModulatorInv (portClearBody p s).1 := by
  unfold portClearBody
  split
  · exact hs
  · exact settle_modulator_inv _ _ ((resetPort_modulator_inv _ s hs).beside rfl rfl rfl rfl)

theorem enableHigh_modulator_inv (s : State) (hs : ModulatorInv s) : ModulatorInv (enableHigh s) := by
  unfold enableHigh
  split
  · exact enterStage_modulator_inv _ _ _ hs
  · exact hs

theorem enableLow_modulator_inv (s : State) (hs : ModulatorInv s) : ModulatorInv (enableLow s) := by
  by_cases hoff : s.output.stage = .off
  · simpa [enableLow, hoff] using hs
  · rw [enableLow_eq hoff]
    exact (freedOff_modulator_inv hs).beside rfl rfl rfl rfl

/-- The re-creations and the announcements of the end of INIT, one line after another (R124). -/
theorem linesUp_modulator_inv (s : State) (hs : ModulatorInv s) : ModulatorInv (linesUp s) := by
  have hstandby : ModulatorInv (standbyLines s) := by
    have hentered := enterStage_modulator_inv .standby .initEnd s hs
    unfold standbyLines
    generalize enterStage .standby .initEnd s = u at hentered ⊢
    exact hentered.beside rfl rfl rfl rfl
  have hrecreated := forEach_preserves ModulatorInv (indexes 8) recreateLine (fun l u hu => by
    unfold recreateLine
    split
    · exact hu
    · split
      · exact hu
      · exact placeLine_modulator_inv _ _ _ _ hu) _ hstandby
  exact forEach_preserves ModulatorInv (indexes 8) announceLine (fun l u hu => by
    unfold announceLine
    split
    · exact fireWatches_modulator_inv _ _ _ _ hu
    · exact hu) _ hrecreated

theorem initEnds_modulator_inv (s : State) (hs : ModulatorInv s) : ModulatorInv (initEnds s) := by
  by_cases hdue : dueAt s.output.initEnd s.now = true
  · have hup := linesUp_modulator_inv s hs
    rw [initEnds_eq hdue, initDone, startupTest_eq]
    generalize linesUp s = u at hup ⊢
    exact settle_modulator_inv _ _ (hup.beside rfl rfl rfl rfl)
  · simpa [initEnds, hdue] using hs

/-- After power-on every channel is PARKED and every target 0, STEADY (R126). -/
theorem powerOnState_modulator_inv (pins : PowerOnPins) (s : State) : ModulatorInv (powerOnState pins s) := by
  have hchan : ∀ ch, (powerOnState pins s).chan ch =
      { fade := .parked, target := 0, pattern := .steady, defaultIndex := 3, defaultShape := .linear } :=
    tget_replicate _
  refine ⟨fun ch => ?_, fun ch => ?_, fun ch => ?_⟩
  · rw [hchan, powerOnState_entry]
  · rw [hchan, powerOnState_entry]
  · rw [hchan]
    exact iff_of_true rfl rfl

theorem powerOn_modulator_inv (pins : PowerOnPins) (s : State) : ModulatorInv (powerOn pins s) := by
  unfold powerOn
  split
  · exact enableHigh_modulator_inv _ (powerOnState_modulator_inv pins s)
  · exact powerOnState_modulator_inv pins s

/-! ### The obligation -/

theorem modulatorInv_keptByTakings : KeptByTakings ModulatorInv where
  powerOn := fun pins s _ => powerOn_modulator_inv pins s
  enableLow := enableLow_modulator_inv
  enableHigh := enableHigh_modulator_inv
  assertHold := assertHold_modulator_inv
  releaseHold := releaseHold_modulator_inv
  supplyOnset := supplyOnset_modulator_inv
  supplyClearing := supplyClearing_modulator_inv
  channelFault := channelFault_modulator_inv
  inputChanges := inputChanges_modulator_inv
  filterEnds := filterEnds_modulator_inv
  stretchEnds := stretchEnds_modulator_inv
  initEnds := initEnds_modulator_inv
  softstartEnds := softstartEnds_modulator_inv
  standbyExpires := standbyExpires_modulator_inv
  activeTimerEnds := activeTimerEnds_modulator_inv
  recoveryEnds := recoveryEnds_modulator_inv
  retryEnds := retryEnds_modulator_inv
  cleanEnds := cleanEnds_modulator_inv
  leaseExpires := leaseExpires_modulator_inv
  clockHalfEnds := clockHalfEnds_modulator_inv
  fadeCompletes := fadeCompletes_modulator_inv
  rampUpdates := rampUpdates_modulator_inv
  stepCompletes := stepCompletes_modulator_inv
  lampTestExpires := lampTestExpires_modulator_inv
  outputRises := fun _ _ hs => modOut_modulator_inv rfl rfl hs
  claimBody := fun p s hs => placeForPort_modulator_inv p _ _ s hs
  modifyBody := modifyBody_modulator_inv
  withdrawBody := withdrawBody_modulator_inv
  withdrawAllBody := withdrawAllBody_modulator_inv
  renewBody := renewBody_modulator_inv
  channelPolicyBody := channelPolicyBody_modulator_inv
  scenePutBody := scenePutBody_modulator_inv
  sceneDropBody := sceneDropBody_modulator_inv
  sceneEraseBody := sceneEraseBody_modulator_inv
  sceneInvokeBody := fun p s hs => placeForPort_modulator_inv p _ _ s hs
  playerAcquireBody := playerAcquireBody_modulator_inv
  playerEndBody := playerEndBody_modulator_inv
  playerAbortBody := playerAbortBody_modulator_inv
  playerReleaseBody := playerReleaseBody_modulator_inv
  playerPushBody := playerPushBody_modulator_inv
  playerStartBody := playerStartBody_modulator_inv
  lineConfigBody := lineConfigBody_modulator_inv
  lineBindBody := lineBindBody_modulator_inv
  lineUnbindBody := lineUnbindBody_modulator_inv
  channelFadeBody := channelFadeBody_modulator_inv
  clockConfigBody := clockConfigBody_modulator_inv
  derateConfigBody := derateConfigBody_modulator_inv
  lampTestBody := lampTestBody_modulator_inv
  latchClearBody := latchClearBody_modulator_inv
  channelEnableBody := channelEnableBody_modulator_inv
  channelRearmModeBody := channelRearmModeBody_modulator_inv
  faultRearmBody := faultRearmBody_modulator_inv
  watchSetBody := watchSetBody_modulator_inv
  watchDropBody := watchDropBody_modulator_inv
  privSetBody := privSetBody_modulator_inv
  maintHandoverBody := maintHandoverBody_modulator_inv
  portResets := fun p s hs => settle_modulator_inv _ _ (resetPort_modulator_inv p s hs)
  portClearBody := portClearBody_modulator_inv
  portWrite := fun _ _ _ _ hs => hs.beside rfl rfl rfl rfl
  drawn := fun _ _ hs => hs.beside rfl rfl rfl rfl
  waits := fun _ _ hs => hs.beside rfl rfl rfl rfl
  passes := fun _ hs => hs.beside rfl rfl rfl rfl

/-- Settles O55: no taking parts the modulator from the resolver, nor PARKED from the closed channels. -/
theorem stepKeepsModulatorInvariant : Obligations.StepKeepsModulatorInvariant := fun _ _ hs hstep =>
  modulatorInv_keptByTakings.step hs hstep

end Sys2Proof.Machine

namespace Sys2Proof.Machine

/-! ## Output levels, gates and fade levels (R126–R128, R138, R141) -/

/-! ### The output level -/

theorem outputLevel_closed {s : State} {ch : Channel} (h : isOpen s ch = false) : outputLevel s ch = 0 := by
  simp [outputLevel, h]

theorem outputLevel_open {s : State} {ch : Channel} (h : isOpen s ch = true) :
    outputLevel s ch = if s.output.supply.overtempWarn then min (testedLevel s ch) s.derateCeiling else testedLevel s ch :=
  if_pos h

theorem isOpen_iff {s : State} {ch : Channel} :
    isOpen s ch = true ↔ s.output.stage = .active ∧ (s.out ch).enabled = true ∧ (s.out ch).fault = .ready := by
  simp [isOpen, and_assoc]

theorem testedLevel_eq (s : State) (ch : Channel) : testedLevel s ch =
    if s.lampTest = none then (if gateLit s ch then fadeLevel (s.chan ch) s.now else 0) else 3072 := by
  unfold testedLevel
  cases s.lampTest with
  | none => rfl
  | some ends => rfl

theorem outputLevel_derated {s : State} (h : s.output.supply.overtempWarn = true) (ch : Channel) :
    outputLevel s ch ≤ s.derateCeiling := by
  cases hopen : isOpen s ch with
  | false => rw [outputLevel_closed hopen]; exact Nat.zero_le _
  | true => rw [outputLevel_open hopen, if_pos h]; exact min_le_right _ _

/-- Settles O60: the first two parts hold of every state, by the definition of the output level. -/
theorem stageInvariantMakesSafe : Obligations.StageInvariantMakesSafe := fun _ hs =>
  ⟨fun _ hclosed => outputLevel_closed hclosed, outputLevel_derated, hs.forcing⟩

/-! ### The gate -/

theorem isActive_iff (x : LineState) : x.isActive = true ↔ x.activity = .asserted ∨ x.activity = .stretch := by
  unfold LineState.isActive
  cases x.activity <;> decide

theorem gateOf_blink_normal (s : State) (k : ClockNo) :
    gateOf s (.blink k .normal) = true ↔ (s.clock k).offHalf = false := by simp [gateOf]

theorem gateOf_blink_inverted (s : State) (k : ClockNo) :
    gateOf s (.blink k .inverted) = true ↔ ¬ (s.clock k).offHalf = false := by simp [gateOf]

theorem gateOf_flash (s : State) (l : Line) :
    gateOf s (.flash l) = true ↔ (s.line l).activity = .asserted ∨ (s.line l).activity = .stretch :=
  isActive_iff _

theorem gateOf_combine (s : State) (l : Line) (k : ClockNo) :
    gateOf s (.combine l k) = true ↔
      (¬ ((s.line l).activity = .asserted ∨ (s.line l).activity = .stretch) ∨ (s.clock k).offHalf = false) := by
  rw [← isActive_iff]
  simp [gateOf]

/-! ### The fade level -/

/-- A part of the way from the origin to the target, the fraction discarded toward the origin, on both sides (R127). -/
theorem partWay_parts {origin target : Level} {num den : Nat} (hden : 0 < den) (hnum : num ≤ den) :
    (origin ≤ target → (partWay origin target num den).val = origin.val + (target.val - origin.val) * num / den) ∧
    (target ≤ origin → (partWay origin target num den).val = origin.val - (origin.val - target.val) * num / den) :=
  ⟨fun h => partWay_up h hden hnum, partWay_down⟩

theorem fadeLevel_underway {m : ModChannel} {start t : Instant} {origin : Level} {d : Nat} {shape : Shape}
    (h : m.fade = .fading origin d start shape) (ht : t < d) :
    fadeLevel m (start + t) = fadeAt shape origin m.target t d := by
  rw [fadeLevel_running h (Nat.add_lt_add_left ht start) (Nat.le_add_right start t), Nat.add_sub_cancel_left]

/-- Settles O38: the output level and the gate by their definitions, the fade level by the state of the fade. -/
theorem outputLevelAndGate : Obligations.OutputLevelAndGate := by
  refine ⟨fun s ch => ⟨rfl, fun hclosed => ?closed, fun hopen => ?opened⟩,
    fun s k l => ⟨rfl, gateOf_blink_normal s k, gateOf_blink_inverted s k, gateOf_flash s l, gateOf_combine s l k⟩,
    fun m now => ⟨fadeLevel_parked, fadeLevel_settled, fun origin d start shape hfade =>
      ⟨fadeLevel_ended hfade, fun t hnow ht => ?underway⟩⟩⟩
  case closed => exact outputLevel_closed (Bool.eq_false_iff.mpr fun h => hclosed (isOpen_iff.mp h))
  case opened => rw [outputLevel_open (isOpen_iff.mpr hopen), testedLevel_eq, min_def]
  case underway =>
    subst hnow
    rw [fadeLevel_underway hfade ht]
    refine ⟨fun hlinear => ?linear, fun hsmooth => ?smooth⟩
    case linear =>
      rw [hlinear]
      exact partWay_parts (Nat.zero_lt_of_lt ht) (Nat.le_of_lt ht)
    case smooth =>
      rw [hsmooth]
      exact ⟨smoothProgress t d, partWay_parts (by decide) (smoothProgress_le t d ht), smoothProgress_middle t d,
        smoothProgress_close t d ht⟩

end Sys2Proof.Machine

namespace Sys2Proof.Machine

/-! ## The settings of the modulator and its timed events (R127, R131, R133, R135, R136, R140) -/

/-! ### CHANNEL_FADE -/

theorem setDefaultFade_frame (cs : ChannelSet) (i : FadeIndex) (shape : Shape) (s : State) :
    setDefaultFade cs i shape s = { s with modulator := (setDefaultFade cs i shape s).modulator } :=
  forEach_preserves (fun u => u = { s with modulator := u.modulator }) _ _ (fun _ _ h => by rw [h]; rfl) s rfl

theorem setDefaultFade_chan (cs : ChannelSet) (i : FadeIndex) (shape : Shape) (s : State) (ch : Channel) :
    (setDefaultFade cs i shape s).chan ch =
      if inSet cs ch = true then { s.chan ch with defaultIndex := i, defaultShape := shape } else s.chan ch := by
  rw [setDefaultFade, forEach_at State.chan _
    (fun ch s => { s.chan ch with defaultIndex := i, defaultShape := shape })
    (fun ch s => by rw [State.chan_modChan, if_pos rfl]) (fun ch j s hj => by rw [State.chan_modChan, if_neg hj])
    (fun ch j s hj => by simp only [State.chan_modChan, if_neg hj]) _ (nodup_members cs)]
  simp only [mem_members]

theorem channelFadeBody_refused {s : State} {p : Port} (h : arg s p 0 = 0 ∨ 7 < argNat s p 1 ∨ 1 < argNat s p 2) :
    channelFadeBody p s = refuse .badArgument 0 s := by
  unfold channelFadeBody
  split
  · next i shape hi hshape =>
    rcases h with hzero | hindex | hcode
    · rw [if_pos hzero]
    · rw [inRange_eq_none.mpr hindex] at hi
      cases hi
    · rw [shapeOf, twoValued_eq_none.mpr hcode] at hshape
      cases hshape
  · rfl

theorem channelFadeBody_done {s : State} {p : Port} {i : FadeIndex} {shape : Shape} (hset : arg s p 0 ≠ 0)
    (hi : argNat s p 1 = i.val) (hshape : shapeOf (argNat s p 2) = some shape) :
    channelFadeBody p s = done none (members (arg s p 0)).length (setDefaultFade (arg s p 0) i shape s) := by
  unfold channelFadeBody
  simp only [inRange_eq_some.mpr hi, hshape, if_neg hset]

/-! ### CLOCK_CONFIG and DERATE_CONFIG -/

theorem clockConfigBody_refused {s : State} {p : Port}
    (h : 3 < argNat s p 0 ∨ argNat s p 1 = 0 ∨ 127 < argNat s p 1) :
    clockConfigBody p s = refuse .badArgument 0 s := by
  unfold clockConfigBody
  split
  · next k half hk hhalf =>
    rcases h with hclock | hzero | hlong
    · rw [inRange_eq_none.mpr hclock] at hk
      cases hk
    · rw [halfPeriodOf, if_pos hzero] at hhalf
      cases hhalf
    · rw [halfPeriodOf, if_neg (Nat.ne_zero_of_lt hlong), inRange_eq_none.mpr hlong] at hhalf
      cases hhalf
  · rfl

theorem clockConfigBody_done {s : State} {p : Port} {k : ClockNo} {half : Fin 128} (hk : argNat s p 0 = k.val)
    (hhalf : argNat s p 1 = half.val) (hpos : 0 < half.val) :
    clockConfigBody p s = done none 0 (cleanChannels
      (s.modClock k fun _ => { halfPeriod := half, offHalf := false, began := some s.now })) := by
  have hperiod : halfPeriodOf (argNat s p 1) = some half := by
    rw [halfPeriodOf, if_neg (hhalf ▸ Nat.ne_of_gt hpos)]
    exact inRange_eq_some.mpr hhalf
  unfold clockConfigBody
  simp only [inRange_eq_some.mpr hk, hperiod]

theorem derateConfigBody_refused {s : State} {p : Port} (h : 4095 < argNat s p 1) :
    derateConfigBody p s = refuse .badArgument 0 s := by
  unfold derateConfigBody
  rw [inRange_eq_none.mpr h]

theorem derateConfigBody_done {s : State} {p : Port} {v : Level} (h : argNat s p 1 = v.val) :
    derateConfigBody p s = done none (if s.output.supply.overtempWarn then 1 else 0)
      (cleanChannels { s with derateCeiling := v }) := by
  unfold derateConfigBody
  rw [inRange_eq_some.mpr h]
  rfl

/-! ### Timed events -/

theorem dueAt_some {ends now : Instant} (h : ends ≤ now) : dueAt (some ends) now = true := decide_eq_true h

theorem clockHalfEnds_due {s : State} {k : ClockNo} {began : Instant} (hbegan : (s.clock k).began = some began)
    (hdue : began + 20 * (s.clock k).halfPeriod.val ≤ s.now) : clockHalfEnds k s = cleanChannels
      (s.modClock k fun c => { c with offHalf := !c.offHalf, began := some s.now }) := by
  have hends : (s.clock k).ends = some (began + 20 * (s.clock k).halfPeriod.val) := by
    simp [PatternClock.ends, hbegan]
  rw [clockHalfEnds, hends, if_pos (dueAt_some hdue)]

theorem fadeCompletes_due {s : State} {ch : Channel} {origin : Level} {d : Nat} {start : Instant} {shape : Shape}
    (hfade : (s.chan ch).fade = .fading origin d start shape) (hdue : start + d ≤ s.now) :
    fadeCompletes ch s = cleanChannels (s.modChan ch fun m => { m with fade := .settled }) := by
  have hends : fadeEnd? (s.chan ch) = some (start + d) := by rw [fadeEnd?, hfade]
  rw [fadeCompletes, hends, if_pos (dueAt_some hdue)]

/-! ### Opening and closing a channel -/

theorem openOrClose_closes (now : Instant) (m : ModChannel) : openOrClose false now m = { m with fade := .parked } :=
  rfl

theorem openOrClose_goes_on {now : Instant} {m : ModChannel} (h : m.fade ≠ .parked) : openOrClose true now m = m :=
  openOrClose_agrees (iff_of_false h (by simp))

theorem fadeTime_eq_zero (i : FadeIndex) : fadeTime i = 0 ↔ i = 0 := by
  revert i
  decide

/-- An opened channel fades from 0 over its default fade, or is settled at once (R131). -/
theorem openOrClose_opens {now : Instant} {m : ModChannel} (h : m.fade = .parked) : openOrClose true now m = { m with
    fade := if m.defaultIndex = 0 ∨ m.target = 0 then .settled
      else .fading 0 (fadeTime m.defaultIndex) now m.defaultShape } := by
  simp only [openOrClose, h, if_true, beginFade, fadeTime_eq_zero, eq_comm (a := (0 : Level))]

/-- Settles O39: each command by its checks, each timed event as it falls due. -/
theorem modulatorSettingsAndTimedEvents : Obligations.ModulatorSettingsAndTimedEvents := by
  refine ⟨fun p s htaken => ⟨fun hbad => ?fadeRefused, fun i shape hset hi hshape => ?fadeStored,
      fun hbad => ?clockRefused, fun k half hk hhalf hpos => ?clockStored,
      fun hbad => ?derateRefused, fun v hv => ?derateStored⟩,
    fun s => ⟨fun k began hbegan hdue => congrArg Host.Outcome.next (clockHalfEnds_due hbegan hdue),
      fun ch origin d start shape hfade hdue => congrArg Host.Outcome.next (fadeCompletes_due hfade hdue)⟩,
    fun now m => ⟨openOrClose_closes now m, openOrClose_goes_on, openOrClose_opens⟩⟩
  case fadeRefused =>
    exact congrArg Host.Outcome.next (takeCommand_refused htaken (channelFadeBody_refused hbad) (by decide))
  case fadeStored =>
    refine ⟨(setDefaultFade (arg s p 0) i shape s).modulator, ?_, setDefaultFade_chan (arg s p 0) i shape s⟩
    rw [← setDefaultFade_frame]
    exact congrArg Host.Outcome.next (takeCommand_done htaken (channelFadeBody_done hset hi hshape))
  case clockRefused =>
    exact congrArg Host.Outcome.next (takeCommand_refused htaken (clockConfigBody_refused hbad) (by decide))
  case clockStored =>
    exact congrArg Host.Outcome.next (takeCommand_done htaken (clockConfigBody_done hk hhalf hpos))
  case derateRefused =>
    exact congrArg Host.Outcome.next (takeCommand_refused htaken (derateConfigBody_refused hbad) (by decide))
  case derateStored =>
    exact congrArg Host.Outcome.next (takeCommand_done htaken (derateConfigBody_done hv))

end Sys2Proof.Machine

namespace Sys2Proof.Machine

/-! ## Takings of the output stage (R131, R152, R156, R157) -/

/-! ### What a stage change and the end of a taking write -/

theorem enterStage_frame (st : StageName) (c : Cause) (s : State) : enterStage st c s = { s with
    output := (enterStage st c s).output, outs := (enterStage st c s).outs, modulator := (enterStage st c s).modulator,
    ports := (enterStage st c s).ports, lampTest := (enterStage st c s).lampTest } := by
  apply state_eq <;> simp

theorem settle_frame (c : Cause) (s : State) : settle c s = { s with
    output := (settle c s).output, outs := (settle c s).outs, modulator := (settle c s).modulator,
    ports := (settle c s).ports } := by
  apply state_eq <;> simp [settle_lampTest]

/-- The end of a taking leaves each channel of the output stage, its clean interval apart (R172). -/
theorem settle_out (c : Cause) (s : State) (ch : Channel) :
    (settle c s).out ch = { s.out ch with cleanEnd := ((settle c s).out ch).cleanEnd } := by
  rw [settle, cleanChannels_out, settleStage_out]
  rfl

theorem settle_cleanEnd_none (c : Cause) {s : State} (h : (settle c s).output.stage ≠ .active) (ch : Channel) :
    ((settle c s).out ch).cleanEnd = none := (settle_cleanInv c s).none h ch

section Stays

variable {s : State} (c : Cause) (h : mayStart s = false)

include h

theorem settle_stays_output : (settle c s).output = withDemand s.now (demandNow (settle c s)) s.output := by
  rw [demandNow_settle, settle_stays c h, cleanChannels_output]
  exact settledOutput_eq s

theorem settle_stays_modulator : (settle c s).modulator = s.modulator := by
  rw [settle_stays c h, cleanChannels_modulator]

theorem settle_stays_ports : (settle c s).ports = s.ports := by rw [settle_stays c h, cleanChannels_ports]

end Stays

theorem mayStart_iff {s : State} : mayStart s = true ↔ s.output.stage = .standby ∧ demandNow s = true ∧
    s.output.hold = false ∧ s.output.supply.forcing = false := by
  simp [mayStart, and_assoc]

theorem mayStart_of_stage {s : State} (h : s.output.stage ≠ .standby) : mayStart s = false := by simp [mayStart, h]

theorem mayStart_of_hold {s : State} (h : s.output.hold = true) : mayStart s = false := by simp [mayStart, h]

theorem withDemand_outside_active {o : OutputStage} (h : o.stage ≠ .active) (now : Instant) (d : Bool) :
    withDemand now d o = { o with demand := d } := by simp [withDemand, h]

theorem settle_starts_output (c : Cause) {s : State} (h : mayStart s = true) : (settle c s).output =
    { s.output.idle with stage := .softstart, lastCause := c, softEnd := some (s.now + 20), demand := true } := by
  obtain ⟨hstandby, hdemand, -, -⟩ := mayStart_iff.mp h
  rw [settle_starts c h, cleanChannels_output, enterStage_output,
    settledOutput_of_standby (by rw [hstandby]; decide), hdemand]
  rfl

/-! ### Channels opened, closed or going on -/

/-- Each channel has opened, closed or gone on, from a state on, as the stage, its enable and its fault state now say
(R131). -/
def Reopened (s t : State) : Prop := ∀ ch, t.chan ch = openOrClose (isOpen t ch) s.now (s.chan ch)

/-- A closing makes of a channel what it makes of the channel opened or closed before. -/
theorem openOrClose_then_closes (b : Bool) (now : Instant) (m : ModChannel) :
    openOrClose false now (openOrClose b now m) = openOrClose false now m := by
  unfold openOrClose
  cases b
  · rfl
  · cases m.fade <;> rfl

namespace Reopened

variable {s u t : State}

/-- Under the modulator's invariant every channel goes on where none opens or closes. -/
theorem of_inv (hs : ModulatorInv s) (hchan : ∀ ch, t.chan ch = s.chan ch) (hopen : ∀ ch, isOpen t ch = isOpen s ch) :
    Reopened s t := fun ch => by
  rw [hchan, hopen, openOrClose_agrees (hs.parked ch)]

theorem congr (h : Reopened s u) (hmodulator : t.modulator = u.modulator) (hopen : ∀ ch, isOpen t ch = isOpen u ch) :
    Reopened s t := fun ch => by
  rw [hopen, ← h ch, State.chan, hmodulator]
  rfl

theorem enterStage (h : Reopened s u) (hnow : u.now = s.now) {st : StageName} (c : Cause) (hst : st ≠ .active) :
    Reopened s (enterStage st c u) := fun ch => by
  have hclosed : isOpen (Machine.enterStage st c u) ch = false := by
    simp [isOpen, enterStage_output, OutputStage.enter, hst]
  rw [enterStage_chan, hclosed, h ch, hnow, openOrClose_then_closes]

theorem settle (h : Reopened s u) (hnow : u.now = s.now) (c : Cause) : Reopened s (settle c u) := by
  have hread : Reopened s { u with output := settledOutput u } :=
    h.congr rfl fun ch => isOpen_congr (standbyDelay_keeps u.now u.output (demandNow u)).2.2.2.1 rfl
  have hcleaned : ∀ v, Reopened s v → Reopened s (cleanChannels v) := fun v hv =>
    hv.congr (cleanChannels_modulator v) fun ch =>
      isOpen_of (by simp) (by rw [cleanChannels_out]; rfl) (by rw [cleanChannels_out]; rfl)
  cases hstart : mayStart u with
  | false =>
    rw [settle_stays c hstart]
    exact hcleaned _ hread
  | true =>
    rw [settle_starts c hstart]
    exact hcleaned _ (hread.enterStage hnow c (by decide))

end Reopened

/-! ### The frame of a taking of the output stage, one part after another -/

namespace LampSide

variable {s u t : State}

/-- A further part of the taking, which keeps enables, rearm modes, registers and results. -/
theorem extend (h : LampSide s u)
    (hframe : t = { u with
      output := t.output, outs := t.outs, modulator := t.modulator, ports := t.ports, lampTest := t.lampTest,
      watches := t.watches })
    (hchannels : Reopened s t) (henabled : ∀ ch, (t.out ch).enabled = (u.out ch).enabled)
    (hmanual : ∀ ch, (t.out ch).manual = (u.out ch).manual) (hregisters : ∀ p, RegistersKept (u.port p) (t.port p))
    (hresults : SameResults u t) (hnotices : ∀ p, (u.port p).queue <+: (t.port p).queue)
    (hwatches : ∀ w, WatchKept (u.watch w) (t.watch w)) : LampSide s t where
  frame := by
    have hu := h.frame
    rw [hu] at hframe
    exact hframe
  channels := hchannels
  enabled := fun ch => (henabled ch).trans (h.enabled ch)
  manual := fun ch => (hmanual ch).trans (h.manual ch)
  registers := fun p => (h.registers p).trans (hregisters p)
  results := fun p => (h.results p).trans (hresults p)
  notices := fun p => (h.notices p).trans (hnotices p)
  watches := fun w => (h.watches w).trans (hwatches w)

/-- A taking that writes the output stage and the lamp test alone, and leaves the stage where it is. -/
theorem of_inv (hs : ModulatorInv s) (hframe : t = { s with output := t.output, lampTest := t.lampTest })
    (hstage : t.output.stage = s.output.stage) : LampSide s t := by
  rw [hframe]
  exact
    { frame := rfl
      channels := Reopened.of_inv hs (fun _ => rfl) fun _ => isOpen_congr hstage rfl
      enabled := fun _ => rfl
      manual := fun _ => rfl
      registers := fun _ => .refl _
      results := fun _ => .refl _
      notices := fun _ => List.prefix_refl _
      watches := fun _ => .refl _ }

theorem now_eq (h : LampSide s t) : t.now = s.now := by rw [h.frame]

theorem enterStage (h : LampSide s u) {st : StageName} (c : Cause) (hst : st ≠ .active) :
    LampSide s (enterStage st c u) := by
  have hport := enterStage_port st c u
  have hkept : ∀ ch, ((Machine.enterStage st c u).out ch).enabled = (u.out ch).enabled ∧
      ((Machine.enterStage st c u).out ch).manual = (u.out ch).manual := fun ch => by
    rw [enterStage_out]
    split
    · exact ⟨(pauseRetry_keeps _ _).1, (pauseRetry_keeps _ _).2.1⟩
    · exact ⟨rfl, rfl⟩
  refine h.extend ?_ (Reopened.enterStage h.channels h.now_eq c hst) (fun ch => (hkept ch).1) (fun ch => (hkept ch).2)
    (fun p => hport p ▸ offerTo_registers _ _) (enterStage_results st c u) (fun p => hport p ▸ offerTo_queue _ _)
    (fun w => by rw [enterStage_watch]; exact .refl _)
  have hframe := enterStage_frame st c u
  exact hframe.trans (by simp)

theorem settle (h : LampSide s u) (c : Cause) : LampSide s (settle c u) := by
  have hkept := settle_kept c u
  refine h.extend ?_ (Reopened.settle h.channels h.now_eq c) hkept.enabled hkept.manual hkept.registers
    (settle_results c u) hkept.notices hkept.watches
  have hframe := settle_frame c u
  exact hframe.trans (by simp [settle_lampTest])

end LampSide

end Sys2Proof.Machine

namespace Sys2Proof.Machine

/-! ## The HOLD line (R147, R157, R161) -/

/-- HOLD recorded as asserted, and a lamp test ended, before the stage's move (R147, R161). -/
def holdRecorded (s : State) : State := (s.modOutput fun o => { o with hold := true }).setLampTest none

/-- HOLD recorded as released, before the stage's move (R157). -/
def releaseRecorded (s : State) : State := s.modOutput fun o => { o with hold := false }

theorem lampsUp_iff (st : StageName) : lampsUp st = true ↔ st = .softstart ∨ st = .active := by
  cases st <;> decide

theorem assertHold_eq (s : State) : assertHold s = settle .demand
    (if lampsUp s.output.stage then enterStage .standby .hold (holdRecorded s) else holdRecorded s) := rfl

theorem assertHold_up {s : State} (h : lampsUp s.output.stage = true) :
    assertHold s = settle .demand (enterStage .standby .hold (holdRecorded s)) := by
  rw [assertHold_eq, if_pos h]

theorem assertHold_down {s : State} (h : lampsUp s.output.stage = false) :
    assertHold s = settle .demand (holdRecorded s) := by
  rw [assertHold_eq, if_neg (by simp [h])]

theorem releaseHold_eq (s : State) : releaseHold s = settle .holdRelease (releaseRecorded s) := rfl

theorem holdRecorded_lampSide {s : State} (hs : ModulatorInv s) : LampSide s (holdRecorded s) := .of_inv hs rfl rfl

theorem releaseRecorded_lampSide {s : State} (hs : ModulatorInv s) : LampSide s (releaseRecorded s) := .of_inv hs rfl rfl

theorem FaultsKept.settle {s u : State} (h : FaultsKept s u) (c : Cause) : FaultsKept s (settle c u) := fun ch =>
  ⟨((settle_kept c u).fault ch).trans (h ch).1, ((settle_kept c u).retry ch).trans (h ch).2⟩

/-- STANDBY entered by HOLD: no start may follow while HOLD stands (R157). -/
theorem heldStandby_mayStart (s : State) : mayStart (enterStage .standby .hold (holdRecorded s)) = false :=
  mayStart_of_hold (by rw [enterStage_output]; rfl)

theorem heldStandby_output (s : State) :
    (settle .demand (enterStage .standby .hold (holdRecorded s))).output = { s.output.idle with
      stage := .standby, lastCause := .hold, hold := true,
      demand := demandNow (settle .demand (enterStage .standby .hold (holdRecorded s))) } := by
  have hentered := enterStage_output .standby .hold (holdRecorded s)
  rw [settle_stays_output .demand (heldStandby_mayStart s),
    withDemand_outside_active (by rw [hentered]; exact fun k => by cases k), hentered]
  rfl

theorem heldStandby_lampTest (s : State) :
    (settle .demand (enterStage .standby .hold (holdRecorded s))).lampTest = none := by
  rw [settle_lampTest, enterStage_lampTest]
  exact ite_self _

theorem heldStandby_faultsKept (s : State) :
    FaultsKept s (settle .demand (enterStage .standby .hold (holdRecorded s))) :=
  FaultsKept.settle (fun ch => by rw [enterStage_out]; exact ⟨rfl, rfl⟩) .demand

theorem heldStandby_queued (s : State) (p : Port) : Queued [.stage .standby .hold] (s.port p)
    ((settle .demand (enterStage .standby .hold (holdRecorded s))).port p) := by
  rw [settle_port, if_neg (by simp [heldStandby_mayStart s]), enterStage_port]
  exact Queued.offer _ _

theorem holdRecorded_stays (s : State) : mayStart (holdRecorded s) = false := mayStart_of_hold rfl

theorem holdRecorded_faultsKept (s : State) : FaultsKept s (settle .demand (holdRecorded s)) :=
  FaultsKept.settle (u := holdRecorded s) (fun _ => ⟨rfl, rfl⟩) .demand

theorem holdRecorded_lampTest (s : State) : (settle .demand (holdRecorded s)).lampTest = none :=
  settle_lampTest .demand (holdRecorded s)

theorem holdRecorded_output {s : State} (h : s.output.stage ≠ .active) : (settle .demand (holdRecorded s)).output =
    { s.output with hold := true, demand := demandNow (settle .demand (holdRecorded s)) } := by
  have hstage : (holdRecorded s).output.stage ≠ .active := h
  rw [settle_stays_output .demand (holdRecorded_stays s), withDemand_outside_active hstage]
  rfl

/-- Demand does not read HOLD (R156). -/
theorem releaseRecorded_demand (s : State) : demandNow (releaseRecorded s) = demandNow s := rfl

theorem releaseRecorded_mayStart_iff {s : State} : mayStart (releaseRecorded s) = true ↔
    s.output.stage = .standby ∧ demandNow s = true ∧ s.output.supply.forcing = false := by
  rw [mayStart_iff]
  exact ⟨fun ⟨hstage, hdemand, _, hforcing⟩ => ⟨hstage, hdemand, hforcing⟩,
    fun ⟨hstage, hdemand, hforcing⟩ => ⟨hstage, hdemand, rfl, hforcing⟩⟩

/-- Settles O41: the line recorded, STANDBY entered where the lamps were up, and the end of the taking. -/
theorem holdLineTaken : Obligations.HoldLineTaken := by
  intro s hs
  refine ⟨?asserted, ?released⟩
  case asserted =>
    have hrecorded := holdRecorded_lampSide hs
    cases hup : lampsUp s.output.stage with
    | true =>
      have hstage := (lampsUp_iff s.output.stage).mp hup
      refine ⟨_, congrArg Host.Outcome.next (assertHold_up hup), (hrecorded.enterStage .hold (by decide)).settle .demand,
        heldStandby_faultsKept s, heldStandby_lampTest s, by simp [holdRecorded], fun _ => ⟨heldStandby_output s,
          settle_cleanEnd_none .demand (by rw [heldStandby_output]; exact fun k => by cases k), heldStandby_queued s⟩,
        fun hsoft hactive => ?_⟩
      exact absurd hstage (not_or.mpr ⟨hsoft, hactive⟩)
    | false =>
      have hstage : ¬ (s.output.stage = .softstart ∨ s.output.stage = .active) := fun h => by
        simp [(lampsUp_iff s.output.stage).mpr h] at hup
      refine ⟨_, congrArg Host.Outcome.next (assertHold_down hup), hrecorded.settle .demand,
        holdRecorded_faultsKept s, holdRecorded_lampTest s, settle_watches .demand (holdRecorded s),
        fun h => absurd h hstage, fun _ hactive =>
          ⟨holdRecorded_output hactive, settle_stays_ports .demand (holdRecorded_stays s)⟩⟩
  case released =>
    have hrecorded := releaseRecorded_lampSide hs
    refine ⟨_, congrArg Host.Outcome.next (releaseHold_eq s), hrecorded.settle .holdRelease,
      FaultsKept.settle (u := releaseRecorded s) (fun _ => ⟨rfl, rfl⟩) .holdRelease,
      settle_lampTest .holdRelease (releaseRecorded s), settle_watches .holdRelease (releaseRecorded s),
      (settle_kept .holdRelease (releaseRecorded s)).hold, ?_, fun hstage hdemand hforcing => ?starts, fun h => ?stays⟩
    · rw [settle_demand, demandNow_settle]
    case starts =>
      have hstarts := releaseRecorded_mayStart_iff.mpr ⟨hstage, hdemand, hforcing⟩
      refine ⟨settle_starts_output .holdRelease hstarts, fun p => ?_⟩
      rw [settle_port, if_pos hstarts]
      exact Queued.offer _ _
    case stays =>
      have hstays : mayStart (releaseRecorded s) = false := Bool.eq_false_iff.mpr fun k => by
        obtain ⟨hstage, hdemand, hforcing⟩ := releaseRecorded_mayStart_iff.mp k
        rcases h with h | h | h
        · exact h hstage
        · simp [h] at hdemand
        · simp [h] at hforcing
      exact ⟨settle_stays_output .holdRelease hstays, settle_stays_modulator .holdRelease hstays,
        settle_stays_ports .holdRelease hstays⟩

end Sys2Proof.Machine

namespace Sys2Proof.Machine

/-! ## Channels set one after another (R131, R171, R173) -/

/-- The channels of a list set by a function, each opened or closed as it now stands; events may have been handed. -/
structure ChannelsSet (f : OutChannel → OutChannel) (l : List Channel) (s t : State) : Prop where
  frame : t = { s with outs := t.outs, modulator := t.modulator, ports := t.ports, watches := t.watches }
  out : ∀ ch, t.out ch = if ch ∈ l then f (s.out ch) else s.out ch
  chan : ∀ ch, t.chan ch = if ch ∈ l then openOrClose (isOpen t ch) s.now (s.chan ch) else s.chan ch

namespace ChannelsSet

variable {f : OutChannel → OutChannel} {l : List Channel} {i : Channel} {s u t : State}

theorem output_eq (h : ChannelsSet f l s t) : t.output = s.output := by rw [h.frame]

theorem now_eq (h : ChannelsSet f l s t) : t.now = s.now := by rw [h.frame]

theorem lampTest_eq (h : ChannelsSet f l s t) : t.lampTest = s.lampTest := by rw [h.frame]

theorem nil (s : State) : ChannelsSet f [] s s := ⟨rfl, fun _ => rfl, fun _ => rfl⟩

theorem cons (h : ChannelsSet f [i] s u) (k : ChannelsSet f l u t) (hi : i ∉ l) : ChannelsSet f (i :: l) s t := by
  have hfirst : t.out i = u.out i := (k.out i).trans (if_neg hi)
  refine ⟨?_, fun ch => ?_, fun ch => ?_⟩
  · have hframe := k.frame
    rw [h.frame] at hframe
    exact hframe
  · rw [k.out, h.out]
    by_cases hch : ch = i
    · subst hch
      simp [hi]
    · simp [hch]
  · rw [k.chan, h.chan, h.now_eq]
    by_cases hch : ch = i
    · subst hch
      have hopen : isOpen t ch = isOpen u ch := isOpen_congr (by rw [k.output_eq]) hfirst
      simp [hi, hopen]
    · simp [hch]

/-- A channel that opens, closes or goes on once it has been set (R131). -/
theorem sync (f : OutChannel → OutChannel) (ch : Channel) (s : State) :
    ChannelsSet f [ch] s (syncChannel ch (s.modOut ch f)) := by
  refine ⟨rfl, fun i => ?_, fun i => ?_⟩
  · rw [State.out, syncChannel_outs, ← State.out, State.out_modOut]
    by_cases hi : i = ch
    · simp [hi]
    · simp [hi]
  · rw [syncChannel_chan]
    by_cases hi : i = ch
    · subst hi
      rw [if_pos rfl, if_pos (List.mem_singleton_self i)]
      rfl
    · rw [if_neg hi, if_neg (by simpa using hi)]
      rfl

/-- An event handed after the channels are set. -/
theorem faultEvent (h : ChannelsSet f l s t) (ch : Channel) (d : FaultDetail) :
    ChannelsSet f l s (faultEvent ch d t) := by
  have hout : ∀ i, (Machine.faultEvent ch d t).out i = t.out i := fun i => fireWatches_out _ _ _ t i
  have hchan : ∀ i, (Machine.faultEvent ch d t).chan i = t.chan i := fun i => fireWatches_chan _ _ _ t i
  refine ⟨?_, fun i => (hout i).trans (h.out i), fun i => ?_⟩
  · have hframe := h.frame
    apply state_eq <;> simp <;> rw [hframe]
  · rw [hchan, h.chan, isOpen_congr (by simp) (hout i)]

theorem forEach {op : Channel → State → State} (hop : ∀ ch u, ChannelsSet f [ch] u (op ch u)) (hl : l.Nodup)
    (s : State) : ChannelsSet f l s (forEach l op s) := by
  induction l generalizing s with
  | nil => exact nil s
  | cons i l ih =>
    obtain ⟨hi, hl⟩ := List.nodup_cons.mp hl
    exact (hop i s).cons (ih hl _) hi

/-- Under the modulator's invariant the channels outside the list go on. -/
theorem reopened (h : ChannelsSet f l s t) (hs : ModulatorInv s) : Reopened s t := fun ch => by
  rw [h.chan]
  split
  · rfl
  · next hch =>
    have hopen : isOpen t ch = isOpen s ch := isOpen_congr (by rw [h.output_eq]) ((h.out ch).trans (if_neg hch))
    rw [hopen, openOrClose_agrees (hs.parked ch)]

/-- A setting that leaves enables and rearm modes, with the frames of the ports and the watches. -/
theorem lampSide (h : ChannelsSet f l s t) (hs : ModulatorInv s) (henabled : ∀ o, (f o).enabled = o.enabled)
    (hmanual : ∀ o, (f o).manual = o.manual) (hregisters : ∀ p, RegistersKept (s.port p) (t.port p))
    (hresults : SameResults s t) (hnotices : ∀ p, (s.port p).queue <+: (t.port p).queue)
    (hwatches : ∀ w, WatchKept (s.watch w) (t.watch w)) : LampSide s t where
  frame := by
    have hframe := h.frame
    have hoff := h.output_eq
    have hlamp := h.lampTest_eq
    rw [hoff, hlamp]
    exact hframe
  channels := h.reopened hs
  enabled := fun ch => by
    rw [h.out]
    split
    · exact henabled _
    · rfl
  manual := fun ch => by
    rw [h.out]
    split
    · exact hmanual _
    · rfl
  registers := hregisters
  results := hresults
  notices := hnotices
  watches := hwatches

/-- The end of the taking reads demand and the stage from what was before the setting (R156, R157, R159). -/
theorem follows (h : ChannelsSet f l s t) : StageFollows s (settle .demand t) := settle_follows h.output_eq h.now_eq

theorem settle_frame (h : ChannelsSet f l s t) (c : Cause) : settle c t = { s with
    outs := (settle c t).outs, modulator := (settle c t).modulator, output := (settle c t).output,
    ports := (settle c t).ports, watches := t.watches } := by
  have hframe := Machine.settle_frame c t
  generalize settle c t = v at hframe ⊢
  rw [h.frame] at hframe
  exact hframe

theorem stageTold_eq (h : ChannelsSet f l s t) (u : State) : stageTold t u = stageTold s u :=
  stageTold_congr h.output_eq rfl

end ChannelsSet

end Sys2Proof.Machine

namespace Sys2Proof.Machine

/-! ## The end of a retry timer (R131, R171) -/

/-- A channel as the end of its retry timer leaves it: READY, the count kept (R171). -/
def returned (o : OutChannel) : OutChannel := { o with fault := .ready }

/-- The channel returned and its FAULT READY event handed, before the end of the taking (R171). -/
def retryReturned (ch : Channel) (s : State) : State := faultEvent ch .ready (syncChannel ch (s.modOut ch returned))

theorem retryEnds_due {s : State} {ch : Channel} {k : FaultKind} {ends : Instant}
    (h : (s.out ch).fault = .faulted k (.pending (.running ends))) (hdue : ends ≤ s.now) :
    retryEnds ch s = settle .demand (retryReturned ch s) := by
  have hends : retryEnd? (s.out ch) = some ends := by rw [retryEnd?, h]
  rw [retryEnds, hends, if_pos (dueAt_some hdue)]
  rfl

section RetryReturned

variable (ch : Channel) (s : State)

theorem retryReturned_set : ChannelsSet returned [ch] s (retryReturned ch s) :=
  (ChannelsSet.sync returned ch s).faultEvent ch .ready

theorem retryReturned_kept : Kept (syncChannel ch (s.modOut ch returned)) (retryReturned ch s) :=
  fireWatches_kept .fault ch.val _ _

theorem retryReturned_lampSide {s : State} (hs : ModulatorInv s) : LampSide s (retryReturned ch s) :=
  have hkept := retryReturned_kept ch s
  (retryReturned_set ch s).lampSide hs (fun _ => rfl) (fun _ => rfl) hkept.registers
    (fireWatches_results .fault ch.val _ (syncChannel ch (s.modOut ch returned))) hkept.notices hkept.watches

theorem retryReturned_watch (w : WatchNo) : (retryReturned ch s).watch w = spentBy .fault [ch] (s.watch w) :=
  fireWatches_watch .fault ch _ (syncChannel ch (s.modOut ch returned)) w

theorem retryReturned_kindMask (p : Port) : ((retryReturned ch s).port p).kindMask = (s.port p).kindMask :=
  ((retryReturned_kept ch s).registers p).kindMask

theorem retryReturned_queued {s : State} (h : isFaulted (s.out ch) = true) (p : Port) :
    Queued (readyTold p [ch] s) (s.port p) ((retryReturned ch s).port p) := by
  have hqueued := fireWatches_queued .fault ch (fun i => .fault i .ready) (syncChannel ch (s.modOut ch returned)) p
  have htold : readyTold p [ch] s =
      (told (syncChannel ch (s.modOut ch returned)) p .fault [ch]).map fun i => .fault i .ready := by
    simp [readyTold, h, told, watchesOf]
  rw [htold]
  exact hqueued

end RetryReturned

theorem isFaulted_of_faulted {o : OutChannel} {k : FaultKind} {status : RetryStatus} (h : o.fault = .faulted k status) :
    isFaulted o = true := by simp [isFaulted, h]

/-- Settles O46: the channel set READY and synchronised, the event, and the end of the taking. -/
theorem retryTimerEndReturnsReady : Obligations.RetryTimerEndReturnsReady := by
  intro s ch k ends hs hfault hdue
  have hset := retryReturned_set ch s
  have hout : ∀ i, ((settle .demand (retryReturned ch s)).out i).fault = ((retryReturned ch s).out i).fault ∧
      ((settle .demand (retryReturned ch s)).out i).retry = ((retryReturned ch s).out i).retry := fun i =>
    ⟨(settle_kept .demand (retryReturned ch s)).fault i, (settle_kept .demand (retryReturned ch s)).retry i⟩
  have hself : (retryReturned ch s).out ch = returned (s.out ch) := (hset.out ch).trans (if_pos (by simp))
  refine ⟨_, congrArg Host.Outcome.next (retryEnds_due hfault hdue), ?ready, ?count, fun i hi => ?others,
    (retryReturned_lampSide ch hs).settle .demand, ?lampTest, hset.follows, fun w => ?watches, fun p => ?queued⟩
  case ready => rw [(hout ch).1, hself]; rfl
  case count => rw [(hout ch).2, hself]; rfl
  case others =>
    have hother : (retryReturned ch s).out i = s.out i := (hset.out i).trans (if_neg (by simpa using hi))
    rw [(hout i).1, (hout i).2, hother]
    exact ⟨rfl, rfl⟩
  case lampTest => rw [settle_lampTest, hset.lampTest_eq]
  case watches => rw [settle_watch, retryReturned_watch]
  case queued =>
    rw [← hset.stageTold_eq]
    exact (retryReturned_queued ch (isFaulted_of_faulted hfault) p).trans (settle_queued .demand (retryReturned ch s) p)
      (retryReturned_kindMask ch s p)

end Sys2Proof.Machine

namespace Sys2Proof.Machine

/-! ## CHANNEL_ENABLE, CHANNEL_REARM_MODE and FAULT_REARM (R131, R168, R173) -/

/-! ### The answer of a command that sets channels -/

section Answered

variable {f : OutChannel → OutChannel} {l : List Channel} {s u : State}

theorem ChannelsSet.answered_reopened (h : ChannelsSet f l s u) (hs : ModulatorInv s) (p : Port) (x : Nat) :
    Reopened s (acceptedState p none x (settle .demand u)) :=
  ((h.reopened hs).settle h.now_eq .demand).congr (acceptedState_modulator ..) fun ch =>
    isOpen_congr (by rw [acceptedState_output]) (acceptedState_out p none x _ ch)

theorem acceptedState_frame (p : Port) (hd : Option Handle) (x : Nat) (t : State) :
    acceptedState p hd x t = { t with ports := (acceptedState p hd x t).ports } := rfl

theorem ChannelsSet.answered_frame (h : ChannelsSet f l s u) (p : Port) (x : Nat) :
    acceptedState p none x (settle .demand u) = { s with
      outs := (acceptedState p none x (settle .demand u)).outs
      modulator := (acceptedState p none x (settle .demand u)).modulator
      output := (acceptedState p none x (settle .demand u)).output
      ports := (acceptedState p none x (settle .demand u)).ports
      watches := (acceptedState p none x (settle .demand u)).watches } := by
  have hframe := h.settle_frame .demand
  have hwatches : (settle .demand u).watches = u.watches := settle_watches .demand u
  rw [← hwatches] at hframe
  have hanswer := acceptedState_frame p none x (settle .demand u)
  generalize acceptedState p none x (settle .demand u) = t at hanswer ⊢
  generalize settle .demand u = v at hframe hanswer
  rw [hanswer]
  exact congrArg (fun z : State => { z with ports := t.ports }) hframe

/-- The notices of a taking that leaves the output stage alone, and then the stage's move (R186). -/
theorem answered_queued (houtput : u.output = s.output) (p q : Port) (x : Nat) {ns : List Notice}
    (hqueued : Queued ns (s.port q) (u.port q)) (hmask : (u.port q).kindMask = (s.port q).kindMask) :
    Queued (ns ++ stageTold s (acceptedState p none x (settle .demand u))) (s.port q)
      ((acceptedState p none x (settle .demand u)).port q) := by
  have hsettled : Queued (ns ++ stageTold u (settle .demand u)) (s.port q) ((settle .demand u).port q) :=
    hqueued.trans (settle_queued .demand u q) hmask
  have hkept : ((settle .demand u).port q).kindMask = (s.port q).kindMask :=
    ((settle_kept .demand u).registers q).kindMask.trans hmask
  have hanswered := hsettled.trans (acceptedState_queued p q none x (settle .demand u)) hkept
  have hmove : stageTold s (acceptedState p none x (settle .demand u)) = stageTold u (settle .demand u) :=
    stageTold_congr houtput.symm (acceptedState_output ..)
  rw [List.append_nil] at hanswered
  rw [hmove]
  exact hanswered

end Answered

theorem settle_enabled (c : Cause) (s : State) (ch : Channel) :
    ((settle c s).out ch).enabled = (s.out ch).enabled := (settle_kept c s).enabled ch

theorem settle_manual (c : Cause) (s : State) (ch : Channel) :
    ((settle c s).out ch).manual = (s.out ch).manual := (settle_kept c s).manual ch

theorem settle_fault (c : Cause) (s : State) (ch : Channel) :
    ((settle c s).out ch).fault = (s.out ch).fault := (settle_kept c s).fault ch

theorem settle_retry (c : Cause) (s : State) (ch : Channel) :
    ((settle c s).out ch).retry = (s.out ch).retry := (settle_kept c s).retry ch

/-! ### CHANNEL_ENABLE -/

/-- A channel enabled, or disabled (R131, R168). -/
def enabledTo (v : Bool) (o : OutChannel) : OutChannel := if v then { o with enabled := true } else disableOut o

theorem enabledTo_keeps (v : Bool) (o : OutChannel) :
    (enabledTo v o).enabled = v ∧ (enabledTo v o).retry = o.retry ∧ (enabledTo v o).manual = o.manual := by
  cases v <;> exact ⟨rfl, rfl, rfl⟩

theorem disableOut_ready {o : OutChannel} (h : o.fault = .ready) : (disableOut o).fault = .ready := by
  simp [disableOut, h]

theorem disableOut_faulted {o : OutChannel} {k : FaultKind} {status : RetryStatus} (h : o.fault = .faulted k status) :
    (disableOut o).fault = .faulted k .held := by
  cases status <;> simp [disableOut, h]

/-- The channels of a set enabled or disabled, before the end of the taking. -/
def channelsEnabled (v : Bool) (cs : ChannelSet) (s : State) : State := forEach (members cs) (enableChannel v) s

section Enabled

variable (v : Bool) (cs : ChannelSet) (s : State)

theorem channelsEnabled_set : ChannelsSet (enabledTo v) (members cs) s (channelsEnabled v cs s) :=
  ChannelsSet.forEach (fun ch u => ChannelsSet.sync (enabledTo v) ch u) (nodup_members cs) s

theorem channelsEnabled_ports : (channelsEnabled v cs s).ports = s.ports :=
  forEach_keeps State.ports (members cs) (enableChannel v) (fun _ _ => rfl) s

theorem channelsEnabled_watches : (channelsEnabled v cs s).watches = s.watches :=
  forEach_keeps State.watches (members cs) (enableChannel v) (fun _ _ => rfl) s

theorem channelsEnabled_inside {ch : Channel} (h : inSet cs ch = true) :
    (channelsEnabled v cs s).out ch = enabledTo v (s.out ch) :=
  ((channelsEnabled_set v cs s).out ch).trans (if_pos (mem_members.mpr h))

theorem channelsEnabled_outside {ch : Channel} (h : inSet cs ch = false) :
    (channelsEnabled v cs s).out ch = s.out ch :=
  ((channelsEnabled_set v cs s).out ch).trans (if_neg fun hm => by simp [mem_members.mp hm] at h)

theorem channelsEnabled_keeps (ch : Channel) : ((channelsEnabled v cs s).out ch).retry = (s.out ch).retry ∧
    ((channelsEnabled v cs s).out ch).manual = (s.out ch).manual := by
  rw [(channelsEnabled_set v cs s).out]
  split
  · exact (enabledTo_keeps v _).2
  · exact ⟨rfl, rfl⟩

theorem channelsEnabled_port (q : Port) : (channelsEnabled v cs s).port q = s.port q := by
  rw [State.port, channelsEnabled_ports]
  rfl

end Enabled

theorem channelEnableBody_refused {s : State} {p : Port} (h : arg s p 0 = 0 ∨ 1 < argNat s p 1) :
    channelEnableBody p s = refuse .badArgument 0 s := by
  unfold channelEnableBody
  split
  · next v hv =>
    rcases h with hzero | hcode
    · rw [if_pos hzero]
    · rw [flagOf, twoValued_eq_none.mpr hcode] at hv
      cases hv
  · rfl

theorem channelEnableBody_done {s : State} {p : Port} {v : Bool} (hset : arg s p 0 ≠ 0)
    (hv : flagOf (argNat s p 1) = some v) :
    channelEnableBody p s = done none ((members (arg s p 0)).filter fun ch => (s.out ch).enabled != v).length
      (settle .demand (channelsEnabled v (arg s p 0) s)) := by
  unfold channelEnableBody
  rw [hv]
  exact if_neg hset

/-! ### CHANNEL_REARM_MODE -/

/-- The rearm mode of the channels of a set (R168). -/
def modesSet (v : Bool) (cs : ChannelSet) (s : State) : State :=
  forEach (members cs) (fun ch s => s.modOut ch fun o => { o with manual := v }) s

theorem modesSet_frame (v : Bool) (cs : ChannelSet) (s : State) :
    modesSet v cs s = { s with outs := (modesSet v cs s).outs } :=
  forEach_preserves (fun u => u = { s with outs := u.outs }) _ _ (fun _ _ h => by rw [h]; rfl) s rfl

theorem modesSet_out (v : Bool) (cs : ChannelSet) (s : State) (ch : Channel) :
    (modesSet v cs s).out ch = if inSet cs ch = true then { s.out ch with manual := v } else s.out ch := by
  rw [modesSet, forEach_at State.out _ (fun ch s => { s.out ch with manual := v })
    (fun ch s => by rw [State.out_modOut, if_pos rfl]) (fun ch j s hj => by rw [State.out_modOut, if_neg hj])
    (fun ch j s hj => by simp only [State.out_modOut, if_neg hj]) _ (nodup_members cs)]
  simp only [mem_members]

theorem channelRearmModeBody_refused {s : State} {p : Port} (h : arg s p 0 = 0 ∨ 1 < argNat s p 1) :
    channelRearmModeBody p s = refuse .badArgument 0 s := by
  unfold channelRearmModeBody
  split
  · next v hv =>
    rcases h with hzero | hcode
    · rw [if_pos hzero]
    · rw [flagOf, twoValued_eq_none.mpr hcode] at hv
      cases hv
  · rfl

theorem channelRearmModeBody_done {s : State} {p : Port} {v : Bool} (hset : arg s p 0 ≠ 0)
    (hv : flagOf (argNat s p 1) = some v) :
    channelRearmModeBody p s = done none (members (arg s p 0)).length (modesSet v (arg s p 0) s) := by
  unfold channelRearmModeBody
  rw [hv]
  exact if_neg hset

/-! ### FAULT_REARM -/

theorem rearmChannel_set (ch : Channel) (s : State) : ChannelsSet rearm [ch] s (rearmChannel ch s) := by
  have hset := ChannelsSet.sync rearm ch s
  unfold rearmChannel
  dsimp only
  split
  · exact hset.faultEvent ch .ready
  · exact hset

/-- One channel rearmed hands FAULT READY where it was FAULTED (R173). -/
theorem rearmChannel_port (ch : Channel) (s : State) (q : Port) : (rearmChannel ch s).port q =
    if isFaulted (s.out ch) then (fireWatches .fault ch.val (.fault ch .ready) s).port q else s.port q := by
  unfold rearmChannel
  dsimp only
  split
  · rw [faultEvent, fireWatches_port, fireWatches_port]
    rfl
  · rfl

theorem rearmChannel_watchesOf (ch : Channel) (s : State) (q : Port) (x : WatchKind) :
    watchesOf (rearmChannel ch s) q x = if isFaulted (s.out ch) then
      watchesOf (fireWatches .fault ch.val (.fault ch .ready) s) q x else watchesOf s q x := by
  unfold rearmChannel
  dsimp only
  split
  · rw [faultEvent, fireWatches_watchesOf, fireWatches_watchesOf]
    rfl
  · rfl

theorem rearmChannel_watch (ch : Channel) (s : State) (w : WatchNo) : (rearmChannel ch s).watch w =
    if isFaulted (s.out ch) then spentBy .fault [ch] (s.watch w) else s.watch w := by
  unfold rearmChannel
  dsimp only
  split
  · rw [faultEvent, fireWatches_watch]
    rfl
  · rfl

theorem rearmChannel_results (ch : Channel) (s : State) : SameResults s (rearmChannel ch s) := by
  have hsynced : SameResults s (syncChannel ch (s.modOut ch rearm)) := .of_ports rfl
  unfold rearmChannel
  dsimp only
  split
  · exact hsynced.trans (fireWatches_results .fault ch.val (.fault ch .ready) _)
  · exact hsynced

/-- What is left to be rearmed stands as it stood before the first rearming. -/
def Unrearmed (s : State) (l : List Channel) (u : State) : Prop := l.Nodup ∧ ∀ ch ∈ l, u.out ch = s.out ch

theorem Unrearmed.head {s u : State} {l : List Channel} {ch : Channel} (h : Unrearmed s (ch :: l) u) :
    u.out ch = s.out ch := h.2 ch List.mem_cons_self

theorem Unrearmed.tail {s u : State} {l : List Channel} {ch : Channel} (h : Unrearmed s (ch :: l) u) :
    Unrearmed s l (rearmChannel ch u) := by
  obtain ⟨hnodup, hsame⟩ := h
  obtain ⟨hch, hl⟩ := List.nodup_cons.mp hnodup
  refine ⟨hl, fun i hi => ?_⟩
  have hne : i ∉ [ch] := fun h => hch (List.mem_singleton.mp h ▸ hi)
  rw [(rearmChannel_set ch u).out, if_neg hne]
  exact hsame i (List.mem_cons_of_mem ch hi)

/-- The channels of a list rearmed one after another, before the end of the taking (R173). -/
def channelsRearmed (l : List Channel) (s : State) : State := forEach l rearmChannel s

section Rearmed

variable {l : List Channel} (s : State)

theorem channelsRearmed_set (hl : l.Nodup) : ChannelsSet rearm l s (channelsRearmed l s) :=
  ChannelsSet.forEach rearmChannel_set hl s

theorem channelsRearmed_results (l : List Channel) : SameResults s (channelsRearmed l s) :=
  forEach_results l rearmChannel rearmChannel_results s

theorem channelsRearmed_queued (hl : l.Nodup) (q : Port) :
    Queued (readyTold q l s) (s.port q) ((channelsRearmed l s).port q) ∧
    ((channelsRearmed l s).port q).kindMask = (s.port q).kindMask := by
  have htold := forEach_told .fault (fun ch => .fault ch .ready) (fun ch => isFaulted (s.out ch)) rearmChannel
    (Unrearmed s) (fun ch l u hu => ⟨hu.tail, fun q => by rw [rearmChannel_port, hu.head],
      fun q x => by rw [rearmChannel_watchesOf, hu.head]⟩) l s ⟨hl, fun _ _ => rfl⟩ q
  exact ⟨htold.1, htold.2.1⟩

theorem channelsRearmed_watch (hl : l.Nodup) (w : WatchNo) :
    (channelsRearmed l s).watch w = spentBy .fault (l.filter fun ch => isFaulted (s.out ch)) (s.watch w) :=
  forEach_spent .fault (fun ch => isFaulted (s.out ch)) rearmChannel (Unrearmed s)
    (fun ch l u hu => ⟨hu.tail, fun w => by rw [rearmChannel_watch, hu.head]⟩) l s ⟨hl, fun _ _ => rfl⟩ w

end Rearmed

theorem channelsRearmed_keeps {l : List Channel} (hl : l.Nodup) (s : State) (ch : Channel) :
    ((channelsRearmed l s).out ch).enabled = (s.out ch).enabled ∧
    ((channelsRearmed l s).out ch).manual = (s.out ch).manual := by
  rw [(channelsRearmed_set s hl).out]
  split <;> exact ⟨rfl, rfl⟩

theorem isFaulted_eq (o : OutChannel) : isFaulted o = decide (o.fault ≠ .ready) := by
  rw [Bool.eq_iff_iff]
  simp [isFaulted]

theorem faultRearmBody_refused {s : State} {p : Port} (h : arg s p 0 = 0) :
    faultRearmBody p s = refuse .badArgument 0 s := if_pos h

theorem faultRearmBody_done {s : State} {p : Port} (h : arg s p 0 ≠ 0) : faultRearmBody p s =
    done none ((members (arg s p 0)).filter fun ch => decide ((s.out ch).fault ≠ .ready)).length
      (settle .demand (channelsRearmed (members (arg s p 0)) s)) := by
  have hcount : faultedCount s (members (arg s p 0)) =
      ((members (arg s p 0)).filter fun ch => decide ((s.out ch).fault ≠ .ready)).length := by
    simp only [faultedCount, isFaulted_eq]
  rw [← hcount]
  exact if_neg h

/-! ### The obligation -/

/-- Settles O48: the channels set one after another, and the end of the taking with its answer. -/
theorem channelCommandsSetChannels : Obligations.ChannelCommandsSetChannels := by
  intro p s htaken hs
  refine ⟨fun h => ⟨?enableRefused, ?modeRefused⟩, fun h => ?rearmRefused, fun v hset hv => ⟨?enabled, ?mode⟩,
    fun hset => ?rearmed⟩
  case enableRefused =>
    exact congrArg Host.Outcome.next (takeCommand_refused htaken (channelEnableBody_refused h) (by decide))
  case modeRefused =>
    exact congrArg Host.Outcome.next (takeCommand_refused htaken (channelRearmModeBody_refused h) (by decide))
  case rearmRefused =>
    exact congrArg Host.Outcome.next (takeCommand_refused htaken (faultRearmBody_refused h) (by decide))
  case enabled =>
    have hu := channelsEnabled_set v (arg s p 0) s
    have hin := fun ch => channelsEnabled_inside v (arg s p 0) s (ch := ch)
    have hout := fun ch => channelsEnabled_outside v (arg s p 0) s (ch := ch)
    have hkeeps := channelsEnabled_keeps v (arg s p 0) s
    have hport := channelsEnabled_port v (arg s p 0) s
    have hresults : SameResults s (channelsEnabled v (arg s p 0) s) := .of_ports (channelsEnabled_ports ..)
    have hwatches := channelsEnabled_watches v (arg s p 0) s
    refine ⟨_, congrArg Host.Outcome.next (takeCommand_done htaken (channelEnableBody_done hset hv)), ?_⟩
    generalize channelsEnabled v (arg s p 0) s = u at *
    generalize ((members (arg s p 0)).filter fun ch => (s.out ch).enabled != v).length = n
    refine ⟨fun ch h => ?outside,
      fun ch h => ⟨?enable, fun hon => ?on, fun hoff => ⟨?clean, fun k status hfault => ?held⟩, fun hoff hready => ?ready⟩,
      fun ch => ?keeps, hu.answered_reopened hs p n, hu.follows.accepted p none n, fun q => ?queued,
      acceptedState_accepted (hresults.trans (settle_results .demand u)),
      acceptedState_others (hresults.trans (settle_results .demand u)), ?frame⟩
    case outside =>
      rw [acceptedState_out, settle_enabled, settle_fault, hout ch h]
      exact ⟨rfl, rfl⟩
    case enable =>
      rw [acceptedState_out, settle_enabled, hin ch h]
      exact (enabledTo_keeps v _).1
    case on =>
      rw [acceptedState_out, settle_fault, hin ch h, hon]
      rfl
    case clean =>
      rw [acceptedState_out]
      by_contra hruns
      obtain ⟨-, henabled, -, -⟩ := settle_cleanInv .demand u ch hruns
      rw [settle_enabled, hin ch h, (enabledTo_keeps v _).1, hoff] at henabled
      cases henabled
    case held =>
      rw [acceptedState_out, settle_fault, hin ch h, hoff]
      exact disableOut_faulted hfault
    case ready =>
      rw [acceptedState_out, settle_fault, hin ch h, hoff]
      exact disableOut_ready hready
    case keeps =>
      rw [acceptedState_out, settle_retry, settle_manual]
      exact hkeeps ch
    case queued =>
      exact answered_queued hu.output_eq p q n (by rw [hport]; exact .refl _) (by rw [hport])
    case frame =>
      have hframe := hu.answered_frame p n
      rw [acceptedState_watches, settle_watches, hwatches] at hframe
      exact hframe
  case mode =>
    refine ⟨(modesSet v (arg s p 0) s).outs, ?_, modesSet_out v (arg s p 0) s⟩
    rw [← modesSet_frame]
    exact congrArg Host.Outcome.next (takeCommand_done htaken (channelRearmModeBody_done hset hv))
  case rearmed =>
    have hnodup := nodup_members (arg s p 0)
    have hu := channelsRearmed_set s hnodup
    have hqueued := channelsRearmed_queued s hnodup
    have hresults := channelsRearmed_results s (members (arg s p 0))
    have hwatch := channelsRearmed_watch s hnodup
    have hkeeps := channelsRearmed_keeps hnodup s
    refine ⟨_, congrArg Host.Outcome.next (takeCommand_done htaken (faultRearmBody_done hset)), ?_⟩
    generalize channelsRearmed (members (arg s p 0)) s = u at *
    generalize ((members (arg s p 0)).filter fun ch => decide ((s.out ch).fault ≠ .ready)).length = n
    have hin : ∀ ch, inSet (arg s p 0) ch = true → u.out ch = rearm (s.out ch) := fun ch h =>
      (hu.out ch).trans (if_pos (mem_members.mpr h))
    refine ⟨fun ch h => ⟨?fault, ?count, ?clean⟩, fun ch h => ?outside, fun ch => ?keeps, hu.answered_reopened hs p n,
      hu.follows.accepted p none n, fun q => answered_queued hu.output_eq p q n (hqueued q).1 (hqueued q).2,
      fun w => ?watches, acceptedState_accepted (hresults.trans (settle_results .demand u)),
      acceptedState_others (hresults.trans (settle_results .demand u)), hu.answered_frame p n⟩
    case fault => rw [acceptedState_out, settle_fault, hin ch h]; rfl
    case count => rw [acceptedState_out, settle_retry, hin ch h]; rfl
    case clean =>
      rw [acceptedState_out]
      by_contra hruns
      obtain ⟨-, -, -, hcount⟩ := settle_cleanInv .demand u ch hruns
      rw [settle_retry, hin ch h] at hcount
      exact absurd hcount (by simp [rearm])
    case outside =>
      have hsame : u.out ch = s.out ch := (hu.out ch).trans (if_neg fun hm => by simp [mem_members.mp hm] at h)
      rw [acceptedState_out, settle_fault, settle_retry, hsame]
      exact ⟨rfl, rfl⟩
    case keeps =>
      rw [acceptedState_out, settle_enabled, settle_manual]
      exact hkeeps ch
    case watches => rw [acceptedState_watch, settle_watch, hwatch]

end Sys2Proof.Machine

namespace Sys2Proof.Machine

/-! ## The lamp test (R143, R144, R146, R147, R156) -/

/-! ### LAMP_TEST -/

theorem lampTestBody_badArgument {s : State} {p : Port} (h : argNat s p 1 = 0 ∨ 30 < argNat s p 1) :
    lampTestBody p s = refuse .badArgument 0 s := if_pos h

section Started

variable {s : State} {p : Port} (hpos : 0 < argNat s p 1) (hlimit : argNat s p 1 ≤ 30)

include hpos hlimit

theorem lampTestBody_wrongState
    (h : s.output.hold = true ∨ s.output.stage = .recovery ∨ s.output.stage = .latched) :
    lampTestBody p s = refuse .wrongState 0 s := by
  have hlength : ¬ (argNat s p 1 = 0 ∨ 30 < argNat s p 1) := by omega
  unfold lampTestBody
  rw [if_neg hlength, if_pos h]

theorem lampTestBody_done (hhold : s.output.hold = false) (hrecovery : s.output.stage ≠ .recovery)
    (hlatched : s.output.stage ≠ .latched) : lampTestBody p s = done none (if s.lampTest = none then 0 else 1)
      (settle .demand (s.setLampTest (some (s.now + 1000 * argNat s p 1)))) := by
  have hlength : ¬ (argNat s p 1 = 0 ∨ 30 < argNat s p 1) := by omega
  have hstate : ¬ (s.output.hold = true ∨ s.output.stage = .recovery ∨ s.output.stage = .latched) := by
    simp [hhold, hrecovery, hlatched]
  have hcount : (if s.lampTest.isSome then 1 else 0) = if s.lampTest = none then 0 else 1 := by
    cases s.lampTest <;> rfl
  unfold lampTestBody
  rw [if_neg hlength, if_neg hstate, hcount]

end Started

/-- A running lamp test is demand wherever commands are taken (R156). -/
theorem demandNow_of_lampTest {s : State} {ends : Instant} (hstage : refusesCommands s.output.stage = false) :
    demandNow (s.setLampTest (some ends)) = true := by
  have hpast : s.output.stage ≠ .off ∧ s.output.stage ≠ .init := by
    constructor <;> intro h <;> simp [h, refusesCommands] at hstage
  exact (demandNow_iff _).mpr ⟨hpast.1, hpast.2, Or.inl (Option.some_ne_none ends)⟩

theorem settle_stage (c : Cause) (s : State) :
    (settle c s).output.stage = if mayStart s then .softstart else s.output.stage := by
  cases h : mayStart s with
  | true => rw [settle_starts_output c h]; rfl
  | false => rw [settle_stays_output c h]; rfl

theorem withDemand_standbyEnd {o : OutputStage} (h : o.stage = .active) (now : Instant) :
    (withDemand now true o).standbyEnd = none := by simp [withDemand, delayAfter, h]

theorem mayStart_of_lampTest {s : State} {ends : Instant} (hstage : refusesCommands s.output.stage = false)
    (hhold : s.output.hold = false) : mayStart (s.setLampTest (some ends)) = true ↔
      s.output.stage = .standby ∧ s.output.supply.forcing = false := by
  rw [mayStart_iff]
  exact ⟨fun ⟨hstandby, _, _, hforcing⟩ => ⟨hstandby, hforcing⟩,
    fun ⟨hstandby, hforcing⟩ => ⟨hstandby, demandNow_of_lampTest hstage, hhold, hforcing⟩⟩

section Answer

variable {s : State} (ends : Instant)

theorem lampTest_stage_of_standby (htakes : refusesCommands s.output.stage = false) (hhold : s.output.hold = false)
    (h : s.output.stage = .standby) : (settle .demand (s.setLampTest (some ends))).output.stage =
      if s.output.supply.forcing then .standby else .softstart := by
  have hstart := mayStart_of_lampTest (ends := ends) htakes hhold
  rw [settle_stage]
  cases hforcing : s.output.supply.forcing with
  | true => rw [if_neg fun hm => by simp [(hstart.mp hm).2] at hforcing]; exact h
  | false => rw [if_pos (hstart.mpr ⟨h, hforcing⟩)]; rfl

theorem lampTest_stays (h : s.output.stage ≠ .standby) : mayStart (s.setLampTest (some ends)) = false :=
  mayStart_of_stage h

theorem lampTest_stage_of_other (h : s.output.stage ≠ .standby) :
    (settle .demand (s.setLampTest (some ends))).output.stage = s.output.stage := by
  rw [settle_stage, if_neg (by simp [lampTest_stays ends h])]
  rfl

theorem lampTest_standbyEnd (htakes : refusesCommands s.output.stage = false) (h : s.output.stage = .active) :
    (settle .demand (s.setLampTest (some ends))).output.standbyEnd = none := by
  have hstandby : s.output.stage ≠ .standby := fun k => by simp [k] at h
  rw [settle_stays_output .demand (lampTest_stays ends hstandby), demandNow_settle, demandNow_of_lampTest htakes]
  exact withDemand_standbyEnd h _

theorem lampTest_chan (ch : Channel) : ChanIs (s.chan ch) s (settle .demand (s.setLampTest (some ends))) ch :=
  settle_chan .demand (s.setLampTest (some ends)) ch

theorem lampTest_follows : StageFollows (s.setLampTest (some ends)) (settle .demand (s.setLampTest (some ends))) :=
  settle_follows rfl rfl

end Answer

/-! ### The expiry -/

/-- The end fades begun on the open channels, the lamp test ended (R146). -/
def endFadesBegun (s : State) : State :=
  forEach (indexes 16) (fun ch s => s.modChan ch (endFade (isOpen s ch) s.now)) (s.setLampTest none)

theorem lampTestExpires_due {s : State} {ends : Instant} (h : s.lampTest = some ends) (hdue : ends ≤ s.now) :
    lampTestExpires s = settle .demand (endFadesBegun s) := by
  rw [lampTestExpires, h, if_pos (dueAt_some hdue)]
  rfl

theorem endFadesBegun_frame (s : State) :
    endFadesBegun s = { s with lampTest := none, modulator := (endFadesBegun s).modulator } :=
  forEach_preserves (fun u => u = { s with lampTest := none, modulator := u.modulator }) _ _
    (fun _ _ h => by rw [h]; rfl) _ rfl

theorem endFadesBegun_chan (s : State) (ch : Channel) :
    (endFadesBegun s).chan ch = endFade (isOpen s ch) s.now (s.chan ch) := by
  rw [endFadesBegun, forEach_at State.chan _ (fun ch s => endFade (isOpen s ch) s.now (s.chan ch))
    (fun ch s => by rw [State.chan_modChan, if_pos rfl]) (fun ch j s hj => by rw [State.chan_modChan, if_neg hj])
    (fun ch j s hj => by rw [State.chan_modChan, if_neg hj]; rfl) _ (nodup_indexes 16), if_pos (mem_indexes ch)]
  rfl

theorem endFadesBegun_modulator_inv {s : State} (hs : ModulatorInv s) : ModulatorInv (endFadesBegun s) :=
  forEach_preserves ModulatorInv _ _ endFade_modulator_inv _ (hs.beside rfl rfl rfl rfl)

theorem endFadesBegun_output (s : State) : (endFadesBegun s).output = s.output := by rw [endFadesBegun_frame]

theorem endFadesBegun_now (s : State) : (endFadesBegun s).now = s.now := by rw [endFadesBegun_frame]

theorem endFadesBegun_port (s : State) (p : Port) : (endFadesBegun s).port p = s.port p := by
  have hframe := endFadesBegun_frame s
  generalize endFadesBegun s = u at hframe ⊢
  rw [hframe]
  rfl

theorem endFadesBegun_out (s : State) (ch : Channel) : (endFadesBegun s).out ch = s.out ch := by
  have hframe := endFadesBegun_frame s
  generalize endFadesBegun s = u at hframe ⊢
  rw [hframe]
  rfl

/-- Demand does not read the fades (R156). -/
theorem endFadesBegun_demand (s : State) : demandNow (endFadesBegun s) = demandNow { s with lampTest := none } := by
  have hframe := endFadesBegun_frame s
  generalize endFadesBegun s = u at hframe ⊢
  rw [hframe]
  rfl

theorem endFade_open (now : Instant) (m : ModChannel) : endFade true now m = { m with
    fade := if fadeTime m.defaultIndex = 0 ∨ m.target = 3072 then .settled
      else .fading 3072 (fadeTime m.defaultIndex) now m.defaultShape } := by
  simp only [endFade, if_true, beginFade, testLevel, eq_comm (a := (3072 : Level))]

theorem endFade_closed (now : Instant) (m : ModChannel) : endFade false now m = m := rfl

/-- In STANDBY every channel is closed, and no end fade begins (R146). -/
theorem endFadesBegun_modulator_of_standby {s : State} (h : s.output.stage = .standby) :
    (endFadesBegun s).modulator = s.modulator :=
  table_ext fun ch => by
    have hclosed : isOpen s ch = false := by simp [isOpen, h]
    have hchan := endFadesBegun_chan s ch
    rw [hclosed, endFade_closed] at hchan
    exact hchan

theorem endFadesBegun_settle_frame (s : State) : settle .demand (endFadesBegun s) = { s with
    lampTest := none, modulator := (settle .demand (endFadesBegun s)).modulator,
    output := (settle .demand (endFadesBegun s)).output, outs := (settle .demand (endFadesBegun s)).outs,
    ports := (settle .demand (endFadesBegun s)).ports } := by
  have hframe := settle_frame .demand (endFadesBegun s)
  generalize settle .demand (endFadesBegun s) = t at hframe ⊢
  rw [endFadesBegun_frame] at hframe
  exact hframe

/-! ### The obligation -/

/-- Settles O40: the command by its checks, and the expiry by whether the stage may move. -/
theorem lampTestStartsAndExpires : Obligations.LampTestStartsAndExpires := by
  refine ⟨fun p s htaken => ⟨fun h => ?badArgument, fun hpos hlimit => ⟨fun h => ?wrongState,
      fun hhold hrecovery hlatched => ?started⟩⟩,
    fun s ends hends hdue hstage => ?expiry, fun s ends hs hends hdue hstandby => ?inStandby⟩
  case badArgument =>
    exact congrArg Host.Outcome.next (takeCommand_refused htaken (lampTestBody_badArgument h) (by decide))
  case wrongState =>
    exact congrArg Host.Outcome.next (takeCommand_refused htaken (lampTestBody_wrongState hpos hlimit h) (by decide))
  case started =>
    have hbody := lampTestBody_done hpos hlimit hhold hrecovery hlatched
    refine ⟨_, congrArg Host.Outcome.next (takeCommand_done htaken hbody), ?_⟩
    generalize s.now + 1000 * argNat s p 1 = ends
    generalize (if s.lampTest = none then 0 else 1) = n
    have htest : (settle .demand (s.setLampTest (some ends))).lampTest = some ends :=
      settle_lampTest .demand (s.setLampTest (some ends))
    have hframe := settle_frame .demand (s.setLampTest (some ends))
    have hdemand := settle_demand .demand (s.setLampTest (some ends))
    rw [demandNow_of_lampTest htaken.stage] at hdemand
    have hfollows := lampTest_follows (s := s) ends
    have hstandby := lampTest_stage_of_standby ends htaken.stage hhold
    have hother := lampTest_stage_of_other (s := s) ends
    have hactive := lampTest_standbyEnd ends htaken.stage
    have hchan := lampTest_chan (s := s) ends
    have hqueued := fun q => answered_queued (s := s) (u := s.setLampTest (some ends)) rfl p q n (.refl _) rfl
    have hresults : SameResults s (settle .demand (s.setLampTest (some ends))) :=
      settle_results .demand (s.setLampTest (some ends))
    have hkept := settle_kept .demand (s.setLampTest (some ends))
    generalize settle .demand (s.setLampTest (some ends)) = t at *
    refine ⟨htest, hdemand, ?follows, hstandby, hother, hactive, hchan, hqueued, (congrArg State.watches hframe :),
      acceptedState_accepted hresults, acceptedState_others hresults, ?kept, (congrArg State.pool hframe :),
      (congrArg State.resolver hframe :), (congrArg State.access hframe :), (congrArg State.scenes hframe :),
      (congrArg State.players hframe :), (congrArg State.lines hframe :)⟩
    case follows =>
      rw [acceptedState_lampTest, htest]
      exact hfollows.accepted p none n
    case kept =>
      rw [acceptedState_lampTest, htest]
      exact hkept.trans (acceptedState_kept p none n t)
  case expiry =>
    have hstays : mayStart (endFadesBegun s) = false := mayStart_of_stage (by rw [endFadesBegun_output]; exact hstage)
    have hframe := endFadesBegun_settle_frame s
    have houtput := settle_stays_output .demand hstays
    have hchan : ∀ ch, (settle .demand (endFadesBegun s)).chan ch = endFade (isOpen s ch) s.now (s.chan ch) := fun ch => by
      rw [State.chan, settle_stays_modulator .demand hstays]
      exact endFadesBegun_chan s ch
    have hports : (settle .demand (endFadesBegun s)).ports = s.ports := by
      rw [settle_stays_ports .demand hstays, endFadesBegun_frame]
    have hout := fun ch => settle_out .demand (endFadesBegun s) ch
    refine ⟨_, congrArg Host.Outcome.next (lampTestExpires_due hends hdue), ?_⟩
    simp only [endFadesBegun_output, endFadesBegun_now] at houtput
    simp only [endFadesBegun_out] at hout
    generalize settle .demand (endFadesBegun s) = t at *
    rw [hports] at hframe
    refine ⟨congrArg State.lampTest hframe, fun ch hopen => ?_, fun ch hclosed => ?_, houtput, hframe, hout⟩
    · rw [hchan, hopen, endFade_open]
    · rw [hchan, hclosed, endFade_closed]
  case inStandby =>
    have hframe := endFadesBegun_settle_frame s
    have hmodulator : (settle .demand (endFadesBegun s)).modulator = s.modulator := by
      rw [← endFadesBegun_modulator_of_standby hstandby]
      exact table_ext (settle_chan_of_inv .demand (endFadesBegun_modulator_inv hs))
    have hdemand : demandNow (settle .demand (endFadesBegun s)) = demandNow { s with lampTest := none } := by
      rw [demandNow_settle, endFadesBegun_demand]
    have hstart : mayStart (endFadesBegun s) =
        (demandNow { s with lampTest := none } && !s.output.hold && !s.output.supply.forcing) := by
      rw [mayStart, endFadesBegun_output, endFadesBegun_demand, hstandby]
      exact Bool.true_and _
    have hout := fun ch => settle_out .demand (endFadesBegun s) ch
    have hport := fun p => settle_port .demand (endFadesBegun s) p
    have hinactive : (settle .demand (endFadesBegun s)).output.stage ≠ .active := by
      rw [settle_stage, endFadesBegun_output, hstandby]
      split <;> decide
    have hclean := settle_cleanEnd_none .demand hinactive
    have houtput : (settle .demand (endFadesBegun s)).output = if mayStart (endFadesBegun s) then
        { s.output.idle with
          stage := .softstart, lastCause := .demand, softEnd := some (s.now + 20), demand := true }
        else { s.output with demand := demandNow (settle .demand (endFadesBegun s)) } := by
      have hoff : (endFadesBegun s).output.stage ≠ .active := by
        rw [endFadesBegun_output, hstandby]
        decide
      cases hm : mayStart (endFadesBegun s) with
      | true => rw [settle_starts_output .demand hm, endFadesBegun_output, endFadesBegun_now]; rfl
      | false => rw [settle_stays_output .demand hm, withDemand_outside_active hoff, endFadesBegun_output]; rfl
    refine ⟨_, congrArg Host.Outcome.next (lampTestExpires_due hends hdue), ?_⟩
    simp only [hstart, endFadesBegun_port] at hport
    simp only [hclean, endFadesBegun_out] at hout
    rw [hstart] at houtput
    generalize settle .demand (endFadesBegun s) = t at *
    rw [hmodulator] at hframe
    refine ⟨hmodulator, hdemand, houtput, fun p => ?_, hframe, hout⟩
    rw [hport]
    split
    · exact Queued.offer _ _
    · exact Queued.refl _

end Sys2Proof.Machine

namespace Sys2Proof.Machine

/-! ## Takings beside the output stage

A property of the output stage, of its channels and of the notice queues is kept by every taking of another block once it
is kept by what such takings are made of: writes beside the stage, the end of a taking, and the clean intervals. -/

/-! ### Parts of a taking that leave the output stage -/

/-- A part of a taking that writes neither the output stage nor its channels, and takes no queue past its bound (R182). -/
structure Beside (s t : State) : Prop where
  output : t.output = s.output
  outs : t.outs = s.outs
  queues : QueuesBounded s → QueuesBounded t

namespace Beside

variable {s t u : State}

theorem refl (s : State) : Beside s s := ⟨rfl, rfl, id⟩

theorem trans (h : Beside s t) (k : Beside t u) : Beside s u :=
  ⟨k.output.trans h.output, k.outs.trans h.outs, fun hs => k.queues (h.queues hs)⟩

/-- A part that writes no port either. -/
theorem of_eq (h1 : t.output = s.output) (h2 : t.outs = s.outs) (h3 : t.ports = s.ports) : Beside s t :=
  ⟨h1, h2, QueuesBounded.of_ports h3⟩

theorem forEach {ι : Type} {f : ι → State → State} (h : ∀ i s, Beside s (f i s)) (l : List ι) (s : State) :
    Beside s (forEach l f s) :=
  forEach_preserves (Beside s) l f (fun i t ht => ht.trans (h i t)) s (.refl s)

end Beside

theorem modPort_beside (p : Port) (f : PortState → PortState) (hf : ∀ q, (f q).queue <:+ q.queue) (s : State) :
    Beside s (s.modPort p f) :=
  ⟨rfl, rfl, QueuesBounded.modPort p f fun q hq => (hf q).length_le.trans hq⟩

theorem offer_beside (p : Port) (n : Notice) (s : State) : Beside s (offer p n s) :=
  ⟨rfl, rfl, offer_queues p n s⟩

theorem fireWatches_beside (k : WatchKind) (i : Nat) (n : Notice) (s : State) : Beside s (fireWatches k i n s) :=
  ⟨by simp, by simp, fireWatches_queues k i n s⟩

theorem resolveSet_beside (f : Option Handle) (e : Bool) (cs : ChannelSet) (s : State) :
    Beside s (resolveSet f e cs s) := ⟨by simp, by simp, resolveSet_queues f e cs s⟩

theorem winnerEvents_beside (cs : ChannelSet) (before s : State) : Beside s (winnerEvents cs before s) :=
  ⟨by simp, by simp, winnerEvents_queues cs before s⟩

theorem seat_beside (slot : Slot) (c : Claim) (s : State) : Beside s (seat slot c s) :=
  .of_eq (by simp) (by simp) (by simp)

theorem place_beside (slot : Slot) (c : Claim) (s : State) : Beside s (place slot c s) :=
  (seat_beside slot c s).trans (resolveSet_beside _ _ _ _)

theorem freeRecords_beside (x : FreeCause) (e : Bool) (l : List Slot) (s : State) : Beside s (freeRecords x e l s) :=
  ⟨freeRecords_output x e l s, freeRecords_outs x e l s, freeRecords_queues x e l s⟩

/-! ### Parts of the takings of the pool, the players and the lines -/

theorem handFade_beside (h : Handle) (c : Claim) (s : State) : Beside s (handFade h c s) :=
  .of_eq (handFade_keeps State.output (fun _ _ _ => rfl) h c s) (handFade_keeps State.outs (fun _ _ _ => rfl) h c s)
    (handFade_keeps State.ports (fun _ _ _ => rfl) h c s)

theorem modified_beside (p : Port) (h : Handle) (c : Claim) (s : State) : Beside s (modified p h c s) :=
  .of_eq (modified_output p h c s)
    (modified_keeps State.outs (fun _ _ _ => rfl) (fun x d u => reinsert_outs x d u) p h c s) (modified_ports p h c s)

theorem setPolicy_beside (cs : ChannelSet) (policy : Policy) (idle : Level) (s : State) :
    Beside s (setPolicy cs policy idle s) := by
  have hstored : Beside s (policyStored cs policy idle s) := by
    rw [policyStored_frame]
    exact .of_eq rfl rfl rfl
  rw [setPolicy_eq]
  exact hstored.trans (resolveSet_beside _ _ _ _)

theorem modPlayer_beside (n : PlayerNo) (f : Player → Player) (s : State) : Beside s (s.modPlayer n f) :=
  .of_eq rfl rfl rfl

theorem playerNotice_beside (n : PlayerNo) (d : PlayerDetail) (s : State) : Beside s (playerNotice n d s) := by
  unfold playerNotice
  split
  · split
    · exact offer_beside _ _ s
    · exact .refl s
  · exact .refl s

theorem beginStep_beside (n : PlayerNo) (s : State) : Beside s (beginStep n s) := by
  have hbegun := modPlayer_beside n (Player.begin s.now) s
  unfold beginStep
  dsimp only
  split
  · exact hbegun.trans (playerNotice_beside _ _ _)
  · exact hbegun

theorem finishPlayer_beside (n : PlayerNo) (s : State) : Beside s (finishPlayer n s) := by
  unfold finishPlayer
  split
  · exact (modPlayer_beside _ _ _).trans (playerNotice_beside _ _ _)
  · split
    · exact freeRecords_beside _ _ _ _
    · exact modPlayer_beside _ _ _

theorem runSteps_beside (fuel : Nat) (n : PlayerNo) (s : State) : Beside s (runSteps fuel n s) := by
  induction fuel generalizing s with
  | zero => exact .refl s
  | succ fuel ih =>
    unfold runSteps
    split
    · split
      · exact finishPlayer_beside _ _
      · exact (modPlayer_beside _ _ _).trans (playerNotice_beside _ _ _)
    · dsimp only
      split
      · exact (beginStep_beside _ _).trans (ih _)
      · exact beginStep_beside _ _

theorem runQueue_beside (n : PlayerNo) (s : State) : Beside s (runQueue n s) := runSteps_beside _ _ _

theorem handPlayerLevel_beside (e : Bool) (n : PlayerNo) (s : State) : Beside s (handPlayerLevel e n s) := by
  unfold handPlayerLevel
  split
  · exact .refl s
  · exact (modPlayer_beside _ _ _).trans (resolveSet_beside _ _ _ _)

/-- The run of a player from a write of its fields, and the level it hands. -/
theorem handedRun_beside (e : Bool) (n : PlayerNo) (f : Player → Player) (s : State) :
    Beside s (handPlayerLevel e n (runQueue n (s.modPlayer n f))) :=
  ((modPlayer_beside _ _ _).trans (runQueue_beside _ _)).trans (handPlayerLevel_beside _ _ _)

theorem runStart_beside {n : PlayerNo} {start : Player → Player} {cs : ChannelSet} {before seated placed s : State}
    (h : Beside s seated) (k : Beside s placed) : Beside s (runStart n start cs before seated placed) := by
  unfold runStart
  dsimp only
  split
  · exact h.trans ((modPlayer_beside _ _ _).trans (runQueue_beside _ _))
  · exact k.trans ((handedRun_beside _ _ _ _).trans (winnerEvents_beside _ _ _))

theorem abortPlayer_beside (x : FreeCause) (n : PlayerNo) (s : State) : Beside s (abortPlayer x n s) := by
  unfold abortPlayer
  dsimp only
  split
  · exact (freeRecords_beside _ _ _ _).trans (modPlayer_beside _ _ _)
  · exact modPlayer_beside _ _ _

theorem modLine_beside (l : Line) (f : LineState → LineState) (s : State) : Beside s (s.modLine l f) :=
  .of_eq rfl rfl rfl

theorem followActivity_beside (l : Line) (active : Bool) (s : State) : Beside s (followActivity l active s) := by
  have hturned : ∀ h c, Beside s (turned h c active s) := fun h c =>
    .of_eq (turned_keeps h c active s State.output (fun _ _ _ => rfl) (reinsert_output h c))
      (turned_keeps h c active s State.outs (fun _ _ _ => rfl) (reinsert_outs h c))
      (turned_keeps h c active s State.ports (fun _ _ _ => rfl) (reinsert_ports h c))
  unfold followActivity
  split
  · exact .refl s
  · split
    · exact .refl s
    · exact (hturned _ _).trans (resolveSet_beside _ _ _ _)

theorem placeLine_beside (l : Line) (t : Template) (slot : Slot) (s : State) : Beside s (placeLine l t slot s) :=
  (place_beside _ _ _).trans (modLine_beside _ _ _)

theorem unbindLine_beside (l : Line) (s : State) : Beside s (unbindLine l s) := by
  unfold unbindLine
  dsimp only
  split
  · exact (freeRecords_beside _ _ _ _).trans (modLine_beside _ _ _)
  · exact modLine_beside _ _ _

/-- What the end of INIT does at the lines, before the stage moves on (R124, R148). -/
theorem linesUp_beside (s : State) : Beside (standbyLines s) (linesUp s) := by
  have hrecreate : ∀ l u, Beside u (recreateLine l u) := fun l u => by
    unfold recreateLine
    split
    · exact .refl u
    · split
      · exact .refl u
      · exact placeLine_beside _ _ _ _
  have hannounce : ∀ l u, Beside u (announceLine l u) := fun l u => by
    unfold announceLine
    split
    · exact fireWatches_beside _ _ _ _
    · exact .refl u
  exact (Beside.forEach hrecreate (indexes 8) _).trans (Beside.forEach hannounce (indexes 8) _)

theorem initDone_beside (s : State) : Beside (enterStage .standby .initEnd s) (initDone s) := by
  have hdone : Beside (linesUp s) (initDone s) := by
    rw [initDone, startupTest_eq]
    generalize linesUp s = u
    exact .of_eq rfl rfl rfl
  have hlines : Beside (enterStage .standby .initEnd s) (standbyLines s) := by
    unfold standbyLines
    generalize enterStage .standby .initEnd s = u
    exact .of_eq rfl rfl rfl
  exact hlines.trans ((linesUp_beside s).trans hdone)

theorem rightsTold_beside (p : Port) (ceiling : Priority) (sceneEdit : Bool) (quota : Fin 49) (s : State) :
    Beside s (rightsTold p ceiling sceneEdit quota s) := by
  have hstored : Beside s (rightsStored p ceiling sceneEdit quota s) := .of_eq rfl rfl rfl
  unfold rightsTold
  split
  · exact hstored.trans (offer_beside _ _ _)
  · exact hstored

theorem resetPort_beside (p : Port) (s : State) : Beside s (resetPort p s) := by
  have hnotices : Beside s (resetNotices p s) :=
    Beside.trans (t := s.modWatches fun w => match w with | none => none | some e => if e.owner = p then none else some e)
      (.of_eq rfl rfl rfl) (modPort_beside p _ (fun _ => List.nil_suffix) _)
  have hfreed : Beside s (portFreed p s) := hnotices.trans (freeRecords_beside _ _ _ _)
  have hplayers : Beside (portFreed p s) (freePlayers p (portFreed p s)) :=
    Beside.forEach (fun n u => modPlayer_beside n _ u) (indexes 2) _
  rw [resetPort_steps]
  exact (hfreed.trans hplayers).trans (modPort_beside p clearRegisters (fun _ => List.suffix_refl _) _)

end Sys2Proof.Machine

namespace Sys2Proof.Machine

/-! ### What the takings beside the stage keep -/

/-- A property that writes beside the output stage, the end of a taking and the clean intervals keep. -/
structure KeptBeside (P : State → Prop) : Prop where
  beside : ∀ s t, Beside s t → P s → P t
  settle : ∀ c s, P s → P (settle c s)
  cleanChannels : ∀ s, P s → P (cleanChannels s)

namespace KeptBeside

variable {P : State → Prop}

/-- A part beside the stage, and the end of the taking. -/
theorem settled (h : KeptBeside P) {s u : State} (k : Beside s u) (c : Cause) (hs : P s) : P (Machine.settle c u) :=
  h.settle c u (h.beside s u k hs)

/-- A part beside the stage after which the output levels alone are followed (R172). -/
theorem cleaned (h : KeptBeside P) {s u : State} (k : Beside s u) (hs : P s) : P (Machine.cleanChannels u) :=
  h.cleanChannels u (h.beside s u k hs)

theorem modLine (h : KeptBeside P) (l : Line) (f : LineState → LineState) {s : State} (hs : P s) : P (s.modLine l f) :=
  h.beside _ _ (modLine_beside l f s) hs

theorem modPlayer (h : KeptBeside P) (n : PlayerNo) (f : Player → Player) {s : State} (hs : P s) : P (s.modPlayer n f) :=
  h.beside _ _ (modPlayer_beside n f s) hs

/-! ### Commands of the claim pool -/

theorem placeForPort (h : KeptBeside P) (p : Port) (bad : Option ResultCode) (c : Claim) (s : State) (hs : P s) :
    P (placeForPort p bad c s).1 := by
  unfold Machine.placeForPort
  split
  · exact hs
  · exact h.settled (place_beside _ _ _) _ hs

theorem modifyBody (h : KeptBeside P) (p : Port) (s : State) (hs : P s) : P (modifyBody p s).1 := by
  have happlied : ∀ x c, P (applyModify p x c s) := fun x c => by
    have hm := modified_beside p x c s
    obtain ⟨faded, hrun⟩ | hrun | hrun := applyModify_cases p x c s
    · rw [hrun]; exact h.settled (hm.trans (resolveSet_beside _ _ _ _)) _ hs
    · rw [hrun]; exact h.settled (hm.trans (handFade_beside _ _ _)) _ hs
    · rw [hrun]; exact h.beside _ _ hm hs
  unfold Machine.modifyBody
  split
  · exact hs
  · split
    · exact hs
    · split_ifs
      · exact hs
      · exact hs
      · exact hs
      · exact happlied _ _

theorem withdrawBody (h : KeptBeside P) (p : Port) (s : State) (hs : P s) : P (withdrawBody p s).1 := by
  unfold Machine.withdrawBody
  split
  · exact hs
  · split
    · exact hs
    · split
      · exact hs
      · exact h.settled (freeRecords_beside _ _ _ _) _ hs

theorem withdrawAllBody (h : KeptBeside P) (p : Port) (s : State) (hs : P s) : P (withdrawAllBody p s).1 := by
  unfold Machine.withdrawAllBody
  split
  · exact hs
  · exact h.settled (freeRecords_beside _ _ _ _) _ hs

theorem leaseExpires (h : KeptBeside P) (slot : Slot) (s : State) (hs : P s) : P (leaseExpires slot s) := by
  unfold Machine.leaseExpires
  split
  · exact h.settled (freeRecords_beside _ _ _ _) _ hs
  · exact hs

theorem renewBody (h : KeptBeside P) (p : Port) (s : State) (hs : P s) : P (renewBody p s).1 :=
  h.beside _ _ (Beside.forEach (f := fun slot u => u.modRecord slot (restartLease u.now)) (fun _ _ => .of_eq rfl rfl rfl)
    (ownLeased p s) s) hs

theorem channelPolicyBody (h : KeptBeside P) (p : Port) (s : State) (hs : P s) : P (channelPolicyBody p s).1 := by
  unfold Machine.channelPolicyBody
  split
  · split
    · exact hs
    · exact h.settled (setPolicy_beside _ _ _ _) _ hs
  · exact hs

theorem editScene (h : KeptBeside P) (n : SceneNo) (levels : Vector (Option Level) 16) (s : State) (hs : P s) :
    P (editScene n levels s).1 := by
  unfold Machine.editScene
  split
  · exact hs
  · exact h.beside s _ (.of_eq rfl rfl rfl) hs

theorem scenePutBody (h : KeptBeside P) (p : Port) (s : State) (hs : P s) : P (scenePutBody p s).1 := by
  unfold Machine.scenePutBody
  split
  · exact h.editScene _ _ _ hs
  · exact hs

theorem sceneDropBody (h : KeptBeside P) (p : Port) (s : State) (hs : P s) : P (sceneDropBody p s).1 := by
  unfold Machine.sceneDropBody
  split
  · split_ifs
    · exact hs
    · exact hs
    · exact h.editScene _ _ _ hs
  · exact hs

theorem sceneEraseBody (h : KeptBeside P) (p : Port) (s : State) (hs : P s) : P (sceneEraseBody p s).1 := by
  unfold Machine.sceneEraseBody
  split
  · exact h.editScene _ _ _ hs
  · exact hs

/-! ### Players -/

theorem rampUpdates (h : KeptBeside P) (n : PlayerNo) (s : State) (hs : P s) : P (rampUpdates n s) := by
  unfold Machine.rampUpdates
  split
  · exact h.settled ((modPlayer_beside _ _ _).trans (handPlayerLevel_beside _ _ _)) _ hs
  · exact hs

theorem stepCompletes (h : KeptBeside P) (n : PlayerNo) (s : State) (hs : P s) : P (stepCompletes n s) := by
  unfold Machine.stepCompletes
  split
  · exact h.settled ((runQueue_beside _ _).trans (handPlayerLevel_beside _ _ _)) _ hs
  · exact hs

theorem onHeldPlayer {p : Port} {body : PlayerNo → State → State × Result} {s : State} (hbody : ∀ n, P (body n s).1)
    (hs : P s) : P (onHeldPlayer p body s).1 := by
  unfold Machine.onHeldPlayer
  split
  · exact hs
  · split_ifs
    · exact hs
    · exact hs
    · exact hbody _

theorem playerAcquireBody (h : KeptBeside P) (p : Port) (s : State) (hs : P s) : P (playerAcquireBody p s).1 := by
  unfold Machine.playerAcquireBody
  split
  · exact hs
  · split_ifs
    · exact h.modPlayer _ _ hs
    · exact hs
    · exact hs

theorem pushStep (h : KeptBeside P) (n : PlayerNo) (st : PlayerStep) (s : State) (hs : P s) : P (pushStep n st s) := by
  have hqueued := modPlayer_beside n (fun x => { x with queue := x.queue ++ [st] }) s
  unfold Machine.pushStep
  dsimp only
  split
  · exact h.settled (hqueued.trans (handedRun_beside _ _ _ _)) _ hs
  · exact h.beside _ _ hqueued hs

theorem playerPushBody (h : KeptBeside P) (p : Port) (s : State) (hs : P s) : P (playerPushBody p s).1 :=
  onHeldPlayer (fun n => by
    dsimp only
    split
    · exact hs
    · split_ifs
      · exact hs
      · exact hs
      · exact h.pushStep _ _ _ hs) hs

theorem endStream (h : KeptBeside P) (n : PlayerNo) (s : State) (hs : P s) : P (endStream n s) := by
  have hcomplete := modPlayer_beside n (fun x => { x with streamComplete := true }) s
  unfold Machine.endStream
  dsimp only
  split_ifs
  · exact hs
  · exact h.settled (hcomplete.trans (finishPlayer_beside _ _)) _ hs
  · exact h.beside _ _ hcomplete hs

theorem playerEndBody (h : KeptBeside P) (p : Port) (s : State) (hs : P s) : P (playerEndBody p s).1 :=
  onHeldPlayer (fun n => by
    dsimp only
    split
    · exact hs
    · exact h.endStream _ _ hs) hs

theorem playerStartBody (h : KeptBeside P) (p : Port) (s : State) (hs : P s) : P (playerStartBody p s).1 := by
  unfold Machine.playerStartBody
  dsimp only
  split
  · exact hs
  · have hseated := fun n slot c =>
      (modPlayer_beside n (fun x => { x with level := 0, lastHanded := 0 }) s).trans (seat_beside slot c _)
    exact h.settled (runStart_beside (hseated _ _ _) ((hseated _ _ _).trans (resolveSet_beside _ _ _ _))) _ hs

theorem playerAbortBody (h : KeptBeside P) (p : Port) (s : State) (hs : P s) : P (playerAbortBody p s).1 :=
  onHeldPlayer (fun _ => h.settled (abortPlayer_beside _ _ _) _ hs) hs

theorem playerReleaseBody (h : KeptBeside P) (p : Port) (s : State) (hs : P s) : P (playerReleaseBody p s).1 :=
  onHeldPlayer (fun _ => h.settled ((abortPlayer_beside _ _ _).trans (modPlayer_beside _ _ _)) _ hs) hs

/-! ### Lines -/

/-- The taking of an activity event, a start or an end (R115). -/
theorem activityTaken (h : KeptBeside P) (l : Line) (active : Bool) (s : State) (hs : P s) : P (activityTaken l active s) :=
  h.settled ((fireWatches_beside _ _ _ _).trans (followActivity_beside _ _ _)) _ hs

theorem activityPulse (h : KeptBeside P) (l : Line) (s : State) (hs : P s) : P (activityPulse l s) := by
  have hstarted := h.activityTaken l true _ (h.modLine l (fun x => { x with activity := .stretch }) hs)
  unfold Machine.activityPulse
  simp only [activityStart_eq, activityEnd_eq]
  exact h.activityTaken l false _ (h.modLine l _ hstarted)

theorem handActivity (h : KeptBeside P) (l : Line) (e : ActivityEvent) (s : State) (hs : P s) : P (handActivity l e s) := by
  cases e with
  | none => exact hs
  | start => exact h.activityTaken l true s hs
  | stop => exact h.activityTaken l false s hs
  | pulse => exact h.activityPulse l s hs

theorem qualify (h : KeptBeside P) (l : Line) (s : State) (hs : P s) : P (qualify l s) :=
  h.handActivity _ _ _ (h.modLine _ _ hs)

theorem inputChanges (h : KeptBeside P) (l : Line) (s : State) (hs : P s) : P (inputChanges l s) := by
  have hraw := h.modLine l (fun x => { x with raw := !x.raw }) hs
  unfold Machine.inputChanges
  dsimp only
  split_ifs
  · exact hraw
  · exact h.qualify _ _ hraw
  · exact h.modLine _ _ hraw

theorem filterEnds (h : KeptBeside P) (l : Line) (s : State) (hs : P s) : P (filterEnds l s) := by
  unfold Machine.filterEnds
  split
  · exact h.qualify _ _ hs
  · exact hs

theorem stretchEnds (h : KeptBeside P) (l : Line) (s : State) (hs : P s) : P (stretchEnds l s) := by
  unfold Machine.stretchEnds
  split
  · exact h.activityTaken l false _ (h.modLine _ _ hs)
  · exact hs

theorem lineConfigBody (h : KeptBeside P) (p : Port) (s : State) (hs : P s) : P (lineConfigBody p s).1 := by
  unfold Machine.lineConfigBody
  split
  · exact h.handActivity _ _ _ (h.modLine _ _ hs)
  · exact hs

theorem lineBindBody (h : KeptBeside P) (p : Port) (s : State) (hs : P s) : P (lineBindBody p s).1 := by
  unfold Machine.lineBindBody
  split
  · exact hs
  · split
    · exact hs
    · split
      · exact hs
      · split
        · exact hs
        · exact h.settled (placeLine_beside _ _ _ _) _ hs

theorem lineUnbindBody (h : KeptBeside P) (p : Port) (s : State) (hs : P s) : P (lineUnbindBody p s).1 := by
  unfold Machine.lineUnbindBody
  split
  · exact hs
  · split
    · exact hs
    · exact h.settled (unbindLine_beside _ _) _ hs

/-! ### The modulator's settings and timed events -/

theorem channelFadeBody (h : KeptBeside P) (p : Port) (s : State) (hs : P s) : P (channelFadeBody p s).1 := by
  have hset : ∀ cs i shape, Beside s (setDefaultFade cs i shape s) := fun cs i shape =>
    Beside.forEach (f := fun ch u => u.modChan ch fun m => { m with defaultIndex := i, defaultShape := shape })
      (fun _ _ => .of_eq rfl rfl rfl) (members cs) s
  unfold Machine.channelFadeBody
  split
  · split
    · exact hs
    · exact h.beside _ _ (hset _ _ _) hs
  · exact hs

theorem clockConfigBody (h : KeptBeside P) (p : Port) (s : State) (hs : P s) : P (clockConfigBody p s).1 := by
  unfold Machine.clockConfigBody
  split
  · exact h.cleaned (s := s) (.of_eq rfl rfl rfl) hs
  · exact hs

theorem derateConfigBody (h : KeptBeside P) (p : Port) (s : State) (hs : P s) : P (derateConfigBody p s).1 := by
  unfold Machine.derateConfigBody
  split
  · exact h.cleaned (s := s) (.of_eq rfl rfl rfl) hs
  · exact hs

theorem fadeCompletes (h : KeptBeside P) (ch : Channel) (s : State) (hs : P s) : P (fadeCompletes ch s) := by
  unfold Machine.fadeCompletes
  split
  · exact h.cleaned (s := s) (.of_eq rfl rfl rfl) hs
  · exact hs

theorem clockHalfEnds (h : KeptBeside P) (k : ClockNo) (s : State) (hs : P s) : P (clockHalfEnds k s) := by
  unfold Machine.clockHalfEnds
  split
  · exact h.cleaned (s := s) (.of_eq rfl rfl rfl) hs
  · exact hs

theorem lampTestBody (h : KeptBeside P) (p : Port) (s : State) (hs : P s) : P (lampTestBody p s).1 := by
  have htest : ∀ ends, Beside s (s.setLampTest ends) := fun _ => .of_eq rfl rfl rfl
  unfold Machine.lampTestBody
  split
  · exact hs
  · split
    · exact hs
    · exact h.settled (htest _) _ hs

theorem lampTestExpires (h : KeptBeside P) (s : State) (hs : P s) : P (lampTestExpires s) := by
  have hended : Beside s (endFadesBegun s) := by
    rw [endFadesBegun_frame]
    exact .of_eq rfl rfl rfl
  unfold Machine.lampTestExpires
  split
  · exact h.settled hended _ hs
  · exact hs

/-! ### Watches, rights and port resets -/

theorem watchSetBody (h : KeptBeside P) (p : Port) (s : State) (hs : P s) : P (watchSetBody p s).1 := by
  unfold Machine.watchSetBody
  split
  · exact hs
  · split
    · exact hs
    · exact h.beside s _ (.of_eq rfl rfl rfl) hs

theorem watchDropBody (h : KeptBeside P) (p : Port) (s : State) (hs : P s) : P (watchDropBody p s).1 := by
  unfold Machine.watchDropBody
  split
  · exact hs
  · split
    · exact hs
    · split
      · exact hs
      · exact h.beside s _ (.of_eq rfl rfl rfl) hs

theorem privSetBody (h : KeptBeside P) (p : Port) (s : State) (hs : P s) : P (privSetBody p s).1 := by
  have happlied : ∀ q ceiling sceneEdit quota, P (applyPrivSet q ceiling sceneEdit quota s) :=
    fun q ceiling sceneEdit quota => by
      have htold := rightsTold_beside q ceiling sceneEdit quota s
      rw [applyPrivSet_eq]
      split
      · exact h.beside _ _ htold hs
      · exact h.settled (htold.trans (freeRecords_beside _ _ _ _)) _ hs
  unfold Machine.privSetBody
  split
  · split
    · exact hs
    · exact happlied _ _ _ _
  · exact hs

theorem maintHandoverBody (h : KeptBeside P) (p : Port) (s : State) (hs : P s) : P (maintHandoverBody p s).1 := by
  have hmoved : ∀ q, Beside s (s.setMaintenance q) := fun q => .of_eq rfl rfl rfl
  unfold Machine.maintHandoverBody
  split
  · exact hs
  · split
    · exact hs
    · exact h.beside _ _ (((hmoved _).trans (offer_beside _ _ _)).trans (offer_beside _ _ _)) hs

theorem portClearBody (h : KeptBeside P) (p : Port) (s : State) (hs : P s) : P (portClearBody p s).1 := by
  unfold Machine.portClearBody
  split
  · exact hs
  · exact h.settled ((resetPort_beside _ _).trans (offer_beside _ _ _)) _ hs

end KeptBeside

/-! ### What the takings of the stage keep as well -/

/-- A property that the takings of the output stage keep as well: the board lines, the supply, the faults, the stage's
intervals and timers, and the commands that set its channels. -/
structure KeptByStage (P : State → Prop) : Prop extends KeptBeside P where
  powerOn : ∀ pins s, P s → P (powerOn pins s)
  enableLow : ∀ s, P s → P (enableLow s)
  enableHigh : ∀ s, P s → P (enableHigh s)
  assertHold : ∀ s, P s → P (assertHold s)
  releaseHold : ∀ s, P s → P (releaseHold s)
  supplyOnset : ∀ c s, P s → P (supplyOnset c s)
  supplyClearing : ∀ c s, P s → P (supplyClearing c s)
  channelFault : ∀ ch k s, P s → P (channelFault ch k s)
  initEnds : ∀ s, P s → P (initEnds s)
  softstartEnds : ∀ s, P s → P (softstartEnds s)
  standbyExpires : ∀ s, P s → P (standbyExpires s)
  activeTimerEnds : ∀ s, P s → P (activeTimerEnds s)
  recoveryEnds : ∀ s, P s → P (recoveryEnds s)
  retryEnds : ∀ ch s, P s → P (retryEnds ch s)
  cleanEnds : ∀ ch s, P s → P (cleanEnds ch s)
  outputRises : ∀ ch s, P s → P (outputRises ch s)
  latchClearBody : ∀ s, P s → P (latchClearBody s).1
  channelEnableBody : ∀ p s, P s → P (channelEnableBody p s).1
  channelRearmModeBody : ∀ p s, P s → P (channelRearmModeBody p s).1
  faultRearmBody : ∀ p s, P s → P (faultRearmBody p s).1

/-- Every taking is one of the stage or one beside it. -/
theorem KeptByStage.keptByTakings {P : State → Prop} (h : KeptByStage P) : KeptByTakings P where
  powerOn := h.powerOn
  enableLow := h.enableLow
  enableHigh := h.enableHigh
  assertHold := h.assertHold
  releaseHold := h.releaseHold
  supplyOnset := h.supplyOnset
  supplyClearing := h.supplyClearing
  channelFault := h.channelFault
  inputChanges := h.inputChanges
  filterEnds := h.filterEnds
  stretchEnds := h.stretchEnds
  initEnds := h.initEnds
  softstartEnds := h.softstartEnds
  standbyExpires := h.standbyExpires
  activeTimerEnds := h.activeTimerEnds
  recoveryEnds := h.recoveryEnds
  retryEnds := h.retryEnds
  cleanEnds := h.cleanEnds
  leaseExpires := h.leaseExpires
  clockHalfEnds := h.clockHalfEnds
  fadeCompletes := h.fadeCompletes
  rampUpdates := h.rampUpdates
  stepCompletes := h.stepCompletes
  lampTestExpires := h.lampTestExpires
  outputRises := h.outputRises
  claimBody := fun p s hs => h.placeForPort p _ _ s hs
  modifyBody := h.modifyBody
  withdrawBody := h.withdrawBody
  withdrawAllBody := h.withdrawAllBody
  renewBody := h.renewBody
  channelPolicyBody := h.channelPolicyBody
  scenePutBody := h.scenePutBody
  sceneDropBody := h.sceneDropBody
  sceneEraseBody := h.sceneEraseBody
  sceneInvokeBody := fun p s hs => h.placeForPort p _ _ s hs
  playerAcquireBody := h.playerAcquireBody
  playerEndBody := h.playerEndBody
  playerAbortBody := h.playerAbortBody
  playerReleaseBody := h.playerReleaseBody
  playerPushBody := h.playerPushBody
  playerStartBody := h.playerStartBody
  lineConfigBody := h.lineConfigBody
  lineBindBody := h.lineBindBody
  lineUnbindBody := h.lineUnbindBody
  channelFadeBody := h.channelFadeBody
  clockConfigBody := h.clockConfigBody
  derateConfigBody := h.derateConfigBody
  lampTestBody := h.lampTestBody
  latchClearBody := h.latchClearBody
  channelEnableBody := h.channelEnableBody
  channelRearmModeBody := h.channelRearmModeBody
  faultRearmBody := h.faultRearmBody
  watchSetBody := h.watchSetBody
  watchDropBody := h.watchDropBody
  privSetBody := h.privSetBody
  maintHandoverBody := h.maintHandoverBody
  portResets := fun p s hs => h.settled (resetPort_beside p s) _ hs
  portClearBody := h.portClearBody
  portWrite := fun p f s hf hs => h.beside _ _ (modPort_beside p f hf s) hs
  drawn := fun _ s hs => h.beside s _ (.of_eq rfl rfl rfl) hs
  waits := fun _ s hs => h.beside s _ (.of_eq rfl rfl rfl) hs
  passes := fun s hs => h.beside s _ (.of_eq rfl rfl rfl) hs

end Sys2Proof.Machine

namespace Sys2Proof.Machine

/-! ## The invariant of the output stage along a step (R151, R162, R163) -/

/-! ### What the invariant reads, and what keeps it -/

theorem StageInv.of_output {s t : State} (hs : StageInv s) (h : t.output = s.output) : StageInv t where
  timers := h ▸ hs.timers
  forcing := fun hup => by rw [h] at hup ⊢; exact hs.forcing hup
  recovery := h ▸ hs.recovery
  notLatched := h ▸ hs.notLatched

/-- HOLD, demand, the last cause and the supply conditions recorded, no forcing condition of them while the lamps are
up (R162). -/
theorem StageInv.recorded {s t : State} (hs : StageInv s)
    (h : t.output = { s.output with
      lastCause := t.output.lastCause, supply := t.output.supply, hold := t.output.hold, demand := t.output.demand })
    (hforcing : lampsUp s.output.stage = true → t.output.supply.forcing = false) : StageInv t where
  timers := by
    rw [h]
    exact ⟨hs.timers.initEnd, hs.timers.softEnd, hs.timers.recoveryEnd, hs.timers.standbyEnd, hs.timers.activeEnd⟩
  forcing := fun hup => hforcing (by rw [h] at hup; exact hup)
  recovery := by rw [h]; exact hs.recovery
  notLatched := by rw [h]; exact hs.notLatched

/-- A stage entered starts its own interval or timer alone, so that its guards are the supply conditions and the recovery
count (R151, R152, R163). -/
theorem enterStage_stageInv {st : StageName} (c : Cause) {s : State}
    (hforcing : lampsUp st = true → s.output.supply.forcing = false) (hcount : s.output.recovery ≤ recoveryLimit)
    (hroom : st ≠ .latched → s.output.recovery < recoveryLimit) : StageInv (enterStage st c s) := by
  have hentered := enterStage_output st c s
  refine ⟨?timers, fun hup => ?forcing, ?recovery, ?notLatched⟩
  case timers =>
    rw [hentered]
    refine ⟨?_, ?_, ?_, ?_, ?_⟩ <;> simp [OutputStage.enter]
  case forcing =>
    rw [hentered] at hup ⊢
    exact hforcing hup
  case recovery => rw [hentered]; exact hcount
  case notLatched => rw [hentered]; exact hroom

/-- From every stage but LATCHED the stages with the lamps off may be entered. -/
theorem StageInv.entersDark {s : State} (hs : StageInv s) {st : StageName} (c : Cause) (hst : lampsUp st = false)
    (hfrom : s.output.stage ≠ .latched) : StageInv (enterStage st c s) :=
  enterStage_stageInv c (fun hup => absurd hup (by simp [hst])) hs.recovery fun _ => hs.notLatched hfrom

/-- LATCHED may be entered from every stage. -/
theorem StageInv.latches {s : State} (hs : StageInv s) (c : Cause) : StageInv (enterStage .latched c s) :=
  enterStage_stageInv c (fun hup => by cases hup) hs.recovery fun hne => absurd rfl hne

theorem cleanChannels_stageInv (s : State) (hs : StageInv s) : StageInv (cleanChannels s) :=
  hs.of_output (cleanChannels_output s)

/-- Demand read afresh starts the standby delay in ACTIVE alone (R159). -/
theorem settledOutput_stageInv {s : State} (hs : StageInv s) : StageInv { s with output := settledOutput s } := by
  by_cases hactive : s.output.stage = .active
  · have hdelay : settledOutput s = { s.output with
        demand := demandNow s, standbyEnd := delayAfter s.now s.output.standbyEnd (demandNow s) } :=
      settledOutput_of_active hactive
    rw [hdelay]
    exact ⟨⟨hs.timers.initEnd, hs.timers.softEnd, hs.timers.recoveryEnd, fun _ => hactive, hs.timers.activeEnd⟩,
      hs.forcing, hs.recovery, hs.notLatched⟩
  · rw [settledOutput_of_standby hactive]
    exact hs.recorded rfl hs.forcing

/-- A STANDBY stage starts without a forcing condition and below the recovery limit (R157, R163). -/
theorem settle_stageInv (c : Cause) (s : State) (hs : StageInv s) : StageInv (settle c s) := by
  have hread := settledOutput_stageInv hs
  cases hstart : mayStart s with
  | false =>
    rw [settle_stays c hstart]
    exact cleanChannels_stageInv _ hread
  | true =>
    obtain ⟨hstandby, -, -, hforcing⟩ := mayStart_iff.mp hstart
    rw [settle_starts c hstart, settledOutput_of_standby (by rw [hstandby]; decide)]
    refine cleanChannels_stageInv _ (enterStage_stageInv c (fun _ => hforcing) hs.recovery fun _ => ?_)
    exact hs.notLatched (by rw [hstandby]; decide)

/-! ### ENABLE, power-on and the end of INIT -/

theorem powerOnState_stageInv (pins : PowerOnPins) (s : State) : StageInv (powerOnState pins s) where
  timers := ⟨fun h => absurd rfl h, fun h => absurd rfl h, fun h => absurd rfl h, fun h => absurd rfl h,
    fun h => absurd rfl h⟩
  forcing := fun hup => by cases hup
  recovery := Nat.zero_le _
  notLatched := fun _ => Nat.zero_lt_succ _

theorem enableHigh_stageInv (s : State) (hs : StageInv s) : StageInv (enableHigh s) := by
  unfold enableHigh
  split
  · next hoff => exact hs.entersDark _ rfl (by rw [hoff]; decide)
  · exact hs

theorem powerOn_stageInv (pins : PowerOnPins) (s : State) : StageInv (powerOn pins s) := by
  have hreset := powerOnState_stageInv pins s
  unfold powerOn
  split
  · exact enableHigh_stageInv _ hreset
  · exact hreset

theorem enableLow_stageInv (s : State) (hs : StageInv s) : StageInv (enableLow s) := by
  by_cases hoff : s.output.stage = .off
  · simpa [enableLow, hoff] using hs
  · have houtput : (enableLow s).output = { s.output.enter .off .enableLow s.now with recovery := 0, demand := false } := by
      rw [enableLow_eq hoff]
      exact (freeRecords_output _ _ _ _).trans (outputOff_output s)
    refine ⟨?timers, fun hup => ?forcing, ?recovery, fun _ => ?notLatched⟩ <;> rw [houtput] at *
    case timers => refine ⟨?_, ?_, ?_, ?_, ?_⟩ <;> simp [OutputStage.enter]
    case forcing => cases hup
    case recovery => exact Nat.zero_le _
    case notLatched => exact Nat.zero_lt_succ _

/-- An interval that is due runs. -/
theorem ne_none_of_due {ends : Option Instant} {now : Instant} (h : dueAt ends now = true) : ends ≠ none := by
  rintro rfl
  cases h

theorem initEnds_stageInv (s : State) (hs : StageInv s) : StageInv (initEnds s) := by
  by_cases hdue : dueAt s.output.initEnd s.now = true
  · have hinit := hs.timers.initEnd (ne_none_of_due hdue)
    rw [initEnds_eq hdue]
    exact settle_stageInv _ _ ((hs.entersDark _ rfl (by rw [hinit]; decide)).of_output (initDone_beside s).output)
  · simpa [initEnds, hdue] using hs

/-! ### HOLD and the supply -/

theorem assertHold_stageInv (s : State) (hs : StageInv s) : StageInv (assertHold s) := by
  have hheld : StageInv (holdRecorded s) := hs.recorded rfl hs.forcing
  rw [assertHold_eq]
  split
  · next hup =>
    have hfrom : (holdRecorded s).output.stage ≠ .latched := fun h => by
      rw [show s.output.stage = .latched from h] at hup
      cases hup
    exact settle_stageInv _ _ (hheld.entersDark _ rfl hfrom)
  · exact settle_stageInv _ _ hheld

theorem releaseHold_stageInv (s : State) (hs : StageInv s) : StageInv (releaseHold s) :=
  settle_stageInv _ (releaseRecorded s) (hs.recorded rfl hs.forcing)

/-- The onset of a forcing condition takes the stage down, and to LATCHED at the limit (R163). -/
theorem forceDown_stageInv {c : Cause} {s : State} (h : s.output.recovery < recoveryLimit) :
    StageInv (forceDown c s) := by
  unfold forceDown
  dsimp only
  split
  · next hroom => exact enterStage_stageInv _ (fun hup => by cases hup) h fun _ => hroom
  · exact enterStage_stageInv _ (fun hup => by cases hup) h fun hne => absurd rfl hne

theorem forcing_put_of_none {c : SupplyCondition} (h : forcingCause c = none) (x : Supply) (v : Bool) :
    (x.put c v).forcing = x.forcing := by
  cases c with
  | overtempWarn => rfl
  | _ => cases h

/-- A condition that clears leaves no forcing condition where none was. -/
theorem forcing_put_false {x : Supply} (h : x.forcing = false) (c : SupplyCondition) : (x.put c false).forcing = false := by
  simp only [Supply.forcing, Bool.or_eq_false_iff] at h ⊢
  obtain ⟨⟨hlow, hcurrent⟩, htemp⟩ := h
  cases c <;> simp [Supply.put, hlow, hcurrent, htemp]

theorem supplyOnset_stageInv (c : SupplyCondition) (s : State) (hs : StageInv s) : StageInv (supplyOnset c s) := by
  unfold supplyOnset
  dsimp only
  split
  · exact hs
  · split
    · next hcause =>
      refine cleanChannels_stageInv _ (hs.recorded rfl fun hup => ?_)
      exact (forcing_put_of_none hcause _ _).trans (hs.forcing hup)
    · split
      · next hup =>
        refine settle_stageInv _ _ (forceDown_stageInv (hs.notLatched fun h => ?_))
        rw [h] at hup
        cases hup
      · next hdown => exact hs.recorded rfl fun hup => absurd hup hdown

theorem supplyClearing_stageInv (c : SupplyCondition) (s : State) (hs : StageInv s) : StageInv (supplyClearing c s) := by
  have hcleared : StageInv (s.modOutput fun o => { o with supply := o.supply.put c false }) :=
    hs.recorded rfl fun hup => forcing_put_false (hs.forcing hup) c
  unfold supplyClearing
  dsimp only
  split
  · split
    · exact cleanChannels_stageInv _ hcleared
    · exact settle_stageInv _ _ hcleared
  · exact hs

/-! ### Channel faults, intervals and timers -/

theorem channelFault_stageInv (ch : Channel) (k : FaultKind) (s : State) (hs : StageInv s) :
    StageInv (channelFault ch k s) := by
  unfold channelFault faultTaken
  dsimp only
  split
  · have hfaulted : StageInv (faultEvent ch (.kind k) (syncChannel ch (s.modOut ch (takeFault k s.output.stage s.now)))) :=
      hs.of_output (faultEvent_output ..)
    split
    · exact settle_stageInv _ _ (hfaulted.latches _)
    · exact settle_stageInv _ _ hfaulted
  · exact hs

/-- SOFTSTART goes to ACTIVE without a forcing condition, as it had none (R158, R162). -/
theorem softstartEnds_stageInv (s : State) (hs : StageInv s) : StageInv (softstartEnds s) := by
  unfold softstartEnds
  split
  · next hdue =>
    have hsoft := hs.timers.softEnd (ne_none_of_due hdue)
    have hroom := hs.notLatched (by rw [hsoft]; decide)
    exact settle_stageInv _ _ (enterStage_stageInv _ (fun _ => hs.forcing (by rw [hsoft]; rfl)) hs.recovery fun _ => hroom)
  · exact hs

theorem standbyExpires_stageInv (s : State) (hs : StageInv s) : StageInv (standbyExpires s) := by
  unfold standbyExpires
  split
  · next hdue =>
    have hactive := hs.timers.standbyEnd (ne_none_of_due hdue)
    exact settle_stageInv _ _ (hs.entersDark _ rfl (by rw [hactive]; decide))
  · exact hs

theorem activeTimerEnds_stageInv (s : State) (hs : StageInv s) : StageInv (activeTimerEnds s) := by
  unfold activeTimerEnds
  split
  · exact ⟨⟨hs.timers.initEnd, hs.timers.softEnd, hs.timers.recoveryEnd, hs.timers.standbyEnd, fun h => absurd rfl h⟩,
      hs.forcing, Nat.zero_le _, fun _ => Nat.zero_lt_succ _⟩
  · exact hs

theorem recoveryEnds_stageInv (s : State) (hs : StageInv s) : StageInv (recoveryEnds s) := by
  unfold recoveryEnds
  split
  · next hdue =>
    have hrecovery := hs.timers.recoveryEnd (ne_none_of_due hdue)
    split
    · exact ⟨⟨hs.timers.initEnd, hs.timers.softEnd, fun _ => hrecovery, hs.timers.standbyEnd, hs.timers.activeEnd⟩,
        hs.forcing, hs.recovery, hs.notLatched⟩
    · exact settle_stageInv _ _ (hs.entersDark _ rfl (by rw [hrecovery]; decide))
  · exact hs

theorem retryEnds_stageInv (ch : Channel) (s : State) (hs : StageInv s) : StageInv (retryEnds ch s) := by
  unfold retryEnds
  split
  · exact settle_stageInv _ _ (hs.of_output (faultEvent_output ..))
  · exact hs

theorem cleanEnds_stageInv (ch : Channel) (s : State) (hs : StageInv s) : StageInv (cleanEnds ch s) := by
  unfold cleanEnds
  split
  · exact hs.of_output rfl
  · exact hs

/-! ### The commands that set the channels -/

theorem channelsRearmed_output {l : List Channel} (s : State) (hl : l.Nodup) : (channelsRearmed l s).output = s.output :=
  (channelsRearmed_set s hl).output_eq

theorem latchClearBody_stageInv (s : State) (hs : StageInv s) : StageInv (latchClearBody s).1 := by
  unfold latchClearBody
  split
  · exact settle_stageInv _ _
      (enterStage_stageInv _ (fun hup => by cases hup) (Nat.zero_le _) fun _ => Nat.zero_lt_succ _)
  · exact hs

theorem channelEnableBody_stageInv (p : Port) (s : State) (hs : StageInv s) : StageInv (channelEnableBody p s).1 := by
  unfold channelEnableBody
  split
  · split
    · exact hs
    · next v _ _ => exact settle_stageInv _ _ (hs.of_output (channelsEnabled_set v (arg s p 0) s).output_eq)
  · exact hs

theorem channelRearmModeBody_stageInv (p : Port) (s : State) (hs : StageInv s) :
    StageInv (channelRearmModeBody p s).1 := by
  have hset : ∀ v, StageInv (modesSet v (arg s p 0) s) := fun v => hs.of_output (by rw [modesSet_frame])
  unfold channelRearmModeBody
  split
  · split
    · exact hs
    · exact hset _
  · exact hs

theorem faultRearmBody_stageInv (p : Port) (s : State) (hs : StageInv s) : StageInv (faultRearmBody p s).1 := by
  unfold faultRearmBody
  split
  · exact hs
  · exact settle_stageInv _ _ (hs.of_output (channelsRearmed_output s (nodup_members _)))

/-! ### The obligation -/

theorem stageInv_keptByStage : KeptByStage StageInv where
  beside := fun _ _ h hs => hs.of_output h.output
  settle := settle_stageInv
  cleanChannels := cleanChannels_stageInv
  powerOn := fun pins s _ => powerOn_stageInv pins s
  enableLow := enableLow_stageInv
  enableHigh := enableHigh_stageInv
  assertHold := assertHold_stageInv
  releaseHold := releaseHold_stageInv
  supplyOnset := supplyOnset_stageInv
  supplyClearing := supplyClearing_stageInv
  channelFault := channelFault_stageInv
  initEnds := initEnds_stageInv
  softstartEnds := softstartEnds_stageInv
  standbyExpires := standbyExpires_stageInv
  activeTimerEnds := activeTimerEnds_stageInv
  recoveryEnds := recoveryEnds_stageInv
  retryEnds := retryEnds_stageInv
  cleanEnds := cleanEnds_stageInv
  outputRises := fun _ _ hs => hs.of_output rfl
  latchClearBody := latchClearBody_stageInv
  channelEnableBody := channelEnableBody_stageInv
  channelRearmModeBody := channelRearmModeBody_stageInv
  faultRearmBody := faultRearmBody_stageInv

/-- Settles O54: the takings beside the stage leave it, and each move of the stage is guarded. -/
theorem stepKeepsStageInvariant : Obligations.StepKeepsStageInvariant := fun _ _ hs hstep =>
  stageInv_keptByStage.keptByTakings.step hs hstep

end Sys2Proof.Machine

namespace Sys2Proof.Machine

/-! ## The bounds of the notice queues and of the retry counts along a step (R167, R182) -/

/-- The notice queues at most 16 long and the retry counts at most 3 (R167, R182). -/
structure Bounded (s : State) : Prop where
  queues : QueuesBounded s
  retries : RetriesBounded s

namespace Bounded

variable {s t : State}

theorem of_out (hs : Bounded s) (hqueues : QueuesBounded s → QueuesBounded t)
    (hretry : ∀ ch, (s.out ch).retry ≤ 3 → (t.out ch).retry ≤ 3) : Bounded t :=
  ⟨hqueues hs.queues, fun ch => hretry ch (hs.retries ch)⟩

/-- A part of a taking that writes neither a port nor the channels of the output stage. -/
theorem of_eq (hs : Bounded s) (hports : t.ports = s.ports) (houts : t.outs = s.outs) : Bounded t :=
  hs.of_out (QueuesBounded.of_ports hports) fun ch h => by rwa [State.out, houts]

theorem modOutput (hs : Bounded s) (f : OutputStage → OutputStage) : Bounded (s.modOutput f) := hs.of_eq rfl rfl

/-- Channels set one after another by a function that raises no count past 3. -/
theorem set {f : OutChannel → OutChannel} {l : List Channel} (hs : Bounded s) (h : ChannelsSet f l s t)
    (hqueues : QueuesBounded s → QueuesBounded t) (hf : ∀ o : OutChannel, o.retry ≤ 3 → (f o).retry ≤ 3) : Bounded t :=
  hs.of_out hqueues fun ch hch => by
    rw [h.out]
    split
    · exact hf _ hch
    · exact hch

end Bounded

theorem cleanChannels_bounded (s : State) (hs : Bounded s) : Bounded (cleanChannels s) :=
  hs.of_out (QueuesBounded.of_ports (cleanChannels_ports s)) fun ch h => by rwa [cleanChannels_out]

theorem settle_bounded (c : Cause) (s : State) (hs : Bounded s) : Bounded (settle c s) :=
  hs.of_out (settle_queues c s) fun ch h => by rwa [settle_retry]

theorem enterStage_bounded (st : StageName) (c : Cause) {s : State} (hs : Bounded s) : Bounded (enterStage st c s) :=
  hs.of_out (enterStage_queues st c s) fun ch h => by
    obtain ⟨-, -, hretry, -, -⟩ := pauseRetry_keeps s.now (s.out ch)
    rw [enterStage_out]
    split
    · rwa [hretry]
    · exact h

/-! ### ENABLE, power-on and the end of INIT -/

theorem powerOnState_bounded (pins : PowerOnPins) (s : State) : Bounded (powerOnState pins s) where
  queues := fun p => by
    have hport : (powerOnState pins s).port p = PortState.reset := tget_replicate _ p
    rw [hport]
    exact Nat.zero_le _
  retries := fun ch => by
    have hretry : ((powerOnState pins s).out ch).retry = 0 := congrArg OutChannel.retry (tget_replicate _ ch)
    rw [hretry]
    exact Nat.zero_le _

theorem enableHigh_bounded (s : State) (hs : Bounded s) : Bounded (enableHigh s) := by
  unfold enableHigh
  split
  · exact enterStage_bounded _ _ hs
  · exact hs

theorem powerOn_bounded (pins : PowerOnPins) (s : State) : Bounded (powerOn pins s) := by
  have hreset := powerOnState_bounded pins s
  unfold powerOn
  split
  · exact enableHigh_bounded _ hreset
  · exact hreset

theorem enableLow_bounded (s : State) (hs : Bounded s) : Bounded (enableLow s) := by
  by_cases hoff : s.output.stage = .off
  · simpa [enableLow, hoff] using hs
  · rw [enableLow_eq hoff]
    refine ⟨fun p => ?queues, fun ch => ?retries⟩
    case queues =>
      rw [heldOff_port]
      exact offerTo_bounded _ _ (Nat.zero_le _)
    case retries =>
      have hout : (heldOff (freedOff s)).out ch = outOff (s.out ch) :=
        (freeRecords_out .enableLow false (indexes 48) (outputOff s) ch).trans (outputOff_out s ch)
      rw [hout]
      exact Nat.zero_le _

theorem initEnds_bounded (s : State) (hs : Bounded s) : Bounded (initEnds s) := by
  by_cases hdue : dueAt s.output.initEnd s.now = true
  · have hdone := initDone_beside s
    rw [initEnds_eq hdue]
    exact settle_bounded _ _ ((enterStage_bounded .standby .initEnd hs).of_out hdone.queues fun ch h => by
      rwa [State.out, hdone.outs])
  · simpa [initEnds, hdue] using hs

/-! ### HOLD and the supply -/

theorem assertHold_bounded (s : State) (hs : Bounded s) : Bounded (assertHold s) := by
  have hheld : Bounded (holdRecorded s) := hs.of_eq rfl rfl
  rw [assertHold_eq]
  split
  · exact settle_bounded _ _ (enterStage_bounded _ _ hheld)
  · exact settle_bounded _ _ hheld

theorem forceDown_bounded {c : Cause} {s : State} (hs : Bounded s) : Bounded (forceDown c s) := by
  have hcounted : Bounded (s.modOutput fun o => { o with recovery := s.output.recovery + 1 }) := hs.modOutput _
  unfold forceDown
  dsimp only
  split
  · exact enterStage_bounded _ _ hcounted
  · exact enterStage_bounded _ _ hcounted

theorem supplyOnset_bounded (c : SupplyCondition) (s : State) (hs : Bounded s) : Bounded (supplyOnset c s) := by
  have hrecorded : Bounded (s.modOutput fun o => { o with supply := o.supply.put c true }) := hs.modOutput _
  unfold supplyOnset
  dsimp only
  split
  · exact hs
  · split
    · exact cleanChannels_bounded _ hrecorded
    · split
      · exact settle_bounded _ _ (forceDown_bounded hrecorded)
      · exact hrecorded

theorem supplyClearing_bounded (c : SupplyCondition) (s : State) (hs : Bounded s) : Bounded (supplyClearing c s) := by
  have hcleared : Bounded (s.modOutput fun o => { o with supply := o.supply.put c false }) := hs.modOutput _
  unfold supplyClearing
  dsimp only
  split
  · split
    · exact cleanChannels_bounded _ hcleared
    · exact settle_bounded _ _ hcleared
  · exact hs

/-! ### Channel faults, intervals and timers -/

/-- A channel set and an event handed for it. -/
theorem Bounded.setAndTold {s : State} (hs : Bounded s) {f : OutChannel → OutChannel}
    (hf : ∀ o : OutChannel, o.retry ≤ 3 → (f o).retry ≤ 3) (ch : Channel) (d : FaultDetail) :
    Bounded (faultEvent ch d (syncChannel ch (s.modOut ch f))) :=
  hs.set ((ChannelsSet.sync f ch s).faultEvent ch d) (fun hq => fireWatches_queues .fault ch.val _ _
    (QueuesBounded.of_ports rfl hq)) hf

/-- A fault counts to 3 at most (R167). -/
theorem channelFault_bounded (ch : Channel) (k : FaultKind) (s : State) (hs : Bounded s) :
    Bounded (channelFault ch k s) := by
  unfold channelFault faultTaken
  dsimp only
  split
  · have hfaulted : Bounded (faultEvent ch (.kind k) (syncChannel ch (s.modOut ch (takeFault k s.output.stage s.now)))) :=
      hs.setAndTold (fun _ _ => Nat.min_le_left _ _) ch _
    split
    · exact settle_bounded _ _ (enterStage_bounded _ _ hfaulted)
    · exact settle_bounded _ _ hfaulted
  · exact hs

theorem softstartEnds_bounded (s : State) (hs : Bounded s) : Bounded (softstartEnds s) := by
  unfold softstartEnds
  split
  · exact settle_bounded _ _ (enterStage_bounded _ _ hs)
  · exact hs

theorem standbyExpires_bounded (s : State) (hs : Bounded s) : Bounded (standbyExpires s) := by
  unfold standbyExpires
  split
  · exact settle_bounded _ _ (enterStage_bounded _ _ hs)
  · exact hs

theorem activeTimerEnds_bounded (s : State) (hs : Bounded s) : Bounded (activeTimerEnds s) := by
  unfold activeTimerEnds
  split
  · exact hs.of_eq rfl rfl
  · exact hs

theorem recoveryEnds_bounded (s : State) (hs : Bounded s) : Bounded (recoveryEnds s) := by
  unfold recoveryEnds
  split
  · split
    · exact hs.of_eq rfl rfl
    · exact settle_bounded _ _ (enterStage_bounded _ _ hs)
  · exact hs

theorem retryEnds_bounded (ch : Channel) (s : State) (hs : Bounded s) : Bounded (retryEnds ch s) := by
  have hreturned : Bounded (retryReturned ch s) := hs.setAndTold (f := returned) (fun _ h => h) ch .ready
  unfold retryEnds
  split
  · exact settle_bounded .demand (retryReturned ch s) hreturned
  · exact hs

/-- One channel of the output stage written. -/
theorem Bounded.modOut {s : State} (hs : Bounded s) (ch : Channel) {f : OutChannel → OutChannel}
    (hf : ∀ o : OutChannel, o.retry ≤ 3 → (f o).retry ≤ 3) : Bounded (s.modOut ch f) :=
  hs.of_out (QueuesBounded.of_ports rfl) fun i hi => by
    rw [State.out_modOut]
    split
    · next h => exact hf _ (h ▸ hi)
    · exact hi

theorem cleanEnds_bounded (ch : Channel) (s : State) (hs : Bounded s) : Bounded (cleanEnds ch s) := by
  unfold cleanEnds
  split
  · exact hs.modOut ch fun _ _ => Nat.zero_le _
  · exact hs

/-! ### The commands that set the channels -/

/-- FAULT READY events take no queue past its bound (R182). -/
theorem channelsRearmed_queues (l : List Channel) (s : State) (hs : QueuesBounded s) :
    QueuesBounded (channelsRearmed l s) :=
  forEach_preserves QueuesBounded l rearmChannel (fun ch u hu => by
    have hsynced : QueuesBounded (syncChannel ch (u.modOut ch rearm)) := QueuesBounded.of_ports rfl hu
    unfold rearmChannel
    dsimp only
    split
    · exact fireWatches_queues .fault ch.val _ _ hsynced
    · exact hsynced) s hs

theorem channelsRearmed_bounded {l : List Channel} (hl : l.Nodup) {s : State} (hs : Bounded s) :
    Bounded (channelsRearmed l s) :=
  hs.set (channelsRearmed_set s hl) (channelsRearmed_queues l s) fun _ _ => Nat.zero_le _

/-- Every channel rearmed and the recovery count 0, before LATCHED is left (R166). -/
def latchRearmed (s : State) : State := (channelsRearmed (indexes 16) s).modOutput fun o => { o with recovery := 0 }

theorem clearLatch_eq (s : State) : clearLatch s = settle .demand (enterStage .standby .latchClear (latchRearmed s)) := rfl

theorem latchClearBody_bounded (s : State) (hs : Bounded s) : Bounded (latchClearBody s).1 := by
  have hrearmed : Bounded (latchRearmed s) := (channelsRearmed_bounded (nodup_indexes 16) hs).modOutput _
  unfold latchClearBody
  rw [clearLatch_eq]
  split
  · exact settle_bounded _ _ (enterStage_bounded _ _ hrearmed)
  · exact hs

theorem channelEnableBody_bounded (p : Port) (s : State) (hs : Bounded s) : Bounded (channelEnableBody p s).1 := by
  have hset : ∀ v, Bounded (channelsEnabled v (arg s p 0) s) := fun v =>
    hs.set (channelsEnabled_set v _ s) (QueuesBounded.of_ports (channelsEnabled_ports v _ s)) fun o h => by
      rwa [(enabledTo_keeps v o).2.1]
  unfold channelEnableBody
  split
  · split
    · exact hs
    · exact settle_bounded _ _ (hset _)
  · exact hs

theorem channelRearmModeBody_bounded (p : Port) (s : State) (hs : Bounded s) : Bounded (channelRearmModeBody p s).1 := by
  have hset : ∀ v, Bounded (modesSet v (arg s p 0) s) := fun v =>
    hs.of_out (QueuesBounded.of_ports (by rw [modesSet_frame])) fun ch h => by
      rw [modesSet_out]
      split
      · exact h
      · exact h
  unfold channelRearmModeBody
  split
  · split
    · exact hs
    · exact hset _
  · exact hs

theorem faultRearmBody_bounded (p : Port) (s : State) (hs : Bounded s) : Bounded (faultRearmBody p s).1 := by
  unfold faultRearmBody
  split
  · exact hs
  · exact settle_bounded _ _ (channelsRearmed_bounded (nodup_members _) hs)

/-! ### The obligation -/

theorem bounded_keptByStage : KeptByStage Bounded where
  beside := fun _ _ h hs => hs.of_out h.queues fun ch hch => by rwa [State.out, h.outs]
  settle := settle_bounded
  cleanChannels := cleanChannels_bounded
  powerOn := fun pins s _ => powerOn_bounded pins s
  enableLow := enableLow_bounded
  enableHigh := enableHigh_bounded
  assertHold := assertHold_bounded
  releaseHold := fun s hs => settle_bounded _ (releaseRecorded s) (hs.of_eq rfl rfl)
  supplyOnset := supplyOnset_bounded
  supplyClearing := supplyClearing_bounded
  channelFault := channelFault_bounded
  initEnds := initEnds_bounded
  softstartEnds := softstartEnds_bounded
  standbyExpires := standbyExpires_bounded
  activeTimerEnds := activeTimerEnds_bounded
  recoveryEnds := recoveryEnds_bounded
  retryEnds := retryEnds_bounded
  cleanEnds := cleanEnds_bounded
  outputRises := fun ch _ hs => hs.modOut ch fun _ h => h
  latchClearBody := latchClearBody_bounded
  channelEnableBody := channelEnableBody_bounded
  channelRearmModeBody := channelRearmModeBody_bounded
  faultRearmBody := faultRearmBody_bounded

/-- Settles O59: a notice is queued below the bound alone, and a count is raised at a fault alone, to 3 at most. -/
theorem stepKeepsBounds : Obligations.StepKeepsBounds := fun _ _ hqueues hretries hstep =>
  have hbounded := bounded_keptByStage.keptByTakings.step ⟨hqueues, hretries⟩ hstep
  ⟨hbounded.queues, hbounded.retries⟩

end Sys2Proof.Machine

namespace Sys2Proof.Machine

/-! ## Clean intervals (R172) -/

/-! ### When one runs, starts and is cancelled -/

theorem cleanHolds_iff {s : State} {ch : Channel} : cleanHolds s ch = true ↔
    (s.out ch).fault = .ready ∧ (s.out ch).enabled = true ∧ s.output.stage = .active ∧
      0 < (outputLevel s ch).val ∧ 0 < (s.out ch).retry := by
  simp [cleanHolds, and_assoc]

/-- A clean interval that runs goes on to its end, and one that starts takes 10 s. -/
theorem cleaned_eq (s : State) (ch : Channel) (o : OutChannel) : cleaned s ch o =
    { o with cleanEnd := if cleanHolds s ch = true then some (o.cleanEnd.getD (s.now + 10000)) else none } := by
  unfold cleaned
  cases o.cleanEnd <;> rfl

theorem cleanChannel_eq (ch : Channel) (s : State) : cleanChannel ch s = s.modOut ch (cleaned s ch) := rfl

theorem cleanEnds_due {s : State} {ch : Channel} (h : dueAt (s.out ch).cleanEnd s.now = true) :
    cleanEnds ch s = s.modOut ch fun o => { o with retry := 0, cleanEnd := none } := if_pos h

/-! ### What every step keeps of them -/

namespace CleanInv

variable {s t : State}

/-- No clean interval runs at all. -/
theorem of_none (h : ∀ ch, (s.out ch).cleanEnd = Option.none) : CleanInv s := fun ch hne => absurd (h ch) hne

/-- One channel written, its clean interval among it. -/
theorem modOut (hs : CleanInv s) (ch : Channel) {f : OutChannel → OutChannel}
    (hf : (f (s.out ch)).cleanEnd ≠ Option.none → (f (s.out ch)).fault = .ready ∧ (f (s.out ch)).enabled = true ∧
      s.output.stage = .active ∧ 0 < (f (s.out ch)).retry) : CleanInv (s.modOut ch f) := fun i hi => by
  rw [State.out_modOut] at hi ⊢
  split at hi
  · next h =>
    rw [if_pos h]
    exact hf hi
  · next h =>
    rw [if_neg h]
    exact hs i hi

end CleanInv

theorem cleanChannel_inv (ch : Channel) (s : State) (hs : CleanInv s) : CleanInv (cleanChannel ch s) := by
  rw [cleanChannel_eq]
  refine hs.modOut ch fun hruns => ?_
  cases hholds : cleanHolds s ch with
  | true =>
    obtain ⟨hready, henabled, hactive, -, hretry⟩ := cleanHolds_iff.mp hholds
    exact ⟨hready, henabled, hactive, hretry⟩
  | false => simp [cleaned, hholds] at hruns

/-- Outside ACTIVE no clean interval runs, and a stage entered but LATCHED writes no channel. -/
theorem enterStage_cleanInv {st : StageName} (c : Cause) (hst : st ≠ .latched) {s : State} (hs : CleanInv s)
    (hstage : s.output.stage ≠ .active) : CleanInv (enterStage st c s) :=
  .of_none fun ch => by rw [enterStage_out, if_neg hst, hs.none hstage ch]

theorem powerOnState_cleanInv (pins : PowerOnPins) (s : State) : CleanInv (powerOnState pins s) :=
  .of_none fun ch => congrArg OutChannel.cleanEnd (tget_replicate _ ch)

theorem enableHigh_cleanInv (s : State) (hs : CleanInv s) : CleanInv (enableHigh s) := by
  unfold enableHigh
  split
  · next hoff => exact enterStage_cleanInv _ (by decide) hs (by rw [hoff]; decide)
  · exact hs

theorem powerOn_cleanInv (pins : PowerOnPins) (s : State) : CleanInv (powerOn pins s) := by
  have hreset := powerOnState_cleanInv pins s
  unfold powerOn
  split
  · exact enableHigh_cleanInv _ hreset
  · exact hreset

theorem enableLow_cleanInv (s : State) (hs : CleanInv s) : CleanInv (enableLow s) := by
  by_cases hoff : s.output.stage = .off
  · simpa [enableLow, hoff] using hs
  · rw [enableLow_eq hoff]
    refine .of_none fun ch => ?_
    have hout : (heldOff (freedOff s)).out ch = outOff (s.out ch) :=
      (freeRecords_out .enableLow false (indexes 48) (outputOff s) ch).trans (outputOff_out s ch)
    rw [hout]
    rfl

/-- A taking that may change what clean intervals are read from ends by reading them afresh; without that end it leaves
the channels and the stage. -/
theorem supplyOnset_cleanInv (c : SupplyCondition) (s : State) (hs : CleanInv s) : CleanInv (supplyOnset c s) := by
  unfold supplyOnset
  dsimp only
  split
  · exact hs
  · split
    · exact cleanChannels_inv _
    · split
      · exact settle_cleanInv _ _
      · exact hs.congr rfl rfl

theorem supplyClearing_cleanInv (c : SupplyCondition) (s : State) (hs : CleanInv s) : CleanInv (supplyClearing c s) := by
  unfold supplyClearing
  dsimp only
  split
  · split
    · exact cleanChannels_inv _
    · exact settle_cleanInv _ _
  · exact hs

theorem channelFault_cleanInv (ch : Channel) (k : FaultKind) (s : State) (hs : CleanInv s) :
    CleanInv (channelFault ch k s) := by
  unfold channelFault
  split
  · exact settle_cleanInv _ _
  · exact hs

theorem initEnds_cleanInv (s : State) (hs : CleanInv s) : CleanInv (initEnds s) := by
  unfold initEnds
  split
  · exact settle_cleanInv _ _
  · exact hs

theorem softstartEnds_cleanInv (s : State) (hs : CleanInv s) : CleanInv (softstartEnds s) := by
  unfold softstartEnds
  split
  · exact settle_cleanInv _ _
  · exact hs

theorem standbyExpires_cleanInv (s : State) (hs : CleanInv s) : CleanInv (standbyExpires s) := by
  unfold standbyExpires
  split
  · exact settle_cleanInv _ _
  · exact hs

theorem activeTimerEnds_cleanInv (s : State) (hs : CleanInv s) : CleanInv (activeTimerEnds s) := by
  unfold activeTimerEnds
  split
  · exact hs.congr rfl rfl
  · exact hs

theorem recoveryEnds_cleanInv (s : State) (hs : CleanInv s) : CleanInv (recoveryEnds s) := by
  unfold recoveryEnds
  split
  · split
    · exact hs.congr rfl rfl
    · exact settle_cleanInv _ _
  · exact hs

theorem retryEnds_cleanInv (ch : Channel) (s : State) (hs : CleanInv s) : CleanInv (retryEnds ch s) := by
  unfold retryEnds
  split
  · exact settle_cleanInv _ _
  · exact hs

theorem cleanEnds_cleanInv (ch : Channel) (s : State) (hs : CleanInv s) : CleanInv (cleanEnds ch s) := by
  unfold cleanEnds
  split
  · exact hs.modOut ch fun hruns => absurd rfl hruns
  · exact hs

theorem latchClearBody_cleanInv (s : State) (hs : CleanInv s) : CleanInv (latchClearBody s).1 := by
  unfold latchClearBody
  split
  · exact settle_cleanInv _ _
  · exact hs

theorem channelEnableBody_cleanInv (p : Port) (s : State) (hs : CleanInv s) : CleanInv (channelEnableBody p s).1 := by
  unfold channelEnableBody
  split
  · split
    · exact hs
    · exact settle_cleanInv _ _
  · exact hs

/-- The rearm mode is not read by the clean intervals. -/
theorem channelRearmModeBody_cleanInv (p : Port) (s : State) (hs : CleanInv s) :
    CleanInv (channelRearmModeBody p s).1 := by
  have hset : ∀ v, CleanInv (modesSet v (arg s p 0) s) := fun v ch hruns => by
    have hstage : (modesSet v (arg s p 0) s).output = s.output := by rw [modesSet_frame]
    rw [modesSet_out] at hruns ⊢
    rw [hstage]
    split at hruns
    · next h => rw [if_pos h]; exact hs ch hruns
    · next h => rw [if_neg h]; exact hs ch hruns
  unfold channelRearmModeBody
  split
  · split
    · exact hs
    · exact hset _
  · exact hs

theorem faultRearmBody_cleanInv (p : Port) (s : State) (hs : CleanInv s) : CleanInv (faultRearmBody p s).1 := by
  unfold faultRearmBody
  split
  · exact hs
  · exact settle_cleanInv _ _

theorem cleanInv_keptByStage : KeptByStage CleanInv where
  beside := fun _ _ h hs => hs.congr h.outs (by rw [h.output])
  settle := fun c s _ => settle_cleanInv c s
  cleanChannels := fun s _ => cleanChannels_inv s
  powerOn := fun pins s _ => powerOn_cleanInv pins s
  enableLow := enableLow_cleanInv
  enableHigh := enableHigh_cleanInv
  assertHold := fun _ _ => settle_cleanInv _ _
  releaseHold := fun _ _ => settle_cleanInv _ _
  supplyOnset := supplyOnset_cleanInv
  supplyClearing := supplyClearing_cleanInv
  channelFault := channelFault_cleanInv
  initEnds := initEnds_cleanInv
  softstartEnds := softstartEnds_cleanInv
  standbyExpires := standbyExpires_cleanInv
  activeTimerEnds := activeTimerEnds_cleanInv
  recoveryEnds := recoveryEnds_cleanInv
  retryEnds := retryEnds_cleanInv
  cleanEnds := cleanEnds_cleanInv
  outputRises := cleanChannel_inv
  latchClearBody := latchClearBody_cleanInv
  channelEnableBody := channelEnableBody_cleanInv
  channelRearmModeBody := channelRearmModeBody_cleanInv
  faultRearmBody := faultRearmBody_cleanInv

/-! ### The obligations -/

/-- Settles O47: each channel's interval follows its five things wherever they are read, and a taking that does not read
them leaves what they are read from. -/
theorem cleanIntervalRule : Obligations.CleanIntervalRule := by
  refine ⟨fun s ch => ?rule, fun s t hs hstep => cleanInv_keptByStage.keptByTakings.step hs hstep⟩
  have hafter : cleaned s ch = fun o => { o with
      cleanEnd :=
        if (s.out ch).fault = .ready ∧ (s.out ch).enabled = true ∧ s.output.stage = .active ∧
          0 < (outputLevel s ch).val ∧ 0 < (s.out ch).retry
        then some (o.cleanEnd.getD (s.now + 10000)) else none } := by
    funext o
    simp only [cleaned_eq, cleanHolds_iff]
  refine ⟨?_, cleanChannels_frame s, ?_, fun hdue => congrArg Host.Outcome.next (cleanEnds_due hdue)⟩
  · rw [cleanChannels_out, hafter]
  · rw [← hafter]
    rfl

/-- The straps and pins as the machine right after power-on reset has sampled them. -/
def resetPins : PowerOnPins :=
  { msel := 0, lts := false, address0 := 0, address1 := 0, enable := false, hold := false, lampSupplyLow := false,
    overcurrent := false, overtempWarn := false, overtempShutdown := false, lines := 0 }

/-- The machine right after power-on reset is what a power-on reset leaves (R110, R193). -/
theorem reset_eq_powerOnState : State.reset = powerOnState resetPins State.reset := rfl

theorem powerOnState_ceilings (pins : PowerOnPins) (s : State) : CeilingsHold (powerOnState pins s) :=
  fun slot c _ hclaim _ => by
    rw [powerOnState_record] at hclaim
    cases hclaim

/-- Settles O53: each invariant holds after every power-on reset. -/
theorem resetSatisfiesInvariants : Obligations.ResetSatisfiesInvariants := by
  have hbounded := powerOnState_bounded resetPins State.reset
  unfold Obligations.ResetSatisfiesInvariants
  rw [reset_eq_powerOnState]
  exact ⟨powerOnState_stageInv _ _, powerOnState_modulator_inv _ _, powerOnState_counts _ _, powerOnState_ceilings _ _,
    powerOnState_lists _ _, hbounded.queues, hbounded.retries, powerOnState_cleanInv _ _⟩

end Sys2Proof.Machine

namespace Sys2Proof.Machine

/-! ## A stage entered at the end of a taking (R131, R151, R153, R171) -/

/-! ### A stage that is entered and then stays -/

section Entered

variable {st : StageName} {c : Cause} {u : State} (d : Cause)

theorem entered_lampTest : (settle d (enterStage st c u)).lampTest =
    if endsLampTest u.output.stage st then none else u.lampTest := by rw [settle_lampTest, enterStage_lampTest]

theorem entered_watches : (settle d (enterStage st c u)).watches = u.watches := by
  rw [settle_watches, enterStage_watches]

theorem entered_retry (ch : Channel) : ((settle d (enterStage st c u)).out ch).retry = (u.out ch).retry := by
  obtain ⟨-, -, hretry, -, -⟩ := pauseRetry_keeps u.now (u.out ch)
  rw [settle_retry, enterStage_out]
  split
  · exact hretry
  · rfl

/-- A stage but LATCHED leaves the faults. -/
theorem entered_faultsKept {s : State} (h : FaultsKept s u) (hst : st ≠ .latched) :
    FaultsKept s (settle d (enterStage st c u)) :=
  FaultsKept.settle (fun ch => by rw [enterStage_out, if_neg hst]; exact h ch) d

/-- LATCHED pauses the retry timers (R171). -/
theorem latched_fault (ch : Channel) :
    ((settle d (enterStage .latched c u)).out ch).fault = pausedFault u.now (u.out ch).fault := by
  obtain ⟨-, -, -, hfault, -⟩ := pauseRetry_keeps u.now (u.out ch)
  rw [settle_fault, enterStage_out, if_pos rfl, hfault]

theorem entered_stays (hst : st ≠ .standby) : mayStart (enterStage st c u) = false :=
  mayStart_of_stage (by rw [enterStage_output]; exact hst)

variable (hstays : mayStart (enterStage st c u) = false)

include hstays

theorem entered_output (hst : st ≠ .active) : (settle d (enterStage st c u)).output =
    { u.output.enter st c u.now with demand := demandNow (settle d (enterStage st c u)) } := by
  have hentered := enterStage_output st c u
  rw [settle_stays_output d hstays, withDemand_outside_active (by rw [hentered]; exact hst), hentered]

theorem entered_port (p : Port) : (settle d (enterStage st c u)).port p = offerTo (.stage st c) (u.port p) := by
  rw [settle_port, if_neg (by simp [hstays]), enterStage_port]

theorem entered_queued (p : Port) : Queued [.stage st c] (u.port p) ((settle d (enterStage st c u)).port p) := by
  rw [entered_port d hstays]
  exact Queued.offer _ _

end Entered

end Sys2Proof.Machine

namespace Sys2Proof.Machine

/-! ## Supply conditions (R162, R163, R164) -/

/-- A supply condition recorded as present or absent, before the stage's move (R162). -/
def supplyRecorded (x : SupplyCondition) (v : Bool) (s : State) : State :=
  s.modOutput fun o => { o with supply := o.supply.put x v }

/-- A forcing condition recorded as present, and one more recovery counted (R163). -/
def supplyForced (x : SupplyCondition) (s : State) : State :=
  (supplyRecorded x true s).modOutput fun o => { o with recovery := o.recovery + 1 }

section Recorded

variable {s : State} (x : SupplyCondition)

theorem supplyRecorded_lampSide (v : Bool) (hs : ModulatorInv s) : LampSide s (supplyRecorded x v s) := .of_inv hs rfl rfl

theorem supplyForced_lampSide (hs : ModulatorInv s) : LampSide s (supplyForced x s) := .of_inv hs rfl rfl

theorem supplyForced_faultsKept (s : State) : FaultsKept s (supplyForced x s) := fun _ => ⟨rfl, rfl⟩

theorem forcingCause_eq_none {x : SupplyCondition} : forcingCause x = none ↔ x = .overtempWarn := by
  cases x <;> decide

/-! ### The onset -/

theorem supplyOnset_present (h : s.output.supply.get x = true) : supplyOnset x s = s := if_pos h

variable {x}

theorem supplyOnset_absent (h : s.output.supply.get x = false) : supplyOnset x s =
    match forcingCause x with
    | none => cleanChannels (supplyRecorded x true s)
    | some cause =>
      if lampsUp s.output.stage then settle .demand (forceDown cause (supplyRecorded x true s))
      else supplyRecorded x true s := if_neg (by simp [h])

theorem supplyOnset_warns (h : s.output.supply.get x = false) (hx : forcingCause x = none) :
    supplyOnset x s = cleanChannels (supplyRecorded x true s) := by rw [supplyOnset_absent h, hx]

theorem supplyOnset_dark {cause : Cause} (h : s.output.supply.get x = false) (hx : forcingCause x = some cause)
    (hdown : lampsUp s.output.stage = false) : supplyOnset x s = supplyRecorded x true s := by
  rw [supplyOnset_absent h, hx]
  exact if_neg (by simp [hdown])

theorem supplyOnset_up {cause : Cause} (h : s.output.supply.get x = false) (hx : forcingCause x = some cause)
    (hup : lampsUp s.output.stage = true) :
    supplyOnset x s = settle .demand (forceDown cause (supplyRecorded x true s)) := by
  rw [supplyOnset_absent h, hx]
  exact if_pos hup

theorem forceDown_recovers (cause : Cause) (h : s.output.recovery + 1 < 4) :
    forceDown cause (supplyRecorded x true s) = enterStage .recovery cause (supplyForced x s) := if_pos h

theorem forceDown_latches (cause : Cause) (h : ¬ s.output.recovery + 1 < 4) :
    forceDown cause (supplyRecorded x true s) = enterStage .latched .recoveryLimit (supplyForced x s) := if_neg h

/-- The state in which the onset of a forcing condition takes the lamps down, to a stage and with a cause (R163). -/
def forcedTo (st : StageName) (c : Cause) (x : SupplyCondition) (s : State) : State :=
  settle .demand (enterStage st c (supplyForced x s))

section ForcedTo

variable {st : StageName} {c : Cause}

theorem forcedTo_lampSide (hst : st ≠ .active) (hs : ModulatorInv s) : LampSide s (forcedTo st c x s) :=
  ((supplyForced_lampSide x hs).enterStage c hst).settle .demand

theorem forcedTo_lampTest (hst : st = .recovery ∨ st = .latched) : (forcedTo st c x s).lampTest = none := by
  unfold forcedTo
  rw [entered_lampTest]
  exact if_pos (by rcases hst with rfl | rfl <;> simp [endsLampTest])

theorem forcedTo_watches : (forcedTo st c x s).watches = s.watches := entered_watches .demand

theorem forcedTo_retry (ch : Channel) : ((forcedTo st c x s).out ch).retry = (s.out ch).retry := entered_retry .demand ch

theorem forcedTo_queued (hst : st ≠ .standby) (p : Port) :
    Queued [.stage st c] (s.port p) ((forcedTo st c x s).port p) :=
  entered_queued (u := supplyForced x s) .demand (entered_stays hst) p

theorem forcedTo_output (hst : st ≠ .standby) (hactive : st ≠ .active) : (forcedTo st c x s).output =
    { (supplyForced x s).output.enter st c s.now with demand := demandNow (forcedTo st c x s) } :=
  entered_output .demand (entered_stays hst) hactive

theorem forcedTo_cleanEnd (hst : st ≠ .standby) (hactive : st ≠ .active) :
    ∀ ch, ((forcedTo st c x s).out ch).cleanEnd = none :=
  settle_cleanEnd_none .demand (by
    show (forcedTo st c x s).output.stage ≠ .active
    rw [forcedTo_output hst hactive]
    exact hactive)

end ForcedTo

/-! ### The clearing -/

variable (x)

theorem supplyClearing_absent (h : s.output.supply.get x = false) : supplyClearing x s = s := if_neg (by simp [h])

variable {x}

theorem supplyClearing_present (h : s.output.supply.get x = true) : supplyClearing x s =
    match forcingCause x with
    | none => cleanChannels (supplyRecorded x false s)
    | some _ => settle .supplyClear (supplyRecorded x false s) := if_pos h

theorem supplyClearing_warns (h : s.output.supply.get x = true) (hx : forcingCause x = none) :
    supplyClearing x s = cleanChannels (supplyRecorded x false s) := by rw [supplyClearing_present h, hx]

theorem supplyClearing_forcing (h : s.output.supply.get x = true) (hx : forcingCause x ≠ none) :
    supplyClearing x s = settle .supplyClear (supplyRecorded x false s) := by
  obtain ⟨cause, hcause⟩ := Option.ne_none_iff_exists'.mp hx
  rw [supplyClearing_present h, hcause]

/-- Demand does not read the supply (R156). -/
theorem supplyRecorded_mayStart_iff {v : Bool} : mayStart (supplyRecorded x v s) = true ↔
    s.output.stage = .standby ∧ demandNow s = true ∧ s.output.hold = false ∧ (s.output.supply.put x v).forcing = false :=
  mayStart_iff

end Recorded

/-! ### The obligation -/

/-- Settles O42: the condition recorded, the stage taken down where the lamps were up, and the end of the taking. -/
theorem supplyConditionsTaken : Obligations.SupplyConditionsTaken := by
  refine ⟨fun s x => ⟨fun hpresent => ?_, fun habsent => ⟨fun hwarn => ?_, fun cause hx => ⟨fun hsoft hactive => ?_, ?up⟩⟩⟩,
    fun s x => ⟨fun habsent => ?_, fun hpresent => ⟨fun hwarn => ?_, ?cleared⟩⟩⟩
  · exact congrArg Host.Outcome.next (supplyOnset_present x hpresent)
  · exact congrArg Host.Outcome.next (supplyOnset_warns habsent (forcingCause_eq_none.mpr hwarn))
  · have hdown : lampsUp s.output.stage = false := Bool.eq_false_iff.mpr fun hup =>
      ((lampsUp_iff _).mp hup).elim hsoft hactive
    exact congrArg Host.Outcome.next (supplyOnset_dark habsent hx hdown)
  case up =>
    intro hup hs
    have hrun := supplyOnset_up habsent hx ((lampsUp_iff _).mpr hup)
    by_cases hroom : s.output.recovery + 1 < 4
    · rw [forceDown_recovers cause hroom] at hrun
      exact ⟨forcedTo .recovery cause x s, congrArg Host.Outcome.next hrun, forcedTo_lampSide (by decide) hs,
        forcedTo_lampTest (.inl rfl), forcedTo_watches, forcedTo_cleanEnd (by decide) (by decide), forcedTo_retry,
        fun _ => ⟨entered_faultsKept .demand (supplyForced_faultsKept x s) (by decide), forcedTo_queued (by decide),
          forcedTo_output (by decide) (by decide)⟩,
        fun hfull => absurd hroom (Nat.not_lt.mpr hfull)⟩
    · rw [forceDown_latches cause hroom] at hrun
      exact ⟨forcedTo .latched .recoveryLimit x s, congrArg Host.Outcome.next hrun, forcedTo_lampSide (by decide) hs,
        forcedTo_lampTest (.inr rfl), forcedTo_watches, forcedTo_cleanEnd (by decide) (by decide), forcedTo_retry,
        fun h => absurd h hroom,
        fun _ => ⟨forcedTo_queued (by decide), latched_fault .demand, forcedTo_output (by decide) (by decide)⟩⟩
  · exact congrArg Host.Outcome.next (supplyClearing_absent x habsent)
  · exact congrArg Host.Outcome.next (supplyClearing_warns hpresent (forcingCause_eq_none.mpr hwarn))
  case cleared =>
    intro hx hs
    have hrun := supplyClearing_forcing hpresent fun h => hx (forcingCause_eq_none.mp h)
    refine ⟨_, congrArg Host.Outcome.next hrun, (supplyRecorded_lampSide x false hs).settle _,
      FaultsKept.settle (u := supplyRecorded x false s) (fun _ => ⟨rfl, rfl⟩) _,
      settle_lampTest .supplyClear (supplyRecorded x false s), settle_watches .supplyClear (supplyRecorded x false s),
      (settle_kept .supplyClear (supplyRecorded x false s)).supply,
      fun hstage hdemand hhold hforcing => ?starts, fun h => ?stays⟩
    case starts =>
      have hstarts := supplyRecorded_mayStart_iff.mpr ⟨hstage, hdemand, hhold, hforcing⟩
      refine ⟨settle_starts_output .supplyClear hstarts, fun p => ?_⟩
      rw [settle_port, if_pos hstarts]
      exact Queued.offer _ _
    case stays =>
      have hstays : mayStart (supplyRecorded x false s) = false := Bool.eq_false_iff.mpr fun k => by
        obtain ⟨hstage, hdemand, hhold, hforcing⟩ := supplyRecorded_mayStart_iff.mp k
        rcases h with h | h | h | h
        · exact h hstage
        · simp [h] at hdemand
        · simp [h] at hhold
        · simp [h] at hforcing
      exact ⟨settle_stays_output .supplyClear hstays, settle_stays_modulator .supplyClear hstays,
        settle_stays_ports .supplyClear hstays⟩

end Sys2Proof.Machine

namespace Sys2Proof.Machine

/-! ## STANDBY entered, and left at once where it may be (R157) -/

/-- STANDBY entered, and the end of the taking. -/
def standbyTaken (c : Cause) (u : State) : State := settle .demand (enterStage .standby c u)

section StandbyTaken

variable {c : Cause} {u : State}

theorem standbyTaken_entered : StandbyEntered c u.output (standbyTaken c u) :=
  settle_standbyEntered (enterStage_output .standby c u)

theorem standbyTaken_stage : (standbyTaken c u).output.stage =
    if mayStart (enterStage .standby c u) then .softstart else .standby := by
  unfold standbyTaken
  cases hstart : mayStart (enterStage .standby c u) with
  | true => rw [settle_starts_output .demand hstart]; rfl
  | false => rw [entered_output .demand hstart (by decide)]; rfl

theorem standbyTaken_cleanEnd (ch : Channel) : ((standbyTaken c u).out ch).cleanEnd = none :=
  settle_cleanEnd_none .demand (by
    show (standbyTaken c u).output.stage ≠ .active
    rw [standbyTaken_stage]
    split <;> decide) ch

/-- The two STAGE notices in their order (R153, R157). -/
theorem standbyTaken_queued (p : Port) : Queued
    (.stage .standby c :: if (standbyTaken c u).output.stage = .softstart then [.stage .softstart .demand] else [])
    (u.port p) ((standbyTaken c u).port p) := by
  have hport : (standbyTaken c u).port p = if mayStart (enterStage .standby c u) then
      offerTo (.stage .softstart .demand) (offerTo (.stage .standby c) (u.port p))
      else offerTo (.stage .standby c) (u.port p) := by
    rw [standbyTaken, settle_port, enterStage_port]
  rw [standbyTaken_stage, hport]
  cases mayStart (enterStage .standby c u) <;> exact ⟨rfl, rfl⟩

end StandbyTaken

/-! ## The ends of the stage's intervals and timers (R157 to R160, R164) -/

/-- A channel that demands after a stage change demanded before it, and no stage change starts a lamp test (R156). -/
theorem demandNow_enterStage {st : StageName} {c : Cause} {s : State} (hst : st ≠ .latched)
    (hstage : s.output.stage ≠ .off ∧ s.output.stage ≠ .init) (h : demandNow s = false) :
    demandNow (enterStage st c s) = false := by
  rw [Bool.eq_false_iff] at h ⊢
  intro hdemand
  obtain ⟨-, -, hgives⟩ := (demandNow_iff _).mp hdemand
  refine h ((demandNow_iff s).mpr ⟨hstage.1, hstage.2, hgives.imp (fun htest => ?test) ?channel⟩)
  case test =>
    rw [enterStage_lampTest] at htest
    split at htest
    · exact absurd rfl htest
    · exact htest
  case channel =>
    rintro ⟨ch, henabled, hready, htarget⟩
    rw [enterStage_out, if_neg hst] at henabled hready
    exact ⟨ch, henabled, hready, enterStage_entry st c s ch ▸ htarget⟩

theorem softstartEnds_due {s : State} (h : dueAt s.output.softEnd s.now = true) :
    softstartEnds s = settle .demand (enterStage .active .softstartEnd s) := if_pos h

theorem standbyExpires_due {s : State} (h : dueAt s.output.standbyEnd s.now = true) :
    standbyExpires s = standbyTaken .noDemand s := if_pos h

theorem activeTimerEnds_due {s : State} (h : dueAt s.output.activeEnd s.now = true) :
    activeTimerEnds s = s.modOutput fun o => { o with recovery := 0, activeEnd := none } := if_pos h

theorem recoveryEnds_waits {s : State} (h : dueAt s.output.recoveryEnd s.now = true)
    (hforcing : s.output.supply.forcing = true) :
    recoveryEnds s = s.modOutput fun o => { o with recoveryEnd := some (s.now + 250) } := (if_pos h).trans (if_pos hforcing)

theorem recoveryEnds_returns {s : State} (h : dueAt s.output.recoveryEnd s.now = true)
    (hforcing : s.output.supply.forcing = false) : recoveryEnds s = standbyTaken .recoveryEnd s :=
  (if_pos h).trans (if_neg (by simp [hforcing]))

theorem LampSide.self {s : State} (hs : ModulatorInv s) : LampSide s s := .of_inv hs rfl rfl

theorem standbyTaken_lampSide (c : Cause) {s : State} (hs : ModulatorInv s) : LampSide s (standbyTaken c s) :=
  ((LampSide.self hs).enterStage c (by decide)).settle .demand

theorem standbyTaken_faultsKept (c : Cause) (s : State) : FaultsKept s (standbyTaken c s) :=
  entered_faultsKept .demand (fun _ => ⟨rfl, rfl⟩) (by decide)

/-! ### SOFTSTART to ACTIVE -/

/-- From a state that agrees with the stage each channel opens, closes or goes on as the stage entered says (R131). -/
theorem LampSide.entersFirst (st : StageName) (c : Cause) {s : State} (hs : ModulatorInv s) (hst : st ≠ .latched) :
    LampSide s (Machine.enterStage st c s) := by
  have hout : ∀ ch, (Machine.enterStage st c s).out ch = s.out ch := fun ch => by rw [enterStage_out, if_neg hst]
  have hport := enterStage_port st c s
  refine (LampSide.self hs).extend ?_ (enterStage_chan st c s) (fun ch => by rw [hout]) (fun ch => by rw [hout])
    (fun p => hport p ▸ offerTo_registers _ _) (enterStage_results st c s) (fun p => hport p ▸ offerTo_queue _ _)
    (fun w => by rw [enterStage_watch]; exact .refl _)
  have hframe := enterStage_frame st c s
  exact hframe.trans (by simp)

/-- ACTIVE with its duration timer, and the standby delay by demand (R158, R159). -/
theorem activeTaken_output (s : State) : (settle .demand (enterStage .active .softstartEnd s)).output =
    { s.output.idle with
      stage := .active, lastCause := .softstartEnd, activeEnd := some (s.now + 10000),
      standbyEnd := delayAfter s.now none (demandNow (settle .demand (enterStage .active .softstartEnd s))),
      demand := demandNow (settle .demand (enterStage .active .softstartEnd s)) } := by
  rw [settle_stays_output .demand (entered_stays (by decide)), enterStage_output, enterStage_now]
  rfl

theorem activeTaken_lampTest {s : State} (h : s.output.stage = .softstart) :
    (settle .demand (enterStage .active .softstartEnd s)).lampTest = s.lampTest := by
  rw [entered_lampTest, h]
  rfl

/-! ### The standby delay -/

theorem standbyExpires_output {s : State} (hactive : s.output.stage = .active) (hread : s.output.demand = false)
    (hdemand : demandNow s = false) :
    (standbyTaken .noDemand s).output = { s.output.idle with stage := .standby, lastCause := .noDemand } := by
  have habsent : demandNow (enterStage .standby .noDemand s) = false :=
    demandNow_enterStage (by decide) (by rw [hactive]; decide) hdemand
  have hstays : mayStart (enterStage .standby .noDemand s) = false := Bool.eq_false_iff.mpr fun h => by
    obtain ⟨-, hpresent, -, -⟩ := mayStart_iff.mp h
    rw [habsent] at hpresent
    cases hpresent
  unfold standbyTaken
  rw [entered_output .demand hstays (by decide), demandNow_settle, habsent, ← hread]
  rfl

theorem standbyExpires_queued {s : State} (h : (standbyTaken .noDemand s).output.stage = .standby) (p : Port) :
    Queued [.stage .standby .noDemand] (s.port p) ((standbyTaken .noDemand s).port p) := by
  have hqueued := standbyTaken_queued (c := .noDemand) (u := s) p
  rw [h] at hqueued
  exact hqueued

/-- Settles O43: each stage entered, and the end of the taking. -/
theorem stageIntervalsEnd : Obligations.StageIntervalsEnd := by
  intro s hs
  refine ⟨fun hsoft hdue => ?softstart, fun hactive hread hdemand hdue => ?standby,
    fun hdue => congrArg Host.Outcome.next (activeTimerEnds_due hdue), fun _ hdue => ⟨fun hforcing => ?_, fun hforcing => ?returns⟩⟩
  case softstart =>
    exact ⟨_, congrArg Host.Outcome.next (softstartEnds_due hdue),
      (LampSide.entersFirst .active .softstartEnd hs (by decide)).settle .demand,
      entered_faultsKept .demand (fun _ => ⟨rfl, rfl⟩) (by decide), activeTaken_lampTest hsoft,
      entered_queued .demand (entered_stays (by decide)), entered_watches .demand, activeTaken_output s⟩
  case standby =>
    have hout := standbyExpires_output hactive hread hdemand
    exact ⟨_, congrArg Host.Outcome.next (standbyExpires_due hdue), standbyTaken_lampSide _ hs,
      standbyTaken_faultsKept _ s, standbyExpires_queued (by rw [hout]), entered_watches .demand, standbyTaken_cleanEnd, hout⟩
  · exact congrArg Host.Outcome.next (recoveryEnds_waits hdue hforcing)
  case returns =>
    exact ⟨_, congrArg Host.Outcome.next (recoveryEnds_returns hdue hforcing), standbyTaken_lampSide _ hs,
      standbyTaken_faultsKept _ s, standbyTaken_entered, entered_watches .demand, standbyTaken_cleanEnd,
      standbyTaken_queued⟩

end Sys2Proof.Machine

namespace Sys2Proof.Machine

/-! ## LATCH_CLEAR (R157, R166) -/

/-! ### STANDBY taken, and what it leaves -/

section StandbyTaken

variable (c : Cause) (u : State)

theorem standbyTaken_frame : standbyTaken c u = { u with
    output := (standbyTaken c u).output, outs := (standbyTaken c u).outs, modulator := (standbyTaken c u).modulator,
    ports := (standbyTaken c u).ports, lampTest := (standbyTaken c u).lampTest } := by
  apply state_eq <;> simp [standbyTaken]

theorem standbyTaken_out (ch : Channel) : (standbyTaken c u).out ch = { u.out ch with cleanEnd := none } := by
  have hclean := standbyTaken_cleanEnd (c := c) (u := u) ch
  unfold standbyTaken at hclean ⊢
  rw [settle_out, hclean, enterStage_out, if_neg (by decide)]

theorem standbyTaken_results : SameResults u (standbyTaken c u) :=
  (enterStage_results .standby c u).trans (settle_results .demand _)

theorem standbyTaken_registers (p : Port) : RegistersKept (u.port p) ((standbyTaken c u).port p) :=
  (enterStage_port .standby c u p ▸ offerTo_registers _ _).trans ((settle_kept .demand _).registers p)

theorem standbyTaken_watch (w : WatchNo) : (standbyTaken c u).watch w = u.watch w := by
  rw [standbyTaken, settle_watch, enterStage_watch]

end StandbyTaken

/-- Outside ACTIVE every channel is closed (R131). -/
theorem isOpen_outside_active {s : State} (h : s.output.stage ≠ .active) (ch : Channel) : isOpen s ch = false := by
  simp [isOpen, h]

/-- Channels that were closed and are closed have gone on. -/
theorem Reopened.modulator_eq {s t : State} (h : Reopened s t) (hs : ModulatorInv s) (hbefore : s.output.stage ≠ .active)
    (hafter : t.output.stage ≠ .active) : t.modulator = s.modulator := table_ext fun ch => by
  have hparked : (s.chan ch).fade = .parked ↔ false = false :=
    iff_of_true ((hs.parked ch).mpr (isOpen_outside_active hbefore ch)) rfl
  have hchan := h ch
  rw [isOpen_outside_active hafter, openOrClose_agrees hparked] at hchan
  exact hchan

/-! ### The channels rearmed before it -/

theorem rearmChannel_registers (ch : Channel) (s : State) (q : Port) :
    RegistersKept (s.port q) ((rearmChannel ch s).port q) := by
  rw [rearmChannel_port]
  split
  · exact (fireWatches_kept .fault ch.val (.fault ch .ready) s).registers q
  · exact .refl _

theorem channelsRearmed_registers (l : List Channel) (s : State) (q : Port) :
    RegistersKept (s.port q) ((channelsRearmed l s).port q) :=
  forEach_preserves (fun u => RegistersKept (s.port q) (u.port q)) l rearmChannel
    (fun ch u hu => hu.trans (rearmChannel_registers ch u q)) s (.refl _)

section LatchRearmed

variable (s : State)

theorem allRearmed_set : ChannelsSet rearm (indexes 16) s (channelsRearmed (indexes 16) s) :=
  channelsRearmed_set s (nodup_indexes 16)

theorem latchRearmed_output : (latchRearmed s).output = { s.output with recovery := 0 } := by
  rw [latchRearmed, State.modOutput_output, (allRearmed_set s).output_eq]

theorem latchRearmed_now : (latchRearmed s).now = s.now := by
  rw [latchRearmed, State.modOutput_now, (allRearmed_set s).now_eq]

theorem latchRearmed_lampTest : (latchRearmed s).lampTest = s.lampTest := by
  rw [latchRearmed, State.modOutput_lampTest, (allRearmed_set s).lampTest_eq]

theorem latchRearmed_out (ch : Channel) : (latchRearmed s).out ch = rearm (s.out ch) := by
  rw [latchRearmed, State.modOutput_out, (allRearmed_set s).out, if_pos (mem_indexes ch)]

theorem latchRearmed_port (q : Port) : (latchRearmed s).port q = (channelsRearmed (indexes 16) s).port q := by
  rw [latchRearmed, State.modOutput_port]

theorem latchRearmed_results : SameResults s (latchRearmed s) := fun q => by
  rw [latchRearmed_port]
  exact channelsRearmed_results s (indexes 16) q

theorem latchRearmed_registers (q : Port) : RegistersKept (s.port q) ((latchRearmed s).port q) := by
  rw [latchRearmed_port]
  exact channelsRearmed_registers (indexes 16) s q

theorem latchRearmed_queued (q : Port) : Queued (readyTold q (indexes 16) s) (s.port q) ((latchRearmed s).port q) := by
  rw [latchRearmed_port]
  exact (channelsRearmed_queued s (nodup_indexes 16) q).1

theorem latchRearmed_watch (w : WatchNo) : (latchRearmed s).watch w =
    spentBy .fault ((indexes 16).filter fun ch => isFaulted (s.out ch)) (s.watch w) := by
  rw [latchRearmed, State.modOutput_watch, channelsRearmed_watch s (nodup_indexes 16)]

theorem latchRearmed_frame : latchRearmed s = { s with
    outs := (latchRearmed s).outs, modulator := (latchRearmed s).modulator, ports := (latchRearmed s).ports,
    watches := (latchRearmed s).watches, output := (latchRearmed s).output } := by
  have hframe := (allRearmed_set s).frame
  unfold latchRearmed
  generalize channelsRearmed (indexes 16) s = u at hframe
  rw [hframe]
  rfl

theorem latchRearmed_reopened {s : State} (hs : ModulatorInv s) : Reopened s (latchRearmed s) :=
  ((allRearmed_set s).reopened hs).congr (by rw [latchRearmed, State.modOutput_modulator]) fun ch => by
    exact isOpen_congr (by rw [latchRearmed_output, (allRearmed_set s).output_eq])
      (by rw [latchRearmed, State.modOutput_out])

end LatchRearmed

/-! ### LATCHED left -/

/-- What LATCH_CLEAR in LATCHED makes of the state, without its answer (R166). -/
def latchCleared (s : State) : State := standbyTaken .latchClear (latchRearmed s)

section LatchCleared

variable {s : State}

theorem latchCleared_stage : (latchCleared s).output.stage ≠ .active := by
  unfold latchCleared
  rw [standbyTaken_stage]
  split <;> decide

theorem latchCleared_reopened (hs : ModulatorInv s) : Reopened s (latchCleared s) := by
  have hentered : Reopened s (enterStage .standby .latchClear (latchRearmed s)) :=
    (latchRearmed_reopened hs).enterStage (latchRearmed_now s) .latchClear (by decide)
  exact hentered.settle ((enterStage_now ..).trans (latchRearmed_now s)) .demand

/-- From LATCHED to STANDBY or SOFTSTART no channel opens or closes. -/
theorem latchCleared_modulator (hlatched : s.output.stage = .latched) (hs : ModulatorInv s) :
    (latchCleared s).modulator = s.modulator :=
  (latchCleared_reopened hs).modulator_eq hs (by rw [hlatched]; decide) latchCleared_stage

/-- No lamp test ends on the move from LATCHED to STANDBY (R147). -/
theorem latchCleared_lampTest (hlatched : s.output.stage = .latched) : (latchCleared s).lampTest = s.lampTest := by
  rw [latchCleared, standbyTaken, entered_lampTest, latchRearmed_output, latchRearmed_lampTest, hlatched]
  rfl

theorem latchCleared_frame (hlatched : s.output.stage = .latched) (hs : ModulatorInv s) : latchCleared s = { s with
    output := (latchCleared s).output, outs := (latchCleared s).outs, ports := (latchCleared s).ports,
    watches := (latchCleared s).watches } := by
  have hentered : latchCleared s = { latchRearmed s with
      output := (latchCleared s).output, outs := (latchCleared s).outs, modulator := (latchCleared s).modulator,
      ports := (latchCleared s).ports, lampTest := (latchCleared s).lampTest } := by
    unfold latchCleared
    exact standbyTaken_frame .latchClear (latchRearmed s)
  have hwatches : (latchCleared s).watches = (latchRearmed s).watches :=
    entered_watches (st := .standby) (c := .latchClear) (u := latchRearmed s) .demand
  have hrearmed := latchRearmed_frame s
  rw [latchCleared_modulator hlatched hs, latchCleared_lampTest hlatched] at hentered
  rw [hwatches]
  generalize latchCleared s = t at hentered ⊢
  generalize latchRearmed s = u at hentered hrearmed ⊢
  rw [hrearmed] at hentered
  exact hentered

/-- FAULT READY of each channel, and then the STAGE notices (R166, R186). -/
theorem latchCleared_queued (s : State) (q : Port) : Queued
    (readyTold q (indexes 16) s ++ .stage .standby .latchClear ::
      if (latchCleared s).output.stage = .softstart then [.stage .softstart .demand] else [])
    (s.port q) ((latchCleared s).port q) :=
  (latchRearmed_queued s q).trans (standbyTaken_queued (c := .latchClear) (u := latchRearmed s) q)
    (latchRearmed_registers s q).kindMask

end LatchCleared

/-- An answer queues nothing. -/
theorem Queued.answered {ns : List Notice} {q : Port} {r : PortState} {t : State} (h : Queued ns r (t.port q)) (p : Port)
    (hd : Option Handle) (x : Nat) (hmask : (t.port q).kindMask = r.kindMask) :
    Queued ns r ((acceptedState p hd x t).port q) := by
  have hanswered := h.trans (acceptedState_queued p q hd x t) hmask
  rw [List.append_nil] at hanswered
  exact hanswered

/-- An answer leaves the output stage and demand. -/
theorem StandbyEntered.accepted {c : Cause} {o : OutputStage} {t : State} (h : StandbyEntered c o t) (p : Port)
    (hd : Option Handle) (x : Nat) : StandbyEntered c o (acceptedState p hd x t) := h

theorem latchClearBody_refused {s : State} (h : s.output.stage ≠ .latched) :
    latchClearBody s = refuse .wrongState 0 s := if_neg h

theorem latchClearBody_done {s : State} (h : s.output.stage = .latched) : latchClearBody s =
    done none ((indexes 16).filter fun ch => decide ((s.out ch).fault ≠ .ready)).length (latchCleared s) := by
  have hcount : faultedCount s (indexes 16) = ((indexes 16).filter fun ch => decide ((s.out ch).fault ≠ .ready)).length := by
    simp only [faultedCount, isFaulted_eq]
  rw [← hcount]
  exact if_pos h

/-- Settles O44: the channels rearmed one after another, STANDBY entered, and the end of the taking with its answer. -/
theorem latchClearRearmsAll : Obligations.LatchClearRearmsAll := by
  intro p s htaken
  refine ⟨fun h => ?refused, fun hlatched hs => ?taken⟩
  case refused => exact congrArg Host.Outcome.next (takeCommand_refused htaken (latchClearBody_refused h) (by decide))
  case taken =>
    have hresults := (latchRearmed_results s).trans (standbyTaken_results .latchClear (latchRearmed s))
    have hregisters : ∀ q, RegistersKept (s.port q) ((latchCleared s).port q) := fun q =>
      (latchRearmed_registers s q).trans (standbyTaken_registers .latchClear (latchRearmed s) q)
    have hframe := latchCleared_frame hlatched hs
    refine ⟨_, congrArg Host.Outcome.next (takeCommand_done htaken (latchClearBody_done hlatched)), ?frame, fun ch => ?out,
      ?entered, fun q => ?queued, acceptedState_accepted hresults, acceptedState_others hresults,
      fun q => (hregisters q).trans ((acceptedState_kept ..).registers q), fun w => ?watches⟩
    case frame =>
      generalize latchCleared s = u at hframe ⊢
      rw [hframe]
      rfl
    case out =>
      rw [acceptedState_out, latchCleared, standbyTaken_out, latchRearmed_out]
      rfl
    case entered =>
      rw [← latchRearmed_output]
      exact StandbyEntered.accepted (standbyTaken_entered (c := .latchClear) (u := latchRearmed s)) p none _
    case queued =>
      rw [acceptedState_output]
      exact (latchCleared_queued s q).answered p none _ (hregisters q).kindMask
    case watches =>
      rw [acceptedState_watch, latchCleared, standbyTaken_watch, latchRearmed_watch]

end Sys2Proof.Machine

namespace Sys2Proof.Machine

/-! ## Channel fault events (R169, R170) -/

/-! ### Which are taken -/

theorem refusesCommands_iff {st : StageName} : refusesCommands st = false ↔ st ≠ .off ∧ st ≠ .init := by
  cases st <;> decide

theorem faultIsTaken_iff {s : State} {ch : Channel} {k : FaultKind} : faultIsTaken s ch k = true ↔
    (s.out ch).enabled = true ∧ (s.out ch).fault = .ready ∧
      (if k = .ground then s.output.stage ≠ .off ∧ s.output.stage ≠ .init
        else s.output.stage = .active ∧ 0 < (outputLevel s ch).val) := by
  cases k <;> simp [faultIsTaken, and_assoc, refusesCommands_iff]

theorem channelFault_ignored {s : State} {ch : Channel} {k : FaultKind} (h : faultIsTaken s ch k = false) :
    channelFault ch k s = s := if_neg (by simp [h])

/-- What refuses a fault event, one by one (R169). -/
theorem faultIsTaken_false {s : State} {ch : Channel} {k : FaultKind}
    (h : (s.out ch).enabled = false ∨ (s.out ch).fault ≠ .ready ∨
      (k ≠ .ground ∧ (s.output.stage ≠ .active ∨ outputLevel s ch = 0)) ∨
      (k = .ground ∧ (s.output.stage = .off ∨ s.output.stage = .init))) : faultIsTaken s ch k = false :=
  Bool.eq_false_iff.mpr fun htaken => by
    obtain ⟨henabled, hready, hstage⟩ := faultIsTaken_iff.mp htaken
    rcases h with hdisabled | hfaulted | ⟨hkind, hlevel⟩ | ⟨hkind, hbefore⟩
    · rw [hdisabled] at henabled
      cases henabled
    · exact hfaulted hready
    · obtain ⟨hactive, hlit⟩ := (if_neg hkind).mp hstage
      rcases hlevel with hinactive | hdark
      · exact hinactive hactive
      · simp [hdark] at hlit
    · obtain ⟨hoff, hinit⟩ := (if_pos hkind).mp hstage
      exact hbefore.elim hoff hinit

/-! ### The fault taken and its event handed -/

/-- The channel FAULTED and closed, and its FAULT event handed, before the latch check (R169). -/
def faultHanded (ch : Channel) (k : FaultKind) (s : State) : State :=
  faultEvent ch (.kind k) (syncChannel ch (s.modOut ch (takeFault k s.output.stage s.now)))

/-- The fault states after the event: of its channel by the rearm mode and the raised count, of the others as they were. -/
def faultAfter (ch : Channel) (k : FaultKind) (s : State) (i : Channel) : FaultState :=
  if i = ch then .faulted k (retryStatus (s.out ch).manual ((s.out ch).retry + 1) s.output.stage s.now)
  else (s.out i).fault

section Handed

variable (ch : Channel) (k : FaultKind) (s : State)

theorem faultHanded_set : ChannelsSet (takeFault k s.output.stage s.now) [ch] s (faultHanded ch k s) :=
  (ChannelsSet.sync _ ch s).faultEvent ch (.kind k)

theorem faultHanded_out (i : Channel) : (faultHanded ch k s).out i =
    if i = ch then takeFault k s.output.stage s.now (s.out i) else s.out i := by
  rw [(faultHanded_set ch k s).out]
  simp only [List.mem_singleton]

theorem faultHanded_enabled (i : Channel) : ((faultHanded ch k s).out i).enabled = (s.out i).enabled := by
  rw [faultHanded_out]
  split <;> rfl

/-- Below 3 the count is raised by one (R167). -/
theorem faultHanded_retry {s : State} (h : (s.out ch).retry < 3) :
    ((faultHanded ch k s).out ch).retry = (s.out ch).retry + 1 := by
  rw [faultHanded_out, if_pos rfl]
  exact Nat.min_eq_right h

theorem faultHanded_fault {s : State} (h : (s.out ch).retry < 3) (i : Channel) :
    ((faultHanded ch k s).out i).fault = faultAfter ch k s i := by
  rw [faultHanded_out]
  unfold faultAfter
  split
  · next hi =>
    have hcount : min 3 ((s.out ch).retry + 1) = (s.out ch).retry + 1 := Nat.min_eq_right h
    rw [hi, takeFault, hcount]
  · rfl

theorem faultHanded_kept : Kept (syncChannel ch (s.modOut ch (takeFault k s.output.stage s.now))) (faultHanded ch k s) :=
  fireWatches_kept .fault ch.val _ _

theorem faultHanded_lampSide {s : State} (hs : ModulatorInv s) : LampSide s (faultHanded ch k s) :=
  have hkept := faultHanded_kept ch k s
  (faultHanded_set ch k s).lampSide hs (fun _ => rfl) (fun _ => rfl) hkept.registers
    (fireWatches_results .fault ch.val _ (syncChannel ch (s.modOut ch (takeFault k s.output.stage s.now)))) hkept.notices
    hkept.watches

theorem faultHanded_watch (w : WatchNo) : (faultHanded ch k s).watch w = spentBy .fault [ch] (s.watch w) :=
  fireWatches_watch .fault ch _ (syncChannel ch (s.modOut ch (takeFault k s.output.stage s.now))) w

theorem faultHanded_kindMask (p : Port) : ((faultHanded ch k s).port p).kindMask = (s.port p).kindMask :=
  ((faultHanded_kept ch k s).registers p).kindMask

theorem faultHanded_queued (p : Port) : Queued ((told s p .fault [ch]).map fun i => .fault i (.kind k)) (s.port p)
    ((faultHanded ch k s).port p) :=
  fireWatches_queued .fault ch (fun i => .fault i (.kind k))
    (syncChannel ch (s.modOut ch (takeFault k s.output.stage s.now))) p

/-- A fault brings no demand (R156). -/
theorem faultHanded_demand {s : State} (h : demandNow (faultHanded ch k s) = true) : demandNow s = true := by
  have hset := faultHanded_set ch k s
  obtain ⟨hoff, hinit, hgives⟩ := (demandNow_iff _).mp h
  rw [hset.output_eq] at hoff hinit
  rw [hset.lampTest_eq] at hgives
  refine (demandNow_iff s).mpr ⟨hoff, hinit, hgives.imp_right ?_⟩
  rintro ⟨i, henabled, hready, htarget⟩
  rw [faultHanded_out] at henabled hready
  split at hready
  · cases hready
  · next hi =>
    rw [if_neg hi] at henabled
    exact ⟨i, henabled, hready, by rwa [hset.frame] at htarget⟩

end Handed

/-! ### The latch check -/

theorem checksLatch_iff {st : StageName} : checksLatch st = true ↔ (st ≠ .off ∧ st ≠ .init) ∧ st ≠ .latched := by
  cases st <;> decide

/-- Where a channel is enabled, every enabled channel is to be held-faulted (R170). -/
theorem allHeld_iff {s : State} {ch : Channel} (h : (s.out ch).enabled = true) : allHeld s = true ↔
    ∀ i, (s.out i).enabled = true → ∃ kind, (s.out i).fault = .faulted kind .held := by
  have hany : (indexes 16).any (fun i => (s.out i).enabled) = true := List.any_eq_true.mpr ⟨ch, mem_indexes ch, h⟩
  simp only [allHeld, hany, Bool.true_and, List.all_eq_true, mem_indexes, true_implies, Bool.or_eq_true,
    Bool.not_eq_true', isHeld_iff, or_iff_not_imp_left, Bool.not_eq_false]

/-- The stage latches: it is past INIT and not latched, and every enabled channel is held-faulted (R170). -/
theorem latchCheck_iff {s : State} {ch : Channel} (k : FaultKind)
    (hpast : s.output.stage ≠ .off ∧ s.output.stage ≠ .init) (henabled : (s.out ch).enabled = true)
    (hretry : (s.out ch).retry < 3) : (checksLatch s.output.stage && allHeld (faultHanded ch k s)) = true ↔
      s.output.stage ≠ .latched ∧
        ∀ i, (s.out i).enabled = true → ∃ kind, faultAfter ch k s i = .faulted kind .held := by
  have hone : ((faultHanded ch k s).out ch).enabled = true := (faultHanded_enabled ch k s ch).trans henabled
  simp only [Bool.and_eq_true, checksLatch_iff, allHeld_iff hone, faultHanded_enabled, faultHanded_fault ch k hretry,
    hpast, ne_eq, not_false_iff, true_and, and_self]

/-! ### What the taking leaves -/

theorem channelFault_latches {s : State} {ch : Channel} {k : FaultKind} (htaken : faultIsTaken s ch k = true)
    (hlatches : (checksLatch s.output.stage && allHeld (faultHanded ch k s)) = true) :
    channelFault ch k s = settle .demand (enterStage .latched .channelFaults (faultHanded ch k s)) :=
  (if_pos htaken).trans (congrArg (settle .demand) (if_pos hlatches))

theorem channelFault_stays {s : State} {ch : Channel} {k : FaultKind} (htaken : faultIsTaken s ch k = true)
    (hstays : ¬ (checksLatch s.output.stage && allHeld (faultHanded ch k s)) = true) :
    channelFault ch k s = settle .demand (faultHanded ch k s) :=
  (if_pos htaken).trans (congrArg (settle .demand) (if_neg hstays))

/-- A fault in STANDBY that brings no start (R157). -/
theorem faultHanded_mayStart {s : State} (ch : Channel) (k : FaultKind)
    (h : s.output.stage = .standby → (demandNow s && !s.output.hold && !s.output.supply.forcing) = false) :
    mayStart (faultHanded ch k s) = false := Bool.eq_false_iff.mpr fun hstarts => by
  obtain ⟨hstandby, hdemand, hhold, hforcing⟩ := mayStart_iff.mp hstarts
  rw [(faultHanded_set ch k s).output_eq] at hstandby hhold hforcing
  have hready := h hstandby
  rw [faultHanded_demand ch k hdemand, hhold, hforcing] at hready
  cases hready

/-- The status of a new fault, as the rearm mode, the count and the stage say (R169). -/
theorem retryStatus_eq {manual : Bool} {count : Nat} (h : count ≤ 3) (stage : StageName) (now : Instant) :
    retryStatus manual count stage now =
      if manual = true ∨ count = 3 then .held
      else if stage = .latched then .pending (.paused 1000) else .pending (.running (now + 1000)) := by
  unfold retryStatus
  by_cases hmanual : manual = true
  · rw [if_pos hmanual, if_pos (.inl hmanual)]
  · rw [if_neg hmanual]
    by_cases hlast : count = 3
    · rw [if_pos hlast.ge, if_pos (.inr hlast)]
    · have hbelow : ¬ 3 ≤ count := by omega
      rw [if_neg hbelow, if_neg (not_or.mpr ⟨hmanual, hlast⟩)]
      rfl

/-- Settles O45: the channel set and the event handed, the latch check, and the end of the taking. -/
theorem faultEventsIgnoredOrTaken : Obligations.FaultEventsIgnoredOrTaken := by
  refine ⟨fun s ch k h => congrArg Host.Outcome.next (channelFault_ignored (faultIsTaken_false h)), ?taken⟩
  intro s ch k hs hretry hquiet henabled hready hwhen count status faultOf latches toldFault
  have hstatus : retryStatus (s.out ch).manual count s.output.stage s.now = status := retryStatus_eq hretry _ _
  have hfaultOf : faultAfter ch k s = faultOf := funext fun i => by simp only [faultAfter, faultOf, ← hstatus, count]
  have hpast : s.output.stage ≠ .off ∧ s.output.stage ≠ .init := hwhen.elim And.right fun hlit => by
    rw [hlit.1]
    decide
  have htaken : faultIsTaken s ch k = true := by
    refine faultIsTaken_iff.mpr ⟨henabled, hready, ?_⟩
    split
    · exact hpast
    · next hkind => exact hwhen.resolve_left fun hground => hkind hground.1
  have hset := faultHanded_set ch k s
  have hlatches : (checksLatch s.output.stage && allHeld (faultHanded ch k s)) = true ↔ latches := by
    have hcheck := latchCheck_iff k hpast henabled hretry
    rw [hfaultOf] at hcheck
    exact hcheck
  have hcount := faultHanded_retry ch k hretry
  have hothers : ∀ i, i ≠ ch → ((faultHanded ch k s).out i).retry = (s.out i).retry := fun i hi => by
    rw [faultHanded_out, if_neg hi]
  have hfault : ∀ i, ((faultHanded ch k s).out i).fault = faultOf i := fun i =>
    (faultHanded_fault ch k hretry i).trans (congrFun hfaultOf i)
  by_cases hlatch : (checksLatch s.output.stage && allHeld (faultHanded ch k s)) = true
  · have hout := entered_output (u := faultHanded ch k s) (c := .channelFaults) .demand
      (entered_stays (st := .latched) (by decide)) (by decide)
    have hclean := settle_cleanEnd_none .demand (s := enterStage .latched .channelFaults (faultHanded ch k s))
      (by rw [hout]; exact fun h => by cases h)
    refine ⟨_, congrArg Host.Outcome.next (channelFault_latches htaken hlatch),
      ((faultHanded_lampSide ch k hs).enterStage _ (by decide)).settle _, (entered_retry _ ch).trans hcount, hclean ch,
      fun i hi => (entered_retry _ i).trans (hothers i hi), fun w => ?watches,
      fun _ => ⟨?lampTest, fun i => ?fault, hclean, ?output, fun p => ?queued⟩,
      fun hstays => absurd (hlatches.mp hlatch) hstays⟩
    case watches => rw [settle_watch, enterStage_watch, faultHanded_watch]
    case lampTest =>
      rw [entered_lampTest]
      exact if_pos (by simp [endsLampTest])
    case fault => rw [latched_fault, hfault, hset.now_eq]
    case output =>
      rw [hset.output_eq] at hout
      exact hout
    case queued =>
      exact (faultHanded_queued ch k s p).trans (entered_queued _ (entered_stays (by decide)) p)
        (faultHanded_kindMask ch k s p)
  · have hstays := faultHanded_mayStart ch k hquiet
    have hout := settle_stays_output .demand hstays
    refine ⟨_, congrArg Host.Outcome.next (channelFault_stays htaken hlatch), (faultHanded_lampSide ch k hs).settle _,
      (settle_retry _ _ ch).trans hcount, ?clean, fun i hi => (settle_retry _ _ i).trans (hothers i hi), fun w => ?watches,
      fun h => absurd (hlatches.mpr h) hlatch,
      fun _ => ⟨(settle_lampTest ..).trans hset.lampTest_eq, fun i => (settle_fault _ _ i).trans (hfault i), ?output,
        fun p => ?queued⟩⟩
    case clean =>
      by_contra hruns
      obtain ⟨hback, -, -, -⟩ := settle_cleanInv .demand (faultHanded ch k s) ch hruns
      rw [settle_fault, hfault] at hback
      simp [faultOf] at hback
    case watches => rw [settle_watch, faultHanded_watch]
    case output =>
      rw [hset.output_eq, hset.now_eq] at hout
      exact hout
    case queued =>
      rw [settle_port, if_neg (by simp [hstays])]
      exact faultHanded_queued ch k s p

end Sys2Proof.Machine

namespace Sys2Proof.Machine

/-! ## An offer of a notice, and an event at the watch table (R179, R182) -/

/-! ### A write to one port -/

/-- Only what a write makes of the port as it stands counts. -/
theorem modPort_congr {s : State} {p : Port} {f g : PortState → PortState} (h : f (s.port p) = g (s.port p)) :
    s.modPort p f = s.modPort p g :=
  congrArg (fun q => { s with ports := tset s.ports p q }) h

theorem modPort_eq_self {s : State} {p : Port} {f : PortState → PortState} (h : f (s.port p) = s.port p) :
    s.modPort p f = s :=
  (congrArg (fun q => { s with ports := tset s.ports p q }) h).trans
    (congrArg (fun ports => { s with ports := ports }) (tset_tget s.ports p))

/-! ### One notice offered -/

/-- A kind that the mask disables is discarded (R182). -/
theorem offerTo_masked {n : Notice} {q : PortState} (h : q.kindMask.getLsbD n.kindCode = true) : offerTo n q = q :=
  if_pos h

/-- A full queue discards the notice and sets the overflow flag (R182). -/
theorem offerTo_full {n : Notice} {q : PortState} (hkind : q.kindMask.getLsbD n.kindCode = false)
    (hfull : 16 ≤ q.queue.length) : offerTo n q = { q with overflow := true } :=
  (if_neg (Bool.eq_false_iff.mp hkind)).trans (if_pos hfull)

/-- Else the notice joins the tail (R182). -/
theorem offerTo_joins {n : Notice} {q : PortState} (hkind : q.kindMask.getLsbD n.kindCode = false)
    (hroom : q.queue.length < 16) : offerTo n q = { q with queue := q.queue ++ [n] } :=
  (if_neg (Bool.eq_false_iff.mp hkind)).trans (if_neg hroom.not_ge)

/-! ### One event -/

theorem covers_iff {i : Nat} {e : Watch} : covers i e = true ↔ e.lo.val ≤ i ∧ i ≤ e.hi.val := by simp [covers]

theorem mem_watchesOf {s : State} {p : Port} {k : WatchKind} {e : Watch} :
    e ∈ watchesOf s p k ↔ ∃ w, s.watch w = some e ∧ e.owner = p ∧ e.kind = k := by
  rw [watchesOf_eq, toList_eq_map, List.filterMap_map]
  simp [List.mem_filterMap, ownEntry, Option.filter_eq_some_iff, State.watch]

/-- An event reaches a port where some entry of that port is of the event's kind and covers its subject (R179). -/
theorem any_watchesOf_covers {s : State} {p : Port} {k : WatchKind} {i : Nat} :
    (watchesOf s p k).any (covers i) = true ↔
      ∃ w e, s.watch w = some e ∧ e.owner = p ∧ e.kind = k ∧ e.lo.val ≤ i ∧ i ≤ e.hi.val := by
  rw [List.any_eq_true]
  constructor
  · rintro ⟨e, hmem, hcovers⟩
    obtain ⟨w, hw, howner, hkind⟩ := mem_watchesOf.mp hmem
    exact ⟨w, e, hw, howner, hkind, covers_iff.mp hcovers⟩
  · rintro ⟨w, e, hw, howner, hkind, hcovers⟩
    exact ⟨e, mem_watchesOf.mpr ⟨w, hw, howner, hkind⟩, covers_iff.mpr hcovers⟩

/-- One event frees an entry in use where that is one-shot, of the event's kind, and covers its subject (R179). -/
theorem spentBy_single {m : Nat} (k : WatchKind) (i : Fin m) (e : Watch) : spentBy k [i] (some e) =
    if (e.kind = k ∧ e.lo.val ≤ i.val ∧ i.val ≤ e.hi.val) ∧ e.oneShot = true then none else some e := by
  have hiff : (decide (e.kind = k) && e.oneShot && covers i.val e) = true ↔
      (e.kind = k ∧ e.lo.val ≤ i.val ∧ i.val ≤ e.hi.val) ∧ e.oneShot = true := by
    rw [Bool.and_eq_true, Bool.and_eq_true, decide_eq_true_eq, covers_iff, and_right_comm]
  simp only [spentBy, List.any_cons, List.any_nil, Bool.or_false, Option.filter_some, ← hiff]
  cases decide (e.kind = k) && e.oneShot && covers i.val e <;> rfl

/-- A subject is the last of the numbers up to it, which gives every subject the type of an index. -/
theorem fireWatches_spends (k : WatchKind) (subject : Nat) (n : Notice) (s : State) (w : WatchNo) :
    (fireWatches k subject n s).watch w = spentBy k [Fin.last subject] (s.watch w) :=
  fireWatches_watch k (Fin.last subject) n s w

/-- An event writes the ports and the watch table alone. -/
theorem fireWatches_frame (k : WatchKind) (subject : Nat) (n : Notice) (s : State) :
    fireWatches k subject n s = { s with ports := (fireWatches k subject n s).ports,
                                         watches := (fireWatches k subject n s).watches } := by
  refine forEach_preserves (fun t => t = { s with ports := t.ports, watches := t.watches }) _ _ (fun p t h => ?_) s rfl
  unfold fireFor
  split_ifs
  · rw [h]
    rfl
  · exact h

/-- Settles O13: the three cases of an offer, then the ports, the entries and the rest of the state after an event. -/
theorem noticesOfferedAndWatchesFired : Obligations.NoticesOfferedAndWatchesFired := by
  refine ⟨fun p n s => ⟨fun hmasked => modPort_eq_self (offerTo_masked hmasked),
    fun hkind hfull => modPort_congr (offerTo_full hkind hfull),
    fun hkind hroom => modPort_congr (offerTo_joins hkind hroom)⟩, ?event⟩
  intro k subject n s covered t
  refine ⟨fun p hreached => ?reached, fun p hnot => ?unreached, fun w e hw hcovered honeShot => ?freed,
    fun w e hw hstays => ?stays, fun w hw => ?free, fireWatches_frame k subject n s⟩
  case reached => exact (fireWatches_port k subject n s p).trans (if_pos (any_watchesOf_covers.mpr hreached))
  case unreached => exact (fireWatches_port k subject n s p).trans (if_neg fun h => hnot (any_watchesOf_covers.mp h))
  case freed =>
    rw [fireWatches_spends, hw, spentBy_single]
    exact if_pos ⟨hcovered, honeShot⟩
  case stays =>
    rw [fireWatches_spends, hw, spentBy_single]
    exact if_neg fun ⟨hcovered, honeShot⟩ => Bool.eq_false_iff.mp (hstays hcovered) honeShot
  case free => rw [fireWatches_spends, hw, spentBy_none]

end Sys2Proof.Machine

namespace Sys2Proof.Machine

/-! ## WATCH_SET and WATCH_DROP (R177, R178) -/

/-! ### The lowest free entry -/

theorem freeWatch?_eq_some {s : State} {w : WatchNo} :
    freeWatch? s = some w ↔ s.watch w = none ∧ ∀ v, v < w → s.watch v ≠ none := by
  rw [freeWatch?, indexes, ← Fin.find?_eq_find?_finRange, Fin.find?_eq_some_iff]
  simp only [Option.isNone_iff_eq_none, Option.isNone_eq_false_iff, Option.isSome_iff_ne_none]

theorem freeWatch?_eq_none {s : State} : freeWatch? s = none ↔ ∀ w, s.watch w ≠ none := by
  simp [freeWatch?, List.find?_eq_none]

/-! ### WATCH_SET -/

/-- Watch kinds are numbered 0..2 (R203). -/
theorem watchKindOf_eq_none {n : Nat} : watchKindOf n = none ↔ 2 < n := by
  match n with
  | 0 | 1 | 2 | _ + 3 => simp [watchKindOf]

theorem argWatch_eq_none {s : State} {p : Port} (h : 2 < argNat s p 0 ∨ 15 < argNat s p 1 ∨ 15 < argNat s p 2 ∨
    (argNat s p 0 = 2 ∧ 7 < argNat s p 2) ∨ argNat s p 2 < argNat s p 1 ∨ 1 < argNat s p 3) :
    argWatch s p = none := by
  unfold argWatch
  split
  · next kind lo hi oneShot hkind hlo hhi hshot =>
    rw [inRange_eq_some] at hlo hhi
    refine if_neg fun ⟨htop, horder⟩ => ?_
    rcases h with hcode | hlow | hhigh | ⟨hline, hbeyond⟩ | hreversed | hflag
    · rw [watchKindOf_eq_none.mpr hcode] at hkind
      cases hkind
    · omega
    · omega
    · rw [hline] at hkind
      cases hkind
      rw [hhi] at hbeyond
      exact absurd htop hbeyond.not_ge
    · omega
    · rw [flagOf, twoValued_eq_none.mpr hflag] at hshot
      cases hshot
  · rfl

theorem argWatch_eq_some {s : State} {p : Port} {kind : WatchKind} {lo hi : Fin 16} {oneShot : Bool}
    (hkind : watchKindOf (argNat s p 0) = some kind) (hlo : argNat s p 1 = lo.val) (hhi : argNat s p 2 = hi.val)
    (hshot : flagOf (argNat s p 3) = some oneShot) (horder : lo ≤ hi) (htop : hi.val ≤ kind.top) :
    argWatch s p = some { owner := p, kind := kind, lo := lo, hi := hi, oneShot := oneShot } := by
  simp only [argWatch, hkind, inRange_eq_some.mpr hlo, inRange_eq_some.mpr hhi, hshot]
  exact if_pos ⟨htop, horder⟩

theorem watchSetBody_badArgument {s : State} {p : Port} (h : argWatch s p = none) :
    watchSetBody p s = refuse .badArgument 0 s := by
  simp only [watchSetBody, h]

theorem watchSetBody_full {s : State} {p : Port} {e : Watch} (h : argWatch s p = some e) (hfull : freeWatch? s = none) :
    watchSetBody p s = refuse .full 0 s := by
  simp only [watchSetBody, h, hfull]

theorem watchSetBody_done {s : State} {p : Port} {e : Watch} {w : WatchNo} (h : argWatch s p = some e)
    (hfree : freeWatch? s = some w) : watchSetBody p s = done none w.val (s.setWatch w (some e)) := by
  simp only [watchSetBody, h, hfree]

/-! ### WATCH_DROP -/

theorem watchDropBody_outOfRange {s : State} {p : Port} (h : 12 ≤ argNat s p 0) :
    watchDropBody p s = refuse .badArgument 0 s := by
  simp only [watchDropBody, inRange_eq_none.mpr h]

theorem watchDropBody_free {s : State} {p : Port} {w : WatchNo} (hw : argNat s p 0 = w.val) (h : s.watch w = none) :
    watchDropBody p s = refuse .badArgument 0 s := by
  simp only [watchDropBody, inRange_eq_some.mpr hw, h]

theorem watchDropBody_notOwner {s : State} {p : Port} {w : WatchNo} {e : Watch} (hw : argNat s p 0 = w.val)
    (h : s.watch w = some e) (howner : e.owner ≠ p) : watchDropBody p s = refuse .notOwner 0 s := by
  simp only [watchDropBody, inRange_eq_some.mpr hw, h]
  exact if_pos howner

theorem watchDropBody_done {s : State} {p : Port} {w : WatchNo} {e : Watch} (hw : argNat s p 0 = w.val)
    (h : s.watch w = some e) (howner : e.owner = p) :
    watchDropBody p s = done none (watchCount (s.setWatch w none) p) (s.setWatch w none) := by
  simp only [watchDropBody, inRange_eq_some.mpr hw, h]
  exact if_neg (not_not.mpr howner)

/-- Settles O14: each outcome of the two bodies, carried through the result registers. -/
theorem watchCommandsSetAndDrop : Obligations.WatchCommandsSetAndDrop := by
  constructor
  · intro p s htaken
    refine ⟨fun hbad => congrArg Host.Outcome.next
      (takeCommand_refused htaken (watchSetBody_badArgument (argWatch_eq_none hbad)) (by decide)), ?_⟩
    intro kind lo hi oneShot hkind hlo hhi hshot horder htop
    have hentry := argWatch_eq_some hkind hlo hhi hshot horder htop
    exact ⟨fun hfull => congrArg Host.Outcome.next
        (takeCommand_refused htaken (watchSetBody_full hentry (freeWatch?_eq_none.mpr hfull)) (by decide)),
      fun w hfree hlow => congrArg Host.Outcome.next
        (takeCommand_done htaken (watchSetBody_done hentry (freeWatch?_eq_some.mpr ⟨hfree, hlow⟩)))⟩
  · intro p s htaken
    refine ⟨fun hrange => congrArg Host.Outcome.next
      (takeCommand_refused htaken (watchDropBody_outOfRange hrange) (by decide)), fun w hw => ⟨fun hfree => ?free,
      fun e he hother => ?other, fun e he hown => ?own⟩⟩
    case free => exact congrArg Host.Outcome.next (takeCommand_refused htaken (watchDropBody_free hw hfree) (by decide))
    case other =>
      exact congrArg Host.Outcome.next (takeCommand_refused htaken (watchDropBody_notOwner hw he hother) (by decide))
    case own => exact congrArg Host.Outcome.next (takeCommand_done htaken (watchDropBody_done hw he hown))

end Sys2Proof.Machine

namespace Sys2Proof.Machine

/-! ## The clearing reads, the masks, the pop and the attention output (R183, R184, R185, R190) -/

/-! ### The clearing reads -/

/-- A read answers with the register as it stood, and the check byte goes over the offset byte as it stands in the
frame, on port 2 with the direction bit set (R188, R199). -/
theorem answerOf_eq (s : State) (p : Port) (offset : Byte) : answerOf s p offset =
    { data := readRegister s p offset,
      check := crc8 [if p = 2 then offset ||| 0x80 else offset, highByte (readRegister s p offset),
        lowByte (readRegister s p offset)] } := by
  simp only [answerOf, checkByte, readOffsetByte, isSpi, beq_iff_eq]
  rfl

theorem readFrame_portStatus (p : Port) (s : State) : readFrame p 0x0B s = s.modPort p fun q =>
    { q with overflow := false, frameError := false, reply := some (answerOf s p 0x0B) } := rfl

theorem readFrame_accepted (p : Port) (s : State) : readFrame p 0x13 s = s.modPort p fun q =>
    { q with accepted := 0, reply := some (answerOf s p 0x13) } := rfl

theorem readFrame_refused (p : Port) (s : State) : readFrame p 0x14 s = s.modPort p fun q =>
    { q with refused := 0, reply := some (answerOf s p 0x14) } := rfl

/-! ### The mask and the queue -/

/-- The kinds are 1..7 (R200). -/
theorem kindBits_getLsbD {k : Nat} (hlow : 1 ≤ k) (hhigh : k ≤ 7) : kindBits.getLsbD k = true := by
  interval_cases k <;> rfl

/-- A bit of MASK_SET disables its kind, and a kind not named stays as it was (R183). -/
theorem disabled_getLsbD (mask v : Word) {k : Nat} (hlow : 1 ≤ k) (hhigh : k ≤ 7) :
    (mask ||| (v &&& kindBits)).getLsbD k = (mask.getLsbD k || v.getLsbD k) := by
  rw [BitVec.getLsbD_or, BitVec.getLsbD_and, kindBits_getLsbD hlow hhigh, Bool.and_true]

/-- A bit of MASK_CLEAR enables its kind, and a kind not named stays as it was (R183). -/
theorem enabled_getLsbD (mask v : Word) {k : Nat} (hlow : 1 ≤ k) (hhigh : k ≤ 7) :
    (mask &&& ~~~(v &&& kindBits)).getLsbD k = (mask.getLsbD k && !(v.getLsbD k)) := by
  have hwidth : k < 16 := by omega
  rw [BitVec.getLsbD_and, BitVec.getLsbD_not, BitVec.getLsbD_and, kindBits_getLsbD hlow hhigh, Bool.and_true,
    decide_eq_true hwidth, Bool.true_and]

theorem disableKinds_kindMask (p : Port) (v : Word) (s : State) :
    ((disableKinds p v s).port p).kindMask = (s.port p).kindMask ||| (v &&& kindBits) := by
  rw [disableKinds, State.port_modPort_self]

theorem enableKinds_kindMask (p : Port) (v : Word) (s : State) :
    ((enableKinds p v s).port p).kindMask = (s.port p).kindMask &&& ~~~(v &&& kindBits) := by
  rw [enableKinds, State.port_modPort_self]

theorem popNotice_nil {p : Port} {s : State} (h : (s.port p).queue = []) : popNotice p s = s :=
  modPort_eq_self (by rw [h, List.tail_nil, ← h])

theorem popNotice_cons {p : Port} {s : State} {n : Notice} {rest : List Notice} (h : (s.port p).queue = n :: rest) :
    popNotice p s = s.modPort p fun q => { q with queue := rest } :=
  modPort_congr (by rw [h, List.tail_cons])

theorem attention_iff {s : State} {p : Port} :
    attention s p = true ↔ (s.port p).queue ≠ [] ∨ (s.port p).overflow = true := by
  rw [attention, Bool.or_eq_true, Bool.not_eq_true', List.isEmpty_eq_false_iff]

/-- Settles O11: what the three registers show is what the window shows of them. -/
theorem clearingReadsMasksAndPop : Obligations.ClearingReadsMasksAndPop := by
  refine ⟨fun p s => ?reads, fun p v s => ⟨⟨_, rfl, ?disable, fun k hlow hhigh => ?disabled⟩,
    ⟨_, rfl, ?enable, fun k hlow hhigh => ?enabled⟩, fun hnil => congrArg Host.Outcome.next (popNotice_nil hnil),
    fun n rest hcons => congrArg Host.Outcome.next (popNotice_cons hcons)⟩, fun p s => attention_iff⟩
  case reads =>
    intro ask answer
    obtain ⟨-, -, -, -, hstatus, -, -, -, -, haccepted, hrefused, -⟩ := portRegistersShown p s
    have hanswer (offset : Byte) : some (answerOf s p offset) = answer offset (readRegister s p offset) :=
      congrArg some (answerOf_eq s p offset)
    have hreplyAccepted := (hanswer 0x13).trans (congrArg (answer 0x13) haccepted)
    have hreplyRefused := (hanswer 0x14).trans (congrArg (answer 0x14) hrefused)
    refine ⟨?accepted, ?refused, readRegister s p 0x0B, ?status, fun hq => ?fields⟩
    case accepted =>
      rw [← hreplyAccepted]
      exact congrArg Host.Outcome.next (readFrame_accepted p s)
    case refused =>
      rw [← hreplyRefused]
      exact congrArg Host.Outcome.next (readFrame_refused p s)
    case status =>
      rw [← hanswer]
      exact congrArg Host.Outcome.next (readFrame_portStatus p s)
    case fields =>
      obtain ⟨hcount, hoverflow, herror, -, -⟩ := hstatus hq
      exact ⟨hcount, hoverflow, herror⟩
  case disable => exact modPort_congr (by rw [← disableKinds_kindMask])
  case disabled =>
    rw [disableKinds_kindMask]
    exact disabled_getLsbD _ v hlow hhigh
  case enable => exact modPort_congr (by rw [← enableKinds_kindMask])
  case enabled =>
    rw [enableKinds_kindMask]
    exact enabled_getLsbD _ v hlow hhigh

end Sys2Proof.Machine

namespace Sys2Proof.Machine

/-! ## The ceilings along a step (R194) -/

/-- The ceilings read the pool and the access table alone. -/
theorem CeilingsHold.of_eq {s t : State} (hs : CeilingsHold s) (hpool : t.pool = s.pool)
    (hright : ∀ p, t.right p = s.right p) : CeilingsHold t := fun slot c p hc ho => by
  rw [hright]
  exact hs slot c p (by rw [State.record, ← hpool]; exact hc) ho

/-- A freeing takes a record away and leaves every ceiling. -/
theorem freeRecord_ceilings (x : FreeCause) (k : Slot) (s : State) (hs : CeilingsHold s) :
    CeilingsHold (freeRecord x k s) :=
  hs.of_records (freeRecord_kept x k s).ceiling fun i d _ hd _ => by
    rw [freeRecord_record] at hd
    split_ifs at hd
    exact .inl ⟨d, hd, rfl, rfl⟩

/-- A record altered in its place keeps its priority, or takes one within its owner's ceiling (R15, R16). -/
theorem alter_ceilings {h : Handle} {c c' : Claim} {s : State} (hs : CeilingsHold s) (live : claimAt s h = some c)
    (same : SameClaimant c c')
    (hpriority : c'.priority = c.priority ∨ ∀ p, c.owner = .port p → c'.priority ≤ (s.right p).ceiling) :
    CeilingsHold (s.modRecord h.slot fun r => { r with claim := some c' }) :=
  hs.of_records (fun _ => rfl) fun i d p hd ho => by
    rw [State.record_modRecord] at hd
    split_ifs at hd with hi
    · obtain rfl := Option.some.inj hd
      obtain ⟨-, hrecord⟩ := claimAt_some.mp live
      rcases hpriority with hkept | hwithin
      · exact .inl ⟨c, hi ▸ hrecord, same.owner.symm, hkept.symm⟩
      · exact .inr (hwithin p (same.owner ▸ ho))
    · exact .inl ⟨d, hd, rfl, rfl⟩

/-- The record of each slot after the freeings of a taking, before the resolution that follows (R20). -/
theorem forEach_freeRecord_record (x : FreeCause) {l : List Slot} (hl : l.Nodup) (s : State) (i : Slot) :
    (forEach l (freeRecord x) s).record i =
      if i ∈ l ∧ (s.record i).claim ≠ none then { gen := (s.record i).gen + 1, claim := none } else s.record i :=
  (resolveSet_record none true _ _ i).symm.trans (freeRecords_record x true l hl s i)

/-- A record that is still live after some freeings is none of those freed. -/
theorem forEach_freeRecord_survivor {x : FreeCause} {l : List Slot} (hl : l.Nodup) {s : State} {i : Slot} {c : Claim}
    (h : ((forEach l (freeRecord x) s).record i).claim = some c) : i ∉ l ∧ (s.record i).claim = some c := by
  rw [forEach_freeRecord_record x hl] at h
  split_ifs at h with hfreed
  exact ⟨fun hi => hfreed ⟨hi, by simp [h]⟩, h⟩

/-- A PRIV_SET frees each record of the port above the new ceiling, so what it leaves is within it (R194). -/
theorem granted_ceilings {p : Port} {ceiling : Priority} {sceneEdit : Bool} {quota : Fin 49} {s t : State}
    (hs : CeilingsHold s) (stored : ClaimsKept (rightsStored p ceiling sceneEdit quota s) t) :
    CeilingsHold (forEach (cascadeSlots p ceiling s) (freeRecord .ceilingCascade) t) := by
  intro i c q hc howner
  have hnodup : (cascadeSlots p ceiling s).Nodup := (pairwise_cascadeSlots p ceiling s).imp ne_of_lt
  obtain ⟨hspared, hlive⟩ := forEach_freeRecord_survivor hnodup hc
  have hclaim : (s.record i).claim = some c := by
    rw [State.record, stored.pool] at hlive
    exact hlive
  have hceiling : ((forEach (cascadeSlots p ceiling s) (freeRecord .ceilingCascade) t).right q).ceiling =
      if q = p then ceiling else (s.right q).ceiling := by
    rw [forEach_keeps (fun u => (u.right q).ceiling) _ _ (fun k u => (freeRecord_kept _ k u).ceiling q) t,
      stored.rights, rightsStored, State.right_modRight]
    split_ifs <;> rfl
  rw [hceiling]
  split_ifs with hq
  · subst hq
    exact not_lt.mp fun habove => hspared ((mem_cascadeSlots hs).mpr ⟨c, hclaim, howner, habove⟩)
  · exact hs i c q hclaim howner

/-- Every move of the claim pool keeps the ceilings (R194). -/
theorem ClaimMove.ceilings {s t : State} (h : ClaimMove s t) (hs : CeilingsHold s) : CeilingsHold t := by
  cases h with
  | kept h => exact hs.of_eq h.pool h.rights
  | seat slot c free room quota ceiling => exact seat_ceilings slot c s hs ceiling
  | free x slot => exact freeRecord_ceilings x slot s hs
  | alter h c c' live same priority => exact alter_ceilings hs live same (.inl priority)
  | reinsert h c c' live same ceiling => exact (alter_ceilings hs live same ceiling).of_eq (by simp) fun _ => by simp [State.right]
  | grant p ceiling sceneEdit quota room stored => exact granted_ceilings hs stored
  | powerOn pins =>
    intro i c p hc _
    rw [powerOnState_record] at hc
    cases hc

/-- Settles O57: every step is a sequence of moves of the claim pool, and each move keeps the ceilings. -/
theorem stepKeepsCeilings : Obligations.StepKeepsCeilings := fun _ _ hs hstep =>
  (step_claimMoves hstep).keeps (fun _ _ hm hu => hm.ceilings hu) hs

end Sys2Proof.Machine

namespace Sys2Proof.Machine

/-! ## Steps and port commands (R191) -/

/-- Settles O1: a step on a queue that is not empty is its front command by definition. -/
theorem stepTakesFrontCommand : Obligations.StepTakesFrontCommand := fun _ _ _ => rfl

/-! ### MAINT_HANDOVER (R195) -/

/-- The right moved, and both ports told (R195). -/
def handedOver (p q : Port) (s : State) : State :=
  ((s.setMaintenance q).modPort p (offerTo (.access p .maintLost))).modPort q (offerTo (.access q .maintGained))

theorem maintHandoverBody_refused {p : Port} {s : State} (h : 2 < argNat s p 0) :
    maintHandoverBody p s = refuse .badArgument 0 s := by
  have hnone : argPort s p = none := inRange_eq_none.mpr h
  simp only [maintHandoverBody, hnone]

theorem maintHandoverBody_self {p : Port} {s : State} (h : argNat s p 0 = p.val) :
    maintHandoverBody p s = done none p.val s := by
  have hself : argPort s p = some p := inRange_eq_some.mpr h
  simp only [maintHandoverBody, hself, if_true]

theorem maintHandoverBody_done {p q : Port} {s : State} (h : argNat s p 0 = q.val) (hq : q ≠ p) :
    maintHandoverBody p s = done none q.val (handedOver p q s) := by
  have hport : argPort s p = some q := inRange_eq_some.mpr h
  simp only [maintHandoverBody, hport, if_neg hq]
  rfl

/-- Settles O50: each outcome of the body, carried through the result registers. -/
theorem maintHandoverMovesRight : Obligations.MaintHandoverMovesRight := fun _ _ htaken =>
  ⟨fun hrange => congrArg Host.Outcome.next
      (takeCommand_refused htaken (maintHandoverBody_refused hrange) (by decide)),
    fun hself => congrArg Host.Outcome.next (takeCommand_done htaken (maintHandoverBody_self hself)),
    fun _ hq hother => congrArg Host.Outcome.next (takeCommand_done htaken (maintHandoverBody_done hq hother))⟩

end Sys2Proof.Machine

namespace Sys2Proof.Machine

/-! ## Good writes (R190, R200, R203) -/

/-- Below the command registers a good write stores a register, but at MASK_SET, MASK_CLEAR and NOTICE_POP. -/
theorem goodWrite_store {offset : Byte} (hport : offset.toNat < 0x20) (hset : offset.toNat ≠ 0x0D)
    (hclear : offset.toNat ≠ 0x0E) (hpop : offset.toNat ≠ 0x0F) (p : Port) (v : Word) (s : State) :
    goodWrite p offset v s = s.modPort p (storeRegister offset.toNat v) := by
  simp only [goodWrite, if_pos hport]

theorem goodWrite_command {offset : Byte} (h : 0x20 ≤ offset.toNat) (p : Port) (v : Word) (s : State) :
    goodWrite p offset v s = commandAt offset.toNat p s := if_neg h.not_gt

theorem storeRegister_arg (i : Fin 8) (v : Word) (q : PortState) :
    storeRegister i.val v q = { q with args := tset q.args i v } := by
  have hi : inRange i.val 8 = some i := inRange_eq_some.mpr rfl
  simp only [storeRegister, hi]

/-- An offset outside the command registers names no command (R201). -/
theorem commandAt_reserved {n : Nat} (h : n < 0x20 ∨ 0x40 < n) (p : Port) (s : State) : commandAt n p s = s := by
  unfold commandAt
  split
  any_goals omega
  rfl

/-- The registers of the port part that a write leaves: the results, the counters, what a notice shows, and the reserved
offsets (R200, R201). -/
def readOnlyOffsets : List Nat :=
  [0x08, 0x09, 0x0A, 0x0B, 0x0C, 0x10, 0x11, 0x12, 0x13, 0x14, 0x1A, 0x1B, 0x1C, 0x1D, 0x1E, 0x1F]

theorem goodWrite_readOnly {n : Nat} (h : n ∈ readOnlyOffsets) (p : Port) (v : Word) (s : State) :
    goodWrite p (BitVec.ofNat 8 n) v s = s := by
  have hstores : ∀ n ∈ readOnlyOffsets, goodWrite p (BitVec.ofNat 8 n) v s = s.modPort p id := by
    simp only [readOnlyOffsets, List.forall_mem_cons, List.not_mem_nil, false_imp_iff, implies_true, and_true]
    and_intros <;> rfl
  rw [hstores n h]
  exact modPort_eq_self rfl

theorem goodWrite_arg (i : Fin 8) (p : Port) (v : Word) (s : State) :
    goodWrite p (BitVec.ofNat 8 i.val) v s = s.modPort p fun q => { q with args := tset q.args i v } := by
  have hoffset : (BitVec.ofNat 8 i.val).toNat = i.val := Nat.mod_eq_of_lt (by omega)
  rw [goodWrite_store (by omega) (by omega) (by omega) (by omega), hoffset]
  exact congrArg (s.modPort p) (funext (storeRegister_arg i v))

/-- The command registers, 0x20..0x40, with the command that each takes (R203). -/
def commandRegisters : List (Nat × (Port → Instr)) :=
  [(0x20, Instr.claim), (0x21, .modify), (0x22, .withdraw), (0x23, .withdrawAll), (0x24, .renew),
    (0x25, .channelPolicy), (0x26, .scenePut), (0x27, .sceneDrop), (0x28, .sceneErase), (0x29, .sceneInvoke),
    (0x2A, .playerAcquire), (0x2B, .playerEnd), (0x2C, .playerAbort), (0x2D, .playerRelease),
    (0x2E, .playerPush), (0x2F, .playerStart), (0x30, .lineConfig), (0x31, .lineBind), (0x32, .lineUnbind),
    (0x33, .channelFade), (0x34, .clockConfig), (0x35, .derateConfig), (0x36, .lampTest), (0x37, .latchClear),
    (0x38, .channelEnable), (0x39, .channelRearmMode), (0x3A, .faultRearm), (0x3B, .watchSet),
    (0x3C, .watchDrop), (0x3D, .privSet), (0x3E, .maintHandover), (0x3F, .portReset), (0x40, .portClear)]

/-- Each command register is the command of its row (R203). -/
theorem exec_commandRegister (p : Port) (s : State) :
    ∀ e ∈ commandRegisters, exec (e.2 p) s = .next (commandAt e.1 p s) := by
  simp only [commandRegisters, List.forall_mem_cons, List.not_mem_nil, false_imp_iff, implies_true, and_true]
  and_intros <;> rfl

theorem commandRegisters_offsets : commandRegisters.map Prod.fst = List.range' 0x20 0x21 := rfl

theorem commandRegisters_range {e : Nat × (Port → Instr)} (he : e ∈ commandRegisters) : 0x20 ≤ e.1 ∧ e.1 ≤ 0x40 := by
  have hoffset : e.1 ∈ commandRegisters.map Prod.fst := List.mem_map_of_mem he
  rw [commandRegisters_offsets, List.mem_range'_1] at hoffset
  omega

/-- Settles O10: the offsets below 0x20 store, act or are ignored; those from 0x20 on are commands or ignored. -/
theorem registerWriteActs : Obligations.RegisterWriteActs := by
  intro p v s
  refine ⟨fun i => congrArg Host.Outcome.next (goodWrite_arg i p v s),
    fun n hn => congrArg Host.Outcome.next (goodWrite_readOnly hn p v s), rfl, rfl, rfl, rfl, rfl, rfl, rfl, rfl,
    fun e he => ?command, fun offset hoffset => ?reserved⟩
  case command =>
    obtain ⟨hlow, hhigh⟩ := commandRegisters_range he
    have hoffset : (BitVec.ofNat 8 e.1).toNat = e.1 := Nat.mod_eq_of_lt (by omega)
    rw [exec_commandRegister p s e he]
    exact congrArg Host.Outcome.next ((goodWrite_command (by omega) p v s).trans (by rw [hoffset]))
  case reserved =>
    exact congrArg Host.Outcome.next ((goodWrite_command (by omega) p v s).trans (commandAt_reserved (.inr hoffset) p s))

end Sys2Proof.Machine

namespace Sys2Proof.Machine

/-! ## Write frames as received (R188, R189, R199) -/

/-! ### What the port makes of the bytes -/

/-- The frame has the direction of a write: only port 2 gives the direction a bit (R199). -/
def writeDirection (p : Port) (b : Byte) : Prop := p = 2 → b.getLsbD 7 = false

theorem writeDirection_iff {p : Port} {b : Byte} : (isSpi p && b.getLsbD 7) = false ↔ writeDirection p b := by
  simp [writeDirection, isSpi, Bool.and_eq_false_imp]

theorem readWriteFrame_readDirection {p : Port} {b : Byte} (h : ¬ writeDirection p b) (rest : List Byte) :
    readWriteFrame p (b :: rest) = .readDirection :=
  if_pos (Bool.eq_true_of_not_eq_false fun hb => h (writeDirection_iff.mp hb))

/-- A frame of four bytes is judged by its check byte (R189). -/
theorem readWriteFrame_four {p : Port} {b : Byte} (h : writeDirection p b) (hi lo check : Byte) :
    readWriteFrame p [b, hi, lo, check] = if check = crc8 [b, hi, lo] then .good b (hi ++ lo) else .discarded := by
  simp only [readWriteFrame, writeDirection_iff.mpr h, Bool.false_eq_true, if_false]

/-- A write frame of any other length, past its offset byte, is discarded (R189). -/
theorem readWriteFrame_length {p : Port} {bytes : List Byte} (hlong : 2 ≤ bytes.length) (hfour : bytes.length ≠ 4)
    (h : writeDirection p (bytes.headD 0)) : readWriteFrame p bytes = .discarded := by
  match bytes with
  | [] | [_] => simp at hlong
  | b :: x :: rest =>
    have hdirection : (isSpi p && b.getLsbD 7) = false := writeDirection_iff.mpr h
    match rest with
    | [] | [_] | _ :: _ :: _ :: _ => simp only [readWriteFrame, hdirection, Bool.false_eq_true, if_false]
    | [_, _] => simp at hfour

/-- A frame that ends at its offset byte, or before it, is empty, or on port 2 a read (logs 8 and 29). -/
theorem readWriteFrame_short {p : Port} {bytes : List Byte} (h : bytes.length ≤ 1) :
    readWriteFrame p bytes = .empty ∨ readWriteFrame p bytes = .readDirection := by
  match bytes with
  | [] => exact .inl rfl
  | [b] =>
    by_cases hb : writeDirection p b
    · exact .inl (if_neg (Bool.eq_false_iff.mp (writeDirection_iff.mpr hb)))
    · exact .inr (readWriteFrame_readDirection hb [])
  | _ :: _ :: _ => simp at h

/-! ### What the frame does -/

theorem writeFrameTaken_discarded {p : Port} {address : Nat} {bytes : List Byte} {s : State}
    (haddress : isAddressed s p address = true) (h : readWriteFrame p bytes = .discarded) :
    writeFrameTaken p address bytes s = s.modPort p fun q => { q with frameError := true } := by
  simp only [writeFrameTaken, haddress, if_true, h]

theorem writeFrameTaken_good {p : Port} {address : Nat} {bytes : List Byte} {s : State} {offset : Byte} {v : Word}
    (haddress : isAddressed s p address = true) (h : readWriteFrame p bytes = .good offset v) :
    writeFrameTaken p address bytes s = goodWrite p offset v s := by
  simp only [writeFrameTaken, haddress, if_true, h]

/-- A frame that is no write frame at this port does nothing, whoever it is addressed to (log 8). -/
theorem writeFrameTaken_none {p : Port} {bytes : List Byte}
    (h : readWriteFrame p bytes = .empty ∨ readWriteFrame p bytes = .readDirection) (address : Nat) (s : State) :
    writeFrameTaken p address bytes s = s := by
  rcases h with h | h <;> simp only [writeFrameTaken, h, ite_self]

/-- Settles O9: each frame by what the port makes of its bytes. -/
theorem writeFrameIsChecked : Obligations.WriteFrameIsChecked := by
  intro p address bytes s
  refine ⟨fun haddress => ?_, fun hshort => ?_, fun hp hbit => ?_, fun haddress b hi lo check hbytes hdirection => ?_,
    fun haddress hlong hfour hdirection => ?_⟩
  · exact congrArg Host.Outcome.next (if_neg (Bool.eq_false_iff.mp haddress))
  · exact congrArg Host.Outcome.next (writeFrameTaken_none (readWriteFrame_short hshort) address s)
  · cases bytes with
    | nil => exact congrArg Host.Outcome.next (writeFrameTaken_none (.inl rfl) address s)
    | cons b rest =>
      have hread : ¬ writeDirection p b := fun h => Bool.false_ne_true ((h hp).symm.trans hbit)
      exact congrArg Host.Outcome.next
        (writeFrameTaken_none (.inr (readWriteFrame_readDirection hread rest)) address s)
  · subst hbytes
    have hfour := readWriteFrame_four hdirection hi lo check
    exact ⟨fun hwrong => congrArg Host.Outcome.next
        (writeFrameTaken_discarded haddress (hfour.trans (if_neg hwrong))),
      fun hright => congrArg Host.Outcome.next (writeFrameTaken_good haddress (hfour.trans (if_pos hright)))⟩
  · exact congrArg Host.Outcome.next
      (writeFrameTaken_discarded haddress (readWriteFrame_length hlong hfour hdirection))

end Sys2Proof.Machine

namespace Sys2Proof.Machine

/-! ## The model's own clock and queue (logs 2, 3, 6, 22) -/

/-- What is the model's own in the state: the instant, the free choices drawn, and the commands that wait. -/
def moment (s : State) : Instant × Nat × List Instr := (s.now, s.draws, s.pending)

theorem moment_eq_iff {s t : State} :
    moment t = moment s ↔ t.now = s.now ∧ t.draws = s.draws ∧ t.pending = s.pending := by
  simp only [moment, Prod.mk.injEq]

/-! ### Writes and shared operations -/

@[simp] theorem moment_modPort (s : State) (p : Port) (f : PortState → PortState) : moment (s.modPort p f) = moment s := by
  simp [moment]
@[simp] theorem moment_modRecord (s : State) (k : Slot) (f : ClaimRecord → ClaimRecord) :
    moment (s.modRecord k f) = moment s := by simp [moment]
@[simp] theorem moment_modEntry (s : State) (ch : Channel) (f : ResolverEntry → ResolverEntry) :
    moment (s.modEntry ch f) = moment s := by simp [moment]
@[simp] theorem moment_modScene (s : State) (n : SceneNo) (f : Scene → Scene) : moment (s.modScene n f) = moment s := by
  simp [moment]
@[simp] theorem moment_modPlayer (s : State) (n : PlayerNo) (f : Player → Player) : moment (s.modPlayer n f) = moment s := by
  simp [moment]
@[simp] theorem moment_modLine (s : State) (l : Line) (f : LineState → LineState) : moment (s.modLine l f) = moment s := by
  simp [moment]
@[simp] theorem moment_modLines (s : State) (f : LineState → LineState) : moment (s.modLines f) = moment s := by
  simp [moment]
@[simp] theorem moment_modChan (s : State) (ch : Channel) (f : ModChannel → ModChannel) :
    moment (s.modChan ch f) = moment s := by simp [moment]
@[simp] theorem moment_modClock (s : State) (k : ClockNo) (f : PatternClock → PatternClock) :
    moment (s.modClock k f) = moment s := by simp [moment]
@[simp] theorem moment_modClocks (s : State) (f : PatternClock → PatternClock) : moment (s.modClocks f) = moment s := by
  simp [moment]
@[simp] theorem moment_modOut (s : State) (ch : Channel) (f : OutChannel → OutChannel) : moment (s.modOut ch f) = moment s := by
  simp [moment]
@[simp] theorem moment_modOuts (s : State) (f : OutChannel → OutChannel) : moment (s.modOuts f) = moment s := by
  simp [moment]
@[simp] theorem moment_modOutput (s : State) (f : OutputStage → OutputStage) : moment (s.modOutput f) = moment s := by
  simp [moment]
@[simp] theorem moment_setLampTest (s : State) (t : Option Instant) : moment (s.setLampTest t) = moment s := by
  simp [moment]
@[simp] theorem moment_setDerateCeiling (s : State) (v : Level) : moment (s.setDerateCeiling v) = moment s := by
  simp [moment]
@[simp] theorem moment_setMaintenance (s : State) (p : Port) : moment (s.setMaintenance p) = moment s := by
  simp [moment]
@[simp] theorem moment_setWatch (s : State) (w : WatchNo) (x : Option Watch) : moment (s.setWatch w x) = moment s := by
  simp [moment]
@[simp] theorem moment_offer (p : Port) (n : Notice) (s : State) : moment (offer p n s) = moment s := by simp [moment]
@[simp] theorem moment_resetNotices (p : Port) (s : State) : moment (resetNotices p s) = moment s := by simp [moment]
@[simp] theorem moment_setResult (p : Port) (r : Result) (s : State) : moment (setResult p r s) = moment s := by
  simp [moment]
@[simp] theorem moment_syncChannel (ch : Channel) (s : State) : moment (syncChannel ch s) = moment s := by
  simp [moment]
@[simp] theorem moment_cleanChannel (ch : Channel) (s : State) : moment (cleanChannel ch s) = moment s := by
  simp [moment]
@[simp] theorem moment_offerAll (n : Notice) (s : State) : moment (offerAll n s) = moment s := by simp [moment]
@[simp] theorem moment_fireWatches (k : WatchKind) (i : Nat) (n : Notice) (s : State) :
    moment (fireWatches k i n s) = moment s := by simp [moment]
@[simp] theorem moment_faultEvent (ch : Channel) (d : FaultDetail) (s : State) : moment (faultEvent ch d s) = moment s := by
  simp [moment]
@[simp] theorem moment_cleanChannels (s : State) : moment (cleanChannels s) = moment s := by simp [moment]
@[simp] theorem moment_reinsert (h : Handle) (c : Claim) (s : State) : moment (reinsert h c s) = moment s := by simp [moment]
@[simp] theorem moment_resolveSet (f : Option Handle) (e : Bool) (cs : ChannelSet) (s : State) :
    moment (resolveSet f e cs s) = moment s := by simp [moment]
@[simp] theorem moment_winnerEvents (cs : ChannelSet) (o s : State) : moment (winnerEvents cs o s) = moment s := by
  simp [moment]
@[simp] theorem moment_seat (k : Slot) (c : Claim) (s : State) : moment (seat k c s) = moment s := by simp [moment]
@[simp] theorem moment_place (k : Slot) (c : Claim) (s : State) : moment (place k c s) = moment s := by simp [moment]
@[simp] theorem moment_freeRecords (x : FreeCause) (e : Bool) (l : List Slot) (s : State) :
    moment (freeRecords x e l s) = moment s := by simp [moment]
@[simp] theorem moment_changeStage (st : StageName) (c : Cause) (s : State) : moment (changeStage st c s) = moment s := by
  simp [moment]
@[simp] theorem moment_enterStage (st : StageName) (c : Cause) (s : State) : moment (enterStage st c s) = moment s := by
  simp [moment]
@[simp] theorem moment_settle (c : Cause) (s : State) : moment (settle c s) = moment s := by simp [moment]
@[simp] theorem moment_rearmChannel (ch : Channel) (s : State) : moment (rearmChannel ch s) = moment s := by simp [moment]

/-- The state that a refusal hands on is the state as it stood (R191). -/
@[simp] theorem refuse_state (code : ResultCode) (x : Nat) (s : State) : (refuse code x s).1 = s := rfl
@[simp] theorem done_state (h : Option Handle) (x : Nat) (s : State) : (done h x s).1 = s := rfl

/-- An operation that keeps the moment, done for each index. -/
theorem moment_forEach {ι : Type} (l : List ι) {f : ι → State → State} (h : ∀ i s, moment (f i s) = moment s) (s : State) :
    moment (forEach l f s) = moment s := forEach_keeps moment l f h s

/-! ### Claims and scenes -/

theorem moment_placeForPort (p : Port) (bad : Option ResultCode) (c : Claim) (s : State) :
    moment (placeForPort p bad c s).1 = moment s := by
  unfold placeForPort
  split <;> simp

theorem moment_modified (p : Port) (h : Handle) (c : Claim) (s : State) : moment (modified p h c s) = moment s :=
  modified_keeps moment (fun _ _ _ => rfl) moment_reinsert p h c s

theorem moment_applyModify (p : Port) (h : Handle) (c : Claim) (s : State) : moment (applyModify p h c s) = moment s := by
  obtain ⟨faded, hrun⟩ | hrun | hrun := applyModify_cases p h c s
  · rw [hrun, moment_settle, moment_resolveSet, moment_modified]
  · rw [hrun, moment_settle, handFade_keeps moment (fun _ _ _ => rfl), moment_modified]
  · rw [hrun, moment_modified]

theorem moment_modifyBody (p : Port) (s : State) : moment (modifyBody p s).1 = moment s := by
  unfold modifyBody
  split
  · rfl
  · split
    · rfl
    · split_ifs
      · rfl
      · rfl
      · rfl
      · exact moment_applyModify _ _ _ _

theorem moment_withdrawBody (p : Port) (s : State) : moment (withdrawBody p s).1 = moment s := by
  unfold withdrawBody
  split
  · rfl
  · split
    · rfl
    · split_ifs <;> simp

theorem moment_withdrawAllBody (p : Port) (s : State) : moment (withdrawAllBody p s).1 = moment s := by
  unfold withdrawAllBody
  split_ifs <;> simp

theorem moment_renewBody (p : Port) (s : State) : moment (renewBody p s).1 = moment s :=
  moment_forEach (ownLeased p s) (f := fun slot t => t.modRecord slot (restartLease t.now)) (fun _ _ => rfl) s

theorem moment_setPolicy (cs : ChannelSet) (policy : Policy) (idle : Level) (s : State) :
    moment (setPolicy cs policy idle s) = moment s :=
  (moment_resolveSet _ _ _ _).trans (moment_forEach _ (by intros; rfl) s)

theorem moment_channelPolicyBody (p : Port) (s : State) : moment (channelPolicyBody p s).1 = moment s := by
  unfold channelPolicyBody
  split
  · split_ifs
    · rfl
    · exact (moment_settle _ _).trans (moment_setPolicy _ _ _ _)
  · rfl

theorem moment_leaseExpires (slot : Slot) (s : State) : moment (leaseExpires slot s) = moment s := by
  unfold leaseExpires
  split_ifs <;> simp

theorem moment_editScene (n : SceneNo) (levels : Vector (Option Level) 16) (s : State) :
    moment (editScene n levels s).1 = moment s := by
  unfold editScene
  split_ifs <;> rfl

theorem moment_scenePutBody (p : Port) (s : State) : moment (scenePutBody p s).1 = moment s := by
  unfold scenePutBody
  split
  · exact moment_editScene _ _ _
  · rfl

theorem moment_sceneDropBody (p : Port) (s : State) : moment (sceneDropBody p s).1 = moment s := by
  unfold sceneDropBody
  split
  · split_ifs
    · rfl
    · rfl
    · exact moment_editScene _ _ _
  · rfl

theorem moment_sceneEraseBody (p : Port) (s : State) : moment (sceneEraseBody p s).1 = moment s := by
  unfold sceneEraseBody
  split
  · exact moment_editScene _ _ _
  · rfl

/-! ### Players -/

theorem moment_playerNotice (n : PlayerNo) (d : PlayerDetail) (s : State) : moment (playerNotice n d s) = moment s := by
  rw [playerNotice_frame]
  rfl

theorem moment_beginStep (n : PlayerNo) (s : State) : moment (beginStep n s) = moment s := by
  unfold beginStep
  dsimp only
  split_ifs
  · exact moment_playerNotice _ _ _
  · rfl

theorem moment_finishPlayer (n : PlayerNo) (s : State) : moment (finishPlayer n s) = moment s := by
  unfold finishPlayer
  split
  · exact moment_playerNotice _ _ _
  · split <;> simp

theorem moment_runSteps (fuel : Nat) (n : PlayerNo) (s : State) : moment (runSteps fuel n s) = moment s := by
  induction fuel generalizing s with
  | zero => rfl
  | succ fuel ih =>
    unfold runSteps
    split
    · split_ifs
      · exact moment_finishPlayer n s
      · exact moment_playerNotice _ _ _
    · dsimp only
      split_ifs
      · exact (ih _).trans (moment_beginStep n s)
      · exact moment_beginStep n s

@[simp] theorem moment_runQueue (n : PlayerNo) (s : State) : moment (runQueue n s) = moment s := moment_runSteps _ n s

@[simp] theorem moment_handPlayerLevel (e : Bool) (n : PlayerNo) (s : State) :
    moment (handPlayerLevel e n s) = moment s := by
  unfold handPlayerLevel
  split_ifs <;> simp

theorem moment_rampUpdates (n : PlayerNo) (s : State) : moment (rampUpdates n s) = moment s := by
  unfold rampUpdates
  split_ifs <;> simp

theorem moment_stepCompletes (n : PlayerNo) (s : State) : moment (stepCompletes n s) = moment s := by
  unfold stepCompletes
  split_ifs <;> simp

theorem moment_onHeldPlayer {p : Port} {body : PlayerNo → State → State × Result} {s : State}
    (h : ∀ n, moment (body n s).1 = moment s) : moment (onHeldPlayer p body s).1 = moment s := by
  unfold onHeldPlayer
  split
  · rfl
  · split_ifs
    · rfl
    · rfl
    · exact h _

theorem moment_playerAcquireBody (p : Port) (s : State) : moment (playerAcquireBody p s).1 = moment s := by
  unfold playerAcquireBody
  split
  · rfl
  · split_ifs <;> rfl

theorem moment_pushStep (n : PlayerNo) (st : PlayerStep) (s : State) : moment (pushStep n st s) = moment s := by
  unfold pushStep
  dsimp only
  split_ifs <;> simp

theorem moment_playerPushBody (p : Port) (s : State) : moment (playerPushBody p s).1 = moment s :=
  moment_onHeldPlayer fun n => by
    dsimp only
    split
    · rfl
    · split_ifs
      · rfl
      · rfl
      · exact moment_pushStep _ _ _

theorem moment_endStream (n : PlayerNo) (s : State) : moment (endStream n s) = moment s := by
  unfold endStream
  dsimp only
  split_ifs
  · rfl
  · exact (moment_settle _ _).trans (moment_finishPlayer _ _)
  · rfl

theorem moment_playerEndBody (p : Port) (s : State) : moment (playerEndBody p s).1 = moment s :=
  moment_onHeldPlayer fun n => by
    dsimp only
    split_ifs
    · rfl
    · exact moment_endStream _ _

theorem moment_runStart (n : PlayerNo) (start : Player → Player) (cs : ChannelSet) {before seated placed s : State}
    (hseated : moment seated = moment s) (hplaced : moment placed = moment s) :
    moment (runStart n start cs before seated placed) = moment s := by
  unfold runStart
  dsimp only
  split_ifs
  · simpa using hseated
  · simpa using hplaced

theorem moment_playerStartBody (p : Port) (s : State) : moment (playerStartBody p s).1 = moment s := by
  unfold playerStartBody
  dsimp only
  split
  · rfl
  · exact (moment_settle _ _).trans (moment_runStart _ _ _ (by simp) (by simp))

theorem moment_abortPlayer (x : FreeCause) (n : PlayerNo) (s : State) : moment (abortPlayer x n s) = moment s := by
  unfold abortPlayer
  dsimp only
  split <;> simp

theorem moment_playerAbortBody (p : Port) (s : State) : moment (playerAbortBody p s).1 = moment s :=
  moment_onHeldPlayer fun _ => (moment_settle _ _).trans (moment_abortPlayer _ _ _)

theorem moment_playerReleaseBody (p : Port) (s : State) : moment (playerReleaseBody p s).1 = moment s :=
  moment_onHeldPlayer fun _ => (moment_settle _ _).trans (moment_abortPlayer _ _ _)

/-! ### Lines -/

theorem moment_followActivity (l : Line) (active : Bool) (s : State) : moment (followActivity l active s) = moment s := by
  unfold followActivity
  split
  · rfl
  · split
    · rfl
    · cases active <;> simp

@[simp] theorem moment_activityStart (l : Line) (s : State) : moment (activityStart l s) = moment s := by
  rw [activityStart, moment_settle, moment_followActivity, moment_fireWatches]

@[simp] theorem moment_activityEnd (l : Line) (s : State) : moment (activityEnd l s) = moment s := by
  rw [activityEnd, moment_settle, moment_followActivity, moment_fireWatches]

theorem moment_handActivity (l : Line) (e : ActivityEvent) (s : State) : moment (handActivity l e s) = moment s := by
  cases e with
  | none => rfl
  | start => exact moment_activityStart l s
  | stop => exact moment_activityEnd l s
  | pulse => simp [handActivity, activityPulse]

theorem moment_qualify (l : Line) (s : State) : moment (qualify l s) = moment s := moment_handActivity _ _ _

theorem moment_inputChanges (l : Line) (s : State) : moment (inputChanges l s) = moment s := by
  unfold inputChanges
  dsimp only
  split_ifs
  · rfl
  · exact moment_qualify _ _
  · rfl

theorem moment_filterEnds (l : Line) (s : State) : moment (filterEnds l s) = moment s := by
  unfold filterEnds
  split_ifs
  · exact moment_qualify l s
  · rfl

theorem moment_stretchEnds (l : Line) (s : State) : moment (stretchEnds l s) = moment s := by
  unfold stretchEnds
  split_ifs <;> simp

theorem moment_lineConfigBody (p : Port) (s : State) : moment (lineConfigBody p s).1 = moment s := by
  unfold lineConfigBody
  split
  · exact moment_handActivity _ _ _
  · rfl

theorem moment_placeLine (l : Line) (t : Template) (slot : Slot) (s : State) : moment (placeLine l t slot s) = moment s :=
  moment_place _ _ _

theorem moment_lineBindBody (p : Port) (s : State) : moment (lineBindBody p s).1 = moment s := by
  unfold lineBindBody
  split
  · rfl
  · split_ifs
    · rfl
    · split
      · rfl
      · split
        · rfl
        · exact (moment_settle _ _).trans (moment_placeLine _ _ _ _)

theorem moment_unbindLine (l : Line) (s : State) : moment (unbindLine l s) = moment s := by
  unfold unbindLine
  dsimp only
  split <;> simp

theorem moment_lineUnbindBody (p : Port) (s : State) : moment (lineUnbindBody p s).1 = moment s := by
  unfold lineUnbindBody
  split
  · rfl
  · split_ifs
    · rfl
    · exact (moment_settle _ _).trans (moment_unbindLine _ _)

/-! ### Modulator and output stage -/

theorem moment_channelFadeBody (p : Port) (s : State) : moment (channelFadeBody p s).1 = moment s := by
  unfold channelFadeBody
  split
  · split_ifs
    · rfl
    · exact moment_forEach _ (by intros; rfl) s
  · rfl

theorem moment_clockConfigBody (p : Port) (s : State) : moment (clockConfigBody p s).1 = moment s := by
  unfold clockConfigBody
  split <;> simp

theorem moment_derateConfigBody (p : Port) (s : State) : moment (derateConfigBody p s).1 = moment s := by
  unfold derateConfigBody
  split <;> simp

theorem moment_lampTestBody (p : Port) (s : State) : moment (lampTestBody p s).1 = moment s := by
  unfold lampTestBody
  split_ifs <;> simp

theorem moment_latchClearBody (s : State) : moment (latchClearBody s).1 = moment s := by
  unfold latchClearBody
  split_ifs
  · simp [clearLatch, moment_forEach _ moment_rearmChannel]
  · rfl

theorem moment_channelEnableBody (p : Port) (s : State) : moment (channelEnableBody p s).1 = moment s := by
  unfold channelEnableBody
  split
  · split_ifs
    · rfl
    · exact (moment_settle _ _).trans (moment_forEach _ (by intros; rfl) s)
  · rfl

theorem moment_channelRearmModeBody (p : Port) (s : State) : moment (channelRearmModeBody p s).1 = moment s := by
  unfold channelRearmModeBody
  split
  · split_ifs
    · rfl
    · exact moment_forEach _ (by intros; rfl) s
  · rfl

theorem moment_faultRearmBody (p : Port) (s : State) : moment (faultRearmBody p s).1 = moment s := by
  unfold faultRearmBody
  split_ifs
  · rfl
  · exact (moment_settle _ _).trans (moment_forEach _ moment_rearmChannel s)

theorem moment_assertHold (s : State) : moment (assertHold s) = moment s := by
  unfold assertHold
  dsimp only
  split_ifs <;> simp

theorem moment_releaseHold (s : State) : moment (releaseHold s) = moment s := moment_settle _ _

theorem moment_forceDown (c : Cause) (s : State) : moment (forceDown c s) = moment s := by
  unfold forceDown
  dsimp only
  split_ifs <;> simp

theorem moment_supplyOnset (c : SupplyCondition) (s : State) : moment (supplyOnset c s) = moment s := by
  unfold supplyOnset
  dsimp only
  split_ifs
  · rfl
  · split <;> simp [moment_forceDown]
  · split <;> simp

theorem moment_supplyClearing (c : SupplyCondition) (s : State) : moment (supplyClearing c s) = moment s := by
  unfold supplyClearing
  dsimp only
  split_ifs
  · split <;> simp
  · rfl

theorem moment_channelFault (ch : Channel) (k : FaultKind) (s : State) : moment (channelFault ch k s) = moment s := by
  unfold channelFault faultTaken
  dsimp only
  split_ifs <;> simp

theorem moment_softstartEnds (s : State) : moment (softstartEnds s) = moment s := by
  unfold softstartEnds
  split_ifs <;> simp

theorem moment_standbyExpires (s : State) : moment (standbyExpires s) = moment s := by
  unfold standbyExpires
  split_ifs <;> simp

theorem moment_activeTimerEnds (s : State) : moment (activeTimerEnds s) = moment s := by
  unfold activeTimerEnds
  split_ifs <;> rfl

theorem moment_recoveryEnds (s : State) : moment (recoveryEnds s) = moment s := by
  unfold recoveryEnds
  split_ifs <;> simp

theorem moment_retryEnds (ch : Channel) (s : State) : moment (retryEnds ch s) = moment s := by
  unfold retryEnds
  split_ifs <;> simp

theorem moment_cleanEnds (ch : Channel) (s : State) : moment (cleanEnds ch s) = moment s := by
  unfold cleanEnds
  split_ifs <;> rfl

theorem moment_fadeCompletes (ch : Channel) (s : State) : moment (fadeCompletes ch s) = moment s := by
  unfold fadeCompletes
  split_ifs <;> simp

theorem moment_clockHalfEnds (k : ClockNo) (s : State) : moment (clockHalfEnds k s) = moment s := by
  unfold clockHalfEnds
  split_ifs <;> simp

theorem moment_lampTestExpires (s : State) : moment (lampTestExpires s) = moment s := by
  unfold lampTestExpires
  split_ifs
  · exact (moment_settle _ _).trans (moment_forEach _ (by intros; rfl) _)
  · rfl

/-! ### Watches, rights, port resets, ENABLE and power-on -/

theorem moment_watchSetBody (p : Port) (s : State) : moment (watchSetBody p s).1 = moment s := by
  unfold watchSetBody
  split
  · rfl
  · split <;> rfl

theorem moment_watchDropBody (p : Port) (s : State) : moment (watchDropBody p s).1 = moment s := by
  unfold watchDropBody
  split
  · rfl
  · split
    · rfl
    · split_ifs <;> rfl

theorem moment_rightsTold (p : Port) (ceiling : Priority) (sceneEdit : Bool) (quota : Fin 49) (s : State) :
    moment (rightsTold p ceiling sceneEdit quota s) = moment s := by
  unfold rightsTold
  split_ifs <;> rfl

theorem moment_applyPrivSet (p : Port) (ceiling : Priority) (sceneEdit : Bool) (quota : Fin 49) (s : State) :
    moment (applyPrivSet p ceiling sceneEdit quota s) = moment s := by
  rw [applyPrivSet_eq]
  split_ifs <;> simp [moment_rightsTold]

theorem moment_privSetBody (p : Port) (s : State) : moment (privSetBody p s).1 = moment s := by
  unfold privSetBody
  split
  · split_ifs
    · rfl
    · exact moment_applyPrivSet _ _ _ _ _
  · rfl

theorem moment_maintHandoverBody (p : Port) (s : State) : moment (maintHandoverBody p s).1 = moment s := by
  unfold maintHandoverBody
  split
  · rfl
  · split_ifs <;> rfl

@[simp] theorem moment_resetPort (p : Port) (s : State) : moment (resetPort p s) = moment s := by
  have hplayers : ∀ t, moment (freePlayers p t) = moment t := moment_forEach _ (by intros; rfl)
  simp [resetPort, hplayers]

theorem moment_portResetTaken (p : Port) (s : State) : moment (portResetTaken p s) = moment s := by
  simp [portResetTaken]

theorem moment_portClearBody (p : Port) (s : State) : moment (portClearBody p s).1 = moment s := by
  unfold portClearBody
  split <;> simp

@[simp] theorem moment_enableHigh (s : State) : moment (enableHigh s) = moment s := by
  unfold enableHigh
  split_ifs <;> simp

theorem moment_outputOff (s : State) : moment (outputOff s) = moment s := by simp [outputOff]

theorem moment_blocksOff (s : State) : moment (blocksOff s) = moment s := moment_freeRecords _ _ _ _

theorem moment_enableLow (s : State) : moment (enableLow s) = moment s := by
  unfold enableLow
  split_ifs
  · rfl
  · have hports (t : State) : moment { t with ports := tmap portOff t.ports } = moment t := rfl
    rw [moment_offerAll, hports, moment_blocksOff, moment_outputOff]

theorem moment_recreateLine (l : Line) (s : State) : moment (recreateLine l s) = moment s := by
  unfold recreateLine
  split
  · rfl
  · split
    · rfl
    · exact moment_placeLine _ _ _ _

theorem moment_announceLine (l : Line) (s : State) : moment (announceLine l s) = moment s := by
  unfold announceLine
  split_ifs <;> simp

theorem moment_startupTest (s : State) : moment (startupTest s) = moment s := by
  unfold startupTest
  split_ifs <;> rfl

theorem moment_initEnds (s : State) : moment (initEnds s) = moment s := by
  unfold initEnds
  dsimp only
  split_ifs
  · simp [moment_startupTest, moment_forEach _ moment_announceLine, moment_forEach _ moment_recreateLine]
  · rfl

/-- Power-on reset sets every piece of the arbiter's state, and none of the model's own (log 6). -/
theorem moment_powerOn (pins : PowerOnPins) (s : State) : moment (powerOn pins s) = moment s := by
  have hreset : moment (powerOnState pins s) = moment s := rfl
  unfold powerOn
  split_ifs
  · exact (moment_enableHigh _).trans hreset
  · exact hreset

end Sys2Proof.Machine

namespace Sys2Proof.Machine

/-! ## Every command completes (log 17) -/

/-- A port command but PORT_RESET is a body behind the port's own two checks, and no body touches what is the model's
own (R191). -/
theorem exec_portCommand {c : Instr} {p : Port} {n : Need} (h : portCommand c = some (p, n)) :
    ∃ body : State → State × Result, (∀ s, moment (body s).1 = moment s) ∧
      ∀ s, exec c s = .next (takeCommand p n body s) := by
  cases c with
  | claim => cases h; exact ⟨_, fun s => moment_placeForPort _ _ _ s, fun _ => rfl⟩
  | modify => cases h; exact ⟨_, moment_modifyBody p, fun _ => rfl⟩
  | withdraw => cases h; exact ⟨_, moment_withdrawBody p, fun _ => rfl⟩
  | withdrawAll => cases h; exact ⟨_, moment_withdrawAllBody p, fun _ => rfl⟩
  | renew => cases h; exact ⟨_, moment_renewBody p, fun _ => rfl⟩
  | channelPolicy => cases h; exact ⟨_, moment_channelPolicyBody p, fun _ => rfl⟩
  | scenePut => cases h; exact ⟨_, moment_scenePutBody p, fun _ => rfl⟩
  | sceneDrop => cases h; exact ⟨_, moment_sceneDropBody p, fun _ => rfl⟩
  | sceneErase => cases h; exact ⟨_, moment_sceneEraseBody p, fun _ => rfl⟩
  | sceneInvoke => cases h; exact ⟨sceneInvokeBody p, fun s => moment_placeForPort _ _ _ s, fun _ => rfl⟩
  | playerAcquire => cases h; exact ⟨_, moment_playerAcquireBody p, fun _ => rfl⟩
  | playerPush => cases h; exact ⟨_, moment_playerPushBody p, fun _ => rfl⟩
  | playerEnd => cases h; exact ⟨_, moment_playerEndBody p, fun _ => rfl⟩
  | playerStart => cases h; exact ⟨_, moment_playerStartBody p, fun _ => rfl⟩
  | playerAbort => cases h; exact ⟨_, moment_playerAbortBody p, fun _ => rfl⟩
  | playerRelease => cases h; exact ⟨_, moment_playerReleaseBody p, fun _ => rfl⟩
  | lineConfig => cases h; exact ⟨_, moment_lineConfigBody p, fun _ => rfl⟩
  | lineBind => cases h; exact ⟨_, moment_lineBindBody p, fun _ => rfl⟩
  | lineUnbind => cases h; exact ⟨_, moment_lineUnbindBody p, fun _ => rfl⟩
  | channelFade => cases h; exact ⟨_, moment_channelFadeBody p, fun _ => rfl⟩
  | clockConfig => cases h; exact ⟨_, moment_clockConfigBody p, fun _ => rfl⟩
  | derateConfig => cases h; exact ⟨_, moment_derateConfigBody p, fun _ => rfl⟩
  | lampTest => cases h; exact ⟨_, moment_lampTestBody p, fun _ => rfl⟩
  | latchClear => cases h; exact ⟨_, moment_latchClearBody, fun _ => rfl⟩
  | channelEnable => cases h; exact ⟨_, moment_channelEnableBody p, fun _ => rfl⟩
  | channelRearmMode => cases h; exact ⟨_, moment_channelRearmModeBody p, fun _ => rfl⟩
  | faultRearm => cases h; exact ⟨_, moment_faultRearmBody p, fun _ => rfl⟩
  | watchSet => cases h; exact ⟨_, moment_watchSetBody p, fun _ => rfl⟩
  | watchDrop => cases h; exact ⟨_, moment_watchDropBody p, fun _ => rfl⟩
  | privSet => cases h; exact ⟨_, moment_privSetBody p, fun _ => rfl⟩
  | maintHandover => cases h; exact ⟨_, moment_maintHandoverBody p, fun _ => rfl⟩
  | portClear => cases h; exact ⟨_, moment_portClearBody p, fun _ => rfl⟩
  | _ => cases h

/-! ### The port's own two checks (R191) -/

/-- The port's second check refuses a command whose right the port lacks (R191 step 2). -/
theorem takeCommand_privilege {s : State} {p : Port} {n : Need} (hstage : refusesCommands s.output.stage = false)
    (hright : holdsRight s p n = false) (body : State → State × Result) :
    takeCommand p n body s = refusedState p .privilege 0 s := by
  have hchecked : checkedBody p n body s = refuse .privilege 0 s := by
    simp only [checkedBody, hstage, hright, Bool.false_eq_true, if_false, Bool.not_false, if_true]
  simp only [takeCommand, hchecked, refuse, setResult_refused p .privilege 0 s (by decide)]

/-- Settles O8: every port command but PORT_RESET stands behind the two checks, whatever its body does. -/
theorem portChecksRefuse : Obligations.PortChecksRefuse := by
  intro c p n s hcommand
  obtain ⟨body, -, hexec⟩ := exec_portCommand hcommand
  rw [hexec]
  exact ⟨fun hstage => congrArg Host.Outcome.next (takeCommand_wrongState hstage p n body),
    fun hstage hright => congrArg Host.Outcome.next (takeCommand_privilege hstage hright body)⟩

/-! ### Commands and frames -/

/-- A command completes, and what is the model's own stays. -/
def Completes (c : Instr) (s : State) : Prop := ∃ t, exec c s = .next t ∧ moment t = moment s

theorem portCommand_completes {c : Instr} {p : Port} {n : Need} (h : portCommand c = some (p, n)) (s : State) :
    Completes c s := by
  obtain ⟨body, hbody, hexec⟩ := exec_portCommand h
  refine ⟨_, hexec s, (moment_setResult _ _ _).trans ?_⟩
  unfold checkedBody
  split_ifs
  · rfl
  · rfl
  · exact hbody s

/-- Every command register takes a port command behind the two checks, or PORT_RESET (R203). -/
theorem commandRegisters_command (p : Port) :
    ∀ e ∈ commandRegisters, (∃ n, portCommand (e.2 p) = some (p, n)) ∨ e.2 p = .portReset p := by
  simp [commandRegisters, portCommand]

theorem moment_commandAt (n : Nat) (p : Port) (s : State) : moment (commandAt n p s) = moment s := by
  by_cases hn : n ∈ commandRegisters.map Prod.fst
  · obtain ⟨e, he, rfl⟩ := List.mem_map.mp hn
    have hcompletes : Completes (e.2 p) s := by
      obtain ⟨n, hcommand⟩ | hreset := commandRegisters_command p e he
      · exact portCommand_completes hcommand s
      · exact hreset ▸ ⟨_, rfl, moment_portResetTaken p s⟩
    obtain ⟨t, hexec, hmoment⟩ := hcompletes
    obtain rfl := Host.Outcome.next.inj ((exec_commandRegister p s e he).symm.trans hexec)
    exact hmoment
  · rw [commandRegisters_offsets, List.mem_range'_1] at hn
    rw [commandAt_reserved (by omega)]

theorem moment_goodWrite (p : Port) (offset : Byte) (v : Word) (s : State) :
    moment (goodWrite p offset v s) = moment s := by
  unfold goodWrite
  dsimp only
  split_ifs
  · split <;> exact moment_modPort _ _ _
  · exact moment_commandAt _ _ _

theorem moment_writeFrameTaken (p : Port) (address : Nat) (bytes : List Byte) (s : State) :
    moment (writeFrameTaken p address bytes s) = moment s := by
  unfold writeFrameTaken
  split_ifs
  · split
    · exact moment_modPort _ _ _
    · rfl
    · rfl
    · exact moment_goodWrite _ _ _ _
  · rfl

theorem exec_completes (c : Instr) (s : State) : Completes c s := by
  cases hcommand : portCommand c with
  | some e => exact portCommand_completes hcommand s
  | none =>
    cases c with
    | powerOnReset pins => exact ⟨_, rfl, moment_powerOn pins s⟩
    | enableLow => exact ⟨_, rfl, moment_enableLow s⟩
    | enableHigh => exact ⟨_, rfl, moment_enableHigh s⟩
    | holdAsserted => exact ⟨_, rfl, moment_assertHold s⟩
    | holdReleased => exact ⟨_, rfl, moment_releaseHold s⟩
    | supplyOnset k => exact ⟨_, rfl, moment_supplyOnset k s⟩
    | supplyClearing k => exact ⟨_, rfl, moment_supplyClearing k s⟩
    | channelFaultEvent ch k => exact ⟨_, rfl, moment_channelFault ch k s⟩
    | lineInputChange l => exact ⟨_, rfl, moment_inputChanges l s⟩
    | filterIntervalEnd l => exact ⟨_, rfl, moment_filterEnds l s⟩
    | stretchEnd l => exact ⟨_, rfl, moment_stretchEnds l s⟩
    | initIntervalEnd => exact ⟨_, rfl, moment_initEnds s⟩
    | softstartIntervalEnd => exact ⟨_, rfl, moment_softstartEnds s⟩
    | standbyDelayExpiry => exact ⟨_, rfl, moment_standbyExpires s⟩
    | activeDurationTimerEnd => exact ⟨_, rfl, moment_activeTimerEnds s⟩
    | recoveryIntervalEnd => exact ⟨_, rfl, moment_recoveryEnds s⟩
    | retryTimerEnd ch => exact ⟨_, rfl, moment_retryEnds ch s⟩
    | cleanIntervalEnd ch => exact ⟨_, rfl, moment_cleanEnds ch s⟩
    | leaseExpiry slot => exact ⟨_, rfl, moment_leaseExpires slot s⟩
    | clockHalfEnd k => exact ⟨_, rfl, moment_clockHalfEnds k s⟩
    | fadeCompletion ch => exact ⟨_, rfl, moment_fadeCompletes ch s⟩
    | rampUpdate n => exact ⟨_, rfl, moment_rampUpdates n s⟩
    | stepCompletion n => exact ⟨_, rfl, moment_stepCompletes n s⟩
    | lampTestExpiry => exact ⟨_, rfl, moment_lampTestExpires s⟩
    | outputLevelRisesAbove0 ch => exact ⟨_, rfl, moment_cleanChannel ch s⟩
    | writeFrameDiscarded p address bytes => exact ⟨_, rfl, moment_writeFrameTaken p address bytes s⟩
    | registerWrite p offset v => exact ⟨_, rfl, moment_goodWrite p offset v s⟩
    | portStatusRead p => exact ⟨_, rfl, moment_modPort s p _⟩
    | acceptedRead p => exact ⟨_, rfl, moment_modPort s p _⟩
    | refusedRead p => exact ⟨_, rfl, moment_modPort s p _⟩
    | maskSet p v => exact ⟨_, rfl, moment_modPort s p _⟩
    | maskClear p v => exact ⟨_, rfl, moment_modPort s p _⟩
    | noticePop p => exact ⟨_, rfl, moment_modPort s p _⟩
    | portReset p => exact ⟨_, rfl, moment_portResetTaken p s⟩
    | _ => cases hcommand

/-- Settles O3: the takings one by one, and the moment read field by field. -/
theorem everyCommandCompletes : Obligations.EveryCommandCompletes := fun c s =>
  let ⟨t, hexec, hmoment⟩ := exec_completes c s
  ⟨t, hexec, moment_eq_iff.mp hmoment⟩

end Sys2Proof.Machine

namespace Sys2Proof.Machine

/-! ## Codes and coded fields (R202, R203, R204) -/

/-! ### Handles -/

theorem Handle.code_lt (h : Handle) : h.code < 1024 := by
  unfold Handle.code
  omega

/-- Bits 15..10 of a word are its part from 1024 on. -/
theorem unusedHandleBits_eq_zero {w : Word} : w.extractLsb' 10 6 = 0 ↔ w.toNat < 1024 := by
  rw [← BitVec.toNat_inj, BitVec.extractLsb'_toNat, Nat.shiftRight_eq_div_pow]
  change w.toNat / 1024 % 64 = 0 ↔ w.toNat < 1024
  omega

/-- A word is cut at bits 10 and 6: an unused part, a generation and a slot. -/
theorem handleOf_eq (w : Word) :
    handleOf w = if w.toNat < 1024 then
      if h : w.toNat % 64 < 48 then some ⟨⟨w.toNat % 64, h⟩, ⟨w.toNat / 64 % 16, Nat.mod_lt _ (by decide)⟩⟩ else none
    else none := by
  have hslot : (w.extractLsb' 0 6).toNat = w.toNat % 64 := BitVec.extractLsb'_toNat 0 6 w
  have hgen : (w.extractLsb' 6 4).toNat = w.toNat / 64 % 16 := by
    rw [BitVec.extractLsb'_toNat, Nat.shiftRight_eq_div_pow]
  simp only [handleOf, unusedHandleBits_eq_zero, hslot, hgen]

/-- Decoding inverts the numeric form: a word decodes to the one handle whose form it is. -/
theorem handleOf_eq_some {w : Word} {h : Handle} : handleOf w = some h ↔ w.toNat = h.code := by
  obtain ⟨slot, gen⟩ := h
  rw [handleOf_eq]
  split_ifs with hunused hslot
  · simp only [Option.some.injEq, Handle.mk.injEq, Fin.ext_iff, Handle.code]
    omega
  · simp only [false_iff, Handle.code]
    omega
  · have hcode := Handle.code_lt ⟨slot, gen⟩
    simp only [false_iff]
    omega

theorem handleOf_eq_none {w : Word} : handleOf w = none ↔ w.toNat ≥ 1024 ∨ w.toNat % 64 ≥ 48 := by
  rw [handleOf_eq]
  split_ifs with hunused hslot
  · simp only [false_iff]
    omega
  · simp only [true_iff]
    omega
  · simp only [true_iff]
    omega

theorem handleOf_code (h : Handle) : handleOf (BitVec.ofNat 16 h.code) = some h :=
  handleOf_eq_some.mpr (Nat.mod_eq_of_lt (h.code_lt.trans (by decide)))

/-! ### Patterns -/

/-- A field that fills the range of its index is that index. -/
theorem mk_eq_ofNat {n b : Nat} [NeZero b] (h : n < b) : (⟨n, h⟩ : Fin b) = Fin.ofNat b n :=
  Fin.ext (Nat.mod_eq_of_lt h).symm

theorem patternOf_steady {b : Byte} (h : (b.extractLsb' 0 2).toNat = 0) : patternOf b = .steady := by
  simp only [patternOf, h]

theorem patternOf_blink {b : Byte} (h : (b.extractLsb' 0 2).toNat = 1) :
    patternOf b = .blink (Fin.ofNat 4 (b.extractLsb' 2 2).toNat) (if b.getLsbD 4 then .inverted else .normal) := by
  simp only [patternOf, h]
  rw [mk_eq_ofNat]

theorem patternOf_flash {b : Byte} (h : (b.extractLsb' 0 2).toNat = 2) :
    patternOf b = .flash (Fin.ofNat 8 (b.extractLsb' 5 3).toNat) := by
  simp only [patternOf, h]
  rw [mk_eq_ofNat]

theorem patternOf_combine {b : Byte} (h : (b.extractLsb' 0 2).toNat = 3) :
    patternOf b = .combine (Fin.ofNat 8 (b.extractLsb' 5 3).toNat) (Fin.ofNat 4 (b.extractLsb' 2 2).toNat) := by
  simp only [patternOf, h]
  rw [mk_eq_ofNat, mk_eq_ofNat]

/-! ### Lease words and enumerated arguments -/

theorem argLease_absent {p : Port} {s : State} (h : ((arg s p 3).extractLsb' 0 8).toNat = 0) :
    argLease s p = some none := by
  simp only [argLease, leaseOf, if_pos h]

theorem argLease_length {p : Port} {s : State} (hpos : 0 < ((arg s p 3).extractLsb' 0 8).toNat)
    (hle : ((arg s p 3).extractLsb' 0 8).toNat ≤ 250) :
    argLease s p = some (some { length := Fin.ofNat 251 ((arg s p 3).extractLsb' 0 8).toNat, start := s.now }) := by
  simp only [argLease, leaseOf, if_neg hpos.ne', dif_pos (Nat.lt_succ_of_le hle)]
  rw [mk_eq_ofNat]

/-- The codes of a value with two codes, as a case distinction on the number. -/
theorem twoValued_eq {α : Type} (n : Nat) (zero one : α) :
    twoValued n zero one = if n = 0 then some zero else if n = 1 then some one else none := by
  match n with
  | 0 => rfl
  | 1 => rfl
  | n + 2 => rw [if_neg (by omega), if_neg (by omega)]; rfl

theorem watchKindOf_eq (n : Nat) : watchKindOf n =
    if n = 0 then some .winner else if n = 1 then some .fault else if n = 2 then some .line else none := by
  match n with
  | 0 => rfl
  | 1 => rfl
  | 2 => rfl
  | n + 3 => rw [if_neg (by omega), if_neg (by omega), if_neg (by omega)]; rfl

/-- Settles O52: the numeric form of a handle is inverted by decoding; each field is read by its bits and each code by its
value. -/
theorem handleAndPatternCodesDecode : Obligations.HandleAndPatternCodesDecode := by
  refine ⟨handleOf_code, fun _ => handleOf_eq_none, fun _ _ h => handleOf_eq_some.mp h, rfl, ?patternShown,
    fun _ => ⟨patternOf_steady, patternOf_blink, patternOf_flash, patternOf_combine⟩, fun _ _ => ⟨rfl, rfl, rfl⟩,
    fun _ _ => ⟨argLease_absent, argLease_length, argLease_eq_none.mpr⟩,
    fun _ _ => ⟨twoValued_eq _ _ _, twoValued_eq _ _ _⟩, ?enumerated, fun _ => rfl, rfl, rfl, rfl,
    fun _ => rfl, fun _ => rfl, fun _ _ _ => ⟨rfl, rfl, rfl⟩⟩
  case patternShown => exact fun _ _ => ⟨rfl, rfl, rfl, rfl, rfl⟩
  case enumerated =>
    exact fun n => ⟨twoValued_eq n _ _, twoValued_eq n _ _, twoValued_eq n _ _, twoValued_eq n _ _, twoValued_eq n _ _,
      watchKindOf_eq n⟩

end Sys2Proof.Machine
